-- ==== Sys2Proof/Word.lean ====
section
/-! DEFINITION. The word types of the Fjaroc F8 and the plainest arithmetic on them (00_scope R4 to R7). -/

namespace Sys2Proof

/-- A byte, the smallest addressable unit (R7). -/
abbrev Byte := BitVec 8
/-- An instruction word, and the width of FP32 and INT32 (R94). -/
abbrev Word := BitVec 32
/-- A general register, an address, a queue entry (R51). -/
abbrev Dword := BitVec 64
/-- A 7-bit register field of an instruction (R95). -/
abbrev Reg := BitVec 7
/-- A vector register: 2,048 bytes, byte 0 in the low bits (R56). -/
abbrev VReg := BitVec 16384
/-- A predicate register or a mask with one bit for each element index (R59). -/
abbrev Mask := BitVec 2048
/-- One row of the accumulator store: 192 lanes of 32 bits, lane 0 in the low bits (R70). -/
abbrev AcsRow := BitVec 6144
/-- A run of bytes, lowest address first. -/
abbrev Bytes := List Byte

/-- The truth value of a comparison as a 64-bit integer (R117). -/
def boolWord (b : Bool) : Dword := if b then 1 else 0

/-- The value of little-endian bytes (R7). -/
def leNat : Bytes → Nat
  | [] => 0
  | b :: bs => b.toNat + 256 * leNat bs

/-- The `n` little-endian bytes of a value (R7). -/
def leBytes : Nat → Nat → Bytes
  | 0, _ => []
  | n + 1, v => BitVec.ofNat 8 v :: leBytes n (v / 256)

/-- The two instruction streams of a thread (02_state, R49). -/
inductive Strm where
  | a  -- the access stream
  | x  -- the execute stream
  deriving DecidableEq, Repr

/-- The operation of an atomic read-modify-write (R187, R188, R393). -/
inductive RmwOp where
  | add | and | or | xor | min | max | minu | maxu | swap | fadd32 | fadd64
  | cas (wide : Bool)   -- compare and swap on 4 or 8 bytes
  deriving DecidableEq, Repr

/-- Which request of which device a request that arrives is: a target applies each at most once (R401, R410). -/
structure ReqFrom where
  acc : BitVec 10      -- the source's accelerator ID
  id : Nat             -- the request's identity there
  deriving DecidableEq, Repr

/-- A contribution to a RED page as it reaches the home (R407): the line, the reduction index, the contributor index,
what the sender's table entry says of the reduction, and the 256 bytes. -/
structure RedMsg where
  pa : Nat
  ridx : Nat
  cidx : Nat
  op : Nat
  fmt : Nat
  n : Nat
  tmo : Nat
  ordered : Bool
  data : Bytes
  deriving DecidableEq, Repr

/-- What a device finds when it boots (R437 to R440): the images in flash (trust, Mirori, usher) and those the host has
placed for an armed update; whether the fuses or the memory fail; the fused seed, key revocations and public keys; the
physical cores that fail their test. -/
structure BootInput where
  images : List Bytes
  staged : List Bytes
  fuseFault : Bool
  memoryFault : Bool
  seed : BitVec 256
  revoked : Nat
  keys : List Bytes
  bad : List Nat
  deriving DecidableEq, Repr

/-- A rectangle of the virtual grid: its origin (die, cluster, core) and its extents (R369, R383). -/
structure Rect where
  d0 : Nat
  c0 : Nat
  k0 : Nat
  dies : Nat
  clusters : Nat
  cores : Nat
  deriving DecidableEq, Repr

/-- The host's request for a partition (R383, R445). -/
structure PartReq where
  number : Nat
  vf : Nat
  rects : List Rect            -- its core set
  windows : List (Nat × Nat)
  entryVa : Nat                -- where its usher sees the entry
  galleryVa : Nat
  remapVa : Nat
  ctxBase : Nat
  ctxSlot : Nat
  usherCore : Nat
  usherSlot : Nat
  usherVa : Nat
  tvec : Nat
  nameBase : Nat
  nameCount : Nat
  gang : Nat                   -- gang id, 0 for none
  jobKey : Nat
  accId : Nat
  gown : Nat                   -- the multicast groups that belong to the partition
  deriving DecidableEq, Repr

/-- The partition a host's AtomicOp is for, and whether it comes as IDE traffic with the T bit set (R393, R444). -/
structure HostFrom where
  part : Nat
  ide : Bool
  deriving DecidableEq, Repr

/-- A host request to the memory of a virtual function's partition, by physical address (log 12). -/
inductive HostOp where
  | read (pa : BitVec 64) (n : Nat)
  | write (pa : BitVec 64) (data : Bytes)
  deriving DecidableEq, Repr

/-- An SPDM message: its session (none outside one), and its payload after the code (R442). -/
structure SpdmMsg where
  session : Option Nat
  payload : Bytes
  deriving DecidableEq, Repr

end Sys2Proof
end

