-- ==== Sys2Proof/Syntax.lean ====
section
/-! DEFINITION. The abstract syntax: one constructor for each row of spec/opcode_table.json. The first 345 rows are
the encoded instructions of 04_encoding R104 to R112; the other 92 are the device's own events
(95_what_each_step_holds), which have no word. -/


namespace Sys2Proof

/-- The instructions and device events of the F8 (spec/opcode_table.json). -/
inductive Instr where
  /-- ADD (R117). Writes sa + sb modulo 2^64 to sd. -/
  | add (d : Reg) (a : Reg) (b : Reg)
  /-- SUB (R117). Writes sa - sb modulo 2^64 to sd. -/
  | sub (d : Reg) (a : Reg) (b : Reg)
  /-- AND (R117). Writes the bitwise AND of sa and sb to sd. -/
  | and (d : Reg) (a : Reg) (b : Reg)
  /-- OR (R117). Writes the bitwise OR of sa and sb to sd. -/
  | or (d : Reg) (a : Reg) (b : Reg)
  /-- XOR (R117). Writes the bitwise XOR of sa and sb to sd. -/
  | xor (d : Reg) (a : Reg) (b : Reg)
  /-- SHL (R117). Shifts sa left by sb mod 64. -/
  | shl (d : Reg) (a : Reg) (b : Reg)
  /-- SHR (R117). Shifts sa right logically by sb mod 64. -/
  | shr (d : Reg) (a : Reg) (b : Reg)
  /-- SRA (R117). Shifts sa right arithmetically by sb mod 64. -/
  | sra (d : Reg) (a : Reg) (b : Reg)
  /-- MIN (R117). Writes the signed minimum of sa and sb. -/
  | min (d : Reg) (a : Reg) (b : Reg)
  /-- MAX (R117). Writes the signed maximum of sa and sb. -/
  | max (d : Reg) (a : Reg) (b : Reg)
  /-- MINU (R117). Writes the unsigned minimum of sa and sb. -/
  | minu (d : Reg) (a : Reg) (b : Reg)
  /-- MAXU (R117). Writes the unsigned maximum of sa and sb. -/
  | maxu (d : Reg) (a : Reg) (b : Reg)
  /-- SLT (R117). Writes 1 if sa < sb signed, else 0. -/
  | slt (d : Reg) (a : Reg) (b : Reg)
  /-- SLTU (R117). Writes 1 if sa < sb unsigned, else 0. -/
  | sltu (d : Reg) (a : Reg) (b : Reg)
  /-- SEQ (R117). Writes 1 if sa equals sb, else 0. -/
  | seq (d : Reg) (a : Reg) (b : Reg)
  /-- SEL (R117). Writes sa if sd is nonzero, else sb, into sd. -/
  | sel (d : Reg) (a : Reg) (b : Reg)
  /-- MUL (R118). Writes the low 64 bits of sa times sb. -/
  | mul (d : Reg) (a : Reg) (b : Reg)
  /-- MULH (R118). Writes the high 64 bits of the signed product. -/
  | mulh (d : Reg) (a : Reg) (b : Reg)
  /-- MULHU (R118). Writes the high 64 bits of the unsigned product. -/
  | mulhu (d : Reg) (a : Reg) (b : Reg)
  /-- DIV (R118). Writes the signed quotient rounded toward zero. -/
  | div (d : Reg) (a : Reg) (b : Reg)
  /-- DIVU (R118). Writes the unsigned quotient. -/
  | divu (d : Reg) (a : Reg) (b : Reg)
  /-- REM (R118). Writes the signed remainder with the sign of the dividend. -/
  | rem (d : Reg) (a : Reg) (b : Reg)
  /-- REMU (R118). Writes the unsigned remainder. -/
  | remu (d : Reg) (a : Reg) (b : Reg)
  /-- CLZ (R118). Counts leading zero bits of sa. -/
  | clz (d : Reg) (a : Reg)
  /-- CTZ (R118). Counts trailing zero bits of sa. -/
  | ctz (d : Reg) (a : Reg)
  /-- POPC (R118). Counts the one bits of sa. -/
  | popc (d : Reg) (a : Reg)
  /-- SXB (R118). Sign-extends sa[7:0] to 64 bits. -/
  | sxb (d : Reg) (a : Reg)
  /-- SXH (R118). Sign-extends sa[15:0] to 64 bits. -/
  | sxh (d : Reg) (a : Reg)
  /-- SXW (R118). Sign-extends sa[31:0] to 64 bits. -/
  | sxw (d : Reg) (a : Reg)
  /-- ADDI (R119). Adds the sign-extended imm11 to sa. -/
  | addi (d : Reg) (a : Reg) (i : BitVec 11)
  /-- ANDI (R119). ANDs sa with the zero-extended imm11. -/
  | andi (d : Reg) (a : Reg) (i : BitVec 11)
  /-- ORI (R119). ORs sa with the zero-extended imm11. -/
  | ori (d : Reg) (a : Reg) (i : BitVec 11)
  /-- XORI (R119). XORs sa with the zero-extended imm11. -/
  | xori (d : Reg) (a : Reg) (i : BitVec 11)
  /-- SHLI (R119). Shifts sa left by imm11[5:0]. -/
  | shli (d : Reg) (a : Reg) (i : BitVec 6)
  /-- SHRI (R119). Shifts sa right logically by imm11[5:0]. -/
  | shri (d : Reg) (a : Reg) (i : BitVec 6)
  /-- SRAI (R119). Shifts sa right arithmetically by imm11[5:0]. -/
  | srai (d : Reg) (a : Reg) (i : BitVec 6)
  /-- SLTI (R119). Writes 1 if sa is below the sign-extended imm11. -/
  | slti (d : Reg) (a : Reg) (i : BitVec 11)
  /-- LI (R119). Writes imm18 sign-extended to sd. -/
  | li (d : Reg) (i : BitVec 18)
  /-- LSH (R119). Writes (sd << 18) | imm18 to sd. -/
  | lsh (d : Reg) (i : BitVec 18)
  /-- SFADD (R121). FP64 add rounded in the fmode mode. -/
  | sfadd (d : Reg) (a : Reg) (b : Reg)
  /-- SFSUB (R121). FP64 subtract rounded in the fmode mode. -/
  | sfsub (d : Reg) (a : Reg) (b : Reg)
  /-- SFMUL (R121). FP64 multiply rounded in the fmode mode. -/
  | sfmul (d : Reg) (a : Reg) (b : Reg)
  /-- SFDIV (R121). FP64 divide rounded in the fmode mode. -/
  | sfdiv (d : Reg) (a : Reg) (b : Reg)
  /-- SFSQRT (R121). FP64 square root rounded in the fmode mode. -/
  | sfsqrt (d : Reg) (a : Reg)
  /-- SFMIN (R121). FP64 minimumNumber of sa and sb. -/
  | sfmin (d : Reg) (a : Reg) (b : Reg)
  /-- SFMAX (R121). FP64 maximumNumber of sa and sb. -/
  | sfmax (d : Reg) (a : Reg) (b : Reg)
  /-- SFMA (R121). Fused sd + sa x sb in FP64 with one rounding. -/
  | sfma (d : Reg) (a : Reg) (b : Reg)
  /-- SFEQ (R121). Writes 1 if the FP64 operands compare equal. -/
  | sfeq (d : Reg) (a : Reg) (b : Reg)
  /-- SFLT (R121). Writes 1 if sa < sb in FP64. -/
  | sflt (d : Reg) (a : Reg) (b : Reg)
  /-- SFLE (R121). Writes 1 if sa <= sb in FP64. -/
  | sfle (d : Reg) (a : Reg) (b : Reg)
  /-- SCVDL (R122). Converts INT64 to FP64. -/
  | scvdl (d : Reg) (a : Reg)
  /-- SCVLD (R122). Converts FP64 to INT64 with saturation. -/
  | scvld (d : Reg) (a : Reg)
  /-- SCVDF (R122). Converts FP32 to FP64 exactly. -/
  | scvdf (d : Reg) (a : Reg)
  /-- SCVFD (R122). Converts FP64 to FP32. -/
  | scvfd (d : Reg) (a : Reg)
  /-- SCVDH (R122). Converts FP16 to FP64 exactly. -/
  | scvdh (d : Reg) (a : Reg)
  /-- SCVHD (R122). Converts FP64 to FP16. -/
  | scvhd (d : Reg) (a : Reg)
  /-- SCVDB (R122). Converts BF16 to FP64 exactly. -/
  | scvdb (d : Reg) (a : Reg)
  /-- SCVBD (R122). Converts FP64 to BF16. -/
  | scvbd (d : Reg) (a : Reg)
  /-- B (R124). Branches unconditionally. -/
  | b (o : BitVec 18)
  /-- BZ (R124). Branches when the scalar is zero. -/
  | bz (c : Reg) (o : BitVec 18)
  /-- BNZ (R124). Branches when the scalar is nonzero. -/
  | bnz (c : Reg) (o : BitVec 18)
  /-- BLTZ (R124). Branches when the scalar is negative. -/
  | bltz (c : Reg) (o : BitVec 18)
  /-- BGEZ (R124). Branches when the scalar is non-negative. -/
  | bgez (c : Reg) (o : BitVec 18)
  /-- CALL (R128). Pushes the return address on the link stack and branches. -/
  | call (o : BitVec 18)
  /-- RET (R128). Pops the link stack and continues at the popped address. -/
  | ret
  /-- JR (R129). Continues at the address in sa. -/
  | jr (a : Reg)
  /-- BQ (R125). Pops a branch queue and branches on the popped outcome. -/
  | bq (c : Reg) (o : BitVec 18)
  /-- BANY (R126). Branches when any predicate bit below vl is set. -/
  | bany (c : Reg) (o : BitVec 18)
  /-- BNONE (R126). Branches when no predicate bit below vl is set. -/
  | bnone (c : Reg) (o : BitVec 18)
  /-- SMB (R136). Retires a strip, advances address registers, grants the next length and branches. -/
  | smb (d : Reg) (k : BitVec 3) (m : BitVec 4) (o : BitVec 11)
  /-- BEND (R127). Branches when the end flag of the bound stream's last consumed chunk is set. -/
  | bend (c : Reg) (o : BitVec 18)
  /-- NOP (R130). Has no effect. -/
  | nop
  /-- YIELD (R130). Passes the stream's issue turn to the next ready thread. -/
  | yield
  /-- TRAP (R130). Takes SWT with code25 in EINFO. -/
  | trap (c : BitVec 25)
  /-- VLGET (R133). Sets vtype and writes a grant to vl and sd. -/
  | vlget (d : Reg) (a : Reg) (k : BitVec 1) (t : BitVec 4)
  /-- VLOOP (R134). Opens a loop context and writes its first grant. -/
  | vloop (d : Reg) (a : Reg) (j : BitVec 1) (k : BitVec 1) (t : BitVec 4)
  /-- STAIR (R92). Replays the following buffer over up to six flights, stepping scalars. -/
  | stair (d : Reg) (a : Reg) (l : BitVec 6) (f : BitVec 3)
  /-- STFLG (R139). Sets the pending first-only or last-only mask of one flight. -/
  | stflg (a : Reg) (k : BitVec 1) (f : BitVec 6)
  /-- STSTEP (R92). Names the pending stepped scalars of the next stair. -/
  | ststep (d : Reg) (a : Reg) (b : Reg) (m : BitVec 4)
  /-- WBASE (R141). Sets the vector window base, or checks it in A. -/
  | wbase (w : BitVec 6)
  /-- FMODE (R141). Sets fmode bits [6:0]. -/
  | fmode (m : Reg)
  /-- SCOPE (R141). Sets the A stream's scope id. -/
  | scope (i : BitVec 5)
  /-- VMASK (R141). Sets the governing predicate. -/
  | vmask (p : Reg)
  /-- LDB (R184). Loads one byte zero-extended. -/
  | ldb (d : Reg) (a : Reg) (i : BitVec 11)
  /-- LDH (R184). Loads two bytes zero-extended. -/
  | ldh (d : Reg) (a : Reg) (i : BitVec 11)
  /-- LDW (R184). Loads four bytes zero-extended. -/
  | ldw (d : Reg) (a : Reg) (i : BitVec 11)
  /-- LDD (R184). Loads eight bytes. -/
  | ldd (d : Reg) (a : Reg) (i : BitVec 11)
  /-- STB (R184). Stores the low byte of sd. -/
  | stb (d : Reg) (a : Reg) (i : BitVec 11)
  /-- STH (R184). Stores the low two bytes of sd. -/
  | sth (d : Reg) (a : Reg) (i : BitVec 11)
  /-- STW (R184). Stores the low four bytes of sd. -/
  | stw (d : Reg) (a : Reg) (i : BitVec 11)
  /-- STD (R184). Stores eight bytes of sd. -/
  | std (d : Reg) (a : Reg) (i : BitVec 11)
  /-- ASET (R186). Sets an address register from a scalar. -/
  | aset (d : Reg) (a : Reg)
  /-- AGET (R186). Reads an address register into a scalar. -/
  | aget (d : Reg) (a : Reg)
  /-- ASTR (R186). Sets the stride of an address register. -/
  | astr (d : Reg) (a : Reg)
  /-- AADD (R186). Adds a scalar to an address register. -/
  | aadd (d : Reg) (a : Reg)
  /-- AGSTR (R186). Reads the stride of an address register. -/
  | agstr (d : Reg) (a : Reg)
  /-- LDS (R185). Synchronising load with ordering and width fields. -/
  | lds (d : Reg) (a : Reg) (o : BitVec 2) (w : BitVec 2)
  /-- STS (R185). Synchronising store with ordering and width fields. -/
  | sts (d : Reg) (a : Reg) (o : BitVec 2) (w : BitVec 2)
  /-- AMO_ADD (R187). Relaxed atomic add returning the old value. -/
  | amoAdd (d : Reg) (a : Reg) (b : Reg)
  /-- AMO_AND (R187). Relaxed atomic AND. -/
  | amoAnd (d : Reg) (a : Reg) (b : Reg)
  /-- AMO_OR (R187). Relaxed atomic OR. -/
  | amoOr (d : Reg) (a : Reg) (b : Reg)
  /-- AMO_XOR (R187). Relaxed atomic XOR. -/
  | amoXor (d : Reg) (a : Reg) (b : Reg)
  /-- AMO_MIN (R187). Relaxed atomic signed minimum. -/
  | amoMin (d : Reg) (a : Reg) (b : Reg)
  /-- AMO_MAX (R187). Relaxed atomic signed maximum. -/
  | amoMax (d : Reg) (a : Reg) (b : Reg)
  /-- AMO_MINU (R187). Relaxed atomic unsigned minimum. -/
  | amoMinu (d : Reg) (a : Reg) (b : Reg)
  /-- AMO_MAXU (R187). Relaxed atomic unsigned maximum. -/
  | amoMaxu (d : Reg) (a : Reg) (b : Reg)
  /-- AMO_SWAP (R187). Relaxed atomic swap. -/
  | amoSwap (d : Reg) (a : Reg) (b : Reg)
  /-- AMO_FADD32 (R187). Relaxed atomic FP32 add rounded RNE. -/
  | amoFadd32 (d : Reg) (a : Reg) (b : Reg)
  /-- AMO_FADD64 (R187). Relaxed atomic FP64 add rounded RNE. -/
  | amoFadd64 (d : Reg) (a : Reg) (b : Reg)
  /-- AMOA_ADD (R187). Acquire atomic add. -/
  | amoaAdd (d : Reg) (a : Reg) (b : Reg)
  /-- AMOA_AND (R187). Acquire atomic AND. -/
  | amoaAnd (d : Reg) (a : Reg) (b : Reg)
  /-- AMOA_OR (R187). Acquire atomic OR. -/
  | amoaOr (d : Reg) (a : Reg) (b : Reg)
  /-- AMOA_XOR (R187). Acquire atomic XOR. -/
  | amoaXor (d : Reg) (a : Reg) (b : Reg)
  /-- AMOA_MIN (R187). Acquire atomic signed minimum. -/
  | amoaMin (d : Reg) (a : Reg) (b : Reg)
  /-- AMOA_MAX (R187). Acquire atomic signed maximum. -/
  | amoaMax (d : Reg) (a : Reg) (b : Reg)
  /-- AMOA_MINU (R187). Acquire atomic unsigned minimum. -/
  | amoaMinu (d : Reg) (a : Reg) (b : Reg)
  /-- AMOA_MAXU (R187). Acquire atomic unsigned maximum. -/
  | amoaMaxu (d : Reg) (a : Reg) (b : Reg)
  /-- AMOA_SWAP (R187). Acquire atomic swap. -/
  | amoaSwap (d : Reg) (a : Reg) (b : Reg)
  /-- AMOA_FADD32 (R187). Acquire atomic FP32 add. -/
  | amoaFadd32 (d : Reg) (a : Reg) (b : Reg)
  /-- AMOA_FADD64 (R187). Acquire atomic FP64 add. -/
  | amoaFadd64 (d : Reg) (a : Reg) (b : Reg)
  /-- AMOL_ADD (R187). Release atomic add. -/
  | amolAdd (d : Reg) (a : Reg) (b : Reg)
  /-- AMOL_AND (R187). Release atomic AND. -/
  | amolAnd (d : Reg) (a : Reg) (b : Reg)
  /-- AMOL_OR (R187). Release atomic OR. -/
  | amolOr (d : Reg) (a : Reg) (b : Reg)
  /-- AMOL_XOR (R187). Release atomic XOR. -/
  | amolXor (d : Reg) (a : Reg) (b : Reg)
  /-- AMOL_MIN (R187). Release atomic signed minimum. -/
  | amolMin (d : Reg) (a : Reg) (b : Reg)
  /-- AMOL_MAX (R187). Release atomic signed maximum. -/
  | amolMax (d : Reg) (a : Reg) (b : Reg)
  /-- AMOL_MINU (R187). Release atomic unsigned minimum. -/
  | amolMinu (d : Reg) (a : Reg) (b : Reg)
  /-- AMOL_MAXU (R187). Release atomic unsigned maximum. -/
  | amolMaxu (d : Reg) (a : Reg) (b : Reg)
  /-- AMOL_SWAP (R187). Release atomic swap. -/
  | amolSwap (d : Reg) (a : Reg) (b : Reg)
  /-- AMOL_FADD32 (R187). Release atomic FP32 add. -/
  | amolFadd32 (d : Reg) (a : Reg) (b : Reg)
  /-- AMOL_FADD64 (R187). Release atomic FP64 add. -/
  | amolFadd64 (d : Reg) (a : Reg) (b : Reg)
  /-- AMOX_ADD (R187). Acquire-release atomic add. -/
  | amoxAdd (d : Reg) (a : Reg) (b : Reg)
  /-- AMOX_AND (R187). Acquire-release atomic AND. -/
  | amoxAnd (d : Reg) (a : Reg) (b : Reg)
  /-- AMOX_OR (R187). Acquire-release atomic OR. -/
  | amoxOr (d : Reg) (a : Reg) (b : Reg)
  /-- AMOX_XOR (R187). Acquire-release atomic XOR. -/
  | amoxXor (d : Reg) (a : Reg) (b : Reg)
  /-- AMOX_MIN (R187). Acquire-release atomic signed minimum. -/
  | amoxMin (d : Reg) (a : Reg) (b : Reg)
  /-- AMOX_MAX (R187). Acquire-release atomic signed maximum. -/
  | amoxMax (d : Reg) (a : Reg) (b : Reg)
  /-- AMOX_MINU (R187). Acquire-release atomic unsigned minimum. -/
  | amoxMinu (d : Reg) (a : Reg) (b : Reg)
  /-- AMOX_MAXU (R187). Acquire-release atomic unsigned maximum. -/
  | amoxMaxu (d : Reg) (a : Reg) (b : Reg)
  /-- AMOX_SWAP (R187). Acquire-release atomic swap. -/
  | amoxSwap (d : Reg) (a : Reg) (b : Reg)
  /-- AMOX_FADD32 (R187). Acquire-release atomic FP32 add. -/
  | amoxFadd32 (d : Reg) (a : Reg) (b : Reg)
  /-- AMOX_FADD64 (R187). Acquire-release atomic FP64 add. -/
  | amoxFadd64 (d : Reg) (a : Reg) (b : Reg)
  /-- CAS (R188). Compare-and-swap with ordering and width fields. -/
  | cas (d : Reg) (a : Reg) (b : Reg) (w : BitVec 2) (o : BitVec 2)
  /-- FENCE (R189). Orders accesses by its kind, optionally including engine transfers. -/
  | fence (e : BitVec 1) (k : BitVec 2)
  /-- WAITA (R190). Parks until a memory word meets a condition, then acquires it. -/
  | waita (d : Reg) (a : Reg) (w : BitVec 1) (c : BitVec 2)
  /-- BARR (R193). Applies one counted arrival to a barrier object. -/
  | barr (d : Reg) (a : Reg) (b : Reg)
  /-- BARRT (R193). Applies an arrival and traps BOVR on overrun. -/
  | barrt (d : Reg) (a : Reg) (b : Reg)
  /-- BINIT (R194). Initialises a barrier object with an expected count. -/
  | binit (d : Reg) (a : Reg) (b : Reg)
  /-- BDISS (R194). Dissolves a barrier object and wakes its waiters. -/
  | bdiss (d : Reg) (a : Reg)
  /-- BWAIT (R195). Waits for a barrier phase change, dissolution or deadline. -/
  | bwait (d : Reg) (a : Reg) (b : Reg)
  /-- VWAIT (R196). Waits for a producer count and sets the arm limit. -/
  | vwait (d : Reg) (a : Reg) (b : Reg)
  /-- QDRAIN (R145). Parks until the named queue is empty. -/
  | qdrain (a : Reg)
  /-- QCNT (R144). Writes the entry count of the named queue. -/
  | qcnt (d : Reg) (a : Reg)
  /-- SLOAD (R198). Loads vl contiguous elements and pushes one chunk. -/
  | sload (d : Reg) (a : Reg)
  /-- SLOAD_SLICE (R201). Loads a TID-described slice into one chunk. -/
  | sloadSlice (d : Reg) (a : Reg) (b : Reg)
  /-- SLOAD_TRIM (R199). Contiguous load that trims at the first faulting element. -/
  | sloadTrim (d : Reg) (a : Reg)
  /-- SSTORE (R200). Pops one chunk and stores its elements contiguously. -/
  | sstore (d : Reg) (a : Reg)
  /-- SSTORE_SLICE (R201). Stores a chunk into a TID-described slice. -/
  | sstoreSlice (d : Reg) (a : Reg) (b : Reg)
  /-- SSTORE_TRIM (R200). Stores a chunk up to the first faulting element. -/
  | sstoreTrim (d : Reg) (a : Reg)
  /-- SGATH (R202). Gathers elements by an index chunk and pushes one chunk. -/
  | sgath (d : Reg) (a : Reg) (b : Reg) (w : BitVec 3)
  /-- SGATHC (R203). Gathers across the alcoves of the cluster. -/
  | sgathc (d : Reg) (a : Reg) (b : Reg) (w : BitVec 3)
  /-- SSCAT (R202). Scatters a data chunk by an index chunk. -/
  | sscat (d : Reg) (a : Reg) (b : Reg) (w : BitVec 3)
  /-- SSCATC (R203). Scatters across the alcoves of the cluster. -/
  | sscatc (d : Reg) (a : Reg) (b : Reg) (w : BitVec 3)
  /-- CPY (R204). Starts a copy from a 64-byte descriptor, parking at 16 outstanding. -/
  | cpy (a : Reg)
  /-- CPYQ (R204). Starts a copy if accepted and reports acceptance in sd. -/
  | cpyq (d : Reg) (a : Reg)
  /-- TIDSET (R210). Validates and copies a tensor identifier record into the table. -/
  | tidset (d : Reg) (a : Reg)
  /-- SVMAP (R241). Validates a state record, writes the identity map and resets amplitudes. -/
  | svmap (d : Reg) (a : Reg)
  /-- SVG1 (R243). Applies a one-qubit gate as a batch of one. -/
  | svg1 (d : Reg) (a : Reg)
  /-- SVG2 (R243). Applies a two-qubit gate as a batch of one. -/
  | svg2 (d : Reg) (a : Reg)
  /-- SVPH (R243). Applies a phase to masked amplitudes. -/
  | svph (d : Reg) (a : Reg)
  /-- SVSWP (R243). Exchanges the amplitudes of two qubits. -/
  | svswp (d : Reg) (a : Reg)
  /-- SVRUN (R242). Applies a batch of up to 8 gates in one pass. -/
  | svrun (d : Reg) (a : Reg)
  /-- SVPROB (R245). Writes P(t0 = 1) as a canonical FP64 sum. -/
  | svprob (d : Reg) (a : Reg)
  /-- LAUNCH (R256). Validates a launch record and appends it to a launch queue. -/
  | launch (d : Reg) (a : Reg) (b : Reg)
  /-- JOIN (R247). Joins a group object, possibly becoming leader. -/
  | join (d : Reg) (a : Reg)
  /-- LEAVE (R247). Leaves a group object. -/
  | leave (d : Reg) (a : Reg)
  /-- GNAME (R247). Names a group in a free name slot. -/
  | gname (d : Reg) (a : Reg)
  /-- GDROP (R247). Drops a group's name and frees its slot. -/
  | gdrop (d : Reg) (a : Reg)
  /-- GINFO (R247). Returns a group's count and name. -/
  | ginfo (d : Reg) (a : Reg)
  /-- GMOVE (R248). Moves a group's leadership, rebinding or renaming its slot. -/
  | gmove (d : Reg) (a : Reg) (b : Reg)
  /-- VADD (R152). Vector integer add modulo 2^w. -/
  | vadd (d : Reg) (a : Reg) (b : Reg) (m : BitVec 1)
  /-- VSUB (R152). Vector integer subtract modulo 2^w. -/
  | vsub (d : Reg) (a : Reg) (b : Reg) (m : BitVec 1)
  /-- VMUL (R152). Vector integer multiply, low w bits. -/
  | vmul (d : Reg) (a : Reg) (b : Reg) (m : BitVec 1)
  /-- VMULH (R152). Vector integer multiply, high w bits. -/
  | vmulh (d : Reg) (a : Reg) (b : Reg) (m : BitVec 1)
  /-- VMIN (R152). Vector integer minimum. -/
  | vmin (d : Reg) (a : Reg) (b : Reg) (m : BitVec 1)
  /-- VMAX (R152). Vector integer maximum. -/
  | vmax (d : Reg) (a : Reg) (b : Reg) (m : BitVec 1)
  /-- VADDS (R152). Vector saturating add. -/
  | vadds (d : Reg) (a : Reg) (b : Reg) (m : BitVec 1)
  /-- VSUBS (R152). Vector saturating subtract. -/
  | vsubs (d : Reg) (a : Reg) (b : Reg) (m : BitVec 1)
  /-- VAND (R153). Vector bitwise AND. -/
  | vand (d : Reg) (a : Reg) (b : Reg) (m : BitVec 1)
  /-- VOR (R153). Vector bitwise OR. -/
  | vor (d : Reg) (a : Reg) (b : Reg) (m : BitVec 1)
  /-- VXOR (R153). Vector bitwise XOR. -/
  | vxor (d : Reg) (a : Reg) (b : Reg) (m : BitVec 1)
  /-- VSHL (R153). Vector shift left. -/
  | vshl (d : Reg) (a : Reg) (b : Reg) (m : BitVec 1)
  /-- VSHR (R153). Vector logical shift right. -/
  | vshr (d : Reg) (a : Reg) (b : Reg) (m : BitVec 1)
  /-- VSRA (R153). Vector arithmetic shift right. -/
  | vsra (d : Reg) (a : Reg) (b : Reg) (m : BitVec 1)
  /-- VANDN (R153). Vector a AND NOT b. -/
  | vandn (d : Reg) (a : Reg) (b : Reg) (m : BitVec 1)
  /-- VFADD (R154). Vector floating add with one rounding. -/
  | vfadd (d : Reg) (a : Reg) (b : Reg) (m : BitVec 1)
  /-- VFSUB (R154). Vector floating subtract. -/
  | vfsub (d : Reg) (a : Reg) (b : Reg) (m : BitVec 1)
  /-- VFMUL (R154). Vector floating multiply. -/
  | vfmul (d : Reg) (a : Reg) (b : Reg) (m : BitVec 1)
  /-- VFDIV (R154). Vector floating divide. -/
  | vfdiv (d : Reg) (a : Reg) (b : Reg) (m : BitVec 1)
  /-- VFMIN (R154). Vector minimumNumber. -/
  | vfmin (d : Reg) (a : Reg) (b : Reg) (m : BitVec 1)
  /-- VFMAX (R154). Vector maximumNumber. -/
  | vfmax (d : Reg) (a : Reg) (b : Reg) (m : BitVec 1)
  /-- VFMA (R154). Vector fused d + a x b. -/
  | vfma (d : Reg) (a : Reg) (b : Reg) (m : BitVec 1)
  /-- VFMS (R154). Vector fused d - a x b. -/
  | vfms (d : Reg) (a : Reg) (b : Reg) (m : BitVec 1)
  /-- VFSQRT (R155). Vector square root. -/
  | vfsqrt (d : Reg) (a : Reg) (m : BitVec 1)
  /-- VFRSQ (R155). Vector reciprocal square root. -/
  | vfrsq (d : Reg) (a : Reg) (m : BitVec 1)
  /-- VLOG2 (R39). Vector base-2 logarithm, correctly rounded. -/
  | vlog2 (d : Reg) (a : Reg) (m : BitVec 1)
  /-- VEXP2 (R39). Vector power of two, correctly rounded. -/
  | vexp2 (d : Reg) (a : Reg) (m : BitVec 1)
  /-- VFABS (R155). Clears each element's sign bit. -/
  | vfabs (d : Reg) (a : Reg) (m : BitVec 1)
  /-- VFNEG (R155). Inverts each element's sign bit. -/
  | vfneg (d : Reg) (a : Reg) (m : BitVec 1)
  /-- VFCLASS (R156). Writes each element's class mask. -/
  | vfclass (d : Reg) (a : Reg) (m : BitVec 1)
  /-- VFRINT (R155). Rounds each element to an integral value. -/
  | vfrint (d : Reg) (a : Reg) (m : BitVec 1)
  /-- VCMP (R157). Compares two vectors elementwise into a predicate. -/
  | vcmp (d : Reg) (a : Reg) (b : Reg) (m : BitVec 1) (c : BitVec 3)
  /-- VCMPX (R157). Compares a vector with a scalar into a predicate. -/
  | vcmpx (d : Reg) (a : Reg) (b : Reg) (m : BitVec 1) (c : BitVec 3)
  /-- PAND (R158). Predicate AND. -/
  | pand (d : Reg) (a : Reg) (b : Reg)
  /-- POR (R158). Predicate OR. -/
  | por (d : Reg) (a : Reg) (b : Reg)
  /-- PXOR (R158). Predicate XOR. -/
  | pxor (d : Reg) (a : Reg) (b : Reg)
  /-- PANDN (R158). Predicate a AND NOT b. -/
  | pandn (d : Reg) (a : Reg) (b : Reg)
  /-- PNOT (R158). Predicate NOT. -/
  | pnot (d : Reg) (a : Reg)
  /-- PMOV (R158). Predicate copy. -/
  | pmov (d : Reg) (a : Reg)
  /-- PSET (R158). Sets predicate bits below vl. -/
  | pset (d : Reg)
  /-- PCLR (R158). Clears all predicate bits. -/
  | pclr (d : Reg)
  /-- PCNT (R159). Sets the first min(sa, vl) predicate bits. -/
  | pcnt (d : Reg) (a : Reg)
  /-- PCNTT (R159). Sets the first min(sa, vl, ftrim) predicate bits. -/
  | pcntt (d : Reg) (a : Reg)
  /-- PPOP (R160). Counts the set predicate bits below vl. -/
  | ppop (d : Reg) (a : Reg)
  /-- PFIRST (R160). Writes the lowest set predicate index. -/
  | pfirst (d : Reg) (a : Reg)
  /-- PLAST (R160). Writes the highest set predicate index. -/
  | plast (d : Reg) (a : Reg)
  /-- VCVFH (R161). Converts FP16 to FP32. -/
  | vcvfh (d : Reg) (a : Reg)
  /-- VCVFB (R161). Converts BF16 to FP32. -/
  | vcvfb (d : Reg) (a : Reg)
  /-- VCVFE4 (R161). Converts E4M3 to FP32. -/
  | vcvfe4 (d : Reg) (a : Reg)
  /-- VCVFE5 (R161). Converts E5M2 to FP32. -/
  | vcvfe5 (d : Reg) (a : Reg)
  /-- VCVHF (R161). Converts FP32 to FP16. -/
  | vcvhf (d : Reg) (a : Reg)
  /-- VCVBF (R161). Converts FP32 to BF16. -/
  | vcvbf (d : Reg) (a : Reg)
  /-- VCVE4F (R37). Converts FP32 to E4M3 with overflow per SAT. -/
  | vcve4f (d : Reg) (a : Reg)
  /-- VCVE5F (R37). Converts FP32 to E5M2 with overflow per SAT. -/
  | vcve5f (d : Reg) (a : Reg)
  /-- VCVFI (R161). Converts INT32 to FP32. -/
  | vcvfi (d : Reg) (a : Reg)
  /-- VCVIF (R38). Converts FP32 to INT32 with saturation. -/
  | vcvif (d : Reg) (a : Reg)
  /-- VCVDF (R161). Converts FP32 to FP64. -/
  | vcvdf (d : Reg) (a : Reg)
  /-- VCVFD (R35). Converts FP64 to FP32. -/
  | vcvfd (d : Reg) (a : Reg)
  /-- VCVIN (R162). Decodes NI8 planes of a block to INT32. -/
  | vcvin (d : Reg) (a : Reg)
  /-- VCVCI (R161). Converts INT32 to INT8 with saturation. -/
  | vcvci (d : Reg) (a : Reg)
  /-- VCVIC (R161). Converts INT8 to INT32. -/
  | vcvic (d : Reg) (a : Reg)
  /-- VCVFC (R161). Converts INT8 to FP32. -/
  | vcvfc (d : Reg) (a : Reg)
  /-- VDEQ (R164). Dequantizes scaled narrow codes to FP32. -/
  | vdeq (d : Reg) (a : Reg) (b : Reg) (m : BitVec 1)
  /-- VQNT (R165). Quantizes FP32 elements to scaled narrow codes. -/
  | vqnt (d : Reg) (a : Reg) (b : Reg) (m : BitVec 1)
  /-- VPERM (R166). Permutes elements by an index vector. -/
  | vperm (d : Reg) (a : Reg) (b : Reg) (m : BitVec 1)
  /-- VSLUP (R166). Slides elements up by a scalar count. -/
  | vslup (d : Reg) (a : Reg) (b : Reg) (m : BitVec 1)
  /-- VSLDN (R166). Slides elements down by a scalar count. -/
  | vsldn (d : Reg) (a : Reg) (b : Reg) (m : BitVec 1)
  /-- VCOMP (R166). Compresses selected elements to the low end. -/
  | vcomp (d : Reg) (a : Reg) (m : BitVec 1)
  /-- VEXPD (R166). Expands elements into selected positions. -/
  | vexpd (d : Reg) (a : Reg) (m : BitVec 1)
  /-- VZIP (R166). Interleaves two vectors. -/
  | vzip (d : Reg) (a : Reg) (b : Reg) (m : BitVec 1)
  /-- VUZP (R166). De-interleaves two vectors. -/
  | vuzp (d : Reg) (a : Reg) (b : Reg) (m : BitVec 1)
  /-- VREV (R166). Reverses the elements below vl. -/
  | vrev (d : Reg) (a : Reg) (m : BitVec 1)
  /-- VMOV (R167). Copies a vector register. -/
  | vmov (d : Reg) (a : Reg) (m : BitVec 1)
  /-- VSPLAT (R167). Writes a scalar into every element. -/
  | vsplat (d : Reg) (a : Reg) (m : BitVec 1)
  /-- VEXT (R167). Extracts one element into a scalar. -/
  | vext (d : Reg) (a : Reg) (b : Reg)
  /-- VINS (R167). Inserts a scalar into one element. -/
  | vins (d : Reg) (a : Reg) (b : Reg)
  /-- VIOTA (R167). Writes each element's global index. -/
  | viota (d : Reg) (m : BitVec 1)
  /-- VMERGE (R168). Merges two vectors under the governing predicate, raising selected recorded faults. -/
  | vmerge (d : Reg) (a : Reg) (b : Reg)
  /-- VFMSK (R167). Copies the fault mask into a predicate. -/
  | vfmsk (d : Reg)
  /-- VCLRF (R167). Empties the fault mask. -/
  | vclrf
  /-- VRSUM (R169). Integer sum reduction into a scalar. -/
  | vrsum (d : Reg) (a : Reg) (m : BitVec 1)
  /-- VFSUM (R170). Folds the strip into the tree register. -/
  | vfsum (a : Reg) (m : BitVec 1)
  /-- VRMIN (R169). Minimum reduction into a scalar. -/
  | vrmin (d : Reg) (a : Reg) (m : BitVec 1)
  /-- VRMAX (R169). Maximum reduction into a scalar. -/
  | vrmax (d : Reg) (a : Reg) (m : BitVec 1)
  /-- VRAND (R169). Bitwise AND reduction. -/
  | vrand (d : Reg) (a : Reg) (m : BitVec 1)
  /-- VROR (R169). Bitwise OR reduction. -/
  | vror (d : Reg) (a : Reg) (m : BitVec 1)
  /-- VRXOR (R169). Bitwise XOR reduction. -/
  | vrxor (d : Reg) (a : Reg) (m : BitVec 1)
  /-- VTREE (R171). Writes the canonical root of the tree register and empties it. -/
  | vtree (d : Reg)
  /-- VARGMAX (R172). Writes the largest value and its global index. -/
  | vargmax (d : Reg) (a : Reg) (m : BitVec 1)
  /-- VARGMIN (R172). Writes the smallest value and its global index. -/
  | vargmin (d : Reg) (a : Reg) (m : BitVec 1)
  /-- VARGMAXC (R172). Combines a prior pair with the strip's arg-max. -/
  | vargmaxc (d : Reg) (a : Reg) (m : BitVec 1)
  /-- VSCAN (R173). Inclusive integer prefix sum. -/
  | vscan (d : Reg) (a : Reg) (s : BitVec 1)
  /-- VSCANX (R173). Exclusive integer prefix sum. -/
  | vscanx (d : Reg) (a : Reg) (s : BitVec 1)
  /-- VFSCAN (R173). Sequential floating prefix sum. -/
  | vfscan (d : Reg) (a : Reg) (s : BitVec 1)
  /-- VMSCAN (R173). Running maximum. -/
  | vmscan (d : Reg) (a : Reg) (s : BitVec 1)
  /-- VSEGR_ADD (R174). Segmented integer sum packed low. -/
  | vsegrAdd (d : Reg) (a : Reg) (s : BitVec 1)
  /-- VSEGR_MIN (R174). Segmented integer minimum. -/
  | vsegrMin (d : Reg) (a : Reg) (s : BitVec 1)
  /-- VSEGR_MAX (R174). Segmented integer maximum. -/
  | vsegrMax (d : Reg) (a : Reg) (s : BitVec 1)
  /-- VSEGR_AND (R174). Segmented bitwise AND. -/
  | vsegrAnd (d : Reg) (a : Reg) (s : BitVec 1)
  /-- VSEGR_OR (R174). Segmented bitwise OR. -/
  | vsegrOr (d : Reg) (a : Reg) (s : BitVec 1)
  /-- VSEGR_FADD (R174). Segmented canonical floating sum. -/
  | vsegrFadd (d : Reg) (a : Reg) (s : BitVec 1)
  /-- VSEGR_FMIN (R174). Segmented floating minimum. -/
  | vsegrFmin (d : Reg) (a : Reg) (s : BitVec 1)
  /-- VSEGR_FMAX (R174). Segmented floating maximum. -/
  | vsegrFmax (d : Reg) (a : Reg) (s : BitVec 1)
  /-- VRNDL (R175). Writes the low 32 bits of the mixer per element. -/
  | vrndl (d : Reg) (m : BitVec 1)
  /-- VRNDH (R175). Writes the high 32 bits of the mixer per element. -/
  | vrndh (d : Reg) (m : BitVec 1)
  /-- VRNDU (R175). Writes a uniform FP32 per element. -/
  | vrndu (d : Reg) (m : BitVec 1)
  /-- VBIN (R176). Binds a register as consumer of an inbound stream. -/
  | vbin (d : Reg) (a : Reg)
  /-- VBOUT (R176). Binds a register as producer of an outbound stream. -/
  | vbout (d : Reg) (a : Reg)
  /-- VUNB (R178). Removes a register's binding, ending an outbound stream. -/
  | vunb (d : Reg)
  /-- MTILE (R212). Pops a tile FIFO head into a stationary slot. -/
  | mtile (d : Reg) (a : Reg) (b : Reg)
  /-- MROW (R213). Multiplies an activation row by a slot's tile into an ACS row. -/
  | mrow (d : Reg) (a : Reg) (b : Reg) (k : BitVec 1) (j : BitVec 1)
  /-- MACCF (R214). Reads an ACS row as FP32. -/
  | maccf (d : Reg) (a : Reg)
  /-- MACC (R214). Reads an ACS row as INT32 with saturation. -/
  | macc (d : Reg) (a : Reg)
  /-- MACCZ (R214). Reads an ACS row raw and zeroes it. -/
  | maccz (d : Reg) (a : Reg)
  /-- MZERO (R215). Zeroes a range of ACS rows. -/
  | mzero (a : Reg) (b : Reg)
  /-- MSTAT (R216). Reads the matrix status. -/
  | mstat (d : Reg)
  /-- MSTATC (R216). Reads the matrix status and clears its sticky flags. -/
  | mstatc (d : Reg)
  /-- RCOPEN (R220). Opens a race and resets its registers and region. -/
  | rcopen (a : Reg)
  /-- RCNOISE (R222). Writes the Gumbel noise of each global index. -/
  | rcnoise (d : Reg)
  /-- RCSCORE (R223). Turns logit intervals into score intervals for LIVE entries. -/
  | rcscore (d : Reg) (a : Reg)
  /-- RCCUT (R224). Settles exact entries, raises the bar and drops losers. -/
  | rccut (d : Reg) (a : Reg)
  /-- RCEXACT (R225). Scores entries exactly from their logits. -/
  | rcexact (d : Reg) (a : Reg)
  /-- RCPOST (R227). Forms a race record and sends it as a remote store. -/
  | rcpost (a : Reg) (b : Reg)
  /-- RCMERGE (R228). Merges the race records held in a mailbox register. -/
  | rcmerge (d : Reg)
  /-- RCBAR (R229). Raises the bar to a given score. -/
  | rcbar (a : Reg)
  /-- RCPROB (R230). Writes probability bounds and the exact probability of the winner. -/
  | rcprob (d : Reg)
  /-- RCGET (R221). Reads a race register. -/
  | rcget (d : Reg) (b : Reg)
  /-- RCPUT (R221). Writes a race register. -/
  | rcput (a : Reg) (b : Reg)
  /-- RCCLOSE (R229). Closes the open race. -/
  | rcclose
  /-- FNSET (R234). Sets a function register from coefficients and a domain. -/
  | fnset (d : Reg) (a : Reg) (b : Reg)
  /-- FNGET (R239). Writes a function register's contents to a vector. -/
  | fnget (d : Reg) (a : Reg)
  /-- FNADD (R234). Adds two function registers. -/
  | fnadd (d : Reg) (a : Reg) (b : Reg)
  /-- FNMUL (R235). Multiplies two function registers. -/
  | fnmul (d : Reg) (a : Reg) (b : Reg)
  /-- FNCOMP (R236). Composes two function registers by refitting. -/
  | fncomp (d : Reg) (a : Reg) (b : Reg)
  /-- FNINT (R234). Integrates a function register. -/
  | fnint (d : Reg) (a : Reg)
  /-- FNDIFF (R234). Differentiates a function register. -/
  | fndiff (d : Reg) (a : Reg)
  /-- FNEVAL (R233). Evaluates a function register at vector points. -/
  | fneval (d : Reg) (a : Reg) (b : Reg)
  /-- FNROOT (R237). Finds roots of a function register. -/
  | fnroot (d : Reg) (a : Reg) (b : Reg)
  /-- FNTRUNC (R232). Copies a function register with adaptive truncation. -/
  | fntrunc (d : Reg) (a : Reg)
  /-- FNFIT (R236). Fits a series to samples at the nodes. -/
  | fnfit (d : Reg) (a : Reg) (b : Reg)
  /-- FNMONO (R238). Determines a register's monotonicity status. -/
  | fnmono (d : Reg)
  /-- FNINFO (R239). Writes a packed descriptor of a function register. -/
  | fninfo (d : Reg) (a : Reg)
  /-- FNFREE (R234). Frees a function register's granules. -/
  | fnfree (d : Reg)
  /-- FNSCAL (R234). Scales a function register by a factor. -/
  | fnscal (d : Reg) (a : Reg) (b : Reg)
  /-- GMBOX (R249). Declares a register as a mailbox index. -/
  | gmbox (d : Reg) (b : Reg)
  /-- VHOLD (R251). Arms a hold for a count of arrivals on a mailbox register. -/
  | vhold (d : Reg) (a : Reg)
  /-- RSTV (R253). Sends vector elements to a named group's mailbox. -/
  | rstv (d : Reg) (a : Reg) (b : Reg)
  /-- RSTVR (R253). Sends a releasing remote store and parks until acknowledged. -/
  | rstvr (d : Reg) (a : Reg) (b : Reg)
  /-- GSTAT (R254). Waits for all remote stores' answers and reports counts. -/
  | gstat (d : Reg)
  /-- EXIT (R258). Waits for the stream's earlier work and ends the stream. -/
  | exit
  /-- ERET (R259). Resumes the task whose trap the usher handles. -/
  | eret
  /-- MFS (R260). Reads a system register. -/
  | mfs (d : Reg) (a : Reg) (b : Reg)
  /-- MTS (R260). Writes a system register that has no behaviour of its own. -/
  | mts (d : Reg) (a : Reg) (b : Reg)
  /-- MTS_CAUSE (R375). Writes CAUSE, retiring a notice on 0x00 or 0xFF. -/
  | mtsCause (d : Reg)
  /-- MTS_SCOPETAB (R301). Loads the whole scope-table image. -/
  | mtsScopetab (d : Reg)
  /-- MTS_VBASE (R74). Sets the window base as WBASE does. -/
  | mtsVbase (d : Reg)
  /-- MTS_FMODE (R26). Writes the fmode mirror, keeping RM on reserved codes. -/
  | mtsFmode (d : Reg)
  /-- MTS_LATTOL (R431). Sets the idle latency tolerance and wakes the device. -/
  | mtsLattol (d : Reg)
  /-- CTXSAVE (R261). Writes a stopped thread's context image. -/
  | ctxsave (a : Reg) (b : Reg)
  /-- CTXLOAD (R261). Installs a context image into a stopped thread. -/
  | ctxload (a : Reg) (b : Reg)
  /-- NOTIFY (R262). Raises an MSI-X vector of the partition's virtual function. -/
  | notify (a : Reg)
  /-- PREEMPT (R261). Requests a stop of a running thread. -/
  | preempt (a : Reg)
  /-- RESUME (R261). Resumes a stopped thread from its image. -/
  | resume (a : Reg)
  /-- DIGCHK (R263). Reports a launch's digest comparison and loads DIG0 and DIG1. -/
  | digchk (d : Reg)
  /-- HALT (R264). Ends the issuing thread at once. -/
  | halt
  /-- LOAD_COMPLETION (R265). A load or atomic completes and writes or pushes its result. -/
  | loadCompletion (req : Nat) (data : Bytes)
  /-- PARKED_STREAM_RELEASE (R268). A parked stream resumes issue once its park condition holds. -/
  | parkedStreamRelease (t : Nat) (q : Strm)
  /-- WAITA_WAKE (R190). A write to the watched line wakes a parked WAITA to re-read. -/
  | waitaWake (t : Nat)
  /-- VWAIT_WAKE (R196). A write to the watched line wakes a parked VWAIT to re-read. -/
  | vwaitWake (t : Nat)
  /-- BWAIT_WAKE (R195). A barrier phase change or dissolution ends a parked BWAIT. -/
  | bwaitWake (t : Nat)
  /-- BWAIT_TIMEOUT (R195). A BWAIT deadline expires and it returns timeout. -/
  | bwaitTimeout (t : Nat)
  /-- QDEAD_DETECTION (R146). A queue cycle between streams is detected and traps QDEAD. -/
  | qdeadDetection (t : Nat)
  /-- OUTBOUND_CHUNK_ENTRY (R178). A waiting outbound chunk enters its stream when room frees. -/
  | outboundChunkEntry (t : Nat)
  /-- STREAM_TRANSFER_COMPLETION (R198). A stream load, gather or scatter completes its data movement. -/
  | streamTransferCompletion (t : Nat) (k : Nat)
  /-- ELEMENT_GROUP_START (R271). A lane group starts one ready element group. -/
  | elementGroupStart (t : Nat) (e : Nat)
  /-- MATRIX_ROW_PROCESSING (R279). The matrix engine processes queued MROW K-groups. -/
  | matrixRowProcessing (t : Nat)
  /-- TILE_FILL (R279). An MTILE's slot fill completes. -/
  | tileFill (t : Nat) (slot : Nat)
  /-- COPY_PIECE (R286). A copy engine moves one piece of a copy. -/
  | copyPiece (t : Nat) (k : Nat)
  /-- COPY_COMPLETION (R208). A copy ends and writes its completion word. -/
  | copyCompletion (t : Nat) (k : Nat)
  /-- LATE_ENGINE_FAULT (R78). A fault found after an engine transfer's issue is taken at the stream's next boundary. -/
  | lateEngineFault (t : Nat) (q : Strm)
  /-- SVOP_PASS (R339). A state-vector command's pass runs and completes. -/
  | svopPass (t : Nat)
  /-- MAILBOX_ARRIVAL (R253). A remote store arrives at its target and is applied or refused. -/
  | mailboxArrival (k : Nat)
  /-- REMOTE_STORE_ANSWER (R254). An acknowledgement or NACK of a remote store reaches the sender. -/
  | remoteStoreAnswer (k : Nat) (nack : Nat)
  /-- NAME_FORWARDING_EXPIRY (R404). A moved name's forwarding slot ends and bumps its generation. -/
  | nameForwardingExpiry (slot : Nat)
  /-- ATOMIC_LEASE_EXPIRY (R289). A near lease lapses 256 clocks after its last atomic. -/
  | atomicLeaseExpiry (line : Nat)
  /-- ATOMIC_SITE_RETURN_NEAR (R289). A far line returns to near after a quiet window. -/
  | atomicSiteReturnNear (line : Nat)
  /-- STAMP_SWEEP (R292). The background sweep removes stale stamp entries. -/
  | stampSweep
  /-- CONFLICT_CONFIRMATION (R306). An owning core answers whether a recorded region is still open. -/
  | conflictConfirmation (t : Nat)
  /-- THREAD_STOP_COMPLETE (R275). A requested stop completes and the context is saved. -/
  | threadStopComplete (t : Nat)
  /-- NOTICE_DELIVERY (R374). A queued notice diverts the usher's A stream to TVEC. -/
  | noticeDelivery (p : Nat)
  /-- BUDGET_EXPIRY (R376). A thread's budget count reaches its limit and the thread is stopped. -/
  | budgetExpiry (t : Nat)
  /-- INTG (R420). A failed self-test traps each affected thread's X stream. -/
  | intg (t : Nat)
  /-- DEVERR (R418). An uncorrectable error in architectural state traps the owning stream. -/
  | deverr (t : Nat) (q : Strm) (unit : BitVec 8) (va : BitVec 55)
  /-- STREAM_END (R258). An exiting stream's earlier work finishes and the stream ends. -/
  | streamEnd (t : Nat) (q : Strm)
  /-- DEPENDENCY_WORD_READ (R366). A write to a dependency word's line makes the F8 re-read it. -/
  | dependencyWordRead (p : Nat) (q : Nat)
  /-- LAUNCH_DISPATCH (R367). The dispatchable head of highest effective priority is dispatched. -/
  | launchDispatch (p : Nat)
  /-- LAUNCH_STAGING (R378). A waiting head is staged into hall reservations ahead of its cores. -/
  | launchStaging (p : Nat)
  /-- STAGED_LAUNCH_START (R378). A staged launch starts once its slots are free. -/
  | stagedLaunchStart (p : Nat)
  /-- GANG_STOP (R387). At a gang instant the outgoing partition's threads stop and save. -/
  | gangStop (p : Nat)
  /-- GANG_RESUME (R387). The incoming partition's threads resume 150 µs after the instant. -/
  | gangResume (p : Nat)
  /-- SELF_TEST_PRODUCT (R419). The core's MROW count reaches a multiple of 2^STLOG and a test product runs. -/
  | selfTestProduct (core : Nat) (bad : BitVec 12)
  /-- SPARE_REPLACEMENT (R420). The spare sub-array enters service. -/
  | spareReplacement (core : Nat)
  /-- INVALIDATION_REQUEST (R396). A write to INVTAIL's line makes the F8 take new invalidation entries. -/
  | invalidationRequest (p : Nat)
  /-- INVALIDATION_RETIRE (R397). An invalidation entry retires after TLBs and egress drain. -/
  | invalidationRetire (p : Nat)
  /-- REPLICA_FILL (R394). A REPLICA page's local frame is filled from the peer. -/
  | replicaFill (p : Nat) (page : Nat) (data : Bytes)
  /-- MIGRATION (R395). A MIGRATE page's access count reaches 0 and the page moves local. -/
  | migration (p : Nat) (page : Nat) (data : Bytes)
  /-- FABRIC_READ_REQUEST (R401). A fabric read arrives and is checked against membership. -/
  | fabricReadRequest (src : ReqFrom) (key : BitVec 16) (pa : Nat) (n : Nat)
  /-- FABRIC_WRITE_REQUEST (R401). A fabric write arrives and is checked against membership. -/
  | fabricWriteRequest (src : ReqFrom) (key : BitVec 16) (pa : Nat) (data : Bytes)
  /-- FABRIC_ATOMIC_REQUEST (R401). A fabric atomic arrives and executes at the home. -/
  | fabricAtomicRequest (src : ReqFrom) (key : BitVec 16) (pa : Nat) (op : RmwOp) (operand : BitVec 64) (expect : BitVec 64)
  /-- FABRIC_NACK (R402). A NACK for a load, atomic or store reaches the source and traps. -/
  | fabricNack (req : Nat) (cause : Nat)
  /-- FABRIC_REQUEST_TIMEOUT (R401). A request without answer for 100 µs counts cause 4. -/
  | fabricRequestTimeout (req : Nat)
  /-- MULTICAST_COPY_ANSWER (R406). A multicast copy's answer arrives; the last one updates MCWORD's record. -/
  | multicastCopyAnswer (req : Nat) (peer : BitVec 10) (cause : Nat)
  /-- RED_CONTRIBUTION (R408). A RED-page contribution arrives at the home round. -/
  | redContribution (src : ReqFrom) (key : BitVec 16) (c : RedMsg)
  /-- RED_ROUND_TIMEOUT (R409). An ordered round times out and is flushed. -/
  | redRoundTimeout (p : Nat) (pa : Nat)
  /-- LINK_FAILURE (R410). A failed link leaves service and its requests reroute. -/
  | linkFailure (station : BitVec 4)
  /-- HOST_ATOMIC_OP (R393). A host PCIe AtomicOp is performed on SYSAT pages or refused. -/
  | hostAtomicOp (p : HostFrom) (va : BitVec 64) (op : RmwOp) (operand : BitVec 64) (expect : BitVec 64)
  /-- HOST_REQUEST (R444). A host request to a virtual function is checked for IDE in RUN. -/
  | hostRequest (vf : Nat) (ideT : Bool) (wr : HostOp)
  /-- SCRUB (R416). Firmware scrubs memory and SRAM units on schedule. -/
  | scrub (unit : Nat)
  /-- WEAR_UPDATE (R426). The hourly wear estimate updates and may raise the wear notice. -/
  | wearUpdate (die : Nat) (months : BitVec 16) (conf : BitVec 8) (worst : BitVec 4)
  /-- THERMAL_LIMIT (R428). A die at its limit moves the device to a slower A-state. -/
  | thermalLimit
  /-- THERMAL_RESET (R434). A die at 115 °C resets the device as at power-on. -/
  | thermalReset (b : BootInput)
  /-- DEVICE_RESET (R438). Power-on or device reset boots through the trust stages. -/
  | deviceReset (b : BootInput)
  /-- IDLE_ENTRY (R429). An idle device enters the deepest permitted idle state. -/
  | idleEntry
  /-- IDLE_WAKE (R430). A wake event exits the idle state. -/
  | idleWake
  /-- REGISTER_WRITE (R8). A host write to a health or trust register with no behaviour of its own. -/
  | registerWrite (off : Nat) (v : BitVec 64)
  /-- ECCSTAT_WRITE (R415). A write of ones clears ECCSTAT fields. -/
  | eccstatWrite (v : BitVec 64)
  /-- PWR_WRITE (R427). A write sets the power cap and wakes the device. -/
  | pwrWrite (v : BitVec 64)
  /-- LATTOL_MIRROR_WRITE (R431). A host write sets the latency tolerance and wakes the device. -/
  | lattolMirrorWrite (v : BitVec 64)
  /-- WEAR_WRITE (R426). A write of one clears a die's LOW flag. -/
  | wearWrite (die : Nat) (v : BitVec 64)
  /-- FWSTAGE_WRITE (R435). A write of 1 arms the flash image for the next reset. -/
  | fwstageWrite (v : BitVec 64)
  /-- PARTITION_CREATE (R383). Firmware creates a partition at the host's request. -/
  | partitionCreate (c : PartReq)
  /-- FUNCTION_LEVEL_RESET (R443). A VF reset puts its interface in ERROR and dissolves the partition. -/
  | functionLevelReset (vf : Nat)
  /-- CONFIG_WRITE_LOCKED (R443). A configuration write to a locked or running VF puts it in ERROR. -/
  | configWriteLocked (vf : Nat)
  /-- LOCK_INTERFACE_REQUEST (R443). Locks a VF's TDISP interface and its partition. -/
  | lockInterfaceRequest (vf : Nat) (m : SpdmMsg)
  /-- START_INTERFACE_REQUEST (R443). Moves a locked interface to RUN and starts the usher. -/
  | startInterfaceRequest (vf : Nat) (m : SpdmMsg)
  /-- STOP_INTERFACE_REQUEST (R443). Moves an interface to ERROR, dissolving its partition. -/
  | stopInterfaceRequest (vf : Nat) (m : SpdmMsg)
  /-- GET_VERSION (R442). SPDM request for the supported versions. -/
  | getVersion (fn : Nat) (m : SpdmMsg)
  /-- GET_CAPABILITIES (R442). SPDM request for capabilities. -/
  | getCapabilities (fn : Nat) (m : SpdmMsg)
  /-- NEGOTIATE_ALGORITHMS (R442). SPDM algorithm negotiation. -/
  | negotiateAlgorithms (fn : Nat) (m : SpdmMsg)
  /-- GET_DIGESTS (R442). SPDM request for certificate chain digests. -/
  | getDigests (fn : Nat) (m : SpdmMsg)
  /-- GET_CERTIFICATE (R440). SPDM request for a certificate chain slot. -/
  | getCertificate (fn : Nat) (m : SpdmMsg)
  /-- CHALLENGE (R442). SPDM challenge signed by the identity key. -/
  | challenge (fn : Nat) (m : SpdmMsg)
  /-- GET_MEASUREMENTS (R441). SPDM request for measurements. -/
  | getMeasurements (fn : Nat) (m : SpdmMsg)
  /-- KEY_EXCHANGE (R442). SPDM ML-KEM key exchange opening a session. -/
  | keyExchange (fn : Nat) (m : SpdmMsg)
  /-- FINISH (R442). SPDM session finish. -/
  | finish (fn : Nat) (m : SpdmMsg)
  /-- KEY_UPDATE (R442). SPDM session key update. -/
  | keyUpdate (fn : Nat) (m : SpdmMsg)
  /-- HEARTBEAT (R442). SPDM session heartbeat. -/
  | heartbeat (fn : Nat) (m : SpdmMsg)
  /-- END_SESSION (R442). SPDM session end. -/
  | endSession (fn : Nat) (m : SpdmMsg)
  /-- VENDOR_CHALLENGE (R447). A vendor challenge returns and replaces the policy nonce. -/
  | vendorChallenge (fn : Nat) (m : SpdmMsg)
  /-- DEBUG_KEY_HASH_BIND (R443). A vendor message binds the partition's debug-key hash. -/
  | debugKeyHashBind (vf : Nat) (m : SpdmMsg) (hash : BitVec 256)
  /-- DEBUG_POLICY (R447). A signed debug policy is checked and comes into force. -/
  | debugPolicy (vf : Nat) (m : SpdmMsg) (now : BitVec 64)
  /-- DEBUG_POLICY_EXPIRY (R447). A debug policy's grants end at expiry. -/
  | debugPolicyExpiry (p : Nat)
  /-- RECOVERY_IMAGE_WRITE (R439). A vendor message in recovery accepts a new image into flash. -/
  | recoveryImageWrite (image : Bytes)
  /-- ILL (R102). A word that is not an instruction, or that uses a reserved opcode or fn value, reaches issue and traps ILL. -/
  | ill (w : BitVec 32)
  /-- ELEMENT_GROUP_WRITE (R270). An element group's result is written at the end of its latency, entering the register in index order and setting fault-mask bits and outbound chunks. -/
  | elementGroupWrite (t : Nat) (e : Nat)
  /-- DIE_TEMPERATURE_FALL (R428). A die falling back below its limit lets the device move to a faster A-state that CAP allows. -/
  | dieTemperatureFall
  /-- SHARED_CORE_TIME_SLICE (R421). A physical core shared by two logical cores (SH = 1) switches between them by time-slicing. -/
  | sharedCoreTimeSlice (phys : Nat)
  deriving DecidableEq, Repr

end Sys2Proof
end

