-- ==== Sys2Proof/Machine/Sig.lean ====
section
/-! DEFINITION. The opcode map (04_encoding): the operation that a word's opcode and function code name, the operand
class of each of its register fields (R95, R96, R52), the streams that may issue it and the level it needs (R104 to
R112), and the system-register map (R74). It stands here, beside the machine, because the well-formedness of a word
rests on it. -/

namespace Sys2Proof

/-- Format R (R94). -/
def fmtR (op d a b : Reg) (fn : BitVec 4) : Word := op ++ d ++ a ++ b ++ fn
/-- Formats I and S (R94): the low 11 bits are the immediate or the offset. -/
def fmtI (op d a : Reg) (imm : BitVec 11) : Word := op ++ d ++ a ++ imm
/-- Formats L and B (R94): the low 18 bits are the immediate or the offset. -/
def fmtL (op d : Reg) (imm : BitVec 18) : Word := op ++ d ++ imm
/-- Format N (R94). -/
def fmtN (op : Reg) (code : BitVec 25) : Word := op ++ code

/-- The major opcode, bits [31:25] (R94). -/
def fOp (w : Word) : Nat := (w.extractLsb' 25 7).toNat
/-- Field d, or c of format B: bits [24:18]. -/
def fD (w : Word) : Reg := w.extractLsb' 18 7
/-- Field a: bits [17:11]. -/
def fA (w : Word) : Reg := w.extractLsb' 11 7
/-- Field b: bits [10:4]. -/
def fB (w : Word) : Reg := w.extractLsb' 4 7
/-- The function code: bits [3:0]. -/
def fFn (w : Word) : Nat := (w.extractLsb' 0 4).toNat

/-- The operations of the encoded rows of the table, one name for each. -/
inductive Op where
  | add | sub | and | or | xor | shl | shr | sra | min | max | minu | maxu | slt | sltu | seq | sel
  | mul | mulh | mulhu | div | divu | rem | remu | clz | ctz | popc | sxb | sxh | sxw
  | addi
  | andi
  | ori
  | xori
  | shli
  | shri
  | srai
  | slti
  | li
  | lsh
  | sfadd | sfsub | sfmul | sfdiv | sfsqrt | sfmin | sfmax | sfma | sfeq | sflt | sfle
  | scvdl | scvld | scvdf | scvfd | scvdh | scvhd | scvdb | scvbd
  | b
  | bz
  | bnz
  | bltz
  | bgez
  | call
  | ret
  | jr
  | bq
  | bany
  | bnone
  | smb
  | bend
  | nop
  | yield
  | trap
  | vlget
  | vloop
  | stair
  | stflg
  | ststep
  | wbase
  | fmode
  | scope
  | vmask
  | ldb
  | ldh
  | ldw
  | ldd
  | stb
  | sth
  | stw
  | std
  | aset | aget | astr | aadd | agstr
  | lds
  | sts
  | amoAdd | amoAnd | amoOr | amoXor | amoMin | amoMax | amoMinu | amoMaxu | amoSwap | amoFadd32 | amoFadd64
  | amoaAdd | amoaAnd | amoaOr | amoaXor | amoaMin | amoaMax | amoaMinu | amoaMaxu | amoaSwap | amoaFadd32 | amoaFadd64
  | amolAdd | amolAnd | amolOr | amolXor | amolMin | amolMax | amolMinu | amolMaxu | amolSwap | amolFadd32 | amolFadd64
  | amoxAdd | amoxAnd | amoxOr | amoxXor | amoxMin | amoxMax | amoxMinu | amoxMaxu | amoxSwap | amoxFadd32 | amoxFadd64
  | cas
  | fence
  | waita
  | barr | barrt | binit | bdiss
  | bwait
  | vwait
  | qdrain
  | qcnt
  | sload | sloadSlice | sloadTrim
  | sstore | sstoreSlice | sstoreTrim
  | sgath | sgathc
  | sscat | sscatc
  | cpy | cpyq
  | tidset
  | svmap | svg1 | svg2 | svph | svswp | svrun | svprob
  | launch
  | join | leave | gname | gdrop | ginfo | gmove
  | vadd | vsub | vmul | vmulh | vmin | vmax | vadds | vsubs
  | vand | vor | vxor | vshl | vshr | vsra | vandn
  | vfadd | vfsub | vfmul | vfdiv | vfmin | vfmax | vfma | vfms
  | vfsqrt | vfrsq | vlog2 | vexp2 | vfabs | vfneg | vfclass | vfrint
  | vcmp
  | vcmpx
  | pand | por | pxor | pandn | pnot | pmov | pset | pclr
  | pcnt | pcntt
  | ppop | pfirst | plast
  | vcvfh | vcvfb | vcvfe4 | vcvfe5 | vcvhf | vcvbf | vcve4f | vcve5f | vcvfi | vcvif | vcvdf | vcvfd | vcvin | vcvci | vcvic | vcvfc
  | vdeq | vqnt
  | vperm | vslup | vsldn | vcomp | vexpd | vzip | vuzp | vrev
  | vmov | vsplat | vext | vins | viota | vmerge | vfmsk | vclrf
  | vrsum | vfsum | vrmin | vrmax | vrand | vror | vrxor | vtree
  | vargmax | vargmin | vargmaxc
  | vscan | vscanx | vfscan | vmscan
  | vsegrAdd | vsegrMin | vsegrMax | vsegrAnd | vsegrOr | vsegrFadd | vsegrFmin | vsegrFmax
  | vrndl | vrndh | vrndu
  | vbin | vbout | vunb
  | mtile
  | mrow
  | maccf | macc | maccz
  | mzero
  | mstat | mstatc
  | rcopen | rcnoise | rcscore | rccut | rcexact | rcpost | rcmerge | rcbar | rcprob | rcget | rcput | rcclose
  | fnset | fnget | fnadd | fnmul | fncomp | fnint | fndiff | fneval | fnroot | fntrunc | fnfit | fnmono | fninfo | fnfree | fnscal
  | gmbox | vhold | rstv | rstvr | gstat
  | exit | eret | mfs | mts | mtsCause | mtsScopetab | mtsVbase | mtsFmode | mtsLattol | ctxsave | ctxload | notify | preempt | resume | digchk | halt
  deriving DecidableEq, Repr

/-- The class an instruction's entry gives to a register field (R95, R96). -/
inductive Opnd where
  | dst (r : Reg)            -- a scalar that is written
  | src (r : Reg)            -- a scalar that is read
  | rw (r : Reg)             -- a scalar that is read and written (R52)
  | areg (r : Reg)
  | vec (r : Reg) (n : Nat)  -- n consecutive window names
  | pred (r : Reg)
  | freg (r : Reg)
  | vin (r : Reg)            -- a vector stream from A to X
  | vout (r : Reg)           -- a vector stream from X to A
  | qid (r : Reg)            -- a queue identifier of QCNT and QDRAIN
  | lit (r : Reg) (max : Nat)
  | gprs (r : Reg) (n : Nat) -- n general registers, all of s1 to s103
  | bq (r : Reg)             -- the branch queue of BQ
  deriving DecidableEq, Repr

/-- What the opcode map says of one instruction: its operands, the one stream that may issue it (none: both), the
level it needs, and whether its literals and register combinations are within their ranges. -/
structure Info where
  ops : List Opnd
  strm : Option Strm
  level : Nat
  ok : Bool
  deriving DecidableEq, Repr

/-- A scalar number that reads but takes no write: vl, tid, lcore, clock, stat and strip (R52). -/
def roScalar (r : Reg) : Bool := r.toNat == 118 || (122 ≤ r.toNat && r.toNat ≤ 126)

/-- A scalar number that names a queue port (R51). -/
def isPort (r : Reg) : Bool := 104 ≤ r.toNat && r.toNat ≤ 117

/-- The check of step 3 of R101 on one operand: its number is of its class. -/
def Opnd.ok : Opnd → Bool
  | .dst r => !roScalar r
  | .src r => r.toNat != 116 && r.toNat != 117
  | .rw r => !roScalar r && !isPort r
  | .areg r => r.toNat ≤ 31
  | .vec r n => r.toNat + n ≤ 128
  | .pred r => r.toNat ≤ 95
  | .freg r => r.toNat ≤ 31
  | .vin r => r.toNat ≤ 11
  | .vout r => r.toNat ≤ 11
  | .qid r => isPort r
  | .lit r m => r.toNat ≤ m
  | .gprs r n => 1 ≤ r.toNat && r.toNat + n ≤ 104
  | .bq r => r.toNat == 116 || r.toNat == 117

/-- A port that stream A pushes and X pops: q0 to q7 and qb (R51). -/
def portAtoX (n : Nat) : Bool := (104 ≤ n && n ≤ 111) || n == 116
/-- A port that stream X pushes and A pops: q8 to q11 and qc (R51). -/
def portXtoA (n : Nat) : Bool := (112 ≤ n && n ≤ 115) || n == 117

/-- The check of step 4 of R101 on one operand: no port, vector stream or tol against its stream or direction. -/
def Opnd.streamOk (q : Strm) : Opnd → Bool
  | .dst r =>
    match q with
    | .a => !portXtoA r.toNat && r.toNat != 127
    | .x => !portAtoX r.toNat
  | .src r =>
    match q with
    | .a => !portAtoX r.toNat && r.toNat != 127
    | .x => !portXtoA r.toNat
  | .rw r => q == .x || r.toNat != 127
  | .vin r => r.toNat ≤ 7
  | .vout r => 8 ≤ r.toNat
  | .bq r => if q == .x then r.toNat == 116 else r.toNat == 117
  | _ => true

/-- Two register pairs that share no register (R223). -/
def pairsApart (d a : Reg) : Bool := d.toNat + 1 < a.toNat || a.toNat + 1 < d.toNat

/-- The fields of STSTEP: m named scalars of s1 to s103, the others 0 (R106). -/
def ststepOk (d a b : Reg) (m : BitVec 4) : Bool :=
  let g (r : Reg) : Bool := 1 ≤ r.toNat && r.toNat ≤ 103
  match m.toNat with
  | 1 => g d && a == 0 && b == 0
  | 2 => g d && g a && b == 0
  | 3 => g d && g a && g b
  | _ => false

/-- The 14-bit system-register number of MFS and MTS (R112). -/
def sysNo (a b : Reg) : Nat := a.toNat * 128 + b.toNat

/-- The level needed to read a system register; none where the number is unassigned (R74). -/
def sysReadLevel (n : Nat) : Option Nat :=
  if n ≤ 0x02 then some 0
  else if 0x10 ≤ n && n ≤ 0x14 then some 1
  else if n == 0x18 then some 1
  else if n == 0x20 || n == 0x21 || n == 0x30 || n == 0x31 then some 0
  else if n == 0x40 then some 1
  else if 0x50 ≤ n && n ≤ 0x53 then some 1
  else if n == 0x60 || n == 0x70 || n == 0x71 then some 0
  else if n == 0x80 then some 2
  else if n == 0x90 then some 1
  else if 0x200 ≤ n && n ≤ 0x2FF then some 0
  else none

/-- The level needed to write a system register; none where it has no write level (R74). -/
def sysWriteLevel (n : Nat) : Option Nat :=
  if n == 0 then some 2
  else if 0x10 ≤ n && n ≤ 0x14 then some 1
  else if n == 0x18 then some 1
  else if n == 0x21 || n == 0x30 then some 0
  else if n == 0x40 then some 1
  else if n == 0x52 || n == 0x53 then some 1
  else if n == 0x60 then some 0
  else if n == 0x70 || n == 0x71 then some 1
  else if n == 0x80 then some 2
  else if n == 0x90 then some 1
  else if 0x200 ≤ n && n ≤ 0x2FF then some 1
  else none

/-- The number of an MTS word that is not one of the five rows of its own (MTS_CAUSE, MTS_SCOPETAB, MTS_VBASE,
MTS_FMODE, MTS_LATTOL), and that has a write level. -/
def mtsOk (n : Nat) : Bool :=
  (sysWriteLevel n).isSome && n != 0x10 && n != 0x40 && n != 0x21 && n != 0x30 && n != 0x80

/-- Major opcode 0x1: the operation each function code names. -/
def opOf01 (w : Word) : Option Op :=
  match fFn w with
  | 0 => some .add
  | 1 => some .sub
  | 2 => some .and
  | 3 => some .or
  | 4 => some .xor
  | 5 => some .shl
  | 6 => some .shr
  | 7 => some .sra
  | 8 => some .min
  | 9 => some .max
  | 10 => some .minu
  | 11 => some .maxu
  | 12 => some .slt
  | 13 => some .sltu
  | 14 => some .seq
  | 15 => some .sel
  | _ => none

/-- Major opcode 0x2: the operation each function code names. -/
def opOf02 (w : Word) : Option Op :=
  match fFn w with
  | 0 => some .mul
  | 1 => some .mulh
  | 2 => some .mulhu
  | 3 => some .div
  | 4 => some .divu
  | 5 => some .rem
  | 6 => some .remu
  | 7 => some .clz
  | 8 => some .ctz
  | 9 => some .popc
  | 10 => some .sxb
  | 11 => some .sxh
  | 12 => some .sxw
  | _ => none

/-- Major opcode 0xd: the operation each function code names. -/
def opOf0D (w : Word) : Option Op :=
  match fFn w with
  | 0 => some .sfadd
  | 1 => some .sfsub
  | 2 => some .sfmul
  | 3 => some .sfdiv
  | 4 => some .sfsqrt
  | 5 => some .sfmin
  | 6 => some .sfmax
  | 7 => some .sfma
  | 8 => some .sfeq
  | 9 => some .sflt
  | 10 => some .sfle
  | _ => none

/-- Major opcode 0xe: the operation each function code names. -/
def opOf0E (w : Word) : Option Op :=
  match fFn w with
  | 0 => some .scvdl
  | 1 => some .scvld
  | 2 => some .scvdf
  | 3 => some .scvfd
  | 4 => some .scvdh
  | 5 => some .scvhd
  | 6 => some .scvdb
  | 7 => some .scvbd
  | _ => none

/-- Major opcode 0x31: the operation each function code names. -/
def opOf31 (w : Word) : Option Op :=
  match fFn w with
  | 0 => some .aset
  | 1 => some .aget
  | 2 => some .astr
  | 3 => some .aadd
  | 4 => some .agstr
  | _ => none

/-- Major opcode 0x34: the operation each function code names. -/
def opOf34 (w : Word) : Option Op :=
  match fFn w with
  | 0 => some .amoAdd
  | 1 => some .amoAnd
  | 2 => some .amoOr
  | 3 => some .amoXor
  | 4 => some .amoMin
  | 5 => some .amoMax
  | 6 => some .amoMinu
  | 7 => some .amoMaxu
  | 8 => some .amoSwap
  | 9 => some .amoFadd32
  | 10 => some .amoFadd64
  | _ => none

/-- Major opcode 0x35: the operation each function code names. -/
def opOf35 (w : Word) : Option Op :=
  match fFn w with
  | 0 => some .amoaAdd
  | 1 => some .amoaAnd
  | 2 => some .amoaOr
  | 3 => some .amoaXor
  | 4 => some .amoaMin
  | 5 => some .amoaMax
  | 6 => some .amoaMinu
  | 7 => some .amoaMaxu
  | 8 => some .amoaSwap
  | 9 => some .amoaFadd32
  | 10 => some .amoaFadd64
  | _ => none

/-- Major opcode 0x36: the operation each function code names. -/
def opOf36 (w : Word) : Option Op :=
  match fFn w with
  | 0 => some .amolAdd
  | 1 => some .amolAnd
  | 2 => some .amolOr
  | 3 => some .amolXor
  | 4 => some .amolMin
  | 5 => some .amolMax
  | 6 => some .amolMinu
  | 7 => some .amolMaxu
  | 8 => some .amolSwap
  | 9 => some .amolFadd32
  | 10 => some .amolFadd64
  | _ => none

/-- Major opcode 0x37: the operation each function code names. -/
def opOf37 (w : Word) : Option Op :=
  match fFn w with
  | 0 => some .amoxAdd
  | 1 => some .amoxAnd
  | 2 => some .amoxOr
  | 3 => some .amoxXor
  | 4 => some .amoxMin
  | 5 => some .amoxMax
  | 6 => some .amoxMinu
  | 7 => some .amoxMaxu
  | 8 => some .amoxSwap
  | 9 => some .amoxFadd32
  | 10 => some .amoxFadd64
  | _ => none

/-- Major opcode 0x3b: the operation each function code names. -/
def opOf3B (w : Word) : Option Op :=
  match fFn w with
  | 0 => some .barr
  | 1 => some .barrt
  | 2 => some .binit
  | 3 => some .bdiss
  | _ => none

/-- Major opcode 0x40: the operation each function code names. -/
def opOf40 (w : Word) : Option Op :=
  match fFn w with
  | 0 => some .sload
  | 1 => some .sloadSlice
  | 2 => some .sloadTrim
  | _ => none

/-- Major opcode 0x41: the operation each function code names. -/
def opOf41 (w : Word) : Option Op :=
  match fFn w with
  | 0 => some .sstore
  | 1 => some .sstoreSlice
  | 2 => some .sstoreTrim
  | _ => none

/-- Major opcode 0x42: the operation each function code names. -/
def opOf42 (w : Word) : Option Op :=
  match fFn w with
  | 0 | 1 | 2 | 3 | 4 | 5 | 6 | 7 => some .sgath
  | 8 | 9 | 10 | 11 | 12 | 13 | 14 | 15 => some .sgathc
  | _ => none

/-- Major opcode 0x43: the operation each function code names. -/
def opOf43 (w : Word) : Option Op :=
  match fFn w with
  | 0 | 1 | 2 | 3 | 4 | 5 | 6 | 7 => some .sscat
  | 8 | 9 | 10 | 11 | 12 | 13 | 14 | 15 => some .sscatc
  | _ => none

/-- Major opcode 0x44: the operation each function code names. -/
def opOf44 (w : Word) : Option Op :=
  match fFn w with
  | 0 => some .cpy
  | 1 => some .cpyq
  | _ => none

/-- Major opcode 0x46: the operation each function code names. -/
def opOf46 (w : Word) : Option Op :=
  match fFn w with
  | 0 => some .svmap
  | 1 => some .svg1
  | 2 => some .svg2
  | 3 => some .svph
  | 4 => some .svswp
  | 5 => some .svrun
  | 6 => some .svprob
  | _ => none

/-- Major opcode 0x48: the operation each function code names. -/
def opOf48 (w : Word) : Option Op :=
  match fFn w with
  | 0 => some .join
  | 1 => some .leave
  | 2 => some .gname
  | 3 => some .gdrop
  | 4 => some .ginfo
  | 5 => some .gmove
  | _ => none

/-- Major opcode 0x50: the operation each function code names. -/
def opOf50 (w : Word) : Option Op :=
  match fFn w with
  | 0 | 8 => some .vadd
  | 1 | 9 => some .vsub
  | 2 | 10 => some .vmul
  | 3 | 11 => some .vmulh
  | 4 | 12 => some .vmin
  | 5 | 13 => some .vmax
  | 6 | 14 => some .vadds
  | 7 | 15 => some .vsubs
  | _ => none

/-- Major opcode 0x51: the operation each function code names. -/
def opOf51 (w : Word) : Option Op :=
  match fFn w with
  | 0 | 8 => some .vand
  | 1 | 9 => some .vor
  | 2 | 10 => some .vxor
  | 3 | 11 => some .vshl
  | 4 | 12 => some .vshr
  | 5 | 13 => some .vsra
  | 6 | 14 => some .vandn
  | _ => none

/-- Major opcode 0x52: the operation each function code names. -/
def opOf52 (w : Word) : Option Op :=
  match fFn w with
  | 0 | 8 => some .vfadd
  | 1 | 9 => some .vfsub
  | 2 | 10 => some .vfmul
  | 3 | 11 => some .vfdiv
  | 4 | 12 => some .vfmin
  | 5 | 13 => some .vfmax
  | 6 | 14 => some .vfma
  | 7 | 15 => some .vfms
  | _ => none

/-- Major opcode 0x53: the operation each function code names. -/
def opOf53 (w : Word) : Option Op :=
  match fFn w with
  | 0 | 8 => some .vfsqrt
  | 1 | 9 => some .vfrsq
  | 2 | 10 => some .vlog2
  | 3 | 11 => some .vexp2
  | 4 | 12 => some .vfabs
  | 5 | 13 => some .vfneg
  | 6 | 14 => some .vfclass
  | 7 | 15 => some .vfrint
  | _ => none

/-- Major opcode 0x56: the operation each function code names. -/
def opOf56 (w : Word) : Option Op :=
  match fFn w with
  | 0 => some .pand
  | 1 => some .por
  | 2 => some .pxor
  | 3 => some .pandn
  | 4 => some .pnot
  | 5 => some .pmov
  | 6 => some .pset
  | 7 => some .pclr
  | _ => none

/-- Major opcode 0x57: the operation each function code names. -/
def opOf57 (w : Word) : Option Op :=
  match fFn w with
  | 0 => some .pcnt
  | 1 => some .pcntt
  | _ => none

/-- Major opcode 0x58: the operation each function code names. -/
def opOf58 (w : Word) : Option Op :=
  match fFn w with
  | 0 => some .ppop
  | 1 => some .pfirst
  | 2 => some .plast
  | _ => none

/-- Major opcode 0x59: the operation each function code names. -/
def opOf59 (w : Word) : Option Op :=
  match fFn w with
  | 0 => some .vcvfh
  | 1 => some .vcvfb
  | 2 => some .vcvfe4
  | 3 => some .vcvfe5
  | 4 => some .vcvhf
  | 5 => some .vcvbf
  | 6 => some .vcve4f
  | 7 => some .vcve5f
  | 8 => some .vcvfi
  | 9 => some .vcvif
  | 10 => some .vcvdf
  | 11 => some .vcvfd
  | 12 => some .vcvin
  | 13 => some .vcvci
  | 14 => some .vcvic
  | 15 => some .vcvfc
  | _ => none

/-- Major opcode 0x5a: the operation each function code names. -/
def opOf5A (w : Word) : Option Op :=
  match fFn w with
  | 0 | 8 => some .vdeq
  | 1 | 9 => some .vqnt
  | _ => none

/-- Major opcode 0x5b: the operation each function code names. -/
def opOf5B (w : Word) : Option Op :=
  match fFn w with
  | 0 | 8 => some .vperm
  | 1 | 9 => some .vslup
  | 2 | 10 => some .vsldn
  | 3 | 11 => some .vcomp
  | 4 | 12 => some .vexpd
  | 5 | 13 => some .vzip
  | 6 | 14 => some .vuzp
  | 7 | 15 => some .vrev
  | _ => none

/-- Major opcode 0x5c: the operation each function code names. -/
def opOf5C (w : Word) : Option Op :=
  match fFn w with
  | 0 | 8 => some .vmov
  | 1 | 9 => some .vsplat
  | 2 => some .vext
  | 3 => some .vins
  | 4 | 12 => some .viota
  | 5 => some .vmerge
  | 6 => some .vfmsk
  | 7 => some .vclrf
  | _ => none

/-- Major opcode 0x5d: the operation each function code names. -/
def opOf5D (w : Word) : Option Op :=
  match fFn w with
  | 0 | 8 => some .vrsum
  | 1 | 9 => some .vfsum
  | 2 | 10 => some .vrmin
  | 3 | 11 => some .vrmax
  | 4 | 12 => some .vrand
  | 5 | 13 => some .vror
  | 6 | 14 => some .vrxor
  | 7 => some .vtree
  | _ => none

/-- Major opcode 0x5e: the operation each function code names. -/
def opOf5E (w : Word) : Option Op :=
  match fFn w with
  | 0 | 8 => some .vargmax
  | 1 | 9 => some .vargmin
  | 2 | 10 => some .vargmaxc
  | _ => none

/-- Major opcode 0x5f: the operation each function code names. -/
def opOf5F (w : Word) : Option Op :=
  match fFn w with
  | 0 | 8 => some .vscan
  | 1 | 9 => some .vscanx
  | 2 | 10 => some .vfscan
  | 3 | 11 => some .vmscan
  | _ => none

/-- Major opcode 0x60: the operation each function code names. -/
def opOf60 (w : Word) : Option Op :=
  match fFn w with
  | 0 | 8 => some .vsegrAdd
  | 1 | 9 => some .vsegrMin
  | 2 | 10 => some .vsegrMax
  | 3 | 11 => some .vsegrAnd
  | 4 | 12 => some .vsegrOr
  | 5 | 13 => some .vsegrFadd
  | 6 | 14 => some .vsegrFmin
  | 7 | 15 => some .vsegrFmax
  | _ => none

/-- Major opcode 0x61: the operation each function code names. -/
def opOf61 (w : Word) : Option Op :=
  match fFn w with
  | 0 | 8 => some .vrndl
  | 1 | 9 => some .vrndh
  | 2 | 10 => some .vrndu
  | _ => none

/-- Major opcode 0x62: the operation each function code names. -/
def opOf62 (w : Word) : Option Op :=
  match fFn w with
  | 0 => some .vbin
  | 1 => some .vbout
  | 2 => some .vunb
  | _ => none

/-- Major opcode 0x6a: the operation each function code names. -/
def opOf6A (w : Word) : Option Op :=
  match fFn w with
  | 0 => some .maccf
  | 1 => some .macc
  | 2 => some .maccz
  | _ => none

/-- Major opcode 0x6c: the operation each function code names. -/
def opOf6C (w : Word) : Option Op :=
  match fFn w with
  | 0 => some .mstat
  | 1 => some .mstatc
  | _ => none

/-- Major opcode 0x70: the operation each function code names. -/
def opOf70 (w : Word) : Option Op :=
  match fFn w with
  | 0 => some .rcopen
  | 1 => some .rcnoise
  | 2 => some .rcscore
  | 3 => some .rccut
  | 4 => some .rcexact
  | 5 => some .rcpost
  | 6 => some .rcmerge
  | 7 => some .rcbar
  | 8 => some .rcprob
  | 9 => some .rcget
  | 10 => some .rcput
  | 11 => some .rcclose
  | _ => none

/-- Major opcode 0x71: the operation each function code names. -/
def opOf71 (w : Word) : Option Op :=
  match fFn w with
  | 0 => some .fnset
  | 1 => some .fnget
  | 2 => some .fnadd
  | 3 => some .fnmul
  | 4 => some .fncomp
  | 5 => some .fnint
  | 6 => some .fndiff
  | 7 => some .fneval
  | 8 => some .fnroot
  | 9 => some .fntrunc
  | 10 => some .fnfit
  | 11 => some .fnmono
  | 12 => some .fninfo
  | 13 => some .fnfree
  | 14 => some .fnscal
  | _ => none

/-- Major opcode 0x72: the operation each function code names. -/
def opOf72 (w : Word) : Option Op :=
  match fFn w with
  | 0 => some .gmbox
  | 1 => some .vhold
  | 2 => some .rstv
  | 3 => some .rstvr
  | 4 => some .gstat
  | _ => none

/-- Major opcode 0x78 (R112); an MTS word to a register with a row of its own is that row's. -/
def opOf78 (w : Word) : Option Op :=
  match fFn w with
  | 0 => some .exit
  | 1 => some .eret
  | 2 => some .mfs
  | 4 => some .ctxsave
  | 5 => some .ctxload
  | 6 => some .notify
  | 7 => some .preempt
  | 8 => some .resume
  | 9 => some .digchk
  | 10 => some .halt
  | 3 =>
    if sysNo (fA w) (fB w) == 0x10 then some .mtsCause
    else if sysNo (fA w) (fB w) == 0x21 then some .mtsVbase
    else if sysNo (fA w) (fB w) == 0x30 then some .mtsFmode
    else if sysNo (fA w) (fB w) == 0x40 then some .mtsScopetab
    else if sysNo (fA w) (fB w) == 0x80 then some .mtsLattol
    else some .mts
  | _ => none

/-- The one operation a word's opcode and function code can name (R104 to R112): none at steps 1 and 2 of R101. -/
def opOf (w : Word) : Option Op :=
  match fOp w with
  | 0x1 => opOf01 w
  | 0x2 => opOf02 w
  | 0x3 => some .addi
  | 0x4 => some .andi
  | 0x5 => some .ori
  | 0x6 => some .xori
  | 0x7 => some .shli
  | 0x8 => some .shri
  | 0x9 => some .srai
  | 0xa => some .slti
  | 0xb => some .li
  | 0xc => some .lsh
  | 0xd => opOf0D w
  | 0xe => opOf0E w
  | 0x10 => some .b
  | 0x11 => some .bz
  | 0x12 => some .bnz
  | 0x13 => some .bltz
  | 0x14 => some .bgez
  | 0x15 => some .call
  | 0x16 => some .ret
  | 0x17 => some .jr
  | 0x18 => some .bq
  | 0x19 => some .bany
  | 0x1a => some .bnone
  | 0x1b => some .smb
  | 0x1c => some .bend
  | 0x1d => some .nop
  | 0x1e => some .yield
  | 0x1f => some .trap
  | 0x20 => some .vlget
  | 0x21 => some .vloop
  | 0x22 => some .stair
  | 0x23 => some .stflg
  | 0x24 => some .ststep
  | 0x25 => some .wbase
  | 0x26 => some .fmode
  | 0x27 => some .scope
  | 0x28 => some .vmask
  | 0x29 => some .ldb
  | 0x2a => some .ldh
  | 0x2b => some .ldw
  | 0x2c => some .ldd
  | 0x2d => some .stb
  | 0x2e => some .sth
  | 0x2f => some .stw
  | 0x30 => some .std
  | 0x31 => opOf31 w
  | 0x32 => some .lds
  | 0x33 => some .sts
  | 0x34 => opOf34 w
  | 0x35 => opOf35 w
  | 0x36 => opOf36 w
  | 0x37 => opOf37 w
  | 0x38 => some .cas
  | 0x39 => some .fence
  | 0x3a => some .waita
  | 0x3b => opOf3B w
  | 0x3c => some .bwait
  | 0x3d => some .vwait
  | 0x3e => some .qdrain
  | 0x3f => some .qcnt
  | 0x40 => opOf40 w
  | 0x41 => opOf41 w
  | 0x42 => opOf42 w
  | 0x43 => opOf43 w
  | 0x44 => opOf44 w
  | 0x45 => some .tidset
  | 0x46 => opOf46 w
  | 0x47 => some .launch
  | 0x48 => opOf48 w
  | 0x50 => opOf50 w
  | 0x51 => opOf51 w
  | 0x52 => opOf52 w
  | 0x53 => opOf53 w
  | 0x54 => some .vcmp
  | 0x55 => some .vcmpx
  | 0x56 => opOf56 w
  | 0x57 => opOf57 w
  | 0x58 => opOf58 w
  | 0x59 => opOf59 w
  | 0x5a => opOf5A w
  | 0x5b => opOf5B w
  | 0x5c => opOf5C w
  | 0x5d => opOf5D w
  | 0x5e => opOf5E w
  | 0x5f => opOf5F w
  | 0x60 => opOf60 w
  | 0x61 => opOf61 w
  | 0x62 => opOf62 w
  | 0x68 => some .mtile
  | 0x69 => some .mrow
  | 0x6a => opOf6A w
  | 0x6b => some .mzero
  | 0x6c => opOf6C w
  | 0x70 => opOf70 w
  | 0x71 => opOf71 w
  | 0x72 => opOf72 w
  | 0x78 => opOf78 w
  | _ => none

/-- The opcode map's entry of an operation, read off the fields of a word; the last part says that the unused bits
are 0 (R98) and the literals and register combinations within their ranges. -/
def opInfo (w : Word) : Op → Info
  | .add => ⟨[.dst (fD w), .src (fA w), .src (fB w)], none, 0, true⟩
  | .sub => ⟨[.dst (fD w), .src (fA w), .src (fB w)], none, 0, true⟩
  | .and => ⟨[.dst (fD w), .src (fA w), .src (fB w)], none, 0, true⟩
  | .or => ⟨[.dst (fD w), .src (fA w), .src (fB w)], none, 0, true⟩
  | .xor => ⟨[.dst (fD w), .src (fA w), .src (fB w)], none, 0, true⟩
  | .shl => ⟨[.dst (fD w), .src (fA w), .src (fB w)], none, 0, true⟩
  | .shr => ⟨[.dst (fD w), .src (fA w), .src (fB w)], none, 0, true⟩
  | .sra => ⟨[.dst (fD w), .src (fA w), .src (fB w)], none, 0, true⟩
  | .min => ⟨[.dst (fD w), .src (fA w), .src (fB w)], none, 0, true⟩
  | .max => ⟨[.dst (fD w), .src (fA w), .src (fB w)], none, 0, true⟩
  | .minu => ⟨[.dst (fD w), .src (fA w), .src (fB w)], none, 0, true⟩
  | .maxu => ⟨[.dst (fD w), .src (fA w), .src (fB w)], none, 0, true⟩
  | .slt => ⟨[.dst (fD w), .src (fA w), .src (fB w)], none, 0, true⟩
  | .sltu => ⟨[.dst (fD w), .src (fA w), .src (fB w)], none, 0, true⟩
  | .seq => ⟨[.dst (fD w), .src (fA w), .src (fB w)], none, 0, true⟩
  | .sel => ⟨[.rw (fD w), .src (fA w), .src (fB w)], none, 0, true⟩
  | .mul => ⟨[.dst (fD w), .src (fA w), .src (fB w)], none, 0, true⟩
  | .mulh => ⟨[.dst (fD w), .src (fA w), .src (fB w)], none, 0, true⟩
  | .mulhu => ⟨[.dst (fD w), .src (fA w), .src (fB w)], none, 0, true⟩
  | .div => ⟨[.dst (fD w), .src (fA w), .src (fB w)], none, 0, true⟩
  | .divu => ⟨[.dst (fD w), .src (fA w), .src (fB w)], none, 0, true⟩
  | .rem => ⟨[.dst (fD w), .src (fA w), .src (fB w)], none, 0, true⟩
  | .remu => ⟨[.dst (fD w), .src (fA w), .src (fB w)], none, 0, true⟩
  | .clz => ⟨[.dst (fD w), .src (fA w)], none, 0, fB w == 0⟩
  | .ctz => ⟨[.dst (fD w), .src (fA w)], none, 0, fB w == 0⟩
  | .popc => ⟨[.dst (fD w), .src (fA w)], none, 0, fB w == 0⟩
  | .sxb => ⟨[.dst (fD w), .src (fA w)], none, 0, fB w == 0⟩
  | .sxh => ⟨[.dst (fD w), .src (fA w)], none, 0, fB w == 0⟩
  | .sxw => ⟨[.dst (fD w), .src (fA w)], none, 0, fB w == 0⟩
  | .addi => ⟨[.dst (fD w), .src (fA w)], none, 0, true⟩
  | .andi => ⟨[.dst (fD w), .src (fA w)], none, 0, true⟩
  | .ori => ⟨[.dst (fD w), .src (fA w)], none, 0, true⟩
  | .xori => ⟨[.dst (fD w), .src (fA w)], none, 0, true⟩
  | .shli => ⟨[.dst (fD w), .src (fA w)], none, 0, w.extractLsb' 6 5 == 0⟩
  | .shri => ⟨[.dst (fD w), .src (fA w)], none, 0, w.extractLsb' 6 5 == 0⟩
  | .srai => ⟨[.dst (fD w), .src (fA w)], none, 0, w.extractLsb' 6 5 == 0⟩
  | .slti => ⟨[.dst (fD w), .src (fA w)], none, 0, true⟩
  | .li => ⟨[.dst (fD w)], none, 0, true⟩
  | .lsh => ⟨[.rw (fD w)], none, 0, true⟩
  | .sfadd => ⟨[.dst (fD w), .src (fA w), .src (fB w)], none, 0, true⟩
  | .sfsub => ⟨[.dst (fD w), .src (fA w), .src (fB w)], none, 0, true⟩
  | .sfmul => ⟨[.dst (fD w), .src (fA w), .src (fB w)], none, 0, true⟩
  | .sfdiv => ⟨[.dst (fD w), .src (fA w), .src (fB w)], none, 0, true⟩
  | .sfsqrt => ⟨[.dst (fD w), .src (fA w)], none, 0, fB w == 0⟩
  | .sfmin => ⟨[.dst (fD w), .src (fA w), .src (fB w)], none, 0, true⟩
  | .sfmax => ⟨[.dst (fD w), .src (fA w), .src (fB w)], none, 0, true⟩
  | .sfma => ⟨[.rw (fD w), .src (fA w), .src (fB w)], none, 0, true⟩
  | .sfeq => ⟨[.dst (fD w), .src (fA w), .src (fB w)], none, 0, true⟩
  | .sflt => ⟨[.dst (fD w), .src (fA w), .src (fB w)], none, 0, true⟩
  | .sfle => ⟨[.dst (fD w), .src (fA w), .src (fB w)], none, 0, true⟩
  | .scvdl => ⟨[.dst (fD w), .src (fA w)], none, 0, fB w == 0⟩
  | .scvld => ⟨[.dst (fD w), .src (fA w)], none, 0, fB w == 0⟩
  | .scvdf => ⟨[.dst (fD w), .src (fA w)], none, 0, fB w == 0⟩
  | .scvfd => ⟨[.dst (fD w), .src (fA w)], none, 0, fB w == 0⟩
  | .scvdh => ⟨[.dst (fD w), .src (fA w)], none, 0, fB w == 0⟩
  | .scvhd => ⟨[.dst (fD w), .src (fA w)], none, 0, fB w == 0⟩
  | .scvdb => ⟨[.dst (fD w), .src (fA w)], none, 0, fB w == 0⟩
  | .scvbd => ⟨[.dst (fD w), .src (fA w)], none, 0, fB w == 0⟩
  | .b => ⟨[], none, 0, fD w == 0⟩
  | .bz => ⟨[.src (fD w)], none, 0, true⟩
  | .bnz => ⟨[.src (fD w)], none, 0, true⟩
  | .bltz => ⟨[.src (fD w)], none, 0, true⟩
  | .bgez => ⟨[.src (fD w)], none, 0, true⟩
  | .call => ⟨[], none, 0, fD w == 0⟩
  | .ret => ⟨[], none, 0, w.extractLsb' 0 25 == 0⟩
  | .jr => ⟨[.src (fA w)], none, 0, fD w == 0 && fB w == 0 && w.extractLsb' 0 4 == 0⟩
  | .bq => ⟨[.bq (fD w)], none, 0, true⟩
  | .bany => ⟨[.pred (fD w)], (some .x), 0, true⟩
  | .bnone => ⟨[.pred (fD w)], (some .x), 0, true⟩
  | .smb => ⟨[.dst (fD w)], none, 0, true⟩
  | .bend => ⟨[.vec (fD w) 1], (some .x), 0, true⟩
  | .nop => ⟨[], none, 0, w.extractLsb' 0 25 == 0⟩
  | .yield => ⟨[], none, 0, w.extractLsb' 0 25 == 0⟩
  | .trap => ⟨[], none, 0, true⟩
  | .vlget => ⟨[.dst (fD w), .src (fA w)], none, 0, w.extractLsb' 5 6 == 0 && ((w.extractLsb' 0 4).toNat ≤ 13)⟩
  | .vloop => ⟨[.dst (fD w), .src (fA w)], none, 0, w.extractLsb' 6 5 == 0 && ((w.extractLsb' 0 4).toNat ≤ 13)⟩
  | .stair => ⟨[.gprs (fD w) (w.extractLsb' 0 3).toNat], none, 0, w.extractLsb' 9 2 == 0 && (1 ≤ (w.extractLsb' 0 3).toNat && (w.extractLsb' 0 3).toNat ≤ 6)⟩
  | .stflg => ⟨[.src (fA w)], none, 0, fD w == 0 && w.extractLsb' 7 4 == 0 && ((w.extractLsb' 0 6).toNat ≤ 5)⟩
  | .ststep => ⟨[], none, 0, ststepOk (fD w) (fA w) (fB w) (w.extractLsb' 0 4)⟩
  | .wbase => ⟨[], none, 0, fD w == 0 && fA w == 0 && w.extractLsb' 6 5 == 0⟩
  | .fmode => ⟨[], none, 0, fD w == 0 && fA w == 0 && w.extractLsb' 7 4 == 0 && ((w.extractLsb' 0 7).toNat % 8 ≤ 4)⟩
  | .scope => ⟨[], (some .a), 0, fD w == 0 && fA w == 0 && w.extractLsb' 5 6 == 0⟩
  | .vmask => ⟨[.pred (w.extractLsb' 0 7)], (some .x), 0, fD w == 0 && fA w == 0 && w.extractLsb' 7 4 == 0⟩
  | .ldb => ⟨[.dst (fD w), .areg (fA w)], (some .a), 0, true⟩
  | .ldh => ⟨[.dst (fD w), .areg (fA w)], (some .a), 0, true⟩
  | .ldw => ⟨[.dst (fD w), .areg (fA w)], (some .a), 0, true⟩
  | .ldd => ⟨[.dst (fD w), .areg (fA w)], (some .a), 0, true⟩
  | .stb => ⟨[.src (fD w), .areg (fA w)], (some .a), 0, true⟩
  | .sth => ⟨[.src (fD w), .areg (fA w)], (some .a), 0, true⟩
  | .stw => ⟨[.src (fD w), .areg (fA w)], (some .a), 0, true⟩
  | .std => ⟨[.src (fD w), .areg (fA w)], (some .a), 0, true⟩
  | .aset => ⟨[.areg (fD w), .src (fA w)], (some .a), 0, fB w == 0⟩
  | .aget => ⟨[.dst (fD w), .areg (fA w)], (some .a), 0, fB w == 0⟩
  | .astr => ⟨[.areg (fD w), .src (fA w)], (some .a), 0, fB w == 0⟩
  | .aadd => ⟨[.areg (fD w), .src (fA w)], (some .a), 0, fB w == 0⟩
  | .agstr => ⟨[.dst (fD w), .areg (fA w)], (some .a), 0, fB w == 0⟩
  | .lds => ⟨[.dst (fD w), .areg (fA w)], (some .a), 0, fB w == 0 && ((w.extractLsb' 2 2) != 3)⟩
  | .sts => ⟨[.src (fD w), .areg (fA w)], (some .a), 0, fB w == 0 && ((w.extractLsb' 2 2) != 3)⟩
  | .amoAdd => ⟨[.dst (fD w), .areg (fA w), .src (fB w)], (some .a), 0, true⟩
  | .amoAnd => ⟨[.dst (fD w), .areg (fA w), .src (fB w)], (some .a), 0, true⟩
  | .amoOr => ⟨[.dst (fD w), .areg (fA w), .src (fB w)], (some .a), 0, true⟩
  | .amoXor => ⟨[.dst (fD w), .areg (fA w), .src (fB w)], (some .a), 0, true⟩
  | .amoMin => ⟨[.dst (fD w), .areg (fA w), .src (fB w)], (some .a), 0, true⟩
  | .amoMax => ⟨[.dst (fD w), .areg (fA w), .src (fB w)], (some .a), 0, true⟩
  | .amoMinu => ⟨[.dst (fD w), .areg (fA w), .src (fB w)], (some .a), 0, true⟩
  | .amoMaxu => ⟨[.dst (fD w), .areg (fA w), .src (fB w)], (some .a), 0, true⟩
  | .amoSwap => ⟨[.dst (fD w), .areg (fA w), .src (fB w)], (some .a), 0, true⟩
  | .amoFadd32 => ⟨[.dst (fD w), .areg (fA w), .src (fB w)], (some .a), 0, true⟩
  | .amoFadd64 => ⟨[.dst (fD w), .areg (fA w), .src (fB w)], (some .a), 0, true⟩
  | .amoaAdd => ⟨[.dst (fD w), .areg (fA w), .src (fB w)], (some .a), 0, true⟩
  | .amoaAnd => ⟨[.dst (fD w), .areg (fA w), .src (fB w)], (some .a), 0, true⟩
  | .amoaOr => ⟨[.dst (fD w), .areg (fA w), .src (fB w)], (some .a), 0, true⟩
  | .amoaXor => ⟨[.dst (fD w), .areg (fA w), .src (fB w)], (some .a), 0, true⟩
  | .amoaMin => ⟨[.dst (fD w), .areg (fA w), .src (fB w)], (some .a), 0, true⟩
  | .amoaMax => ⟨[.dst (fD w), .areg (fA w), .src (fB w)], (some .a), 0, true⟩
  | .amoaMinu => ⟨[.dst (fD w), .areg (fA w), .src (fB w)], (some .a), 0, true⟩
  | .amoaMaxu => ⟨[.dst (fD w), .areg (fA w), .src (fB w)], (some .a), 0, true⟩
  | .amoaSwap => ⟨[.dst (fD w), .areg (fA w), .src (fB w)], (some .a), 0, true⟩
  | .amoaFadd32 => ⟨[.dst (fD w), .areg (fA w), .src (fB w)], (some .a), 0, true⟩
  | .amoaFadd64 => ⟨[.dst (fD w), .areg (fA w), .src (fB w)], (some .a), 0, true⟩
  | .amolAdd => ⟨[.dst (fD w), .areg (fA w), .src (fB w)], (some .a), 0, true⟩
  | .amolAnd => ⟨[.dst (fD w), .areg (fA w), .src (fB w)], (some .a), 0, true⟩
  | .amolOr => ⟨[.dst (fD w), .areg (fA w), .src (fB w)], (some .a), 0, true⟩
  | .amolXor => ⟨[.dst (fD w), .areg (fA w), .src (fB w)], (some .a), 0, true⟩
  | .amolMin => ⟨[.dst (fD w), .areg (fA w), .src (fB w)], (some .a), 0, true⟩
  | .amolMax => ⟨[.dst (fD w), .areg (fA w), .src (fB w)], (some .a), 0, true⟩
  | .amolMinu => ⟨[.dst (fD w), .areg (fA w), .src (fB w)], (some .a), 0, true⟩
  | .amolMaxu => ⟨[.dst (fD w), .areg (fA w), .src (fB w)], (some .a), 0, true⟩
  | .amolSwap => ⟨[.dst (fD w), .areg (fA w), .src (fB w)], (some .a), 0, true⟩
  | .amolFadd32 => ⟨[.dst (fD w), .areg (fA w), .src (fB w)], (some .a), 0, true⟩
  | .amolFadd64 => ⟨[.dst (fD w), .areg (fA w), .src (fB w)], (some .a), 0, true⟩
  | .amoxAdd => ⟨[.dst (fD w), .areg (fA w), .src (fB w)], (some .a), 0, true⟩
  | .amoxAnd => ⟨[.dst (fD w), .areg (fA w), .src (fB w)], (some .a), 0, true⟩
  | .amoxOr => ⟨[.dst (fD w), .areg (fA w), .src (fB w)], (some .a), 0, true⟩
  | .amoxXor => ⟨[.dst (fD w), .areg (fA w), .src (fB w)], (some .a), 0, true⟩
  | .amoxMin => ⟨[.dst (fD w), .areg (fA w), .src (fB w)], (some .a), 0, true⟩
  | .amoxMax => ⟨[.dst (fD w), .areg (fA w), .src (fB w)], (some .a), 0, true⟩
  | .amoxMinu => ⟨[.dst (fD w), .areg (fA w), .src (fB w)], (some .a), 0, true⟩
  | .amoxMaxu => ⟨[.dst (fD w), .areg (fA w), .src (fB w)], (some .a), 0, true⟩
  | .amoxSwap => ⟨[.dst (fD w), .areg (fA w), .src (fB w)], (some .a), 0, true⟩
  | .amoxFadd32 => ⟨[.dst (fD w), .areg (fA w), .src (fB w)], (some .a), 0, true⟩
  | .amoxFadd64 => ⟨[.dst (fD w), .areg (fA w), .src (fB w)], (some .a), 0, true⟩
  | .cas => ⟨[.rw (fD w), .areg (fA w), .src (fB w)], (some .a), 0, ((w.extractLsb' 2 2).toNat ≤ 1)⟩
  | .fence => ⟨[], (some .a), 0, fD w == 0 && fA w == 0 && w.extractLsb' 3 8 == 0⟩
  | .waita => ⟨[.rw (fD w), .areg (fA w)], (some .a), 0, fB w == 0 && w.extractLsb' 2 1 == 0⟩
  | .barr => ⟨[.dst (fD w), .areg (fA w), .src (fB w)], (some .a), 0, true⟩
  | .barrt => ⟨[.dst (fD w), .areg (fA w), .src (fB w)], (some .a), 0, true⟩
  | .binit => ⟨[.dst (fD w), .areg (fA w), .src (fB w)], (some .a), 0, true⟩
  | .bdiss => ⟨[.dst (fD w), .areg (fA w)], (some .a), 0, fB w == 0⟩
  | .bwait => ⟨[.rw (fD w), .areg (fA w), .src (fB w)], (some .a), 0, w.extractLsb' 0 4 == 0⟩
  | .vwait => ⟨[.dst (fD w), .areg (fA w), .src (fB w)], (some .a), 0, w.extractLsb' 0 4 == 0⟩
  | .qdrain => ⟨[.qid (fA w)], none, 0, fD w == 0 && fB w == 0 && w.extractLsb' 0 4 == 0⟩
  | .qcnt => ⟨[.dst (fD w), .qid (fA w)], none, 0, fB w == 0 && w.extractLsb' 0 4 == 0⟩
  | .sload => ⟨[.vin (fD w), .areg (fA w)], (some .a), 0, fB w == 0⟩
  | .sloadSlice => ⟨[.vin (fD w), .areg (fA w), .src (fB w)], (some .a), 0, true⟩
  | .sloadTrim => ⟨[.vin (fD w), .areg (fA w)], (some .a), 0, fB w == 0⟩
  | .sstore => ⟨[.vout (fD w), .areg (fA w)], (some .a), 0, fB w == 0⟩
  | .sstoreSlice => ⟨[.vout (fD w), .areg (fA w), .src (fB w)], (some .a), 0, true⟩
  | .sstoreTrim => ⟨[.vout (fD w), .areg (fA w)], (some .a), 0, fB w == 0⟩
  | .sgath => ⟨[.vin (fD w), .areg (fA w), .vout (fB w)], (some .a), 0, ((w.extractLsb' 0 3).toNat ≤ 3)⟩
  | .sgathc => ⟨[.vin (fD w), .areg (fA w), .vout (fB w)], (some .a), 0, ((w.extractLsb' 0 3).toNat ≤ 3)⟩
  | .sscat => ⟨[.vout (fD w), .areg (fA w), .vout (fB w)], (some .a), 0, ((w.extractLsb' 0 3).toNat ≤ 3 && (fD w) != (fB w))⟩
  | .sscatc => ⟨[.vout (fD w), .areg (fA w), .vout (fB w)], (some .a), 0, ((w.extractLsb' 0 3).toNat ≤ 3 && (fD w) != (fB w))⟩
  | .cpy => ⟨[.areg (fA w)], (some .a), 0, fD w == 0 && fB w == 0⟩
  | .cpyq => ⟨[.dst (fD w), .areg (fA w)], (some .a), 0, fB w == 0⟩
  | .tidset => ⟨[.src (fD w), .areg (fA w)], (some .a), 0, fB w == 0 && w.extractLsb' 0 4 == 0⟩
  | .svmap => ⟨[.dst (fD w), .areg (fA w)], (some .a), 0, fB w == 0⟩
  | .svg1 => ⟨[.dst (fD w), .areg (fA w)], (some .a), 0, fB w == 0⟩
  | .svg2 => ⟨[.dst (fD w), .areg (fA w)], (some .a), 0, fB w == 0⟩
  | .svph => ⟨[.dst (fD w), .areg (fA w)], (some .a), 0, fB w == 0⟩
  | .svswp => ⟨[.dst (fD w), .areg (fA w)], (some .a), 0, fB w == 0⟩
  | .svrun => ⟨[.dst (fD w), .areg (fA w)], (some .a), 0, fB w == 0⟩
  | .svprob => ⟨[.dst (fD w), .areg (fA w)], (some .a), 0, fB w == 0⟩
  | .launch => ⟨[.dst (fD w), .areg (fA w), .src (fB w)], (some .a), 1, w.extractLsb' 0 4 == 0⟩
  | .join => ⟨[.dst (fD w), .areg (fA w)], (some .a), 0, fB w == 0⟩
  | .leave => ⟨[.dst (fD w), .areg (fA w)], (some .a), 0, fB w == 0⟩
  | .gname => ⟨[.dst (fD w), .areg (fA w)], (some .a), 0, fB w == 0⟩
  | .gdrop => ⟨[.dst (fD w), .areg (fA w)], (some .a), 0, fB w == 0⟩
  | .ginfo => ⟨[.dst (fD w), .areg (fA w)], (some .a), 0, fB w == 0⟩
  | .gmove => ⟨[.dst (fD w), .areg (fA w), .src (fB w)], (some .a), 1, true⟩
  | .vadd => ⟨[.vec (fD w) 1, .vec (fA w) 1, .vec (fB w) 1], (some .x), 0, true⟩
  | .vsub => ⟨[.vec (fD w) 1, .vec (fA w) 1, .vec (fB w) 1], (some .x), 0, true⟩
  | .vmul => ⟨[.vec (fD w) 1, .vec (fA w) 1, .vec (fB w) 1], (some .x), 0, true⟩
  | .vmulh => ⟨[.vec (fD w) 1, .vec (fA w) 1, .vec (fB w) 1], (some .x), 0, true⟩
  | .vmin => ⟨[.vec (fD w) 1, .vec (fA w) 1, .vec (fB w) 1], (some .x), 0, true⟩
  | .vmax => ⟨[.vec (fD w) 1, .vec (fA w) 1, .vec (fB w) 1], (some .x), 0, true⟩
  | .vadds => ⟨[.vec (fD w) 1, .vec (fA w) 1, .vec (fB w) 1], (some .x), 0, true⟩
  | .vsubs => ⟨[.vec (fD w) 1, .vec (fA w) 1, .vec (fB w) 1], (some .x), 0, true⟩
  | .vand => ⟨[.vec (fD w) 1, .vec (fA w) 1, .vec (fB w) 1], (some .x), 0, true⟩
  | .vor => ⟨[.vec (fD w) 1, .vec (fA w) 1, .vec (fB w) 1], (some .x), 0, true⟩
  | .vxor => ⟨[.vec (fD w) 1, .vec (fA w) 1, .vec (fB w) 1], (some .x), 0, true⟩
  | .vshl => ⟨[.vec (fD w) 1, .vec (fA w) 1, .vec (fB w) 1], (some .x), 0, true⟩
  | .vshr => ⟨[.vec (fD w) 1, .vec (fA w) 1, .vec (fB w) 1], (some .x), 0, true⟩
  | .vsra => ⟨[.vec (fD w) 1, .vec (fA w) 1, .vec (fB w) 1], (some .x), 0, true⟩
  | .vandn => ⟨[.vec (fD w) 1, .vec (fA w) 1, .vec (fB w) 1], (some .x), 0, true⟩
  | .vfadd => ⟨[.vec (fD w) 1, .vec (fA w) 1, .vec (fB w) 1], (some .x), 0, true⟩
  | .vfsub => ⟨[.vec (fD w) 1, .vec (fA w) 1, .vec (fB w) 1], (some .x), 0, true⟩
  | .vfmul => ⟨[.vec (fD w) 1, .vec (fA w) 1, .vec (fB w) 1], (some .x), 0, true⟩
  | .vfdiv => ⟨[.vec (fD w) 1, .vec (fA w) 1, .vec (fB w) 1], (some .x), 0, true⟩
  | .vfmin => ⟨[.vec (fD w) 1, .vec (fA w) 1, .vec (fB w) 1], (some .x), 0, true⟩
  | .vfmax => ⟨[.vec (fD w) 1, .vec (fA w) 1, .vec (fB w) 1], (some .x), 0, true⟩
  | .vfma => ⟨[.vec (fD w) 1, .vec (fA w) 1, .vec (fB w) 1], (some .x), 0, true⟩
  | .vfms => ⟨[.vec (fD w) 1, .vec (fA w) 1, .vec (fB w) 1], (some .x), 0, true⟩
  | .vfsqrt => ⟨[.vec (fD w) 1, .vec (fA w) 1], (some .x), 0, fB w == 0⟩
  | .vfrsq => ⟨[.vec (fD w) 1, .vec (fA w) 1], (some .x), 0, fB w == 0⟩
  | .vlog2 => ⟨[.vec (fD w) 1, .vec (fA w) 1], (some .x), 0, fB w == 0⟩
  | .vexp2 => ⟨[.vec (fD w) 1, .vec (fA w) 1], (some .x), 0, fB w == 0⟩
  | .vfabs => ⟨[.vec (fD w) 1, .vec (fA w) 1], (some .x), 0, fB w == 0⟩
  | .vfneg => ⟨[.vec (fD w) 1, .vec (fA w) 1], (some .x), 0, fB w == 0⟩
  | .vfclass => ⟨[.vec (fD w) 1, .vec (fA w) 1], (some .x), 0, fB w == 0⟩
  | .vfrint => ⟨[.vec (fD w) 1, .vec (fA w) 1], (some .x), 0, fB w == 0⟩
  | .vcmp => ⟨[.pred (fD w), .vec (fA w) 1, .vec (fB w) 1], (some .x), 0, ((w.extractLsb' 0 3).toNat ≤ 5)⟩
  | .vcmpx => ⟨[.pred (fD w), .vec (fA w) 1, .src (fB w)], (some .x), 0, ((w.extractLsb' 0 3).toNat ≤ 5)⟩
  | .pand => ⟨[.pred (fD w), .pred (fA w), .pred (fB w)], (some .x), 0, true⟩
  | .por => ⟨[.pred (fD w), .pred (fA w), .pred (fB w)], (some .x), 0, true⟩
  | .pxor => ⟨[.pred (fD w), .pred (fA w), .pred (fB w)], (some .x), 0, true⟩
  | .pandn => ⟨[.pred (fD w), .pred (fA w), .pred (fB w)], (some .x), 0, true⟩
  | .pnot => ⟨[.pred (fD w), .pred (fA w)], (some .x), 0, fB w == 0⟩
  | .pmov => ⟨[.pred (fD w), .pred (fA w)], (some .x), 0, fB w == 0⟩
  | .pset => ⟨[.pred (fD w)], (some .x), 0, fA w == 0 && fB w == 0⟩
  | .pclr => ⟨[.pred (fD w)], (some .x), 0, fA w == 0 && fB w == 0⟩
  | .pcnt => ⟨[.pred (fD w), .src (fA w)], (some .x), 0, fB w == 0⟩
  | .pcntt => ⟨[.pred (fD w), .src (fA w)], (some .x), 0, fB w == 0⟩
  | .ppop => ⟨[.dst (fD w), .pred (fA w)], (some .x), 0, fB w == 0⟩
  | .pfirst => ⟨[.dst (fD w), .pred (fA w)], (some .x), 0, fB w == 0⟩
  | .plast => ⟨[.dst (fD w), .pred (fA w)], (some .x), 0, fB w == 0⟩
  | .vcvfh => ⟨[.vec (fD w) 1, .vec (fA w) 1], (some .x), 0, fB w == 0⟩
  | .vcvfb => ⟨[.vec (fD w) 1, .vec (fA w) 1], (some .x), 0, fB w == 0⟩
  | .vcvfe4 => ⟨[.vec (fD w) 1, .vec (fA w) 1], (some .x), 0, fB w == 0⟩
  | .vcvfe5 => ⟨[.vec (fD w) 1, .vec (fA w) 1], (some .x), 0, fB w == 0⟩
  | .vcvhf => ⟨[.vec (fD w) 1, .vec (fA w) 1], (some .x), 0, fB w == 0⟩
  | .vcvbf => ⟨[.vec (fD w) 1, .vec (fA w) 1], (some .x), 0, fB w == 0⟩
  | .vcve4f => ⟨[.vec (fD w) 1, .vec (fA w) 1], (some .x), 0, fB w == 0⟩
  | .vcve5f => ⟨[.vec (fD w) 1, .vec (fA w) 1], (some .x), 0, fB w == 0⟩
  | .vcvfi => ⟨[.vec (fD w) 1, .vec (fA w) 1], (some .x), 0, fB w == 0⟩
  | .vcvif => ⟨[.vec (fD w) 1, .vec (fA w) 1], (some .x), 0, fB w == 0⟩
  | .vcvdf => ⟨[.vec (fD w) 1, .vec (fA w) 1], (some .x), 0, fB w == 0⟩
  | .vcvfd => ⟨[.vec (fD w) 1, .vec (fA w) 1], (some .x), 0, fB w == 0⟩
  | .vcvin => ⟨[.vec (fD w) 1, .vec (fA w) 1], (some .x), 0, fB w == 0⟩
  | .vcvci => ⟨[.vec (fD w) 1, .vec (fA w) 1], (some .x), 0, fB w == 0⟩
  | .vcvic => ⟨[.vec (fD w) 1, .vec (fA w) 1], (some .x), 0, fB w == 0⟩
  | .vcvfc => ⟨[.vec (fD w) 1, .vec (fA w) 1], (some .x), 0, fB w == 0⟩
  | .vdeq => ⟨[.vec (fD w) 1, .vec (fA w) 1, .src (fB w)], (some .x), 0, true⟩
  | .vqnt => ⟨[.vec (fD w) 1, .vec (fA w) 1, .src (fB w)], (some .x), 0, true⟩
  | .vperm => ⟨[.vec (fD w) 1, .vec (fA w) 1, .vec (fB w) 1], (some .x), 0, ((fD w) != (fA w) && (fD w) != (fB w))⟩
  | .vslup => ⟨[.vec (fD w) 1, .vec (fA w) 1, .src (fB w)], (some .x), 0, ((fD w) != (fA w))⟩
  | .vsldn => ⟨[.vec (fD w) 1, .vec (fA w) 1, .src (fB w)], (some .x), 0, ((fD w) != (fA w))⟩
  | .vcomp => ⟨[.vec (fD w) 1, .vec (fA w) 1], (some .x), 0, fB w == 0 && ((fD w) != (fA w))⟩
  | .vexpd => ⟨[.vec (fD w) 1, .vec (fA w) 1], (some .x), 0, fB w == 0 && ((fD w) != (fA w))⟩
  | .vzip => ⟨[.vec (fD w) 1, .vec (fA w) 1, .vec (fB w) 1], (some .x), 0, ((fD w) != (fA w) && (fD w) != (fB w))⟩
  | .vuzp => ⟨[.vec (fD w) 1, .vec (fA w) 1, .vec (fB w) 1], (some .x), 0, ((fD w) != (fA w) && (fD w) != (fB w))⟩
  | .vrev => ⟨[.vec (fD w) 1, .vec (fA w) 1], (some .x), 0, fB w == 0 && ((fD w) != (fA w))⟩
  | .vmov => ⟨[.vec (fD w) 1, .vec (fA w) 1], (some .x), 0, fB w == 0⟩
  | .vsplat => ⟨[.vec (fD w) 1, .src (fA w)], (some .x), 0, fB w == 0⟩
  | .vext => ⟨[.dst (fD w), .vec (fA w) 1, .src (fB w)], (some .x), 0, true⟩
  | .vins => ⟨[.vec (fD w) 1, .src (fA w), .src (fB w)], (some .x), 0, true⟩
  | .viota => ⟨[.vec (fD w) 1], (some .x), 0, fA w == 0 && fB w == 0⟩
  | .vmerge => ⟨[.vec (fD w) 1, .vec (fA w) 1, .vec (fB w) 1], (some .x), 0, true⟩
  | .vfmsk => ⟨[.pred (fD w)], (some .x), 0, fA w == 0 && fB w == 0⟩
  | .vclrf => ⟨[], (some .x), 0, fD w == 0 && fA w == 0 && fB w == 0⟩
  | .vrsum => ⟨[.dst (fD w), .vec (fA w) 1], (some .x), 0, fB w == 0⟩
  | .vfsum => ⟨[.vec (fA w) 1], (some .x), 0, fD w == 0 && fB w == 0⟩
  | .vrmin => ⟨[.dst (fD w), .vec (fA w) 1], (some .x), 0, fB w == 0⟩
  | .vrmax => ⟨[.dst (fD w), .vec (fA w) 1], (some .x), 0, fB w == 0⟩
  | .vrand => ⟨[.dst (fD w), .vec (fA w) 1], (some .x), 0, fB w == 0⟩
  | .vror => ⟨[.dst (fD w), .vec (fA w) 1], (some .x), 0, fB w == 0⟩
  | .vrxor => ⟨[.dst (fD w), .vec (fA w) 1], (some .x), 0, fB w == 0⟩
  | .vtree => ⟨[.dst (fD w)], (some .x), 0, fA w == 0 && fB w == 0⟩
  | .vargmax => ⟨[.vec (fD w) 2, .vec (fA w) 1], (some .x), 0, fB w == 0⟩
  | .vargmin => ⟨[.vec (fD w) 2, .vec (fA w) 1], (some .x), 0, fB w == 0⟩
  | .vargmaxc => ⟨[.vec (fD w) 2, .vec (fA w) 1], (some .x), 0, fB w == 0⟩
  | .vscan => ⟨[.vec (fD w) 1, .vec (fA w) 1], (some .x), 0, fB w == 0⟩
  | .vscanx => ⟨[.vec (fD w) 1, .vec (fA w) 1], (some .x), 0, fB w == 0⟩
  | .vfscan => ⟨[.vec (fD w) 1, .vec (fA w) 1], (some .x), 0, fB w == 0⟩
  | .vmscan => ⟨[.vec (fD w) 1, .vec (fA w) 1], (some .x), 0, fB w == 0⟩
  | .vsegrAdd => ⟨[.vec (fD w) 1, .vec (fA w) 1], (some .x), 0, fB w == 0⟩
  | .vsegrMin => ⟨[.vec (fD w) 1, .vec (fA w) 1], (some .x), 0, fB w == 0⟩
  | .vsegrMax => ⟨[.vec (fD w) 1, .vec (fA w) 1], (some .x), 0, fB w == 0⟩
  | .vsegrAnd => ⟨[.vec (fD w) 1, .vec (fA w) 1], (some .x), 0, fB w == 0⟩
  | .vsegrOr => ⟨[.vec (fD w) 1, .vec (fA w) 1], (some .x), 0, fB w == 0⟩
  | .vsegrFadd => ⟨[.vec (fD w) 1, .vec (fA w) 1], (some .x), 0, fB w == 0⟩
  | .vsegrFmin => ⟨[.vec (fD w) 1, .vec (fA w) 1], (some .x), 0, fB w == 0⟩
  | .vsegrFmax => ⟨[.vec (fD w) 1, .vec (fA w) 1], (some .x), 0, fB w == 0⟩
  | .vrndl => ⟨[.vec (fD w) 1], (some .x), 0, fA w == 0 && fB w == 0⟩
  | .vrndh => ⟨[.vec (fD w) 1], (some .x), 0, fA w == 0 && fB w == 0⟩
  | .vrndu => ⟨[.vec (fD w) 1], (some .x), 0, fA w == 0 && fB w == 0⟩
  | .vbin => ⟨[.vec (fD w) 1, .vin (fA w)], (some .x), 0, fB w == 0⟩
  | .vbout => ⟨[.vec (fD w) 1, .vout (fA w)], (some .x), 0, fB w == 0⟩
  | .vunb => ⟨[.vec (fD w) 1], (some .x), 0, fA w == 0 && fB w == 0⟩
  | .mtile => ⟨[.lit (fD w) 1, .lit (fA w) 1, .src (fB w)], (some .x), 0, w.extractLsb' 0 4 == 0⟩
  | .mrow => ⟨[.src (fD w), .vec (fA w) 1, .lit (fB w) 1], (some .x), 0, w.extractLsb' 2 2 == 0⟩
  | .maccf => ⟨[.vec (fD w) 1, .src (fA w)], (some .x), 0, fB w == 0⟩
  | .macc => ⟨[.vec (fD w) 1, .src (fA w)], (some .x), 0, fB w == 0⟩
  | .maccz => ⟨[.vec (fD w) 1, .src (fA w)], (some .x), 0, fB w == 0⟩
  | .mzero => ⟨[.src (fA w), .src (fB w)], (some .x), 0, fD w == 0 && w.extractLsb' 0 4 == 0⟩
  | .mstat => ⟨[.dst (fD w)], (some .x), 0, fA w == 0 && fB w == 0⟩
  | .mstatc => ⟨[.dst (fD w)], (some .x), 0, fA w == 0 && fB w == 0⟩
  | .rcopen => ⟨[.src (fA w)], (some .x), 0, fD w == 0 && fB w == 0⟩
  | .rcnoise => ⟨[.vec (fD w) 1], (some .x), 0, fA w == 0 && fB w == 0⟩
  | .rcscore => ⟨[.vec (fD w) 2, .vec (fA w) 2], (some .x), 0, fB w == 0 && pairsApart (fD w) (fA w)⟩
  | .rccut => ⟨[.pred (fD w), .vec (fA w) 2], (some .x), 0, fB w == 0⟩
  | .rcexact => ⟨[.pred (fD w), .vec (fA w) 2], (some .x), 0, fB w == 0⟩
  | .rcpost => ⟨[.src (fA w), .src (fB w)], (some .x), 0, fD w == 0⟩
  | .rcmerge => ⟨[.vec (fD w) 1], (some .x), 0, fA w == 0 && fB w == 0⟩
  | .rcbar => ⟨[.src (fA w)], (some .x), 0, fD w == 0 && fB w == 0⟩
  | .rcprob => ⟨[.gprs (fD w) 3], (some .x), 0, fA w == 0 && fB w == 0⟩
  | .rcget => ⟨[.dst (fD w), .lit (fB w) 15], (some .x), 0, fA w == 0⟩
  | .rcput => ⟨[.src (fA w), .lit (fB w) 15], (some .x), 0, fD w == 0⟩
  | .rcclose => ⟨[], (some .x), 0, fD w == 0 && fA w == 0 && fB w == 0⟩
  | .fnset => ⟨[.freg (fD w), .vec (fA w) 1, .src (fB w)], (some .x), 0, true⟩
  | .fnget => ⟨[.vec (fD w) 1, .freg (fA w)], (some .x), 0, fB w == 0⟩
  | .fnadd => ⟨[.freg (fD w), .freg (fA w), .freg (fB w)], (some .x), 0, true⟩
  | .fnmul => ⟨[.freg (fD w), .freg (fA w), .freg (fB w)], (some .x), 0, true⟩
  | .fncomp => ⟨[.freg (fD w), .freg (fA w), .freg (fB w)], (some .x), 0, true⟩
  | .fnint => ⟨[.freg (fD w), .freg (fA w)], (some .x), 0, fB w == 0⟩
  | .fndiff => ⟨[.freg (fD w), .freg (fA w)], (some .x), 0, fB w == 0⟩
  | .fneval => ⟨[.vec (fD w) 1, .freg (fA w), .vec (fB w) 1], (some .x), 0, true⟩
  | .fnroot => ⟨[.vec (fD w) 1, .freg (fA w), .gprs (fB w) 1], (some .x), 0, true⟩
  | .fntrunc => ⟨[.freg (fD w), .freg (fA w)], (some .x), 0, fB w == 0⟩
  | .fnfit => ⟨[.freg (fD w), .vec (fA w) 1, .src (fB w)], (some .x), 0, true⟩
  | .fnmono => ⟨[.freg (fD w)], (some .x), 0, fA w == 0 && fB w == 0⟩
  | .fninfo => ⟨[.dst (fD w), .freg (fA w)], (some .x), 0, fB w == 0⟩
  | .fnfree => ⟨[.freg (fD w)], (some .x), 0, fA w == 0 && fB w == 0⟩
  | .fnscal => ⟨[.freg (fD w), .freg (fA w), .src (fB w)], (some .x), 0, true⟩
  | .gmbox => ⟨[.vec (fD w) 1, .lit (fB w) 7], (some .x), 0, fA w == 0⟩
  | .vhold => ⟨[.vec (fD w) 1, .src (fA w)], (some .x), 0, fB w == 0⟩
  | .rstv => ⟨[.vec (fD w) 1, .src (fA w), .src (fB w)], (some .x), 0, true⟩
  | .rstvr => ⟨[.vec (fD w) 1, .src (fA w), .src (fB w)], (some .x), 0, true⟩
  | .gstat => ⟨[.dst (fD w)], (some .x), 0, fA w == 0 && fB w == 0⟩
  | .exit => ⟨[], none, 0, fD w == 0 && fA w == 0 && fB w == 0⟩
  | .eret => ⟨[], none, 1, fD w == 0 && fA w == 0 && fB w == 0⟩
  | .mfs => ⟨[.dst (fD w)], (if sysNo (fA w) (fB w) == 0x21 then some .x else none), (sysReadLevel (sysNo (fA w) (fB w))).getD 0, (sysReadLevel (sysNo (fA w) (fB w))).isSome⟩
  | .mts => ⟨[.src (fD w)], none, (sysWriteLevel (sysNo (fA w) (fB w))).getD 0, mtsOk (sysNo (fA w) (fB w))⟩
  | .mtsCause => ⟨[.src (fD w)], none, 1, true⟩
  | .mtsScopetab => ⟨[.src (fD w)], none, 1, true⟩
  | .mtsVbase => ⟨[.src (fD w)], (some .x), 0, true⟩
  | .mtsFmode => ⟨[.src (fD w)], none, 0, true⟩
  | .mtsLattol => ⟨[.src (fD w)], none, 2, true⟩
  | .ctxsave => ⟨[.areg (fA w), .src (fB w)], (some .a), 1, fD w == 0⟩
  | .ctxload => ⟨[.areg (fA w), .src (fB w)], (some .a), 1, fD w == 0⟩
  | .notify => ⟨[.src (fA w)], (some .a), 1, fD w == 0 && fB w == 0⟩
  | .preempt => ⟨[.src (fA w)], (some .a), 1, fD w == 0 && fB w == 0⟩
  | .resume => ⟨[.src (fA w)], (some .a), 1, fD w == 0 && fB w == 0⟩
  | .digchk => ⟨[.rw (fD w)], (some .a), 1, fA w == 0 && fB w == 0⟩
  | .halt => ⟨[], none, 2, fD w == 0 && fA w == 0 && fB w == 0⟩

/-- Step 3 of R101: every operand of its class, unused bits 0, literals and combinations within their ranges. -/
def Info.ok3 (i : Info) : Bool := i.ops.all Opnd.ok && i.ok

/-- Steps 1 to 3 of R101 on a word: whether it is an instruction. -/
def wordOk (w : Word) : Bool :=
  match opOf w with
  | some o => (opInfo w o).ok3
  | none => false

end Sys2Proof
end

