-- ==== Sys2Proof/Decode.lean ====
section
/-! DEFINITION. Decoding and encoding of the 32-bit instruction words (04_encoding, R94 to R114). A word decodes
when it passes steps 1 to 3 of R101, so every bit a row does not use must be zero (R98) and every reserved value is
refused (R102, R113). The encoder follows the decoder. The definitions that build an Instr are noncomputable for one
reason only: the compiler's object format has no tag for the 245th constructor with fields and those after it; the
kernel evaluates them. -/

namespace Sys2Proof

/-- The instruction an operation names, its fields read off the word (R94, R97). -/
noncomputable def opInstr (w : Word) : Op → Instr
  | .add => .add (fD w) (fA w) (fB w)
  | .sub => .sub (fD w) (fA w) (fB w)
  | .and => .and (fD w) (fA w) (fB w)
  | .or => .or (fD w) (fA w) (fB w)
  | .xor => .xor (fD w) (fA w) (fB w)
  | .shl => .shl (fD w) (fA w) (fB w)
  | .shr => .shr (fD w) (fA w) (fB w)
  | .sra => .sra (fD w) (fA w) (fB w)
  | .min => .min (fD w) (fA w) (fB w)
  | .max => .max (fD w) (fA w) (fB w)
  | .minu => .minu (fD w) (fA w) (fB w)
  | .maxu => .maxu (fD w) (fA w) (fB w)
  | .slt => .slt (fD w) (fA w) (fB w)
  | .sltu => .sltu (fD w) (fA w) (fB w)
  | .seq => .seq (fD w) (fA w) (fB w)
  | .sel => .sel (fD w) (fA w) (fB w)
  | .mul => .mul (fD w) (fA w) (fB w)
  | .mulh => .mulh (fD w) (fA w) (fB w)
  | .mulhu => .mulhu (fD w) (fA w) (fB w)
  | .div => .div (fD w) (fA w) (fB w)
  | .divu => .divu (fD w) (fA w) (fB w)
  | .rem => .rem (fD w) (fA w) (fB w)
  | .remu => .remu (fD w) (fA w) (fB w)
  | .clz => .clz (fD w) (fA w)
  | .ctz => .ctz (fD w) (fA w)
  | .popc => .popc (fD w) (fA w)
  | .sxb => .sxb (fD w) (fA w)
  | .sxh => .sxh (fD w) (fA w)
  | .sxw => .sxw (fD w) (fA w)
  | .addi => .addi (fD w) (fA w) (w.extractLsb' 0 11)
  | .andi => .andi (fD w) (fA w) (w.extractLsb' 0 11)
  | .ori => .ori (fD w) (fA w) (w.extractLsb' 0 11)
  | .xori => .xori (fD w) (fA w) (w.extractLsb' 0 11)
  | .shli => .shli (fD w) (fA w) (w.extractLsb' 0 6)
  | .shri => .shri (fD w) (fA w) (w.extractLsb' 0 6)
  | .srai => .srai (fD w) (fA w) (w.extractLsb' 0 6)
  | .slti => .slti (fD w) (fA w) (w.extractLsb' 0 11)
  | .li => .li (fD w) (w.extractLsb' 0 18)
  | .lsh => .lsh (fD w) (w.extractLsb' 0 18)
  | .sfadd => .sfadd (fD w) (fA w) (fB w)
  | .sfsub => .sfsub (fD w) (fA w) (fB w)
  | .sfmul => .sfmul (fD w) (fA w) (fB w)
  | .sfdiv => .sfdiv (fD w) (fA w) (fB w)
  | .sfsqrt => .sfsqrt (fD w) (fA w)
  | .sfmin => .sfmin (fD w) (fA w) (fB w)
  | .sfmax => .sfmax (fD w) (fA w) (fB w)
  | .sfma => .sfma (fD w) (fA w) (fB w)
  | .sfeq => .sfeq (fD w) (fA w) (fB w)
  | .sflt => .sflt (fD w) (fA w) (fB w)
  | .sfle => .sfle (fD w) (fA w) (fB w)
  | .scvdl => .scvdl (fD w) (fA w)
  | .scvld => .scvld (fD w) (fA w)
  | .scvdf => .scvdf (fD w) (fA w)
  | .scvfd => .scvfd (fD w) (fA w)
  | .scvdh => .scvdh (fD w) (fA w)
  | .scvhd => .scvhd (fD w) (fA w)
  | .scvdb => .scvdb (fD w) (fA w)
  | .scvbd => .scvbd (fD w) (fA w)
  | .b => .b (w.extractLsb' 0 18)
  | .bz => .bz (fD w) (w.extractLsb' 0 18)
  | .bnz => .bnz (fD w) (w.extractLsb' 0 18)
  | .bltz => .bltz (fD w) (w.extractLsb' 0 18)
  | .bgez => .bgez (fD w) (w.extractLsb' 0 18)
  | .call => .call (w.extractLsb' 0 18)
  | .ret => .ret
  | .jr => .jr (fA w)
  | .bq => .bq (fD w) (w.extractLsb' 0 18)
  | .bany => .bany (fD w) (w.extractLsb' 0 18)
  | .bnone => .bnone (fD w) (w.extractLsb' 0 18)
  | .smb => .smb (fD w) (w.extractLsb' 15 3) (w.extractLsb' 11 4) (w.extractLsb' 0 11)
  | .bend => .bend (fD w) (w.extractLsb' 0 18)
  | .nop => .nop
  | .yield => .yield
  | .trap => .trap (w.extractLsb' 0 25)
  | .vlget => .vlget (fD w) (fA w) (w.extractLsb' 4 1) (w.extractLsb' 0 4)
  | .vloop => .vloop (fD w) (fA w) (w.extractLsb' 5 1) (w.extractLsb' 4 1) (w.extractLsb' 0 4)
  | .stair => .stair (fD w) (fA w) (w.extractLsb' 3 6) (w.extractLsb' 0 3)
  | .stflg => .stflg (fA w) (w.extractLsb' 6 1) (w.extractLsb' 0 6)
  | .ststep => .ststep (fD w) (fA w) (fB w) (w.extractLsb' 0 4)
  | .wbase => .wbase (w.extractLsb' 0 6)
  | .fmode => .fmode (w.extractLsb' 0 7)
  | .scope => .scope (w.extractLsb' 0 5)
  | .vmask => .vmask (w.extractLsb' 0 7)
  | .ldb => .ldb (fD w) (fA w) (w.extractLsb' 0 11)
  | .ldh => .ldh (fD w) (fA w) (w.extractLsb' 0 11)
  | .ldw => .ldw (fD w) (fA w) (w.extractLsb' 0 11)
  | .ldd => .ldd (fD w) (fA w) (w.extractLsb' 0 11)
  | .stb => .stb (fD w) (fA w) (w.extractLsb' 0 11)
  | .sth => .sth (fD w) (fA w) (w.extractLsb' 0 11)
  | .stw => .stw (fD w) (fA w) (w.extractLsb' 0 11)
  | .std => .std (fD w) (fA w) (w.extractLsb' 0 11)
  | .aset => .aset (fD w) (fA w)
  | .aget => .aget (fD w) (fA w)
  | .astr => .astr (fD w) (fA w)
  | .aadd => .aadd (fD w) (fA w)
  | .agstr => .agstr (fD w) (fA w)
  | .lds => .lds (fD w) (fA w) (w.extractLsb' 2 2) (w.extractLsb' 0 2)
  | .sts => .sts (fD w) (fA w) (w.extractLsb' 2 2) (w.extractLsb' 0 2)
  | .amoAdd => .amoAdd (fD w) (fA w) (fB w)
  | .amoAnd => .amoAnd (fD w) (fA w) (fB w)
  | .amoOr => .amoOr (fD w) (fA w) (fB w)
  | .amoXor => .amoXor (fD w) (fA w) (fB w)
  | .amoMin => .amoMin (fD w) (fA w) (fB w)
  | .amoMax => .amoMax (fD w) (fA w) (fB w)
  | .amoMinu => .amoMinu (fD w) (fA w) (fB w)
  | .amoMaxu => .amoMaxu (fD w) (fA w) (fB w)
  | .amoSwap => .amoSwap (fD w) (fA w) (fB w)
  | .amoFadd32 => .amoFadd32 (fD w) (fA w) (fB w)
  | .amoFadd64 => .amoFadd64 (fD w) (fA w) (fB w)
  | .amoaAdd => .amoaAdd (fD w) (fA w) (fB w)
  | .amoaAnd => .amoaAnd (fD w) (fA w) (fB w)
  | .amoaOr => .amoaOr (fD w) (fA w) (fB w)
  | .amoaXor => .amoaXor (fD w) (fA w) (fB w)
  | .amoaMin => .amoaMin (fD w) (fA w) (fB w)
  | .amoaMax => .amoaMax (fD w) (fA w) (fB w)
  | .amoaMinu => .amoaMinu (fD w) (fA w) (fB w)
  | .amoaMaxu => .amoaMaxu (fD w) (fA w) (fB w)
  | .amoaSwap => .amoaSwap (fD w) (fA w) (fB w)
  | .amoaFadd32 => .amoaFadd32 (fD w) (fA w) (fB w)
  | .amoaFadd64 => .amoaFadd64 (fD w) (fA w) (fB w)
  | .amolAdd => .amolAdd (fD w) (fA w) (fB w)
  | .amolAnd => .amolAnd (fD w) (fA w) (fB w)
  | .amolOr => .amolOr (fD w) (fA w) (fB w)
  | .amolXor => .amolXor (fD w) (fA w) (fB w)
  | .amolMin => .amolMin (fD w) (fA w) (fB w)
  | .amolMax => .amolMax (fD w) (fA w) (fB w)
  | .amolMinu => .amolMinu (fD w) (fA w) (fB w)
  | .amolMaxu => .amolMaxu (fD w) (fA w) (fB w)
  | .amolSwap => .amolSwap (fD w) (fA w) (fB w)
  | .amolFadd32 => .amolFadd32 (fD w) (fA w) (fB w)
  | .amolFadd64 => .amolFadd64 (fD w) (fA w) (fB w)
  | .amoxAdd => .amoxAdd (fD w) (fA w) (fB w)
  | .amoxAnd => .amoxAnd (fD w) (fA w) (fB w)
  | .amoxOr => .amoxOr (fD w) (fA w) (fB w)
  | .amoxXor => .amoxXor (fD w) (fA w) (fB w)
  | .amoxMin => .amoxMin (fD w) (fA w) (fB w)
  | .amoxMax => .amoxMax (fD w) (fA w) (fB w)
  | .amoxMinu => .amoxMinu (fD w) (fA w) (fB w)
  | .amoxMaxu => .amoxMaxu (fD w) (fA w) (fB w)
  | .amoxSwap => .amoxSwap (fD w) (fA w) (fB w)
  | .amoxFadd32 => .amoxFadd32 (fD w) (fA w) (fB w)
  | .amoxFadd64 => .amoxFadd64 (fD w) (fA w) (fB w)
  | .cas => .cas (fD w) (fA w) (fB w) (w.extractLsb' 2 2) (w.extractLsb' 0 2)
  | .fence => .fence (w.extractLsb' 2 1) (w.extractLsb' 0 2)
  | .waita => .waita (fD w) (fA w) (w.extractLsb' 3 1) (w.extractLsb' 0 2)
  | .barr => .barr (fD w) (fA w) (fB w)
  | .barrt => .barrt (fD w) (fA w) (fB w)
  | .binit => .binit (fD w) (fA w) (fB w)
  | .bdiss => .bdiss (fD w) (fA w)
  | .bwait => .bwait (fD w) (fA w) (fB w)
  | .vwait => .vwait (fD w) (fA w) (fB w)
  | .qdrain => .qdrain (fA w)
  | .qcnt => .qcnt (fD w) (fA w)
  | .sload => .sload (fD w) (fA w)
  | .sloadSlice => .sloadSlice (fD w) (fA w) (fB w)
  | .sloadTrim => .sloadTrim (fD w) (fA w)
  | .sstore => .sstore (fD w) (fA w)
  | .sstoreSlice => .sstoreSlice (fD w) (fA w) (fB w)
  | .sstoreTrim => .sstoreTrim (fD w) (fA w)
  | .sgath => .sgath (fD w) (fA w) (fB w) (w.extractLsb' 0 3)
  | .sgathc => .sgathc (fD w) (fA w) (fB w) (w.extractLsb' 0 3)
  | .sscat => .sscat (fD w) (fA w) (fB w) (w.extractLsb' 0 3)
  | .sscatc => .sscatc (fD w) (fA w) (fB w) (w.extractLsb' 0 3)
  | .cpy => .cpy (fA w)
  | .cpyq => .cpyq (fD w) (fA w)
  | .tidset => .tidset (fD w) (fA w)
  | .svmap => .svmap (fD w) (fA w)
  | .svg1 => .svg1 (fD w) (fA w)
  | .svg2 => .svg2 (fD w) (fA w)
  | .svph => .svph (fD w) (fA w)
  | .svswp => .svswp (fD w) (fA w)
  | .svrun => .svrun (fD w) (fA w)
  | .svprob => .svprob (fD w) (fA w)
  | .launch => .launch (fD w) (fA w) (fB w)
  | .join => .join (fD w) (fA w)
  | .leave => .leave (fD w) (fA w)
  | .gname => .gname (fD w) (fA w)
  | .gdrop => .gdrop (fD w) (fA w)
  | .ginfo => .ginfo (fD w) (fA w)
  | .gmove => .gmove (fD w) (fA w) (fB w)
  | .vadd => .vadd (fD w) (fA w) (fB w) (w.extractLsb' 3 1)
  | .vsub => .vsub (fD w) (fA w) (fB w) (w.extractLsb' 3 1)
  | .vmul => .vmul (fD w) (fA w) (fB w) (w.extractLsb' 3 1)
  | .vmulh => .vmulh (fD w) (fA w) (fB w) (w.extractLsb' 3 1)
  | .vmin => .vmin (fD w) (fA w) (fB w) (w.extractLsb' 3 1)
  | .vmax => .vmax (fD w) (fA w) (fB w) (w.extractLsb' 3 1)
  | .vadds => .vadds (fD w) (fA w) (fB w) (w.extractLsb' 3 1)
  | .vsubs => .vsubs (fD w) (fA w) (fB w) (w.extractLsb' 3 1)
  | .vand => .vand (fD w) (fA w) (fB w) (w.extractLsb' 3 1)
  | .vor => .vor (fD w) (fA w) (fB w) (w.extractLsb' 3 1)
  | .vxor => .vxor (fD w) (fA w) (fB w) (w.extractLsb' 3 1)
  | .vshl => .vshl (fD w) (fA w) (fB w) (w.extractLsb' 3 1)
  | .vshr => .vshr (fD w) (fA w) (fB w) (w.extractLsb' 3 1)
  | .vsra => .vsra (fD w) (fA w) (fB w) (w.extractLsb' 3 1)
  | .vandn => .vandn (fD w) (fA w) (fB w) (w.extractLsb' 3 1)
  | .vfadd => .vfadd (fD w) (fA w) (fB w) (w.extractLsb' 3 1)
  | .vfsub => .vfsub (fD w) (fA w) (fB w) (w.extractLsb' 3 1)
  | .vfmul => .vfmul (fD w) (fA w) (fB w) (w.extractLsb' 3 1)
  | .vfdiv => .vfdiv (fD w) (fA w) (fB w) (w.extractLsb' 3 1)
  | .vfmin => .vfmin (fD w) (fA w) (fB w) (w.extractLsb' 3 1)
  | .vfmax => .vfmax (fD w) (fA w) (fB w) (w.extractLsb' 3 1)
  | .vfma => .vfma (fD w) (fA w) (fB w) (w.extractLsb' 3 1)
  | .vfms => .vfms (fD w) (fA w) (fB w) (w.extractLsb' 3 1)
  | .vfsqrt => .vfsqrt (fD w) (fA w) (w.extractLsb' 3 1)
  | .vfrsq => .vfrsq (fD w) (fA w) (w.extractLsb' 3 1)
  | .vlog2 => .vlog2 (fD w) (fA w) (w.extractLsb' 3 1)
  | .vexp2 => .vexp2 (fD w) (fA w) (w.extractLsb' 3 1)
  | .vfabs => .vfabs (fD w) (fA w) (w.extractLsb' 3 1)
  | .vfneg => .vfneg (fD w) (fA w) (w.extractLsb' 3 1)
  | .vfclass => .vfclass (fD w) (fA w) (w.extractLsb' 3 1)
  | .vfrint => .vfrint (fD w) (fA w) (w.extractLsb' 3 1)
  | .vcmp => .vcmp (fD w) (fA w) (fB w) (w.extractLsb' 3 1) (w.extractLsb' 0 3)
  | .vcmpx => .vcmpx (fD w) (fA w) (fB w) (w.extractLsb' 3 1) (w.extractLsb' 0 3)
  | .pand => .pand (fD w) (fA w) (fB w)
  | .por => .por (fD w) (fA w) (fB w)
  | .pxor => .pxor (fD w) (fA w) (fB w)
  | .pandn => .pandn (fD w) (fA w) (fB w)
  | .pnot => .pnot (fD w) (fA w)
  | .pmov => .pmov (fD w) (fA w)
  | .pset => .pset (fD w)
  | .pclr => .pclr (fD w)
  | .pcnt => .pcnt (fD w) (fA w)
  | .pcntt => .pcntt (fD w) (fA w)
  | .ppop => .ppop (fD w) (fA w)
  | .pfirst => .pfirst (fD w) (fA w)
  | .plast => .plast (fD w) (fA w)
  | .vcvfh => .vcvfh (fD w) (fA w)
  | .vcvfb => .vcvfb (fD w) (fA w)
  | .vcvfe4 => .vcvfe4 (fD w) (fA w)
  | .vcvfe5 => .vcvfe5 (fD w) (fA w)
  | .vcvhf => .vcvhf (fD w) (fA w)
  | .vcvbf => .vcvbf (fD w) (fA w)
  | .vcve4f => .vcve4f (fD w) (fA w)
  | .vcve5f => .vcve5f (fD w) (fA w)
  | .vcvfi => .vcvfi (fD w) (fA w)
  | .vcvif => .vcvif (fD w) (fA w)
  | .vcvdf => .vcvdf (fD w) (fA w)
  | .vcvfd => .vcvfd (fD w) (fA w)
  | .vcvin => .vcvin (fD w) (fA w)
  | .vcvci => .vcvci (fD w) (fA w)
  | .vcvic => .vcvic (fD w) (fA w)
  | .vcvfc => .vcvfc (fD w) (fA w)
  | .vdeq => .vdeq (fD w) (fA w) (fB w) (w.extractLsb' 3 1)
  | .vqnt => .vqnt (fD w) (fA w) (fB w) (w.extractLsb' 3 1)
  | .vperm => .vperm (fD w) (fA w) (fB w) (w.extractLsb' 3 1)
  | .vslup => .vslup (fD w) (fA w) (fB w) (w.extractLsb' 3 1)
  | .vsldn => .vsldn (fD w) (fA w) (fB w) (w.extractLsb' 3 1)
  | .vcomp => .vcomp (fD w) (fA w) (w.extractLsb' 3 1)
  | .vexpd => .vexpd (fD w) (fA w) (w.extractLsb' 3 1)
  | .vzip => .vzip (fD w) (fA w) (fB w) (w.extractLsb' 3 1)
  | .vuzp => .vuzp (fD w) (fA w) (fB w) (w.extractLsb' 3 1)
  | .vrev => .vrev (fD w) (fA w) (w.extractLsb' 3 1)
  | .vmov => .vmov (fD w) (fA w) (w.extractLsb' 3 1)
  | .vsplat => .vsplat (fD w) (fA w) (w.extractLsb' 3 1)
  | .vext => .vext (fD w) (fA w) (fB w)
  | .vins => .vins (fD w) (fA w) (fB w)
  | .viota => .viota (fD w) (w.extractLsb' 3 1)
  | .vmerge => .vmerge (fD w) (fA w) (fB w)
  | .vfmsk => .vfmsk (fD w)
  | .vclrf => .vclrf
  | .vrsum => .vrsum (fD w) (fA w) (w.extractLsb' 3 1)
  | .vfsum => .vfsum (fA w) (w.extractLsb' 3 1)
  | .vrmin => .vrmin (fD w) (fA w) (w.extractLsb' 3 1)
  | .vrmax => .vrmax (fD w) (fA w) (w.extractLsb' 3 1)
  | .vrand => .vrand (fD w) (fA w) (w.extractLsb' 3 1)
  | .vror => .vror (fD w) (fA w) (w.extractLsb' 3 1)
  | .vrxor => .vrxor (fD w) (fA w) (w.extractLsb' 3 1)
  | .vtree => .vtree (fD w)
  | .vargmax => .vargmax (fD w) (fA w) (w.extractLsb' 3 1)
  | .vargmin => .vargmin (fD w) (fA w) (w.extractLsb' 3 1)
  | .vargmaxc => .vargmaxc (fD w) (fA w) (w.extractLsb' 3 1)
  | .vscan => .vscan (fD w) (fA w) (w.extractLsb' 3 1)
  | .vscanx => .vscanx (fD w) (fA w) (w.extractLsb' 3 1)
  | .vfscan => .vfscan (fD w) (fA w) (w.extractLsb' 3 1)
  | .vmscan => .vmscan (fD w) (fA w) (w.extractLsb' 3 1)
  | .vsegrAdd => .vsegrAdd (fD w) (fA w) (w.extractLsb' 3 1)
  | .vsegrMin => .vsegrMin (fD w) (fA w) (w.extractLsb' 3 1)
  | .vsegrMax => .vsegrMax (fD w) (fA w) (w.extractLsb' 3 1)
  | .vsegrAnd => .vsegrAnd (fD w) (fA w) (w.extractLsb' 3 1)
  | .vsegrOr => .vsegrOr (fD w) (fA w) (w.extractLsb' 3 1)
  | .vsegrFadd => .vsegrFadd (fD w) (fA w) (w.extractLsb' 3 1)
  | .vsegrFmin => .vsegrFmin (fD w) (fA w) (w.extractLsb' 3 1)
  | .vsegrFmax => .vsegrFmax (fD w) (fA w) (w.extractLsb' 3 1)
  | .vrndl => .vrndl (fD w) (w.extractLsb' 3 1)
  | .vrndh => .vrndh (fD w) (w.extractLsb' 3 1)
  | .vrndu => .vrndu (fD w) (w.extractLsb' 3 1)
  | .vbin => .vbin (fD w) (fA w)
  | .vbout => .vbout (fD w) (fA w)
  | .vunb => .vunb (fD w)
  | .mtile => .mtile (fD w) (fA w) (fB w)
  | .mrow => .mrow (fD w) (fA w) (fB w) (w.extractLsb' 1 1) (w.extractLsb' 0 1)
  | .maccf => .maccf (fD w) (fA w)
  | .macc => .macc (fD w) (fA w)
  | .maccz => .maccz (fD w) (fA w)
  | .mzero => .mzero (fA w) (fB w)
  | .mstat => .mstat (fD w)
  | .mstatc => .mstatc (fD w)
  | .rcopen => .rcopen (fA w)
  | .rcnoise => .rcnoise (fD w)
  | .rcscore => .rcscore (fD w) (fA w)
  | .rccut => .rccut (fD w) (fA w)
  | .rcexact => .rcexact (fD w) (fA w)
  | .rcpost => .rcpost (fA w) (fB w)
  | .rcmerge => .rcmerge (fD w)
  | .rcbar => .rcbar (fA w)
  | .rcprob => .rcprob (fD w)
  | .rcget => .rcget (fD w) (fB w)
  | .rcput => .rcput (fA w) (fB w)
  | .rcclose => .rcclose
  | .fnset => .fnset (fD w) (fA w) (fB w)
  | .fnget => .fnget (fD w) (fA w)
  | .fnadd => .fnadd (fD w) (fA w) (fB w)
  | .fnmul => .fnmul (fD w) (fA w) (fB w)
  | .fncomp => .fncomp (fD w) (fA w) (fB w)
  | .fnint => .fnint (fD w) (fA w)
  | .fndiff => .fndiff (fD w) (fA w)
  | .fneval => .fneval (fD w) (fA w) (fB w)
  | .fnroot => .fnroot (fD w) (fA w) (fB w)
  | .fntrunc => .fntrunc (fD w) (fA w)
  | .fnfit => .fnfit (fD w) (fA w) (fB w)
  | .fnmono => .fnmono (fD w)
  | .fninfo => .fninfo (fD w) (fA w)
  | .fnfree => .fnfree (fD w)
  | .fnscal => .fnscal (fD w) (fA w) (fB w)
  | .gmbox => .gmbox (fD w) (fB w)
  | .vhold => .vhold (fD w) (fA w)
  | .rstv => .rstv (fD w) (fA w) (fB w)
  | .rstvr => .rstvr (fD w) (fA w) (fB w)
  | .gstat => .gstat (fD w)
  | .exit => .exit
  | .eret => .eret
  | .mfs => .mfs (fD w) (fA w) (fB w)
  | .mts => .mts (fD w) (fA w) (fB w)
  | .mtsCause => .mtsCause (fD w)
  | .mtsScopetab => .mtsScopetab (fD w)
  | .mtsVbase => .mtsVbase (fD w)
  | .mtsFmode => .mtsFmode (fD w)
  | .mtsLattol => .mtsLattol (fD w)
  | .ctxsave => .ctxsave (fA w) (fB w)
  | .ctxload => .ctxload (fA w) (fB w)
  | .notify => .notify (fA w)
  | .preempt => .preempt (fA w)
  | .resume => .resume (fA w)
  | .digchk => .digchk (fD w)
  | .halt => .halt

/-- Decoding: total on every word, none where the word takes ILL at steps 1 to 3 of R101. -/
noncomputable def decode (w : Word) : Option Instr :=
  match opOf w with
  | some o => if (opInfo w o).ok3 then some (opInstr w o) else none
  | none => none

/-- Decoding of the first four bytes of a list (R94, little-endian per R7), with the bytes that follow. -/
noncomputable def decodeBytes : Bytes → Option (Instr × Bytes)
  | b0 :: b1 :: b2 :: b3 :: rest =>
    match decode (b3 ++ b2 ++ b1 ++ b0) with
    | some i => some (i, rest)
    | none => none
  | _ => none

/-- The four bytes of an instruction word as the hardware stores them, lowest address first (R7, R94). -/
def wordBytes (w : Word) : Bytes :=
  [w.extractLsb' 0 8, w.extractLsb' 8 8, w.extractLsb' 16 8, w.extractLsb' 24 8]

/-- The instruction the decoder reads from a row's bits. Every instruction is one word; a row without an encoding
has no bits and decodes to nothing. -/
noncomputable def decodeTableWord (nbits w : Nat) : Option Instr :=
  if nbits == 0 then none
  else
    match decodeBytes (wordBytes (BitVec.ofNat 32 (w % 2 ^ nbits))) with
    | some (i, _) => some i
    | none => none

/-- The word of an instruction (R94, R104 to R112); an event of the device has none and gives 0, which is no instruction (R102). -/
def encode : Instr → Word
  | .add d a b => fmtR 1#7 d a b 0#4
  | .sub d a b => fmtR 1#7 d a b 1#4
  | .and d a b => fmtR 1#7 d a b 2#4
  | .or d a b => fmtR 1#7 d a b 3#4
  | .xor d a b => fmtR 1#7 d a b 4#4
  | .shl d a b => fmtR 1#7 d a b 5#4
  | .shr d a b => fmtR 1#7 d a b 6#4
  | .sra d a b => fmtR 1#7 d a b 7#4
  | .min d a b => fmtR 1#7 d a b 8#4
  | .max d a b => fmtR 1#7 d a b 9#4
  | .minu d a b => fmtR 1#7 d a b 0xa#4
  | .maxu d a b => fmtR 1#7 d a b 0xb#4
  | .slt d a b => fmtR 1#7 d a b 0xc#4
  | .sltu d a b => fmtR 1#7 d a b 0xd#4
  | .seq d a b => fmtR 1#7 d a b 0xe#4
  | .sel d a b => fmtR 1#7 d a b 0xf#4
  | .mul d a b => fmtR 2#7 d a b 0#4
  | .mulh d a b => fmtR 2#7 d a b 1#4
  | .mulhu d a b => fmtR 2#7 d a b 2#4
  | .div d a b => fmtR 2#7 d a b 3#4
  | .divu d a b => fmtR 2#7 d a b 4#4
  | .rem d a b => fmtR 2#7 d a b 5#4
  | .remu d a b => fmtR 2#7 d a b 6#4
  | .clz d a => fmtR 2#7 d a 0#7 7#4
  | .ctz d a => fmtR 2#7 d a 0#7 8#4
  | .popc d a => fmtR 2#7 d a 0#7 9#4
  | .sxb d a => fmtR 2#7 d a 0#7 0xa#4
  | .sxh d a => fmtR 2#7 d a 0#7 0xb#4
  | .sxw d a => fmtR 2#7 d a 0#7 0xc#4
  | .addi d a i => fmtI 3#7 d a i
  | .andi d a i => fmtI 4#7 d a i
  | .ori d a i => fmtI 5#7 d a i
  | .xori d a i => fmtI 6#7 d a i
  | .shli d a i => fmtI 7#7 d a (0#5 ++ i)
  | .shri d a i => fmtI 8#7 d a (0#5 ++ i)
  | .srai d a i => fmtI 9#7 d a (0#5 ++ i)
  | .slti d a i => fmtI 0xa#7 d a i
  | .li d i => fmtL 0xb#7 d i
  | .lsh d i => fmtL 0xc#7 d i
  | .sfadd d a b => fmtR 0xd#7 d a b 0#4
  | .sfsub d a b => fmtR 0xd#7 d a b 1#4
  | .sfmul d a b => fmtR 0xd#7 d a b 2#4
  | .sfdiv d a b => fmtR 0xd#7 d a b 3#4
  | .sfsqrt d a => fmtR 0xd#7 d a 0#7 4#4
  | .sfmin d a b => fmtR 0xd#7 d a b 5#4
  | .sfmax d a b => fmtR 0xd#7 d a b 6#4
  | .sfma d a b => fmtR 0xd#7 d a b 7#4
  | .sfeq d a b => fmtR 0xd#7 d a b 8#4
  | .sflt d a b => fmtR 0xd#7 d a b 9#4
  | .sfle d a b => fmtR 0xd#7 d a b 0xa#4
  | .scvdl d a => fmtR 0xe#7 d a 0#7 0#4
  | .scvld d a => fmtR 0xe#7 d a 0#7 1#4
  | .scvdf d a => fmtR 0xe#7 d a 0#7 2#4
  | .scvfd d a => fmtR 0xe#7 d a 0#7 3#4
  | .scvdh d a => fmtR 0xe#7 d a 0#7 4#4
  | .scvhd d a => fmtR 0xe#7 d a 0#7 5#4
  | .scvdb d a => fmtR 0xe#7 d a 0#7 6#4
  | .scvbd d a => fmtR 0xe#7 d a 0#7 7#4
  | .b o => fmtL 0x10#7 0#7 o
  | .bz c o => fmtL 0x11#7 c o
  | .bnz c o => fmtL 0x12#7 c o
  | .bltz c o => fmtL 0x13#7 c o
  | .bgez c o => fmtL 0x14#7 c o
  | .call o => fmtL 0x15#7 0#7 o
  | .ret => fmtN 0x16#7 0#25
  | .jr a => fmtR 0x17#7 0#7 a 0#7 0#4
  | .bq c o => fmtL 0x18#7 c o
  | .bany c o => fmtL 0x19#7 c o
  | .bnone c o => fmtL 0x1a#7 c o
  | .smb d k m o => fmtI 0x1b#7 d (k ++ m) o
  | .bend c o => fmtL 0x1c#7 c o
  | .nop => fmtN 0x1d#7 0#25
  | .yield => fmtN 0x1e#7 0#25
  | .trap c => fmtN 0x1f#7 c
  | .vlget d a k t => fmtI 0x20#7 d a (0#6 ++ k ++ t)
  | .vloop d a j k t => fmtI 0x21#7 d a (0#5 ++ j ++ k ++ t)
  | .stair d a l f => fmtI 0x22#7 d a (0#2 ++ l ++ f)
  | .stflg a k f => fmtI 0x23#7 0#7 a (0#4 ++ k ++ f)
  | .ststep d a b m => fmtR 0x24#7 d a b m
  | .wbase w => fmtI 0x25#7 0#7 0#7 (0#5 ++ w)
  | .fmode m => fmtI 0x26#7 0#7 0#7 (0#4 ++ m)
  | .scope i => fmtI 0x27#7 0#7 0#7 (0#6 ++ i)
  | .vmask p => fmtI 0x28#7 0#7 0#7 (0#4 ++ p)
  | .ldb d a i => fmtI 0x29#7 d a i
  | .ldh d a i => fmtI 0x2a#7 d a i
  | .ldw d a i => fmtI 0x2b#7 d a i
  | .ldd d a i => fmtI 0x2c#7 d a i
  | .stb d a i => fmtI 0x2d#7 d a i
  | .sth d a i => fmtI 0x2e#7 d a i
  | .stw d a i => fmtI 0x2f#7 d a i
  | .std d a i => fmtI 0x30#7 d a i
  | .aset d a => fmtR 0x31#7 d a 0#7 0#4
  | .aget d a => fmtR 0x31#7 d a 0#7 1#4
  | .astr d a => fmtR 0x31#7 d a 0#7 2#4
  | .aadd d a => fmtR 0x31#7 d a 0#7 3#4
  | .agstr d a => fmtR 0x31#7 d a 0#7 4#4
  | .lds d a o w => fmtR 0x32#7 d a 0#7 (o ++ w)
  | .sts d a o w => fmtR 0x33#7 d a 0#7 (o ++ w)
  | .amoAdd d a b => fmtR 0x34#7 d a b 0#4
  | .amoAnd d a b => fmtR 0x34#7 d a b 1#4
  | .amoOr d a b => fmtR 0x34#7 d a b 2#4
  | .amoXor d a b => fmtR 0x34#7 d a b 3#4
  | .amoMin d a b => fmtR 0x34#7 d a b 4#4
  | .amoMax d a b => fmtR 0x34#7 d a b 5#4
  | .amoMinu d a b => fmtR 0x34#7 d a b 6#4
  | .amoMaxu d a b => fmtR 0x34#7 d a b 7#4
  | .amoSwap d a b => fmtR 0x34#7 d a b 8#4
  | .amoFadd32 d a b => fmtR 0x34#7 d a b 9#4
  | .amoFadd64 d a b => fmtR 0x34#7 d a b 0xa#4
  | .amoaAdd d a b => fmtR 0x35#7 d a b 0#4
  | .amoaAnd d a b => fmtR 0x35#7 d a b 1#4
  | .amoaOr d a b => fmtR 0x35#7 d a b 2#4
  | .amoaXor d a b => fmtR 0x35#7 d a b 3#4
  | .amoaMin d a b => fmtR 0x35#7 d a b 4#4
  | .amoaMax d a b => fmtR 0x35#7 d a b 5#4
  | .amoaMinu d a b => fmtR 0x35#7 d a b 6#4
  | .amoaMaxu d a b => fmtR 0x35#7 d a b 7#4
  | .amoaSwap d a b => fmtR 0x35#7 d a b 8#4
  | .amoaFadd32 d a b => fmtR 0x35#7 d a b 9#4
  | .amoaFadd64 d a b => fmtR 0x35#7 d a b 0xa#4
  | .amolAdd d a b => fmtR 0x36#7 d a b 0#4
  | .amolAnd d a b => fmtR 0x36#7 d a b 1#4
  | .amolOr d a b => fmtR 0x36#7 d a b 2#4
  | .amolXor d a b => fmtR 0x36#7 d a b 3#4
  | .amolMin d a b => fmtR 0x36#7 d a b 4#4
  | .amolMax d a b => fmtR 0x36#7 d a b 5#4
  | .amolMinu d a b => fmtR 0x36#7 d a b 6#4
  | .amolMaxu d a b => fmtR 0x36#7 d a b 7#4
  | .amolSwap d a b => fmtR 0x36#7 d a b 8#4
  | .amolFadd32 d a b => fmtR 0x36#7 d a b 9#4
  | .amolFadd64 d a b => fmtR 0x36#7 d a b 0xa#4
  | .amoxAdd d a b => fmtR 0x37#7 d a b 0#4
  | .amoxAnd d a b => fmtR 0x37#7 d a b 1#4
  | .amoxOr d a b => fmtR 0x37#7 d a b 2#4
  | .amoxXor d a b => fmtR 0x37#7 d a b 3#4
  | .amoxMin d a b => fmtR 0x37#7 d a b 4#4
  | .amoxMax d a b => fmtR 0x37#7 d a b 5#4
  | .amoxMinu d a b => fmtR 0x37#7 d a b 6#4
  | .amoxMaxu d a b => fmtR 0x37#7 d a b 7#4
  | .amoxSwap d a b => fmtR 0x37#7 d a b 8#4
  | .amoxFadd32 d a b => fmtR 0x37#7 d a b 9#4
  | .amoxFadd64 d a b => fmtR 0x37#7 d a b 0xa#4
  | .cas d a b w o => fmtR 0x38#7 d a b (w ++ o)
  | .fence e k => fmtI 0x39#7 0#7 0#7 (0#8 ++ e ++ k)
  | .waita d a w c => fmtR 0x3a#7 d a 0#7 (w ++ 0#1 ++ c)
  | .barr d a b => fmtR 0x3b#7 d a b 0#4
  | .barrt d a b => fmtR 0x3b#7 d a b 1#4
  | .binit d a b => fmtR 0x3b#7 d a b 2#4
  | .bdiss d a => fmtR 0x3b#7 d a 0#7 3#4
  | .bwait d a b => fmtR 0x3c#7 d a b 0#4
  | .vwait d a b => fmtR 0x3d#7 d a b 0#4
  | .qdrain a => fmtR 0x3e#7 0#7 a 0#7 0#4
  | .qcnt d a => fmtR 0x3f#7 d a 0#7 0#4
  | .sload d a => fmtR 0x40#7 d a 0#7 0#4
  | .sloadSlice d a b => fmtR 0x40#7 d a b 1#4
  | .sloadTrim d a => fmtR 0x40#7 d a 0#7 2#4
  | .sstore d a => fmtR 0x41#7 d a 0#7 0#4
  | .sstoreSlice d a b => fmtR 0x41#7 d a b 1#4
  | .sstoreTrim d a => fmtR 0x41#7 d a 0#7 2#4
  | .sgath d a b w => fmtR 0x42#7 d a b (0#1 ++ w)
  | .sgathc d a b w => fmtR 0x42#7 d a b (1#1 ++ w)
  | .sscat d a b w => fmtR 0x43#7 d a b (0#1 ++ w)
  | .sscatc d a b w => fmtR 0x43#7 d a b (1#1 ++ w)
  | .cpy a => fmtR 0x44#7 0#7 a 0#7 0#4
  | .cpyq d a => fmtR 0x44#7 d a 0#7 1#4
  | .tidset d a => fmtR 0x45#7 d a 0#7 0#4
  | .svmap d a => fmtR 0x46#7 d a 0#7 0#4
  | .svg1 d a => fmtR 0x46#7 d a 0#7 1#4
  | .svg2 d a => fmtR 0x46#7 d a 0#7 2#4
  | .svph d a => fmtR 0x46#7 d a 0#7 3#4
  | .svswp d a => fmtR 0x46#7 d a 0#7 4#4
  | .svrun d a => fmtR 0x46#7 d a 0#7 5#4
  | .svprob d a => fmtR 0x46#7 d a 0#7 6#4
  | .launch d a b => fmtR 0x47#7 d a b 0#4
  | .join d a => fmtR 0x48#7 d a 0#7 0#4
  | .leave d a => fmtR 0x48#7 d a 0#7 1#4
  | .gname d a => fmtR 0x48#7 d a 0#7 2#4
  | .gdrop d a => fmtR 0x48#7 d a 0#7 3#4
  | .ginfo d a => fmtR 0x48#7 d a 0#7 4#4
  | .gmove d a b => fmtR 0x48#7 d a b 5#4
  | .vadd d a b m => fmtR 0x50#7 d a b (m ++ 0#3)
  | .vsub d a b m => fmtR 0x50#7 d a b (m ++ 1#3)
  | .vmul d a b m => fmtR 0x50#7 d a b (m ++ 2#3)
  | .vmulh d a b m => fmtR 0x50#7 d a b (m ++ 3#3)
  | .vmin d a b m => fmtR 0x50#7 d a b (m ++ 4#3)
  | .vmax d a b m => fmtR 0x50#7 d a b (m ++ 5#3)
  | .vadds d a b m => fmtR 0x50#7 d a b (m ++ 6#3)
  | .vsubs d a b m => fmtR 0x50#7 d a b (m ++ 7#3)
  | .vand d a b m => fmtR 0x51#7 d a b (m ++ 0#3)
  | .vor d a b m => fmtR 0x51#7 d a b (m ++ 1#3)
  | .vxor d a b m => fmtR 0x51#7 d a b (m ++ 2#3)
  | .vshl d a b m => fmtR 0x51#7 d a b (m ++ 3#3)
  | .vshr d a b m => fmtR 0x51#7 d a b (m ++ 4#3)
  | .vsra d a b m => fmtR 0x51#7 d a b (m ++ 5#3)
  | .vandn d a b m => fmtR 0x51#7 d a b (m ++ 6#3)
  | .vfadd d a b m => fmtR 0x52#7 d a b (m ++ 0#3)
  | .vfsub d a b m => fmtR 0x52#7 d a b (m ++ 1#3)
  | .vfmul d a b m => fmtR 0x52#7 d a b (m ++ 2#3)
  | .vfdiv d a b m => fmtR 0x52#7 d a b (m ++ 3#3)
  | .vfmin d a b m => fmtR 0x52#7 d a b (m ++ 4#3)
  | .vfmax d a b m => fmtR 0x52#7 d a b (m ++ 5#3)
  | .vfma d a b m => fmtR 0x52#7 d a b (m ++ 6#3)
  | .vfms d a b m => fmtR 0x52#7 d a b (m ++ 7#3)
  | .vfsqrt d a m => fmtR 0x53#7 d a 0#7 (m ++ 0#3)
  | .vfrsq d a m => fmtR 0x53#7 d a 0#7 (m ++ 1#3)
  | .vlog2 d a m => fmtR 0x53#7 d a 0#7 (m ++ 2#3)
  | .vexp2 d a m => fmtR 0x53#7 d a 0#7 (m ++ 3#3)
  | .vfabs d a m => fmtR 0x53#7 d a 0#7 (m ++ 4#3)
  | .vfneg d a m => fmtR 0x53#7 d a 0#7 (m ++ 5#3)
  | .vfclass d a m => fmtR 0x53#7 d a 0#7 (m ++ 6#3)
  | .vfrint d a m => fmtR 0x53#7 d a 0#7 (m ++ 7#3)
  | .vcmp d a b m c => fmtR 0x54#7 d a b (m ++ c)
  | .vcmpx d a b m c => fmtR 0x55#7 d a b (m ++ c)
  | .pand d a b => fmtR 0x56#7 d a b 0#4
  | .por d a b => fmtR 0x56#7 d a b 1#4
  | .pxor d a b => fmtR 0x56#7 d a b 2#4
  | .pandn d a b => fmtR 0x56#7 d a b 3#4
  | .pnot d a => fmtR 0x56#7 d a 0#7 4#4
  | .pmov d a => fmtR 0x56#7 d a 0#7 5#4
  | .pset d => fmtR 0x56#7 d 0#7 0#7 6#4
  | .pclr d => fmtR 0x56#7 d 0#7 0#7 7#4
  | .pcnt d a => fmtR 0x57#7 d a 0#7 0#4
  | .pcntt d a => fmtR 0x57#7 d a 0#7 1#4
  | .ppop d a => fmtR 0x58#7 d a 0#7 0#4
  | .pfirst d a => fmtR 0x58#7 d a 0#7 1#4
  | .plast d a => fmtR 0x58#7 d a 0#7 2#4
  | .vcvfh d a => fmtR 0x59#7 d a 0#7 0#4
  | .vcvfb d a => fmtR 0x59#7 d a 0#7 1#4
  | .vcvfe4 d a => fmtR 0x59#7 d a 0#7 2#4
  | .vcvfe5 d a => fmtR 0x59#7 d a 0#7 3#4
  | .vcvhf d a => fmtR 0x59#7 d a 0#7 4#4
  | .vcvbf d a => fmtR 0x59#7 d a 0#7 5#4
  | .vcve4f d a => fmtR 0x59#7 d a 0#7 6#4
  | .vcve5f d a => fmtR 0x59#7 d a 0#7 7#4
  | .vcvfi d a => fmtR 0x59#7 d a 0#7 8#4
  | .vcvif d a => fmtR 0x59#7 d a 0#7 9#4
  | .vcvdf d a => fmtR 0x59#7 d a 0#7 0xa#4
  | .vcvfd d a => fmtR 0x59#7 d a 0#7 0xb#4
  | .vcvin d a => fmtR 0x59#7 d a 0#7 0xc#4
  | .vcvci d a => fmtR 0x59#7 d a 0#7 0xd#4
  | .vcvic d a => fmtR 0x59#7 d a 0#7 0xe#4
  | .vcvfc d a => fmtR 0x59#7 d a 0#7 0xf#4
  | .vdeq d a b m => fmtR 0x5a#7 d a b (m ++ 0#3)
  | .vqnt d a b m => fmtR 0x5a#7 d a b (m ++ 1#3)
  | .vperm d a b m => fmtR 0x5b#7 d a b (m ++ 0#3)
  | .vslup d a b m => fmtR 0x5b#7 d a b (m ++ 1#3)
  | .vsldn d a b m => fmtR 0x5b#7 d a b (m ++ 2#3)
  | .vcomp d a m => fmtR 0x5b#7 d a 0#7 (m ++ 3#3)
  | .vexpd d a m => fmtR 0x5b#7 d a 0#7 (m ++ 4#3)
  | .vzip d a b m => fmtR 0x5b#7 d a b (m ++ 5#3)
  | .vuzp d a b m => fmtR 0x5b#7 d a b (m ++ 6#3)
  | .vrev d a m => fmtR 0x5b#7 d a 0#7 (m ++ 7#3)
  | .vmov d a m => fmtR 0x5c#7 d a 0#7 (m ++ 0#3)
  | .vsplat d a m => fmtR 0x5c#7 d a 0#7 (m ++ 1#3)
  | .vext d a b => fmtR 0x5c#7 d a b 2#4
  | .vins d a b => fmtR 0x5c#7 d a b 3#4
  | .viota d m => fmtR 0x5c#7 d 0#7 0#7 (m ++ 4#3)
  | .vmerge d a b => fmtR 0x5c#7 d a b 5#4
  | .vfmsk d => fmtR 0x5c#7 d 0#7 0#7 6#4
  | .vclrf => fmtR 0x5c#7 0#7 0#7 0#7 7#4
  | .vrsum d a m => fmtR 0x5d#7 d a 0#7 (m ++ 0#3)
  | .vfsum a m => fmtR 0x5d#7 0#7 a 0#7 (m ++ 1#3)
  | .vrmin d a m => fmtR 0x5d#7 d a 0#7 (m ++ 2#3)
  | .vrmax d a m => fmtR 0x5d#7 d a 0#7 (m ++ 3#3)
  | .vrand d a m => fmtR 0x5d#7 d a 0#7 (m ++ 4#3)
  | .vror d a m => fmtR 0x5d#7 d a 0#7 (m ++ 5#3)
  | .vrxor d a m => fmtR 0x5d#7 d a 0#7 (m ++ 6#3)
  | .vtree d => fmtR 0x5d#7 d 0#7 0#7 7#4
  | .vargmax d a m => fmtR 0x5e#7 d a 0#7 (m ++ 0#3)
  | .vargmin d a m => fmtR 0x5e#7 d a 0#7 (m ++ 1#3)
  | .vargmaxc d a m => fmtR 0x5e#7 d a 0#7 (m ++ 2#3)
  | .vscan d a s => fmtR 0x5f#7 d a 0#7 (s ++ 0#3)
  | .vscanx d a s => fmtR 0x5f#7 d a 0#7 (s ++ 1#3)
  | .vfscan d a s => fmtR 0x5f#7 d a 0#7 (s ++ 2#3)
  | .vmscan d a s => fmtR 0x5f#7 d a 0#7 (s ++ 3#3)
  | .vsegrAdd d a s => fmtR 0x60#7 d a 0#7 (s ++ 0#3)
  | .vsegrMin d a s => fmtR 0x60#7 d a 0#7 (s ++ 1#3)
  | .vsegrMax d a s => fmtR 0x60#7 d a 0#7 (s ++ 2#3)
  | .vsegrAnd d a s => fmtR 0x60#7 d a 0#7 (s ++ 3#3)
  | .vsegrOr d a s => fmtR 0x60#7 d a 0#7 (s ++ 4#3)
  | .vsegrFadd d a s => fmtR 0x60#7 d a 0#7 (s ++ 5#3)
  | .vsegrFmin d a s => fmtR 0x60#7 d a 0#7 (s ++ 6#3)
  | .vsegrFmax d a s => fmtR 0x60#7 d a 0#7 (s ++ 7#3)
  | .vrndl d m => fmtR 0x61#7 d 0#7 0#7 (m ++ 0#3)
  | .vrndh d m => fmtR 0x61#7 d 0#7 0#7 (m ++ 1#3)
  | .vrndu d m => fmtR 0x61#7 d 0#7 0#7 (m ++ 2#3)
  | .vbin d a => fmtR 0x62#7 d a 0#7 0#4
  | .vbout d a => fmtR 0x62#7 d a 0#7 1#4
  | .vunb d => fmtR 0x62#7 d 0#7 0#7 2#4
  | .mtile d a b => fmtR 0x68#7 d a b 0#4
  | .mrow d a b k j => fmtR 0x69#7 d a b (0#2 ++ k ++ j)
  | .maccf d a => fmtR 0x6a#7 d a 0#7 0#4
  | .macc d a => fmtR 0x6a#7 d a 0#7 1#4
  | .maccz d a => fmtR 0x6a#7 d a 0#7 2#4
  | .mzero a b => fmtR 0x6b#7 0#7 a b 0#4
  | .mstat d => fmtR 0x6c#7 d 0#7 0#7 0#4
  | .mstatc d => fmtR 0x6c#7 d 0#7 0#7 1#4
  | .rcopen a => fmtR 0x70#7 0#7 a 0#7 0#4
  | .rcnoise d => fmtR 0x70#7 d 0#7 0#7 1#4
  | .rcscore d a => fmtR 0x70#7 d a 0#7 2#4
  | .rccut d a => fmtR 0x70#7 d a 0#7 3#4
  | .rcexact d a => fmtR 0x70#7 d a 0#7 4#4
  | .rcpost a b => fmtR 0x70#7 0#7 a b 5#4
  | .rcmerge d => fmtR 0x70#7 d 0#7 0#7 6#4
  | .rcbar a => fmtR 0x70#7 0#7 a 0#7 7#4
  | .rcprob d => fmtR 0x70#7 d 0#7 0#7 8#4
  | .rcget d b => fmtR 0x70#7 d 0#7 b 9#4
  | .rcput a b => fmtR 0x70#7 0#7 a b 0xa#4
  | .rcclose => fmtR 0x70#7 0#7 0#7 0#7 0xb#4
  | .fnset d a b => fmtR 0x71#7 d a b 0#4
  | .fnget d a => fmtR 0x71#7 d a 0#7 1#4
  | .fnadd d a b => fmtR 0x71#7 d a b 2#4
  | .fnmul d a b => fmtR 0x71#7 d a b 3#4
  | .fncomp d a b => fmtR 0x71#7 d a b 4#4
  | .fnint d a => fmtR 0x71#7 d a 0#7 5#4
  | .fndiff d a => fmtR 0x71#7 d a 0#7 6#4
  | .fneval d a b => fmtR 0x71#7 d a b 7#4
  | .fnroot d a b => fmtR 0x71#7 d a b 8#4
  | .fntrunc d a => fmtR 0x71#7 d a 0#7 9#4
  | .fnfit d a b => fmtR 0x71#7 d a b 0xa#4
  | .fnmono d => fmtR 0x71#7 d 0#7 0#7 0xb#4
  | .fninfo d a => fmtR 0x71#7 d a 0#7 0xc#4
  | .fnfree d => fmtR 0x71#7 d 0#7 0#7 0xd#4
  | .fnscal d a b => fmtR 0x71#7 d a b 0xe#4
  | .gmbox d b => fmtR 0x72#7 d 0#7 b 0#4
  | .vhold d a => fmtR 0x72#7 d a 0#7 1#4
  | .rstv d a b => fmtR 0x72#7 d a b 2#4
  | .rstvr d a b => fmtR 0x72#7 d a b 3#4
  | .gstat d => fmtR 0x72#7 d 0#7 0#7 4#4
  | .exit => fmtR 0x78#7 0#7 0#7 0#7 0#4
  | .eret => fmtR 0x78#7 0#7 0#7 0#7 1#4
  | .mfs d a b => fmtR 0x78#7 d a b 2#4
  | .mts d a b => fmtR 0x78#7 d a b 3#4
  | .mtsCause d => fmtR 0x78#7 d 0#7 0x10#7 3#4
  | .mtsScopetab d => fmtR 0x78#7 d 0#7 0x40#7 3#4
  | .mtsVbase d => fmtR 0x78#7 d 0#7 0x21#7 3#4
  | .mtsFmode d => fmtR 0x78#7 d 0#7 0x30#7 3#4
  | .mtsLattol d => fmtR 0x78#7 d 1#7 0#7 3#4
  | .ctxsave a b => fmtR 0x78#7 0#7 a b 4#4
  | .ctxload a b => fmtR 0x78#7 0#7 a b 5#4
  | .notify a => fmtR 0x78#7 0#7 a 0#7 6#4
  | .preempt a => fmtR 0x78#7 0#7 a 0#7 7#4
  | .resume a => fmtR 0x78#7 0#7 a 0#7 8#4
  | .digchk d => fmtR 0x78#7 d 0#7 0#7 9#4
  | .halt => fmtR 0x78#7 0#7 0#7 0#7 0xa#4
  | .loadCompletion _ _ => 0
  | .parkedStreamRelease _ _ => 0
  | .waitaWake _ => 0
  | .vwaitWake _ => 0
  | .bwaitWake _ => 0
  | .bwaitTimeout _ => 0
  | .qdeadDetection _ => 0
  | .outboundChunkEntry _ => 0
  | .streamTransferCompletion _ _ => 0
  | .elementGroupStart _ _ => 0
  | .matrixRowProcessing _ => 0
  | .tileFill _ _ => 0
  | .copyPiece _ _ => 0
  | .copyCompletion _ _ => 0
  | .lateEngineFault _ _ => 0
  | .svopPass _ => 0
  | .mailboxArrival _ => 0
  | .remoteStoreAnswer _ _ => 0
  | .nameForwardingExpiry _ => 0
  | .atomicLeaseExpiry _ => 0
  | .atomicSiteReturnNear _ => 0
  | .stampSweep => 0
  | .conflictConfirmation _ => 0
  | .threadStopComplete _ => 0
  | .noticeDelivery _ => 0
  | .budgetExpiry _ => 0
  | .intg _ => 0
  | .deverr _ _ _ _ => 0
  | .streamEnd _ _ => 0
  | .dependencyWordRead _ _ => 0
  | .launchDispatch _ => 0
  | .launchStaging _ => 0
  | .stagedLaunchStart _ => 0
  | .gangStop _ => 0
  | .gangResume _ => 0
  | .selfTestProduct _ _ => 0
  | .spareReplacement _ => 0
  | .invalidationRequest _ => 0
  | .invalidationRetire _ => 0
  | .replicaFill _ _ _ => 0
  | .migration _ _ _ => 0
  | .fabricReadRequest _ _ _ _ => 0
  | .fabricWriteRequest _ _ _ _ => 0
  | .fabricAtomicRequest _ _ _ _ _ _ => 0
  | .fabricNack _ _ => 0
  | .fabricRequestTimeout _ => 0
  | .multicastCopyAnswer _ _ _ => 0
  | .redContribution _ _ _ => 0
  | .redRoundTimeout _ _ => 0
  | .linkFailure _ => 0
  | .hostAtomicOp _ _ _ _ _ => 0
  | .hostRequest _ _ _ => 0
  | .scrub _ => 0
  | .wearUpdate _ _ _ _ => 0
  | .thermalLimit => 0
  | .thermalReset _ => 0
  | .deviceReset _ => 0
  | .idleEntry => 0
  | .idleWake => 0
  | .registerWrite _ _ => 0
  | .eccstatWrite _ => 0
  | .pwrWrite _ => 0
  | .lattolMirrorWrite _ => 0
  | .wearWrite _ _ => 0
  | .fwstageWrite _ => 0
  | .partitionCreate _ => 0
  | .functionLevelReset _ => 0
  | .configWriteLocked _ => 0
  | .lockInterfaceRequest _ _ => 0
  | .startInterfaceRequest _ _ => 0
  | .stopInterfaceRequest _ _ => 0
  | .getVersion _ _ => 0
  | .getCapabilities _ _ => 0
  | .negotiateAlgorithms _ _ => 0
  | .getDigests _ _ => 0
  | .getCertificate _ _ => 0
  | .challenge _ _ => 0
  | .getMeasurements _ _ => 0
  | .keyExchange _ _ => 0
  | .finish _ _ => 0
  | .keyUpdate _ _ => 0
  | .heartbeat _ _ => 0
  | .endSession _ _ => 0
  | .vendorChallenge _ _ => 0
  | .debugKeyHashBind _ _ _ => 0
  | .debugPolicy _ _ _ => 0
  | .debugPolicyExpiry _ => 0
  | .recoveryImageWrite _ => 0
  | .ill w => w
  | .elementGroupWrite _ _ => 0
  | .dieTemperatureFall => 0
  | .sharedCoreTimeSlice _ => 0

/-- Whether a row is an event of the device, which has no encoding. -/
def instrIsEvent : Instr → Bool
  | .loadCompletion _ _ => true
  | .parkedStreamRelease _ _ => true
  | .waitaWake _ => true
  | .vwaitWake _ => true
  | .bwaitWake _ => true
  | .bwaitTimeout _ => true
  | .qdeadDetection _ => true
  | .outboundChunkEntry _ => true
  | .streamTransferCompletion _ _ => true
  | .elementGroupStart _ _ => true
  | .matrixRowProcessing _ => true
  | .tileFill _ _ => true
  | .copyPiece _ _ => true
  | .copyCompletion _ _ => true
  | .lateEngineFault _ _ => true
  | .svopPass _ => true
  | .mailboxArrival _ => true
  | .remoteStoreAnswer _ _ => true
  | .nameForwardingExpiry _ => true
  | .atomicLeaseExpiry _ => true
  | .atomicSiteReturnNear _ => true
  | .stampSweep => true
  | .conflictConfirmation _ => true
  | .threadStopComplete _ => true
  | .noticeDelivery _ => true
  | .budgetExpiry _ => true
  | .intg _ => true
  | .deverr _ _ _ _ => true
  | .streamEnd _ _ => true
  | .dependencyWordRead _ _ => true
  | .launchDispatch _ => true
  | .launchStaging _ => true
  | .stagedLaunchStart _ => true
  | .gangStop _ => true
  | .gangResume _ => true
  | .selfTestProduct _ _ => true
  | .spareReplacement _ => true
  | .invalidationRequest _ => true
  | .invalidationRetire _ => true
  | .replicaFill _ _ _ => true
  | .migration _ _ _ => true
  | .fabricReadRequest _ _ _ _ => true
  | .fabricWriteRequest _ _ _ _ => true
  | .fabricAtomicRequest _ _ _ _ _ _ => true
  | .fabricNack _ _ => true
  | .fabricRequestTimeout _ => true
  | .multicastCopyAnswer _ _ _ => true
  | .redContribution _ _ _ => true
  | .redRoundTimeout _ _ => true
  | .linkFailure _ => true
  | .hostAtomicOp _ _ _ _ _ => true
  | .hostRequest _ _ _ => true
  | .scrub _ => true
  | .wearUpdate _ _ _ _ => true
  | .thermalLimit => true
  | .thermalReset _ => true
  | .deviceReset _ => true
  | .idleEntry => true
  | .idleWake => true
  | .registerWrite _ _ => true
  | .eccstatWrite _ => true
  | .pwrWrite _ => true
  | .lattolMirrorWrite _ => true
  | .wearWrite _ _ => true
  | .fwstageWrite _ => true
  | .partitionCreate _ => true
  | .functionLevelReset _ => true
  | .configWriteLocked _ => true
  | .lockInterfaceRequest _ _ => true
  | .startInterfaceRequest _ _ => true
  | .stopInterfaceRequest _ _ => true
  | .getVersion _ _ => true
  | .getCapabilities _ _ => true
  | .negotiateAlgorithms _ _ => true
  | .getDigests _ _ => true
  | .getCertificate _ _ => true
  | .challenge _ _ => true
  | .getMeasurements _ _ => true
  | .keyExchange _ _ => true
  | .finish _ _ => true
  | .keyUpdate _ _ => true
  | .heartbeat _ _ => true
  | .endSession _ _ => true
  | .vendorChallenge _ _ => true
  | .debugKeyHashBind _ _ _ => true
  | .debugPolicy _ _ _ => true
  | .debugPolicyExpiry _ => true
  | .recoveryImageWrite _ => true
  | .ill _ => true
  | .elementGroupWrite _ _ => true
  | .dieTemperatureFall => true
  | .sharedCoreTimeSlice _ => true
  | _ => false

end Sys2Proof
end

