-- ==== Sys2Proof/Machine/Float.lean ====
section
/-! DEFINITION. Floating-point arithmetic of the F8 (01_numbers, R13 to R38): every operation forms the exact result
in integers and rounds it once. A code is a natural number below 2^width; a result is a code and the exceptions it
raised, as bits in the places of the fmode enables: 8 invalid, 16 overflow, 32 inexact (R24, R26). Division by zero
and underflow leave no trace, so they are not recorded. -/

namespace Sys2Proof.Machine

/-- A binary floating format: exponent bits, fraction bits, bias, and whether it is E4M3 (R13, R14). -/
structure Fmt where
  e : Nat
  f : Nat
  bias : Nat
  ofp4 : Bool
  deriving DecidableEq, Repr

def fp64 : Fmt := ⟨11, 52, 1023, false⟩
def fp32 : Fmt := ⟨8, 23, 127, false⟩
def fp16 : Fmt := ⟨5, 10, 15, false⟩
def bf16 : Fmt := ⟨8, 7, 127, false⟩
def e4m3 : Fmt := ⟨4, 3, 7, true⟩
def e5m2 : Fmt := ⟨5, 2, 15, false⟩

/-- The width of a format in bits. -/
def Fmt.width (t : Fmt) : Nat := 1 + t.e + t.f

/-- The value a code stands for: a NaN, an infinity, or (−1)^neg · m · 2^x. -/
inductive FVal where
  | nan (signalling : Bool)
  | inf (neg : Bool)
  | fin (neg : Bool) (m : Nat) (x : Int)
  deriving DecidableEq, Repr

/-- The sign bit of a code. -/
def fNeg (t : Fmt) (c : Nat) : Bool := c / 2 ^ (t.e + t.f) % 2 == 1

/-- The value of a code (R13, R14): subnormals kept, E4M3 without infinities. -/
def unpack (t : Fmt) (c : Nat) : FVal :=
  let neg := fNeg t c
  let ex := c / 2 ^ t.f % 2 ^ t.e
  let fr := c % 2 ^ t.f
  if ex + 1 == 2 ^ t.e && !(t.ofp4 && fr + 1 != 2 ^ t.f) then
    if t.ofp4 then .nan false
    else if fr == 0 then .inf neg
    else .nan (fr < 2 ^ (t.f - 1))
  else if ex == 0 then .fin neg fr (1 - (t.bias : Int) - t.f)
  else .fin neg (2 ^ t.f + fr) ((ex : Int) - t.bias - t.f)

def FVal.isNan : FVal → Bool
  | .nan _ => true
  | _ => false

def FVal.isSnan : FVal → Bool
  | .nan s => s
  | _ => false

def FVal.isInf : FVal → Bool
  | .inf _ => true
  | _ => false

def FVal.isZero : FVal → Bool
  | .fin _ m _ => m == 0
  | _ => false

def FVal.neg : FVal → Bool
  | .nan _ => false
  | .inf n => n
  | .fin n _ _ => n

/-- The sign bit in place. -/
def signBit (t : Fmt) (neg : Bool) : Nat := if neg then 2 ^ (t.e + t.f) else 0

/-- The canonical quiet NaN (R21). -/
def canonNan (t : Fmt) : Nat :=
  if t.ofp4 then 2 ^ (t.e + t.f) - 1 else (2 ^ t.e - 1) * 2 ^ t.f + 2 ^ (t.f - 1)

/-- Quietening (R22): the most significant fraction bit set. -/
def quieten (t : Fmt) (c : Nat) : Nat :=
  if t.ofp4 then c else if c / 2 ^ (t.f - 1) % 2 == 1 then c else c + 2 ^ (t.f - 1)

/-- Infinity of a sign (E4M3 has none: its NaN code stands there, R14, R37). -/
def fInf (t : Fmt) (neg : Bool) : Nat :=
  signBit t neg + (if t.ofp4 then 2 ^ (t.e + t.f) - 1 else (2 ^ t.e - 1) * 2 ^ t.f)

/-- The largest finite code of a sign (R13). -/
def fMax (t : Fmt) (neg : Bool) : Nat :=
  signBit t neg + (if t.ofp4 then 2 ^ (t.e + t.f) - 2 else (2 ^ t.e - 1) * 2 ^ t.f - 1)

/-- A result: a code and the exceptions raised. -/
abbrev FRes := Nat × Nat

/-- A rounding mode (0 RNE, 1 RZ, 2 RU, 3 RD, 4 RS; R26) with the 16 random bits W that RS uses (R29). -/
structure Rnd where
  mode : Nat
  w : Nat
  deriving DecidableEq, Repr

def rne : Rnd := ⟨0, 0⟩
def rru : Rnd := ⟨2, 0⟩
def rrd : Rnd := ⟨3, 0⟩

/-- Number of bits of a natural number. -/
def bitLen (n : Nat) : Nat := if n == 0 then 0 else Nat.log2 n + 1

/-- Whether a magnitude T with the discarded part rem / 2^sh (and more below it when `sticky`) rounds up
(R27, R29). -/
def roundsUp (r : Rnd) (neg : Bool) (t rem sh : Nat) (sticky : Bool) : Bool :=
  let inexact := rem != 0 || sticky
  match r.mode with
  | 0 => if sh == 0 then false
         else decide (2 ^ (sh - 1) < rem) || (rem == 2 ^ (sh - 1) && (sticky || t % 2 == 1))
  | 1 => false
  | 2 => !neg && inexact
  | 3 => neg && inexact
  | _ => decide (65536 ≤ rem * 65536 / 2 ^ sh + r.w)

/-- The code of an exact magnitude m · 2^x, or of one strictly between m · 2^x and (m + 1) · 2^x when `sticky`,
rounded once (R27 to R29). A sticky magnitude must carry at least 18 bits below the destination's last place. -/
def roundMag (t : Fmt) (r : Rnd) (neg : Bool) (m : Nat) (x : Int) (sticky : Bool) : FRes :=
  if m == 0 && !sticky then (signBit t neg, 0)
  else
    let lsb : Int := max (x + bitLen m - 1 - t.f) (1 - (t.bias : Int) - t.f)
    let sh : Nat := (lsb - x).toNat
    let tr : Nat := if x ≤ lsb then m / 2 ^ sh else m * 2 ^ (x - lsb).toNat
    let rem : Nat := if x ≤ lsb then m % 2 ^ sh else 0
    let up := roundsUp r neg tr rem sh sticky
    let inx := if rem != 0 || sticky then 32 else 0
    let t' := if up then tr + 1 else tr
    let carry := t' == 2 ^ (t.f + 1)
    let t'' := if carry then 2 ^ t.f else t'
    let lsb' : Int := if carry then lsb + 1 else lsb
    if t'' < 2 ^ t.f then (signBit t neg + t'', inx)
    else
      let ex : Nat := (lsb' + t.f + t.bias).toNat
      let code := ex * 2 ^ t.f + (t'' - 2 ^ t.f)
      if code ≤ fMax t false then (signBit t neg + code, inx)
      else
        let res := match r.mode with
          | 1 => fMax t neg
          | 2 => if neg then fMax t neg else fInf t neg
          | 3 => if neg then fInf t neg else fMax t neg
          | _ => fInf t neg
        (res, 48)

/-- The result an operand NaN decides (R22): the first NaN in the order given, quietened; invalid when any operand is
signalling. None when no operand is a NaN. -/
def nanRes (t : Fmt) (ops : List Nat) : Option FRes :=
  match ops.find? (fun c => (unpack t c).isNan) with
  | some c => some (quieten t c, if ops.any (fun c => (unpack t c).isSnan) then 8 else 0)
  | none => none

/-- The signed integer (−1)^neg · m · 2^k. -/
def signedMag (neg : Bool) (m : Nat) (k : Nat) : Int :=
  if neg then -((m * 2 ^ k : Nat) : Int) else ((m * 2 ^ k : Nat) : Int)

/-- An exact sum of two finite values, rounded once; an exact zero takes the sign of R27. -/
def sumRound (t : Fmt) (r : Rnd) (n1 : Bool) (m1 : Nat) (x1 : Int) (n2 : Bool) (m2 : Nat) (x2 : Int) : FRes :=
  let x := min x1 x2
  let v := signedMag n1 m1 (x1 - x).toNat + signedMag n2 m2 (x2 - x).toNat
  if v == 0 then
    if m1 == 0 && m2 == 0 && n1 && n2 then (signBit t true, 0)
    else (signBit t (r.mode == 3), 0)
  else roundMag t r (decide (v < 0)) v.natAbs x false

/-- The other sign. -/
def flipSign (t : Fmt) (c : Nat) : Nat :=
  if fNeg t c then c - 2 ^ (t.e + t.f) else c + 2 ^ (t.e + t.f)

/-- a + b, or a − b when `sub` (R22, R24, R27). -/
def fAddSub (t : Fmt) (r : Rnd) (sub : Bool) (a b : Nat) : FRes :=
  match nanRes t [a, b] with
  | some x => x
  | none =>
    match unpack t a, unpack t b with
    | .inf n1, .inf n2 => if n1 == (n2 != sub) then (fInf t n1, 0) else (canonNan t, 8)
    | .inf n1, _ => (fInf t n1, 0)
    | _, .inf n2 => (fInf t (n2 != sub), 0)
    | .fin n1 m1 x1, .fin n2 m2 x2 => sumRound t r n1 m1 x1 (n2 != sub) m2 x2
    | _, _ => (canonNan t, 8)

def fAdd (t : Fmt) (r : Rnd) (a b : Nat) : FRes := fAddSub t r false a b
def fSub (t : Fmt) (r : Rnd) (a b : Nat) : FRes := fAddSub t r true a b

/-- a × b. -/
def fMul (t : Fmt) (r : Rnd) (a b : Nat) : FRes :=
  match nanRes t [a, b] with
  | some x => x
  | none =>
    match unpack t a, unpack t b with
    | .fin n1 m1 x1, .fin n2 m2 x2 => roundMag t r (n1 != n2) (m1 * m2) (x1 + x2) false
    | u, v => if u.isZero || v.isZero then (canonNan t, 8) else (fInf t (u.neg != v.neg), 0)

/-- a ÷ b, rounded from a quotient of integers with enough bits (R24, R27). 0 ÷ 0 and ∞ ÷ ∞ are invalid and give the
canonical NaN, which R24 does not list (PRESUMED, log 33). -/
def fDiv (t : Fmt) (r : Rnd) (a b : Nat) : FRes :=
  match nanRes t [a, b] with
  | some x => x
  | none =>
    match unpack t a, unpack t b with
    | .inf _, .inf _ => (canonNan t, 8)
    | .inf n1, v => (fInf t (n1 != v.neg), 0)
    | u, .inf n2 => (signBit t (u.neg != n2), 0)
    | .fin n1 m1 x1, .fin n2 m2 x2 =>
      if m2 == 0 then (if m1 == 0 then (canonNan t, 8) else (fInf t (n1 != n2), 0))
      else if m1 == 0 then (signBit t (n1 != n2), 0)
      else
        let k := t.f + 24 + bitLen m2 - bitLen m1
        let n := m1 * 2 ^ k
        roundMag t r (n1 != n2) (n / m2) (x1 - x2 - k) (n % m2 != 0)
    | _, _ => (canonNan t, 8)

/-- acc + a × b with one rounding, the product negated when `sub` (R121, R154). The product 0 × ∞ is invalid even
beside a quiet NaN accumulator, which is then the result. -/
def fFma (t : Fmt) (r : Rnd) (sub : Bool) (acc a b : Nat) : FRes :=
  let u := unpack t a
  let v := unpack t b
  if (u.isZero && v.isInf) || (u.isInf && v.isZero) then
    (if (unpack t acc).isNan then quieten t acc else canonNan t, 8)
  else
    match nanRes t [a, b, acc] with
    | some x => x
    | none =>
      let np := (u.neg != v.neg) != sub
      match u, v, unpack t acc with
      | .fin _ m1 x1, .fin _ m2 x2, .fin n3 m3 x3 => sumRound t r n3 m3 x3 np (m1 * m2) (x1 + x2)
      | .fin _ _ _, .fin _ _ _, w => (fInf t w.neg, 0)
      | _, _, .inf n3 => if n3 == np then (fInf t np, 0) else (canonNan t, 8)
      | _, _, _ => (fInf t np, 0)

/-- The integer square root by Newton's steps from above. -/
def isqrtStep : Nat → Nat → Nat → Nat
  | 0, _, x => x
  | k + 1, n, x =>
    let y := (x + n / x) / 2
    if y < x then isqrtStep k n y else x

/-- ⌊√n⌋. -/
def isqrt (n : Nat) : Nat := if n == 0 then 0 else isqrtStep 64 n (2 ^ (bitLen n / 2 + 1))

/-- √a (R121, R155). -/
def fSqrt (t : Fmt) (r : Rnd) (a : Nat) : FRes :=
  match nanRes t [a] with
  | some x => x
  | none =>
    match unpack t a with
    | .fin n m x =>
      if m == 0 then (a, 0)
      else if n then (canonNan t, 8)
      else
        let k0 := 2 * (t.f + 24) - bitLen m
        let k := if (x - k0) % 2 == 0 then k0 else k0 + 1
        let s := m * 2 ^ k
        let q := isqrt s
        roundMag t r false q ((x - k) / 2) (q * q != s)
    | .inf n => if n then (canonNan t, 8) else (a, 0)
    | _ => (canonNan t, 8)

/-- 1/√a with one rounding (R155). -/
def fRsqrt (t : Fmt) (r : Rnd) (a : Nat) : FRes :=
  match nanRes t [a] with
  | some x => x
  | none =>
    match unpack t a with
    | .fin n m x =>
      if m == 0 then (fInf t n, 0)
      else if n then (canonNan t, 8)
      else
        let k0 := 2 * (t.f + 26) + bitLen m
        let k := if (x + k0) % 2 == 0 then k0 else k0 + 1
        let s := 2 ^ k / m
        let q := isqrt s
        roundMag t r false q (-((x + k) / 2)) (q * q * m != 2 ^ k)
    | .inf n => if n then (canonNan t, 8) else (0, 0)
    | _ => (canonNan t, 8)

/-- A key that orders values that are not NaN, with −0 below +0 (R23). -/
def orderKey (t : Fmt) (c : Nat) : Int :=
  if fNeg t c then -((c % 2 ^ (t.e + t.f) : Nat) : Int) - 1 else ((c % 2 ^ (t.e + t.f) : Nat) : Int)

/-- Numeric comparison of values that are not NaN: −0 equals +0. -/
def numKey (t : Fmt) (c : Nat) : Int :=
  if fNeg t c then -((c % 2 ^ (t.e + t.f) : Nat) : Int) else ((c % 2 ^ (t.e + t.f) : Nat) : Int)

/-- minimumNumber, or maximumNumber when `mx` (R23). -/
def fMinMax (t : Fmt) (mx : Bool) (a b : Nat) : FRes :=
  let u := unpack t a
  let v := unpack t b
  let inv := if u.isSnan || v.isSnan then 8 else 0
  if u.isNan && v.isNan then (quieten t a, inv)
  else if u.isNan then (b, inv)
  else if v.isNan then (a, inv)
  else if mx then (if orderKey t a < orderKey t b then b else a, 0)
  else (if orderKey t b < orderKey t a then b else a, 0)

/-- Comparisons: 0 eq, 1 ne, 2 lt, 3 le, 4 gt, 5 ge (R121, R157). A NaN makes ne true and every other false; lt, le,
gt and ge raise invalid on any NaN, eq and ne on a signalling one. -/
def fCmp (t : Fmt) (cond : Nat) (a b : Nat) : Bool × Nat :=
  let u := unpack t a
  let v := unpack t b
  if u.isNan || v.isNan then
    (cond == 1, if cond ≤ 1 then (if u.isSnan || v.isSnan then 8 else 0) else 8)
  else
    let x := numKey t a
    let y := numKey t b
    (match cond with
      | 0 => x == y
      | 1 => x != y
      | 2 => decide (x < y)
      | 3 => decide (x ≤ y)
      | 4 => decide (y < x)
      | _ => decide (y ≤ x), 0)

/-! ## Conversions (R33 to R38) -/

/-- The source tag of a narrow format's NaN marker (R35). -/
def srcTag (t : Fmt) : Nat :=
  if t == fp16 then 1 else if t == bf16 then 2 else if t == e4m3 then 3 else 4

/-- FP32 from a narrow format: exact, a NaN marked with its source (R34, R35). -/
def narrowTo32 (t : Fmt) (c : Nat) : Nat :=
  match unpack t c with
  | .nan _ => signBit fp32 (fNeg t c) + 0x7FE00000 + srcTag t * 2 ^ 18 + c
  | .inf n => fInf fp32 n
  | .fin n m x => (roundMag fp32 rne n m x false).1

/-- FP64 from FP32: exact, a NaN keeping its fraction bits (R35). -/
def f32To64 (c : Nat) : Nat :=
  match unpack fp32 c with
  | .nan _ => signBit fp64 (fNeg fp32 c) + 0x7FF * 2 ^ 52 + c % 2 ^ 23 * 2 ^ 29
  | .inf n => fInf fp64 n
  | .fin n m x => (roundMag fp64 rne n m x false).1

/-- FP32 from FP64 (R35): a NaN that is the image of an FP32 NaN comes back unchanged. -/
def f64To32 (r : Rnd) (c : Nat) : FRes :=
  match unpack fp64 c with
  | .nan s =>
    let hi := c / 2 ^ 29 % 2 ^ 23
    let sg := signBit fp32 (fNeg fp64 c)
    if c % 2 ^ 29 == 0 then (sg + 0x7F800000 + hi, 0)
    else (quieten fp32 (sg + 0x7F800000 + hi), if s then 8 else 0)
  | .inf n => (fInf fp32 n, 0)
  | .fin n m x => roundMag fp32 r n m x false

/-- What the marker of an FP32 NaN says for a narrow format: the original code, where the tag is that format's (R36). -/
def markedCode (t : Fmt) (c32 : Nat) : Option Nat :=
  if c32 / 2 ^ 21 % 2 == 1 && c32 / 2 ^ 18 % 8 == srcTag t then
    some (c32 % 2 ^ t.width)
  else none

/-- A narrow format from a wider one whose NaN reads as `c32` in FP32 (R36, R37): OFP8 overflow per SAT. -/
def toNarrow (t : Fmt) (r : Rnd) (sat : Bool) (src : Fmt) (c c32 : Nat) : FRes :=
  match unpack src c with
  | .nan s =>
    match markedCode t c32 with
    | some k => (k, 0)
    | none => (signBit t (fNeg src c) + canonNan t, if s then 8 else 0)
  | .inf n =>
    if t == e4m3 then (if sat then fMax t n else fInf t n, 48) else (fInf t n, 0)
  | .fin n m x =>
    let q := roundMag t r n m x false
    if t.width == 8 && q.2 / 16 % 2 == 1 then (if sat then fMax t n else fInf t n, 48) else q

/-- A narrow format from FP32. -/
def f32ToNarrow (t : Fmt) (r : Rnd) (sat : Bool) (c : Nat) : FRes := toNarrow t r sat fp32 c c

/-- FP16 or BF16 from FP64 (R36): the marker stands where the FP64 image of an FP32 word has it (R35). -/
def f64ToNarrow (t : Fmt) (r : Rnd) (sat : Bool) (c : Nat) : FRes :=
  toNarrow t r sat fp64 c (c / 2 ^ 29 % 2 ^ 23)

/-- The integer a magnitude m · 2^x rounds to, and whether it was inexact (R38). -/
def roundInt (r : Rnd) (neg : Bool) (m : Nat) (x : Int) : Nat × Bool :=
  if 0 ≤ x then (m * 2 ^ x.toNat, false)
  else
    let sh := (-x).toNat
    let t := m / 2 ^ sh
    let rem := m % 2 ^ sh
    (if roundsUp r neg t rem sh false then t + 1 else t, rem != 0)

/-- Floating point to a signed integer of w bits (R38), as its two's-complement code. -/
def fToInt (t : Fmt) (r : Rnd) (w : Nat) (c : Nat) : FRes :=
  match unpack t c with
  | .nan _ => (0, 8)
  | .inf n => (if n then 2 ^ (w - 1) else 2 ^ (w - 1) - 1, 8)
  | .fin n m x =>
    let q := roundInt r n m x
    if n then
      if q.1 ≤ 2 ^ (w - 1) then ((2 ^ w - q.1) % 2 ^ w, if q.2 then 32 else 0) else (2 ^ (w - 1), 8)
    else if q.1 < 2 ^ (w - 1) then (q.1, if q.2 then 32 else 0) else (2 ^ (w - 1) - 1, 8)

/-- A signed integer to floating point (R38). -/
def intToF (t : Fmt) (r : Rnd) (v : Int) : FRes :=
  if v == 0 then (0, 0) else roundMag t r (decide (v < 0)) v.natAbs 0 false

/-- Rounding to an integral value in the same format (R155), which never raises inexact. -/
def fRint (t : Fmt) (r : Rnd) (c : Nat) : FRes :=
  match nanRes t [c] with
  | some x => x
  | none =>
    match unpack t c with
    | .fin n m x =>
      let q := roundInt r n m x
      if q.1 == 0 then (signBit t n, 0) else ((roundMag t rne n q.1 0 false).1, 0)
    | _ => (c, 0)

/-- The mixer NMX (R30). -/
def nmx (key c : BitVec 64) : BitVec 64 :=
  let x := c + key
  let x := x ^^^ (x >>> 31)
  let x := x * 0x8B2F61C9D4A73E15
  let x := x ^^^ (x >>> 29)
  let x := x + key
  let x := x * 0xE3D49A7B2C61F58D
  x ^^^ (x >>> 32)

/-! ## Logarithm and exponential (R39), correctly rounded

A transcendental value is enclosed between two integers at a scale of 2^−p, and p grows until both ends round to one
code. Between exact cases the value is irrational, so some p decides; the number of tries is far above what any
operand of these formats needs. -/

/-- Σ z^(2k+1)/(2k+1) from the term at index k on, at scale 2^p, each term rounded down; z2 is z². -/
def atanhTerms : Nat → Nat → Nat → Nat → Nat → Nat
  | 0, _, _, _, _ => 0
  | n + 1, p, z2, pw, k => pw / (2 * k + 1) + atanhTerms n p z2 (pw * z2 / 2 ^ p) (k + 1)

/-- A lower bound of 2·atanh(z), z = num/den at most 1/3, at scale 2^p; the true value is below it by less than p + 8. -/
def atanh2 (p num den : Nat) : Nat :=
  let z := num * 2 ^ p / den
  2 * atanhTerms (p / 3 + 2) p (z * z / 2 ^ p) z 0

/-- A lower bound of ln 2 at scale 2^p, within p + 8. -/
def ln2Low (p : Nat) : Nat := atanh2 p 1 3

/-- Bounds of log2(m / 2^(len−1)), in [0, 1), at scale 2^p. -/
def log2Frac (p m : Nat) : Nat × Nat :=
  let one := 2 ^ (bitLen m - 1)
  let g := p + 64
  let lo := atanh2 g (m - one) (m + one)
  let l2 := ln2Low g
  let err := 4 * g + 64
  (lo * 2 ^ p / (l2 + err), (lo + err) * 2 ^ p / l2 + 1)

/-- Rounding an enclosed magnitude: both ends must agree, or the precision doubles. -/
def ziv (t : Fmt) (r : Rnd) (neg : Bool) (approx : Nat → Nat × Nat) : Nat → Nat → FRes
  | 0, p => roundMag t r neg (approx p).1 (-(p : Int)) true
  | n + 1, p =>
    let b := approx p
    let lo := roundMag t r neg b.1 (-(p : Int)) true
    let hi := roundMag t r neg (b.2 - 1) (-(p : Int)) true
    if lo == hi then lo else ziv t r neg approx n (2 * p)

/-- log2 of a positive finite value that is not a power of two. -/
def log2Round (t : Fmt) (r : Rnd) (m : Nat) (x : Int) : FRes :=
  let e : Int := x + bitLen m - 1
  if 0 ≤ e then
    ziv t r false (fun p => let b := log2Frac p m; (e.toNat * 2 ^ p + b.1, e.toNat * 2 ^ p + b.2)) 6 192
  else
    let k := (-e).toNat
    ziv t r true (fun p => let b := log2Frac p m; (k * 2 ^ p - b.2, k * 2 ^ p - b.1)) 6 192

/-- log2 of a code (R39). -/
def fLog2 (t : Fmt) (r : Rnd) (a : Nat) : FRes :=
  match nanRes t [a] with
  | some x => x
  | none =>
    match unpack t a with
    | .fin n m x =>
      if m == 0 then (fInf t true, 0)
      else if n then (canonNan t, 8)
      else if m == 2 ^ (bitLen m - 1) then intToF t r (x + bitLen m - 1)
      else log2Round t r m x
    | .inf n => if n then (canonNan t, 8) else (a, 0)
    | _ => (canonNan t, 8)

/-- Σ u^k/k! from k on, at scale 2^p, each term rounded down. -/
def expTerms : Nat → Nat → Nat → Nat → Nat → Nat
  | 0, _, _, _, _ => 0
  | n + 1, p, u, term, k => term + expTerms n p u (term * u / 2 ^ p / (k + 1)) (k + 1)

/-- Bounds of 2^(num/2^s), 0 < num/2^s < 1, at scale 2^p: above 1, and within p + 64 of each other. -/
def exp2Frac (p num s : Nat) : Nat × Nat :=
  let g := p + 32
  let u := num * ln2Low g / 2 ^ s
  let v := expTerms (g / 2 + 8) g u (2 ^ g) 0
  let lo := v / 2 ^ 32
  (max (2 ^ p) lo, lo + p + 64)

/-- 2^y for y = (−1)^neg · m · 2^x not an integer, |y| below the caller's bound, rounded in a mode. -/
def exp2Round (t : Fmt) (r : Rnd) (neg : Bool) (m : Nat) (x : Int) : FRes :=
  let s := (-x).toNat
  let ip := m / 2 ^ s
  let fp := m % 2 ^ s
  let k : Int := if neg then -(ip : Int) - 1 else ip
  let num := if neg then 2 ^ s - fp else fp
  let cut := if s ≤ 4096 then 0 else s - 4096
  exp2Shift t r k (num / 2 ^ cut) (s - cut)
where
  /-- Rounding of 2^k · 2^(num/2^s). -/
  exp2Shift (t : Fmt) (r : Rnd) (k : Int) (num s : Nat) : FRes :=
    zivAt t r k (fun p => exp2Frac p num s) 6 192
  /-- As `ziv`, with the result scaled by 2^k. -/
  zivAt (t : Fmt) (r : Rnd) (k : Int) (approx : Nat → Nat × Nat) : Nat → Nat → FRes
    | 0, p => roundMag t r false (approx p).1 (k - p) true
    | n + 1, p =>
      let b := approx p
      let lo := roundMag t r false b.1 (k - p) true
      let hi := roundMag t r false (b.2 - 1) (k - p) true
      if lo == hi then lo else zivAt t r k approx n (2 * p)

/-- 2^a of a code (R39). Beyond every exponent of the format the result overflows or lies below half the smallest
subnormal, whatever its fraction. -/
def fExp2 (t : Fmt) (r : Rnd) (a : Nat) : FRes :=
  match nanRes t [a] with
  | some x => x
  | none =>
    match unpack t a with
    | .inf n => if n then (0, 0) else (a, 0)
    | .fin n m x =>
      if m == 0 then (t.bias * 2 ^ t.f, 0)
      else
        let big : Bool := decide (13 < x + bitLen m)
        if big then
          if n then roundMag t r false (2 ^ 40) (-(40 : Int) - 8000) true
          else roundMag t r false 1 8000 false
        else
          let s := (-x).toNat
          if 0 ≤ x then
            roundMag t r false 1 (if n then -((m * 2 ^ x.toNat : Nat) : Int) else ((m * 2 ^ x.toNat : Nat) : Int)) false
          else if m % 2 ^ s == 0 then
            roundMag t r false 1 (if n then -((m / 2 ^ s : Nat) : Int) else ((m / 2 ^ s : Nat) : Int)) false
          else exp2Round t r n m x
    | _ => (canonNan t, 8)

end Sys2Proof.Machine
end

