-- ==== Sys2Proof/Config.lean ====
section
/-! DEFINITION. What the spec leaves to the part or to mathematics outside it: cryptographic functions, and the values
that nothing in the spec fixes. Each is an opaque constant, so no statement can rest on its value (log 4, log 5). -/

namespace Sys2Proof.Config

/-- SHA3-256 of a byte string, as 32 bytes (R436, R441, R447): fixed by its own standard, not by the spec's text. -/
opaque sha3 : Bytes → BitVec 256
/-- ML-DSA-44 verification: public key, message, signature (R437, R446). -/
opaque mldsaVerify : Bytes → Bytes → Bytes → Bool
/-- The ML-DSA-44 private key derived from 32 bytes, its public key, and a signature of a message under it (R440, R442). -/
opaque mldsaKey : BitVec 256 → Bytes
opaque mldsaPublic : Bytes → Bytes
opaque mldsaSign : Bytes → Bytes → Bytes
/-- The contents of the trust ROM (R438). -/
opaque rom : Bytes
/-- The Niryth root certificate and the device-CA certificate, the device certificate of a public key, which binds it to the
serial number and ordering code, and what an alias certificate says of an alias public key (R440). -/
opaque rootCert : Bytes
opaque deviceCaCert : Bytes
opaque deviceCert : Bytes → Bytes
opaque aliasBody : Bytes → Bytes
/-- AES-256-XTS encryption of a data unit: key pair, tweak, 64 bytes (R445). -/
opaque xts : BitVec 256 → BitVec 256 → Nat → Bytes → Bytes
/-- The key of the link IDE stream, and of a selective stream out of the secret of its SPDM session (R444). -/
opaque linkKey : Bytes
opaque ideKey : Bytes → Bytes
/-- ML-KEM-768 and the key schedule: the session secret of an exchange, and the device's answer to it (R442). -/
opaque sessionSecret : Nat → Bytes → Bytes
/-- The bytes an SPDM answer carries besides what the spec lists (R442). -/
opaque spdmAnswer : Nat → Bytes → Bytes
/-- Whether a request carries a nonzero reserved field (R442): the message layouts are SPDM's own. -/
opaque spdmReserved : Nat → Bytes → Bool
/-- AES-256-GCM opening of a session record: key, record, and the plain text where the tag holds (R442). -/
opaque gcmOpen : Bytes → Bytes → Option Bytes
/-- The next value of the trust controller's DRBG (R445, R446): a 32-byte nonce or key for each draw. -/
opaque drbg : Nat → BitVec 256
/-- Which of the physical cores of a cluster that are left the part gives to its next logical core at boot (R371, R438). -/
opaque bootPick : Nat → Nat → Nat
/-- Byte `n` of a partition entry as its usher reads it, of the entry's contents in the order of R383: the spec gives the
entry no layout. -/
opaque entryByte : List Nat → Nat → Byte
/-- A value the spec does not state: the n-th one the machine has needed. -/
opaque freeValue : Nat → BitVec 64

end Sys2Proof.Config
end

