-- ==== Sys2Proof/Machine/Sparse.lean ====
section
/-! DEFINITION. Sparse stores: finite data by number, kept as a list in one canonical form, numbers strictly rising
and no entry equal to what an unlisted number reads as. Memory and every register file are held so, and equal stores
are equal lists. -/

namespace Sys2Proof.Machine

/-- Data by number: an address and its byte, a register number and its contents. -/
abbrev Store (α : Type) := List (Nat × α)

/-- The entry at `k`, or the default where none is listed. -/
def Store.get {α : Type} (dflt : α) (m : Store α) (k : Nat) : α :=
  match m with
  | [] => dflt
  | (j, v) :: r => if j = k then v else Store.get dflt r k

/-- Whether an entry is listed at `k`. -/
def Store.has {α : Type} (m : Store α) (k : Nat) : Bool :=
  match m with
  | [] => false
  | (j, _) :: r => j == k || Store.has r k

/-- The store without its entries at `k`. -/
def Store.del {α : Type} (m : Store α) (k : Nat) : Store α :=
  match m with
  | [] => []
  | (j, v) :: r => if j = k then Store.del r k else (j, v) :: Store.del r k

/-- An entry placed before the first larger number. -/
def Store.insert {α : Type} (m : Store α) (k : Nat) (v : α) : Store α :=
  match m with
  | [] => [(k, v)]
  | (j, w) :: r => if k < j then (k, v) :: (j, w) :: r else (j, w) :: Store.insert r k v

/-- Writing `v` at `k`; writing the default removes the entry. -/
def Store.put {α : Type} [DecidableEq α] (dflt : α) (m : Store α) (k : Nat) (v : α) : Store α :=
  if v = dflt then Store.del m k else Store.insert (Store.del m k) k v

/-- The canonical form: numbers rise strictly from `lo`, and no entry is the default. -/
def Store.wfFrom {α : Type} [DecidableEq α] (dflt : α) (lo : Nat) (m : Store α) : Bool :=
  match m with
  | [] => true
  | (j, v) :: r => decide (lo ≤ j) && decide (v ≠ dflt) && Store.wfFrom dflt (j + 1) r

/-- The canonical form of a store. -/
def Store.wf {α : Type} [DecidableEq α] (dflt : α) (m : Store α) : Bool := Store.wfFrom dflt 0 m

/-- The first entry of a list that satisfies a test, replaced by its image. -/
def updFirst {α : Type} (p : α → Bool) (f : α → α) : List α → List α
  | [] => []
  | x :: xs => if p x then f x :: xs else x :: updFirst p f xs

/-- The list without its first entry that satisfies a test. -/
def dropFirst {α : Type} (p : α → Bool) : List α → List α
  | [] => []
  | x :: xs => if p x then xs else x :: dropFirst p xs

/-- Entry `n` of a list replaced by its image. -/
def updAt {α : Type} (n : Nat) (f : α → α) : List α → List α
  | [] => []
  | x :: xs =>
    match n with
    | 0 => f x :: xs
    | n + 1 => x :: updAt n f xs

/-- Entry `n` of a list, or the default beyond its end. -/
def atD {α : Type} (dflt : α) (n : Nat) : List α → α
  | [] => dflt
  | x :: xs =>
    match n with
    | 0 => x
    | n + 1 => atD dflt n xs

end Sys2Proof.Machine
end

