-- ==== Sys2Proof/Machine/State.lean ====
section
/-! DEFINITION. The state of the F8: every register, queue, table, store and engine the spec names, as plain data
(02_state R49 to R80 and the rules each part cites). The stream that issues next is in focus: `State.th` is its
thread and `State.strm` its stream; the device's other threads are in `State.others`. -/

namespace Sys2Proof.Machine

/-! ## One stream -/

/-- What a parked or stalled stream waits for (R268, R146, R265). -/
inductive Park where
  | pop (port : Nat)      -- a pop from an empty queue (R53)
  | push (port : Nat)     -- a push to a full queue (R53)
  | popV (vs : Nat)       -- a chunk of an empty inbound stream, or of a popped outbound one (R177, R200)
  | pushV (vs : Nat)      -- room in a full vector stream (R178, R198)
  | drain (port : Nat)    -- QDRAIN (R145)
  | waita | bwait | vwait -- R190, R195, R196
  | held (phys : Nat)     -- a held mailbox register (R251)
  | copySlots             -- CPY with 16 copies outstanding (R204)
  | tile                  -- MTILE with an empty FIFO (R212)
  | ack                   -- GSTAT or RSTVR awaiting acknowledgement (R254, R253)
  | exit                  -- EXIT, while earlier work of its stream is unfinished (R258)
  | reply                 -- a stall on an answer of another device or of an owning core (R265, R306)
  | work                  -- a stall on the thread's own earlier work (R265, R288)
  deriving DecidableEq, Repr

/-- A loop context (R61, R134). -/
structure LoopCtx where
  body : Dword
  strip : Dword
  done : Dword
  dflag : Bool
  iflag : Bool
  stripNum : Option Nat        -- the number of the present strip where strips overlap (R273)
  deriving DecidableEq, Repr

/-- One flight of a stair: count, index, first-only and last-only issue masks (R62). -/
structure StairFlight where
  count : Nat
  index : Nat
  first : BitVec 64
  last : BitVec 64
  deriving DecidableEq, Repr

/-- An active stair (R62): the address and words of its buffer, its flights, and its stepped scalars with one stride
for each scalar at each flight. The buffer position is the stream's PC within the buffer. -/
structure Stair where
  start : Dword
  words : List Word
  flights : List StairFlight
  stepped : List Reg
  strides : List Dword
  deriving DecidableEq, Repr

/-- The configuration that STSTEP and STFLG build for the next STAIR (R139): masks by flight, last-only flag. -/
structure StairPend where
  stepped : List Reg
  masks : List ((Nat × Bool) × BitVec 64)
  deriving DecidableEq, Repr

/-- The state each stream keeps for itself (R49, R51, R60 to R62, R66, R74). -/
structure Stream where
  pc : Dword
  gpr : Store Dword            -- s1 to s103, default 0
  vl : Dword
  ftrim : Dword
  sbase : Dword
  seed : Dword
  stat : Dword
  loop : Option LoopCtx
  arm : Dword                  -- the arm limit (R132)
  fmode : BitVec 7             -- R26
  vtype : BitVec 4
  stair : Option Stair
  pend : StairPend
  link : List Dword            -- hardware link stack, newest first, at most 16
  spill : Nat                  -- spilled entries, 0 to 128
  cause : Dword
  epc : Dword
  einfo : Dword
  priv : BitVec 2
  park : Option Park
  exiting : Bool               -- EXIT waits for earlier work of its stream (R258)
  ended : Bool
  deadline : Option Dword      -- of a parked BWAIT (R195)
  object : Option Nat          -- the place of the object a parked BWAIT waits on (R194)
  freed : Option (Dword × Nat) -- a BDISS has ended the wait of the BWAIT at that PC: the PH that stood before it (R194)
  ibuf : List (Dword × Word)   -- words a peer has sent for the instruction about to issue (R393)
  popped : List (Nat × Dword)  -- what the vector instruction being issued has popped, by port, for its reissue (R277)
  late : Option (BitVec 8 × Dword)  -- a late engine fault not yet taken: cause and EINFO (R209)
  deriving DecidableEq, Repr

/-! ## One thread -/

/-- Why a thread was stopped: the reason byte of the image (R380). -/
inductive StopReason where
  | ctxsave | preempt | budget | trap | gang | repair
  deriving DecidableEq, Repr

/-- Whether a hardware slot holds a thread, and whether it runs (R275). -/
inductive ThreadStatus where
  | free | running
  | stopping (r : StopReason)
  | stopped (r : StopReason)
  deriving DecidableEq, Repr

/-- One chunk of a vector stream (R72, R91). -/
structure Chunk where
  data : VReg
  count : Nat
  fin : Bool
  trim : Bool
  whole : Bool                 -- a plane block: its pop writes the whole register (R201)
  deriving DecidableEq, Repr

/-- A vector stream: its chunks, oldest first, and the end flag of the latest one consumed (R72). -/
structure VStream where
  chunks : List Chunk
  held : Bool
  deriving DecidableEq, Repr

/-- A function register (R67): no domain when empty. -/
structure FReg where
  dom : Option (Word × Word)
  coef : List Word
  eps : Word
  est : Bool
  mono : BitVec 2
  deriving DecidableEq, Repr

/-- The race registers (R68). -/
structure Race where
  kappa : Word
  key : Dword
  base : Dword
  mode : Dword
  thr : Word
  anchor : Dword
  best : Word
  bidx : Dword
  bar : Word
  left : Word
  slo : Dword
  shi : Dword
  nlive : Word
  nexact : Word
  wterm : Dword
  rstat : Dword
  deriving DecidableEq, Repr

/-- One entry of the bound table: state byte, score bounds, logit bounds (R69). -/
structure Bound where
  st : Byte
  slo : Word
  shi : Word
  llo : Word
  lhi : Word
  deriving DecidableEq, Repr

/-- A tile with the format and plane count its identifier gave on arrival (R71). -/
structure Tile where
  fmt : Nat
  planes : Nat
  data : Bytes
  deriving DecidableEq, Repr

/-- A pending root of an aligned subtree of the canonical tree (R44, R47): it covers indices j·2^lev to
(j+1)·2^lev − 1; `low` is its lowest present index. -/
structure TreeNode where
  lev : Nat
  j : Nat
  code : Nat
  low : Nat
  deriving DecidableEq, Repr

/-- The tree register (R47, R65, R170): whether anything has been folded since it was emptied, its precision (true for
FP64), the end of the latest fold, and the pending roots in index order. -/
structure Tree where
  live : Bool
  wide : Bool
  next : Nat
  nodes : List TreeNode
  deriving DecidableEq, Repr

/-- Bits of a vector register that an instruction writes, and what they become (R149). -/
structure VWrite where
  ph : Nat                     -- physical register
  sel : VReg
  res : VReg
  deriving DecidableEq, Repr

/-- Bits of a predicate that an instruction writes, and what they become (R157 to R160). -/
structure PWrite where
  p : Nat
  sel : Mask
  res : Mask
  deriving DecidableEq, Repr

/-- What a race or function instruction leaves of the registers that only such instructions write, and of the fault
mask's DOM fields (R63, R66 to R69). -/
structure UnitWrite where
  race : Race
  bound : Store Bound
  freg : Store FReg
  kind : Mask
  dom : Option (BitVec 5)
  multi : Bool
  deriving DecidableEq, Repr

/-- What an instruction in flight does to its thread: registers, predicates, scalars of X, the tree register, the fault bits
it sets and the entry it pushes to a port (R149 to R151, R274); of a race or function instruction its registers (R219,
R231), of an accumulator read the ACS row and whether it is zeroed (R214), and whether the fault mask is emptied (R167). -/
structure Effect where
  vw : List VWrite
  pw : List PWrite
  gw : List (Nat × Dword)
  tree : Option Tree
  faults : Mask
  push : Option (Nat × Dword)
  unit : Option UnitWrite
  row : Option (Nat × Bool)
  clear : Bool
  deriving DecidableEq, Repr

/-- How a vector instruction divides and what it depends on (R151, R270, R271): whole-register or elementwise, the
elements it covers, the bits of an element of its wider operand and of its destination, the registers it reads with
the bits of their elements (0 where any group may read all of the register), the predicates it reads, whether it reads
the fault mask or the tree register or must have every earlier instruction complete first (R168), and the registers whose
chunks it sends, each with its count. -/
structure Shape where
  whole : Bool
  n : Nat
  wide : Nat
  width : Nat
  srcs : List (Nat × Nat)
  preds : List Nat
  mask : Bool
  tree : Bool
  fence : Bool
  outs : List (Nat × Nat)
  deriving DecidableEq, Repr

/-- A chunk that an instruction popped at its issue: the stream, the chunk, the end flag before it, and the register with
its contents before it (R177, R273). -/
structure Pop where
  vs : Nat
  chunk : Chunk
  held : Bool
  ph : Nat
  old : VReg
  deriving DecidableEq, Repr

/-- A vector instruction issued and not complete (R265, R270 to R274): the modal values it issued with, how it divides,
what it does, the groups that have started, how far its written prefix reaches (of a whole-register one: 0 gathering,
1 in its final pass), the chunks that wait for room in their outbound streams (R178), the overlapped strip it belongs
to with its lane group (R273), and the chunks it popped. -/
structure Flying where
  pc : Dword
  word : Word
  fmode : BitVec 7
  wbase : Nat
  gpred : Reg
  x : Stream                   -- the X stream at its issue
  shape : Shape
  eff : Effect
  started : BitVec 16
  written : Nat
  out : List (Nat × Chunk)
  strip : Nat                  -- 0 for the oldest strip and for whatever is in no overlapped loop
  lane : Option Nat
  pops : List Pop
  deriving DecidableEq, Repr

/-- A resume-table entry with the modal values it issued with (R64, R277, R380), and beside the table the X stream as
the instruction found it, so that a reissue reads the same grant and scalars (R277). -/
structure Resume where
  pc : Dword
  start : Nat
  fmode : BitVec 7
  wbase : Nat
  gpred : Reg
  x : Stream
  waits : Option Flying        -- the instruction itself where only its chunks wait for room (R178)
  deriving DecidableEq, Repr

/-- A strip in flight above the oldest one (R273): its number, and the X stream as it began. -/
structure Strip where
  num : Nat
  x : Stream
  push : Option (Nat × Dword)  -- what the SMB before it pushes to a port once the strips before are committed (R273)
  deriving DecidableEq, Repr

/-- An MROW in the row queue of the matrix engine (R290): the thread's ACS row; its effect is already in the row. -/
structure RowJob where
  lcore : Nat
  slot : Nat
  row : Nat
  deriving DecidableEq, Repr

/-- A hold on a mailbox register (R251). -/
structure Hold where
  count : Nat
  left : Nat
  deriving DecidableEq, Repr

/-- A copy that an engine has accepted (R204 to R209, R286): its descriptor and the identifier records read at issue,
its engine, how many elements have moved, and what it has fetched and gathered. -/
structure Copy where
  word : Word                  -- the instruction's
  desc : Bytes
  srcTid : Bytes
  dstTid : Bytes
  engine : Nat
  order : Nat
  moved : Nat
  total : Nat
  region : Nat                 -- its transfer region (R292)
  fetched : List (Nat × Bytes) -- bytes a peer has sent for the present piece, by VA
  lock : List (Nat × Nat)      -- peer and address of pieces it is combining there (R287)
  tile : Bytes                 -- the tile gathered (kind 2)
  mcword : Dword               -- MCWORD at its issue (R412)
  sat : Bool                   -- fmode.SAT at its issue, for sums of OFP8 elements (R28, R37)
  deriving DecidableEq, Repr

/-- A stream transfer issued and not complete (R197 to R203): the stream its chunk enters, if any. -/
structure Xfer where
  vs : Option Nat
  chunk : Chunk
  region : Nat
  keep : VReg                  -- the bits of its chunk that bytes from a peer fill: all but those beyond an NI8 tensor (R201)
  deriving DecidableEq, Repr

/-- A gate of a state-vector command (R242): kind, logical targets, control mask and values, and the codes of its
matrix, real and imaginary parts in turn. -/
structure SvGate where
  kind : Nat
  t0 : Nat
  t1 : Nat
  cmask : Nat
  cvals : Nat
  mat : List Nat
  deriving DecidableEq, Repr

/-- A state-vector command accepted and not complete (R240 to R245): the operation, the state record's VA and its bytes
as last read, the participants, the gates, the completion word and value, SVPROB's result VA, what peers have sent for the
pass, by step, the fmode it issued with, and how far it has come: 0 to do its pass, 1 to write the map it leaves, 2 to write
its completion word. -/
structure SvCmd where
  op : Nat
  recVa : Nat
  recBytes : Bytes
  parts : List Nat
  gates : List SvGate
  done : Nat
  value : Nat
  result : Nat
  region : Nat
  got : List (Nat × Bytes)
  mcword : Dword               -- MCWORD at its issue (R412)
  fmode : BitVec 7
  phase : Nat
  newMap : Nat
  deriving DecidableEq, Repr

/-- A hardware thread slot and everything that belongs to the thread placed in it (R49 to R74). -/
structure Thread where
  lcore : Nat
  slot : Nat
  status : ThreadStatus
  part : Nat
  serial : Nat
  index : Nat
  a : Stream
  x : Stream
  areg : Store Dword           -- a0 to a31, default 0 (R55)
  stride : Store Dword
  scope : BitVec 5
  segBase : Nat
  segSize : Nat
  wbase : Nat                  -- in units of 8 registers (R56)
  vreg : Store VReg            -- by physical register of the segment, default 0
  pred : Store Mask            -- p1 to p95, default 0 (R59)
  gpred : Reg
  fmask : Mask                 -- the fault mask and its kind bits (R63)
  kind : Mask
  dom : Option (BitVec 5)
  multi : Bool
  resume : List Resume
  startIdx : Option Nat        -- of the instruction being reissued after a stop (R151, R277)
  flying : List Flying         -- oldest first, at most 8
  strips : List Strip          -- overlapped strips above the oldest, oldest first (R273)
  tree : Tree
  tol : Word
  freg : Store FReg
  coefQuota : Nat
  race : Race
  bound : Store Bound
  boundSize : Nat
  acs : Store AcsRow
  acsBase : Nat                -- where the rows and entries stand in the core's stores (R448)
  acsSize : Nat
  boundBase : Nat
  fifo0 : List Tile
  fifo1 : List Tile
  slot0 : Option Tile
  slot1 : Option Tile
  fill0 : Bool                 -- the slot's fill has not finished (R279)
  fill1 : Bool
  minv : Bool                  -- MSTAT (R216)
  movf : Bool
  miovf : Bool
  mseq : Nat
  q : Store (List Dword)       -- q0 to q11, qb, qc by scalar number, oldest first, default empty (R72)
  vs : Store VStream           -- vs0 to vs11
  bind : Store Nat             -- physical register to bound stream (R57, R176)
  mbox : Store Nat             -- mailbox index to physical register (R249)
  hold : Store Hold            -- physical register to hold counter (R251)
  gout : Nat                   -- GSTAT counts (R254)
  gok : Nat
  gnack : Nat
  gcause : Nat
  grep : Option Nat            -- the answer to an RSTVR: none outstanding, or its NACK cause, 0 for acknowledged
  estream : Dword
  eresume : Dword
  tvec : Dword
  mcword : Dword
  spilla : Dword
  spillx : Dword
  alcBase : Nat
  alcSize : Nat
  regions : Nat                -- regions begun, transfers begun (R292, R303)
  transfers : Nat
  copies : List Copy
  xfers : List Xfer
  svcmds : List SvCmd
  budget : Nat                 -- the launch's budget, 0 for none
  consumed : Nat
  leftGroup : Bool             -- has itself issued LEAVE on the auto-join object (R372)
  firstRow : Option Nat        -- first MROW since the last passed self-test (R420)
  intg : Option Nat            -- INTG pending, with its EINFO
  devErr : List (Strm × Dword) -- DEVERR pending for a stream (R418)
  confirm : List (Nat × Bool)  -- sectors whose owning core was asked about a conflict, and whether it answered (R306)
  savedClock : Dword
  polled : List (Nat × Bytes)  -- peers' answers to reads an instruction makes before it issues: VA and bytes
  deriving DecidableEq, Repr

/-! ## Launches and partitions -/

/-- A launch record (R363). -/
structure LaunchRec where
  aentry : Nat
  xentry : Nat
  dies : Nat
  clusters : Nat
  cores : Nat
  threads : Nat
  vseg : Nat
  acs : Nat
  alcove : Nat
  hall : Nat
  atrium : Nat
  coef : Nat
  bound : Nat
  stage : Nat
  prio : Nat
  dep : Nat
  depval : Nat
  done : Nat
  doneval : Nat
  budget : Nat
  flags : Nat
  group : Nat
  args : Nat
  digLo : Dword
  digHi : Dword
  deriving DecidableEq, Repr

/-- A record in a launch queue: the clocks it has been at the head, and whether its dependency word was found
satisfied (R366, R367). -/
structure Queued where
  record : LaunchRec
  waited : Nat
  ready : Bool
  deriving DecidableEq, Repr

/-- A launch that has been dispatched (R368 to R372); it is kept after its end until its serial is used again, so
that DIGCHK can answer (R423). -/
structure Launch where
  serial : Nat
  part : Nat
  record : LaunchRec
  d0 : Nat
  c0 : Nat
  k0 : Nat
  hallOff : Nat
  atriumOff : Nat
  stageOffs : List (Nat × Nat) -- the staging reservation in each hall: cluster and offset (R369, R378)
  live : Nat
  digLo : Dword
  digHi : Dword
  ushered : Bool               -- a thread was ended by the usher (R375)
  ended : Bool
  leavers : List Nat           -- thread indices that issued LEAVE themselves (R372)
  members : List Nat           -- its thread IDs, by index
  alcoves : List (Nat × Nat)   -- core and offset of each thread's alcove reservation, by index (R283)
  codeEnd : Option Nat         -- the end of its code image, as the header said when it began (R365)
  deriving DecidableEq, Repr

/-- A record staged ahead of its cores (R378): its queue and origin, and its staging reservation. -/
structure Staged where
  record : LaunchRec
  queue : Nat
  d0 : Nat
  c0 : Nat
  k0 : Nat
  stageOffs : List (Nat × Nat)
  deriving DecidableEq, Repr

/-- A notice for the usher (R374): the thread it is about and what the trap registers receive. -/
structure Notice where
  tid : Nat
  cause : Dword
  epc : Dword
  einfo : Dword
  estream : Dword
  eresume : Dword
  deriving DecidableEq, Repr

/-- A debug policy in force (R446, R447). -/
structure DebugPolicy where
  counters : Bool
  trace : Bool
  images : Bool
  expiry : Nat                 -- IEEE 1588 seconds
  ends : Nat                   -- the clock counter at expiry (log 53)
  deriving DecidableEq, Repr

/-- The state of a partition (R383), and of the TDISP interface of its virtual function (R443). -/
inductive PartState where
  | free | open_ | locked | run | dissolving
  deriving DecidableEq, Repr

/-- One partition: its entry (R383), queues (R366), identifiers (R73), scope table (R301) and system registers. -/
structure Partition where
  state : PartState
  vf : Nat
  rects : List Rect            -- its core set
  cores : List Nat             -- the logical cores of it
  windows : List (Nat × Nat)   -- base and size
  xts : Option (BitVec 256 × BitVec 256)  -- its memory key pair (R445)
  entryVa : Nat
  gallery : Nat
  remapVa : Nat
  ctxBase : Nat
  ctxSlot : Nat
  usherCore : Nat
  usherSlot : Nat
  usherVa : Nat
  tvec : Nat
  nameBase : Nat
  nameCount : Nat
  debugHash : Option (BitVec 256)
  policy : Option DebugPolicy
  queues : Store (List Queued) -- 16 launch queues, oldest first, default empty
  lastServed : Nat
  staged : Option Staged
  tids : Store Bytes           -- tensor identifier records; unlisted is 32 zero bytes
  scopeVa : Dword              -- SCOPETAB
  scopes : Store (BitVec 512)  -- programmed entries (R301)
  notices : List Notice
  handling : Option Notice
  dig0 : Dword                 -- DIG0 and DIG1 as DIGCHK has loaded them (R263)
  dig1 : Dword
  digRef0 : Dword
  digRef1 : Dword
  trace : Dword                -- TRACEBUF
  switchedOut : Bool           -- not in its gang slice (R386 to R388)
  gang : Nat                   -- gang id, 0 for none
  usherUp : Bool               -- its usher has been started (R443)
  invHead : Nat                -- requests retired and requests seen of the invalidation ring (R396)
  invTail : Nat
  msix : List Nat              -- vectors raised
  deriving DecidableEq, Repr

/-- A gang's schedule on this device (R386): the period, the epoch, and up to 16 slices, each an offset and a partition;
all times in ticks of the clock counter (log 53). -/
structure GangSched where
  period : Nat
  epoch : Nat
  slices : List (Nat × Nat)
  deriving DecidableEq, Repr

/-! ## The device -/

/-- A core: matrix integrity (R419 to R421), power, counters. -/
structure CoreSt where
  mrows : Nat
  fenced : BitVec 12
  spareUsed : Bool
  degraded : Bool
  testDue : Bool
  accepted : Nat               -- copies accepted so far (R286)
  deriving DecidableEq, Repr

/-- A recorded sector of the RACE axiom (R292, R304 to R307): one reader or writer is (serial, thread index,
transfer region, region number). -/
structure Stamp where
  writer : Option (Nat × Nat × Bool × Nat)
  readers : List (Nat × Nat × Bool × Nat)
  lapse : Bool
  used : Nat                   -- order of last use (R293)
  deriving DecidableEq, Repr

/-- The execution site of an atrium or main-memory line (R289): the lease (die, cycle of its last atomic), far or
near, and recent atomics (core, cycle), latest first. -/
structure LineSite where
  far : Bool
  lease : Option (Nat × Nat)
  recent : List (Nat × Nat)
  deriving DecidableEq, Repr

/-- A TLB entry: partition, page, leaf as read, the physical page it gives, where the leaf stands, and the accesses
left of a MIGRATE page (R390, R395, R397). -/
structure TlbEntry where
  part : Nat
  vpage : Nat                  -- VA >> 16
  leaf : Dword
  pa : Nat
  entryPa : Nat
  acnt : Nat
  deriving DecidableEq, Repr

/-- A pod group-name slot (R247, R248, R404). -/
structure NameSlot where
  gen : Nat
  object : Option (Nat × Nat)  -- partition and VA of the group object
  leader : Option Nat          -- the thread ID that receives
  forward : Option (Nat × Nat) -- name to forward to, and the clock at which forwarding ends
  deriving DecidableEq, Repr

/-- A remote register store on its way (R252 to R255, R403). -/
structure RStore where
  id : Nat
  src : Option Nat             -- sending thread's ID; none from another device
  part : Option Nat            -- the sender's partition; none from another device
  key : Nat
  name : Word
  mailbox : Nat
  offset : Nat                 -- first byte in the mailbox register
  data : Bytes
  waits : Bool                 -- RSTVR: the sender is parked for its answer
  sent : Nat                   -- clock of issue
  acc : Nat                    -- the sender's accelerator ID
  station : Nat                -- the station it leaves on, where it leaves (R399)
  peerId : Nat                 -- its identity at the other device it comes from (R410)
  deriving DecidableEq, Repr

/-- The answer to a remote register store on its way back (R254): 0 acknowledges, else the NACK cause. -/
structure RAnswer where
  id : Nat
  src : Nat
  waits : Bool
  cause : Nat
  deriving DecidableEq, Repr

/-- What a fabric request of this device is for (R398, R402, R405). -/
inductive ReqKind where
  | load
  | atomic (op : RmwOp) (expect : Option Nat) (edge edgeFailed : Bool)  -- with the region boundary still due (R183, R188)
  | store (quiet : Bool)       -- quiet where no digest counts it (R422)
  | poll                       -- bytes an instruction reads before it can issue
  | ifetch (q : Strm)          -- an instruction word
  | fetch (region off n : Nat) -- source bytes of an engine transfer
  | deliver (region : Nat) (quiet : Bool)  -- bytes an engine transfer writes; quiet where no digest counts them (R422)
  | word (region : Nat)        -- the completion word of an engine transfer
  | fill (migrate : Bool)      -- the 64 KiB of a page for its frame (R394, R395)
  | multicast (region : Nat) (word : Dword) (copies : List (Nat × Nat)) (ok nacks : Nat) (first : Option (Nat × Nat))
      -- with MCWORD at issue, and peer and station of each copy without its answer
  | mcword (put : Bool) (todo : List (Nat × Nat × Option (Nat × Nat)))  -- a record at a peer: read, or written
  | red (region : Nat) (m : RedMsg)
  | gmove (key : Nat) (spec : Dword)  -- the name a group moved to another device takes there (R248)
  | forward (name dest : Nat)    -- a name's device told that the group has moved away (R248)
  | host (vf : Nat) (op : RmwOp) (expect : Option Nat)  -- a host's AtomicOp on a peer's page (R393)
  | done (serial va : Nat)     -- a launch's completion word (R372)
  | device (op : Option RmwOp)  -- another write of the device itself, or an atomic operation
  deriving DecidableEq, Repr

/-- An answer this device gave to a peer's request (R401): the peer, the request's identity there, 0 or the NACK cause,
and the bytes. A request that comes again is answered from it (R410). -/
structure FabAnswer where
  peer : Nat
  id : Nat
  cause : Nat
  data : Bytes
  deriving DecidableEq, Repr

/-- A fabric request without its answer (R399 to R401): its identity, whose it is, the job key it carries, and what it
popped, which a precise trap returns (R115, R402). -/
structure FabReq where
  id : Nat
  part : Nat
  lcore : Nat
  slot : Nat
  serial : Nat
  index : Nat
  key : Nat
  kind : ReqKind
  peer : Nat
  va : Nat
  pa : Nat
  data : Bytes
  dst : Option Reg
  popped : List (Nat × Dword)
  issued : Nat
  station : Nat
  sc : Bool                    -- an SC store (R299)
  deriving DecidableEq, Repr

/-- A reduction round at the home (R408, R409): contributions by index, the clock of the first one, and for an
unordered page the running line. -/
structure RedRound where
  part : Nat
  pa : Nat
  ridx : Nat
  ordered : Bool
  got : List (Nat × Bytes)
  since : Nat
  deriving DecidableEq, Repr

/-- A replica frame in use (R394), or a frame a migration took (R395). -/
structure Frame where
  part : Nat
  vpage : Nat
  pa : Nat
  used : Nat                   -- order of last use
  filled : Bool
  migrate : Bool
  failed : Option Nat          -- the NACK cause of its fill (R402)
  deriving DecidableEq, Repr

/-- A power state (R427). -/
inductive Power where
  | a0 | a1 | a2 | i1 | i2 | i3 | i4
  deriving DecidableEq, Repr

/-- An SPDM session of one function (R442). -/
structure Session where
  id : Nat
  secret : Bytes
  established : Bool
  deriving DecidableEq, Repr

/-- The SPDM responder of one function (R442): how far negotiation has come, and its sessions. -/
structure Spdm where
  stage : Nat                  -- 0 nothing, 1 version, 2 capabilities, 3 algorithms agreed
  sessions : List Session
  nextId : Nat
  answers : List Bytes         -- responses not yet read by the host, oldest first
  deriving DecidableEq, Repr

/-- A completer abort or other refusal the device logged toward the host (R393, R444). -/
inductive HostLog where
  | abort (vf : Nat)
  | served (vf : Nat) (data : Bytes)
  deriving DecidableEq, Repr

/-- The trust controller (R435 to R447). -/
structure Trust where
  fail : Nat
  stage : Nat
  recov : Bool
  ready : Bool
  svnFused : Nat
  svnForce : Nat
  svnMirori : Nat
  svnUsher : Nat
  armed : Bool
  recovered : List Bytes       -- images accepted in recovery, in flash (R439)
  identity : Bytes             -- the device identity key, private part (R440)
  aliasCert : Bytes            -- the certificate of slot 1 (R440)
  ide : Store Bytes            -- keys of the IDE streams: 0 the link stream, n + 1 the selective one of virtual function n (R444)
  usherHash : BitVec 256
  meas : Store (BitVec 256)    -- measurement indices 1 to 6 and 16 to 31
  draws : Nat
  nonce : Option (BitVec 256)
  spdm : Store Spdm            -- by function: 0 the physical function, n + 1 virtual function n
  deriving DecidableEq, Repr

/-- The health block (R415, R426, R431). -/
structure Health where
  stlog : Nat
  wearThr : Nat
  uce : Nat
  ce : Nat
  wear : Store (BitVec 64)     -- die to WEAR, default MONTHS 0xFFFF
  latTol : Nat
  cap : Nat
  power : Power
  hot : Nat                    -- A-states lost to die temperature (R428)
  msixPf : List Nat
  retired : List Nat           -- degraded physical cores, not used again until reset (R421)
  deriving DecidableEq, Repr

/-- What happens next: the model's schedule. The device's agents act in any order the spec allows; a state's agenda
says in which (log 2). -/
inductive Turn where
  | issue (lcore slot : Nat) (q : Strm)  -- that stream issues one instruction
  | event (i : Instr)                    -- one of the device's own events
  | time (n : Nat)                       -- the clock counter advances by n
  | poison (pa : Nat)                    -- an 8-byte unit goes bad (R416)
  | corrected (lcore part : Nat)         -- a single-bit error is corrected; part 16 and above: in no core's SRAM (R416)
  | rstore (r : RStore)                  -- a remote register store comes in from another device (R403)
  | gmoveIn (src id key name tid : Nat)  -- a peer moves the leadership of a group of that name to a thread here (R248)
  | gforward (src id key name dest : Nat)  -- a peer has moved a group away whose name is a slot of this device (R248)
  | gang (g : Nat) (sched : GangSched)   -- the management port sets a gang's schedule (R386)
  | request (fn : Nat) (m : SpdmMsg)     -- an SPDM request comes that the F8 does not support (R442)
  deriving DecidableEq, Repr

/-- The whole device. -/
structure State where
  th : Thread
  strm : Strm
  others : List Thread
  agenda : List Turn
  beat : Bool                  -- the default order's turn: true for an event, false for an issue
  clock : Dword
  cycles : Nat                 -- cycles of the arithmetic clock since reset (R2)
  mem : List Host.Cell         -- main memory and the on-chip stores, by place
  uce : List Nat               -- 8-byte units that hold an uncorrectable error
  parts : Store Partition
  gangs : Store GangSched      -- by gang id
  launches : List Launch
  lastSerial : Nat
  names : Store NameSlot
  sites : Store LineSite
  stamps : Store Stamp         -- by launch serial × 2^52 + place of the sector
  stampUse : Nat               -- orders the uses of stamps and of replica frames (R293, R394)
  tlb : List TlbEntry
  frames : List Frame
  reqs : List FabReq
  nextReq : Nat
  sent : List FabAnswer        -- answers given to peers, oldest first
  drawn : Nat                  -- free values taken so far: the model's own field (log 5)
  rstores : List RStore
  ranswers : List RAnswer
  rounds : List RedRound
  flushed : Store (List Nat)   -- by line: indices of the latest flushed mask not yet late (R409)
  failedLinks : List Nat
  cores : Store CoreSt
  counters : Store Dword       -- (core × 16 + partition) × 256 + counter
  rowq : List RowJob
  remap : Store (BitVec 16)
  shareTurn : Store Nat        -- physical core to the logical core whose time slice runs (R371)
  serTurn : Store Nat          -- logical core to the slot that holds the issue in a SER launch (R424)
  laneTurn : Store Nat         -- logical core × 4 + lane group to the slot it served last, default 3 (R271)
  health : Health
  trust : Trust
  hostLog : List HostLog
  deriving DecidableEq, Repr

/-! ## How a step can stop the machine -/

/-- The reasons a step can end the run. The F8 has none: every word, every access and every event has an outcome the
spec gives (R102 for words, R179 for addresses), so this type is empty and no statement can hide behind a fault. -/
inductive Fault where
  deriving DecidableEq, Repr

/-- The reasons a step can be refused. -/
inductive Refusal where
  /-- Raised by an arm of `exec` whose instruction has no meaning yet; safe: nothing is claimed of it. -/
  | notModelled (mnemonic : String)
  deriving DecidableEq, Repr

/-! ## Reset -/

/-- A stream as a launch finds it (R51, R60 to R62, R66): everything 0 but ftrim, the arm limit, fmode.SAT and
vtype; CAUSE, EPC and EINFO have no reset value in the spec and read 0 (log 3). -/
def Stream.reset : Stream where
  pc := 0
  gpr := []
  vl := 0
  ftrim := BitVec.allOnes 64
  sbase := 0
  seed := 0
  stat := 0
  loop := none
  arm := BitVec.allOnes 64
  fmode := 0x40
  vtype := 10
  stair := none
  pend := ⟨[], []⟩
  link := []
  spill := 0
  cause := 0
  epc := 0
  einfo := 0
  priv := 0
  park := none
  exiting := false
  ended := false
  deadline := none
  object := none
  freed := none
  ibuf := []
  popped := []
  late := none

/-- An empty function register (R67). -/
def FReg.empty : FReg := ⟨none, [], 0, false, 0⟩

/-- The race registers at entry (R68). -/
def Race.reset : Race := ⟨0, 0, 0, 0, 0, 0, 0, 0, 0, 0, 0, 0, 0, 0, 0, 0⟩

/-- A bound-table entry at entry: LIVE, all bounds +0 (R69). -/
def Bound.reset : Bound := ⟨0, 0, 0, 0, 0⟩

/-- An empty vector stream (R72). -/
def VStream.empty : VStream := ⟨[], false⟩

/-- The empty tree register (R65). -/
def Tree.empty : Tree := ⟨false, false, 0, []⟩

/-- A hardware slot with no thread: every register as a launch would find it (R51 to R72); the system registers
without a reset value in the spec read 0 (log 3). -/
def Thread.reset (lcore slot : Nat) : Thread where
  lcore := lcore
  slot := slot
  status := .free
  part := 0
  serial := 0
  index := 0
  a := Stream.reset
  x := Stream.reset
  areg := []
  stride := []
  scope := 5
  segBase := 0
  segSize := 32
  wbase := 0
  vreg := []
  pred := []
  gpred := 0
  fmask := 0
  kind := 0
  dom := none
  multi := false
  resume := []
  startIdx := none
  flying := []
  strips := []
  tree := Tree.empty
  tol := 0x33800000
  freg := []
  coefQuota := 0
  race := Race.reset
  bound := []
  boundSize := 0
  acs := []
  acsBase := 0
  acsSize := 0
  boundBase := 0
  fifo0 := []
  fifo1 := []
  slot0 := none
  slot1 := none
  fill0 := false
  fill1 := false
  minv := false
  movf := false
  miovf := false
  mseq := 0
  q := []
  vs := []
  bind := []
  mbox := []
  hold := []
  gout := 0
  gok := 0
  gnack := 0
  gcause := 0
  grep := none
  estream := 0
  eresume := 0
  tvec := 0
  mcword := 0
  spilla := 0
  spillx := 0
  alcBase := 0
  alcSize := 0
  regions := 0
  transfers := 0
  copies := []
  xfers := []
  svcmds := []
  budget := 0
  consumed := 0
  leftGroup := false
  firstRow := none
  intg := none
  devErr := []
  confirm := []
  savedClock := 0
  polled := []

/-- A partition number that no partition holds (R383). -/
def Partition.reset : Partition where
  state := .free
  vf := 0
  rects := []
  cores := []
  windows := []
  xts := none
  entryVa := 0
  gallery := 0
  remapVa := 0
  ctxBase := 0
  ctxSlot := 0
  usherCore := 0
  usherSlot := 0
  usherVa := 0
  tvec := 0
  nameBase := 0
  nameCount := 0
  debugHash := none
  policy := none
  queues := []
  lastServed := 15
  staged := none
  tids := []
  scopeVa := 0
  scopes := []
  notices := []
  handling := none
  dig0 := 0
  dig1 := 0
  digRef0 := 0
  digRef1 := 0
  trace := 0
  switchedOut := false
  gang := 0
  usherUp := false
  invHead := 0
  invTail := 0
  msix := []

/-- No schedule (R386). -/
def GangSched.reset : GangSched := ⟨0, 0, []⟩

/-- A core right after reset: no MROW counted, nothing fenced (R419 to R421). -/
def CoreSt.reset : CoreSt := ⟨0, 0, false, false, false, 0⟩

/-- A sector with no access recorded (R292). -/
def Stamp.reset : Stamp := ⟨none, [], false, 0⟩

/-- An untracked line: near, no lease (R289). -/
def LineSite.reset : LineSite := ⟨false, none, []⟩

/-- An unbound group-name slot; the first GNAME gives generation 1 (R250). -/
def NameSlot.reset : NameSlot := ⟨0, none, none, none⟩

/-- An SPDM responder no request has reached (R442). -/
def Spdm.reset : Spdm := ⟨0, [], 1, []⟩

/-- The health block at reset (R415, R426, R427, R431). -/
def Health.reset : Health where
  stlog := 16
  wearThr := 24
  uce := 0
  ce := 0
  wear := []
  latTol := 0
  cap := 0
  power := .a0
  hot := 0
  msixPf := []
  retired := []

/-- WEAR at reset: MONTHS 0xFFFF, all else 0 (R426). -/
def wearReset : BitVec 64 := 0xFFFF

/-- The trust controller at power-on, before its first stage (R435, R438): every field of TSTAT 0. -/
def Trust.reset : Trust where
  fail := 0
  stage := 0
  recov := false
  ready := false
  svnFused := 0
  svnForce := 0
  svnMirori := 0
  svnUsher := 0
  armed := false
  recovered := []
  identity := []
  aliasCert := []
  ide := []
  usherHash := 0
  meas := []
  draws := 0
  nonce := none
  spdm := []

/-- The device right after power-on reset: no partition, no launch, every slot free, main memory 0 (R438), the clock
at 0 (R54). No program is placed: log 6 says how one comes to run. -/
def State.reset : State where
  th := Thread.reset 0 0
  strm := .a
  others := []
  agenda := []
  beat := false
  clock := 0
  cycles := 0
  mem := []
  uce := []
  parts := []
  gangs := []
  launches := []
  lastSerial := 0
  names := []
  sites := []
  stamps := []
  stampUse := 0
  tlb := []
  frames := []
  reqs := []
  nextReq := 0
  sent := []
  drawn := 0
  rstores := []
  ranswers := []
  rounds := []
  flushed := []
  failedLinks := []
  cores := []
  counters := []
  rowq := []
  remap := []
  shareTurn := []
  serTurn := []
  laneTurn := []
  health := Health.reset
  trust := Trust.reset
  hostLog := []

end Sys2Proof.Machine
end

