-- ==== Sys2Proof/Machine/Mem.lean ====
section
/-! DEFINITION. Memory and translation: the bytes of every store by place (R280, R389), uncorrectable errors (R416,
R417), the page-table walk (R390 to R393), the event log (R409) and the trace ring (R77). -/

namespace Sys2Proof.Machine

/-! ## Places

One byte of the device is one natural number: main memory at its physical address, and the on-chip stores above
2^48, each by its logical owner (R281), so that nothing depends on where the remap table has placed a core. -/

/-- The place of an offset in the alcove of a logical core. -/
def alcoveAt (lcore off : Nat) : Nat := 2 ^ 48 + lcore * 2 ^ 21 + off
/-- The place of an offset in the hall of a cluster, counted over the device (6 to a die). -/
def hallAt (cluster off : Nat) : Nat := 2 ^ 49 + cluster * 2 ^ 24 + off
/-- The place of an offset in the atrium of a die. -/
def atriumAt (die off : Nat) : Nat := 2 ^ 50 + die * 2 ^ 26 + off
/-- Whether a place is in main memory. -/
def isMain (k : Nat) : Bool := decide (k < 2 ^ 41)
/-- The bytes of one sector of the store a place lies in (R288, R292). -/
def sectorSize (k : Nat) : Nat := if isMain k then 64 else 16

/-- What a byte of memory that nothing has written reads as: main memory is cleared at boot (R438), and every byte of
a reservation reads 0 at entry (R284). -/
def unlistedByte : Byte := 0

/-- The canonical form of memory: addresses strictly rising, no entry equal to what an unlisted address reads as. -/
def Memory.wf (m : List Host.Cell) : Bool := Store.wf unlistedByte m

/-- The byte at a place. -/
def readByte (s : State) (k : Nat) : Byte := Store.get unlistedByte s.mem k

/-- The `n` bytes from a place upward. -/
def readBytes (s : State) : Nat → Nat → Bytes
  | _, 0 => []
  | k, n + 1 => readByte s k :: readBytes s (k + 1) n

/-- The little-endian value of `n` bytes at a place (R7). -/
def readLE (s : State) (k n : Nat) : Nat := leNat (readBytes s k n)

/-- A list of bytes written into memory from a place upward. -/
def putBytes (m : List Host.Cell) : Nat → Bytes → List Host.Cell
  | _, [] => m
  | k, b :: bs => putBytes (Store.put unlistedByte m k b) (k + 1) bs

/-- A write from a place upward. A unit written whole loses its uncorrectable error (R417). -/
def writeBytes (s : State) (k : Nat) (bs : Bytes) : State :=
  { s with
    mem := putBytes s.mem k bs
    uce := s.uce.filter fun u => !(k ≤ 8 * u && 8 * u + 8 ≤ k + bs.length) }

/-- A little-endian value of `n` bytes written at a place. -/
def writeLE (s : State) (k n v : Nat) : State := writeBytes s k (leBytes n v)

/-- A run of places set to 0 (R385, R284). -/
def zeroRange (s : State) (k n : Nat) : State :=
  { s with
    mem := s.mem.filter fun c => !(k ≤ c.1 && c.1 < k + n)
    uce := s.uce.filter fun u => !(k ≤ 8 * u && 8 * u < k + n) }

/-- Whether some 8-byte unit of a run holds an uncorrectable error (R417). -/
def badUnit (s : State) (k n : Nat) : Bool := s.uce.any fun u => 8 * u < k + n && k < 8 * u + 8

/-- Whether a write of `n` bytes would merge into a unit that holds an uncorrectable error (R417). -/
def badMerge (s : State) (k n : Nat) : Bool :=
  s.uce.any fun u => 8 * u < k + n && k < 8 * u + 8 && !(k ≤ 8 * u && 8 * u + 8 ≤ k + n)

/-! ## Partitions and threads -/

/-- A partition by its number. -/
def getPart (s : State) (p : Nat) : Partition := Store.get Partition.reset s.parts p
/-- A partition changed. -/
def updPart (s : State) (p : Nat) (f : Partition → Partition) : State :=
  { s with parts := Store.put Partition.reset s.parts p (f (getPart s p)) }
/-- The base of the partition's translation block: its first window (R389). -/
def blockBase (p : Partition) : Nat := (atD (0, 0) 0 p.windows).1

/-- The parts of a translation block that software writes, by offset, each with its end: ROOT, POOL and INVTAIL, the
membership table, the invalidation ring, the reduction table and the multicast groups (R389). -/
def softRanges : List (Nat × Nat) :=
  [(0, 8), (0x10, 0x28), (0x100, 0x500), (0x1000, 0x3000), (0x4000, 0x6000), (0x10000, 0x20000)]

/-- Whether a place lies in the partition's translation block outside what software writes: fields of firmware and of the
F8, and reserved bytes, which are 0 (R389). -/
def blockField (p : Partition) (k : Nat) : Bool :=
  let o := k - blockBase p
  blockBase p ≤ k && o < 0x40000 && !softRanges.any fun r => r.1 ≤ o && o < r.2

/-- A write by software to main memory: in the translation block, what software does not write keeps its content (R389).
A unit written whole loses its uncorrectable error (R417). -/
def softWrite (s : State) (p : Partition) (k : Nat) (bs : Bytes) : State :=
  if k < blockBase p + 0x40000 && blockBase p < k + bs.length then
    { bs.zipIdx.foldl (fun s b => if blockField p (k + b.2) then s else writeBytes s (k + b.2) [b.1]) s with
      uce := s.uce.filter fun u => !(k ≤ 8 * u && 8 * u + 8 ≤ k + bs.length &&
        (List.range 8).all fun j => !blockField p (8 * u + j)) }
  else writeBytes s k bs

/-- The physical cores of a cluster of nine in the order in which its logical cores take them at boot, each out of those
that are left (R371). -/
def bootOrder (cluster : Nat) : Nat → List Nat → List Nat
  | 0, _ => []
  | n + 1, left =>
    let p := atD 0 (Config.bootPick cluster n % left.length) left
    p :: bootOrder cluster n (left.erase p)

/-- The physical core that serves a logical core at boot: one of its cluster, and so of its die (R371, R432). -/
def bootCore (lc : Nat) : Nat := lc / 8 * 9 + atD 0 (lc % 8) (bootOrder (lc / 8) 8 (List.range 9))

/-- A logical core's remap entry at boot: V set, and its physical core (R371). -/
def bootEntry (lc : Nat) : BitVec 16 := 0x8000 ||| BitVec.ofNat 16 (bootCore lc)

/-- A logical core's remap entry (R371). -/
def remapOf (s : State) (lc : Nat) : BitVec 16 := Store.get (bootEntry lc) s.remap lc

/-- The logical cores a physical core serves by turns, in ascending order (R371, R421). -/
def sharers (s : State) (phys : Nat) : List Nat :=
  (List.range 384).filter fun lc => let e := remapOf s lc; e.getLsbD 15 && e.getLsbD 14 && e.toNat % 512 == phys

/-- The core under whose number the matrix engine of a logical core is kept (R419 to R421): its own, or of those that
share a physical core the lowest. -/
def engineCore (s : State) (lc : Nat) : Nat :=
  if Store.has s.remap lc && (Store.get 0 s.remap lc).getLsbD 14 then
    ((sharers s ((remapOf s lc).toNat % 512)).head?).getD lc
  else lc

/-- Every thread of the device that a slot holds, the one in focus first. -/
def allThreads (s : State) : List Thread := s.th :: s.others
/-- Whether a thread occupies its slot: a stopped thread of a switched-out partition does not, for another partition may
run there (R384, R387). -/
def occupies (s : State) (t : Thread) : Bool :=
  match t.status with
  | .free => false
  | .stopped _ => !(getPart s t.part).switchedOut
  | _ => true
/-- Every thread changed. -/
def mapThreads (s : State) (f : Thread → Thread) : State := { s with th := f s.th, others := s.others.map f }
/-- Whether a thread is its partition's usher (R373). -/
def isUsher (s : State) (t : Thread) : Bool :=
  let p := getPart s t.part
  p.state == .run && p.usherCore == t.lcore && p.usherSlot == t.slot && t.serial == 0

/-- What a partition entry says, in the order of R383. A partition whose interface runs is locked (R443). -/
def entryFields (s : State) (pn : Nat) : List Nat :=
  let p := getPart s pn
  let g := Store.get GangSched.reset s.gangs p.gang
  [pn, match p.state with
    | .free => 0
    | .open_ => 1
    | .locked | .run => 2
    | .dissolving => 3] ++
  (p.rects.flatMap fun r => [r.d0, r.c0, r.k0, r.dies, r.clusters, r.cores]) ++ (p.windows.flatMap fun w => [w.1, w.2]) ++
  [p.vf, p.gallery, p.remapVa, p.ctxBase, p.ctxSlot, p.usherCore, p.usherSlot, p.usherVa, p.tvec, p.nameBase, p.nameCount,
    match p.debugHash with
    | some h => h.toNat
    | none => 0, p.gang, g.period, g.epoch] ++ g.slices.flatMap fun e => [e.1, e.2]

/-- The tables that firmware shows a partition's usher, read-only, at VAs of its own: the remap table, two bytes to a
logical core (R371), and the partition entry (R383), for which the model takes 4 KiB (log 73). -/
def firmwareByte (s : State) (t : Thread) (va : Nat) : Option Byte :=
  let p := getPart s t.part
  if !isUsher s t then none
  else if p.remapVa != 0 && p.remapVa ≤ va && va < p.remapVa + 768 then
    some (BitVec.ofNat 8 ((remapOf s ((va - p.remapVa) / 2)).toNat / 256 ^ ((va - p.remapVa) % 2)))
  else if p.entryVa != 0 && p.entryVa ≤ va && va < p.entryVa + 4096 then
    some (Config.entryByte (entryFields s t.part) (va - p.entryVa))
  else none

/-- Whether a thread's access touches such a table. -/
def inFirmware (s : State) (t : Thread) (va n : Nat) : Bool :=
  let p := getPart s t.part
  let meets (base size : Nat) : Bool := base != 0 && 0 < n && va < base + size && base < va + n
  isUsher s t && (meets p.remapVa 768 || meets p.entryVa 4096)

/-- Whether a physical range lies in the partition's memory windows (R384). -/
def inWindows (p : Partition) (pa n : Nat) : Bool := p.windows.any fun w => w.1 ≤ pa && pa + n ≤ w.1 + w.2
/-- The live launch a thread belongs to. -/
def launchOf (s : State) (t : Thread) : Option Launch :=
  s.launches.find? fun l => l.serial == t.serial && l.part == t.part && !l.ended
/-- A launch changed. -/
def updLaunch (s : State) (serial : Nat) (f : Launch → Launch) : State :=
  { s with launches := updFirst (fun l => l.serial == serial) f s.launches }
/-- The thread ID: launch serial, logical core, slot (R51, R370). -/
def Thread.tid (t : Thread) : Nat := t.serial * 2 ^ 11 + t.lcore * 4 + t.slot
/-- Whether a record's flag bit is set (R363). -/
def LaunchRec.flag (r : LaunchRec) (b : Nat) : Bool := r.flags / 2 ^ b % 2 == 1
/-- Whether a thread's launch carries flag bit `b`: 0 D, 1 C, 2 G, 3 N, 4 SER (R363). -/
def launchFlag (s : State) (t : Thread) (b : Nat) : Bool :=
  match launchOf s t with
  | some l => l.record.flag b
  | none => false
/-- The device's job key for a partition, and its accelerator ID (R389). -/
def jobKey (s : State) (p : Partition) : Nat := readLE s (blockBase p + 8) 2
def accId (s : State) (p : Partition) : Nat := readLE s (blockBase p + 10) 2 % 1024

/-! ## The local window (R280, R281) -/

/-- Die, cluster of the die, and core of the cluster of a logical core (R369). -/
def dieOf (lc : Nat) : Nat := lc / 48
def clusterOf (lc : Nat) : Nat := lc / 8 % 6
def coreOf (lc : Nat) : Nat := lc % 8
/-- The logical core at grid coordinates. -/
def lcoreAt (d c k : Nat) : Nat := 48 * d + 8 * c + k

/-- Whether a launch's rectangle covers a die, a cluster of it, and a core of that (R369). -/
def Launch.coversDie (l : Launch) (d : Nat) : Bool := l.d0 ≤ d && d < l.d0 + l.record.dies
def Launch.coversCluster (l : Launch) (d c : Nat) : Bool :=
  l.coversDie d && l.c0 ≤ c && c < l.c0 + l.record.clusters
def Launch.coversCore (l : Launch) (d c k : Nat) : Bool :=
  l.coversCluster d c && l.k0 ≤ k && k < l.k0 + l.record.cores

/-- The alcove byte of a core, where it lies in one of the launch's reservations there and in none of a thread of another
launch that occupies its slot (R283): a reservation stays the launch's until placement has given it to another (R372,
log 7). -/
def alcovePlace (s : State) (l : Launch) (d c k off n : Nat) : Option Nat :=
  let lc := lcoreAt d c k
  if l.coversCore d c k && l.alcoves.any (fun a => a.1 == lc && a.2 ≤ off && off + n ≤ a.2 + l.record.alcove) &&
      !(allThreads s).any (fun t => occupies s t && !(t.serial == l.serial && t.part == l.part) && t.lcore == lc &&
        t.alcBase < off + n && off < t.alcBase + t.alcSize) then
    some (alcoveAt lc off)
  else none

/-- The hall byte of a cluster, where it lies in the launch's reservation (R283). -/
def hallPlace (l : Launch) (d c off n : Nat) : Option Nat :=
  if l.coversCluster d c && l.hallOff ≤ off && off + n ≤ l.hallOff + l.record.hall then
    some (hallAt (6 * d + c) off)
  else none

/-- The atrium byte of a die, where it lies in the launch's reservation (R283). -/
def atriumPlace (l : Launch) (d off n : Nat) : Option Nat :=
  if l.coversDie d && l.atriumOff ≤ off && off + n ≤ l.atriumOff + l.record.atrium then
    some (atriumAt d off)
  else none

/-- A byte of an on-chip store: die, cluster, core and offset as far as each store has them. -/
inductive Spot where
  | alcove (d c k off : Nat)
  | hall (d c off : Nat)
  | atrium (d off : Nat)
  deriving DecidableEq, Repr

/-- The place of such a byte. -/
def Spot.place : Spot → Nat
  | .alcove d c k off => alcoveAt (lcoreAt d c k) off
  | .hall d c off => hallAt (6 * d + c) off
  | .atrium d off => atriumAt d off

/-- What a local address below 4 GiB names for a thread on a logical core: none in no window (R280, R281). A relative
number is offset by 8 in the address, so a sum below 8 is outside the grid. -/
def spotOf (lc va : Nat) : Option Spot :=
  let d := dieOf lc
  let c := clusterOf lc
  let k := coreOf lc
  if va < 0x180000 then some (.alcove d c k va)
  else if 0x01000000 ≤ va && va < 0x03000000 then
    let r := k + (va - 0x01000000) / 0x200000
    let off := va % 0x200000
    if 8 ≤ r && r < 16 && off < 0x180000 then some (.alcove d c (r - 8) off) else none
  else if 0x04000000 ≤ va && va < 0x05000000 then some (.hall d c (va - 0x04000000))
  else if 0x08000000 ≤ va && va < 0x0C000000 then some (.atrium d (va - 0x08000000))
  else if 0x10000000 ≤ va && va < 0x50000000 then
    let r := d + (va - 0x10000000) / 0x4000000
    if 8 ≤ r && r < 16 then some (.atrium (r - 8) (va % 0x4000000)) else none
  else if 0x50000000 ≤ va && va < 0x60000000 then
    let r := c + (va - 0x50000000) / 0x1000000
    if 8 ≤ r && r < 14 then some (.hall d (r - 8) (va % 0x1000000)) else none
  else none

/-- The place of `n` bytes at a local address for a thread of a launch: none takes PROT (R179, R283). -/
def localPlace (s : State) (l : Launch) (lc va n : Nat) : Option Nat :=
  match spotOf lc va with
  | some (.alcove d c k off) => alcovePlace s l d c k off n
  | some (.hall d c off) => hallPlace l d c off n
  | some (.atrium d off) => atriumPlace l d off n
  | none => none

/-- The same for a thread: an usher, which belongs to no launch, reaches its own alcove reservation and those of its
partition's launches, as their own threads on its core would (R345; log 47). -/
def threadPlace (s : State) (t : Thread) (va n : Nat) : Option Nat :=
  match launchOf s t with
  | some l => localPlace s l t.lcore va n
  | none =>
    if t.serial == 0 && t.alcBase ≤ va && va + n ≤ t.alcBase + t.alcSize then some (alcoveAt t.lcore va)
    else if isUsher s t then
      (s.launches.filter fun l => l.part == t.part && !l.ended).findSome? fun l => localPlace s l t.lcore va n
    else none

/-! ## Page tables (R390 to R393) -/

/-- Bit `b` of a page-table entry. -/
def pteBit (e : Dword) (b : Nat) : Bool := e.getLsbD b
/-- Bits [hi:lo] of an entry. -/
def pteField (e : Dword) (hi lo : Nat) : Nat := e.toNat / 2 ^ lo % 2 ^ (hi + 1 - lo)
/-- The MODE field: 0 LOCAL to 6 RED unordered (R390). -/
def pteMode (e : Dword) : Nat := pteField e 11 9
/-- The physical address an entry gives, 64 KiB aligned. -/
def ptePa (e : Dword) : Nat := pteField e 37 13 * 65536
/-- The PEER field. -/
def ptePeer (e : Dword) : Nat := pteField e 47 38

/-- A well-formed table pointer: V, T and the PA field alone (R390). -/
def ptrOk (e : Dword) : Bool := pteBit e 0 && pteBit e 1 && e &&& 0xFFFFFFC000001FFC == 0

/-- A well-formed leaf of a level (R390, R391). -/
def leafOk (level : Nat) (e : Dword) : Bool :=
  pteBit e 0 && !pteBit e 1 && !pteBit e 12 &&
  (pteBit e 2 || (!pteBit e 3 && !pteBit e 4)) &&
  pteMode e != 7 &&
  (pteField e 63 48 == 0 || pteMode e == 3) &&
  (pteMode e != 0 || ptePeer e == 0) &&
  (pteMode e < 4 || pteField e 47 46 == 0) &&
  (level != 2 || pteField e 25 13 == 0) &&
  (!pteBit e 8 || (pteMode e != 3 && pteMode e != 5 && pteMode e != 6))

/-- A consistent CONT run around entry `idx` of a table (R391). -/
def contOk (s : State) (table idx level : Nat) : Bool :=
  let base := idx / 32 * 32
  let page := if level == 1 then 1 else 8192
  let e0 : Dword := BitVec.ofNat 64 (readLE s (table + 8 * base) 8)
  (List.range 32).all fun j =>
    let e : Dword := BitVec.ofNat 64 (readLE s (table + 8 * (base + j)) 8)
    pteBit e 8 && e &&& 0xFFFFFFC000001FFF == e0 &&& 0xFFFFFFC000001FFF &&
      pteField e 37 13 == pteField e0 37 13 + j * page

/-- The page-table walk of a VA (R390, R391): the entry for its 64 KiB page, or none for XLAT. -/
def walk (s : State) (p : Partition) (pn va : Nat) : Option TlbEntry :=
  let root := readLE s (blockBase p) 8
  let e3 : Dword := BitVec.ofNat 64 (readLE s (root + 8 * (va / 2 ^ 42)) 8)
  if !ptrOk e3 then none
  else
    let t2 := ptePa e3
    let i2 := va / 2 ^ 29 % 8192
    let e2 : Dword := BitVec.ofNat 64 (readLE s (t2 + 8 * i2) 8)
    if pteBit e2 0 && pteBit e2 1 then
      if !ptrOk e2 then none
      else
        let t1 := ptePa e2
        let i1 := va / 65536 % 8192
        let e1 : Dword := BitVec.ofNat 64 (readLE s (t1 + 8 * i1) 8)
        if leafOk 1 e1 && (!pteBit e1 8 || contOk s t1 i1 1) then
          some ⟨pn, va / 65536, e1, ptePa e1, t1 + 8 * i1, pteField e1 63 48⟩
        else none
    else if leafOk 2 e2 && (!pteBit e2 8 || contOk s t2 i2 2) then
      some ⟨pn, va / 65536, e2, ptePa e2 + va / 65536 % 8192 * 65536, t2 + 8 * i2, pteField e2 63 48⟩
    else none

/-- The cached entry of a page (R392, R397). -/
def tlbFind (s : State) (pn va : Nat) : Option TlbEntry :=
  s.tlb.find? fun e => e.part == pn && e.vpage == va / 65536

/-- The translation of a VA below 2^55: from the TLB where it is cached, else by a walk that caches it. -/
def lookup (s : State) (pn va : Nat) : Option (TlbEntry × State) :=
  match tlbFind s pn va with
  | some e => some (e, s)
  | none =>
    match walk s (getPart s pn) pn va with
    | some e => some (e, { s with tlb := e :: s.tlb })
    | none => none

/-- What an access does (R391, R393). -/
inductive Acc where
  | fetch | read | write | atomic
  deriving DecidableEq, Repr

/-- The MODE in effect: DIRECT, REPLICA and MIGRATE to this device act as LOCAL (R393). -/
def effMode (s : State) (p : Partition) (e : TlbEntry) : Nat :=
  let m := pteMode e.leaf
  if 1 ≤ m && m ≤ 3 && ptePeer e.leaf == accId s p then 0 else m

/-- The permissions of a leaf: R, W, X, the P bit against L0 (R391), and what its mode forbids (R393). -/
def permits (mode : Nat) (leaf : Dword) (priv : BitVec 2) (a : Acc) : Bool :=
  (priv != 0 || !pteBit leaf 5) &&
  match a with
  | .fetch => pteBit leaf 4 && mode != 4
  | .read => pteBit leaf 2 && mode != 4
  | .write => pteBit leaf 3 && mode != 2
  | .atomic => pteBit leaf 2 && pteBit leaf 3 && (mode == 0 || mode == 1 || mode == 3)

/-- Whether the access stays on this device, so that its physical range must lie in the partition's windows. -/
def homeHere (mode : Nat) : Bool := mode == 0

/-- Where an access goes once it is translated: a place of this device, or a peer. -/
structure Route where
  key : Nat                    -- the place, or the physical address at the peer
  mode : Nat                   -- 0 for a place of this device
  leaf : Dword
  deriving DecidableEq, Repr

/-- The physical address of a VA under an entry. -/
def TlbEntry.addr (e : TlbEntry) (va : Nat) : Nat := e.pa + va % 65536

/-! ## The event log (R409) -/

/-- An event record: 256 bytes with the given fields, written at LOGTAIL, which then advances. -/
def logEventOf (s : State) (pn kind src key pa cidx ridx extra : Nat) (mask : Nat) : State :=
  let b := blockBase (getPart s pn)
  let m := readLE s (b + 0x40) 8
  let r := b + 0x20000 + 256 * (m % 512)
  let s := zeroRange s r 256
  let s := writeLE s r 1 kind
  let s := writeLE s (r + 2) 2 src
  let s := writeLE s (r + 4) 2 key
  let s := writeLE s (r + 8) 8 pa
  let s := writeLE s (r + 0x10) 8 s.clock.toNat
  let s := writeLE s (r + 0x18) 2 cidx
  let s := writeLE s (r + 0x1A) 2 ridx
  let s := writeLE s (r + 0x20) 8 extra
  let s := writeLE s (r + 0x80) 128 mask
  writeLE s (b + 0x40) 8 ((m + 1) % 2 ^ 64)

/-- An event record under the partition's own job key. -/
def logEvent (s : State) (pn kind src pa cidx ridx extra : Nat) (mask : Nat) : State :=
  logEventOf s pn kind src (jobKey s (getPart s pn)) pa cidx ridx extra mask

/-! ## Fabric requests of this device (R398 to R402) -/

/-- The station a request leaves on: by line and accelerator, past failed links (R399, R410). -/
def stationOf (s : State) (peer pa : Nat) : Nat :=
  let k := (pa / 256 % 16) ^^^ (peer % 16)
  match (List.range 16).find? fun j => !s.failedLinks.contains ((k + j) % 16) with
  | some j => (k + j) % 16
  | none => k

/-- A request put on the fabric for a thread: job key, identity and station are its own (R399, R400). -/
def putReq (s : State) (t : Thread) (kind : ReqKind) (peer va pa : Nat) (data : Bytes) (dst : Option Reg)
    (popped : List (Nat × Dword)) : State :=
  { s with
    nextReq := s.nextReq + 1
    reqs := s.reqs ++
      [⟨s.nextReq, t.part, t.lcore, t.slot, t.serial, t.index, jobKey s (getPart s t.part), kind, peer, va, pa, data, dst,
        popped, s.clock.toNat, stationOf s peer pa, false⟩] }

/-- The device itself, as the sender of a request for a partition. -/
def deviceThread (pn : Nat) : Thread := { Thread.reset 0 0 with part := pn, lcore := 512 }

/-! ### Frames (R389, R394, R395) -/

/-- The frame that stands for a REPLICA page of the partition (R394). -/
def frameOf (s : State) (pn vp : Nat) : Option Frame :=
  s.frames.find? fun f => f.part == pn && f.vpage == vp && !f.migrate

/-- The frame that a migration of a page is filling (R395). -/
def movingFrame (s : State) (pn vp : Nat) : Option Frame :=
  s.frames.find? fun f => f.part == pn && f.vpage == vp && f.migrate && !f.filled

/-- The number of 64 KiB frames of POOL, and the place of one (R389). -/
def poolSize (s : State) (p : Partition) : Nat := readLE s (blockBase p + 0x18) 8 / 65536
def poolFrame (s : State) (p : Partition) (i : Nat) : Nat := readLE s (blockBase p + 0x10) 8 + 65536 * i

/-- The lowest frame of POOL that no page holds. -/
def freeFrame (s : State) (pn : Nat) : Option Nat :=
  let p := getPart s pn
  ((List.range (poolSize s p)).map (poolFrame s p)).find? fun a => !s.frames.any fun f => f.pa == a

/-- A frame given back to POOL. -/
def dropFrame (s : State) (pa : Nat) : State := { s with frames := s.frames.filter fun f => f.pa != pa }

/-- A use of a replica frame, for the order of release (R394). -/
def useFrame (s : State) (pa : Nat) : State :=
  { s with
    stampUse := s.stampUse + 1
    frames := s.frames.map fun g => if g.pa == pa then { g with used := s.stampUse + 1 } else g }

/-- A frame taken for a page: a free one, or for a replica the least recently used replica frame of the partition, which is
released (R394). -/
def takeFrame (s : State) (pn vp : Nat) (migrate : Bool) : Option (State × Nat) :=
  match freeFrame s pn with
  | some a => some (useFrame { s with frames := ⟨pn, vp, a, 0, false, migrate, none⟩ :: s.frames } a, a)
  | none =>
    match (if migrate then [] else s.frames.filter fun f => f.part == pn && !f.migrate && f.filled) with
    | [] => none
    | f0 :: r =>
      let old := r.foldl (fun m f => if f.used < m.used then f else m) f0
      some (useFrame { dropFrame s old.pa with
        frames := ⟨pn, vp, old.pa, 0, false, false, none⟩ :: (dropFrame s old.pa).frames } old.pa, old.pa)

/-- A frame taken and its 64 KiB asked of the peer by the device itself: one request stands for those of the page (log 80). -/
def fillPage (s : State) (pn : Nat) (e : TlbEntry) (migrate : Bool) : Option State :=
  match takeFrame s pn e.vpage migrate with
  | some (s, _) => some (putReq s (deviceThread pn) (.fill migrate) (ptePeer e.leaf) (65536 * e.vpage) e.pa [] none [])
  | none => none

/-- A request to a MIGRATE page counted in its TLB entry; the one that brings ACNT to 0 starts the migration where POOL has
a frame (R395). -/
def countAccess (s : State) (t : Thread) (va : Nat) : State :=
  match tlbFind s t.part va with
  | some e =>
    if pteMode e.leaf == 3 && e.acnt != 0 then
      let s := { s with
        tlb := s.tlb.map fun u => if u.part == e.part && u.vpage == e.vpage then { u with acnt := u.acnt - 1 } else u }
      if e.acnt == 1 then (fillPage s t.part e true).getD s else s
    else s
  | none => s

/-- A request sent to a peer for a thread. -/
def sendFor (s : State) (t : Thread) (kind : ReqKind) (peer va pa : Nat) (data : Bytes) (dst : Option Reg)
    (popped : List (Nat × Dword)) : State :=
  countAccess (putReq s t kind peer va pa data dst popped) t va

/-- `n` bytes whose values the spec leaves to another device (log 5). -/
def freeBytes (s : State) (n : Nat) : Bytes × State :=
  ((List.range ((n + 7) / 8)).flatMap (fun k => leBytes 8 (Config.freeValue (s.drawn + k)).toNat) |>.take n,
    { s with drawn := s.drawn + (n + 7) / 8 })

/-- The address a request carries: the job key in [56:41], PA in [40:0] (R400). -/
def FabReq.address (q : FabReq) : Nat := q.key * 2 ^ 41 + q.pa % 2 ^ 41

/-- Whether a request is a thread's. -/
def FabReq.of (q : FabReq) (t : Thread) : Bool := q.part == t.part && q.lcore == t.lcore && q.slot == t.slot

/-! ## Accesses that belong to no launch: trace records, completion words, images -/

/-- An access the device itself makes through the partition's tables: the entry and its mode, where they permit it. -/
def deviceEntry (s : State) (pn va : Nat) (a : Acc) : Option (TlbEntry × Nat × State) :=
  if va < 2 ^ 32 || 2 ^ 55 ≤ va then none
  else
    match lookup s pn va with
    | some (e, s') =>
      let m := effMode s (getPart s pn) e
      if permits m e.leaf 1 a then some (e, m, s') else none
    | none => none

/-- The state in which the device itself reads a VA: a REPLICA page's frame is taken and filled where it is not, with what
the peer holds there (R394; log 5). -/
def readyFrame (s : State) (pn va : Nat) : State :=
  let fill (s : State) (pa : Nat) : State :=
    let q := freeBytes s 65536
    let s := writeBytes q.2 pa q.1
    { s with frames := s.frames.map fun g => if g.pa == pa then { g with filled := true, failed := none } else g }
  match deviceEntry s pn va .read with
  | some (e, m, s) =>
    if m != 2 then s
    else match frameOf s pn e.vpage with
      | some f => useFrame (if f.filled then s else fill s f.pa) f.pa
      | none => match takeFrame s pn e.vpage false with
        | some (s, pa) => fill s pa
        | none => s
  | none => s

/-- The place of a VA on this device for such an access: in a LOCAL page inside the partition's windows, or in a REPLICA
page's frame. -/
def devicePlace (s : State) (pn va n : Nat) (a : Acc) : Option (Nat × State) :=
  match deviceEntry s pn va a with
  | some (e, m, s') =>
    if m == 0 && inWindows (getPart s pn) (e.addr va) n then some (e.addr va, s')
    else if m == 2 then
      match frameOf s pn e.vpage with
      | some f => if f.filled && inWindows (getPart s pn) (f.pa + va % 65536) n then some (f.pa + va % 65536, s') else none
      | none => none
    else none
  | none => none

/-- The fields of TRACEBUF (R77). -/
def traceBase (p : Partition) : Nat := p.trace.toNat / 4096 % 2 ^ 43 * 4096
def traceSize (p : Partition) : Nat := p.trace.toNat % 32

/-- A trace record of a thread's stream (R77), where a policy grants trace and TRACEBUF holds a ring. A record whose
address cannot be written is dropped and counted in LOST. DESIGN CHOICE: bytes 0x10 to 0x3F of the header are written 0 with
the record that finds TAIL = 0; R77 names no moment (log 82). -/
def traceRec (s : State) (t : Thread) (kind : Nat) (q : Strm) (pc : Dword) (extra : Nat) : State :=
  let p := getPart s t.part
  let granted := match p.policy with
    | some d => d.trace
    | none => false
  let sz := traceSize p
  if !granted || sz < 12 || 30 < sz then s
  else
    let base := traceBase p
    match devicePlace s t.part base 64 .write with
    | none => s
    | some (hd, s1) =>
      let m := readLE s1 hd 8
      let cap := (2 ^ sz - 64) / 32
      match devicePlace s1 t.part (base + 0x40 + 32 * (m % cap)) 32 .write with
      | none => writeLE s1 (hd + 8) 8 (readLE s1 (hd + 8) 8 + 1)
      | some (r, s2) =>
        let s2 := writeLE s2 r 1 kind
        let s2 := writeLE s2 (r + 1) 1 (if q == .a then 0 else 1)
        let s2 := writeLE s2 (r + 2) 2 0
        let s2 := writeLE s2 (r + 4) 4 (t.tid % 2 ^ 24)
        let s2 := writeLE s2 (r + 8) 8 s2.clock.toNat
        let s2 := writeLE s2 (r + 0x10) 8 pc.toNat
        let s2 := writeLE s2 (r + 0x18) 8 extra
        let s2 := if m == 0 then zeroRange s2 (hd + 0x10) 0x30 else s2
        writeLE s2 hd 8 ((m + 1) % 2 ^ 64)

/-! ## Performance counters (R76) -/

/-- Where a counter stands. -/
def counterKey (lcore part n : Nat) : Nat := (lcore * 16 + part) * 256 + n

/-- Whether a partition's policy opens the counters and the partition is switched in (R75, R76). -/
def counting (p : Partition) : Bool :=
  !p.switchedOut &&
  match p.policy with
  | some d => d.counters
  | none => false

/-- An event counted for a thread's core and partition. -/
def count (s : State) (t : Thread) (n by_ : Nat) : State :=
  if counting (getPart s t.part) then
    let k := counterKey t.lcore t.part n
    { s with counters := Store.put 0 s.counters k (Store.get 0 s.counters k + BitVec.ofNat 64 by_) }
  else s

/-! ## The digest of committed stores (R422) -/

/-- The lane one 8-byte unit adds to one half of the digest. -/
def digLane (key : Dword) (index va mask v : Nat) : Dword :=
  let a : Dword := BitVec.ofNat 64 (index * 2 ^ 52 + va / 8 % 2 ^ 52)
  nmx key (nmx key (nmx key a ^^^ BitVec.ofNat 64 mask) ^^^ BitVec.ofNat 64 v)

/-- The byte mask and the value of the bytes a write puts into the unit at `u` (a multiple of 8): the others read 0. -/
def digUnit (va : Nat) (bs : Bytes) (u : Nat) : Nat × Nat :=
  (List.range 8).foldr (fun j acc =>
    let inside := va ≤ u + j && u + j < va + bs.length
    ((if inside then 1 else 0) * 2 ^ j + acc.1,
      (if inside then (atD 0 (u + j - va) bs).toNat else 0) * 256 ^ j + acc.2)) (0, 0)

/-- A committed write of thread `index` of a launch to main memory at a VA, folded into the launch's digest. -/
def foldDigestOf (s : State) (serial index va : Nat) (bs : Bytes) : State :=
  if bs.isEmpty then s
  else
    let u0 := va / 8
    let n := (va + bs.length - 1) / 8 - u0 + 1
    updLaunch s serial fun l =>
      (List.range n).foldl (fun l j =>
        let u := 8 * (u0 + j)
        let (m, v) := digUnit va bs u
        { l with
          digLo := l.digLo ^^^ digLane 0x6A5D39C10E84F27B index u m v
          digHi := l.digHi ^^^ digLane 0xB3E07C19D5A2684F index u m v }) l

/-- That of a thread. -/
def foldDigest (s : State) (t : Thread) (va : Nat) (bs : Bytes) : State := foldDigestOf s t.serial t.index va bs

end Sys2Proof.Machine
end

