-- ==== Sys2Proof/Machine/Ops.lean ====
section
/-! DEFINITION. The named operations every meaning is built from: reading and writing scalars and queue ports (R51 to
R53), the program counter with an active stair (R92, R140), the decode checks in their order (R101), taking a trap as
one shared operation (R78, R79, R115), parking (R268), and returning from a trap. -/

namespace Sys2Proof.Machine

/-- The outcome of a step. -/
abbrev Out := Host.Outcome State Fault Refusal

/-- Why an instruction does not complete: a trap taken before it changed anything; one that keeps what the given state
records beside the program's state (counters, event records) and returns what was popped (R115); a trap taken after the
changes of the given state; a park with nothing changed; a park that keeps what the instruction has done, because an event completes it;
or a park that keeps what it has recorded and returns what it has popped, because it will issue again (R115, R268). -/
inductive Stop where
  | trap (cause : BitVec 8) (info : Dword)
  | trapBack (s : State) (cause : BitVec 8) (info : Dword)
  | trapIn (s : State) (cause : BitVec 8) (info : Dword)
  | park (p : Park)
  | parkIn (s : State) (p : Park)
  | again (s : State) (p : Park)
  deriving DecidableEq, Repr

/-- An effect on the state that may stop. -/
abbrev M := StateT State (Except Stop)

/-- The state's update. -/
def upd (f : State → State) : M Unit := fun s => .ok ((), f s)
/-- A value read off the state. -/
def see {α : Type} (f : State → α) : M α := fun s => .ok (f s, s)
/-- The instruction traps as if it had not begun (R78, R115). -/
def trap {α : Type} (cause : BitVec 8) (info : Dword) : M α := fun _ => .error (.trap cause info)
/-- The instruction traps as if it had not begun, but for what has been recorded beside the program's state. -/
def trapBack {α : Type} (cause : BitVec 8) (info : Dword) : M α := fun s => .error (.trapBack s cause info)
/-- The instruction traps and its effects so far stand (BOVR, RACEX; R78). -/
def trapHere {α : Type} (cause : BitVec 8) (info : Dword) : M α := fun s => .error (.trapIn s cause info)
/-- The stream parks, or stalls, before the instruction; nothing of it has happened (R53, R268). -/
def park {α : Type} (p : Park) : M α := fun _ => .error (.park p)
/-- The instruction is performed as far as the state says and an event will complete it (a load a peer answers). -/
def parkHere {α : Type} (p : Park) : M α := fun s => .error (.parkIn s p)
/-- As `park`, keeping what the instruction has recorded (a BWAIT's deadline, an RSTVR that has been sent). -/
def parkAgain {α : Type} (p : Park) : M α := fun s => .error (.again s p)
/-- A trap where a condition holds, in a state before the instruction's effect: what was recorded by then stays. -/
def failBack (s0 : State) (bad : Bool) (cause : BitVec 8) (info : Dword) : M Unit := fun s =>
  if bad then .error (.trapBack s0 cause info) else .ok ((), s)
/-- A trap where a condition fails. -/
def need (c : Bool) (cause : BitVec 8) (info : Dword) : M Unit := if c then pure () else trap cause info

/-- A value the spec leaves open: nothing constrains it (log 5). -/
def freeValue : M Dword := fun s => .ok (Config.freeValue s.drawn, { s with drawn := s.drawn + 1 })

/-! ## Trap codes (R79) -/

def cILL : BitVec 8 := 0x01
def cWSTR : BitVec 8 := 0x02
def cWIN : BitVec 8 := 0x03
def cXLAT : BitVec 8 := 0x04
def cPROT : BitVec 8 := 0x05
def cALIGN : BitVec 8 := 0x06
def cMMX : BitVec 8 := 0x07
def cFPX : BitVec 8 := 0x08
def cDOM : BitVec 8 := 0x09
def cFNOV : BitVec 8 := 0x0A
def cLSO : BitVec 8 := 0x0B
def cBOVR : BitVec 8 := 0x0C
def cQDEAD : BitVec 8 := 0x0D
def cRACEX : BitVec 8 := 0x0E
def cGRPN : BitVec 8 := 0x0F
def cDIG : BitVec 8 := 0x10
def cINTG : BitVec 8 := 0x11
def cBUDGET : BitVec 8 := 0x12
def cSWT : BitVec 8 := 0x13
def cECC : BitVec 8 := 0x14
def cDEVERR : BitVec 8 := 0x15

/-! ## The stream in focus -/

/-- A stream of a thread. -/
def Thread.str (t : Thread) : Strm → Stream
  | .a => t.a
  | .x => t.x
/-- A stream of a thread changed. -/
def Thread.updStr (t : Thread) (q : Strm) (f : Stream → Stream) : Thread :=
  match q with
  | .a => { t with a := f t.a }
  | .x => { t with x := f t.x }
/-- The issuing stream. -/
def State.cur (s : State) : Stream := s.th.str s.strm
/-- The issuing thread changed. -/
def State.updTh (s : State) (f : Thread → Thread) : State := { s with th := f s.th }
/-- The issuing stream changed. -/
def State.updCur (s : State) (f : Stream → Stream) : State := s.updTh fun t => t.updStr s.strm f
/-- The issuing thread, changed in an effect. -/
def updT (f : Thread → Thread) : M Unit := upd fun s => s.updTh f
/-- The issuing stream, changed in an effect. -/
def updC (f : Stream → Stream) : M Unit := upd fun s => s.updCur f

/-- The threads that satisfy a test, changed. -/
def updThreads (s : State) (p : Thread → Bool) (f : Thread → Thread) : State := mapThreads s fun t => if p t then f t else t

/-- The number of a thread's slot on the device. -/
def Thread.num (t : Thread) : Nat := t.lcore * 4 + t.slot

/-- The thread that occupies a slot. -/
def threadAt (s : State) (n : Nat) : Option Thread := (allThreads s).find? fun t => t.num == n && occupies s t

/-- The thread in a slot moved into focus; none where none is placed there. -/
def focus (s : State) (n : Nat) : Option State :=
  if s.th.num == n && occupies s s.th then some s
  else
    match s.others.find? (fun u => u.num == n && occupies s u) with
    | some u =>
      let rest := dropFirst (fun u => u.num == n && occupies s u) s.others
      some { s with th := u, others := if s.th.status == .free then rest else rest ++ [s.th] }
    | none => none

/-! ## Queues (R53, R72) -/

/-- The depth of the queue behind a port (R72). -/
def qDepth (n : Nat) : Nat := if n ≤ 111 then 32 else if n == 116 then 64 else 16
/-- A queue's entries, oldest first. -/
def Thread.queue (t : Thread) (n : Nat) : List Dword := Store.get [] t.q n
/-- A queue replaced. -/
def Thread.setQueue (t : Thread) (n : Nat) (l : List Dword) : Thread := { t with q := Store.put [] t.q n l }

/-- A pop (R53): an empty queue parks. -/
def popQ (n : Nat) : M Dword := fun s =>
  match s.th.queue n with
  | [] => .error (.park (.pop n))
  | v :: r => .ok (v, s.updTh fun t => t.setQueue n r)

/-- A push (R53): a full queue parks. A branch queue takes the value's truth (R52). -/
def pushQ (n : Nat) (v : Dword) : M Unit := fun s =>
  let l := s.th.queue n
  if l.length < qDepth n then
    let e := if 116 ≤ n then (if v == 0 then 0 else 1) else v
    .ok ((), s.updTh fun t => t.setQueue n (l ++ [e]))
  else .error (.park (.push n))

/-- A park while the port a result will go to is full; other destinations always take it. -/
def portRoom (d : Reg) : M Unit := fun s =>
  if isPort d && qDepth d.toNat ≤ (s.th.queue d.toNat).length then .error (.park (.push d.toNat)) else .ok ((), s)

/-! ## Scalars (R51, R52) -/

/-- The strip counter: that of the open loop context (R61). -/
def Stream.strip (c : Stream) : Dword :=
  match c.loop with
  | some l => l.strip
  | none => 0

/-- The value a scalar number that is not a port reads as, in the issuing stream (R51). -/
def scalarVal (s : State) (n : Nat) : Dword :=
  if n == 0 then 0
  else if n ≤ 103 then Store.get 0 s.cur.gpr n
  else if n == 118 then s.cur.vl
  else if n == 119 then s.cur.ftrim
  else if n == 120 then s.cur.sbase
  else if n == 121 then s.cur.seed
  else if n == 122 then BitVec.ofNat 64 s.th.tid
  else if n == 123 then BitVec.ofNat 64 s.th.lcore
  else if n == 124 then s.clock
  else if n == 125 then s.cur.stat
  else if n == 126 then s.cur.strip
  else s.th.tol.setWidth 64

/-- Reading a scalar operand: a port pops (R53). -/
def rd (r : Reg) : M Dword := if isPort r then popQ r.toNat else see fun s => scalarVal s r.toNat

/-- A pop by a vector, race or function instruction: the value is kept beside the instruction, so that its reissue after a
stop reads it again and pops nothing (R53, R277). -/
def popKept (n : Nat) : M Dword := fun s =>
  match (if s.th.startIdx.isSome then s.cur.popped else []) with
  | (m, v) :: r => if m == n then .ok (v, s.updCur fun c => { c with popped := r ++ [(m, v)] }) else popQ n s
  | [] =>
    match popQ n s with
    | .ok (v, s') => .ok (v, s'.updCur fun c => { c with popped := c.popped ++ [(n, v)] })
    | .error e => .error e

/-- Reading a scalar operand of an instruction that is handed to the vector sequencer. -/
def rdKept (r : Reg) : M Dword := if isPort r then popKept r.toNat else see fun s => scalarVal s r.toNat

/-- A general register of a stream written; s0 discards (R51). -/
def Stream.setGpr (c : Stream) (n : Nat) (v : Dword) : Stream :=
  if n == 0 then c else { c with gpr := Store.put 0 c.gpr n v }

/-- The issuing stream after a write of a scalar number that is not a port (R51, R52). -/
def setScalar (s : State) (n : Nat) (v : Dword) : State :=
  if n ≤ 103 then s.updCur fun c => c.setGpr n v
  else if n == 119 then s.updCur fun c => { c with ftrim := v }
  else if n == 120 then s.updCur fun c => { c with sbase := v }
  else if n == 121 then s.updCur fun c => { c with seed := v }
  else if n == 127 then s.updTh fun t => { t with tol := v.setWidth 32 }
  else s

/-- Writing a scalar destination: a port pushes (R53). -/
def wr (r : Reg) (v : Dword) : M Unit := if isPort r then pushQ r.toNat v else upd fun s => setScalar s r.toNat v

/-- The stream's status register written (R191, R218). -/
def setStat (v : Nat) : M Unit := updC fun c => { c with stat := BitVec.ofNat 64 v }

/-- An address register, its stride, and their writes (R55). -/
def Thread.ar (t : Thread) (r : Reg) : Dword := Store.get 0 t.areg r.toNat
def Thread.arStride (t : Thread) (r : Reg) : Dword := Store.get 0 t.stride r.toNat
def Thread.setAr (t : Thread) (n : Nat) (v : Dword) : Thread := { t with areg := Store.put 0 t.areg n v }
def Thread.setArStride (t : Thread) (n : Nat) (v : Dword) : Thread := { t with stride := Store.put 0 t.stride n v }

/-! ## The stair and the program counter (R62, R92, R139, R140) -/

/-- Where the PC stands in the buffer of an active stair; none outside it. -/
def Stream.stairPos (c : Stream) : Option (Stair × Nat) :=
  match c.stair with
  | some t =>
    let off := c.pc - t.start
    if off.toNat < 4 * t.words.length && off.toNat % 4 == 0 then some (t, off.toNat / 4) else none
  | none => none

/-- Whether buffer instruction `b` issues in the present replay (R92, R139). -/
def Stair.issues (t : Stair) (b : Nat) : Bool :=
  t.flights.all fun f =>
    (!f.first.getLsbD b || f.index == 0) && (!f.last.getLsbD b || f.index + 1 == f.count)

/-- The first buffer position at or after `b` that issues in the present replay, searched over `n` positions. -/
def Stair.seek (t : Stair) : Nat → Nat → Option Nat
  | 0, _ => none
  | n + 1, b => if t.issues b then some b else Stair.seek t n (b + 1)

/-- The flights advanced by one replay, with the number of the flight that advanced without resetting; none when the
last replay is done (R92). -/
def advanceFlights : List StairFlight → Nat → Option (List StairFlight × Nat)
  | [], _ => none
  | f :: r, k =>
    if f.index + 1 < f.count then some ({ f with index := f.index + 1 } :: r, k)
    else
      match advanceFlights r (k + 1) with
      | some (r', j) => some ({ f with index := 0 } :: r', j)
      | none => none

/-- Each stepped scalar with its stride at flight `k` added, modulo 2^64 (R92). -/
def stepScalars (c : Stream) (strides : List Dword) (m k : Nat) : List Reg → Nat → Stream
  | [], _ => c
  | r :: rs, j =>
    stepScalars (c.setGpr r.toNat (Store.get 0 c.gpr r.toNat + atD 0 (k * m + j) strides)) strides m k rs (j + 1)

/-- The stream at the start of a replay or of what follows the buffer: replays that issue nothing pass, for as many
replays as `n` allows. -/
def enterReplay : Nat → Stream → Stair → Stream
  | 0, c, t => { c with pc := t.start + BitVec.ofNat 64 (4 * t.words.length), stair := none }
  | n + 1, c, t =>
    match t.seek t.words.length 0 with
    | some b => { c with pc := t.start + BitVec.ofNat 64 (4 * b), stair := some t }
    | none =>
      match advanceFlights t.flights 0 with
      | some (fs, k) =>
        enterReplay n (stepScalars c t.strides t.stepped.length k t.stepped 0) { t with flights := fs }
      | none => { c with pc := t.start + BitVec.ofNat 64 (4 * t.words.length), stair := none }

/-- How many replays a stair has in all: the product of its counts. -/
def Stair.replays (t : Stair) : Nat := t.flights.foldl (fun n f => n * f.count) 1

/-- The stream at buffer position `b` of its stair: the first word from there that issues in this replay, else the next
replay, else what follows the buffer (R92). -/
def Stream.seekFrom (c : Stream) (t : Stair) (b : Nat) : Stream :=
  match t.seek (t.words.length - b) b with
  | some b' => { c with pc := t.start + BitVec.ofNat 64 (4 * b') }
  | none =>
    match advanceFlights t.flights 0 with
    | some (fs, k) =>
      enterReplay t.replays (stepScalars c t.strides t.stepped.length k t.stepped 0) { t with flights := fs }
    | none => { c with pc := t.start + BitVec.ofNat 64 (4 * t.words.length), stair := none }

/-- The stream past one instruction: the next word, the next issuing word of a stair's buffer, or the next replay. -/
def Stream.next (c : Stream) : Stream :=
  match c.stairPos with
  | some (t, b) => c.seekFrom t (b + 1)
  | none => { c with pc := c.pc + 4 }

/-- The stream where it next issues: a PC that an ERET has put on a buffer word its masks withhold, or just past the
buffer of an active stair, moves on within the stair (R139, R140; log 68). -/
def Stream.onward (c : Stream) : Stream :=
  match c.stair with
  | some t =>
    let off := (c.pc - t.start).toNat
    if off ≤ 4 * t.words.length && off % 4 == 0 && !(off / 4 < t.words.length && t.issues (off / 4)) then
      c.seekFrom t (off / 4)
    else c
  | none => c

/-- The issuing stream moves past its instruction. -/
def advance (s : State) : State := s.updCur Stream.next

/-- The issuing stream continues at an address; kind 1 of the trace (R77). -/
def jump (target : Dword) : M Unit := upd fun s =>
  (traceRec s s.th 1 s.strm s.cur.pc target.toNat).updCur fun c => { c with pc := target }

/-! ## Traps (R78) -/

/-- TAKING A TRAP: the issuing stream's CAUSE, EPC and EINFO and the thread's ESTREAM are written and the whole
thread is asked to stop (R78, R275). What the trapping instruction had done is in `s`; EPC is the PC there. The notice
to the usher is queued when the stop completes (R374). An usher does not stop (R373): its A stream continues at TVEC
(log 36). -/
def takeTrap (s : State) (cause : BitVec 8) (info : Dword) : State :=
  let s := traceRec s s.th 2 s.strm s.cur.pc cause.toNat
  let s := if cause == cMMX then count s s.th 0x218 1 else if cause == cQDEAD then count s s.th 0x21A 1 else s
  let own := isUsher s s.th
  let s := s.updCur fun c =>
    { c with
      cause := cause.setWidth 64
      epc := c.pc
      einfo := info
      park := none
      exiting := false
      object := none
      ibuf := []
      popped := []
      pc := if own && s.strm == .a then s.th.tvec else c.pc }
  s.updTh fun t =>
    { t with
      estream := if s.strm == .a then 0 else 1
      confirm := []
      polled := []
      status := match t.status with
        | .running => if own then .running else .stopping .trap
        | st => st }

/-- The stream stands parked before its instruction (R268). -/
def takePark (s : State) (p : Park) : State := s.updCur fun c => { c with park := some p, popped := [] }

/-- A state with the queues and streams of the issuing thread as they were before its instruction (R115). -/
def State.unpopped (s' s : State) : State := s'.updTh fun t => { t with q := s.th.q, vs := s.th.vs }

/-- What an effect begun in `s` comes to: a trap or a park is a next state like any other. -/
def settle (s : State) : Except Stop (Unit × State) → Out
  | .ok (_, s') => .next s'
  | .error (.trap c i) => .next (takeTrap s c i)
  | .error (.trapBack s' c i) => .next (takeTrap (s'.unpopped s) c i)
  | .error (.trapIn s' c i) => .next (takeTrap s' c i)
  | .error (.park p) => .next (takePark s p)
  | .error (.parkIn s' p) => .next (takePark s' p)
  | .error (.again s' p) => .next (takePark (s'.unpopped s) p)

/-- What a stopped effect begun in `s` has recorded beside the program's state. -/
def Stop.record (s : State) : Stop → State
  | .trapBack s' _ _ => s'
  | .again s' _ => s'
  | _ => s

/-- The cause and EINFO of a trap that comes before its instruction has changed anything. -/
def Stop.early : Stop → Option (BitVec 8 × Dword)
  | .trap c i => some (c, i)
  | .trapBack _ c i => some (c, i)
  | _ => none

/-- The outcome of an effect on a state. -/
def runM (body : M Unit) (s : State) : Out := settle s (body s)

/-! ## The decode checks at issue (R101, steps 4 to 6) -/

/-- The window names a register field reaches, checked against the segment: the first name beyond it (R56, R96). -/
def beyond (t : Thread) (r : Reg) : Nat → Nat → Option Nat
  | 0, _ => none
  | n + 1, k => if 8 * t.wbase + r.toNat + k < t.segSize then beyond t r n (k + 1) else some (r.toNat + k)

/-- EINFO of a WIN for a window name: the name in [6:0], its physical offset in [18:8] (R56). -/
def winInfo (t : Thread) (n : Nat) : Dword := BitVec.ofNat 64 (n % 128 + (8 * t.wbase + n) * 256)

/-- Step 6 of R101 over the operands in field order. -/
def winCheck (t : Thread) : List Opnd → Option Dword
  | [] => none
  | .vec r n :: os =>
    match beyond t r n 0 with
    | some k => some (winInfo t k)
    | none => winCheck t os
  | _ :: os => winCheck t os

/-- The word as EINFO holds it (R79). -/
def wordInfo (w : Word) : Dword := w.setWidth 64

/-- Steps 3 to 6 of R101 for an operation about to issue: the trap the first failing check gives. A word that reaches
here by its own decoding has passed step 3. -/
def gate (o : Op) (w : Word) (s : State) : Option (BitVec 8 × Dword) :=
  let i := opInfo w o
  if !i.ok3 || (o == .smb && s.strm == .x && fA w != 0) then some (cILL, wordInfo w)
  else if (i.strm.isSome && i.strm != some s.strm) || !i.ops.all (Opnd.streamOk s.strm) then some (cWSTR, wordInfo w)
  else if s.cur.priv.toNat < i.level then some (cPROT, BitVec.ofNat 64 i.level)
  else
    match winCheck s.th i.ops with
    | some e => some (cWIN, e)
    | none => none

/-- Counting an issued instruction (R76): AISS and XISS of the thread's slot. -/
def countIssue (s : State) : State :=
  if s.th.status == .free then s
  else count s s.th ((if s.strm == .a then 0x201 else 0x205) + s.th.slot) 1

/-- What every issued instruction does at its end: it is counted, its stream is not parked, no BWAIT's deadline stands
(R195), and the answers its reads had from peers are used up. -/
def retire (s : State) : State :=
  ((countIssue s).updCur fun c =>
    { c with park := none, deadline := none, object := none, freed := none, ibuf := [], popped := [] }).updTh fun t =>
    if s.strm == .a then { t with polled := [] } else t

/-- Whether a mailbox register is held (R251). -/
def heldReg (t : Thread) (ph : Nat) : Bool := (Store.get (⟨0, 0⟩ : Hold) t.hold ph).left != 0

/-- The first held register among `n` window names from one. -/
def heldFrom (t : Thread) (r : Reg) : Nat → Nat → Option Nat
  | 0, _ => none
  | n + 1, k =>
    let ph := 8 * t.wbase + r.toNat + k
    if heldReg t ph then some ph else heldFrom t r n (k + 1)

/-- The first held register that an instruction names, as source or destination (R251). -/
def heldName (t : Thread) : List Opnd → Option Nat
  | [] => none
  | .vec r n :: os =>
    match heldFrom t r n 0 with
    | some ph => some ph
    | none => heldName t os
  | _ :: os => heldName t os

/-- Whether a vector instruction in flight has still to write a scalar, or to push to a port. -/
def scalarPending (t : Thread) (n : Nat) : Bool :=
  t.flying.any fun f => f.eff.gw.any (fun g => g.1 == n) || f.eff.push.any fun p => p.1 == n

/-- Whether an operand of an X instruction waits for earlier vector work: a scalar or a port that work has still to
write, for a branch on a predicate, that predicate, and for a write of tol, every function instruction, which may have to
read it again (R52, R232, R265). -/
def operandWaits (o : Op) (t : Thread) : Opnd → Bool
  | .dst r | .rw r => scalarPending t r.toNat || (r.toNat == 127 && t.flying.any fun f => f.eff.unit.isSome)
  | .src r | .qid r => scalarPending t r.toNat
  | .gprs r n => (List.range n).any fun k => scalarPending t (r.toNat + k)
  | .pred r => (o == .bany || o == .bnone) && t.flying.any fun f => f.eff.pw.any fun w => w.p == r.toNat
  | _ => false

/-- Whether an instruction stalls for earlier vector work of its thread (R265): a STAIR reads scalars it does not name. -/
def stalls (o : Op) (w : Word) (s : State) : Bool :=
  s.strm == .x && ((opInfo w o).ops.any (operandWaits o s.th) ||
    (o == .stair && s.th.flying.any fun f => !f.eff.gw.isEmpty))

/-- ISSUE of an instruction: the decode checks, a park while a register it names is held (VHOLD itself replaces the
hold, R251, and GMBOX leaves it armed, R249), a stall while an operand waits for earlier vector work, then its effect. -/
def issue (o : Op) (w : Word) (body : M Unit) (s : State) : Out :=
  match gate o w s with
  | some (c, i) => .next (takeTrap s c i)
  | none =>
    match (if o == .vhold || o == .gmbox then none else heldName s.th (opInfo w o).ops) with
    | some ph => .next (takePark s (.held ph))
    | none => if stalls o w s then .next (takePark s .work) else settle s ((do body; upd retire : M Unit) s)

/-- An instruction whose effect is followed by the next word. -/
def issueN (o : Op) (w : Word) (body : M Unit) (s : State) : Out :=
  issue o w (do body; upd advance) s

/-- ILL with the instruction's own word: a use its entry forbids (R79). -/
def illWord {α : Type} (w : Word) : M α := trap cILL (wordInfo w)

end Sys2Proof.Machine
end

