-- ==== Sys2Proof/Machine/Control.lean ====
section
/-! DEFINITION. Branches, calls and traps (05_scalar_control, R124 to R130), and the link stack (R66). -/

namespace Sys2Proof.Machine

/-! ## Shared operations -/

/-- The target of a branch: its own address plus four times a signed offset (R97). -/
def target {n : Nat} (s : State) (o : BitVec n) : Dword := s.cur.pc + (o.signExtend 64) * 4

/-- A branch with its target, taken or not (R124). -/
def branchIf {n : Nat} (c : Bool) (o : BitVec n) : M Unit := do
  if c then
    let t ← see fun s => target s o
    jump t
  else upd advance

/-- A branch on the value of a scalar (R124). -/
def branchOn {n : Nat} (c : Reg) (p : Dword → Bool) (o : BitVec n) : M Unit := do
  let v ← rd c
  branchIf (p v) o

/-- Bits [n−1:0] set. -/
def lowMask (n : Nat) : Mask := BitVec.ofNat 2048 (2 ^ (min n 2048) - 1)

/-- A predicate's value: p0 reads all ones (R59). -/
def predVal (t : Thread) (p : Nat) : Mask := if p == 0 then BitVec.allOnes 2048 else Store.get 0 t.pred p

/-- Whether any bit below vl of a predicate is set (R126). -/
def predAny (s : State) (p : Reg) : Bool := predVal s.th p.toNat &&& lowMask s.cur.vl.toNat != 0

/-- The physical register a window name reaches (R56). -/
def phys (t : Thread) (v : Reg) (k : Nat) : Nat := 8 * t.wbase + v.toNat + k

/-- The stream a physical register is bound to (R57, R176). -/
def boundTo (t : Thread) (ph : Nat) : Option Nat := if Store.has t.bind ph then some (Store.get 0 t.bind ph) else none

/-- A vector stream of a thread. -/
def Thread.vstream (t : Thread) (j : Nat) : VStream := Store.get VStream.empty t.vs j
/-- A vector stream replaced. -/
def Thread.setVstream (t : Thread) (j : Nat) (v : VStream) : Thread := { t with vs := Store.put VStream.empty t.vs j v }

/-- The spill area of the issuing stream's link stack (R66). -/
def spillBase (s : State) : Dword := if s.strm == .a then s.th.spilla else s.th.spillx

/-- The place of a spilled entry: spill traffic is alcove traffic of the thread's core (R66). -/
def spillPlace (s : State) (j : Nat) : Nat := alcoveAt s.th.lcore ((spillBase s).toNat % 2 ^ 21 + 8 * j)

/-- A return address pushed on the issuing stream's link stack (R66, R128): a full hardware stack spills its oldest
entry, and 144 entries in use take LSO before anything is pushed. -/
def linkPush (ra : Dword) : M Unit := do
  let s ← get
  let c := s.cur
  if c.link.length < 16 then updC fun c => { c with link := ra :: c.link }
  else if c.spill < 128 then
    let s' := writeLE s (spillPlace s c.spill) 8 (atD 0 15 c.link).toNat
    set (s'.updCur fun c => { c with link := ra :: c.link.take 15, spill := c.spill + 1 })
  else trap cLSO (spillBase s)

/-- The newest return address popped (R66, R128); the pop of the last hardware entry brings the most recently spilled
one back. An empty stack gives none. DEDUCED: an uncorrectable error in the spilled entry takes ECC precisely, as a load of
alcove memory does, with the entry's VA in EINFO (R417, log 25). -/
def linkPop : M (Option Dword) := do
  let s ← get
  let c := s.cur
  match c.link with
  | [] => pure none
  | [ra] =>
    if c.spill == 0 then
      updC fun c => { c with link := [] }
      pure (some ra)
    else
      let k := spillPlace s (c.spill - 1)
      need (!badUnit s k 8) cECC (spillBase s + BitVec.ofNat 64 (8 * (c.spill - 1)))
      let v : Dword := BitVec.ofNat 64 (readLE s k 8)
      updC fun c => { c with link := [v], spill := c.spill - 1 }
      pure (some ra)
  | ra :: r =>
    updC fun c => { c with link := r }
    pure (some ra)

/-! ## The instructions -/

/-- B (R124). Branches unconditionally. -/
def execB (o : BitVec 18) (s : State) : Out :=
  issue .b (fmtL 0x10#7 0#7 o) (branchIf true o) s

/-- BZ (R124). Branches when the scalar is zero. -/
def execBz (c : Reg) (o : BitVec 18) (s : State) : Out :=
  issue .bz (fmtL 0x11#7 c o) (branchOn c (fun v => v == 0) o) s

/-- BNZ (R124). Branches when the scalar is nonzero. -/
def execBnz (c : Reg) (o : BitVec 18) (s : State) : Out :=
  issue .bnz (fmtL 0x12#7 c o) (branchOn c (fun v => v != 0) o) s

/-- BLTZ (R124). Branches when the scalar is negative. -/
def execBltz (c : Reg) (o : BitVec 18) (s : State) : Out :=
  issue .bltz (fmtL 0x13#7 c o) (branchOn c (fun v => v.msb) o) s

/-- BGEZ (R124). Branches when the scalar is non-negative. -/
def execBgez (c : Reg) (o : BitVec 18) (s : State) : Out :=
  issue .bgez (fmtL 0x14#7 c o) (branchOn c (fun v => !v.msb) o) s

/-- CALL (R128). Pushes the return address on the link stack and branches. -/
def execCall (o : BitVec 18) (s : State) : Out :=
  issue .call (fmtL 0x15#7 0#7 o) (do
    let pc ← see fun s => s.cur.pc
    linkPush (pc + 4)
    branchIf true o) s

/-- RET (R128). Pops the link stack and continues at the popped address. -/
def execRet (s : State) : Out :=
  issue .ret (fmtN 0x16#7 0#25) (do
    match ← linkPop with
    | some ra => jump ra
    | none => illWord (fmtN 0x16#7 0#25)) s

/-- JR (R129). Continues at the address in sa. -/
def execJr (a : Reg) (s : State) : Out :=
  issue .jr (fmtR 0x17#7 0#7 a 0#7 0#4) (do
    let v ← rd a
    need (v.toNat % 4 == 0) cALIGN v
    jump v) s

/-- BQ (R125). Pops a branch queue and branches on the popped outcome. -/
def execBq (c : Reg) (o : BitVec 18) (s : State) : Out :=
  issue .bq (fmtL 0x18#7 c o) (do
    let v ← popQ c.toNat
    branchIf (v != 0) o) s

/-- BANY (R126). Branches when any predicate bit below vl is set. -/
def execBany (c : Reg) (o : BitVec 18) (s : State) : Out :=
  issue .bany (fmtL 0x19#7 c o) (do
    let t ← see fun s => predAny s c
    branchIf t o) s

/-- BNONE (R126). Branches when no predicate bit below vl is set. -/
def execBnone (c : Reg) (o : BitVec 18) (s : State) : Out :=
  issue .bnone (fmtL 0x1a#7 c o) (do
    let t ← see fun s => predAny s c
    branchIf (!t) o) s

/-- BEND (R127). Branches when the end flag of the bound stream's last consumed chunk is set. -/
def execBend (c : Reg) (o : BitVec 18) (s : State) : Out :=
  issue .bend (fmtL 0x1c#7 c o) (do
    let s ← get
    match boundTo s.th (phys s.th c 0) with
    | some j => if j ≤ 7 then branchIf (s.th.vstream j).held o else illWord (fmtL 0x1c#7 c o)
    | none => illWord (fmtL 0x1c#7 c o)) s

/-- NOP (R130). Has no effect. -/
def execNop (s : State) : Out :=
  issueN .nop (fmtN 0x1d#7 0#25) (pure ()) s

/-- YIELD (R130). Passes the stream's issue turn to the next ready thread. -/
def execYield (s : State) : Out :=
  issueN .yield (fmtN 0x1e#7 0#25) (pure ()) s

/-- TRAP (R130). Takes SWT with code25 in EINFO. -/
def execTrap (c : BitVec 25) (s : State) : Out :=
  issueN .trap (fmtN 0x1f#7 c) (trap cSWT (c.setWidth 64)) s

end Sys2Proof.Machine
end

