-- ==== Sys2Proof/Machine/Access.lean ====
section
/-! DEFINITION. Accesses to memory by a thread: where an address leads (R179 to R181, R280, R390 to R395), the
interlocks of R288, the stamps of the RACE axiom (R292, R304 to R307), error-correction traps (R417), the digest
(R422), execution sites of atomics (R289), and instruction fetch (R94, R103). -/

namespace Sys2Proof.Machine

/-! ## Where an address leads -/

/-- A reduction-table entry of a partition (R407), and the HOME it names. -/
def redEntry (s : State) (pn idx : Nat) : Bytes := readBytes s (blockBase (getPart s pn) + 0x4000 + 32 * idx) 32
def redHome (e : Bytes) : Nat := leNat ((e.drop 8).take 2)

/-- The home of a RED page. -/
def leafHome (s : State) (pn : Nat) (leaf : Dword) : Nat := redHome (redEntry s pn (ptePeer leaf % 256))

/-- Whether every outstanding request of the issuing thread's core is in use (R266). -/
def requestsFull (s : State) : Bool := 1024 ≤ (s.reqs.filter fun q => q.lcore == s.th.lcore).length

/-- The trap a NACK cause gives, with its EINFO; causes 5 and 6 give none (R402, R418). -/
def nackFailure (cause va : Nat) : Option (BitVec 8 × Dword) :=
  match cause with
  | 1 | 2 => some (cPROT, BitVec.ofNat 64 va)
  | 3 => some (cECC, BitVec.ofNat 64 va)
  | 4 => some (cDEVERR, BitVec.ofNat 64 (0x08 * 2 ^ 56 + va % 2 ^ 55))
  | _ => none

/-- An access waits for the frame of its page; where the peer has refused the page, or not answered in time, it takes that
trap and the frame is given back (R394, R395, R402). -/
def frameWait (f : Frame) (va : Dword) : M Route := fun s =>
  match f.failed.bind fun c => nackFailure c va.toNat with
  | some (c, i) => .error (.trapBack (dropFrame s f.pa) c i)
  | none => .error (.park .reply)

/-- An access of `n` bytes at a VA: translation, protection and mode (R179, R181, R390 to R395). It stalls while no
request is free (R266), and waits while a replica fill or a migration runs. A frame of another device's page is not
checked under the RACE axiom (R304). Mode 7 is a table that firmware shows an usher, read-only (R371, R383). -/
def resolve (va : Dword) (n : Nat) (a : Acc) : M Route := fun s =>
  let v := va.toNat
  if a != .fetch && requestsFull s then .error (.park .work)
  else
  let cold := (tlbFind s s.th.part v).isNone
  if inFirmware s s.th v n then
    if a == .read && (List.range n).all fun j => (firmwareByte s s.th (v + j)).isSome then .ok (⟨v, 7, 0⟩, s)
    else .error (.trapBack s cPROT va)
  else if v < 2 ^ 32 then
    match (if a == .fetch then none else threadPlace s s.th v n) with
    | some k => .ok (⟨k, 0, 0⟩, s)
    | none => .error (.trapBack s cPROT va)
  else if 2 ^ 55 ≤ v then .error (.trapBack s cXLAT va)
  else
    match lookup s s.th.part v with
    | none => .error (.trapBack (count s s.th 0x216 1) cXLAT va)
    | some (e, s) =>
      let s := if cold then count (count s s.th 0x216 1) s.th 0x217 1 else s
      let p := getPart s s.th.part
      let m := effMode s p e
      if !permits m e.leaf s.cur.priv a then .error (.trapBack s cPROT va)
      else if m == 0 then
        if inWindows p (e.addr v) n then .ok (⟨e.addr v, 0, e.leaf⟩, s) else .error (.trapBack s cPROT va)
      else if m == 2 then
        match frameOf s s.th.part e.vpage with
        | some f =>
          if !f.filled then frameWait f va s
          else if inWindows p (f.pa + v % 65536) n then .ok (⟨f.pa + v % 65536, 0, e.leaf &&& ~~~0x40⟩, useFrame s f.pa)
          else .error (.trapBack s cPROT va)
        | none =>
          match fillPage s s.th.part e false with
          | some s' => .error (.again s' .reply)
          | none => .error (.park .reply)
      else if m == 3 then
        match movingFrame s s.th.part e.vpage with
        | some f => frameWait f va s
        | none =>
          match (if e.acnt == 0 then fillPage s s.th.part e true else none) with
          | some s' => .error (.again s' .reply)
          | none => .ok (⟨e.addr v, 1, e.leaf⟩, s)
      else if 5 ≤ m && leafHome s s.th.part e.leaf == accId s p && !inWindows p (e.addr v) n then
        .error (.trapBack s cPROT va)
      else .ok (⟨e.addr v, m, e.leaf⟩, s)

/-- Natural alignment (R180). -/
def aligned (va : Dword) (n : Nat) : M Unit := need (va.toNat % n == 0) cALIGN va

/-! ## Interlocks (R288) -/

/-- The 8-byte little-endian field of a byte list, and shorter ones. -/
def field (bs : Bytes) (off n : Nat) : Nat := leNat ((bs.drop off).take n)

/-- Whether two byte ranges share a byte. -/
def overlaps (a n b m : Nat) : Bool := a < b + m && b < a + n

/-- The element size of a tensor format in bytes (R73); NI8 counts one byte of a plane. -/
def fmtSize (f : Nat) : Nat :=
  match f with
  | 0x01 | 0x13 | 0x14 | 0x20 => 1
  | 0x02 | 0x11 | 0x12 => 2
  | 0x03 | 0x10 | 0x31 => 4
  | 0x30 => 8
  | _ => 1

/-- A run of bytes of a transfer: its VA, its length, and where it stands in the transfer's data. -/
structure Run where
  va : Nat
  n : Nat
  off : Nat
  deriving DecidableEq, Repr

/-- One element of `n` bytes; a misaligned one byte by byte. -/
def elemRuns (va n off : Nat) : List Run :=
  if va % n == 0 then [⟨va, n, off⟩] else (List.range n).map fun j => ⟨(va + j) % 2 ^ 64, 1, off + j⟩

/-- Neighbouring runs joined, as far as one aligned line of `lim` bytes reaches. -/
def coalesceBy (lim : Nat) : List Run → List Run
  | [] => []
  | r :: rs =>
    match coalesceBy lim rs with
    | [] => [r]
    | q :: qs =>
      if r.va + r.n == q.va && r.off + r.n == q.off && (q.va + q.n - 1) / lim == r.va / lim then
        ⟨r.va, r.n + q.n, r.off⟩ :: qs
      else r :: q :: qs

/-- Runs of one request each (R398). -/
def coalesce (rs : List Run) : List Run := coalesceBy 256 rs

/-- The parts of a byte range that lie in one 256-byte line each, by offset and length (R398). -/
def lineParts (va n : Nat) : List (Nat × Nat) :=
  (List.range (n / 256 + 2)).filterMap fun k =>
    let lo := max va (256 * (va / 256 + k))
    let hi := min (va + n) (256 * (va / 256 + k + 1))
    if lo < hi then some (lo - va, hi - lo) else none

/-- The fields of a tensor identifier record (R73). -/
def tidFmt (r : Bytes) : Nat := field r 0 1
def tidPlanes (r : Bytes) : Nat := field r 1 1 % 16
def tidBlk (r : Bytes) : Nat := field r 2 1
def tidDim (r : Bytes) (k : Nat) : Nat := field r (4 + 2 * k) 2
def tidStride (r : Bytes) (k : Nat) : Nat := if k == 0 then fmtSize (tidFmt r) else field r (0x0C + 4 * (k - 1)) 4
def tidScale (r : Bytes) : Nat := field r 0x18 8

/-- The flags and extents of a copy descriptor (R205). -/
def Copy.kind (c : Copy) : Nat := field c.desc 0x12 1
def Copy.flag (c : Copy) (b : Nat) : Bool := field c.desc 0x14 2 / 2 ^ b % 2 == 1
def Copy.ext (c : Copy) (k : Nat) : Nat := field c.desc (0x18 + 2 * k) 2
def Copy.src (c : Copy) : Nat := field c.desc 0 8
def Copy.dst (c : Copy) : Nat := field c.desc 8 8

/-- The four indices of box element `m`, i0 fastest (R206). -/
def boxIdx (e0 e1 e2 m : Nat) : Nat × Nat × Nat × Nat :=
  (m % e0, m / e0 % e1, m / e0 / e1 % e2, m / e0 / e1 / e2)

/-- Where box element `m` of a tensor-described side lies, or none beyond its extent (R201, R206). -/
def tidElem (r : Bytes) (base e0 e1 e2 m : Nat) : Option Nat :=
  let (i0, i1, i2, i3) := boxIdx e0 e1 e2 m
  if i0 < tidDim r 0 && i1 < tidDim r 1 && i2 < tidDim r 2 && i3 < tidDim r 3 then
    some ((base + i0 * tidStride r 0 + i1 * tidStride r 1 + i2 * tidStride r 2 + i3 * tidStride r 3) % 2 ^ 64)
  else none

/-- Bytes of one element of a copy: that of the described side's format, or one byte. -/
def Copy.size (c : Copy) : Nat :=
  if c.flag 2 then fmtSize (tidFmt c.srcTid) else if c.flag 3 then fmtSize (tidFmt c.dstTid) else 1

/-- Whether a side of the copy is an NI8 tensor, which moves in whole plane blocks (R206). -/
def Copy.ni8 (c : Copy) : Bool :=
  (c.flag 2 && tidFmt c.srcTid == 0x20) || (c.flag 3 && tidFmt c.dstTid == 0x20)

/-- The planes of an NI8 copy: those of the source's record where it has one. DESIGN CHOICE: where the two records' counts
differ, which R205 does not refuse, the source's stands for both sides (log 82). -/
def Copy.planes (c : Copy) : Nat := tidPlanes (if c.flag 2 && tidFmt c.srcTid == 0x20 then c.srcTid else c.dstTid)

/-- The linear index of box element `m` on a side of an NI8 copy (R201, R206): that of the tensor, none beyond its extents;
on a side without a record the box's own. -/
def Copy.spot (c : Copy) (described : Bool) (r : Bytes) (m : Nat) : Option Nat :=
  if !described then some m
  else
    let (i0, i1, i2, i3) := boxIdx (c.ext 0) (c.ext 1) (c.ext 2) m
    if i0 < tidDim r 0 && i1 < tidDim r 1 && i2 < tidDim r 2 && i3 < tidDim r 3 then
      some (i0 + tidDim r 0 * (i1 + tidDim r 1 * (i2 + tidDim r 2 * i3)))
    else none

/-- The box element that stands at a linear index of such a side. -/
def Copy.boxAt (c : Copy) (described : Bool) (r : Bytes) (j : Nat) : Option Nat :=
  if !described then some j
  else
    let (i0, i1, i2, i3) := boxIdx (tidDim r 0) (tidDim r 1) (tidDim r 2) j
    if i0 < c.ext 0 && i1 < c.ext 1 && i2 < c.ext 2 && i3 < c.ext 3 then
      some (i0 + c.ext 0 * (i1 + c.ext 1 * (i2 + c.ext 2 * i3)))
    else none

/-- The plane blocks of a side that hold box elements `m` to `m + n - 1`, in the order of those elements (R18, R206). -/
def Copy.blocks (c : Copy) (described : Bool) (r : Bytes) (m n : Nat) : List Nat :=
  ((List.range n).filterMap fun j => (c.spot described r (m + j)).map fun i => i / 2048).eraseDups

/-- The runs of those blocks, one of 256 bytes to a plane for each (R291): a tensor's blocks stand 2 KiB apart, those of a
side without a record one after another. -/
def Copy.blockRuns (c : Copy) (described : Bool) (r : Bytes) (base m n : Nat) : List Run :=
  let sz := 256 * c.planes
  (c.blocks described r m n).zipIdx.map fun b => ⟨(base + b.1 * (if described then 2048 else sz)) % 2 ^ 64, sz, b.2 * sz⟩

/-- The address of element `m` on one side of a copy that is no NI8 copy (R206). -/
def Copy.sideAddr (c : Copy) (described : Bool) (r : Bytes) (base m : Nat) : Option Nat :=
  if described then tidElem r base (c.ext 0) (c.ext 1) (c.ext 2) m else some ((base + m * c.size) % 2 ^ 64)

/-- The runs of one side of `n` box elements from `m`, by their place in the piece (R206, R291). -/
def Copy.sideRuns (c : Copy) (described : Bool) (r : Bytes) (base m n : Nat) : List Run :=
  if c.ni8 then c.blockRuns described r base m n
  else
    coalesce ((List.range n).flatMap fun j => match c.sideAddr described r base (m + j) with
      | some a => elemRuns a c.size (j * c.size)
      | none => [])

/-- The runs of the source and of the destination of `n` elements of a copy from `m`. -/
def Copy.srcFrom (c : Copy) (m n : Nat) : List Run := c.sideRuns (c.flag 2) c.srcTid c.src m n
def Copy.dstFrom (c : Copy) (m n : Nat) : List Run := c.sideRuns (c.flag 3) c.dstTid c.dst m n

/-- Whether the bytes of one side that have not moved overlap a range. A side without a record is one run. -/
def Copy.sideHolds (c : Copy) (described : Bool) (r : Bytes) (base va n : Nat) : Bool :=
  let left := c.total - c.moved
  if !described && !c.ni8 then overlaps (base + c.moved * c.size) (left * c.size) va n
  else (c.sideRuns described r base c.moved left).any fun q => overlaps q.va q.n va n

/-- The runs of a tile's box (R206, R207): elements inside the record's extents, by place in the box. NI8 elements lie
in plane blocks by linear index; a block's planes are one run (R291). -/
def tileRuns (c : Copy) : List Run :=
  let r := c.srcTid
  let e0 := c.ext 0
  let cells := (List.range (e0 * c.ext 1)).filter fun m => m % e0 < tidDim r 0 && m / e0 < tidDim r 1
  if tidFmt r == 0x20 then
    let blocks := (cells.map fun m => (m % e0 + tidDim r 0 * (m / e0)) / 2048).eraseDups
    blocks.map fun b => ⟨(c.src + 2048 * b) % 2 ^ 64, 256 * tidPlanes r, 2048 * b⟩
  else
    let sz := fmtSize (tidFmt r)
    coalesce (cells.flatMap fun m => elemRuns ((c.src + m % e0 * sz + m / e0 * tidStride r 1) % 2 ^ 64) sz (m * sz))

/-- Whether an access of the issuing thread must wait for one of its copies (R288). -/
def Copy.holds (c : Copy) (va n : Nat) (write : Bool) : Bool :=
  c.moved < c.total &&
  if c.kind == 2 then write && (tileRuns c).any fun r => overlaps r.va r.n va n
  else (write && c.sideHolds (c.flag 2) c.srcTid c.src va n) || c.sideHolds (c.flag 3) c.dstTid c.dst va n

/-- Bytes of one amplitude of a format (R241). -/
def svSize (f : Nat) : Nat := match f with
  | 0 => 8
  | 1 => 4
  | 2 => 4
  | _ => 2

/-- The state record and the local amplitudes of a participant: what a state-vector command holds (R288). -/
def SvCmd.ranges (c : SvCmd) (die : Nat) : List (Nat × Nat) :=
  let base := field c.recBytes 0 8
  let len := 2 ^ (field c.recBytes 8 1 - field c.recBytes 10 1) * svSize (field c.recBytes 9 1)
  (c.recVa, c.recBytes.length) ::
    if field c.recBytes 11 1 == 1 then [(base, len)]
    else (c.parts.zipIdx.filter fun p => p.1 == die).map fun p => (base + p.2 * len, len)

/-- Whether an access must wait for a state-vector command (R288). -/
def SvCmd.holds (c : SvCmd) (die va n : Nat) : Bool := (c.ranges die).any fun r => overlaps r.1 r.2 va n

/-- The transfer region that a request's payload belongs to, 0 for none (R292). -/
def FabReq.region (q : FabReq) : Nat :=
  match q.kind with
  | .fetch g .. | .deliver g _ | .red g _ | .multicast g .. => g
  | _ => 0

/-- Whether peers still owe a thread's transfer region answers. -/
def owed (s : State) (t : Thread) (region : Nat) : Bool := s.reqs.any fun q => q.of t && region != 0 && q.region == region

/-- Whether an access must wait for a request of an engine transfer that has no answer yet (R288). -/
def FabReq.holds (q : FabReq) (va n : Nat) (write : Bool) : Bool :=
  match q.kind with
  | .fetch _ _ m => write && overlaps q.va m va n
  | .deliver .. | .red .. => overlaps q.va q.data.length va n
  | .multicast region .. => region != 0 && overlaps q.va q.data.length va n
  | _ => false

/-- The 64 KiB pages that a byte range touches. -/
def pagesOf (va n : Nat) : List Nat :=
  if n == 0 then [] else (List.range ((va % 65536 + n - 1) / 65536 + 1)).map fun k => va / 65536 + k

/-- The pages of one side that a copy has still to touch. -/
def Copy.sidePages (c : Copy) (described : Bool) (r : Bytes) (base : Nat) : List Nat :=
  let left := c.total - c.moved
  if !described && !c.ni8 then pagesOf (base + c.moved * c.size) (left * c.size)
  else ((c.sideRuns described r base c.moved left).flatMap fun q => pagesOf q.va q.n).eraseDups

/-- The pages that a copy has still to touch. -/
def Copy.pages (c : Copy) : List Nat :=
  if c.kind == 2 then ((tileRuns c).map fun r => r.va / 65536).eraseDups
  else c.sidePages (c.flag 2) c.srcTid c.src ++ c.sidePages (c.flag 3) c.dstTid c.dst

/-- The entry that translates a page of a thread's addresses: the cached one, else the one a walk finds. -/
def pageEntry (s : State) (pn vp : Nat) : Option TlbEntry :=
  match tlbFind s pn (65536 * vp) with
  | some e => some e
  | none => walk s (getPart s pn) pn (65536 * vp)

/-- The page of places that a page of a thread's addresses leads to: 0 for this device, else one more than the peer. -/
def pageSpot (s : State) (t : Thread) (vp : Nat) : Option (Nat × Nat) :=
  if vp < 65536 then (spotOf t.lcore (65536 * vp)).map fun sp => (0, sp.place / 65536)
  else if vp < 2 ^ 39 then
    match pageEntry s t.part vp with
    | some e =>
      let m := effMode s (getPart s t.part) e
      if m == 2 then none
      else some (if m == 0 then 0 else if m == 4 then 2048 + ptePeer e.leaf % 256
        else if 5 ≤ m then 1 + leafHome s t.part e.leaf else 1 + ptePeer e.leaf, e.pa / 65536)
    | none => none
  else none

/-- Whether a test of addresses holds of another name of the bytes at a VA: one in a page of the list that leads where
the VA's own page leads (R288: a range is one of places, however it is addressed). -/
def aliased (s : State) (t : Thread) (pages : List Nat) (va : Nat) (held : Nat → Bool) : Bool :=
  pages.any fun vp => vp != va / 65536 && (match pageSpot s t vp, pageSpot s t (va / 65536) with
    | some x, some y => x == y
    | _, _ => false) && held (65536 * vp + va % 65536)

/-- The bytes of the sectors that an access touches: 16 bytes on chip, 64 in main memory (R288). -/
def sectorsOf (va n : Nat) : Nat × Nat :=
  let z := if va < 2 ^ 32 then 16 else 64
  if n == 0 then (va, 0) else (va / z * z, (va + n + z - 1) / z * z - va / z * z)

/-- Whether a thread's engine transfers of regions below `below` hold a sector that an access touches (R288). -/
def heldBy (s : State) (t : Thread) (below va n : Nat) (write : Bool) : Bool :=
  let (va, n) := sectorsOf va n
  (t.copies.any fun c => c.region < below &&
    (c.holds va n write || aliased s t c.pages va fun v => c.holds v n write)) ||
  (t.svcmds.any fun c => c.region < below &&
    (c.holds (dieOf t.lcore) va n ||
      aliased s t ((c.ranges (dieOf t.lcore)).flatMap fun r => pagesOf r.1 r.2) va fun v => c.holds (dieOf t.lcore) v n)) ||
  s.reqs.any fun q => q.of t && q.region != 0 && q.region < below &&
    (q.holds va n write || aliased s t [q.va / 65536] va fun v => q.holds v n write)

/-- The access waits until the thread's own engines are past the bytes (R288). -/
def interlock (va : Dword) (n : Nat) (write : Bool) : M Unit := fun s =>
  if heldBy s s.th (s.th.transfers + 1) va.toNat n write then .error (.park .work) else .ok ((), s)

/-! ## Stamps and the RACE axiom (R292, R303 to R307) -/

/-- Whether a recorded region is still open (R292, R303). -/
def regionOpen (s : State) (r : Nat × Nat × Bool × Nat) : Bool :=
  (allThreads s).any fun t =>
    t.status != .free && t.serial == r.1 && t.index == r.2.1 &&
    if r.2.2.1 then
      t.copies.any (fun c => c.region == r.2.2.2) || t.xfers.any (fun x => x.region == r.2.2.2) ||
        t.svcmds.any (fun c => c.region == r.2.2.2) || s.reqs.any (fun q => q.of t && q.kind == .word r.2.2.2)
    else t.regions == r.2.2.2

/-- Whether a sector is checked for the thread: on-chip sectors are, and main memory in a launch flagged C on a page
marked C whose home is this device (R304). -/
def checkedAt (s : State) (t : Thread) (r : Route) : Bool :=
  match launchOf s t with
  | none => false
  | some l => r.mode == 0 && (!isMain r.key || (l.record.flag 1 && pteBit r.leaf 6))

/-- Where a launch's stamp of a sector stands: accesses of other launches leave it alone (R304). -/
def stampKey (serial sector : Nat) : Nat := serial * 2 ^ 52 + sector

/-- The stamp cache that holds a sector, and the set in it: 8,192 entries for an alcove, 65,536 for a hall, 131,072 for an
atrium, and those of the dies together for main memory, 8 to a set (R293, log 56). -/
def stampSet (sector : Nat) : Nat × Nat :=
  if isMain sector then (0, sector / 64 % 2 ^ 20)
  else if sector < 2 ^ 49 then (1 + (sector - 2 ^ 48) / 2 ^ 21, sector % 2 ^ 21 / 16 % 1024)
  else if sector < 2 ^ 50 then (1000 + (sector - 2 ^ 49) / 2 ^ 24, sector % 2 ^ 24 / 16 % 8192)
  else (2000 + (sector - 2 ^ 50) / 2 ^ 26, sector % 2 ^ 26 / 16 % 16384)

/-- Whether an entry is live: some region it records is open (R293). -/
def Stamp.live (s : State) (st : Stamp) : Bool :=
  (match st.writer with
    | some w => regionOpen s w
    | none => false) || st.readers.any (regionOpen s)

/-- The stamps with room for an entry: in a full set a dead one gives way, else the least recently used live one, whose
sector's tracking lapses (R293). -/
def stampRoom (s : State) (key sector : Nat) : Store Stamp :=
  if Store.has s.stamps key then s.stamps
  else
    let mine := s.stamps.filter fun e => stampSet (e.1 % 2 ^ 52) == stampSet sector
    if mine.length < 8 then s.stamps
    else
      let dead := mine.filter fun e => !e.2.live s
      match (if dead.isEmpty then mine else dead) with
      | [] => s.stamps
      | e0 :: r =>
        let old := r.foldl (fun m e => if e.2.used < m.2.used then e else m) e0
        s.stamps.filter fun e => e.1 != old.1

/-- Whether an access of thread index `idx` conflicts with the recorded, still open regions (R304, R305). -/
def conflicts (s : State) (st : Stamp) (serial idx : Nat) (write : Bool) : Bool :=
  let other (r : Nat × Nat × Bool × Nat) : Bool := r.1 == serial && r.2.1 != idx && regionOpen s r
  (match st.writer with
    | some w => other w
    | none => false) || (write && st.readers.any other)

/-- The stamp after an access (R292, R307). -/
def Stamp.record (st : Stamp) (me : Nat × Nat × Bool × Nat) (write : Bool) : Stamp :=
  if write then { st with writer := some me, readers := [], lapse := false }
  else if st.writer == some me || st.readers.contains me || st.lapse then st
  else if st.readers.length < 4 then { st with readers := st.readers ++ [me] }
  else { st with lapse := true }

/-- A plain access of one sector recorded; none where it conflicts. -/
def stampSector (s : State) (t : Thread) (me : Nat × Nat × Bool × Nat) (sector : Nat) (write : Bool) : Option State :=
  let key := stampKey t.serial sector
  let st := Store.get Stamp.reset s.stamps key
  if conflicts s st t.serial t.index write then none
  else some { s with
    stamps := Store.put Stamp.reset (stampRoom s key sector) key { st.record me write with used := s.stampUse + 1 }
    stampUse := s.stampUse + 1 }

/-- A plain scalar access of the issuing stream, checked and recorded (R305). The owning core must confirm that the
earlier region is open before MMX is taken (R306). -/
def stampPlain (va : Dword) (r : Route) (write : Bool) : M Unit := fun s =>
  if !checkedAt s s.th r then .ok ((), s)
  else
    let sz := sectorSize r.key
    let sector := r.key / sz * sz
    match stampSector s s.th (s.th.serial, s.th.index, false, s.th.regions) sector write with
    | some s' => .ok ((), s'.updTh fun t => { t with confirm := [] })
    | none =>
      if s.th.confirm.contains (sector, true) then
        .error (.trapBack s cMMX (va - BitVec.ofNat 64 (r.key - sector)))
      else if s.th.confirm.contains (sector, false) then .error (.park .reply)
      else .error (.again ((count s s.th 0x219 1).updTh fun t => { t with confirm := [(sector, false)] }) .reply)

/-- A region boundary of the issuing thread (R183, R303): it waits where the next tag is still held (R292). -/
def boundary : M Unit := fun s =>
  let n := s.th.regions + 1
  let held (r : Nat × Nat × Bool × Nat) : Bool :=
    r.1 == s.th.serial && r.2.1 == s.th.index && !r.2.2.1 && r.2.2.2 != n && r.2.2.2 % 4096 == n % 4096
  if s.stamps.any (fun e => (match e.2.writer with
      | some w => held w
      | none => false) || e.2.readers.any held) then .error (.park .work)
  else .ok ((), s.updTh fun t => { t with regions := n })

/-- A memory request of the issuing thread's A stream or engines counted (R76). -/
def countReq (s : State) : State := count s s.th 0x211 1

/-- A request sent to a peer for the issuing thread. -/
def sendReq (s : State) (kind : ReqKind) (peer : Nat) (va : Dword) (pa : Nat) (data : Bytes) (dst : Option Reg) : State :=
  sendFor (countReq s) s.th kind peer va.toNat pa data dst []

/-- Whether a request is a load or an atomic of an A stream, which has issued and holds the stream until its answer
comes. -/
def FabReq.holdsStream (q : FabReq) : Bool :=
  match q.kind with
  | .load | .atomic .. | .gmove .. => true
  | _ => false

/-- Whether a thread has a load or atomic without its answer. -/
def awaiting (s : State) (t : Thread) : Bool := s.reqs.any fun q => q.of t && q.holdsStream

/-- Whether the issuing thread has. -/
def awaitingReply (s : State) : Bool := awaiting s s.th

/-! ## Execution sites of atomics (R289, R76) -/

/-- The home that tracks a line: the atrium of its die, or the slice of its channel, for which the model takes the line's
number modulo the 512 channels (log 71). -/
def siteHome (key : Nat) : Nat := if isMain key then key / 64 % 512 else 512 + (key - 2 ^ 50) / 2 ^ 26

/-- The lines tracked, with room for one more at a home of 4,096: the one that an atomic reached longest ago gives way
(R289, log 71). -/
def siteRoom (s : State) (line : Nat) : Store LineSite :=
  if Store.has s.sites line then s.sites
  else
    let mine := s.sites.filter fun e => siteHome (64 * e.1) == siteHome (64 * line)
    if mine.length < 4096 then s.sites
    else
      let last (e : Nat × LineSite) : Nat := (e.2.recent.map fun c => c.2).foldl max 0
      match mine with
      | [] => s.sites
      | e0 :: r =>
        let old := r.foldl (fun m e => if last e < last m then e else m) e0
        s.sites.filter fun e => e.1 != old.1

/-- An access of `n` bytes that is no atomic of the lease-holding die recalls the leases of their lines (R289). -/
def siteRecall (s : State) (key n : Nat) : State :=
  { s with sites := s.sites.map fun e =>
      if key / 64 ≤ e.1 && 64 * e.1 < key + n then (e.1, { e.2 with lease := none }) else e }

/-- An atomic of a core reaches an atrium or main-memory line: far on a SYSAT page (R393), else near under a lease of its
die, or far once four cores have met there; only timing and the counters depend on it. -/
def siteAtomic (s : State) (t : Thread) (key : Nat) (sysat : Bool) : State :=
  if sysat then count (siteRecall s key 1) t 0x215 1
  else
    let line := key / 64
    let now := s.cycles
    let l := Store.get LineSite.reset s.sites line
    let recent := (t.lcore, now) :: l.recent.filter fun e => e.1 != t.lcore && now < e.2 + 16384
    let far := l.far || 4 ≤ (recent.filter fun e => now < e.2 + 1024).length
    let l' : LineSite := ⟨far, if far then none else some (dieOf t.lcore, now), recent⟩
    count { s with sites := Store.put LineSite.reset (siteRoom s line) line l' } t (if far then 0x215 else 0x214) 1

/-- Whether a place has an execution site to choose: atrium and main-memory lines do (R289). -/
def hasSite (key : Nat) : Bool := isMain key || decide (2 ^ 50 ≤ key)

/-- The sites after an atomic of a thread at a route of this device. -/
def atomicSite (s : State) (t : Thread) (r : Route) : State :=
  if hasSite r.key then siteAtomic s t r.key (pteBit r.leaf 7) else s

/-! ## Loads and stores -/

/-- The bytes a route of this device reads: of memory, or of a table that firmware shows (mode 7). -/
def routeBytes (s : State) (r : Route) (n : Nat) : Bytes :=
  if r.mode == 7 then (List.range n).map fun j => (firmwareByte s s.th (r.key + j)).getD 0 else readBytes s r.key n

/-- Whether a read of a route of this device meets an uncorrectable error (R417). -/
def Route.bad (r : Route) (s : State) (n : Nat) : Bool := r.mode != 7 && badUnit s r.key n

/-- The value of a readable local place (R417), read by a memory request. -/
def readAt (r : Route) (n : Nat) : M Bytes := fun s =>
  .ok (routeBytes s r n, let s := countReq s; if r.mode == 7 then s else siteRecall s r.key n)

/-- Bytes that software writes at a place of this device (R389). -/
def putAt (s : State) (pn key : Nat) (bs : Bytes) : State :=
  if isMain key then softWrite s (getPart s pn) key bs else writeBytes s key bs

/-- Bytes written at a local place by a committed write of the issuing thread: a narrower write into a bad unit traps
ECC (R417); main memory counts in the digest (R422) unless `quiet`. -/
def writeAt (va : Dword) (r : Route) (bs : Bytes) (quiet : Bool) : M Unit := fun s =>
  if badMerge s r.key bs.length then .error (.trap cECC va)
  else
    let s := putAt (siteRecall (countReq s) r.key bs.length) s.th.part r.key bs
    .ok ((), if isMain r.key && !quiet then foldDigest s s.th va.toNat bs else s)

/-- How an access stands to the RACE axiom and to its region (R183). -/
inductive Cls where
  | plain                      -- checked against the stamps
  | relaxed                    -- synchronising, no region boundary
  | acquire                    -- a region boundary
  | release                    -- a region boundary, after the thread's earlier stores
  | sc                         -- a region boundary; a read after its earlier SC stores, a write after all of them (R299)
  deriving DecidableEq, Repr

/-- The device that answers a read or takes a write of a route: the leaf's PEER, or the HOME of a RED page's entry. -/
def Route.peer (r : Route) (s : State) : Nat := if 5 ≤ r.mode then leafHome s s.th.part r.leaf else ptePeer r.leaf

/-- Whether a route's bytes stand on this device. -/
def Route.here (r : Route) (s : State) : Bool :=
  r.mode == 0 || r.mode == 7 || (5 ≤ r.mode && r.peer s == accId s (getPart s s.th.part))

/-- Whether the issuing thread has stores on the fabric without their answers; only SC ones with `sc`. -/
def storesOut (s : State) (sc : Bool := false) : Bool :=
  s.reqs.any fun q => q.of s.th && (!sc || q.sc) &&
    match q.kind with
    | .store _ | .multicast .. | .red .. => true
    | _ => false

/-- Whether the issuing thread has payload or completion words of engine transfers on the fabric without their answers
(R189). -/
def payloadOut (s : State) : Bool :=
  s.reqs.any fun q => q.of s.th &&
    (q.region != 0 || match q.kind with
      | .word _ => true
      | _ => false)

/-- What the class of an access asks before it is performed. -/
def classify (k : Cls) (va : Dword) (r : Route) (write : Bool) : M Unit :=
  match k with
  | .plain => stampPlain va r write
  | .relaxed => pure ()
  | .acquire => boundary
  | .release => do
    if ← see fun s => storesOut s then park .reply else pure ()
    boundary
  | .sc => do
    if ← see fun s => storesOut s (!write) then park .reply else pure ()
    boundary

/-- A load of `n` bytes into a scalar (R182, R184): from this device at once; from a peer when it answers. -/
def loadTo (d : Reg) (va : Dword) (n : Nat) (k : Cls) : M Unit := do
  aligned va n
  if ← see awaitingReply then park .reply else pure ()
  let r ← resolve va n .read
  interlock va n false
  let s0 ← get
  classify k va r false
  let s ← get
  if r.here s then
    failBack s0 (r.bad s n) cECC va
    let bs ← readAt r n
    wr d (BitVec.ofNat 64 (leNat bs))
  else
    portRoom d
    set (sendReq s .load (r.peer s) va r.key (leBytes 1 n) (some d))
    parkHere .reply

/-- Requests for the parts of a block that a peer holds (R398). -/
def askBlock (s : State) (va : Dword) (r : Route) (parts : List (Nat × Nat)) : State :=
  parts.foldl (fun s q => sendReq s .poll (r.peer s) (va + BitVec.ofNat 64 q.1) (r.key + q.1) (leBytes 2 q.2) none) s

/-- Bytes an instruction reads before it issues, once `free` lets it: from this device, or as a peer has answered; a peer
not yet asked is asked, and the stream waits. -/
def readBlockOnce (free : M Unit) (va : Dword) (n : Nat) (p : Park) : M Bytes := do
  if ← see awaitingReply then park .reply else pure ()
  let parts := lineParts va.toNat n
  let s ← get
  match (if parts.isEmpty then none
    else parts.mapM fun q => s.th.polled.find? fun e => e.1 == va.toNat + q.1 && e.2.length == q.2) with
  | some l => pure (l.flatMap fun e => e.2)
  | none =>
    let r ← resolve va n .read
    free
    let s ← get
    if r.here s then
      failBack s (r.bad s n) cECC va
      readAt r n
    else if s.reqs.any fun q => q.of s.th && q.kind == .poll then park p
    else fun s0 => .error (.again (askBlock s0 va r parts) p)

/-- Such a read that the thread's own engine transfers hold off (R288). -/
def readBlock (va : Dword) (n : Nat) (p : Park) : M Bytes := readBlockOnce (interlock va n false) va n p

/-- One write of a page replicated to every peer of its group (R405, R406), where group and ownership permit it. -/
def multicastGroup (s : State) (pn g : Nat) : Option (List Nat) :=
  let p := getPart s pn
  let b := blockBase p
  let e := b + 0x10000 + 256 * g
  let bs := readBytes s e 256
  let n := field bs 0 1
  let peers := (List.range 64).map fun k => field bs (0x10 + 2 * k) 2
  if readLE s (b + 0x30 + g / 8) 1 / 2 ^ (g % 8) % 2 == 1 && 1 ≤ n && n ≤ 64 &&
      (bs.drop 1).take 15 == List.replicate 15 0 && bs.drop 0x90 == List.replicate 112 0 &&
      peers.all (fun q => decide (q < 1024)) then some (peers.take n)
  else none

/-- Whether a multicast group entry is invalid, which its writer is told by an event record (R405). -/
def groupInvalid (s : State) (pn g : Nat) : Bool :=
  let bs := readBytes s (blockBase (getPart s pn) + 0x10000 + 256 * g) 256
  64 < field bs 0 1 || (bs.drop 1).take 15 != List.replicate 15 0 || bs.drop 0x90 != List.replicate 112 0 ||
    (List.range 64).any fun k => 1024 ≤ field bs (0x10 + 2 * k) 2

/-- A multicast record after the answers of one request (R406). -/
def mcApply (bs : Bytes) (u : Nat × Nat × Option (Nat × Nat)) : Bytes :=
  let had := field bs 10 2
  leBytes 8 ((field bs 0 8 + 1) % 2 ^ 64) ++ leBytes 2 (min 65535 (field bs 8 2 + u.1)) ++
    leBytes 2 (min 65535 (had + u.2.1)) ++ match u.2.2 with
    | some (peer, cause) => if had == 0 then leBytes 4 (peer + cause * 2 ^ 16) else (bs.drop 12).take 4
    | none => (bs.drop 12).take 4

/-- The record at the address MCWORD held at issue brought up to date when every copy of a request has its answer (R406,
R412): here as one 16-byte write; in a peer's page by requests that read and write it, in the order of the answers. -/
def mcUpdate (s : State) (t : Thread) (word : Dword) (ok nacks : Nat) (first : Option (Nat × Nat)) : State :=
  let va := word.toNat
  let u := (ok, nacks, first)
  if va == 0 then s
  else
    let place := if va < 2 ^ 32 then
        (threadPlace s t va 16).map fun k => (k, s)
      else devicePlace s t.part va 16 .write
    match place with
    | some (k, s) => putAt (siteRecall s k 16) t.part k (mcApply (readBytes s k 16) u)
    | none =>
      if s.reqs.any fun q => q.of t && q.va == va && (match q.kind with
          | .mcword .. => true
          | _ => false) then
        { s with reqs := s.reqs.map fun q => match q.kind with
          | .mcword put todo => if q.of t && q.va == va then { q with kind := .mcword put (todo ++ [u]) } else q
          | _ => q }
      else
        match deviceEntry s t.part va .write with
        | some (e, m, s) =>
          if m == 1 || m == 3 then sendFor s t (.mcword false [u]) (ptePeer e.leaf) va (e.addr va) (leBytes 2 16) none []
          else s
        | none => s

/-- The checks of a write to a multicast page (R405): its group, MCWORD, and the window where this device is of the group. -/
def multicastCheck (va : Dword) (r : Route) (n : Nat) : M (List Nat) := do
  let s ← get
  let g := ptePeer r.leaf % 256
  match multicastGroup s s.th.part g with
  | none =>
    set (if groupInvalid s s.th.part g then logEvent s s.th.part 8 0 (0x10000 + 256 * g) 0 0 0 0 else s)
    trapBack cPROT va
  | some peers =>
    failBack s (s.th.mcword.toNat % 16 != 0) cALIGN s.th.mcword
    let p := getPart s s.th.part
    failBack s (peers.contains (accId s p) && !inWindows p r.key n) cPROT va
    pure peers

/-- Bytes sent to every peer of a multicast group for a thread, each on its own station; a peer that is this device is
written here, and an uncorrectable error there is that copy's NACK (R405, R399, R417). -/
def multicastTo (s : State) (t : Thread) (region : Nat) (word : Dword) (va : Nat) (r : Route) (peers : List Nat) (bs : Bytes) :
    State :=
  let me := accId s (getPart s t.part)
  let mine := (peers.filter fun q => q == me).length
  let bad := mine != 0 && badMerge s r.key bs.length
  let s := if mine == 0 || bad then s else putAt (siteRecall s r.key bs.length) t.part r.key bs
  let ok := if bad then 0 else mine
  let first := if bad then some (me, 3) else none
  match (peers.filter fun q => q != me).map fun q => (q, stationOf s q r.key) with
  | [] => mcUpdate s t word ok (mine - ok) first
  | q :: qs => sendFor s t (.multicast region word (q :: qs) ok (mine - ok) first) q.1 va r.key bs none []

/-- That of the issuing thread, under its MCWORD. -/
def multicastWrite (region : Nat) (va : Dword) (r : Route) (bs : Bytes) (quiet : Bool) : M Unit := do
  let peers ← multicastCheck va r bs.length
  upd fun s =>
    let s := if quiet then s else foldDigest s s.th va.toNat bs
    multicastTo (countReq s) s.th region s.th.mcword va.toNat r peers bs

/-- The requests sent from number `n` on marked as those of an SC store (R299). -/
def markSc (n : Nat) (s : State) : State := { s with reqs := s.reqs.map fun q => if n ≤ q.id then { q with sc := true } else q }

/-- A store of bytes to memory (R182, R184): here, at a peer, or to a multicast page; `quiet` where no digest counts it. -/
def storeBytes (va : Dword) (bs : Bytes) (k : Cls) (quiet : Bool := false) : M Unit := do
  aligned va bs.length
  let r ← resolve va bs.length .write
  interlock va bs.length true
  if r.mode == 4 then
    let _ ← multicastCheck va r bs.length
  else if r.mode == 0 || r.mode == 1 then pure ()
  else trapBack cPROT va
  let s0 ← get
  classify k va r true
  failBack s0 (r.mode == 0 && badMerge s0 r.key bs.length) cECC va
  if r.mode == 0 then writeAt va r bs quiet
  else if r.mode == 4 then multicastWrite 0 va r bs quiet
  else upd fun s => sendReq s (.store quiet) (ptePeer r.leaf) va r.key bs none
  if k == .sc && r.mode != 0 then upd (markSc s0.nextReq) else pure ()

/-- Bytes that the device itself writes through the partition's tables, and whether they are written (R393, R397, R405,
R408): at once here, by a request to the peer whose page it is, or to every peer of a multicast group; the one to a page
under migration reaches the peer before the page is copied (log 80). -/
def deviceStore (s : State) (pn va : Nat) (kind : ReqKind) (bs : Bytes) : State × Bool :=
  match deviceEntry s pn va .write with
  | none => (s, false)
  | some (e, m, s) =>
    let k := e.addr va
    let inside := inWindows (getPart s pn) k bs.length
    if m == 0 then if inside then (putAt (siteRecall s k bs.length) pn k bs, true) else (s, false)
    else if m == 1 || m == 3 then (sendFor s (deviceThread pn) kind (ptePeer e.leaf) va k bs none [], true)
    else if m == 4 then
      let g := ptePeer e.leaf % 256
      match multicastGroup s pn g with
      | some peers =>
        if peers.contains (accId s (getPart s pn)) && !inside then (s, false)
        else (multicastTo s (deviceThread pn) 0 0 va ⟨k, 4, e.leaf⟩ peers bs, true)
      | none => (if groupInvalid s pn g then logEvent s pn 8 0 (0x10000 + 256 * g) 0 0 0 0 else s, false)
    else (s, false)

/-! ## Instruction fetch (R94, R103) -/

/-- The word at an address, read through an executable mapping: from this device, or as a peer has sent it (R393). A PC
that is no multiple of 4, as a RET of an altered spilled address or an ERET to an EPC so written leaves it, reads the four
bytes there: DESIGN CHOICE, R103 names ALIGN for JR alone (log 81). -/
def fetchAt (pc : Dword) : M Word := do
  let s ← get
  match s.cur.ibuf.find? fun e => e.1 == pc with
  | some e => pure e.2
  | none =>
    let r ← resolve pc 4 .fetch
    let s ← get
    if r.here s then
      if r.bad s 4 then trapBack cECC pc else pure (BitVec.ofNat 32 (readLE s r.key 4))
    else if s.reqs.any fun q => q.of s.th && q.kind == .ifetch s.strm then park .reply
    else fun s0 => .error (.again (sendFor s0 s0.th (.ifetch s0.strm) (r.peer s0) pc.toNat r.key (leBytes 2 4) none []) .reply)

end Sys2Proof.Machine
end

