-- ==== Sys2Proof/Machine/Flags.lean ====
section
/-! DEFINITION. Exceptions and the fault mask (R24 to R26, R63, R123, R150): which exceptions fmode enables, how a
scalar operation reports one, and how element faults are recorded and emptied. -/

namespace Sys2Proof.Machine

/-- The exceptions of a result that fmode enables, as a mask in the places of fmode (R26). -/
def enabled (fmode : BitVec 7) (flags : Nat) : Nat := fmode.toNat &&& flags &&& 0x38

/-- EINFO of a scalar FPX: the place in fmode of the lowest enabled exception (R79, R123). -/
def fpxInfo (e : Nat) : Dword := if e % 16 == 8 then 3 else if e % 32 == 16 then 4 else 5

/-- Whether a result raises an exception that the issuing stream's fmode enables. -/
def faulty (s : State) (r : Nat × Nat) : Bool := enabled s.cur.fmode r.2 != 0

/-- New FPX faults at the bits of a mask: a bit already set keeps its kind (R63). -/
def Thread.addFpx (t : Thread) (m : Mask) : Thread := { t with fmask := t.fmask ||| m }

/-- DOM faults of a function register at the bits of a mask (R63): each one acts on DOM and MULTI. -/
def Thread.addDom (t : Thread) (m : Mask) (f : BitVec 5) : Thread :=
  if m == 0 then t
  else
    { t with
      kind := t.kind ||| (m &&& ~~~t.fmask)
      fmask := t.fmask ||| m
      dom := match t.dom with
        | none => some f
        | some g => some g
      multi := t.multi || (match t.dom with
        | none => false
        | some g => g != f) }

/-- The fault mask emptied, with its kind bits, DOM register and MULTI (R63). -/
def Thread.clearFaults (t : Thread) : Thread := { t with fmask := 0, kind := 0, dom := none, multi := false }

/-- FPX at a single bit where a result raises an enabled exception (R150). -/
def markFpx (i : Nat) (r : Nat × Nat) : M Unit := upd fun s =>
  if faulty s r then s.updTh fun t => t.addFpx (BitVec.ofNat 2048 1 <<< i) else s

end Sys2Proof.Machine
end

