-- ==== Sys2Proof/Machine/Flight.lean ====
section
/-! DEFINITION. Vector instructions in flight (R63, R149 to R151, R178, R265, R270 to R277): how a result enters the
registers group by group, when a group may start and when it may be written, what completes an instruction, and what a
stop leaves of it. -/

namespace Sys2Proof.Machine

/-! ## Effects -/

/-- A register's contents. -/
def Thread.vr (t : Thread) (ph : Nat) : VReg := Store.get 0 t.vreg ph
/-- A register replaced. -/
def Thread.setVr (t : Thread) (ph : Nat) (v : VReg) : Thread := { t with vreg := Store.put 0 t.vreg ph v }

/-- Ones in bits [hi−1:lo]. -/
def bitsBetween (n lo hi : Nat) : BitVec n := BitVec.ofNat n (2 ^ hi - 2 ^ lo)

/-- No effect. -/
def Effect.none : Effect := ⟨[], [], [], Option.none, 0, Option.none, Option.none, Option.none, false⟩

/-- A register write made. -/
def Thread.putV (t : Thread) (w : VWrite) : Thread := t.setVr w.ph ((t.vr w.ph &&& ~~~w.sel) ||| (w.res &&& w.sel))

/-- A predicate write made; p0 discards (R59). -/
def Thread.putP (t : Thread) (w : PWrite) : Thread :=
  if w.p == 0 then t else { t with pred := Store.put 0 t.pred w.p ((Store.get 0 t.pred w.p &&& ~~~w.sel) ||| (w.res &&& w.sel)) }

/-- A race or function instruction's registers written. -/
def Thread.putUnit (t : Thread) : Option UnitWrite → Thread
  | none => t
  | some u => { t with race := u.race, bound := u.bound, freg := u.freg, kind := u.kind, dom := u.dom, multi := u.multi }

/-- Accumulator rows with the one that an accumulator read zeroes. -/
def zeroed (m : Store AcsRow) : Option (Nat × Bool) → Store AcsRow
  | some (k, true) => Store.put 0 m k 0
  | _ => m

/-- The last of an effect: race and function registers, the accumulator rows, and the fault mask. -/
def Thread.putLast (t : Thread) (e : Effect) : Thread :=
  let t := { t.putUnit e.unit with acs := zeroed t.acs e.row }
  (if e.clear then t.clearFaults else t).addFpx e.faults

/-- An effect made on its thread. -/
def Thread.apply (t : Thread) (e : Effect) : Thread :=
  let t := e.pw.foldl Thread.putP (e.vw.foldl Thread.putV t)
  let t := { t with
    x := e.gw.foldl (fun (c : Stream) (g : Nat × Dword) => c.setGpr g.1 g.2) t.x
    tree := e.tree.getD t.tree }
  let t := match e.push with
    | some (n, v) => t.setQueue n (t.queue n ++ [v])
    | none => t
  t.putLast e

/-- The part of an elementwise effect in elements lo to hi − 1; the last part of a predicate's write takes the bits beyond. -/
def Effect.part (e : Effect) (width lo hi : Nat) (last : Bool) : Effect :=
  { e with
    vw := e.vw.map fun w => { w with sel := w.sel &&& bitsBetween 16384 (lo * width) (hi * width) }
    pw := e.pw.map fun w => { w with sel := w.sel &&& bitsBetween 2048 lo (if last then 2048 else hi) }
    faults := e.faults &&& bitsBetween 2048 lo hi }

/-! ## Groups (R270) -/

/-- The elements of one group. -/
def Shape.per (sh : Shape) : Nat := 1024 / sh.wide
/-- How many groups an instruction has. -/
def Shape.groups (sh : Shape) : Nat := (sh.n * sh.wide + 1023) / 1024

/-- The value of `written` at which an instruction has made its whole effect. -/
def Flying.limit (f : Flying) : Nat := if f.shape.whole then 2 else f.shape.groups
/-- Whether it has: it then waits only for room in an outbound stream (R178). -/
def Flying.done (f : Flying) : Bool := f.limit ≤ f.written

/-- What an instruction has still to do. -/
def Flying.rest (f : Flying) : Effect :=
  if f.shape.whole then f.eff
  else f.eff.part f.shape.width (f.written * f.shape.per) (f.shape.groups * f.shape.per) true

/-- Whether all vector work of a thread is done but for chunks that wait for room. -/
def Thread.idle (t : Thread) : Bool := t.flying.all Flying.done

/-! ## Completion (R178, R272) -/

/-- The chunk a written outbound register sends, with count vl (R178); the rest of the register stays with it, for a
slice store of scaled codes takes its scale bytes from there (R201). -/
def outChunk (v : VReg) (n : Nat) : Chunk := ⟨v, n, false, false, false⟩

/-- A chunk of an outbound stream still waits in flight for room. -/
def waitsForRoom (t : Thread) (j : Nat) : Bool := t.flying.any fun f => f.out.any fun e => e.1 == j

/-- The chunks of written registers enter their outbound streams; the others' wait while the stream is full or an earlier
chunk of it waits (R178). DESIGN CHOICE: an instruction that issues under a vl of 0, so that no element is written, sends a
chunk of count 0 too; R178 speaks of a last element alone (log 82). -/
def sendChunks (t : Thread) : List (Nat × Nat) → Thread × List (Nat × Chunk)
  | [] => (t, [])
  | (ph, n) :: r =>
    match boundTo t ph with
    | none => sendChunks t r
    | some j =>
      let c := outChunk (t.vr ph) n
      if j < 8 then sendChunks t r
      else if (t.vstream j).chunks.length < 4 && !waitsForRoom t j then
        sendChunks (t.setVstream j { t.vstream j with chunks := (t.vstream j).chunks ++ [c] }) r
      else
        let q := sendChunks t r
        (q.1, (j, c) :: q.2)

/-- An instruction completed: the rest of its effect made, its chunks sent. The list is what stays of it in flight. -/
def Thread.complete (t : Thread) (f : Flying) : Thread × List Flying :=
  let q := sendChunks (t.apply f.rest) f.shape.outs
  (q.1, if q.2.isEmpty then [] else [{ f with eff := Effect.none, written := f.limit, out := q.2 }])

/-- One more instruction landed. -/
def landOne (u : Thread) (f : Flying) : Thread :=
  if f.done then { u with flying := u.flying ++ [f] }
  else
    let q := u.complete f
    { q.1 with flying := u.flying ++ q.2 }

/-- The thread with every instruction in flight completed, oldest first: what a later instruction reads (R271). -/
def Thread.landed (t : Thread) : Thread := t.flying.foldl landOne { t with flying := [], strips := [] }

/-- The state with every vector instruction of the issuing thread complete. -/
def landed (s : State) : State := s.updTh Thread.landed

/-! ## Dependences (R271, R273) -/

/-- Whether two ranges of bits meet. -/
def bitsMeet (a b lo hi : Nat) : Bool := a < hi && lo < b && a < b && lo < hi

/-- Whether what an instruction has still to write of a register meets bits [hi−1:lo]. -/
def Flying.writesIn (g : Flying) (ph lo hi : Nat) : Bool :=
  !g.done && g.eff.vw.any fun w => w.ph == ph && (g.shape.whole ||
    bitsMeet (g.written * g.shape.per * g.shape.width) (g.shape.groups * g.shape.per * g.shape.width) lo hi)

/-- Whether what an instruction has still to read of a register, should it be stopped now, meets bits [hi−1:lo]. -/
def Flying.readsIn (g : Flying) (ph lo hi : Nat) : Bool :=
  !g.done && g.shape.srcs.any fun r => r.1 == ph && (g.shape.whole || r.2 == 0 ||
    bitsMeet (g.written * g.shape.per * r.2) (g.shape.groups * g.shape.per * r.2) lo hi)

/-- The same of a predicate's bits. -/
def Flying.writesP (g : Flying) (p lo hi : Nat) : Bool :=
  !g.done && g.eff.pw.any fun w => w.p == p && (g.shape.whole || bitsMeet (g.written * g.shape.per) 2048 lo hi)
def Flying.readsP (g : Flying) (p lo hi : Nat) : Bool :=
  !g.done && g.shape.preds.any fun r => r == p &&
    (g.shape.whole || bitsMeet (g.written * g.shape.per) (g.shape.groups * g.shape.per) lo hi)

/-- The bits that group `k` of an instruction takes at `w` bits an element: all `size` where it is whole-register, or
where `w` is 0. -/
def Shape.span (sh : Shape) (k w size : Nat) : Nat × Nat :=
  if sh.whole || w == 0 then (0, size) else (k * sh.per * w, (k + 1) * sh.per * w)

/-- Whether group `k` may start: every earlier instruction has written what it reads (R271). -/
def Flying.canRead (older : List Flying) (f : Flying) (k : Nat) : Bool :=
  older.all fun g =>
    (f.shape.srcs.all fun r => !g.writesIn r.1 (f.shape.span k r.2 16384).1 (f.shape.span k r.2 16384).2) &&
      (f.shape.preds.all fun p => !g.writesP p (f.shape.span k 1 2048).1 (f.shape.span k 1 2048).2) &&
      (g.done || !(f.shape.mask || (f.shape.tree && g.eff.tree.isSome)))

/-- Whether group `k` may be written: earlier readers and writers of its destination are past it, and no earlier
instruction has still to read the fault mask or the tree register as it stands. A race or function instruction, which may
mark DOM faults, and a VCLRF come before the faults of later ones. -/
def Flying.canWrite (older : List Flying) (f : Flying) (k : Nat) : Bool :=
  let v := f.shape.span k f.shape.width 16384
  let p : Nat × Nat := if f.shape.whole then (0, 2048) else (k * f.shape.per, if k + 1 == f.shape.groups then 2048 else (k + 1) * f.shape.per)
  older.all fun g =>
    (f.eff.vw.all fun w => !g.writesIn w.ph v.1 v.2 && !g.readsIn w.ph v.1 v.2) &&
      (f.eff.pw.all fun w => !g.writesP w.p p.1 p.2 && !g.readsP w.p p.1 p.2) &&
      (g.done || !((f.eff.faults != 0 && (g.eff.unit.isSome || g.eff.clear || ((g.shape.mask || g.shape.fence) && g.written == 0))) ||
        (f.eff.tree.isSome && g.shape.tree)))

/-- Whether an earlier instruction, not yet complete, must send a chunk before a later one writes: the chunk takes what the
register holds when the last element of the earlier one is written, and the chunks of one stream enter it in the order of
issue (R178). -/
def Flying.sendsFirst (t : Thread) (g f : Flying) : Bool :=
  !g.done && g.shape.outs.any fun o => (boundTo t o.1).isSome && (f.eff.vw.any (fun w => w.ph == o.1) ||
    (f.written + 1 == f.limit && f.shape.outs.any fun q => boundTo t q.1 == boundTo t o.1))

/-- Whether an instruction that is not complete reads or writes a register, among those of the present strip (R273). -/
def touches (t : Thread) (ph : Nat) : Bool :=
  let now := (t.strips.getLast?.map Strip.num).getD 0
  t.flying.any fun f => !f.done && f.strip == now && (f.shape.srcs.any (fun r => r.1 == ph) || f.eff.vw.any fun w => w.ph == ph)

/-! ## Starting and writing a group (R270 to R274) -/

/-- Whether a VMERGE finds every earlier vector and matrix instruction complete (R168). -/
def fenceFree (s : State) (t : Thread) (e : Nat) : Bool :=
  e == 0 && !t.fill0 && !t.fill1 && !(s.rowq.any fun j => j.lcore == t.lcore && j.slot == t.slot)

/-- Whether an accumulator read finds every earlier MROW to its row complete (R214). -/
def rowFree (s : State) (t : Thread) (row : Option (Nat × Bool)) : Bool :=
  match row with
  | some e => !(s.rowq.any fun j => j.lcore == t.lcore && j.slot == t.slot && j.row == e.1)
  | none => true

/-- Whether group `k` of entry `e` can start. -/
def groupReady (s : State) (t : Thread) (e k : Nat) : Bool :=
  match t.flying[e]? with
  | none => false
  | some f => k < f.shape.groups && !f.done && !f.started.getLsbD k && f.canRead (t.flying.take e) k &&
      (!f.shape.fence || fenceFree s t e)

/-- The lane group that runs group `k` of an instruction: the strip's own where strips overlap (R270, R273). -/
def Flying.laneOf (f : Flying) (k : Nat) : Nat := f.lane.getD (k % 4)

/-- The group of a thread that a lane group would serve: of the oldest instruction that has one ready, the lowest (R271). -/
def laneWork (s : State) (t : Thread) (lane : Nat) : Option (Nat × Nat) :=
  ((List.range t.flying.length).flatMap fun e => (List.range 16).map fun k => (e, k)).find? fun c =>
    groupReady s t c.1 c.2 && (match t.flying[c.1]? with
      | some f => f.laneOf c.2 == lane
      | none => false)

/-- Group `k` of entry `e` started. -/
def startGroup (t : Thread) (e k : Nat) : Thread :=
  { t with flying := updAt e (fun f => { f with started := f.started ||| (1#16 <<< k) }) t.flying }

/-- Whether entry `e` can go on: the lowest unwritten group has finished and may enter the register, or a whole-register
instruction may begin or end its final pass. Of overlapped strips the oldest alone writes, and a race or function
instruction, and a VCLRF, begins its final pass once every earlier instruction has made its whole effect. -/
def writeReady (s : State) (t : Thread) (e : Nat) : Bool :=
  match t.flying[e]? with
  | none => false
  | some f =>
    let older := t.flying.take e
    !f.done && f.strip == 0 && (older.all fun g => !g.sendsFirst t f) &&
      (if f.shape.whole then
        f.written == 1 || ((List.range f.shape.groups).all (fun k => f.started.getLsbD k) && f.canRead older 0 &&
          f.canWrite older 0 && (!f.shape.fence || fenceFree s t e) && ((f.eff.unit.isNone && !f.eff.clear) || older.all Flying.done) && rowFree s t f.eff.row)
      else f.started.getLsbD f.written && f.canWrite older f.written)

/-- The push of the SMB that began a strip, made when the strips before it are committed (R273). -/
def Thread.stripPush (t : Thread) (m : Strip) : Thread :=
  match m.push with
  | some (n, v) => t.setQueue n (t.queue n ++ [v])
  | none => t

/-- The oldest strip done: the next one is the oldest, and so on (R273). -/
def commitStrips : List Strip → Thread → Thread
  | [], t => { t with strips := [] }
  | m :: r, t =>
    if t.flying.all fun f => f.strip != 0 || f.done then
      commitStrips r { t.stripPush m with
        flying := t.flying.map fun f => if f.strip == m.num then { f with strip := 0 } else f }
    else { t with strips := m :: r }

/-- Entry `e` going on: its lowest unwritten group written with its fault bits, or its final pass begun or ended (R151,
R272, R274). -/
def stepGroup (t : Thread) (e : Nat) : Thread :=
  match t.flying[e]? with
  | none => t
  | some f =>
    if f.written + 1 < f.limit then
      let k := f.written
      let now := if f.shape.whole then Effect.none
        else f.eff.part f.shape.width (k * f.shape.per) ((k + 1) * f.shape.per) false
      { t.apply now with flying := updAt e (fun f => { f with written := k + 1 }) t.flying }
    else
      let q := t.complete f
      let u := { q.1 with flying := t.flying.take e ++ q.2 ++ t.flying.drop (e + 1) }
      commitStrips u.strips u

/-! ## The stop (R275 to R277) -/

/-- A chunk given back to its stream, and the register what it held. -/
def Thread.unpop (t : Thread) (p : Pop) : Thread :=
  (t.setVstream p.vs ⟨p.chunk :: (t.vstream p.vs).chunks, p.held⟩).setVr p.ph p.old

/-- What an instruction popped given back: its chunks, and its scalars to the heads of their queues. -/
def Thread.ungive (t : Thread) (f : Flying) : Thread :=
  f.x.popped.reverse.foldl (fun u e => u.setQueue e.1 (e.2 :: u.queue e.1)) (f.pops.reverse.foldl Thread.unpop t)

/-- The strips above the oldest discarded: the X stream stands at the start of the first of them, past the SMB of the
oldest, and their pops are undone; the later SMBs' pushes have not been made (R275). -/
def dropStrips (t : Thread) : Thread :=
  match t.strips with
  | [] => t
  | m :: _ =>
    let gone := t.flying.filter fun f => f.strip != 0
    let t := gone.reverse.foldl Thread.ungive t
    { t.stripPush m with flying := t.flying.filter fun f => f.strip == 0, strips := [], x := { m.x with late := t.x.late } }

/-- Whether entry `e` goes on although nothing more starts: a started group, or a final pass begun. -/
def finishing (s : State) (t : Thread) (e : Nat) : Bool :=
  writeReady s t e && match t.flying[e]? with
    | some f => !f.shape.whole || f.written == 1
    | none => false

/-- The groups already started finish, as far as they may be written in order (R275, R276). -/
def finishStarted (s : State) : Nat → Thread → Thread
  | 0, t => t
  | n + 1, t =>
    match (List.range t.flying.length).find? (finishing s t) with
    | some e => finishStarted s n (stepGroup t e)
    | none => t

/-- The resume entry of an instruction that is not complete (R276). DESIGN CHOICE: one that has written everything and whose
chunk waits for room keeps that chunk, and its start index is its number of elements, at most 2,047 (log 16). -/
def Flying.entry (f : Flying) : Resume :=
  ⟨f.pc, if f.done then min f.shape.n 2047 else if f.shape.whole then 0 else f.written * f.shape.per, f.fmode, f.wbase, f.gpred,
    f.x, if f.done then some f else none⟩

end Sys2Proof.Machine
end

