-- ==== Sys2Proof/Machine/Operands.lean ====
section
/-! DEFINITION. The operand forms of the X stream: elements of vector registers (R56, R149), bound and held registers
as sources and destinations (R177, R178, R251), the governing predicate (R59, R149), and the common frames of vector
instructions (R151, R265). -/

namespace Sys2Proof.Machine

/-! ## Element types (R60, R148) -/

/-- The element width of a vtype. -/
def vwidth (vt : Nat) : Nat :=
  match vt with
  | 0 | 1 | 12 | 13 => 8
  | 2 | 3 | 8 | 9 => 16
  | 4 | 5 | 10 => 32
  | _ => 64

/-- The classes of R148. -/
def isI (vt : Nat) : Bool := decide (vt ≤ 7)
def isF (vt : Nat) : Bool := 8 ≤ vt && vt ≤ 11
def isF8 (vt : Nat) : Bool := vt == 12 || vt == 13
def isFp32 (vt : Nat) : Bool := vt == 10
/-- Signed integer vtypes have even codes. -/
def vsigned (vt : Nat) : Bool := vt % 2 == 0
/-- The floating format of a vtype. -/
def vfmt (vt : Nat) : Fmt :=
  match vt with
  | 8 => fp16
  | 9 => bf16
  | 11 => fp64
  | 12 => e4m3
  | 13 => e5m2
  | _ => fp32

/-- Element `i` at width `w`, as a code. -/
def elem (v : VReg) (w i : Nat) : Nat := (v.extractLsb' (i * w) w).toNat

/-- A register with element `i` replaced. -/
def setElem (v : VReg) (w i x : Nat) : VReg :=
  (v &&& ~~~(BitVec.ofNat 16384 (2 ^ w - 1) <<< (i * w))) ||| (BitVec.ofNat 16384 (x % 2 ^ w) <<< (i * w))

/-- A register with the elements below `n` that are selected replaced, each by the value given for its index. -/
def setElems (v : VReg) (w n : Nat) (sel : Nat → Bool) (val : Nat → Nat) : VReg :=
  (List.range n).foldl (fun acc i => if sel i then setElem acc w i (val i) else acc) v

/-- A signed reading of a code. -/
def signedOf (w x : Nat) : Int := if x < 2 ^ (w - 1) then (x : Int) else (x : Int) - (2 ^ w : Nat)

/-- The code of an integer, modulo 2^w. -/
def codeOf (w : Nat) (v : Int) : Nat := (v % (2 ^ w : Nat)).toNat

/-- Bits [n−1:0] given by a function of the index. -/
def maskOf (n : Nat) (f : Nat → Bool) : Mask :=
  (List.range n).foldl (fun (acc : Mask) i => if f i then acc ||| (BitVec.ofNat 2048 1 <<< i) else acc) 0

/-! ## The grant and the governing predicate -/

/-- The elements a vector instruction covers at width `w`: vl, as far as the register reaches. -/
def vcount (s : State) (w : Nat) : Nat := min s.cur.vl.toNat (16384 / w)

/-- The governing predicate (R60). -/
def govern (s : State) : Mask := predVal s.th s.th.gpred.toNat

/-- Whether element `i` is present in a form: unmasked, or its governing bit is 1 (R149). -/
def present (s : State) (m : BitVec 1) : Nat → Bool :=
  if m == 1 then fun i => (govern s).getLsbD i else fun _ => true

/-- The rounding of element `i` (R149, R29). -/
def elemRnd (s : State) (i : Nat) : Rnd :=
  let md := s.cur.fmode.toNat % 8
  if md == 4 then
    ⟨4, (nmx s.cur.seed (s.cur.sbase + BitVec.ofNat 64 i + 0x4000000000000000)).toNat % 65536⟩
  else ⟨md, 0⟩

/-- The rounding of sums: fmode's, with RS replaced by RNE (R46). -/
def sumRnd (s : State) : Rnd := let md := s.cur.fmode.toNat % 8; ⟨if md == 4 then 0 else md, 0⟩

/-- ILL unless the vtype is of the instruction's class (R148). -/
def classIs (w : Word) (p : Nat → Bool) : M Unit := do
  let vt ← see fun s => s.cur.vtype.toNat
  need (p vt) cILL (wordInfo w)

/-! ## Places in flight (R265, R271) -/

/-- The issuing thread's MROWs and tile fills that are issued and not complete. -/
def matrixWork (s : State) : Nat :=
  (s.rowq.filter fun j => j.lcore == s.th.lcore && j.slot == s.th.slot).length + (if s.th.fill0 then 1 else 0) +
    (if s.th.fill1 then 1 else 0)

/-- A place among the eight for one more instruction: with none, X issue stalls, as a queue park where the oldest only
waits for room in a full outbound stream (R178, R265). -/
def roomInFlight : M Unit := fun s =>
  if s.th.flying.length + matrixWork s < 8 then .ok ((), s)
  else
    match (if matrixWork s == 0 then s.th.flying else []) with
    | f :: _ =>
      match (if f.done then f.out else []) with
      | (j, _) :: _ => .error (.park (.pushV j))
      | [] => .error (.park .work)
    | [] => .error (.park .work)

/-- An instruction that acts at its issue runs once every earlier vector instruction has completed, chunks that wait for
room apart (R271). -/
def drain : M Unit := do
  roomInFlight
  let s ← get
  if s.th.idle then pure () else park .work

/-! ## Sources -/

/-- What a pop leaves in the register: the chunk's bytes, zero beyond its count at its element width, or a plane block
whole (R177). The chunk's data are zero beyond its count already. -/
def consume (t : Thread) (j ph : Nat) (c : Chunk) (rest : List Chunk) : Thread :=
  let t := (t.setVr ph c.data).setVstream j ⟨rest, c.fin⟩
  { t with x :=
      { t.x with
        ftrim := if c.trim then BitVec.ofNat 64 c.count else BitVec.allOnes 64
        arm := if c.trim then BitVec.ofNat 64 (min t.x.arm.toNat c.count) else t.x.arm } }

/-- One source register made ready: an inbound-bound one pops its next chunk, or parks (R177); while an instruction in
flight still uses the register, issue stalls, for that instruction may have to read it again (R151). A resumed
instruction pops nothing. -/
def source (ph : Nat) : M Unit := fun s =>
  match boundTo s.th ph with
  | some j =>
    if j ≤ 7 && s.th.startIdx.isNone then
      if touches s.th ph then .error (.park .work)
      else match (s.th.vstream j).chunks with
      | [] => .error (.park (.popV j))
      | c :: r => .ok ((), s.updTh fun t => consume t j ph c r)
    else .ok ((), s)
  | none => .ok ((), s)

/-- A list without the later repetitions of its entries. -/
def dedup : List Nat → List Nat
  | [] => []
  | x :: r => x :: (dedup r).filter fun y => y != x

/-- Each source register of a list made ready, in order. -/
def sourceEach : List Nat → M Unit
  | [] => pure ()
  | ph :: r => do
    source ph
    sourceEach r

/-- The distinct source registers made ready, in field order (R177). -/
def sources (l : List Nat) : M Unit := sourceEach (dedup l)

/-- The chunks that making sources ready in a state pops. -/
def popsOf (s : State) (l : List Nat) : List Pop :=
  if s.th.startIdx.isSome then []
  else (dedup l).filterMap fun ph =>
    match boundTo s.th ph with
    | some j =>
      match (if j ≤ 7 then (s.th.vstream j).chunks else []) with
      | c :: _ => some ⟨j, c, (s.th.vstream j).held, ph, s.th.vr ph⟩
      | [] => none
    | none => none

/-- A destination bound inbound takes ILL (R177). -/
def destOk (w : Word) (ph : Nat) : M Unit := do
  let b ← see fun s => boundTo s.th ph
  need (match b with
    | some j => decide (8 ≤ j)
    | none => true) cILL (wordInfo w)

/-! ## Issuing a vector instruction -/

/-- The flight of the instruction that the issuing stream stands at: one of no elements has no groups and makes its effect
in its final pass, a chunk of count 0 among it (DESIGN CHOICE, log 82). A resumed one begins at the group of its start index
(R277). -/
def newFlight (s : State) (word : Word) (sh : Shape) (e : Effect) (pops : List Pop) : Flying :=
  let sh := { sh with whole := sh.whole || sh.n == 0 }
  let first := if sh.whole then 0 else min (s.th.startIdx.getD 0 / sh.per) (sh.groups - 1)
  { pc := s.cur.pc, word := word, fmode := s.cur.fmode, wbase := s.th.wbase, gpred := s.th.gpred, x := s.cur
    shape := sh, eff := e, started := bitsBetween 16 0 first, written := first, out := []
    strip := (s.th.strips.getLast?.map Strip.num).getD 0
    lane := s.cur.loop.bind fun l => l.stripNum.map fun n => n % 4
    pops := pops }

/-- A vector instruction handed to the sequencer (R265), or with `now` made complete at its issue, which counts its element
groups (R76, R270): so runs one whose scalar result goes where only the stream itself writes. -/
def fly (now : Bool) (word : Word) (sh : Shape) (e : Effect) (pops : List Pop) : M Unit := upd fun s =>
  let f := newFlight s word sh e pops
  if now then
    let q := s.th.complete f
    let s' := s.updTh fun t => { q.1 with flying := t.flying ++ q.2 }
    count s' s'.th 0x20D (if f.shape.whole then 2 * f.shape.groups else f.shape.groups - f.written)
  else s.updTh fun t => { t with flying := t.flying ++ [f] }

/-- The write of elements below `n` of a register from an index upward: those selected take the values given (R149). -/
def elemWrite (ph w start n : Nat) (sel : Nat → Bool) (val : Nat → FRes) : VWrite :=
  let is := (List.range n).filter fun i => start ≤ i && sel i
  ⟨ph, is.foldl (fun acc i => setElem acc w i (2 ^ w - 1)) 0, is.foldl (fun acc i => setElem acc w i (val i).1) 0⟩

/-- The fault bits of the elements below `n` from an index upward that are selected (R150). -/
def elemFaults (s : State) (start n : Nat) (sel : Nat → Bool) (val : Nat → FRes) : Mask :=
  maskOf n fun i => start ≤ i && sel i && faulty s (val i)

/-- The effect of an elementwise instruction (R149 to R151). -/
def elemEffect (s : State) (ph w n : Nat) (sel : Nat → Bool) (val : Nat → FRes) : Effect :=
  { Effect.none with
    vw := [elemWrite ph w (s.th.startIdx.getD 0) n sel val]
    faults := elemFaults s (s.th.startIdx.getD 0) n sel val }

/-- The predicates that a form reads to tell which elements are present (R149). -/
def governs (t : Thread) (m : BitVec 1) : List Nat := if m == 1 then [t.gpred.toNat] else []

/-- The common frame of an elementwise instruction of source width `sw` and destination width `w`: a place in flight,
its sources, its destination, then the result, computed from what every earlier instruction leaves (R271). One that
would overwrite bytes its later groups read is a whole-register instruction (R151, R161). With `all`, any group may read all
of a source. -/
def elementwiseAt (word : Word) (d : Reg) (srcs : List Reg) (w sw : Nat) (m : BitVec 1) (all : Bool)
    (val : State → Nat → FRes) : M Unit := do
  roomInFlight
  let s0 ← get
  let ph := phys s0.th d 0
  let ps := srcs.map fun r => phys s0.th r 0
  destOk word ph
  sources ps
  let s ← get
  let v := landed s
  let n := vcount s (max w sw)
  let sh : Shape :=
    { whole := w != sw && ps.contains ph, n := n, wide := max w sw, width := w
      srcs := ps.map fun p => (p, if all then 0 else sw)
      preds := governs s.th m, mask := false, tree := false, fence := false, outs := [(ph, n)] }
  fly false word sh (elemEffect s ph w n (present v m) (val v)) (popsOf s0 ps)

/-- An elementwise instruction at the vtype width. -/
def elementwise (word : Word) (d : Reg) (srcs : List Reg) (m : BitVec 1) (val : State → Nat → FRes) : M Unit := do
  let w ← see fun s => vwidth s.cur.vtype.toNat
  elementwiseAt word d srcs w w m false val

/-- The shape of a whole-register instruction at the vtype width (R151). -/
def wholeShape (s : State) (srcs preds : List Nat) (outs : List Nat) : Shape :=
  let w := vwidth s.cur.vtype.toNat
  { whole := true, n := vcount s w, wide := w, width := w, srcs := srcs.map fun p => (p, 0), preds := preds
    mask := false, tree := false, fence := false, outs := outs.map fun p => (p, vcount s w) }

/-- A register replaced by another: the bits in which they differ. -/
def regWrite (ph : Nat) (old new : VReg) : VWrite := ⟨ph, old ^^^ new, new⟩

/-- The common frame of a WHOLE-REGISTER instruction of the vector file (R151): a place in flight, sources ready,
destination legal; then the destination and the fault bits as a function of what every earlier instruction leaves. -/
def wholeReg (word : Word) (d : Reg) (srcs : List Reg) (preds : List Nat) (f : State → VReg × Mask) : M Unit := do
  roomInFlight
  let s0 ← get
  let ph := phys s0.th d 0
  let ps := srcs.map fun r => phys s0.th r 0
  destOk word ph
  sources ps
  let s ← get
  let v := landed s
  let r := f v
  fly false word (wholeShape s ps preds [ph])
    { Effect.none with vw := [regWrite ph (v.th.vr ph) r.1], faults := r.2 } (popsOf s0 ps)

/-- Whether a scalar result goes where only the stream itself writes: to a special scalar, or to one that the active
stair steps (R52, R92). -/
def atOnce (s : State) (d : Reg) : Bool :=
  (!isPort d && 104 ≤ d.toNat) || (match s.cur.stair with
    | some t => t.stepped.contains d
    | none => false)

/-- A scalar result (R51, R53): a port takes it when the instruction completes, and X issue parks while it is full. -/
def scalarEffect (d : Reg) (v : Dword) (e : Effect) : Effect :=
  if isPort d then { e with push := some (d.toNat, if 116 ≤ d.toNat then (if v == 0 then 0 else 1) else v) }
  else if d == 0 then e else { e with gw := [(d.toNat, v)] }

/-- The common frame of a vector instruction that writes a scalar: its sources ready, then the scalar and the rest of its
effect as a function of what every earlier instruction leaves. -/
def scalarFrom (word : Word) (d : Reg) (srcs : List Reg) (preds : List Nat) (tree : Bool)
    (f : State → Dword × Effect) : M Unit := do
  let s0 ← get
  let now := atOnce s0 d
  if now then drain else roomInFlight
  let ps := srcs.map fun r => phys s0.th r 0
  sources ps
  let s ← get
  let r := f (landed s)
  let sh := { wholeShape s ps preds [] with tree := tree }
  if now then do
    fly true word sh r.2 []
    wr d r.1
  else do
    if isPort d && qDepth d.toNat ≤ (s.th.queue d.toNat).length then park (.push d.toNat) else pure ()
    fly false word sh (scalarEffect d r.1 r.2) (popsOf s0 ps)

/-! ## Race, function and accumulator-read instructions (R214, R219, R231) -/

/-- A computation made on the thread as every earlier instruction leaves it, of which only the result is taken; one that
stops with a state of its own waits until that is the state. -/
def onLanded {α : Type} (m : M α) : M α := fun s =>
  match m (landed s) with
  | .ok r => .ok (r.1, s)
  | .error (.trap c i) => .error (.trap c i)
  | .error e => if s.th.idle then .error e else .error (.park .work)

/-- What the thread `v` became from `u`, as the effect of an instruction with destinations `outs` and predicate `p`: its
race and function registers where it is of those units, or the ACS row it reads. -/
def unitEffect (u v : Thread) (outs : List Nat) (p : Option Reg) (row : Option (Nat × Bool)) : Effect :=
  { Effect.none with
    vw := outs.map fun ph => regWrite ph (u.vr ph) (v.vr ph)
    pw := match p with
      | some r => [⟨r.toNat, BitVec.allOnes 2048, predVal v r.toNat⟩]
      | none => []
    faults := v.fmask &&& ~~~u.fmask
    unit := if row.isSome then none else some ⟨v.race, v.bound, v.freg, v.kind, v.dom, v.multi⟩
    row := row }

/-- Scalar results, each its own register. -/
def scalarsEffect (l : List (Reg × Dword)) (e : Effect) : Effect :=
  match l with
  | [] => e
  | [q] => scalarEffect q.1 q.2 e
  | l => { e with gw := l.map fun q => (q.1.toNat, q.2) }

/-- Scalar results written by the stream itself. -/
def writeEach : List (Reg × Dword) → M Unit
  | [] => pure ()
  | q :: r => do
    wr q.1 q.2
    writeEach r

/-- X issue parks while a port that the instruction pushes to is full. -/
def portsFree : List Reg → M Unit
  | [] => pure ()
  | d :: r => do
    let n ← see fun s => (s.th.queue d.toNat).length
    if isPort d && qDepth d.toNat ≤ n then park (.push d.toNat) else portsFree r

/-- Destinations that no inbound stream is bound to. -/
def destsOk (w : Word) : List Nat → M Unit
  | [] => pure ()
  | ph :: r => do
    destOk w ph
    destsOk w r

/-- What a computation counts stands; an instruction that issues again after a stop has been counted (R76, R277). -/
def countsOf (v : State) : M Unit := upd fun s => if s.th.startIdx.isSome then s else { s with counters := v.counters }

/-- The common frame of a race, function or accumulator-read instruction, whole-register as R151, R219 and R231 have it: a
place in flight, destinations legal, sources ready; then its whole effect, computed from what every earlier instruction
leaves, is handed to the sequencer. `body` makes that effect on the thread so found, and gives the results for the scalars
`ds`. With a scalar that the stream itself writes, it acts at its issue. -/
def unitOp (word : Word) (srcs outs : List Nat) (p : Option Reg) (ds : List Reg) (row : Option (Nat × Bool))
    (body : M (List Dword)) : M Unit := do
  let s0 ← get
  let now := ds.any (atOnce s0)
  if now then drain else roomInFlight
  destsOk word outs
  sources srcs
  let s ← get
  let r ← onLanded (do
    let ws ← body
    let v ← get
    pure (ds.zip ws, v))
  let e := unitEffect (landed s).th r.2.th outs p row
  countsOf r.2
  let sh := wholeShape s srcs [] outs
  if now then do
    fly true word sh e []
    writeEach r.1
  else do
    portsFree ds
    fly false word sh (scalarsEffect r.1 e) (popsOf s0 srcs)

/-- A race instruction that acts at its issue: RCPOST, whose record leaves the thread, once earlier vector work is done; its
two passes take their element groups (R76, R270; log 16). -/
def lanePass : M Unit := do
  drain
  upd fun s => count s s.th 0x20D (2 * (wholeShape s [] [] []).groups)

/-- The common frame of one that reads registers and writes none. -/
def readRegs {α : Type} (srcs : List Reg) (f : State → M α) : M α := do
  let t ← see fun s => s.th
  sources (srcs.map fun r => phys t r 0)
  let s ← get
  f s

/-- A stall while an instruction in flight reads or writes one of a list of registers. -/
def untouched (phs : List Nat) : M Unit := do
  let t ← see fun s => s.th
  if phs.any (touches t) then park .work else pure ()

/-- The contents of a window name. -/
def vreg (s : State) (r : Reg) : VReg := s.th.vr (phys s.th r 0)

/-- Writing a predicate; p0 discards (R59). -/
def setPred (p : Reg) (v : Mask) : M Unit :=
  updT fun t => if p == 0 then t else { t with pred := Store.put 0 t.pred p.toNat v }

end Sys2Proof.Machine
end

