-- ==== Sys2Proof/Machine/VecRed.lean ====
section
/-! DEFINITION. Reductions, the canonical tree, arg-max, scans and segmented reductions (06_vector, R169 to R174; 01_numbers, R44
to R47). -/

namespace Sys2Proof.Machine

/-! ## The canonical tree (R44 to R47) -/

/-- A node and the fault bits its combinations have set. -/
abbrev Combine := Nat → Nat → FRes

/-- One level of the tree over nodes in index order: two children of one node combine, and a child whose sibling is
absent passes upward. With `stop`, only nodes that lie wholly below it are formed. `hit` gives the fault bit of a
combination from its result and its lowest present index. -/
def pairUp (f : Combine) (hit : FRes → Nat → Mask) (lev : Nat) (stop : Option Nat) : List TreeNode → List TreeNode × Mask
  | [] => ([], 0)
  | [n] =>
    ([if n.lev == lev && formed lev stop n.j then { n with lev := lev + 1, j := n.j / 2 } else n], 0)
  | n :: m :: r =>
    if n.lev == lev && formed lev stop n.j then
      if m.lev == lev && m.j / 2 == n.j / 2 then
        let c := f n.code m.code
        let q := pairUp f hit lev stop r
        (⟨lev + 1, n.j / 2, c.1, n.low⟩ :: q.1, hit c n.low ||| q.2)
      else
        let q := pairUp f hit lev stop (m :: r)
        ({ n with lev := lev + 1, j := n.j / 2 } :: q.1, q.2)
    else
      let q := pairUp f hit lev stop (m :: r)
      (n :: q.1, q.2)
where
  /-- Whether the parent of node `j` is to be formed now. -/
  formed (lev : Nat) (stop : Option Nat) (j : Nat) : Bool :=
    match stop with
    | none => true
    | some e => (j / 2 + 1) * 2 ^ (lev + 1) ≤ e

/-- The tree through its 40 levels (R47). -/
def treeUp (f : Combine) (hit : FRes → Nat → Mask) (stop : Option Nat) (l : List TreeNode) : List TreeNode × Mask :=
  (List.range 40).foldl (fun acc lev =>
    let q := pairUp f hit lev stop acc.1
    (q.1, acc.2 ||| q.2)) (l, 0)

/-- The roots of whole spans of 2^40 indices, which stand first, combined from left to right as they arise (R47). -/
def joinSpans (f : Combine) (hit : FRes → Nat → Mask) (l : List TreeNode) : List TreeNode × Mask :=
  match l.filter (fun n => n.lev == 40) with
  | [] => (l, 0)
  | n :: r =>
    let q := r.foldl (fun (acc : TreeNode × Mask) m =>
      let c := f acc.1.code m.code
      ({ m with code := c.1, low := acc.1.low }, acc.2 ||| hit c acc.1.low)) (n, 0)
    (q.1 :: l.filter (fun n => n.lev != 40), q.2)

/-- The root of a finished tree: the roots of spans of 2^40 indices combine from left to right (R47). -/
def treeRoot (f : Combine) (hit : FRes → Nat → Mask) (l : List TreeNode) : Option Nat × Mask :=
  let t := treeUp f hit none l
  match t.1 with
  | [] => (none, t.2)
  | n :: r =>
    let q := r.foldl (fun (acc : (Nat × Nat) × Mask) m =>
      let c := f acc.1.1 m.code
      ((c.1, acc.1.2), acc.2 ||| hit c acc.1.2)) ((n.code, n.low), t.2)
    (some q.1.1, q.2)

/-- The fault bit of a combination at a global index: max(index − sbase, 0) (R46, R150). -/
def treeHit (s : State) (r : FRes) (low : Nat) : Mask :=
  if faulty s r then BitVec.ofNat 2048 1 <<< (low - s.cur.sbase.toNat) else 0

/-- The present elements of a register as leaves at sbase + i. -/
def leavesOf (s : State) (x : VReg) (w : Nat) (is : List Nat) : List TreeNode :=
  is.map fun i => ⟨0, s.cur.sbase.toNat + i, elem x w i, s.cur.sbase.toNat + i⟩

/-! ## Reductions (R169 to R171) -/

/-- The indices a reduction takes (R169). -/
def presentIdx (s : State) (m : BitVec 1) (w : Nat) : List Nat := (List.range (vcount s w)).filter (present s m)

/-- A reduction to a scalar: the register ready, then the result from the present elements. -/
def reduce (word : Word) (d a : Reg) (m : BitVec 1) (cls : Nat → Bool) (f : State → Nat → List Nat → Dword) : M Unit := do
  classIs word cls
  let t ← see fun s => s.th
  scalarFrom word d [a] (governs t m) false fun s =>
    let w := vwidth s.cur.vtype.toNat
    let x := vreg s a
    (f s w ((presentIdx s m w).map fun i => elem x w i), Effect.none)

/-- An element as the vtype reads it. -/
def redValue (vt w x : Nat) : Int := if vsigned vt then signedOf w x else (x : Int)

/-- An integer result, extended by the sign of the vtype (R169). -/
def extended (vt w x : Nat) : Dword := BitVec.ofInt 64 (redValue vt w x)

/-- The larger or the smaller of two integer codes of a vtype; the first where they are equal. -/
def pick (vt w : Nat) (mx : Bool) (x y : Nat) : Nat :=
  if mx then (if redValue vt w x < redValue vt w y then y else x)
  else (if redValue vt w y < redValue vt w x then y else x)

/-- The smallest or the largest code of an integer vtype. -/
def extreme (vt w : Nat) (largest : Bool) : Nat :=
  if vsigned vt then (if largest then 2 ^ (w - 1) - 1 else 2 ^ (w - 1)) else if largest then 2 ^ w - 1 else 0

/-- VRMIN, VRMAX (R169). -/
def reduceMinMax (word : Word) (d a : Reg) (m : BitVec 1) (mx : Bool) : M Unit := do
  classIs word fun v => isI v || isF v
  let t ← see fun s => s.th
  scalarFrom word d [a] (governs t m) false fun s =>
    let vt := s.cur.vtype.toNat
    let w := vwidth vt
    let x := vreg s a
    let is := presentIdx s m w
    if isI vt then
      match is with
      | [] => (extended vt w (extreme vt w (!mx)), Effect.none)
      | i :: r => (extended vt w (r.foldl (fun acc j => pick vt w mx acc (elem x w j)) (elem x w i)), Effect.none)
    else
      let q := treeRoot (fMinMax (vfmt vt) mx) (treeHit s) (leavesOf s x w is)
      (BitVec.ofNat 64 (q.1.getD (canonNan (vfmt vt))), { Effect.none with faults := q.2 })

/-- The sum of a tree in a precision (R46). -/
def treeAdd (s : State) (wide : Bool) : Combine := fAdd (if wide then fp64 else fp32) (sumRnd s)

/-- VFSUM (R170). -/
def foldTree (word : Word) (a : Reg) (m : BitVec 1) : M Unit := do
  classIs word isF
  let s0 ← get
  let vt := s0.cur.vtype.toNat
  let wide := vt == 11
  let t := (landed s0).th.tree
  let base := s0.cur.sbase.toNat
  need (!t.live || (t.next ≤ base && t.wide == wide)) cILL (wordInfo word)
  roomInFlight
  let ps := [phys s0.th a 0]
  sources ps
  let s ← get
  let v := landed s
  let w := vwidth vt
  let x := vreg v a
  let raw := leavesOf s x w (presentIdx v m w)
  let leaves := if w == 16 then raw.map fun n => { n with code := narrowTo32 (vfmt vt) n.code } else raw
  let stop := base + vcount s w
  let q := treeUp (treeAdd s wide) (treeHit s) (some stop) (t.nodes ++ leaves)
  let j := joinSpans (treeAdd s wide) (treeHit s) q.1
  fly false word { wholeShape s ps (governs s.th m) [] with tree := true }
    { Effect.none with tree := some ⟨true, wide, stop, j.1⟩, faults := q.2 ||| j.2 } (popsOf s0 ps)

/-- VTREE (R171): the root, with the exceptions of its own combinations at bit 0. -/
def emitTree (word : Word) (d : Reg) : M Unit :=
  scalarFrom word d [] [] true fun s =>
    let t := s.th.tree
    let q := treeRoot (treeAdd s t.wide) (fun r _ => if faulty s r then 1 else 0) t.nodes
    (BitVec.ofNat 64 (q.1.getD 0), { Effect.none with tree := some Tree.empty, faults := q.2 })

/-! ## Arg-max and arg-min (R172) -/

/-- Whether candidate (v, i) beats the best so far: the larger or smaller value, +0 above −0, then the lower index. -/
def beats (vt w : Nat) (mx : Bool) (c best : Nat × Nat) : Bool :=
  let key (x : Nat) : Int := if isI vt then redValue vt w x else orderKey (vfmt vt) x
  let x := key c.1
  let y := key best.1
  if x == y then c.2 < best.2 else if mx then y < x else x < y

/-- VARGMAX, VARGMIN and VARGMAXC. -/
def argBest (word : Word) (d a : Reg) (m : BitVec 1) (mx prior : Bool) : M Unit := do
  classIs word fun v => isI v || isF v
  roomInFlight
  let s0 ← get
  destOk word (phys s0.th d 0)
  destOk word (phys s0.th d 1)
  let ps := [phys s0.th a 0]
  sources ps
  let here ← get
  let s := landed here
  let vt := s.cur.vtype.toNat
  let w := vwidth vt
  let x := vreg s a
  let vd := s.th.vr (phys s.th d 0)
  let vi := s.th.vr (phys s.th d 1)
  let nan (c : Nat) : Bool := isF vt && (unpack (vfmt vt) c).isNan
  let p : Nat × Nat := (elem vd w 0, elem vi 64 0)
  let first : Option (Nat × Nat) := if prior && p.2 != 2 ^ 64 - 1 && !nan p.1 then some p else none
  let is := presentIdx s m w
  let best := (is.filter fun i => !nan (elem x w i)).foldl (fun (b : Option (Nat × Nat)) i =>
    let c := (elem x w i, (s.cur.sbase.toNat + i) % 2 ^ 64)
    match b with
    | none => some c
    | some e => if beats vt w mx c e then some c else some e) first
  let r : Nat × Nat := match best with
    | some e => e
    | none => (if isF vt then canonNan (vfmt vt) else extreme vt w (!mx), 2 ^ 64 - 1)
  let snan := maskOf (vcount s w) fun i => is.contains i && isF vt && (unpack (vfmt vt) (elem x w i)).isSnan && faulty s (0, 8)
  let d0 := phys s.th d 0
  let d1 := phys s.th d 1
  fly false word (wholeShape s (if prior then d0 :: d1 :: ps else ps) (governs s.th m) [d0, d1])
    { Effect.none with
      vw := [elemWrite d0 w 0 1 (fun _ => true) (fun _ => (r.1, 0)), elemWrite d1 64 0 1 (fun _ => true) (fun _ => (r.2, 0))]
      faults := snan } (popsOf s0 ps)

/-! ## Scans and segmented reductions (R173, R174) -/

/-- Whether a segment begins at element `i`. -/
def startsAt (s : State) (seg : BitVec 1) (i : Nat) : Bool := i == 0 || (seg == 1 && (govern s).getLsbD i)

/-- The scan: `f` gives the next value and its exceptions from the value before it in the segment, if any, and the
element; the result lists both for each element. -/
def scanList (f : Option Nat → Nat → FRes) (starts : Nat → Bool) (x : Nat → Nat) : Nat → Nat → Option Nat → List FRes
  | 0, _, _ => []
  | n + 1, i, prev =>
    let r := f (if starts i then none else prev) (x i)
    r :: scanList f starts x n (i + 1) (some r.1)

/-- A scan of the vtype's elements; `shown` gives what d[i] receives from the running value and the element. -/
def scan (word : Word) (d a : Reg) (seg : BitVec 1) (cls : Nat → Bool) (f : State → Nat → Option Nat → Nat → FRes)
    (shown : Nat → Nat → Nat → Nat) : M Unit := do
  classIs word cls
  let t ← see fun s => s.th
  wholeReg word d [a] (governs t seg) fun s =>
    let w := vwidth s.cur.vtype.toNat
    let n := vcount s w
    let x := vreg s a
    let rs := scanList (f s w) (startsAt s seg) (elem x w) n 0 none
    (setElems (vreg s d) w n (fun _ => true) fun i => shown w (atD (0, 0) i rs).1 (elem x w i),
      maskOf n fun i => faulty s (atD (0, 0) i rs))

/-- The elements below `n` by segment, in order. -/
def segments (starts : Nat → Bool) : Nat → Nat → List (List Nat)
  | 0, _ => []
  | n + 1, i =>
    let r := segments starts n (i + 1)
    if n == 0 || starts (i + 1) then [i] :: r
    else
      match r with
      | [] => [[i]]
      | g :: gs => (i :: g) :: gs

/-- VSEGR: segment k reduced to d[k] (R174). -/
def segReduce (word : Word) (d a : Reg) (seg : BitVec 1) (cls : Nat → Bool)
    (f : State → Nat → VReg → List Nat → Nat × Mask) : M Unit := do
  classIs word cls
  let t ← see fun s => s.th
  wholeReg word d [a] (governs t seg) fun s =>
    let w := vwidth s.cur.vtype.toNat
    let n := vcount s w
    let x := vreg s a
    let rs := (segments (startsAt s seg) n 0).map (f s w x)
    (setElems (vreg s d) w rs.length (fun _ => true) fun k => (atD (0, 0) k rs).1, rs.foldl (fun acc r => acc ||| r.2) 0)

/-- An integer segment from its first element by a combination of codes. -/
def segInt (f : Nat → Nat → Nat → Nat → Nat) (s : State) (w : Nat) (x : VReg) (is : List Nat) : Nat × Mask :=
  match is with
  | [] => (0, 0)
  | i :: r => (r.foldl (fun acc j => f s.cur.vtype.toNat w acc (elem x w j)) (elem x w i), 0)

/-- A floating segment by the canonical tree (R44, R174). -/
def segTree (f : State → Combine) (s : State) (w : Nat) (x : VReg) (is : List Nat) : Nat × Mask :=
  let q := treeRoot (f s) (treeHit s) (leavesOf s x w is)
  (q.1.getD 0, q.2)

/-! ## The instructions -/

/-- VRSUM (R169). Integer sum reduction into a scalar. -/
def execVrsum (d : Reg) (a : Reg) (m : BitVec 1) (s : State) : Out :=
  issueN .vrsum (fmtR 0x5d#7 d a 0#7 (m ++ 0#3)) (reduce (fmtR 0x5d#7 d a 0#7 (m ++ 0#3)) d a m isI (fun s w l =>
    BitVec.ofInt 64 (l.foldl (fun acc x => acc + redValue s.cur.vtype.toNat w x) 0))) s

/-- VFSUM (R170). Folds the strip into the tree register. -/
def execVfsum (a : Reg) (m : BitVec 1) (s : State) : Out :=
  issueN .vfsum (fmtR 0x5d#7 0#7 a 0#7 (m ++ 1#3)) (foldTree (fmtR 0x5d#7 0#7 a 0#7 (m ++ 1#3)) a m) s

/-- VRMIN (R169). Minimum reduction into a scalar. -/
def execVrmin (d : Reg) (a : Reg) (m : BitVec 1) (s : State) : Out :=
  issueN .vrmin (fmtR 0x5d#7 d a 0#7 (m ++ 2#3)) (reduceMinMax (fmtR 0x5d#7 d a 0#7 (m ++ 2#3)) d a m false) s

/-- VRMAX (R169). Maximum reduction into a scalar. -/
def execVrmax (d : Reg) (a : Reg) (m : BitVec 1) (s : State) : Out :=
  issueN .vrmax (fmtR 0x5d#7 d a 0#7 (m ++ 3#3)) (reduceMinMax (fmtR 0x5d#7 d a 0#7 (m ++ 3#3)) d a m true) s

/-- VRAND (R169). Bitwise AND reduction. -/
def execVrand (d : Reg) (a : Reg) (m : BitVec 1) (s : State) : Out :=
  issueN .vrand (fmtR 0x5d#7 d a 0#7 (m ++ 4#3)) (reduce (fmtR 0x5d#7 d a 0#7 (m ++ 4#3)) d a m (fun _ => true) (fun _ w l => BitVec.ofNat 64 (l.foldl (fun acc x => acc &&& x) (2 ^ w - 1)))) s

/-- VROR (R169). Bitwise OR reduction. -/
def execVror (d : Reg) (a : Reg) (m : BitVec 1) (s : State) : Out :=
  issueN .vror (fmtR 0x5d#7 d a 0#7 (m ++ 5#3)) (reduce (fmtR 0x5d#7 d a 0#7 (m ++ 5#3)) d a m (fun _ => true) (fun _ _ l => BitVec.ofNat 64 (l.foldl (fun acc x => acc ||| x) 0))) s

/-- VRXOR (R169). Bitwise XOR reduction. -/
def execVrxor (d : Reg) (a : Reg) (m : BitVec 1) (s : State) : Out :=
  issueN .vrxor (fmtR 0x5d#7 d a 0#7 (m ++ 6#3)) (reduce (fmtR 0x5d#7 d a 0#7 (m ++ 6#3)) d a m (fun _ => true) (fun _ _ l => BitVec.ofNat 64 (l.foldl (fun acc x => acc ^^^ x) 0))) s

/-- VTREE (R171). Writes the canonical root of the tree register and empties it. -/
def execVtree (d : Reg) (s : State) : Out :=
  issueN .vtree (fmtR 0x5d#7 d 0#7 0#7 7#4) (emitTree (fmtR 0x5d#7 d 0#7 0#7 7#4) d) s

/-- VARGMAX (R172). Writes the largest value and its global index. -/
def execVargmax (d : Reg) (a : Reg) (m : BitVec 1) (s : State) : Out :=
  issueN .vargmax (fmtR 0x5e#7 d a 0#7 (m ++ 0#3)) (argBest (fmtR 0x5e#7 d a 0#7 (m ++ 0#3)) d a m true false) s

/-- VARGMIN (R172). Writes the smallest value and its global index. -/
def execVargmin (d : Reg) (a : Reg) (m : BitVec 1) (s : State) : Out :=
  issueN .vargmin (fmtR 0x5e#7 d a 0#7 (m ++ 1#3)) (argBest (fmtR 0x5e#7 d a 0#7 (m ++ 1#3)) d a m false false) s

/-- VARGMAXC (R172). Combines a prior pair with the strip's arg-max. -/
def execVargmaxc (d : Reg) (a : Reg) (m : BitVec 1) (s : State) : Out :=
  issueN .vargmaxc (fmtR 0x5e#7 d a 0#7 (m ++ 2#3)) (argBest (fmtR 0x5e#7 d a 0#7 (m ++ 2#3)) d a m true true) s

/-- VSCAN (R173). Inclusive integer prefix sum. -/
def execVscan (d : Reg) (a : Reg) (seg : BitVec 1) (s : State) : Out :=
  issueN .vscan (fmtR 0x5f#7 d a 0#7 (seg ++ 0#3)) (scan (fmtR 0x5f#7 d a 0#7 (seg ++ 0#3)) d a seg isI (fun _ w p x => ((p.getD 0 + x) % 2 ^ w, 0)) (fun _ v _ => v)) s

/-- VSCANX (R173). Exclusive integer prefix sum. -/
def execVscanx (d : Reg) (a : Reg) (seg : BitVec 1) (s : State) : Out :=
  issueN .vscanx (fmtR 0x5f#7 d a 0#7 (seg ++ 1#3)) (scan (fmtR 0x5f#7 d a 0#7 (seg ++ 1#3)) d a seg isI (fun _ w p x => ((p.getD 0 + x) % 2 ^ w, 0)) (fun w v x => (v + 2 ^ w - x) % 2 ^ w)) s

/-- VFSCAN (R173). Sequential floating prefix sum. -/
def execVfscan (d : Reg) (a : Reg) (seg : BitVec 1) (s : State) : Out :=
  issueN .vfscan (fmtR 0x5f#7 d a 0#7 (seg ++ 2#3)) (scan (fmtR 0x5f#7 d a 0#7 (seg ++ 2#3)) d a seg isF (fun s _ p x => match p with
    | none => (x, 0)
    | some v => fAdd (vfmt s.cur.vtype.toNat) (sumRnd s) v x) (fun _ v _ => v)) s

/-- VMSCAN (R173). Running maximum. -/
def execVmscan (d : Reg) (a : Reg) (seg : BitVec 1) (s : State) : Out :=
  issueN .vmscan (fmtR 0x5f#7 d a 0#7 (seg ++ 3#3)) (scan (fmtR 0x5f#7 d a 0#7 (seg ++ 3#3)) d a seg (fun v => isI v || isF v) (fun s w p x => match p with
    | none => (x, 0)
    | some v => let vt := s.cur.vtype.toNat; if isI vt then (pick vt w true v x, 0) else fMinMax (vfmt vt) true v x)
    (fun _ v _ => v)) s

/-- VSEGR_ADD (R174). Segmented integer sum packed low. -/
def execVsegrAdd (d : Reg) (a : Reg) (seg : BitVec 1) (s : State) : Out :=
  issueN .vsegrAdd (fmtR 0x60#7 d a 0#7 (seg ++ 0#3)) (segReduce (fmtR 0x60#7 d a 0#7 (seg ++ 0#3)) d a seg isI (segInt fun _ w x y => (x + y) % 2 ^ w)) s

/-- VSEGR_MIN (R174). Segmented integer minimum. -/
def execVsegrMin (d : Reg) (a : Reg) (seg : BitVec 1) (s : State) : Out :=
  issueN .vsegrMin (fmtR 0x60#7 d a 0#7 (seg ++ 1#3)) (segReduce (fmtR 0x60#7 d a 0#7 (seg ++ 1#3)) d a seg isI (segInt fun vt w x y => pick vt w false x y)) s

/-- VSEGR_MAX (R174). Segmented integer maximum. -/
def execVsegrMax (d : Reg) (a : Reg) (seg : BitVec 1) (s : State) : Out :=
  issueN .vsegrMax (fmtR 0x60#7 d a 0#7 (seg ++ 2#3)) (segReduce (fmtR 0x60#7 d a 0#7 (seg ++ 2#3)) d a seg isI (segInt fun vt w x y => pick vt w true x y)) s

/-- VSEGR_AND (R174). Segmented bitwise AND. -/
def execVsegrAnd (d : Reg) (a : Reg) (seg : BitVec 1) (s : State) : Out :=
  issueN .vsegrAnd (fmtR 0x60#7 d a 0#7 (seg ++ 3#3)) (segReduce (fmtR 0x60#7 d a 0#7 (seg ++ 3#3)) d a seg isI (segInt fun _ _ x y => x &&& y)) s

/-- VSEGR_OR (R174). Segmented bitwise OR. -/
def execVsegrOr (d : Reg) (a : Reg) (seg : BitVec 1) (s : State) : Out :=
  issueN .vsegrOr (fmtR 0x60#7 d a 0#7 (seg ++ 4#3)) (segReduce (fmtR 0x60#7 d a 0#7 (seg ++ 4#3)) d a seg isI (segInt fun _ _ x y => x ||| y)) s

/-- VSEGR_FADD (R174). Segmented canonical floating sum. -/
def execVsegrFadd (d : Reg) (a : Reg) (seg : BitVec 1) (s : State) : Out :=
  issueN .vsegrFadd (fmtR 0x60#7 d a 0#7 (seg ++ 5#3)) (segReduce (fmtR 0x60#7 d a 0#7 (seg ++ 5#3)) d a seg isF (segTree fun s => fAdd (vfmt s.cur.vtype.toNat) (sumRnd s))) s

/-- VSEGR_FMIN (R174). Segmented floating minimum. -/
def execVsegrFmin (d : Reg) (a : Reg) (seg : BitVec 1) (s : State) : Out :=
  issueN .vsegrFmin (fmtR 0x60#7 d a 0#7 (seg ++ 6#3)) (segReduce (fmtR 0x60#7 d a 0#7 (seg ++ 6#3)) d a seg isF (segTree fun s => fMinMax (vfmt s.cur.vtype.toNat) false)) s

/-- VSEGR_FMAX (R174). Segmented floating maximum. -/
def execVsegrFmax (d : Reg) (a : Reg) (seg : BitVec 1) (s : State) : Out :=
  issueN .vsegrFmax (fmtR 0x60#7 d a 0#7 (seg ++ 7#3)) (segReduce (fmtR 0x60#7 d a 0#7 (seg ++ 7#3)) d a seg isF (segTree fun s => fMinMax (vfmt s.cur.vtype.toNat) true)) s

end Sys2Proof.Machine
end

