-- ==== Sys2Proof/Machine/Red.lean ====
section
/-! DEFINITION. Reductions through RED pages at their home (19_translation_fabric, R407 to R409): rounds, the canonical
tree over contributor indices, late and duplicate contributions. -/

namespace Sys2Proof.Machine

/-- The fields of a reduction-table entry (R407). -/
def redOp (e : Bytes) : Nat := field e 0 1
def redFmt (e : Bytes) : Nat := field e 1 1
def redN (e : Bytes) : Nat := field e 2 2
def redCidx (e : Bytes) : Nat := field e 4 2
def redTmo (e : Bytes) : Nat := field e 6 2
def redDone (e : Bytes) : Nat := field e 0x10 8

/-- Whether an entry is valid for a page of either kind: TMO is 0 on unordered pages (R407). -/
def redValid (e : Bytes) (ordered : Bool) : Bool :=
  let op := redOp e
  let f := redFmt e
  1 ≤ op && op ≤ 6 && (f == 0x03 || (op ≤ 3 && (f == 0x10 || f == 0x11 || f == 0x12))) &&
    1 ≤ redN e && redN e ≤ 1024 && redCidx e < redN e && (ordered || redTmo e == 0) &&
    (e.drop 0x0A).take 6 == List.replicate 6 0 && (e.drop 0x18).take 8 == List.replicate 8 0

/-- A sum in a float format, rounded RNE: in an OFP8 format an overflow gives what SAT says (R28, R37). -/
def redAdd (t : Fmt) (sat : Bool) (x y : Nat) : Nat :=
  let q := fAdd t rne x y
  if sat && t.width == 8 && q.2 / 16 % 2 == 1 then fMax t (q.1 / 128 == 1) else q.1

/-- One combination of a reduction: operators 1 to 6 on a tensor format, floats rounding RNE, integers wrapping (R207,
R407, R408); `sat` is fmode.SAT. -/
def combineOp (op f : Nat) (x y : Nat) (sat : Bool := false) : Nat :=
  let w := 8 * fmtSize f
  let t := if f == 0x10 then fp32 else if f == 0x11 then fp16 else if f == 0x12 then bf16 else if f == 0x13 then e4m3 else e5m2
  let isInt := f == 0x01 || f == 0x02 || f == 0x03
  match op with
  | 1 => if isInt then (x + y) % 2 ^ w else redAdd t sat x y
  | 2 => if isInt then (if signedOf w y < signedOf w x then y else x) else (fMinMax t false x y).1
  | 3 => if isInt then (if signedOf w x < signedOf w y then y else x) else (fMinMax t true x y).1
  | 4 => x &&& y
  | 5 => x ||| y
  | _ => x ^^^ y

/-- Element `j` of a line of `sz`-byte elements. -/
def lineElem (bs : Bytes) (sz j : Nat) : Nat := field bs (j * sz) sz

/-- The result of an ordered round: element by element, the canonical tree over the present indices (R408). -/
def redOrdered (op f : Nat) (got : List (Nat × Bytes)) : Bytes :=
  let sz := fmtSize f
  (List.range (256 / sz)).flatMap fun j =>
    let leaves := got.map fun g => (⟨0, g.1, lineElem g.2 sz j, g.1⟩ : TreeNode)
    leBytes sz ((treeRoot (fun x y => (combineOp op f x y, 0)) (fun _ _ => 0) leaves).1.getD 0)

/-- The result of an unordered round: contributions combined as they came (R408). -/
def redArrival (op f : Nat) : List (Nat × Bytes) → Bytes
  | [] => []
  | g :: r =>
    let sz := fmtSize f
    r.foldl (fun acc h => (List.range (256 / sz)).flatMap fun j =>
      leBytes sz (combineOp op f (lineElem acc sz j) (lineElem h.2 sz j))) g.2

/-- Contributions in index order. -/
def insertGot (g : Nat × Bytes) : List (Nat × Bytes) → List (Nat × Bytes)
  | [] => [g]
  | h :: r => if g.1 < h.1 then g :: h :: r else h :: insertGot g r

/-- A word in partition memory incremented as the device's own release (R408, R409): here, or by an atomic at a peer. -/
def bumpWord (s : State) (pn va : Nat) : State :=
  match devicePlace s pn va 8 .write with
  | some (k, s') => putAt (siteRecall s' k 8) pn k (leBytes 8 ((readLE s' k 8 + 1) % 2 ^ 64))
  | none =>
    match deviceEntry s pn va .atomic with
    | some (e, m, s') =>
      if m == 0 then s' else sendFor s' (deviceThread pn) (.device (some .add)) (ptePeer e.leaf) va (e.addr va) (leBytes 8 1) none []
    | none => s

/-- A round closed: the result over the line, the completion word incremented (R408, R409). -/
def redClose (s : State) (r : RedRound) : State :=
  let e := redEntry s r.part r.ridx
  let bs := if r.ordered then redOrdered (redOp e) (redFmt e) r.got else redArrival (redOp e) (redFmt e) r.got
  let s := putAt (siteRecall s r.pa bs.length) r.part r.pa bs
  let s := bumpWord s r.part (redDone e)
  { s with rounds := s.rounds.filter fun q => !(q.part == r.part && q.pa == r.pa) }

/-- A contribution at the home (R408, R409): the state after it and its answer, 0 or a NACK cause. -/
def redApply (s : State) (pn src : Nat) (m : RedMsg) : State × Nat :=
  let e := redEntry s pn m.ridx
  if !(redValid e m.ordered && redOp e == m.op && redFmt e == m.fmt && redN e == m.n && redTmo e == m.tmo && m.cidx < m.n)
  then (s, 2)
  else
    let late := Store.get ([] : List Nat) s.flushed m.pa
    if m.ordered && late.contains m.cidx then
      (logEvent { s with flushed := Store.put [] s.flushed m.pa (late.filter fun c => c != m.cidx) }
        pn 3 src m.pa m.cidx m.ridx 0 0, 5)
    else
      let r := (s.rounds.find? fun q => q.part == pn && q.pa == m.pa).getD ⟨pn, m.pa, m.ridx, m.ordered, [], s.clock.toNat⟩
      if r.got.any fun g => g.1 == m.cidx then (logEvent s pn 4 src m.pa m.cidx m.ridx 0 0, 6)
      else
        let r := { r with got := if m.ordered then insertGot (m.cidx, m.data) r.got else r.got ++ [(m.cidx, m.data)] }
        let s := { s with rounds := (s.rounds.filter fun q => !(q.part == pn && q.pa == m.pa)) ++ [r] }
        if r.got.length == m.n then (redClose s r, 0) else (s, 0)

end Sys2Proof.Machine
end

