-- ==== Sys2Proof/Machine/Engine.lean ====
section
/-! DEFINITION. What engine transfers share (R180, R181, R197 to R209, R292): the runs of bytes an element list makes,
their addresses checked in order, reading and writing them with stamps and the error code, and late faults. -/

namespace Sys2Proof.Machine

/-- A run with where it leads. -/
abbrev Piece := Run × Route

/-- A run's address checked; where the run as a whole fails, its elements of `unit` bytes one by one (R202). -/
def reachRun (a : Acc) (unit : Nat) (r : Run) : M (List Piece) := fun s =>
  let one (q : Run) : M Piece := do
    let t ← resolve (BitVec.ofNat 64 q.va) q.n a
    interlock (BitVec.ofNat 64 q.va) q.n (a == .write)
    pure (q, t)
  match one r s with
  | .ok (p, s') => .ok ([p], s')
  | .error e =>
    if e.early.isSome && unit < r.n then
      ((List.range (r.n / unit)).mapM fun j => one ⟨r.va + j * unit, unit, r.off + j * unit⟩) (e.record s)
    else .error e

/-- The runs of a transfer checked in order; the first failure traps. -/
def reachAll (a : Acc) (unit : Nat) : List Run → M (List Piece)
  | [] => pure []
  | r :: rs => do
    let p ← reachRun a unit r
    let q ← reachAll a unit rs
    pure (p ++ q)

/-- As `reachAll` for a trimmed form (R199): the pieces before the first element that fails XLAT or PROT, and how many
bytes come before it. -/
def reachTrim (a : Acc) (unit : Nat) : List Run → M (List Piece × Option Nat)
  | [] => pure ([], none)
  | r :: rs => fun s =>
    match reachRun a unit r s with
    | .ok (p, s') => (do
        let q ← reachTrim a unit rs
        pure (p ++ q.1, q.2) : M (List Piece × Option Nat)) s'
    | .error e =>
      match e.early with
      | some (c, _) => if c == cXLAT || c == cPROT then trimAt a unit r (r.n / unit) 0 (e.record s) else .error e
      | none => .error e
where
  /-- The elements of a failing run before the one that fails. -/
  trimAt (a : Acc) (unit : Nat) (r : Run) : Nat → Nat → M (List Piece × Option Nat)
    | 0, j => pure ([], some (r.off + j * unit))
    | n + 1, j => fun s =>
      match reachRun a unit ⟨r.va + j * unit, unit, r.off + j * unit⟩ s with
      | .ok (p, s') => (do
          let q ← trimAt a unit r n (j + 1)
          pure (p ++ q.1, q.2) : M (List Piece × Option Nat)) s'
      | .error e => if e.early.isSome then .ok (([], some (r.off + j * unit)), e.record s) else .error e

/-- A late engine fault (R209): the A stream takes it at its next boundary; of several, the first is reported. -/
def Thread.setLate (t : Thread) (c : BitVec 8) (i : Dword) : Thread :=
  { t with a := { t.a with late := match t.a.late with
    | some l => some l
    | none => some (c, i) } }

/-- The stamps of an engine access, sector by sector (R292): none where it conflicts, with the first byte of the sector
in conflict. -/
def stampEngine (s : State) (va : Nat) (r : Route) (n region : Nat) (write : Bool) : Except Nat State :=
  if !checkedAt s s.th r || n == 0 then .ok s
  else
    let sz := sectorSize r.key
    let first := r.key / sz
    (List.range ((r.key + n - 1) / sz - first + 1)).foldl (fun acc j =>
      match acc with
      | .error e => .error e
      | .ok s =>
        let sector := (first + j) * sz
        match stampSector s s.th (s.th.serial, s.th.index, true, region) sector write with
        | some s' => .ok s'
        | none => .error (va - (r.key - r.key / sz * sz) + j * sz)) (.ok s)

/-- A failure of an engine access: a trap cause and its EINFO. -/
abbrev Failure := BitVec 8 × Dword

/-- The first byte of the first bad unit in a range of places, as an address (R417). -/
def badAddr (s : State) (va key n : Nat) : Nat :=
  match (List.range n).find? fun j => badUnit s (key + j) 1 with
  | some j => va + j
  | none => va

/-- The first byte of a range of places that a write would merge into a bad unit, as an address (R417). -/
def mergeAddr (s : State) (va key n : Nat) : Nat :=
  match (List.range n).find? (fun j =>
      let u := (key + j) / 8 * 8
      badMerge s (max key u) (min (key + n) (u + 8) - max key u)) with
  | some j => va + j
  | none => va

/-- Requests for the bytes of a run at a peer, a line each (R398). -/
def askRun (region : Nat) (r : Run) (t : Route) (s : State) : State :=
  (lineParts r.va r.n).foldl (fun s q =>
    sendReq s (.fetch region (r.off + q.1) q.2) (t.peer s) (BitVec.ofNat 64 (r.va + q.1)) (t.key + q.1) (leBytes 2 q.2) none) s

/-- The bytes of pieces of this device; a peer's are requested and read 0 until they come. -/
def readPieces (region : Nat) (total : Nat) (ps : List Piece) (s : State) : State × Bytes × Option Failure :=
  ps.foldl (fun acc p =>
    match acc with
    | (s, bs, some f) => (s, bs, some f)
    | (s, bs, none) =>
      let (r, t) := p
      match stampEngine s r.va t r.n region false with
      | .error va => (s, bs, some (cMMX, BitVec.ofNat 64 va))
      | .ok s =>
        if t.here s then
          let s := countReq s
          if t.bad s r.n then (s, bs, some (cECC, BitVec.ofNat 64 (badAddr s r.va t.key r.n)))
          else
            (if t.mode == 7 then s else siteRecall s t.key r.n,
              bs.take r.off ++ routeBytes s t r.n ++ bs.drop (r.off + r.n), none)
        else
          (askRun region r t s, bs, none))
    (s, List.replicate total 0, none)

/-- The checks of a piece of a write before any data moves (R405, R407): multicast groups and reduction entries. -/
def writeCheck (word : Word) (p : Piece) : M Unit := do
  let s ← get
  let (r, t) := p
  let va : Dword := BitVec.ofNat 64 r.va
  if t.mode == 4 then
    let _ ← multicastCheck va t r.n
  else if t.mode == 5 || t.mode == 6 then
    if r.n != 0 && r.n % 256 == 0 && r.va % 256 == 0 then pure () else trapBack cPROT va
    let i := ptePeer t.leaf % 256
    if redValid (redEntry s s.th.part i) (t.mode == 5) then
      failBack s (t.mode == 6 && launchFlag s s.th 0) cILL (wordInfo word)
    else
      set (logEvent s s.th.part 8 0 (0x4000 + 32 * i) 0 0 0 0)
      trapBack cPROT va
  else pure ()

/-- The checks of all pieces in order. -/
def writeChecks (word : Word) (ps : List Piece) : M Unit := ps.forM (writeCheck word)

/-- Those of a trimmed form (R200): the pieces before the first one that its page refuses, and where that one stands. -/
def writeTrim (word : Word) : List Piece → M (List Piece × Option Nat)
  | [] => pure ([], none)
  | p :: ps => fun s =>
    match writeCheck word p s with
    | .ok (_, s') => (do
        let q ← writeTrim word ps
        pure (p :: q.1, q.2) : M (List Piece × Option Nat)) s'
    | .error (.trapBack s' c i) => if c == cPROT then .ok (([], some p.1.off), s') else .error (.trapBack s' c i)
    | .error e => .error e

/-- The contribution a write to a RED page makes (R407). -/
def redMsg (s : State) (t : Route) (bs : Bytes) : RedMsg :=
  let i := ptePeer t.leaf % 256
  let e := redEntry s s.th.part i
  ⟨t.key, i, redCidx e, redOp e, redFmt e, redN e, redTmo e, t.mode == 5, bs⟩

/-- A piece sent to the peer that holds its page, a line each (R398). -/
def deliverRun (region : Nat) (quiet : Bool) (r : Run) (t : Route) (bs : Bytes) (s : State) : State :=
  (lineParts r.va r.n).foldl (fun s q =>
    sendReq s (.deliver region quiet) (t.peer s) (BitVec.ofNat 64 (r.va + q.1)) (t.key + q.1) ((bs.drop q.1).take q.2) none) s

/-- A piece of a MULTICAST or RED page in the requests it makes, a line each (R398, R407); another one whole. -/
def pieceLines (p : Piece) : List Piece :=
  if 4 ≤ p.2.mode && p.2.mode ≤ 6 then
    (lineParts p.1.va p.1.n).map fun q => (⟨p.1.va + q.1, q.2, p.1.off + q.1⟩, { p.2 with key := p.2.key + q.1 })
  else [p]

/-- The bytes of one piece written by an engine: here, at a peer, to a group, or to a RED home; `quiet` where the digest does
not count them. A contribution counts in the digest once the home has added it (R408, R422). -/
def writePiece (region : Nat) (quiet : Bool) (p : Piece) (bs : Bytes) (s : State) : State × Option Failure :=
  let (r, t) := p
  let va : Dword := BitVec.ofNat 64 r.va
  match stampEngine s r.va t r.n region true with
  | .error v => (s, some (cMMX, BitVec.ofNat 64 v))
  | .ok s =>
    if t.mode == 0 then
      match writeAt va t bs quiet s with
      | .ok (_, s') => (s', none)
      | .error _ => (s, some (cECC, BitVec.ofNat 64 (mergeAddr s r.va t.key r.n)))
    else if t.mode == 4 then
      match multicastWrite region va t bs quiet s with
      | .ok (_, s') => (s', none)
      | .error (.trapBack s' c i) => (s', some (c, i))
      | .error e => (s, e.early)
    else if t.mode == 5 || t.mode == 6 then
      let m := redMsg s t bs
      if t.here s then
        let q := redApply s s.th.part (accId s (getPart s s.th.part)) m
        (countReq (if q.2 == 0 then foldDigest q.1 q.1.th r.va bs else q.1), nackFailure q.2 r.va)
      else (sendReq s (.red region m) (t.peer s) va t.key bs none, none)
    else (deliverRun region quiet r t bs s, none)

/-- The pieces of a write in order, each from its place in the data; the first failure stops it. With the state, how many
bytes have moved. -/
def writePieces (region : Nat) (quiet : Bool) (data : Bytes) (ps : List Piece) (s : State) : State × Nat × Option Failure :=
  (ps.flatMap pieceLines).foldl (fun acc p =>
    match acc with
    | (s, n, some f) => (s, n, some f)
    | (s, n, none) =>
      match writePiece region quiet p ((data.drop p.1.off).take p.1.n) s with
      | (s, some f) => (s, n, some f)
      | (s, none) => (s, n + p.1.n, none)) (s, 0, none)

/-- A transfer recorded as begun (R292): its region number is the thread's count of transfers. -/
def beginTransfer : M Nat := fun s =>
  let n := s.th.transfers + 1
  .ok (n, s.updTh fun t => { t with transfers := n })

/-- A stream transfer's end at issue: in flight, or stopped by a late fault (R209). `keep` is what its chunk takes of bytes
that a peer still owes. -/
def recordXfer (region : Nat) (vs : Option Nat) (c : Chunk) (f : Option Failure) (keep : VReg := BitVec.allOnes 16384) :
    M Unit := updT fun t =>
  match f with
  | some (cause, info) => t.setLate cause info
  | none => { t with xfers := t.xfers ++ [⟨vs, c, region, keep⟩] }

end Sys2Proof.Machine
end

