-- ==== Sys2Proof/Machine/StreamXfer.lean ====
section
/-! DEFINITION. Stream transfers, gathers and scatters (07_memory_engines, R197 to R203). -/

namespace Sys2Proof.Machine

/-! ## Shared operations -/

/-- Room in an inbound stream, transfers in flight to it counted: with 4 chunks, SLOAD parks (R198). -/
def roomFor (j : Nat) : M Unit := fun s =>
  if ((s.th.vstream j).chunks.length + (s.th.xfers.filter fun x => x.vs == some j).length) < 4 then .ok ((), s)
  else .error (.park (.pushV j))

/-- The oldest chunk of an outbound stream taken, or a park (R200). -/
def popChunk (j : Nat) : M Chunk := fun s =>
  match (s.th.vstream j).chunks with
  | [] => .error (.park (.popV j))
  | c :: r => .ok (c, s.updTh fun t => t.setVstream j ⟨r, c.fin⟩)

/-- The bytes of a register, the first `n`. -/
def regBytes (v : VReg) (n : Nat) : Bytes := (List.range n).map fun i => v.extractLsb' (8 * i) 8
/-- A register of bytes, zero beyond them. -/
def bytesReg (bs : Bytes) : VReg := BitVec.ofNat 16384 (leNat bs)

/-- The runs of `n` elements of `sz` bytes in a row from an address. -/
def rowRuns (va : Dword) (n sz : Nat) : List Run :=
  coalesce ((List.range n).map fun m => ⟨(va.toNat + m * sz) % 2 ^ 64, sz, m * sz⟩)

/-- Whether the chunk of a load carries the end flag: a loop context is open and its strip is vl (R198). -/
def loadEnds (c : Stream) : Bool :=
  match c.loop with
  | some l => l.strip == c.vl
  | none => false

/-- A load's pieces read and its chunk put in flight. -/
def finishLoad (vs total : Nat) (ps : List Piece) (mk : Bytes → Chunk) (keep : VReg := BitVec.allOnes 16384) : M Unit := do
  let g ← beginTransfer
  let s ← get
  let (s', bs, f) := readPieces g total ps s
  set s'
  recordXfer g (some vs) (mk bs) f keep

/-- A store's pieces written. -/
def finishStore (word : Word) (data : Bytes) (ps : List Piece) : M Unit := do
  writeChecks word ps
  let g ← beginTransfer
  let s ← get
  let (s', _, f) := writePieces g false data ps s
  set s'
  recordXfer g none ⟨0, 0, false, false, false⟩ f

/-- ftrim and, for a load, the arm limit after a trimmed transfer (R199, R200). -/
def trimmed (k : Option Nat) (arms : Bool) : M Unit := updC fun c =>
  match k with
  | some n =>
    { c with ftrim := BitVec.ofNat 64 n, arm := if arms then BitVec.ofNat 64 (min c.arm.toNat n) else c.arm }
  | none => { c with ftrim := BitVec.allOnes 64 }

/-- SLOAD, and SLOAD.trim with `trim` (R198, R199). -/
def streamLoad (d a : Reg) (trim : Bool) : M Unit := do
  roomFor d.toNat
  let s ← get
  let va := s.th.ar a
  let sz := vwidth s.cur.vtype.toNat / 8
  let n := s.cur.vl.toNat
  need (va.toNat % sz == 0) cALIGN va
  if trim then
    let (ps, k) ← reachTrim .read sz (rowRuns va n sz)
    let cnt := match k with
      | some b => b / sz
      | none => n
    finishLoad d.toNat (cnt * sz) ps fun bs =>
      ⟨bytesReg bs, cnt, loadEnds s.cur || k.isSome, k.isSome, false⟩
    trimmed (k.map fun b => b / sz) true
  else
    let ps ← reachAll .read sz (rowRuns va n sz)
    finishLoad d.toNat (n * sz) ps fun bs => ⟨bytesReg bs, n, loadEnds s.cur, false, false⟩
  setStat 0

/-- SSTORE, and SSTORE.trim with `trim` (R200). -/
def streamStore (word : Word) (d a : Reg) (trim : Bool) : M Unit := do
  let c ← popChunk d.toNat
  let s ← get
  let va := s.th.ar a
  let sz := vwidth s.cur.vtype.toNat / 8
  need (c.count * sz ≤ 2048) cILL (wordInfo word)
  need (va.toNat % sz == 0) cALIGN va
  let data := regBytes c.data (c.count * sz)
  if trim then
    let (ps, k) ← reachTrim .write sz (rowRuns va c.count sz)
    let (ps, j) ← writeTrim word ps
    finishStore word data ps
    trimmed ((j.orElse fun _ => k).map fun b => b / sz) false
  else
    let ps ← reachAll .write sz (rowRuns va c.count sz)
    finishStore word data ps
  setStat 0

/-! ## Slices (R201) -/

/-- Elements in a tensor, and where linear element `j` lies. -/
def tidTotal (r : Bytes) : Nat := tidDim r 0 * tidDim r 1 * tidDim r 2 * tidDim r 3
def tidLinear (r : Bytes) (va j : Nat) : Nat :=
  let (d0, d1, d2) := (tidDim r 0, tidDim r 1, tidDim r 2)
  (va + j % d0 * tidStride r 0 + j / d0 % d1 * tidStride r 1 + j / d0 / d1 % d2 * tidStride r 2 +
    j / d0 / d1 / d2 * tidStride r 3) % 2 ^ 64

/-- The record a .slice form names with its scalar; none where the entry holds no valid record. -/
def sliceRecord (word : Word) (b : Reg) : M (Option Bytes) := do
  let v ← rd b
  need (v.toNat < 256) cILL (wordInfo word)
  let r ← see fun s => Store.get (List.replicate 32 0) (getPart s s.th.part).tids v.toNat
  pure (if tidFmt r == 0 then none else some r)

/-- The runs of elements base to base + n − 1 of a tensor; elements beyond it have none. -/
def sliceRuns (r : Bytes) (va base n sz : Nat) : List Run :=
  coalesce ((List.range n).flatMap fun m =>
    if base + m < tidTotal r then elemRuns (tidLinear r va (base + m)) sz (m * sz) else [])

/-- The runs of the scale bytes of the blocks that hold those elements (R163, R201). -/
def scaleRuns (r : Bytes) (base n : Nat) : List Run :=
  if tidBlk r == 5 && n != 0 then
    coalesce ((List.range ((base % 32 + n + 31) / 32)).flatMap fun k =>
      if (base / 32 + k) * 32 < tidTotal r then [⟨(tidScale r + base / 32 + k) % 2 ^ 64, 1, 0x600 + k⟩] else [])
  else []

/-- The planes of a block of an NI8 tensor without the bits of elements beyond its extent, which are delivered as code 0
(R20). -/
def maskPlanes (r : Bytes) (block : Nat) (bs : Bytes) : Bytes :=
  bs.zipIdx.map fun e =>
    let q := e.2 % 256
    let left := tidTotal r - (block * 2048 + 8 * q)
    e.1 &&& BitVec.ofNat 8 (2 ^ min 8 left - 1)

/-- The limits a slice meets before it moves (R201). -/
def sliceChecks (word : Word) (r : Bytes) (va : Dword) (base n : Nat) : M Unit := do
  let f := tidFmt r
  if f == 0x20 then
    need (base % 2048 + n ≤ 2048) cILL (wordInfo word)
    need (tidBlk r != 5 || tidPlanes r * 256 ≤ 0x600) cILL (wordInfo word)
    need (va.toNat % 2048 == 0) cALIGN va
  else
    let sz := fmtSize f
    need (n ≤ 2048 / sz) cILL (wordInfo word)
    need (tidBlk r != 5 || n * sz ≤ 0x600) cILL (wordInfo word)
    need (va.toNat % sz == 0) cALIGN va

/-- SLOAD.slice. -/
def sliceLoad (word : Word) (d a b : Reg) : M Unit := do
  match ← sliceRecord word b with
  | none => setStat 0x11
  | some r =>
    roomFor d.toNat
    let s ← get
    let va := s.th.ar a
    let base := s.cur.sbase.toNat
    let n := s.cur.vl.toNat
    sliceChecks word r va base n
    let fin := loadEnds s.cur
    if tidFmt r == 0x20 then
      let blk := base / 2048
      let p := tidPlanes r * 256
      let body : List Run := if base < tidTotal r && n != 0 then [⟨(va.toNat + 2048 * blk) % 2 ^ 64, p, 0⟩] else []
      let ps ← reachAll .read 1 (body ++ scaleRuns r base n)
      let mask (bs : Bytes) : VReg := bytesReg (maskPlanes r blk (bs.take p) ++ bs.drop p)
      finishLoad d.toNat 2048 ps (fun bs => ⟨mask bs, n, fin, false, true⟩) (mask (List.replicate 2048 0xFF))
    else
      let sz := fmtSize (tidFmt r)
      let ps ← reachAll .read sz (sliceRuns r va.toNat base n sz)
      let qs ← reachAll .read 1 (scaleRuns r base n)
      finishLoad d.toNat 2048 (ps ++ qs) fun bs => ⟨bytesReg bs, n, fin, false, tidBlk r == 5⟩
    setStat 0

/-- SSTORE.slice: codes, then scale bytes, from the chunk (R201). -/
def sliceStore (word : Word) (d a b : Reg) : M Unit := do
  match ← sliceRecord word b with
  | none => setStat 0x11
  | some r =>
    need (tidFmt r != 0x20) cILL (wordInfo word)
    let c ← popChunk d.toNat
    let s ← get
    let va := s.th.ar a
    let base := s.cur.sbase.toNat
    sliceChecks word r va base s.cur.vl.toNat
    sliceChecks word r va base c.count
    let sz := fmtSize (tidFmt r)
    let ps ← reachAll .write sz (sliceRuns r va.toNat base c.count sz)
    let qs ← reachAll .write 1 (scaleRuns r base c.count)
    finishStore word (regBytes c.data 2048) (ps ++ qs)
    setStat 0

/-! ## Gathers and scatters (R202, R203) -/

/-- Index `m` of an index chunk, an unsigned 32-bit number. DESIGN CHOICE: of a chunk whose count is above 512, as one made at
a narrower vtype may be, the indices beyond its 2 KiB read as 0; R202 does not speak of them (log 82). -/
def chunkIdx (c : Chunk) (m : Nat) : Nat := elem c.data 32 m

/-- The runs of a gather or scatter, in ascending m. -/
def indexRuns (va : Dword) (c : Chunk) (sz : Nat) : List Run :=
  coalesce ((List.range c.count).map fun m => ⟨(va.toNat + chunkIdx c m * sz) % 2 ^ 64, sz, m * sz⟩)

/-- The VA that names a byte of the alcove of a core of the issuing cluster (R281): the window of that relative core. -/
def clusterVa (lc k off : Nat) : Nat := 0x01000000 + (k + 8 - coreOf lc) * 0x00200000 + off

/-- The pieces of a cluster form (R203): each index names a core of the cluster and an element of its alcove. A fault
names the byte by its window VA. DEDUCED (R79: a faulting VA). -/
def clusterPieces (va : Dword) (c : Chunk) (sz : Nat) (write : Bool) : M (List Piece) :=
  (List.range c.count).mapM fun m => fun s =>
    let idx := chunkIdx c m
    let off := va.toNat + idx % 2 ^ 29 * sz
    let lc := s.th.lcore
    let place := match launchOf s s.th with
      | some l => alcovePlace s l (dieOf lc) (clusterOf lc) (idx / 2 ^ 29) off sz
      | none => none
    match place with
    | some k => (do
        interlock (BitVec.ofNat 64 (clusterVa lc (idx / 2 ^ 29) off)) sz write
        pure ((⟨clusterVa lc (idx / 2 ^ 29) off, sz, m * sz⟩, ⟨k, 0, 0⟩) : Piece) : M Piece) s
    | none => .error (.trap cPROT (BitVec.ofNat 64 (clusterVa lc (idx / 2 ^ 29) off)))

/-- The base of a gather or scatter, aligned at the element size; that of a cluster form in the alcove window. -/
def gatherBase (a : Reg) (sz : Nat) (cluster : Bool) : M Dword := do
  let va ← see fun s => s.th.ar a
  need (va.toNat % sz == 0) cALIGN va
  need (!cluster || va.toNat < 0x180000) cPROT va
  pure va

/-- SGATH and SGATHC. -/
def gather (word : Word) (d a b : Reg) (w : BitVec 3) (cluster : Bool) : M Unit := do
  let sz := 2 ^ w.toNat
  let va ← gatherBase a sz cluster
  roomFor d.toNat
  let c ← popChunk b.toNat
  need (c.count * sz ≤ 2048) cILL (wordInfo word)
  let ps ← if cluster then clusterPieces va c sz false else reachAll .read sz (indexRuns va c sz)
  finishLoad d.toNat (c.count * sz) ps fun bs => ⟨bytesReg bs, c.count, c.fin, false, false⟩
  setStat 0

/-- SSCAT and SSCATC. -/
def scatter (word : Word) (d a b : Reg) (w : BitVec 3) (cluster : Bool) : M Unit := do
  let sz := 2 ^ w.toNat
  let va ← gatherBase a sz cluster
  let v ← popChunk d.toNat
  let c ← popChunk b.toNat
  need (v.count == c.count) cILL (wordInfo word)
  need (c.count * sz ≤ 2048) cILL (wordInfo word)
  let ps ← if cluster then clusterPieces va c sz true else reachAll .write sz (indexRuns va c sz)
  finishStore word (regBytes v.data (c.count * sz)) ps
  setStat 0

/-- STREAM_TRANSFER_COMPLETION's transfer: number `k` of those in flight, ready once a peer owes it nothing and no
earlier one fills the same stream. -/
def xferReady (s : State) (t : Thread) (k : Nat) : Bool :=
  match t.xfers[k]? with
  | none => false
  | some x =>
    !owed s t x.region &&
    (x.vs.isNone || !(t.xfers.take k).any fun y => y.vs == x.vs)

/-- A transfer's end: its chunk enters its stream and its region closes (R198, R292). -/
def finishXfer (t : Thread) (k : Nat) : Thread :=
  match t.xfers[k]? with
  | none => t
  | some x =>
    let t := { t with xfers := t.xfers.take k ++ t.xfers.drop (k + 1) }
    match x.vs with
    | none => t
    | some j => let v := t.vstream j; t.setVstream j { v with chunks := v.chunks ++ [x.chunk] }

/-! ## The instructions -/

/-- SLOAD (R198). Loads vl contiguous elements and pushes one chunk. -/
def execSload (d : Reg) (a : Reg) (s : State) : Out :=
  issueN .sload (fmtR 0x40#7 d a 0#7 0#4) (streamLoad d a false) s

/-- SLOAD_SLICE (R201). Loads a TID-described slice into one chunk. -/
def execSloadSlice (d : Reg) (a : Reg) (b : Reg) (s : State) : Out :=
  issueN .sloadSlice (fmtR 0x40#7 d a b 1#4) (sliceLoad (fmtR 0x40#7 d a b 1#4) d a b) s

/-- SLOAD_TRIM (R199). Contiguous load that trims at the first faulting element. -/
def execSloadTrim (d : Reg) (a : Reg) (s : State) : Out :=
  issueN .sloadTrim (fmtR 0x40#7 d a 0#7 2#4) (streamLoad d a true) s

/-- SSTORE (R200). Pops one chunk and stores its elements contiguously. -/
def execSstore (d : Reg) (a : Reg) (s : State) : Out :=
  issueN .sstore (fmtR 0x41#7 d a 0#7 0#4) (streamStore (fmtR 0x41#7 d a 0#7 0#4) d a false) s

/-- SSTORE_SLICE (R201). Stores a chunk into a TID-described slice. -/
def execSstoreSlice (d : Reg) (a : Reg) (b : Reg) (s : State) : Out :=
  issueN .sstoreSlice (fmtR 0x41#7 d a b 1#4) (sliceStore (fmtR 0x41#7 d a b 1#4) d a b) s

/-- SSTORE_TRIM (R200). Stores a chunk up to the first faulting element. -/
def execSstoreTrim (d : Reg) (a : Reg) (s : State) : Out :=
  issueN .sstoreTrim (fmtR 0x41#7 d a 0#7 2#4) (streamStore (fmtR 0x41#7 d a 0#7 2#4) d a true) s

/-- SGATH (R202). Gathers elements by an index chunk and pushes one chunk. -/
def execSgath (d : Reg) (a : Reg) (b : Reg) (w : BitVec 3) (s : State) : Out :=
  issueN .sgath (fmtR 0x42#7 d a b (0#1 ++ w)) (gather (fmtR 0x42#7 d a b (0#1 ++ w)) d a b w false) s

/-- SGATHC (R203). Gathers across the alcoves of the cluster. -/
def execSgathc (d : Reg) (a : Reg) (b : Reg) (w : BitVec 3) (s : State) : Out :=
  issueN .sgathc (fmtR 0x42#7 d a b (1#1 ++ w)) (gather (fmtR 0x42#7 d a b (1#1 ++ w)) d a b w true) s

/-- SSCAT (R202). Scatters a data chunk by an index chunk. -/
def execSscat (d : Reg) (a : Reg) (b : Reg) (w : BitVec 3) (s : State) : Out :=
  issueN .sscat (fmtR 0x43#7 d a b (0#1 ++ w)) (scatter (fmtR 0x43#7 d a b (0#1 ++ w)) d a b w false) s

/-- SSCATC (R203). Scatters across the alcoves of the cluster. -/
def execSscatc (d : Reg) (a : Reg) (b : Reg) (w : BitVec 3) (s : State) : Out :=
  issueN .sscatc (fmtR 0x43#7 d a b (1#1 ++ w)) (scatter (fmtR 0x43#7 d a b (1#1 ++ w)) d a b w true) s

end Sys2Proof.Machine
end

