-- ==== Sys2Proof/Machine/CopyEng.lean ====
section
/-! DEFINITION. Copies, tensor identifiers and the copy engines (07_memory_engines, R204 to R210; 10_onchip_memory, R286, R287). -/

namespace Sys2Proof.Machine

/-! ## Descriptors (R205 to R207) -/

/-- K of a tile format and plane count; 0 for no tile format (R211). -/
def tileK (f planes : Nat) : Nat :=
  match f with
  | 0x13 | 0x14 | 0x01 => 128
  | 0x20 => if planes == 2 then 512 else if planes ≤ 4 then 256 else 128
  | 0x12 | 0x11 => 64
  | _ => 0

/-- The parts of a descriptor that need no identifier record. -/
def descOp (b : Bytes) : Nat := field b 0x13 1
def descHint (b : Bytes) : Nat := field b 0x16 1
def descFlag (b : Bytes) (k : Nat) : Bool := field b 0x14 2 / 2 ^ k % 2 == 1
def descKind (b : Bytes) : Nat := field b 0x12 1
def descDone (b : Bytes) : Nat := field b 0x20 8
def descValue (b : Bytes) : Nat := field b 0x28 8
def descDoneSize (b : Bytes) : Nat := if descFlag b 1 then 4 else 8

/-- The rules of R205's table that the descriptor alone decides; the completion word's VA is aligned whether or not the
word is written (log 24). -/
def descOk (b : Bytes) : Bool :=
  let kind := descKind b
  kind ≤ 2 && field b 0x14 2 < 16 && field b 0x17 1 == 0 && field b 0x30 16 == 0 && descHint b ≤ 2 &&
    (if kind == 1 then 1 ≤ descOp b && descOp b ≤ 6 else descOp b == 0) &&
    (kind != 1 || descFlag b 3) && (kind != 2 || (descFlag b 2 && !descFlag b 3 && field b 8 8 ≤ 1)) &&
    descDone b % descDoneSize b == 0

/-- The alignment a described side needs (R180). -/
def sideOk (va : Nat) (r : Bytes) : Bool := va % (if tidFmt r == 0x20 then 2048 else fmtSize (tidFmt r)) == 0

/-- The code a copy's descriptor and records give stat: 0 where it starts (R205, R206, R207). -/
def copyStat (c : Copy) : Nat :=
  let b := c.desc
  let st := descFlag b 2
  let dt := descFlag b 3
  if !descOk b then 0x10
  else if (st && tidFmt c.srcTid == 0) || (dt && tidFmt c.dstTid == 0) then 0x11
  else if st && dt && tidFmt c.srcTid != tidFmt c.dstTid then 0x12
  else if st && !sideOk c.src c.srcTid then 0x10
  else if dt && !sideOk c.dst c.dstTid then 0x10
  else if c.ni8 && c.ext 0 * c.ext 1 * c.ext 2 * c.ext 3 % 2048 != 0 then 0x10
  else if descKind b == 2 &&
      !(let k := tileK (tidFmt c.srcTid) (tidPlanes c.srcTid)
        k != 0 && c.ext 0 ≤ k && c.ext 1 ≤ 192 && c.ext 2 == 1 && c.ext 3 == 1) then 0x10
  else 0

/-- How many elements a copy moves (R206). -/
def Copy.amount (c : Copy) : Nat := c.ext 0 * c.ext 1 * c.ext 2 * c.ext 3

/-- Whether a copy's destination has a page of unordered RED, which a launch flagged D may not store to (R407, R425). -/
def redUnordered (s : State) (c : Copy) : Bool :=
  (c.sidePages (c.flag 3) c.dstTid c.dst).any fun vp => match (if vp < 65536 || 2 ^ 39 ≤ vp then none else pageEntry s s.th.part vp) with
    | some e => effMode s (getPart s s.th.part) e == 6
    | none => false

/-- The copies an engine of a core holds, over the core's threads (R286). -/
def engineLoad (s : State) (lcore e : Nat) : Nat :=
  (allThreads s).foldl (fun n t =>
    if t.lcore == lcore && t.status != .free then n + (t.copies.filter fun c => c.engine == e).length else n) 0

/-- The engine an accepted copy goes to (R286). -/
def engineFor (s : State) (hint : Nat) : Nat :=
  if hint == 0 then (if engineLoad s s.th.lcore 0 ≤ engineLoad s s.th.lcore 1 then 0 else 1) else hint - 1

/-- A core's own state. -/
def coreOfState (s : State) (k : Nat) : CoreSt := Store.get CoreSt.reset s.cores k
def updCore (s : State) (k : Nat) (f : CoreSt → CoreSt) : State :=
  { s with cores := Store.put CoreSt.reset s.cores k (f (coreOfState s k)) }

/-- A copy issued (R204, R205): stat, and whether it was accepted. -/
def issueCopy (word : Word) (a : Reg) (mayPark : Bool) : M Bool := do
  let va ← see fun s => s.th.ar a
  need (va.toNat % 64 == 0) cALIGN va
  let n ← see fun s => s.th.copies.length
  if 16 ≤ n then
    if mayPark then park .copySlots
    else
      setStat 0x13
      pure false
  else
    let b ← readBlock va 64 .reply
    let s ← get
    let tid (k : Nat) : Bytes := Store.get (List.replicate 32 0) (getPart s s.th.part).tids k
    let c0 : Copy := ⟨word, b, if descFlag b 2 then tid (field b 0x10 1) else List.replicate 32 0,
      if descFlag b 3 then tid (field b 0x11 1) else List.replicate 32 0, engineFor s (descHint b),
      (coreOfState s s.th.lcore).accepted, 0, 0, 0, [], [], [], s.th.mcword, s.cur.fmode.getLsbD 6⟩
    let c := { c0 with total := c0.amount }
    let st := copyStat c
    failBack s (st == 0 && c.kind != 2 && launchFlag s s.th 0 && redUnordered s c) cILL (wordInfo word)
    setStat st
    if st == 0 then
      let g ← beginTransfer
      upd fun s => updCore s s.th.lcore fun k => { k with accepted := k.accepted + 1 }
      updT fun t => { t with copies := t.copies ++ [{ c with region := g }] }
      pure true
    else pure false

/-! ## The engine at work (R206 to R209, R286, R287) -/

/-- Whether a copy is the one its engine works on: the first accepted among those of running threads (R286). -/
def engineTurn (s : State) (t : Thread) (c : Copy) : Bool :=
  t.status == .running &&
  (allThreads s).all fun u => u.lcore != t.lcore || u.status != .running ||
    u.copies.all fun d => d.engine != c.engine || c.order ≤ d.order

/-- How many of the next `n` elements belong to the piece that begins at `m`: it ends at a 4 KiB boundary of the
destination. Of an NI8 copy it takes whole blocks of elements: as many as end in the page where the first one begins, and
at least one. -/
def pieceLen (c : Copy) (m n : Nat) : Nat :=
  if c.ni8 then
    let last (j : Nat) : Option Nat := ((c.dstFrom (m + 2048 * j) 2048).getLast?).map fun r => (r.va + r.n - 1) / 4096
    let first := ((c.dstFrom m 2048).head?).map fun r => r.va / 4096
    2048 * max 1 (((List.range (n / 2048)).find? fun j => last j != first).getD (n / 2048))
  else
    let page (j : Nat) : Option Nat := (c.sideAddr (c.flag 3) c.dstTid c.dst (m + j)).map fun a => a / 4096
    let first := ((List.range n).findSome? page).getD 0
    ((List.range n).find? fun j => match page j with
      | some a => a != first
      | none => false).getD n

/-- The runs of the source and of the destination of `n` elements of a copy from where it stands. -/
def Copy.srcRuns (c : Copy) (n : Nat) : List Run := c.srcFrom c.moved n
def Copy.dstRuns (c : Copy) (n : Nat) : List Run := c.dstFrom c.moved n

/-- A byte of gathered pieces by its place. -/
def gatheredAt (g : List (Nat × Bytes)) (off : Nat) : Byte :=
  match g.find? fun e => e.1 ≤ off && off < e.1 + e.2.length with
  | some e => atD 0 (off - e.1) e.2
  | none => 0

/-- A tile as its place holds it: code (k, n) at n · K + k, whole codes, or for NI8 one bit in each plane's run
(R18, R71, R290). -/
def tileData (c : Copy) (g : List (Nat × Bytes)) : Bytes :=
  let r := c.srcTid
  let kk := tileK (tidFmt r) (tidPlanes r)
  let e0 := c.ext 0
  let inside (k n : Nat) : Bool := k < e0 && n < c.ext 1 && k < tidDim r 0 && n < tidDim r 1
  if tidFmt r == 0x20 then
    (List.range (tidPlanes r)).flatMap fun q => (List.range (kk * 24)).map fun b =>
      BitVec.ofNat 8 ((List.range 8).foldr (fun i acc =>
        let k := (8 * b + i) % kk
        let n := (8 * b + i) / kk
        let j := k + tidDim r 0 * n
        2 * acc + (if inside k n && (gatheredAt g (j / 2048 * 2048 + 256 * q + j % 2048 / 8)).getLsbD (j % 8) then 1 else 0)) 0)
  else
    let sz := fmtSize (tidFmt r)
    (List.range 192).flatMap fun n => (List.range kk).flatMap fun k => (List.range sz).map fun i =>
      if inside k n then gatheredAt g ((n * e0 + k) * sz + i) else 0

/-- What a piece's reads come to: bytes by their place; or a wait for a peer or a page; or a failure. -/
inductive Gather where
  | got (g : List (Nat × Bytes))
  | wait
  | fail (g : List (Nat × Bytes)) (f : Failure)
  deriving DecidableEq, Repr

/-- The runs of a piece read, in order, for a transfer region; a peer's bytes are asked for once. `here` counts the requests
served on this device, which enter MREQ when the piece has been read (R76). -/
def gatherRuns (c : Copy) (acc : Acc) : List Run → State → List (Nat × Bytes) → Bool → Nat → State × Gather
  | [], s, g, waiting, here => if waiting then (s, .wait) else (count s s.th 0x211 here, .got g)
  | r :: rs, s, g, waiting, here =>
    let fail (s : State) (n : Nat) (f : Failure) : State × Gather :=
      if waiting then (s, .wait) else (count s s.th 0x211 n, .fail g f)
    match resolve (BitVec.ofNat 64 r.va) r.n acc s with
    | .error e =>
      match e.early with
      | some f => fail (e.record s) here f
      | none => (e.record s, .wait)
    | .ok (t, s') =>
      match stampEngine s' r.va t r.n c.region false with
      | .error va => fail s' here (cMMX, BitVec.ofNat 64 va)
      | .ok s' =>
        if t.here s' then
          if t.bad s' r.n then fail s' (here + 1) (cECC, BitVec.ofNat 64 (badAddr s' r.va t.key r.n))
          else
            gatherRuns c acc rs (if t.mode == 7 then s' else siteRecall s' t.key r.n) (g ++ [(r.off, routeBytes s' t r.n)])
              waiting (here + 1)
        else
          let parts := lineParts r.va r.n
          match parts.mapM fun q => c.fetched.find? fun e => e.1 == r.va + q.1 && e.2.length == q.2 with
          | some l => gatherRuns c acc rs s' (g ++ [(r.off, l.flatMap fun e => e.2)]) waiting here
          | none =>
            let asked := parts.any fun q => c.fetched.any (fun e => e.1 == r.va + q.1) ||
              s'.reqs.any fun u => u.of s'.th && u.va == r.va + q.1 && u.kind == .fetch c.region (r.off + q.1) q.2
            gatherRuns c acc rs (if asked then s' else askRun c.region r t s') g true here

/-- One element combined into its destination (R207): complex formats part by part, others as their integer or floating
format says; OFP8 sums saturate by SAT as it stood at issue (R28, R37). -/
def reduceElem (op f : Nat) (sat : Bool) (dst src : Bytes) : Bytes :=
  if f == 0x30 || f == 0x31 then
    let h := fmtSize f / 2
    let p := if f == 0x30 then 0x10 else 0x11
    leBytes h (combineOp op p (field dst 0 h) (field src 0 h)) ++ leBytes h (combineOp op p (field dst h h) (field src h h))
  else leBytes (fmtSize f) (combineOp op f (leNat dst) (leNat src) sat)

/-- The code of element `i` of plane blocks of `p` planes read one after another (R18): planes beyond them are 0. -/
def planeCode (p : Nat) (bs : Bytes) (i : Nat) : Nat :=
  (List.range p).foldl (fun acc k =>
    acc + (if (atD 0 (i / 2048 * (256 * p) + 256 * k + i % 2048 / 8) bs).getLsbD (i % 8) then 2 ^ (7 - k) else 0)) 0

/-- Where an element of linear index `j` stands among blocks read one after another. -/
def blockSpot (bl : List Nat) (j : Nat) : Nat := bl.findIdx (fun b => b == j / 2048) * 2048 + j % 2048

/-- The code that element `j` of destination block number `i` has after a piece of `n` elements (R206, R207): the source's
for an element of the piece, code 0 beyond the source's extents; another element keeps its own. -/
def ni8Code (c : Copy) (n : Nat) (sb db : List Nat) (src old : Bytes) (i j : Nat) : Nat :=
  let p := c.planes
  let was := planeCode p old (2048 * i + j)
  match c.boxAt (c.flag 3) c.dstTid (2048 * atD 0 i db + j) with
  | some m =>
    if m < c.moved || c.moved + n ≤ m then was
    else
      let x := match c.spot (c.flag 2) c.srcTid m with
        | some k => planeCode p src (blockSpot sb k)
        | none => 0
      if c.kind == 1 then combineOp (descOp c.desc) 0x01 was x else x
  | none => was

/-- The destination blocks of an NI8 piece of `n` elements, one after another. -/
def ni8Data (c : Copy) (n : Nat) (src old : Bytes) : Bytes :=
  let p := c.planes
  let sb := c.blocks (c.flag 2) c.srcTid c.moved n
  let db := c.blocks (c.flag 3) c.dstTid c.moved n
  (List.range db.length).flatMap fun i =>
    let codes := (List.range 2048).map (ni8Code c n sb db src old i)
    (List.range p).flatMap fun k => (List.range 256).map fun b =>
      BitVec.ofNat 8 (((codes.drop (8 * b)).take 8).foldr (fun x acc => 2 * acc + x / 2 ^ (7 - k) % 2) 0)

/-- Whether a piece of `n` elements needs its destination's bytes: a reduction, or NI8 blocks that hold other elements too. -/
def Copy.readsDst (c : Copy) (n : Nat) : Bool :=
  c.kind == 1 || (c.ni8 && 2048 * (c.blocks (c.flag 3) c.dstTid c.moved n).length !=
    ((List.range n).filter fun j => (c.spot (c.flag 3) c.dstTid (c.moved + j)).isSome).length)

/-- The bytes of the destination's runs after a piece of `n` elements, from those of the source's runs and its own: the
source's, or for a reduction the two combined. -/
def pieceData (c : Copy) (n sz : Nat) (src dst : List (Nat × Bytes)) : Bytes :=
  let raw (g : List (Nat × Bytes)) : Bytes :=
    (List.range ((g.map fun e => e.1 + e.2.length).foldl max (if c.ni8 then 0 else n * sz))).map (gatheredAt g)
  if c.ni8 then ni8Data c n (raw src) (raw dst)
  else if c.kind != 1 then raw src
  else
    (List.range n).flatMap fun j =>
      reduceElem (descOp c.desc) (tidFmt c.dstTid) c.sat (((raw dst).drop (j * sz)).take sz) (((raw src).drop (j * sz)).take sz)

/-- The copy with number `k` of the thread in focus replaced. -/
def setCopy (s : State) (k : Nat) (c : Copy) : State := s.updTh fun t => { t with copies := updAt k (fun _ => c) t.copies }
/-- The copy stopped where it stands, with the trap its failure gives (R209). -/
def failCopy (s : State) (k : Nat) (f : Failure) : State := s.updTh fun t =>
  { t with copies := t.copies.take k ++ t.copies.drop (k + 1) }.setLate f.1 f.2

/-- The addresses of a write piece checked; a page being filled or moved is waited for. -/
def reachWrite (word : Word) (rs : List Run) (s : State) : Option (Except Failure (List Piece × State)) × State :=
  match (do
      let ps ← rs.foldlM (fun acc r => do
        let t ← resolve (BitVec.ofNat 64 r.va) r.n .write
        pure (acc ++ [((r, t) : Piece)])) ([] : List Piece)
      writeChecks word ps
      pure ps : M (List Piece)) s with
  | .ok (ps, s') => (some (.ok (ps, s')), s')
  | .error e => (e.early.map .error, e.record s)

/-- A piece of `n` elements written from its data, and the copy moved on or stopped. Each piece counts in CPYB rounded up to
whole units of 128 bytes. DESIGN CHOICE: R76 does not say how a piece of another size counts (log 82). -/
def putPiece (k : Nat) (c : Copy) (n : Nat) (data : Bytes) (then_ : Option Failure) (s : State) : State :=
  match reachWrite c.word (c.dstRuns n) s with
  | (none, s') => s'
  | (some (.error f), s') => failCopy s' k f
  | (some (.ok (ps, _)), s') =>
    match writePieces c.region false data ps s' with
    | (s', b, f) =>
      let s' := count s' s'.th 0x213 ((b + 127) / 128)
      match f.orElse fun _ => then_ with
      | some f => failCopy s' k f
      | none => setCopy s' k { c with moved := c.moved + n, fetched := [] }

/-- Whether bytes a transfer of a region number is about to touch are held by an earlier transfer of the thread (R288). -/
def heldEarlier (s : State) (region : Nat) (rs : List Run) (write : Bool) : Bool :=
  rs.any fun r => heldBy s s.th region r.va r.n write

/-- The lines of runs that lie at peers. -/
def peerLines (s : State) (rs : List Run) : List (Nat × Nat) :=
  rs.flatMap fun r => match resolve (BitVec.ofNat 64 r.va) r.n .atomic s with
    | .ok (t, _) => if t.here s then [] else (lineParts t.key r.n).map fun q => (t.peer s, (t.key + q.1) / 256)
    | .error _ => []

/-- Whether another copy of this device combines into one of those lines, or this copy's own writes to them have no answer
yet: a combination is indivisible toward every other kind-1 copy (R287). -/
def combinesThere (s : State) (c : Copy) (ls : List (Nat × Nat)) : Bool :=
  (allThreads s).any (fun t => t.copies.any fun d =>
    !(t.num == s.th.num && d.region == c.region) && d.lock.any fun l => ls.contains l) ||
  s.reqs.any fun q => q.of s.th && q.kind == .deliver c.region false && ls.contains (q.peer, q.pa / 256)

/-- How many of the next `n` elements stand before the place where a piece's reads have failed, `b` bytes into its runs. -/
def Copy.before (c : Copy) (n b : Nat) : Nat :=
  if c.ni8 then
    let bl := (c.blocks (c.flag 2) c.srcTid c.moved n).take (b / (256 * c.planes))
    ((List.range n).find? fun j => match c.spot (c.flag 2) c.srcTid (c.moved + j) with
      | some i => !bl.contains (i / 2048)
      | none => false).getD n
  else b / c.size

/-- One piece of copy `k` of the thread in focus (R286); it waits for earlier transfers of the thread that hold its
bytes (R288). -/
def copyPieceIn (k : Nat) (s : State) : State :=
  match s.th.copies[k]? with
  | none => s
  | some c =>
    if !(engineTurn s s.th c && c.moved < c.total) then s
    else if c.kind == 2 then
      let rs := tileRuns c
      if heldEarlier s c.region rs false then s
      else
      match gatherRuns c .read rs s [] false 0 with
      | (s', .got g) =>
        count (setCopy s' k { c with moved := c.total, fetched := [], tile := tileData c g }) s'.th 0x213
          (((rs.map fun r => r.n).sum + 127) / 128)
      | (s', .wait) => s'
      | (s', .fail _ f) => failCopy s' k f
    else
      let n := pieceLen c c.moved (min (c.total - c.moved) (if c.ni8 then 32768 else 4096))
      let ls := if c.readsDst n then peerLines s (c.dstRuns n) else []
      if heldEarlier s c.region (c.srcRuns n) false || heldEarlier s c.region (c.dstRuns n) true || combinesThere s c ls then s
      else
      match gatherRuns c .read (c.srcRuns n) s [] false 0 with
      | (s', .wait) => s'
      | (s', .fail g f) =>
        -- the elements before the one that fails are moved (R209)
        let m := c.before n (g.foldl (fun e r => max e (r.1 + r.2.length)) 0)
        if c.readsDst m then failCopy s' k f
        else putPiece k c m (pieceData c m c.size g []) (some f) s'
      | (s', .got g) =>
        if c.readsDst n then
          let s' := setCopy s' k { c with lock := (c.lock ++ ls).eraseDups }
          match gatherRuns c (if c.kind == 1 then .atomic else .write) (c.dstRuns n) s' [] false 0 with
          | (s', .wait) => s'
          | (s', .fail _ f) => failCopy s' k f
          | (s', .got d) => putPiece k { c with lock := (c.lock ++ ls).eraseDups } n (pieceData c n c.size g d) none s'
        else putPiece k c n (pieceData c n c.size g []) none s'

/-- Whether copy `k` of a thread can complete: all moved, nothing owed by a peer, and room in its FIFO (R207, R208). -/
def copyDone (s : State) (t : Thread) (k : Nat) : Bool :=
  match t.copies[k]? with
  | none => false
  | some c =>
    c.moved == c.total && engineTurn s t c && !owed s t c.region &&
    (c.kind != 2 || (if c.dst == 0 then t.fifo0 else t.fifo1).length < 2)

/-- The tile of a completed kind-2 copy enters its FIFO. DESIGN CHOICE: a box with a zero extent delivers a tile of zeros, as
R207 delivers positions outside the box; R206 speaks of the completion word alone (log 82). -/
def Thread.pushTile (t : Thread) (c : Copy) : Thread :=
  let tile : Tile := ⟨tidFmt c.srcTid, tidPlanes c.srcTid, if c.tile.isEmpty then tileData c [] else c.tile⟩
  if c.dst == 0 then { t with fifo0 := t.fifo0 ++ [tile] } else { t with fifo1 := t.fifo1 ++ [tile] }

/-- A completion word written through the issuing thread's translation (R208, R240): at once here, by a request
elsewhere; a failure is late. False while it must wait, for its page or for bytes that an earlier transfer of the thread
holds (R288). -/
def writeDone (region va n v : Nat) (s : State) : State × Bool :=
  let body : M Unit := do
    let a : Dword := BitVec.ofNat 64 va
    let r ← resolve a n .write
    if ← see fun s => heldBy s s.th region va n true then park .work else pure ()
    if r.mode == 0 then writeAt a r (leBytes n v) true
    else if r.mode == 4 then multicastWrite region a r (leBytes n v) true
    else if r.mode == 1 then upd fun s => sendReq s (.word region) (ptePeer r.leaf) a r.key (leBytes n v) none
    else trapBack cPROT a
  match body s with
  | .ok (_, s') => (s', true)
  | .error e =>
    match e.early with
    | some f => ((e.record s).updTh fun t => t.setLate f.1 f.2, true)
    | none => (e.record s, false)

/-- The end of copy `k` of the thread in focus: its completion word, its tile, its region closed (R208, R290). -/
def finishCopyIn (k : Nat) (s : State) : State :=
  match s.th.copies[k]? with
  | none => s
  | some c =>
    let b := c.desc
    let q := if descFlag b 0 then writeDone c.region (descDone b) (descDoneSize b) (descValue b % 2 ^ (8 * descDoneSize b)) s else (s, true)
    if q.2 then
      q.1.updTh fun t =>
        let t := { t with copies := t.copies.take k ++ t.copies.drop (k + 1) }
        if c.kind == 2 then t.pushTile c else t
    else q.1

/-- Engine work of the thread in focus done under the MCWORD that its instruction issued with (R412). -/
def withMcword (word : Dword) (f : State → State) (s : State) : State :=
  let old := s.th.mcword
  (f (s.updTh fun t => { t with mcword := word })).updTh fun t => { t with mcword := old }

/-- One piece of copy `k`, and its end, under the MCWORD of its issue. -/
def copyPiece (k : Nat) (s : State) : State :=
  match s.th.copies[k]? with
  | none => s
  | some c => withMcword c.mcword (copyPieceIn k) s
def finishCopy (k : Nat) (s : State) : State :=
  match s.th.copies[k]? with
  | none => s
  | some c => withMcword c.mcword (finishCopyIn k) s

/-! ## Tensor identifiers (R210) -/

/-- The checks a record meets (R73, R210). -/
def recordOk (r : Bytes) : Bool :=
  let f := tidFmt r
  [0x01, 0x02, 0x03, 0x10, 0x11, 0x12, 0x13, 0x14, 0x20, 0x30, 0x31].contains f &&
    (if f == 0x20 then 2 ≤ tidPlanes r && tidPlanes r ≤ 8 else tidPlanes r == 0) && field r 1 1 < 16 &&
    (tidBlk r == 0 || tidBlk r == 5) && field r 3 1 == (if tidBlk r == 5 then 1 else 0) &&
    tidDim r 0 != 0 && tidDim r 1 != 0 && tidDim r 2 != 0 && tidDim r 3 != 0 &&
    (f != 0x20 || (r.drop 12).take 12 == List.replicate 12 0) && (tidBlk r != 0 || tidScale r == 0)

/-! ## The instructions -/

/-- CPY (R204). Starts a copy from a 64-byte descriptor, parking at 16 outstanding. -/
def execCpy (a : Reg) (s : State) : Out :=
  issueN .cpy (fmtR 0x44#7 0#7 a 0#7 0#4) (do
    let _ ← issueCopy (fmtR 0x44#7 0#7 a 0#7 0#4) a true) s

/-- CPYQ (R204). Starts a copy if accepted and reports acceptance in sd. -/
def execCpyq (d : Reg) (a : Reg) (s : State) : Out :=
  issueN .cpyq (fmtR 0x44#7 d a 0#7 1#4) (do
    let ok ← issueCopy (fmtR 0x44#7 d a 0#7 1#4) a false
    wr d (if ok then 1 else 0)) s

/-- TIDSET (R210). Validates and copies a tensor identifier record into the table. -/
def execTidset (d : Reg) (a : Reg) (s : State) : Out :=
  issueN .tidset (fmtR 0x45#7 d a 0#7 0#4) (do
    let n ← rd d
    need (n.toNat < 256) cPROT n
    let va ← see fun s => s.th.ar a
    need (va.toNat % 32 == 0) cALIGN va
    let r ← readBlock va 32 .reply
    if recordOk r then
      need (!(tidFmt r == 0x20 && tidBlk r == 5 && tidScale r % 2048 != 0)) cALIGN (BitVec.ofNat 64 (tidScale r))
      upd fun s => updPart s s.th.part fun p => { p with tids := Store.put (List.replicate 32 0) p.tids n.toNat r }
      setStat 0
    else setStat 0x11) s

end Sys2Proof.Machine
end

