-- ==== Sys2Proof/Machine/MemScalar.lean ====
section
/-! DEFINITION. Scalar memory access, atomics, fences, waits, barriers and prefix arming (07_memory_engines, R184 to R196). -/

namespace Sys2Proof.Machine

/-! ## Scalar loads and stores (R184, R185) -/

/-- The effective address of an I-format access: aN + imm11, modulo 2^64 (R179). -/
def effAddr (s : State) (a : Reg) (i : BitVec 11) : Dword := s.th.ar a + i.signExtend 64

/-- A plain load of `n` bytes. -/
def loadPlain (d a : Reg) (i : BitVec 11) (n : Nat) : M Unit := do
  let va ← see fun s => effAddr s a i
  loadTo d va n .plain

/-- A plain store of the low `n` bytes of sd. -/
def storePlain (d a : Reg) (i : BitVec 11) (n : Nat) : M Unit := do
  let v ← rd d
  let va ← see fun s => effAddr s a i
  storeBytes va (leBytes n v.toNat) .plain

/-! ## Atomics (R187, R188) -/

/-- The new value of an atomic operation on an old value of `n` bytes (R187): the floating adds round RNE. -/
def rmwValue (op : RmwOp) (n old b : Nat) : Nat :=
  match op with
  | .add => (old + b) % 2 ^ (8 * n)
  | .and => old &&& b
  | .or => old ||| b
  | .xor => old ^^^ b
  | .min => if (BitVec.ofNat 64 b).toInt < (BitVec.ofNat 64 old).toInt then b else old
  | .max => if (BitVec.ofNat 64 old).toInt < (BitVec.ofNat 64 b).toInt then b else old
  | .minu => min old b
  | .maxu => max old b
  | .swap => b
  | .fadd32 => (fAdd fp32 rne old b).1
  | .fadd64 => (fAdd fp64 rne old b).1
  | .cas _ => b

/-- The bytes of an atomic's word. -/
def rmwSize (op : RmwOp) : Nat :=
  match op with
  | .fadd32 => 4
  | .cas wide => if wide then 8 else 4
  | _ => 8

/-- A read-modify-write of one aligned word of this device, or a request to the peer that holds it (R187, R289, R393).
`expect` is a CAS's expected value: where the word differs, nothing is written, and the access stands as `kf`, a read of
its acquire half (R183); at a peer the boundary of a CAS comes with its answer, and one that might write waits for the
thread's earlier stores. `popped` is what the instruction has popped. -/
def atomicTo (d : Reg) (va : Dword) (op : RmwOp) (b : Nat) (expect : Option Nat) (k kf : Cls)
    (popped : List (Nat × Dword)) : M Unit := do
  let n := rmwSize op
  aligned va n
  if ← see awaitingReply then park .reply else pure ()
  let r ← resolve va n .atomic
  interlock va n true
  let s ← get
  if r.mode == 0 then
    failBack s (badUnit s r.key n) cECC va
    let old := readLE s r.key n
    let hit := match expect with
      | some e => old == e
      | none => true
    classify (if hit then k else kf) va r hit
    upd fun s => atomicSite (countReq s) s.th r
    if hit then upd fun s => putAt s s.th.part r.key (leBytes n (rmwValue op n old b)) else pure ()
    wr d (BitVec.ofNat 64 old)
  else
    if (k == .release || k == .sc) && storesOut s then park .reply else pure ()
    portRoom d
    let edge (c : Cls) : Bool := c == .acquire || c == .release || c == .sc
    if expect.isNone && edge k then boundary else pure ()
    upd fun s => sendFor (countReq s) s.th (.atomic op expect (expect.isSome && edge k) (expect.isSome && edge kf))
      (ptePeer r.leaf) va.toNat r.key (leBytes n b) (some d) popped
    parkHere .reply

/-- What reading an operand pops. -/
def poppedBy (r : Reg) (v : Dword) : List (Nat × Dword) := if isPort r then [(r.toNat, v)] else []

/-- AMO, AMOA, AMOL and AMOX: a floating add takes ILL in a launch flagged D (R187, R425). -/
def amo (word : Word) (d a b : Reg) (op : RmwOp) (k : Cls) : M Unit := do
  let dflag ← see fun s => launchFlag s s.th 0
  need (!(dflag && (op == .fadd32 || op == .fadd64))) cILL (wordInfo word)
  let v ← rd b
  let va ← see fun s => s.th.ar a
  atomicTo d va op (v.toNat % 2 ^ (8 * rmwSize op)) none k k (poppedBy b v)

/-! ## Waits (R190, R196) -/

/-- The word a wait reads. -/
def waitWord (va : Dword) (n : Nat) (p : Park) : M Nat := do
  aligned va n
  let bs ← readBlock va n p
  updT fun t => { t with polled := [] }
  pure (leNat bs)

/-- The condition of a WAITA: 0 eq, 1 ne, 2 geu, 3 ltu (R190). -/
def waitHolds (c w x : Nat) : Bool :=
  match c with
  | 0 => w == x
  | 1 => w != x
  | 2 => decide (x ≤ w)
  | _ => decide (w < x)

/-! ## Barriers (R192 to R195) -/

/-- The fields of a barrier object, and the object of its fields (R192). -/
structure Barrier where
  exp : Nat
  arr : Nat
  ph : Nat
  ovr : Bool
  dis : Bool
  res : Nat
  oth : Nat
  tot : Nat
  last : Nat
  deriving DecidableEq, Repr

def Barrier.ofNat (v : Nat) : Barrier where
  exp := v / 2 ^ 112 % 65536
  arr := v / 2 ^ 96 % 65536
  ph := v / 2 ^ 92 % 16
  ovr := v / 2 ^ 91 % 2 == 1
  dis := v / 2 ^ 90 % 2 == 1
  res := v / 2 ^ 88 % 4
  oth := v / 2 ^ 64 % 2 ^ 24
  tot := v / 2 ^ 32 % 2 ^ 32
  last := v % 2 ^ 32

def Barrier.toNat (o : Barrier) : Nat :=
  o.exp * 2 ^ 112 + o.arr * 2 ^ 96 + o.ph * 2 ^ 92 + (if o.ovr then 2 ^ 91 else 0) + (if o.dis then 2 ^ 90 else 0) +
    o.res * 2 ^ 88 + o.oth * 2 ^ 64 + o.tot * 2 ^ 32 + o.last

/-- Whether an object takes no arrivals and holds no waiter: a dissolved one. DESIGN CHOICE: one with a nonzero reserved bit,
[89:88] or [31:24], is handled as dissolved; R8 lets no reserved field be ignored and R192 names no handling (log 72). -/
def Barrier.void (o : Barrier) : Bool := o.dis || o.exp == 0 || o.res != 0 || decide (2 ^ 24 ≤ o.last)

/-- One arrival of count `c` by a thread: the object after it and the code st (R193). -/
def arrive (o : Barrier) (c tid : Nat) : Barrier × Nat :=
  if o.void then (o, 3)
  else if o.arr + c < o.exp then ({ o with arr := o.arr + c, tot := (o.tot + c) % 2 ^ 32 }, 0)
  else if o.arr + c == o.exp then
    ({ o with arr := 0, ph := (o.ph + 1) % 16, tot := (o.tot + c) % 2 ^ 32, last := tid % 2 ^ 24 }, 1)
  else ({ o with ovr := true, oth := if o.ovr then o.oth else tid % 2 ^ 24 }, 2)

/-- The place of the barrier object that one read-modify-write acts on (R180, R183): the fabric's port refuses an atomic of
16 bytes (R398), and a refused one takes PROT (R402; log 14). -/
def barrierAt (va : Dword) : M Route := do
  aligned va 16
  let r ← resolve va 16 .atomic
  interlock va 16 true
  let s ← get
  failBack s (r.mode != 0) cPROT va
  failBack s (badUnit s r.key 16) cECC va
  classify .release va r true
  upd countReq
  pure r

/-- A read-modify-write of the object: the object before, and its place. -/
def barrierRmw (va : Dword) (f : Barrier → Barrier) : M (Barrier × Nat) := do
  let r ← barrierAt va
  let s ← get
  let o := Barrier.ofNat (readLE s r.key 16)
  let s := atomicSite s s.th r
  set (putAt s s.th.part r.key (leBytes 16 (f o).toNat))
  pure (o, r.key)

/-- An arrival, with the result of R193 in sd and stat; the code st. -/
def barrierArrive (word : Word) (d a b : Reg) : M Nat := do
  let c ← rd b
  need (1 ≤ c.toNat && c.toNat ≤ 65535) cILL (wordInfo word)
  let s ← get
  let tid := s.th.tid
  let (o, _) ← barrierRmw (s.th.ar a) fun o => (arrive o c.toNat tid).1
  let q := arrive o c.toNat tid
  wr d (BitVec.ofNat 64 (q.1.arr * 65536 + o.ph * 16 + q.2))
  setStat q.2
  pure q.2

/-- The result of a BWAIT's test of an object at a clock: the code of sd and stat, or none while it holds (R195). -/
def bwaitTest (o : Barrier) (t : Nat) (now : Nat) (deadline : Option Dword) : Option (Nat × Nat) :=
  if o.void then some (2, 4)
  else if o.ph != t then some (0, 0)
  else
    match deadline with
    | some e => if e.toNat ≤ now then some (1, 2) else none
    | none => none

/-- The deadline a BWAIT sets at issue: clock + sb modulo 2^64 (R10), none for all ones (R195). -/
def bwaitDeadline (now bound : Dword) : Option Dword :=
  if bound == BitVec.allOnes 64 then none else some (now + bound)

/-- Every BWAIT that waits on the object at a place ended by its dissolution, with the PH that stood before (R194): also one
that a wake has just let test again. -/
def wakeBwaits (s : State) (key ph : Nat) : State :=
  updThreads s (fun t => t.a.object == some key) fun t =>
    { t with a := { t.a with park := none, object := none, freed := some (t.a.pc, ph) } }

/-- The place of this device that a BWAIT has read, for a BDISS to find it. -/
def objectKey (s : State) (va : Dword) : Option Nat :=
  match resolve va 16 .read s with
  | .ok (r, _) => if r.here s then some r.key else none
  | .error _ => none

/-! ## The instructions -/

/-- LDB (R184). Loads one byte zero-extended. -/
def execLdb (d : Reg) (a : Reg) (i : BitVec 11) (s : State) : Out :=
  issueN .ldb (fmtI 0x29#7 d a i) (loadPlain d a i 1) s

/-- LDH (R184). Loads two bytes zero-extended. -/
def execLdh (d : Reg) (a : Reg) (i : BitVec 11) (s : State) : Out :=
  issueN .ldh (fmtI 0x2a#7 d a i) (loadPlain d a i 2) s

/-- LDW (R184). Loads four bytes zero-extended. -/
def execLdw (d : Reg) (a : Reg) (i : BitVec 11) (s : State) : Out :=
  issueN .ldw (fmtI 0x2b#7 d a i) (loadPlain d a i 4) s

/-- LDD (R184). Loads eight bytes. -/
def execLdd (d : Reg) (a : Reg) (i : BitVec 11) (s : State) : Out :=
  issueN .ldd (fmtI 0x2c#7 d a i) (loadPlain d a i 8) s

/-- STB (R184). Stores the low byte of sd. -/
def execStb (d : Reg) (a : Reg) (i : BitVec 11) (s : State) : Out :=
  issueN .stb (fmtI 0x2d#7 d a i) (storePlain d a i 1) s

/-- STH (R184). Stores the low two bytes of sd. -/
def execSth (d : Reg) (a : Reg) (i : BitVec 11) (s : State) : Out :=
  issueN .sth (fmtI 0x2e#7 d a i) (storePlain d a i 2) s

/-- STW (R184). Stores the low four bytes of sd. -/
def execStw (d : Reg) (a : Reg) (i : BitVec 11) (s : State) : Out :=
  issueN .stw (fmtI 0x2f#7 d a i) (storePlain d a i 4) s

/-- STD (R184). Stores eight bytes of sd. -/
def execStd (d : Reg) (a : Reg) (i : BitVec 11) (s : State) : Out :=
  issueN .std (fmtI 0x30#7 d a i) (storePlain d a i 8) s

/-- ASET (R186). Sets an address register from a scalar. -/
def execAset (d : Reg) (a : Reg) (s : State) : Out :=
  issueN .aset (fmtR 0x31#7 d a 0#7 0#4) (do
    let v ← rd a
    updT fun t => t.setAr d.toNat v) s

/-- AGET (R186). Reads an address register into a scalar. -/
def execAget (d : Reg) (a : Reg) (s : State) : Out :=
  issueN .aget (fmtR 0x31#7 d a 0#7 1#4) (do
    let v ← see fun s => s.th.ar a
    wr d v) s

/-- ASTR (R186). Sets the stride of an address register. -/
def execAstr (d : Reg) (a : Reg) (s : State) : Out :=
  issueN .astr (fmtR 0x31#7 d a 0#7 2#4) (do
    let v ← rd a
    updT fun t => t.setArStride d.toNat v) s

/-- AADD (R186). Adds a scalar to an address register. -/
def execAadd (d : Reg) (a : Reg) (s : State) : Out :=
  issueN .aadd (fmtR 0x31#7 d a 0#7 3#4) (do
    let v ← rd a
    updT fun t => t.setAr d.toNat (t.ar d + v)) s

/-- AGSTR (R186). Reads the stride of an address register. -/
def execAgstr (d : Reg) (a : Reg) (s : State) : Out :=
  issueN .agstr (fmtR 0x31#7 d a 0#7 4#4) (do
    let v ← see fun s => s.th.arStride a
    wr d v) s

/-- LDS (R185). Synchronising load with ordering and width fields. -/
def execLds (d : Reg) (a : Reg) (o : BitVec 2) (w : BitVec 2) (s : State) : Out :=
  issueN .lds (fmtR 0x32#7 d a 0#7 (o ++ w)) (do
    let va ← see fun s => s.th.ar a
    loadTo d va (2 ^ w.toNat) (if o == 0 then .relaxed else if o == 1 then .acquire else .sc)) s

/-- STS (R185). Synchronising store with ordering and width fields. -/
def execSts (d : Reg) (a : Reg) (o : BitVec 2) (w : BitVec 2) (s : State) : Out :=
  issueN .sts (fmtR 0x33#7 d a 0#7 (o ++ w)) (do
    let v ← rd d
    let va ← see fun s => s.th.ar a
    storeBytes va (leBytes (2 ^ w.toNat) v.toNat) (if o == 0 then .relaxed else if o == 1 then .release else .sc)) s

/-- AMO_ADD (R187). Relaxed atomic add returning the old value. -/
def execAmoAdd (d : Reg) (a : Reg) (b : Reg) (s : State) : Out :=
  issueN .amoAdd (fmtR 0x34#7 d a b 0#4) (amo (fmtR 0x34#7 d a b 0#4) d a b .add .relaxed) s

/-- AMO_AND (R187). Relaxed atomic AND. -/
def execAmoAnd (d : Reg) (a : Reg) (b : Reg) (s : State) : Out :=
  issueN .amoAnd (fmtR 0x34#7 d a b 1#4) (amo (fmtR 0x34#7 d a b 1#4) d a b .and .relaxed) s

/-- AMO_OR (R187). Relaxed atomic OR. -/
def execAmoOr (d : Reg) (a : Reg) (b : Reg) (s : State) : Out :=
  issueN .amoOr (fmtR 0x34#7 d a b 2#4) (amo (fmtR 0x34#7 d a b 2#4) d a b .or .relaxed) s

/-- AMO_XOR (R187). Relaxed atomic XOR. -/
def execAmoXor (d : Reg) (a : Reg) (b : Reg) (s : State) : Out :=
  issueN .amoXor (fmtR 0x34#7 d a b 3#4) (amo (fmtR 0x34#7 d a b 3#4) d a b .xor .relaxed) s

/-- AMO_MIN (R187). Relaxed atomic signed minimum. -/
def execAmoMin (d : Reg) (a : Reg) (b : Reg) (s : State) : Out :=
  issueN .amoMin (fmtR 0x34#7 d a b 4#4) (amo (fmtR 0x34#7 d a b 4#4) d a b .min .relaxed) s

/-- AMO_MAX (R187). Relaxed atomic signed maximum. -/
def execAmoMax (d : Reg) (a : Reg) (b : Reg) (s : State) : Out :=
  issueN .amoMax (fmtR 0x34#7 d a b 5#4) (amo (fmtR 0x34#7 d a b 5#4) d a b .max .relaxed) s

/-- AMO_MINU (R187). Relaxed atomic unsigned minimum. -/
def execAmoMinu (d : Reg) (a : Reg) (b : Reg) (s : State) : Out :=
  issueN .amoMinu (fmtR 0x34#7 d a b 6#4) (amo (fmtR 0x34#7 d a b 6#4) d a b .minu .relaxed) s

/-- AMO_MAXU (R187). Relaxed atomic unsigned maximum. -/
def execAmoMaxu (d : Reg) (a : Reg) (b : Reg) (s : State) : Out :=
  issueN .amoMaxu (fmtR 0x34#7 d a b 7#4) (amo (fmtR 0x34#7 d a b 7#4) d a b .maxu .relaxed) s

/-- AMO_SWAP (R187). Relaxed atomic swap. -/
def execAmoSwap (d : Reg) (a : Reg) (b : Reg) (s : State) : Out :=
  issueN .amoSwap (fmtR 0x34#7 d a b 8#4) (amo (fmtR 0x34#7 d a b 8#4) d a b .swap .relaxed) s

/-- AMO_FADD32 (R187). Relaxed atomic FP32 add rounded RNE. -/
def execAmoFadd32 (d : Reg) (a : Reg) (b : Reg) (s : State) : Out :=
  issueN .amoFadd32 (fmtR 0x34#7 d a b 9#4) (amo (fmtR 0x34#7 d a b 9#4) d a b .fadd32 .relaxed) s

/-- AMO_FADD64 (R187). Relaxed atomic FP64 add rounded RNE. -/
def execAmoFadd64 (d : Reg) (a : Reg) (b : Reg) (s : State) : Out :=
  issueN .amoFadd64 (fmtR 0x34#7 d a b 0xa#4) (amo (fmtR 0x34#7 d a b 0xa#4) d a b .fadd64 .relaxed) s

/-- AMOA_ADD (R187). Acquire atomic add. -/
def execAmoaAdd (d : Reg) (a : Reg) (b : Reg) (s : State) : Out :=
  issueN .amoaAdd (fmtR 0x35#7 d a b 0#4) (amo (fmtR 0x35#7 d a b 0#4) d a b .add .acquire) s

/-- AMOA_AND (R187). Acquire atomic AND. -/
def execAmoaAnd (d : Reg) (a : Reg) (b : Reg) (s : State) : Out :=
  issueN .amoaAnd (fmtR 0x35#7 d a b 1#4) (amo (fmtR 0x35#7 d a b 1#4) d a b .and .acquire) s

/-- AMOA_OR (R187). Acquire atomic OR. -/
def execAmoaOr (d : Reg) (a : Reg) (b : Reg) (s : State) : Out :=
  issueN .amoaOr (fmtR 0x35#7 d a b 2#4) (amo (fmtR 0x35#7 d a b 2#4) d a b .or .acquire) s

/-- AMOA_XOR (R187). Acquire atomic XOR. -/
def execAmoaXor (d : Reg) (a : Reg) (b : Reg) (s : State) : Out :=
  issueN .amoaXor (fmtR 0x35#7 d a b 3#4) (amo (fmtR 0x35#7 d a b 3#4) d a b .xor .acquire) s

/-- AMOA_MIN (R187). Acquire atomic signed minimum. -/
def execAmoaMin (d : Reg) (a : Reg) (b : Reg) (s : State) : Out :=
  issueN .amoaMin (fmtR 0x35#7 d a b 4#4) (amo (fmtR 0x35#7 d a b 4#4) d a b .min .acquire) s

/-- AMOA_MAX (R187). Acquire atomic signed maximum. -/
def execAmoaMax (d : Reg) (a : Reg) (b : Reg) (s : State) : Out :=
  issueN .amoaMax (fmtR 0x35#7 d a b 5#4) (amo (fmtR 0x35#7 d a b 5#4) d a b .max .acquire) s

/-- AMOA_MINU (R187). Acquire atomic unsigned minimum. -/
def execAmoaMinu (d : Reg) (a : Reg) (b : Reg) (s : State) : Out :=
  issueN .amoaMinu (fmtR 0x35#7 d a b 6#4) (amo (fmtR 0x35#7 d a b 6#4) d a b .minu .acquire) s

/-- AMOA_MAXU (R187). Acquire atomic unsigned maximum. -/
def execAmoaMaxu (d : Reg) (a : Reg) (b : Reg) (s : State) : Out :=
  issueN .amoaMaxu (fmtR 0x35#7 d a b 7#4) (amo (fmtR 0x35#7 d a b 7#4) d a b .maxu .acquire) s

/-- AMOA_SWAP (R187). Acquire atomic swap. -/
def execAmoaSwap (d : Reg) (a : Reg) (b : Reg) (s : State) : Out :=
  issueN .amoaSwap (fmtR 0x35#7 d a b 8#4) (amo (fmtR 0x35#7 d a b 8#4) d a b .swap .acquire) s

/-- AMOA_FADD32 (R187). Acquire atomic FP32 add. -/
def execAmoaFadd32 (d : Reg) (a : Reg) (b : Reg) (s : State) : Out :=
  issueN .amoaFadd32 (fmtR 0x35#7 d a b 9#4) (amo (fmtR 0x35#7 d a b 9#4) d a b .fadd32 .acquire) s

/-- AMOA_FADD64 (R187). Acquire atomic FP64 add. -/
def execAmoaFadd64 (d : Reg) (a : Reg) (b : Reg) (s : State) : Out :=
  issueN .amoaFadd64 (fmtR 0x35#7 d a b 0xa#4) (amo (fmtR 0x35#7 d a b 0xa#4) d a b .fadd64 .acquire) s

/-- AMOL_ADD (R187). Release atomic add. -/
def execAmolAdd (d : Reg) (a : Reg) (b : Reg) (s : State) : Out :=
  issueN .amolAdd (fmtR 0x36#7 d a b 0#4) (amo (fmtR 0x36#7 d a b 0#4) d a b .add .release) s

/-- AMOL_AND (R187). Release atomic AND. -/
def execAmolAnd (d : Reg) (a : Reg) (b : Reg) (s : State) : Out :=
  issueN .amolAnd (fmtR 0x36#7 d a b 1#4) (amo (fmtR 0x36#7 d a b 1#4) d a b .and .release) s

/-- AMOL_OR (R187). Release atomic OR. -/
def execAmolOr (d : Reg) (a : Reg) (b : Reg) (s : State) : Out :=
  issueN .amolOr (fmtR 0x36#7 d a b 2#4) (amo (fmtR 0x36#7 d a b 2#4) d a b .or .release) s

/-- AMOL_XOR (R187). Release atomic XOR. -/
def execAmolXor (d : Reg) (a : Reg) (b : Reg) (s : State) : Out :=
  issueN .amolXor (fmtR 0x36#7 d a b 3#4) (amo (fmtR 0x36#7 d a b 3#4) d a b .xor .release) s

/-- AMOL_MIN (R187). Release atomic signed minimum. -/
def execAmolMin (d : Reg) (a : Reg) (b : Reg) (s : State) : Out :=
  issueN .amolMin (fmtR 0x36#7 d a b 4#4) (amo (fmtR 0x36#7 d a b 4#4) d a b .min .release) s

/-- AMOL_MAX (R187). Release atomic signed maximum. -/
def execAmolMax (d : Reg) (a : Reg) (b : Reg) (s : State) : Out :=
  issueN .amolMax (fmtR 0x36#7 d a b 5#4) (amo (fmtR 0x36#7 d a b 5#4) d a b .max .release) s

/-- AMOL_MINU (R187). Release atomic unsigned minimum. -/
def execAmolMinu (d : Reg) (a : Reg) (b : Reg) (s : State) : Out :=
  issueN .amolMinu (fmtR 0x36#7 d a b 6#4) (amo (fmtR 0x36#7 d a b 6#4) d a b .minu .release) s

/-- AMOL_MAXU (R187). Release atomic unsigned maximum. -/
def execAmolMaxu (d : Reg) (a : Reg) (b : Reg) (s : State) : Out :=
  issueN .amolMaxu (fmtR 0x36#7 d a b 7#4) (amo (fmtR 0x36#7 d a b 7#4) d a b .maxu .release) s

/-- AMOL_SWAP (R187). Release atomic swap. -/
def execAmolSwap (d : Reg) (a : Reg) (b : Reg) (s : State) : Out :=
  issueN .amolSwap (fmtR 0x36#7 d a b 8#4) (amo (fmtR 0x36#7 d a b 8#4) d a b .swap .release) s

/-- AMOL_FADD32 (R187). Release atomic FP32 add. -/
def execAmolFadd32 (d : Reg) (a : Reg) (b : Reg) (s : State) : Out :=
  issueN .amolFadd32 (fmtR 0x36#7 d a b 9#4) (amo (fmtR 0x36#7 d a b 9#4) d a b .fadd32 .release) s

/-- AMOL_FADD64 (R187). Release atomic FP64 add. -/
def execAmolFadd64 (d : Reg) (a : Reg) (b : Reg) (s : State) : Out :=
  issueN .amolFadd64 (fmtR 0x36#7 d a b 0xa#4) (amo (fmtR 0x36#7 d a b 0xa#4) d a b .fadd64 .release) s

/-- AMOX_ADD (R187). Acquire-release atomic add. -/
def execAmoxAdd (d : Reg) (a : Reg) (b : Reg) (s : State) : Out :=
  issueN .amoxAdd (fmtR 0x37#7 d a b 0#4) (amo (fmtR 0x37#7 d a b 0#4) d a b .add .release) s

/-- AMOX_AND (R187). Acquire-release atomic AND. -/
def execAmoxAnd (d : Reg) (a : Reg) (b : Reg) (s : State) : Out :=
  issueN .amoxAnd (fmtR 0x37#7 d a b 1#4) (amo (fmtR 0x37#7 d a b 1#4) d a b .and .release) s

/-- AMOX_OR (R187). Acquire-release atomic OR. -/
def execAmoxOr (d : Reg) (a : Reg) (b : Reg) (s : State) : Out :=
  issueN .amoxOr (fmtR 0x37#7 d a b 2#4) (amo (fmtR 0x37#7 d a b 2#4) d a b .or .release) s

/-- AMOX_XOR (R187). Acquire-release atomic XOR. -/
def execAmoxXor (d : Reg) (a : Reg) (b : Reg) (s : State) : Out :=
  issueN .amoxXor (fmtR 0x37#7 d a b 3#4) (amo (fmtR 0x37#7 d a b 3#4) d a b .xor .release) s

/-- AMOX_MIN (R187). Acquire-release atomic signed minimum. -/
def execAmoxMin (d : Reg) (a : Reg) (b : Reg) (s : State) : Out :=
  issueN .amoxMin (fmtR 0x37#7 d a b 4#4) (amo (fmtR 0x37#7 d a b 4#4) d a b .min .release) s

/-- AMOX_MAX (R187). Acquire-release atomic signed maximum. -/
def execAmoxMax (d : Reg) (a : Reg) (b : Reg) (s : State) : Out :=
  issueN .amoxMax (fmtR 0x37#7 d a b 5#4) (amo (fmtR 0x37#7 d a b 5#4) d a b .max .release) s

/-- AMOX_MINU (R187). Acquire-release atomic unsigned minimum. -/
def execAmoxMinu (d : Reg) (a : Reg) (b : Reg) (s : State) : Out :=
  issueN .amoxMinu (fmtR 0x37#7 d a b 6#4) (amo (fmtR 0x37#7 d a b 6#4) d a b .minu .release) s

/-- AMOX_MAXU (R187). Acquire-release atomic unsigned maximum. -/
def execAmoxMaxu (d : Reg) (a : Reg) (b : Reg) (s : State) : Out :=
  issueN .amoxMaxu (fmtR 0x37#7 d a b 7#4) (amo (fmtR 0x37#7 d a b 7#4) d a b .maxu .release) s

/-- AMOX_SWAP (R187). Acquire-release atomic swap. -/
def execAmoxSwap (d : Reg) (a : Reg) (b : Reg) (s : State) : Out :=
  issueN .amoxSwap (fmtR 0x37#7 d a b 8#4) (amo (fmtR 0x37#7 d a b 8#4) d a b .swap .release) s

/-- AMOX_FADD32 (R187). Acquire-release atomic FP32 add. -/
def execAmoxFadd32 (d : Reg) (a : Reg) (b : Reg) (s : State) : Out :=
  issueN .amoxFadd32 (fmtR 0x37#7 d a b 9#4) (amo (fmtR 0x37#7 d a b 9#4) d a b .fadd32 .release) s

/-- AMOX_FADD64 (R187). Acquire-release atomic FP64 add. -/
def execAmoxFadd64 (d : Reg) (a : Reg) (b : Reg) (s : State) : Out :=
  issueN .amoxFadd64 (fmtR 0x37#7 d a b 0xa#4) (amo (fmtR 0x37#7 d a b 0xa#4) d a b .fadd64 .release) s

/-- CAS (R188). Compare-and-swap with ordering and width fields. -/
def execCas (d : Reg) (a : Reg) (b : Reg) (w : BitVec 2) (o : BitVec 2) (s : State) : Out :=
  issueN .cas (fmtR 0x38#7 d a b (w ++ o)) (do
    let e ← rd d
    let v ← rd b
    let va ← see fun s => s.th.ar a
    let n := if w == 1 then 8 else 4
    let k : Cls := match o.toNat with
      | 0 => .relaxed
      | 1 => .acquire
      | 2 => .release
      | _ => .sc
    let kf : Cls := if o == 1 then .acquire else if o == 3 then .sc else .relaxed
    atomicTo d va (.cas (w == 1)) (v.toNat % 2 ^ (8 * n)) (some (e.toNat % 2 ^ (8 * n))) k kf (poppedBy d e ++ poppedBy b v)) s

/-- FENCE (R189). Orders accesses by its kind, optionally including engine transfers. -/
def execFence (e : BitVec 1) (k : BitVec 2) (s : State) : Out :=
  issueN .fence (fmtI 0x39#7 0#7 0#7 (0#8 ++ e ++ k)) (do
    let s ← get
    if k != 0 && storesOut s then park .reply else pure ()
    if e == 1 && (!(s.th.copies.isEmpty && s.th.xfers.isEmpty && s.th.svcmds.isEmpty) || payloadOut s) then park .work
    else pure ()
    boundary) s

/-- WAITA (R190). Parks until a memory word meets a condition, then acquires it. -/
def execWaita (d : Reg) (a : Reg) (w : BitVec 1) (c : BitVec 2) (s : State) : Out :=
  issueN .waita (fmtR 0x3a#7 d a 0#7 (w ++ 0#1 ++ c)) (do
    let va ← see fun s => s.th.ar a
    let n := if w == 1 then 8 else 4
    let v ← waitWord va n .waita
    let x ← rd d
    if waitHolds c.toNat v (x.toNat % 2 ^ (8 * n)) then
      boundary
      wr d (BitVec.ofNat 64 v)
      setStat 0
    else parkAgain .waita) s

/-- BARR (R193). Applies one counted arrival to a barrier object. -/
def execBarr (d : Reg) (a : Reg) (b : Reg) (s : State) : Out :=
  issueN .barr (fmtR 0x3b#7 d a b 0#4) (do
    let _ ← barrierArrive (fmtR 0x3b#7 d a b 0#4) d a b) s

/-- BARRT (R193). Applies an arrival and traps BOVR on overrun. The instruction is complete by then, so EPC and the PC of
the trap's trace record (R77) are those after it (DESIGN CHOICE, log 75). -/
def execBarrt (d : Reg) (a : Reg) (b : Reg) (s : State) : Out :=
  issue .barrt (fmtR 0x3b#7 d a b 1#4) (do
    let va ← see fun s => s.th.ar a
    let q ← barrierArrive (fmtR 0x3b#7 d a b 1#4) d a b
    upd advance
    if q == 2 then
      upd retire
      trapHere cBOVR va
    else pure ()) s

/-- BINIT (R194). Initialises a barrier object with an expected count. -/
def execBinit (d : Reg) (a : Reg) (b : Reg) (s : State) : Out :=
  issueN .binit (fmtR 0x3b#7 d a b 2#4) (do
    let c ← rd b
    need (1 ≤ c.toNat && c.toNat ≤ 65535) cILL (wordInfo (fmtR 0x3b#7 d a b 2#4))
    let va ← see fun s => s.th.ar a
    storeBytes va (leBytes 16 (c.toNat * 2 ^ 112)) .release true
    wr d 0
    setStat 0) s

/-- BDISS (R194). Dissolves a barrier object and wakes its waiters. -/
def execBdiss (d : Reg) (a : Reg) (s : State) : Out :=
  issueN .bdiss (fmtR 0x3b#7 d a 0#7 3#4) (do
    let va ← see fun s => s.th.ar a
    let (o, key) ← barrierRmw va (fun o => { o with exp := 0, dis := true })
    upd fun s => wakeBwaits s key o.ph
    wr d 0
    setStat 0) s

/-- BWAIT (R195). Waits for a barrier phase change, dissolution or deadline. -/
def execBwait (d : Reg) (a : Reg) (b : Reg) (s : State) : Out :=
  issueN .bwait (fmtR 0x3c#7 d a b 0#4) (do
    let va ← see fun s => s.th.ar a
    let s ← get
    let t ← rd d
    let bound ← rd b
    match s.cur.freed.filter fun f => f.1 == s.cur.pc with
    | some f =>
      boundary
      wr d (BitVec.ofNat 64 (f.2 * 16 + 2))
      setStat 4
    | none =>
      let dl := match s.cur.deadline with
        | some e => some e
        | none => bwaitDeadline s.clock bound
      updC fun c => { c with deadline := dl }
      aligned va 16
      let bs ← readBlock va 16 .bwait
      let o := Barrier.ofNat (leNat bs)
      match bwaitTest o (t.toNat % 16) s.clock.toNat dl with
      | some (code, st) =>
        boundary
        wr d (BitVec.ofNat 64 (o.ph * 16 + code))
        setStat st
      | none =>
        upd fun s => (s.updTh fun t => { t with polled := [] }).updCur fun c => { c with object := objectKey s va }
        parkAgain .bwait) s

/-- VWAIT (R196). Waits for a producer count and sets the arm limit. -/
def execVwait (d : Reg) (a : Reg) (b : Reg) (s : State) : Out :=
  issueN .vwait (fmtR 0x3d#7 d a b 0#4) (do
    let va ← see fun s => s.th.ar a
    let v ← waitWord va 8 .vwait
    let s0 ← get
    let want ← rd b
    let avail := v % 2 ^ 63
    let base := s0.cur.sbase.toNat
    if base < avail || v / 2 ^ 63 % 2 == 1 then
      let k := if base < avail then min want.toNat (avail - base) else 0
      boundary
      updC fun c => { c with arm := BitVec.ofNat 64 (min c.arm.toNat k) }
      wr d (BitVec.ofNat 64 k)
      setStat 0
    else
      set s0
      parkAgain .vwait) s

end Sys2Proof.Machine
end

