-- ==== Sys2Proof/Machine/StateVec.lean ====
section
/-! DEFINITION. State-vector commands (R240 to R245, R339 to R342). -/

namespace Sys2Proof.Machine

/-! ## The state record (R241) -/

def svBase (b : Bytes) : Nat := field b 0 8
def svN (b : Bytes) : Nat := field b 8 1
def svFmt (b : Bytes) : Nat := field b 9 1
def svG (b : Bytes) : Nat := field b 10 1
def svKind (b : Bytes) : Nat := field b 11 1
def svDone (b : Bytes) : Nat := field b 0x18 8
def svValue (b : Bytes) : Nat := field b 0x20 8
def svMap (b : Bytes) : Nat := field b 0x28 36
/-- The physical bit of a logical qubit. -/
def mapBit (m q : Nat) : Nat := m / 2 ^ (6 * q) % 64
/-- A map from its entries. -/
def mapOf (es : List Nat) : Nat := es.foldr (fun e m => e + 64 * m) 0
/-- The identity map of n qubits. -/
def mapId (n : Nat) : Nat := mapOf (List.range n)
/-- Amplitudes of one participant. -/
def svLocal (b : Bytes) : Nat := 2 ^ (svN b - svG b)

/-- A valid state record (R241). -/
def svValid (b : Bytes) : Bool :=
  let n := svN b
  let g := svG b
  let es := (List.range n).map (mapBit (svMap b))
  1 ≤ n && n ≤ 48 && svFmt b ≤ 3 && svKind b ≤ 1 && (if svKind b == 0 then g ≤ 3 else g ≤ 10) && g + 2 ≤ n &&
    field b 12 4 == 0 && svMap b < 2 ^ (6 * n) && (List.range n).all es.contains &&
    (b.drop 0x4C).take 52 == List.replicate 52 0 &&
    (if svKind b == 0 then 2 ^ n else 2 ^ (n - g)) * svSize (svFmt b) ≤ 2 ^ 41

/-! ## Gates (R242) -/

/-- The fields of a gate block without its matrix. -/
def gateOf (b : Bytes) : SvGate :=
  ⟨field b 8 1, field b 9 1, field b 10 1, field b 0x10 6, field b 0x18 6, []⟩
/-- The bytes of a gate's matrix. -/
def matBytes (kind : Nat) : Nat := match kind with
  | 1 => 32
  | 2 => 128
  | 3 => 8
  | _ => 0
/-- The logical qubits a gate names as targets, and as controls. -/
def SvGate.targets (g : SvGate) : List Nat := match g.kind with
  | 1 | 5 => [g.t0]
  | 2 | 4 => [g.t0, g.t1]
  | _ => []
def SvGate.controls (g : SvGate) : List Nat := (List.range 48).filter fun q => g.cmask / 2 ^ q % 2 == 1

/-- A valid gate block for a state of n qubits and a list of kinds (R242). -/
def gateValid (b : Bytes) (n : Nat) (kinds : List Nat) : Bool :=
  let g := gateOf b
  kinds.contains g.kind && field b 11 5 == 0 && field b 0x16 2 == 0 && field b 0x1E 2 == 0 && field b 0x38 8 == 0 &&
    (g.kind == 2 || g.kind == 4 || g.t1 == 0) && g.targets.all (fun t => decide (t < n)) &&
    (g.targets.length != 2 || g.t0 != g.t1) && g.targets.all (fun t => !g.controls.contains t) && g.cmask < 2 ^ n

/-- The swaps a batch needs before its gates (R244): pairs of a global and a local physical bit, and the map after them;
none with too few free local bits. -/
def swapPlan (n g m : Nat) (gates : List SvGate) : Option (List (Nat × Nat) × Nat) :=
  let tb := (gates.flatMap SvGate.targets).map (mapBit m)
  let used := tb ++ (gates.flatMap SvGate.controls).map (mapBit m)
  let glob := ((List.range n).filter fun b => n - g ≤ b && tb.contains b)
  let free := (List.range (n - g)).filter fun b => !used.contains b
  if free.length < glob.length then none
  else
    let ps := glob.zip free
    let move (b : Nat) : Nat := ps.foldl (fun b p => if b == p.1 then p.2 else if b == p.2 then p.1 else b) b
    some (ps, mapOf ((List.range n).map fun q => move (mapBit m q)))

/-! ## Amplitudes (R241, R243) -/

/-- An amplitude as FP32 codes, real and imaginary. -/
abbrev Amp := Nat × Nat

/-- An amplitude from its bytes, and back, rounded RNE. -/
def ampOf (f : Nat) (b : Bytes) : Amp := match f with
  | 0 => (field b 0 4, field b 4 4)
  | 1 => (narrowTo32 fp16 (field b 0 2), narrowTo32 fp16 (field b 2 2))
  | 2 => (field b 0 4, 0)
  | _ => (narrowTo32 bf16 (field b 0 2), 0)
def ampBytes (f : Nat) (a : Amp) : Bytes := match f with
  | 0 => leBytes 4 a.1 ++ leBytes 4 a.2
  | 1 => leBytes 2 (f32ToNarrow fp16 rne false a.1).1 ++ leBytes 2 (f32ToNarrow fp16 rne false a.2).1
  | 2 => leBytes 4 a.1
  | _ => leBytes 2 (f32ToNarrow bf16 rne false a.1).1
/-- An amplitude as the format can hold it. -/
def ampRound (f : Nat) (a : Amp) : Amp := ampOf f (ampBytes f a)

/-- One step of the chain of R243; a real format computes the real line only. -/
def chainStep (real : Bool) (acc u x : Amp) : Amp :=
  ((fFma fp32 rne false (fFma fp32 rne false acc.1 u.1 x.1).1 (flipSign fp32 u.2) x.2).1,
    if real then 0 else (fFma fp32 rne false (fFma fp32 rne false acc.2 u.1 x.2).1 u.2 x.1).1)

/-- Bit `b` of an index, and the index with it set to a value. -/
def idxBit (i b : Nat) : Nat := i / 2 ^ b % 2
def idxPut (i b v : Nat) : Nat := i - idxBit i b * 2 ^ b + v * 2 ^ b

/-- One gate over the amplitudes from global index `off` on, under a map (R243). -/
def applyGate (f m off : Nat) (g : SvGate) (as : Array Amp) : Array Amp :=
  let real := 2 ≤ f
  let at_ (i : Nat) : Amp := as.getD (i - off) (0, 0)
  let ctl (i : Nat) : Bool := g.controls.all fun q => idxBit i (mapBit m q) == g.cvals / 2 ^ q % 2
  let u (dim r c : Nat) : Amp := (atD 0 (2 * (dim * r + c)) g.mat, atD 0 (2 * (dim * r + c) + 1) g.mat)
  let b0 := mapBit m g.t0
  let b1 := mapBit m g.t1
  let out (i : Nat) : Amp :=
    match g.kind with
    | 1 =>
      if ctl i then
        ampRound f ((List.range 2).foldl (fun acc j => chainStep real acc (u 2 (idxBit i b0) j) (at_ (idxPut i b0 j))) (0, 0))
      else at_ i
    | 2 =>
      if ctl i then
        ampRound f ((List.range 4).foldl (fun acc j =>
          chainStep real acc (u 4 (idxBit i b0 + 2 * idxBit i b1) j) (at_ (idxPut (idxPut i b0 (j % 2)) b1 (j / 2)))) (0, 0))
      else at_ i
    | 3 =>
      if g.controls.all fun q => idxBit i (mapBit m q) == 1 then ampRound f (chainStep real (0, 0) (u 1 0 0) (at_ i))
      else at_ i
    | _ => at_ (idxPut (idxPut i b0 (idxBit i b1)) b1 (idxBit i b0))
  ((List.range as.size).map fun j => out (off + j)).toArray

/-- The exchange of a global and a local bit within one device. -/
def swapBits (p : Nat × Nat) (as : Array Amp) : Array Amp :=
  ((List.range as.size).map fun i =>
    as.getD (idxPut (idxPut i p.1 (idxBit i p.2)) p.2 (idxBit i p.1)) (0, 0)).toArray

/-- The exchange of a global and a local bit with another device, whose amplitudes come in ascending local index: this
participant's number has `v` in the global bit, and its amplitudes whose local bit differs from `v` are replaced. -/
def swapIn (v lb : Nat) (inc : List Amp) (as : Array Amp) : Array Amp :=
  (((List.range as.size).filter fun j => idxBit j lb != v).zip inc).foldl (fun acc e => acc.setIfInBounds e.1 e.2) as

/-- A leaf of SVPROB (R245): |amplitude|² in FP64. -/
def probLeaf (a : Amp) : Nat :=
  let re := f32To64 a.1
  let im := f32To64 a.2
  (fFma fp64 rne false (fMul fp64 rne im im).1 re re).1

/-- The canonical FP64 sum of nodes, combining in the issuer's fmode mode with RS as RNE (R44, R46, R47). -/
def probSum (fmode : BitVec 7) (l : List TreeNode) : Nat :=
  let md := fmode.toNat % 8
  ((treeRoot (fAdd fp64 ⟨if md == 4 then 0 else md, 0⟩) (fun _ _ => 0) l).1).getD 0

/-! ## Issue (R240, R242) -/

/-- Bytes of a command read at issue, a line at a time (R398): here at once, from a peer when it has answered; the thread's
own copies and stream transfers hold them off, its earlier commands do not (R340). -/
def svRead (va n : Nat) : M Bytes := do
  let ls ← (lineParts va n).mapM fun q =>
    readBlockOnce (do
      let held ← see fun s => heldBy s { s.th with svcmds := [] } (s.th.transfers + 1) (va + q.1) q.2 false
      if held then park .work else pure ()) (BitVec.ofNat 64 (va + q.1)) q.2 .reply
  pure ls.flatten

/-- The participants a record lists: dies in [2:0] or accelerator IDs in [9:0]. DESIGN CHOICE: none, so that the record counts
as invalid, where an entry has a further bit set; R8 lets no reserved field be ignored and R241 names no handling (log 72). -/
def svParts (b : Bytes) : M (Option (List Nat)) := do
  let n := 2 ^ svG b
  let l ← svRead (field b 0x10 8) (4 * n)
  let ps := (List.range n).map fun p => field l (4 * p) 4
  pure (if ps.all fun p => decide (p < if svKind b == 0 then 8 else 1024) then some ps else none)

/-- The map the record will hold when the thread's commands before this one are done (R340). -/
def mapAhead (s : State) (va : Nat) (b : Bytes) : Nat :=
  s.th.svcmds.foldl (fun m c =>
    if c.recVa != va then m
    else if c.op == 0 then mapId (svN b)
    else if c.op == 6 then m
    else
      match swapPlan (svN b) (svG b) m c.gates with
      | some q => q.2
      | none => m) (svMap b)

/-- A gate's matrix read. -/
def withMatrix (b : Bytes) : M SvGate := do
  let g := gateOf b
  let k := matBytes g.kind
  if k == 0 then pure g
  else
    let m ← svRead (field b 0x30 8) k
    pure { g with mat := (List.range (k / 4)).map fun i => field m (4 * i) 4 }

/-- Whether a matrix has only zero imaginary parts. -/
def SvGate.isReal (g : SvGate) : Bool := (g.mat.zipIdx).all fun p => p.2 % 2 == 0 || isZero32' p.1
where
  /-- A zero of either sign. -/
  isZero32' (c : Nat) : Bool := c % 2 ^ 31 == 0

/-- The gate blocks of a batch read and checked against its state: none for 0x21. -/
def svGates (rec : Bytes) (state : Nat) (kinds : List Nat) : List Nat → M (Option (List SvGate))
  | [] => pure (some [])
  | va :: r => do
    if va % 64 != 0 then pure none
    else
      let b ← svRead va 64
      if !(field b 0 8 == state && gateValid b (svN rec) kinds) then pure none
      else
        let g ← withMatrix b
        if 2 ≤ svFmt rec && !g.isReal then pure none
        else
          let q ← svGates rec state kinds r
          pure (q.map fun l => g :: l)

/-- The status of a command written to sd and stat (R218). -/
def svStatus (d : Reg) (v : Nat) : M Unit := do
  wr d (BitVec.ofNat 64 v)
  setStat v

/-- A command accepted as an engine transfer (R240). -/
def svAccept (d : Reg) (op va : Nat) (rec : Bytes) (parts : List Nat) (gates : List SvGate) (done value result : Nat) : M Unit := do
  let g ← beginTransfer
  updT fun t => { t with svcmds := t.svcmds ++ [⟨op, va, rec, parts, gates, done, value, result, g, [], t.mcword, t.a.fmode, 0, 0⟩] }
  svStatus d 0

/-- A command over a state: record, gates, and the batch's free local bits checked (R242, R244). -/
def svBatch (d : Reg) (op state : Nat) (blocks : List Nat) (kinds : List Nat) (done value result : Nat) : M Unit := do
  if state % 64 != 0 then svStatus d 0x20
  else
    let rec_ ← svRead state 128
    if !svValid rec_ then svStatus d 0x20
    else
      match ← svParts rec_ with
      | none => svStatus d 0x20
      | some parts =>
      match ← svGates rec_ state kinds blocks with
      | none => svStatus d 0x21
      | some gates =>
        let m ← see fun s => mapAhead s state rec_
        if op != 6 && (swapPlan (svN rec_) (svG rec_) m gates).isNone then svStatus d 0x21
        else svAccept d op state rec_ parts gates done value result

/-- The commands of one thread: at most 16 (R240). -/
def svFree (d : Reg) (body : M Unit) : M Unit := do
  let n ← see fun s => s.th.svcmds.length
  if 16 ≤ n then svStatus d 0x22 else body

/-- A command with one gate block (SVG1, SVG2, SVPH, SVSWP, SVPROB). -/
def svOne (d a : Reg) (op kind : Nat) : M Unit := svFree d do
  let va ← see fun s => (s.th.ar a).toNat
  if va % 64 != 0 then svStatus d 0x21
  else
    let b ← svRead va 64
    svBatch d op (field b 0 8) [va] [kind] (field b 0x20 8) (field b 0x28 8) (field b 0x30 8)

/-! ## The pass (R339 to R341, R244, R245) -/

/-- Runs of a transfer's bytes read: of this device at once; a peer's as it has sent them to the command, asked for once.
With them, how many requests this device served: they enter MREQ when the pass is made (R76). -/
def svFetch (c : SvCmd) (total : Nat) (rs : List Run) : M (Bytes × Nat) := do
  let ps ← rs.mapM fun r => do
    let t ← resolve (BitVec.ofNat 64 r.va) r.n .read
    pure ((r, t) : Piece)
  let s ← get
  let q := ps.foldl (fun (acc : State × Bytes × Bool × Option Failure) p =>
    let (s, bs, missing, f) := acc
    let (r, t) := p
    let put (d : Bytes) : Bytes := bs.take r.off ++ d ++ bs.drop (r.off + r.n)
    match f, stampEngine s r.va t r.n c.region false with
    | some f, _ => (s, bs, missing, some f)
    | none, .error va => (s, bs, missing, some (cMMX, BitVec.ofNat 64 va))
    | none, .ok s =>
      if t.here s then
        if t.bad s r.n then (s, bs, missing, some (cECC, BitVec.ofNat 64 (badAddr s r.va t.key r.n)))
        else (if t.mode == 7 then s else siteRecall s t.key r.n, put (routeBytes s t r.n), missing, none)
      else
        let parts := lineParts r.va r.n
        match parts.mapM fun q => c.got.find? fun e => e.1 == r.va + q.1 && e.2.length == q.2 with
        | some l => (s, put (l.flatMap fun e => e.2), missing, none)
        | none =>
          let asked := parts.any fun q => c.got.any (fun e => e.1 == r.va + q.1) ||
            s.reqs.any fun u => u.of s.th && u.va == r.va + q.1 && u.kind == .fetch c.region (r.off + q.1) q.2
          (if asked then s else askRun c.region r t s, bs, true, none))
    (s, List.replicate total 0, false, none)
  match q.2.2.2 with
  | some f => fun _ => .error (.trapBack q.1 f.1 f.2)
  | none =>
    set q.1
    if q.2.2.1 then parkAgain .reply else pure (q.2.1, (ps.filter fun p => p.2.here q.1).length)

/-- What a peer contributes to a pass under a key, or requests for it, of 256 bytes each (R339, R398): exchanged
amplitudes, a root, or that its part is done. -/
def svPeer (c : SvCmd) (peer key n : Nat) : M Bytes := do
  let s ← get
  let parts := (List.range ((n + 255) / 256)).map fun i => (2 ^ 64 + key * 2 ^ 64 + i, min 256 (n - 256 * i))
  match parts.mapM fun q => c.got.find? fun e => e.1 == q.1 with
  | some l => pure (l.flatMap fun e => e.2)
  | none =>
    let asked := parts.any fun q => c.got.any (fun e => e.1 == q.1) || s.reqs.any fun u => u.of s.th && u.va == q.1
    if asked then park .reply
    else
      set (parts.foldl (fun s q => sendFor s s.th (.fetch c.region 0 q.2) peer q.1 0 (leBytes 2 q.2) none []) s)
      parkAgain .reply

/-- The runs of `n` amplitudes from a VA. -/
def ampRuns (va n sz : Nat) : List Run := rowRuns (BitVec.ofNat 64 va) n sz

/-- Bytes that the engine writes for a command (R422: those that are no amplitudes count in no digest): they wait for bytes
that an earlier transfer of the thread holds (R288), and a RED page takes none (R407). -/
def svPut (c : SvCmd) (quiet : Bool) (rs : List Run) (data : Bytes) : M Unit := do
  let ps ← rs.mapM fun r => do
    let t ← resolve (BitVec.ofNat 64 r.va) r.n .write
    if t.mode == 4 then
      let _ ← multicastCheck (BitVec.ofNat 64 r.va) t r.n
    else if 5 ≤ t.mode then trapBack cPROT (BitVec.ofNat 64 r.va)
    else pure ()
    pure ((r, t) : Piece)
  if ← see fun s => rs.any fun r => heldBy s s.th c.region r.va r.n true then park .work else pure ()
  let s ← get
  let (s', _, f) := writePieces c.region quiet data ps s
  match f with
  | some f => fun _ => .error (.trapIn s' f.1 f.2)
  | none => set s'

/-- The runs of a field of `n` bytes. -/
def fieldRuns (va n : Nat) : List Run := (lineParts va n).map fun q => ⟨va + q.1, q.2, q.1⟩

/-- A batch's swaps in order: within the device for dies, with the partner device otherwise (R244); a device that is no
participant holds no amplitudes and exchanges none. -/
def svSwaps (c : SvCmd) (rec : Bytes) (mine : Nat) : List (Nat × Nat) → Nat → Array Amp → M (Array Amp)
  | [], _, as => pure as
  | p :: ps, k, as => do
    if svKind rec == 0 then svSwaps c rec mine ps (k + 1) (swapBits p as)
    else if c.parts.length ≤ mine then pure as
    else
      let gb := p.1 - (svN rec - svG rec)
      let v := idxBit mine gb
      let peer := atD 0 (idxPut mine gb (1 - v)) c.parts
      let sz := svSize (svFmt rec)
      let d ← svPeer c peer k (svLocal rec / 2 * sz)
      let inc := (List.range (svLocal rec / 2)).map fun i => ampOf (svFmt rec) ((d.drop (i * sz)).take sz)
      svSwaps c rec mine ps (k + 1) (swapIn v p.2 inc as)

/-- The amplitudes of this device written back. -/
def svStore (c : SvCmd) (rec : Bytes) (base : Nat) (as : Array Amp) : M Unit :=
  svPut c false (ampRuns base as.size (svSize (svFmt rec))) (as.toList.flatMap (ampBytes (svFmt rec)))

/-- The answers of every other participant device that its part of the pass is done (R339). -/
def svPeersDone (c : SvCmd) (mine : Nat) (l : List (Nat × Nat)) : M Unit :=
  l.forM fun p => if p.2 == mine then pure () else do
    let _ ← svPeer c p.1 (4096 + p.2) 1

/-- The participants of a command on other devices, with this device's own number (R241). -/
def svOthers (c : SvCmd) (s : State) : Nat × List (Nat × Nat) :=
  if svKind c.recBytes == 1 then
    ((c.parts.findIdx? fun p => p == accId s (getPart s s.th.part)).getD c.parts.length, c.parts.zipIdx)
  else (0, [])

/-- The pass of a command over the amplitudes (R339, R341): the map it leaves, where it leaves one. -/
def svRun (c : SvCmd) : M (Option Nat) := do
  let (rec_, n0) ← svFetch c 128 (ampRuns c.recVa 32 4)
  if !svValid rec_ then pure none
  else
    let s ← get
    let n := svN rec_
    let kind1 := svKind rec_ == 1
    let (mine, peers) := svOthers c s
    let count := if kind1 then (if mine < c.parts.length then svLocal rec_ else 0) else 2 ^ n
    let off := mine * svLocal rec_
    let f := svFmt rec_
    let sz := svSize f
    let served (n : Nat) : M Unit := upd fun s => Machine.count s s.th 0x211 (n0 + n)
    if c.op == 0 then
      served 0
      svStore c rec_ (svBase rec_)
        ((List.range count).map fun j => if off + j == 0 then ampOf f (ampBytes f (0x3F800000, 0)) else (0, 0)).toArray
      pure (some (mapId n))
    else
      let (d, n1) ← svFetch c (count * sz) (ampRuns (svBase rec_) count sz)
      let as := ((List.range count).map fun j => ampOf f ((d.drop (j * sz)).take sz)).toArray
      if c.op == 6 then
        let b := mapBit (svMap rec_) (match c.gates with
          | g :: _ => g.t0
          | [] => 0)
        let leaves := ((List.range count).filter fun j => idxBit (off + j) b == 1).map fun j =>
          (⟨0, off + j, probLeaf (as.getD j (0, 0)), off + j⟩ : TreeNode)
        let others ← (peers.filter fun p => p.2 != mine && (b < n - svG rec_ || idxBit p.2 (b - (n - svG rec_)) == 1)).mapM
          fun p => do
            let r ← svPeer c p.1 (8192 + p.2) 8
            pure (⟨n - svG rec_, p.2, leNat r, p.2 * svLocal rec_⟩ : TreeNode)
        let mineNode := if leaves.isEmpty then [] else if kind1 then
          [(⟨n - svG rec_, mine, probSum c.fmode leaves, off⟩ : TreeNode)] else leaves
        let all := (others.filter fun x => x.j < mine) ++ mineNode ++ others.filter fun x => mine < x.j
        served n1
        svPut c true (fieldRuns c.result 8) (leBytes 8 (probSum c.fmode all))
        pure none
      else
        match swapPlan n (svG rec_) (svMap rec_) c.gates with
        | none => pure none
        | some (ps, m) =>
          let as ← svSwaps c rec_ mine ps 0 as
          served n1
          svStore c rec_ (svBase rec_) (c.gates.foldl (fun as g => applyGate f m off g as) as)
          pure (some m)

/-- One move of the first command of a thread (R339, R244): its pass; then, when every participant's amplitudes are
written, the record's map; then the completion word. True where the command is done. -/
def svMove (c : SvCmd) : M Bool := do
  let s ← get
  let stay (c' : SvCmd) : M Bool := do
    updT fun t => { t with svcmds := updAt 0 (fun _ => c') t.svcmds }
    pure false
  match c.phase with
  | 0 =>
    match ← svRun c with
    | some m => stay { c with phase := 1, newMap := m }
    | none => stay { c with phase := 2 }
  | 1 =>
    if owed s s.th c.region then park .reply
    else
      let (mine, peers) := svOthers c s
      svPeersDone c mine peers
      svPut c true (fieldRuns (c.recVa + 0x28) 36) (leBytes 36 c.newMap)
      stay { c with phase := 2 }
  | _ =>
    if owed s s.th c.region then park .reply
    else if c.done == 0 then pure true
    else
      let (s', ok) := writeDone c.region c.done 8 c.value s
      set s'
      pure ok

/-- The first command of the thread in focus runs its pass, unless an earlier copy holds its bytes or a peer owes it
something; a failure stops it and is taken late (R209, R339). -/
def svPassIn (s : State) : State :=
  match s.th.svcmds with
  | [] => s
  | c :: r =>
    let b := c.recBytes
    let len := if svKind b == 0 then 2 ^ svN b else svLocal b
    let held := heldEarlier s c.region [⟨c.recVa, 128, 0⟩, ⟨svBase b, len * svSize (svFmt b), 0⟩] true
    if (getPart s s.th.part).switchedOut || held then s
    else
      let done (s : State) : State := s.updTh fun t => { t with svcmds := r }
      let fail (s : State) (cause : BitVec 8) (i : Dword) : State := (done s).updTh fun t => t.setLate cause i
      match svMove c s with
      | .ok (ended, s') => if ended then done s' else s'
      | .error (.trapIn s' cause i) => fail s' cause i
      | .error e =>
        match e.early with
        | some f => fail (e.record s) f.1 f.2
        | none => e.record s

/-- The first command's pass under the MCWORD of its issue (R412). -/
def svPass (s : State) : State :=
  match s.th.svcmds with
  | [] => s
  | c :: _ => withMcword c.mcword svPassIn s

/-! ## The instructions -/

/-- SVMAP (R241). Validates a state record, writes the identity map and resets amplitudes. -/
def execSvmap (d : Reg) (a : Reg) (s : State) : Out :=
  issueN .svmap (fmtR 0x46#7 d a 0#7 0#4) (do
    svFree d do
      let va ← see fun s => (s.th.ar a).toNat
      if va % 64 != 0 then svStatus d 0x20
      else
        let b ← svRead va 128
        if !svValid b then svStatus d 0x20
        else
          match ← svParts b with
          | none => svStatus d 0x20
          | some parts => svAccept d 0 va b parts [] (svDone b) (svValue b) 0) s

/-- SVG1 (R243). Applies a one-qubit gate as a batch of one. -/
def execSvg1 (d : Reg) (a : Reg) (s : State) : Out :=
  issueN .svg1 (fmtR 0x46#7 d a 0#7 1#4) (svOne d a 1 1) s

/-- SVG2 (R243). Applies a two-qubit gate as a batch of one. -/
def execSvg2 (d : Reg) (a : Reg) (s : State) : Out :=
  issueN .svg2 (fmtR 0x46#7 d a 0#7 2#4) (svOne d a 2 2) s

/-- SVPH (R243). Applies a phase to masked amplitudes. -/
def execSvph (d : Reg) (a : Reg) (s : State) : Out :=
  issueN .svph (fmtR 0x46#7 d a 0#7 3#4) (svOne d a 3 3) s

/-- SVSWP (R243). Exchanges the amplitudes of two qubits. -/
def execSvswp (d : Reg) (a : Reg) (s : State) : Out :=
  issueN .svswp (fmtR 0x46#7 d a 0#7 4#4) (svOne d a 4 4) s

/-- SVRUN (R242). Applies a batch of up to 8 gates in one pass. -/
def execSvrun (d : Reg) (a : Reg) (s : State) : Out :=
  issueN .svrun (fmtR 0x46#7 d a 0#7 5#4) (do
    svFree d do
      let va ← see fun s => (s.th.ar a).toNat
      let b ← svRead va 128
      let n := field b 8 8
      if !(1 ≤ n && n ≤ 8) then svStatus d 0x21
      else
        svBatch d 5 (field b 0 8) ((List.range n).map fun k => field b (0x20 + 8 * k) 8) [1, 2, 3, 4] (field b 0x10 8)
          (field b 0x18 8) 0) s

/-- SVPROB (R245). Writes P(t0 = 1) as a canonical FP64 sum. -/
def execSvprob (d : Reg) (a : Reg) (s : State) : Out :=
  issueN .svprob (fmtR 0x46#7 d a 0#7 6#4) (svOne d a 6 5) s

end Sys2Proof.Machine
end

