-- ==== Sys2Proof/Machine/Group.lean ====
section
/-! DEFINITION. Groups, names, mailboxes and remote register stores (R246 to R255, R403, R404). -/

namespace Sys2Proof.Machine

/-! ## Group objects and names (R246 to R250, R383) -/

/-- The four fields of a group object that software reads. -/
structure GroupObj where
  count : Nat
  name : Nat
  leader : Nat
  flags : Nat
  deriving DecidableEq, Repr

/-- A group object at a place, and its fields written back; the other 48 bytes stay. -/
def readGroup (s : State) (k : Nat) : GroupObj := ⟨readLE s k 4, readLE s (k + 4) 4, readLE s (k + 8) 4, readLE s (k + 12) 4⟩
def writeGroup (s : State) (pn k : Nat) (g : GroupObj) : State :=
  putAt s pn k (leBytes 4 g.count ++ leBytes 4 g.name ++ leBytes 4 g.leader ++ leBytes 4 g.flags)

/-- The objects R246 turns away with 0x32. -/
def GroupObj.bad (g : GroupObj) : Bool :=
  2 ≤ g.flags || 2 ^ 24 ≤ g.leader || (g.name != 0) != (g.flags % 2 == 1)

/-- The parts of a name (R247): accelerator ID, slot, generation. -/
def nameAcc (n : Nat) : Nat := n / 2 ^ 22 % 1024
def nameSlot (n : Nat) : Nat := n / 2 ^ 12 % 1024
def nameGen (n : Nat) : Nat := n % 2 ^ 12

/-- The generation after one: 12 bits, skipping 0 (R247, R250). -/
def nextGen (g : Nat) : Nat := g % 4095 + 1

/-- A slot of the device. -/
def slotOf (s : State) (k : Nat) : NameSlot := Store.get NameSlot.reset s.names k
def setSlot (s : State) (k : Nat) (v : NameSlot) : State := { s with names := Store.put NameSlot.reset s.names k v }

/-- A name dropped (R247): its slot's generation moves on and the slot is free. A name of another device's slot is that
device's to drop. -/
def dropName (s : State) (pn name : Nat) : State :=
  let k := nameSlot name
  let v := slotOf s k
  if name != 0 && nameAcc name == accId s (getPart s pn) && v.object.isSome && v.gen == nameGen name then
    setSlot s k ⟨nextGen v.gen, none, none, none⟩
  else s

/-- The lowest free slot of a partition's range (R247, R383). -/
def lowestFree (s : State) (p : Partition) : Option Nat :=
  ((List.range p.nameCount).map fun j => p.nameBase + j).find? fun k =>
    (slotOf s k).object.isNone && (slotOf s k).forward.isNone

/-- JOIN of a member (R247). -/
def joinObj (g : GroupObj) (tid : Nat) : GroupObj :=
  { g with count := (g.count + 1) % 2 ^ 32, leader := if g.count == 0 || g.leader == 0 then tid else g.leader }

/-- LEAVE of a member of a group whose count is not 0, and the name it drops, or 0 (R247). -/
def leaveObj (g : GroupObj) (tid : Nat) : GroupObj × Nat :=
  if g.leader == tid || g.count == 1 then (⟨g.count - 1, 0, 0, 0⟩, g.name) else ({ g with count := g.count - 1 }, 0)

/-- LEAVE applied at a place, as an instruction or at a launch's end does it (R247, R372). -/
def leaveAt (s : State) (pn k tid : Nat) : State :=
  let g := readGroup s k
  if g.bad || g.count == 0 then s
  else
    let q := leaveObj g tid
    dropName (writeGroup s pn k q.1) pn q.2

/-- The place of the group object a GROUP function acts on, as one acquire-release access (R246). The fabric's port refuses
an atomic of 64 bytes (R398), and a refused one takes PROT (R402; log 14). -/
def groupAt (va : Dword) : M Nat := do
  aligned va 64
  let r ← resolve va 64 .atomic
  if r.mode == 0 then pure () else trapBack cPROT va
  interlock va 64 true
  if ← see fun s => badUnit s r.key 64 then trapBack cECC va else pure ()
  classify .release va r true
  upd fun s => atomicSite (countReq s) s.th r
  pure r.key

/-- A GROUP function: the object's address, then what it does with an object that R246 accepts: sd and stat. -/
def groupFn (d a : Reg) (f : Nat → GroupObj → M (Nat × Nat)) : M Unit := do
  let va ← see fun s => s.th.ar a
  let k ← groupAt va
  let g ← see fun s => readGroup s k
  let q ← if g.bad then pure (0, 0x32) else f k g
  wr d (BitVec.ofNat 64 q.1)
  setStat q.2

/-- The issuing thread's ID as an object holds it. -/
def myTid (s : State) : Nat := s.th.tid % 2 ^ 24

/-- The lowest free slot of a partition's range taken for a group object and its leader, and the name it gives: none where
no slot is free (R247, R248). -/
def takeName (s : State) (pn k tid : Nat) : Option (Nat × State) :=
  let p := getPart s pn
  (lowestFree s p).map fun j =>
    let gen := nextGen (slotOf s j).gen
    (accId s p * 2 ^ 22 + j * 2 ^ 12 + gen, setSlot s j ⟨gen, some (pn, k), some tid, none⟩)

/-- GNAME for the leader of an unnamed group (R247). -/
def nameGroup (k : Nat) (g : GroupObj) : M (Nat × Nat) := fun s =>
  match takeName s s.th.part k (myTid s) with
  | none => .ok ((0, 0x31), s)
  | some (name, s) => .ok ((name, 0), writeGroup s s.th.part k { g with name := name, flags := 1 })

/-- A slot whose name has moved to another: it forwards for 1,500,000 clocks (R248, R404). -/
def forwardSlot (s : State) (name dest : Nat) : State :=
  let j := nameSlot name
  let v := slotOf s j
  if v.gen == nameGen name then setSlot s j { v with leader := none, forward := some (dest, s.clock.toNat + 1500000) } else s

/-- A slot of this device bound to another leader: the name stays (R248). -/
def rebindSlot (s : State) (name tid : Nat) : State :=
  let j := nameSlot name
  let v := slotOf s j
  if v.gen == nameGen name then setSlot s j { v with leader := some tid } else s

/-- What GMOVE does to the object once the device that leads has given its name: a new name leaves the old slot forwarding,
here or at the device whose slot it is (R248). -/
def moveGroup (s : State) (pn k : Nat) (g : GroupObj) (tid name : Nat) : State :=
  let s := if name == g.name then s
    else if nameAcc g.name == accId s (getPart s pn) then forwardSlot s g.name name
    else sendFor s (deviceThread pn) (.forward g.name name) (nameAcc g.name) 0 0 (leBytes 4 g.name ++ leBytes 4 name) none []
  writeGroup s pn k { g with name := name, leader := tid }

/-! ## Remote register stores (R249 to R255, R403) -/

/-- The fields of a target specification (R252). -/
def specWidth (v : Nat) : Nat := v / 2 ^ 25 % 8
def specCount (v : Nat) : Nat := if v / 2 ^ 16 % 512 == 0 then 512 else v / 2 ^ 16 % 512
def specOffset (v : Nat) : Nat := v / 2 ^ 7 % 512
def specMailbox (v : Nat) : Nat := v % 128
/-- A specification an RSTV accepts. -/
def specOk (v : Nat) : Bool :=
  decide (v < 2 ^ 28) && specWidth v ≤ 3 && specMailbox v ≤ 7 && specCount v * 2 ^ specWidth v ≤ 2048

/-- A remote register store sent by the issuing thread: it counts until its answer (R254). -/
def sendRStore (s : State) (name spec : Nat) (data : Bytes) (waits : Bool) : State :=
  let p := getPart s s.th.part
  let r : RStore :=
    ⟨s.nextReq, some s.th.tid, some s.th.part, jobKey s p, BitVec.ofNat 32 name, specMailbox spec,
      specOffset spec * 2 ^ specWidth spec, data, waits, s.clock.toNat, accId s p, stationOf s (nameAcc name) 0, 0⟩
  (count { s with nextReq := s.nextReq + 1, rstores := s.rstores ++ [r] } s.th 0x21D 1).updTh fun t => { t with gout := t.gout + 1 }

/-- The operands of RSTV and RSTVR: name, specification, and the bytes sent (R253). DESIGN CHOICE: bits [63:32] of the scalar
that holds the name are ignored, here and in RCPOST; R252 gives a name 32 bits and says nothing of others (log 82). -/
def rstvOperands (word : Word) (d a b : Reg) : M (Nat × Nat × Bytes) := do
  let n ← rd a
  let v ← rd b
  need (specOk v.toNat) cILL (wordInfo word)
  let t ← see fun s => s.th
  untouched [phys t d 0]
  let x ← readRegs [d] fun s => pure (vreg s d)
  let k := specCount v.toNat * 2 ^ specWidth v.toNat
  pure (n.toNat % 2 ^ 32, v.toNat, (List.range k).map fun i => x.extractLsb' (8 * i) 8)

/-- Whether an RSTVR of the issuing thread has not had its answer. -/
def awaitsAck (s : State) : Bool :=
  s.rstores.any (fun r => r.waits && r.src == some s.th.tid) ||
  s.ranswers.any (fun r => r.waits && r.src == s.th.tid)

/-- RSTVR (R253): sent once, after the thread's earlier accesses; the stream parks with its operands still unread until
the answer comes, and a NACK takes GRPN. -/
def rstvr (word : Word) (d a b : Reg) : M Unit := do
  let s0 ← get
  match s0.th.grep with
  | some c =>
    set (s0.updTh fun t => { t with grep := none })
    let (name, _, _) ← rstvOperands word d a b
    if c == 0 then pure ()
    else fun _ => .error (.trapIn (s0.updTh fun t => { t with grep := none }) cGRPN (BitVec.ofNat 64 name))
  | none =>
    if awaitsAck s0 then park .ack else pure ()
    let (name, spec, data) ← rstvOperands word d a b
    if storesOut s0 || awaitingReply s0 then park .reply else pure ()
    set s0
    boundary
    let s ← get
    set (sendRStore s name spec data true)
    parkAgain .ack

/-- Whether a register is a mailbox register. -/
def isMailbox (t : Thread) (ph : Nat) : Bool := t.mbox.any fun e => e.2 == ph

/-! ## The instructions -/

/-- JOIN (R247). Joins a group object, possibly becoming leader. -/
def execJoin (d : Reg) (a : Reg) (s : State) : Out :=
  issueN .join (fmtR 0x48#7 d a 0#7 0#4) (do
    groupFn d a fun k g => do
      upd fun s => writeGroup s s.th.part k (joinObj g (myTid s))
      pure (g.count, 0)) s

/-- LEAVE (R247). Leaves a group object. -/
def execLeave (d : Reg) (a : Reg) (s : State) : Out :=
  issueN .leave (fmtR 0x48#7 d a 0#7 1#4) (do
    groupFn d a fun k g => do
      let s ← get
      if g.count == 0 then pure (2 ^ 64 - 1, 0)
      else
        set (leaveAt s s.th.part k (myTid s))
        pure (g.count - 1, 0)
    let va ← see fun s => s.th.ar a
    upd fun s => match launchOf s s.th with
      | some l => if l.record.group == va.toNat && va != 0 then s.updTh fun t => { t with leftGroup := true } else s
      | none => s) s

/-- GNAME (R247). Names a group in a free name slot. -/
def execGname (d : Reg) (a : Reg) (s : State) : Out :=
  issueN .gname (fmtR 0x48#7 d a 0#7 2#4) (do
    groupFn d a fun k g => do
      let me ← see myTid
      if g.leader != me then pure (0, 0x30) else if g.name != 0 then pure (g.name, 0) else nameGroup k g) s

/-- GDROP (R247). Drops a group's name and frees its slot. -/
def execGdrop (d : Reg) (a : Reg) (s : State) : Out :=
  issueN .gdrop (fmtR 0x48#7 d a 0#7 3#4) (do
    groupFn d a fun k g => do
      upd fun s => dropName (writeGroup s s.th.part k { g with name := 0, flags := 0 }) s.th.part g.name
      pure (0, 0)) s

/-- GINFO (R247). Returns a group's count and name. -/
def execGinfo (d : Reg) (a : Reg) (s : State) : Out :=
  issueN .ginfo (fmtR 0x48#7 d a 0#7 4#4) (do
    groupFn d a fun _ g => pure (g.count * 2 ^ 32 + g.name, 0)) s

/-- GMOVE (R248). Moves a group's leadership: on the device of the group's name it rebinds the slot, to another it takes a
new slot and name there. -/
def execGmove (d : Reg) (a : Reg) (b : Reg) (s : State) : Out :=
  issueN .gmove (fmtR 0x48#7 d a b 5#4) (do
    if ← see awaitingReply then park .reply else pure ()
    let v ← rd b
    groupFn d a fun k g => do
      let s ← get
      let tid := v.toNat % 2 ^ 24
      let acc := v.toNat / 2 ^ 24 % 1024
      let pn := s.th.part
      let me := accId s (getPart s pn)
      if g.name == 0 then
        set (writeGroup s pn k { g with leader := tid })
        pure (0, 0)
      else if acc == me && nameAcc g.name == me then
        set (moveGroup (rebindSlot s g.name tid) pn k g tid g.name)
        pure (g.name, 0)
      else if acc == me then
        match takeName s pn k tid with
        | none => pure (0, 0x31)
        | some (name, s) =>
          set (moveGroup s pn k g tid name)
          pure (name, 0)
      else
        portRoom d
        set (sendReq s (.gmove k v) acc (s.th.ar a) k (leBytes 4 tid ++ leBytes 4 g.name) (some d))
        parkHere .reply) s

/-- GMBOX (R249). Declares a register as a mailbox index. -/
def execGmbox (d : Reg) (b : Reg) (s : State) : Out :=
  issueN .gmbox (fmtR 0x72#7 d 0#7 b 0#4) (do
    let t ← see fun s => s.th
    let ph := phys t d 0
    untouched [ph]
    need (boundTo t ph).isNone cILL (wordInfo (fmtR 0x72#7 d 0#7 b 0#4))
    updT fun t =>
      { t with mbox := Store.insert (t.mbox.filter fun e => e.2 != ph && e.1 != b.toNat) b.toNat ph }) s

/-- VHOLD (R251). Arms a hold for a count of arrivals on a mailbox register. -/
def execVhold (d : Reg) (a : Reg) (s : State) : Out :=
  issueN .vhold (fmtR 0x72#7 d a 0#7 1#4) (do
    let v ← rd a
    let t ← see fun s => s.th
    let ph := phys t d 0
    untouched [ph]
    need (isMailbox t ph && 1 ≤ v.toNat && v.toNat ≤ 255) cILL (wordInfo (fmtR 0x72#7 d a 0#7 1#4))
    updT fun t => { t with hold := Store.put ⟨0, 0⟩ t.hold ph ⟨v.toNat, v.toNat⟩ }) s

/-- RSTV (R253). Sends vector elements to a named group's mailbox. -/
def execRstv (d : Reg) (a : Reg) (b : Reg) (s : State) : Out :=
  issueN .rstv (fmtR 0x72#7 d a b 2#4) (do
    let (name, spec, data) ← rstvOperands (fmtR 0x72#7 d a b 2#4) d a b
    upd fun s => sendRStore s name spec data false) s

/-- RSTVR (R253). Sends a releasing remote store and parks until acknowledged. -/
def execRstvr (d : Reg) (a : Reg) (b : Reg) (s : State) : Out :=
  issueN .rstvr (fmtR 0x72#7 d a b 3#4) (rstvr (fmtR 0x72#7 d a b 3#4) d a b) s

/-- GSTAT (R254). Waits for all remote stores' answers and reports counts. -/
def execGstat (d : Reg) (s : State) : Out :=
  issueN .gstat (fmtR 0x72#7 d 0#7 0#7 4#4) (do
    let t ← see fun s => s.th
    if t.gout != 0 then park .ack else pure ()
    let open_ ← if t.gok ≤ 65535 && t.gnack ≤ 65535 then pure 0 else freeValue
    let ok := if t.gok ≤ 65535 then t.gok else open_.toNat % 65536
    let no := if t.gnack ≤ 65535 then t.gnack else open_.toNat / 65536 % 65536
    wr d (BitVec.ofNat 64 (ok + no * 2 ^ 16 + t.gcause * 2 ^ 32))
    updT fun t => { t with gok := 0, gnack := 0, gcause := 0 }) s

end Sys2Proof.Machine
end

