-- ==== Sys2Proof/Machine/Func.lean ====
section
/-! DEFINITION. Function registers: Chebyshev series on a domain (R67, R231 to R239, R335 to R337). -/

namespace Sys2Proof.Machine

/-! ## Exact arithmetic on finite FP32 values -/

/-- A dyadic number m · 2^x. -/
structure Dy where
  m : Int
  x : Int
  deriving DecidableEq, Repr

/-- The dyadic number of a finite FP32 code; 0 for any other. -/
def dy (c : Nat) : Dy :=
  match unpack fp32 c with
  | .fin n m x => ⟨signedMag n m 0, x⟩
  | _ => ⟨0, 0⟩

/-- Whether a code is finite. -/
def finite32 (c : Nat) : Bool :=
  match unpack fp32 c with
  | .fin _ _ _ => true
  | _ => false

def Dy.add (a b : Dy) : Dy :=
  let x := min a.x b.x
  ⟨a.m * (2 ^ (a.x - x).toNat : Nat) + b.m * (2 ^ (b.x - x).toNat : Nat), x⟩
def Dy.neg (a : Dy) : Dy := ⟨-a.m, a.x⟩
def Dy.abs (a : Dy) : Dy := ⟨a.m.natAbs, a.x⟩
def Dy.mul (a b : Dy) : Dy := ⟨a.m * b.m, a.x + b.x⟩
/-- An integer as a dyadic number. -/
def Dy.nat (n : Nat) : Dy := ⟨n, 0⟩
/-- A number scaled by 2^k. -/
def Dy.scale (a : Dy) (k : Int) : Dy := ⟨a.m, a.x + k⟩
/-- One rounding to FP32; an exact zero is that of R27. -/
def Dy.round (r : Rnd) (a : Dy) : Nat :=
  if a.m == 0 then signBit fp32 (r.mode == 3) else (roundMag fp32 r (decide (a.m < 0)) a.m.natAbs a.x false).1
/-- One rounding of a quotient by a positive number. -/
def Dy.ratio (r : Rnd) (a b : Dy) : Nat :=
  if a.m == 0 then signBit fp32 (r.mode == 3)
  else
    let k := 48 + bitLen b.m.natAbs
    let n := a.m.natAbs * 2 ^ k
    (roundMag fp32 r (decide (a.m < 0)) (n / b.m.natAbs) (a.x - b.x - k) (n % b.m.natAbs != 0)).1

/-- The magnitude of a code. -/
def abs32 (c : Nat) : Nat := c % 2 ^ 31
/-- a < b and a ≤ b as numbers; false where one is a NaN. -/
def lt32 (a b : Nat) : Bool := (fCmp fp32 2 a b).1
def le32 (a b : Nat) : Bool := (fCmp fp32 3 a b).1
/-- The sum of magnitudes in order, each step rounded (R232, R235). -/
def sumAbs (r : Rnd) (cs : List Nat) : Nat := cs.foldl (fun s c => (fAdd fp32 r s (abs32 c)).1) 0

/-! ## Evaluation (R233) -/

/-- The domain's width h = hi − lo, exactly. -/
def domWidth (lo hi : Nat) : Dy := (dy hi).add (dy lo).neg
/-- m := RNE((lo + hi) / 2) and q := RNE(2 / (hi − lo)). -/
def fnMid (lo hi : Nat) : Nat := (((dy lo).add (dy hi)).scale (-1)).round rne
def fnQ (lo hi : Nat) : Nat := (Dy.nat 2).ratio rne (domWidth lo hi)

/-- t := clamp(RNE((x − m) · q), −1, 1). -/
def fnT (m q x : Nat) : Nat :=
  let p := if finite32 x && finite32 m && finite32 q then (((dy x).add (dy m).neg).mul (dy q)).round rne
    else (fMul fp32 rne (fSub fp32 rne x m).1 q).1
  (fMinMax fp32 true (fMinMax fp32 false p 0x3F800000).1 0xBF800000).1

/-- Clenshaw's recurrence over the coefficients from the last to c_1, then the value. -/
def clenshaw (t : Nat) (cs : List Nat) : Nat :=
  match cs with
  | [] => 0
  | c0 :: r =>
    let t2 := (fAdd fp32 rne t t).1
    let b := r.foldr (fun c (b : Nat × Nat) => ((fFma fp32 rne false (fSub fp32 rne c b.2).1 t2 b.1).1, b.1)) (0, 0)
    (fFma fp32 rne false (fSub fp32 rne c0 b.2).1 t b.1).1

/-- FnEval of a series on a domain. -/
def evalOn (lo hi : Nat) (cs : List Nat) (x : Nat) : Nat := clenshaw (fnT (fnMid lo hi) (fnQ lo hi) x) cs

/-- beta := RU((4n + 8) · 2^−24 · S). -/
def betaOf (cs : List Nat) : Nat :=
  let s := sumAbs rne cs
  if finite32 s then ((Dy.nat (4 * cs.length + 8)).mul ((dy s).scale (-24))).round rru else s

/-- The domain of a function register: +0 and +0 where it has none (R231). -/
def FReg.lo (f : FReg) : Nat := match f.dom with
  | some d => d.1.toNat
  | none => 0
def FReg.hi (f : FReg) : Nat := match f.dom with
  | some d => d.2.toNat
  | none => 0
/-- The coefficients as codes. -/
def FReg.codes (f : FReg) : List Nat := f.coef.map BitVec.toNat
/-- FnEval and beta of a register. -/
def FReg.eval (f : FReg) (x : Nat) : Nat := evalOn f.lo f.hi f.codes x
def FReg.beta (f : FReg) : Nat := betaOf f.codes

/-! ## Truncation (R232) -/

/-- The dropping loop over the coefficients from the last: what is left, and D. -/
def dropSmall (bound : Nat) : List Nat → Nat → List Nat × Nat
  | [], d => ([], d)
  | c :: r, d =>
    let d2 := (fAdd fp32 rru d (abs32 c)).1
    if lt32 bound d2 then (c :: r, d) else dropSmall bound r d2

/-- Adaptive truncation with tolerance tau. -/
def adaptive (tau : Nat) (p : List Nat × Nat) : List Nat × Nat :=
  let bound := (fMul fp32 rne tau (sumAbs rne p.1)).1
  let q := dropSmall bound p.1.reverse 0
  (q.1.reverse, (fAdd fp32 rru p.2 q.2).1)

/-- Forced truncation to 256 coefficients. -/
def forced (p : List Nat × Nat) : List Nat × Nat :=
  if p.1.length ≤ 256 then p else (p.1.take 256, (fAdd fp32 rru p.2 (sumAbs rru (p.1.drop 256))).1)

/-! ## The calculus of series (R234 to R236) -/

/-- RNE(acc + a · b / 2), one rounding of the exact value. -/
def halfFma (acc a b : Nat) : Nat :=
  if finite32 acc && finite32 a && finite32 b then
    match unpack fp32 acc, unpack fp32 a, unpack fp32 b with
    | .fin n3 m3 x3, .fin n1 m1 x1, .fin n2 m2 x2 => (sumRound fp32 rne n3 m3 x3 (n1 != n2) (m1 * m2) (x1 + x2 - 1)).1
    | _, _, _ => 0
  else (fFma fp32 rne false acc a b).1

/-- The product of two series (R235). -/
def seriesMul (as bs : List Nat) : List Nat :=
  if as.isEmpty || bs.isEmpty then []
  else
    as.zipIdx.foldl (fun c p =>
      bs.zipIdx.foldl (fun c q =>
        let c := updAt (p.2 + q.2) (fun v => halfFma v p.1 q.1) c
        updAt (max p.2 q.2 - min p.2 q.2) (fun v => halfFma v p.1 q.1) c) c)
      (List.replicate (as.length + bs.length - 1) 0)

/-- The coefficients C_1 to C_n of the integral (FNINT): `prev` is c_(k−1), doubled for k = 1. -/
def intTerms (h : Dy) : Nat → Nat → List Nat → List Nat
  | _, _, [] => []
  | k, prev, c :: r =>
    let next := atD 0 0 r
    let diff := if k == 1 then (fFma fp32 rne false (flipSign fp32 next) 0x40000000 prev).1 else (fSub fp32 rne prev next).1
    (fMul fp32 rne diff (h.ratio rne (Dy.nat (2 * k)))).1 :: intTerms h (k + 1) c r

/-- The integral from lo, of length n + 1. -/
def seriesInt (lo hi : Nat) (cs : List Nat) : List Nat :=
  match cs with
  | [] => [flipSign fp32 0]
  | c0 :: r =>
    let t := intTerms (domWidth lo hi) 1 c0 (r ++ [0])
    let s := t.zipIdx.foldl (fun s p => if p.2 % 2 == 0 then (fSub fp32 rne s p.1).1 else (fAdd fp32 rne s p.1).1) 0
    flipSign fp32 s :: t

/-- d_(k−1) := RNE(d_(k+1) + 2k · c_k) for k from n − 1 down to 1, over c_1 onward: the list d_0, d_1, …. -/
def diffTerms : Nat → List Nat → List Nat
  | _, [] => []
  | k, c :: r =>
    let d := diffTerms (k + 1) r
    (fFma fp32 rne false (atD 0 1 d) (intToF fp32 rne (2 * k : Nat)).1 c).1 :: d

/-- The derivative, of length n − 1. -/
def seriesDiff (lo hi : Nat) (cs : List Nat) : List Nat :=
  match diffTerms 1 (cs.drop 1) with
  | [] => []
  | d0 :: r =>
    let q := fnQ lo hi
    let d0' := if finite32 d0 && d0 % 2 ^ 31 != 0 then ((dy d0).scale (-1)).round rne else d0
    (d0' :: r).map fun d => (fMul fp32 rne d q).1

/-- ⌊π · 2^192⌋. -/
def piFix : Nat := 19720096697726538562396133364228268891463450865190089732560

/-- Σ (−1)^k θ^(2k) / (2k)! at scale 2^192, from a term of index k on. -/
def cosTerms : Nat → Int → Int → Nat → Int
  | 0, _, _, _ => 0
  | n + 1, th2, term, k => term + cosTerms n th2 (-(term * th2 / (2 ^ 192 * ((2 * k + 1) * (2 * k + 2)) : Nat))) (k + 1)

/-- RNE FP32 of cos(π i / (2n)) for i ≤ n. -/
def cosCode (n i : Nat) : Nat :=
  if i == n then 0
  else
    let th : Int := (piFix * i / (2 * n) : Nat)
    (roundMag fp32 rne false (cosTerms 60 (th * th / (2 ^ 192 : Nat)) (2 ^ 192 : Nat) 0).toNat (-192) (i != 0)).1

/-- The node table of `n` nodes: the cosines of π i / (2n), i from 0 to n (R236). -/
def nodeTable (n : Nat) : Array Nat := ((List.range (n + 1)).map (cosCode n)).toArray

/-- The cosine of π a / (2n) from the table. -/
def nodeCos (t : Array Nat) (n a : Nat) : Nat :=
  let a := a % (4 * n)
  let neg (c : Nat) : Nat := if c == 0 then 0 else flipSign fp32 c
  if a ≤ n then t.getD a 0
  else if a ≤ 2 * n then neg (t.getD (2 * n - a) 0)
  else if a ≤ 3 * n then neg (t.getD (a - 2 * n) 0)
  else t.getD (4 * n - a) 0

/-- x_j = m + cos(π(j + ½)/n)/q, rounded once. -/
def nodeX (t : Array Nat) (n lo hi j : Nat) : Nat :=
  let m := fnMid lo hi
  let q := fnQ lo hi
  let c := nodeCos t n (2 * j + 1)
  if finite32 m && finite32 q && q != 0 then (((dy m).mul (dy q)).add (dy c)).ratio rne (dy q)
  else (fAdd fp32 rne m (fDiv fp32 rne c q).1).1

/-- The refit of samples at the nodes (R236). -/
def refit (t : Array Nat) (ys : List Nat) : List Nat :=
  let n := ys.length
  let c := (List.range n).map fun k =>
    let s := ys.zipIdx.foldl (fun s p => (fFma fp32 rne false s p.1 (nodeCos t n (k * (2 * p.2 + 1)))).1) 0
    if finite32 s && s % 2 ^ 31 != 0 then ((dy s).scale 1).ratio rne (Dy.nat n) else s
  updAt 0 (fun v => if finite32 v && v % 2 ^ 31 != 0 then ((dy v).scale (-1)).round rne else v) c

/-! ## Roots (R237, R238) -/

/-- The 65 points that split a domain. -/
def splitPoints (lo hi : Nat) : List Nat :=
  let w := ((domWidth lo hi).scale (-6)).round rne
  (List.range 65).map fun j => if j == 64 then hi else ((dy lo).add ((Dy.nat j).mul (dy w))).round rne

/-- The midpoint RNE((u + v)/2). -/
def midpoint (u v : Nat) : Nat := (((dy u).add (dy v)).scale (-1)).round rne

/-- Bisection between points whose values differ in sign, until they are adjacent; at most 400 halvings part two FP32
values. -/
def bisect (f : Nat → Nat) : Nat → Nat → Nat → Nat
  | 0, u, _ => u
  | k + 1, u, v =>
    if numKey fp32 v - numKey fp32 u ≤ 1 then
      if lt32 (abs32 (f v)) (abs32 (f u)) then v else u
    else
      let p := midpoint u v
      if fNeg fp32 (f u) != fNeg fp32 (f p) then bisect f k u p else bisect f k p v

/-- Whether a code is a zero of either sign. -/
def isZero32 (c : Nat) : Bool := c % 2 ^ 31 == 0

/-- The scan over points and values: the roots reported, in ascending order (R237). -/
def scanRoots (f : Nat → Nat) : List (Nat × Nat) → List Nat
  | [] => []
  | [p] => if isZero32 p.2 then [p.1] else []
  | p :: q :: r =>
    (if isZero32 p.2 then [p.1]
      else if !isZero32 q.2 && fNeg fp32 p.2 != fNeg fp32 q.2 then [bisect f 400 p.1 q.1]
      else []) ++ scanRoots f (q :: r)

/-- The points and values of FNROOT's search. -/
def rootPoints (lo hi : Nat) (cs : List Nat) : List (Nat × Nat) := (splitPoints lo hi).map fun x => (x, evalOn lo hi cs x)

/-- Whether a series changes sign among its points: two neighbours without a zero between them differ (R238). -/
def changesSign (ps : List (Nat × Nat)) : Bool :=
  let signs := (ps.filter fun p => !isZero32 p.2).map fun p => fNeg fp32 p.2
  signs.any id && signs.any not

/-- The mono status of a series of at least one coefficient (R238). -/
def monoOf (lo hi : Nat) (cs : List Nat) : Nat :=
  if cs.length ≤ 1 then 1
  else
    let g := seriesDiff lo hi cs
    let ps := rootPoints lo hi g
    if changesSign ps then 3
    else
      let ys := (ps.zip (ps.drop 1)).map fun p => evalOn lo hi g (midpoint p.1.1 p.2.1)
      let sum := g.zipIdx.foldl (fun (s : Dy) p => s.add ((Dy.nat (p.2 * p.2)).mul (dy p.1).abs)) ⟨0, 0⟩
      let lam := if g.all finite32 then (sum.scale 1).ratio rru (domWidth lo hi) else fInf fp32 false
      let w := ((domWidth lo hi).scale (-7)).round rru
      let bound := (fFma fp32 rru false (betaOf g) lam w).1
      if ys.all fun y => le32 bound y then 1
      else if ys.all fun y => le32 bound (flipSign fp32 y) then 2
      else 3

/-! ## Registers and granules (R67, R231, R335, R336) -/

/-- A function register of a thread. -/
def Thread.fr (t : Thread) (r : Reg) : FReg := Store.get FReg.empty t.freg r.toNat
/-- Granules of a length. -/
def granules (n : Nat) : Nat := (n + 15) / 16
/-- The granules all other registers of the thread hold. -/
def otherGranules (t : Thread) (d : Reg) : Nat :=
  t.freg.foldl (fun n e => if e.1 == d.toNat then n else n + granules e.2.coef.length) 0

/-- DOM with a function register in EINFO (R79). Of several that an instruction names, the one its check is about (DESIGN
CHOICE, log 74). -/
def domTrap {α : Type} (r : Reg) : M α := trap cDOM (r.setWidth 64)

/-- A source function register: DOM where it has no domain (R231). -/
def source32 (r : Reg) : M FReg := do
  let f ← see fun s => s.th.fr r
  if f.dom.isNone then domTrap r else pure f

/-- The granules of a result's working length, checked before anything changes (R336). -/
def needGranules (d : Reg) (wl : Nat) : M Unit := do
  let t ← see fun s => s.th
  need (otherGranules t d + granules wl ≤ t.coefQuota) cFNOV (BitVec.ofNat 64 (granules wl))

/-- A function register written. -/
def setFreg (d : Reg) (f : FReg) : M Unit := updT fun t => { t with freg := Store.put FReg.empty t.freg d.toNat f }

/-- A result: its domain, coefficients and bound, estimate and mono. -/
def mkFreg (dom : Option (Word × Word)) (p : List Nat × Nat) (est : Bool) (mono : BitVec 2) : FReg :=
  ⟨dom, p.1.map (BitVec.ofNat 32), BitVec.ofNat 32 p.2, est, mono⟩

/-- τ: tol, where a NaN or a negative value acts as +0 (R52). -/
def tolOf (s : State) : Nat :=
  let c := s.th.tol.toNat
  if (unpack fp32 c).isNan || fNeg fp32 c then 0 else c

/-- The domain a scalar gives (R234): both ends finite, lo < hi, else DOM of the destination. -/
def domainOf (d : Reg) (v : Dword) : M (Word × Word) := do
  let lo : Word := v.setWidth 32
  let hi : Word := v.extractLsb' 32 32
  if finite32 lo.toNat && finite32 hi.toNat && lt32 lo.toNat hi.toNat then pure (lo, hi) else domTrap d

/-- ILL unless vtype is FP32 (R234). -/
def needFp32 (w : Word) : M Unit := classIs w isFp32

/-- The FP32 elements of a register. -/
def samples (x : VReg) (n : Nat) : List Nat := (List.range n).map (elem x 32)

/-! ## The instructions -/

/-- FNSET (R234). Sets a function register from coefficients and a domain. -/
def execFnset (d : Reg) (a : Reg) (b : Reg) (s : State) : Out :=
  issueN .fnset (fmtR 0x71#7 d a b 0#4) (do
    let v ← rdKept b
    let vl ← see fun s => s.cur.vl.toNat
    need (vl ≤ 256) cILL (wordInfo (fmtR 0x71#7 d a b 0#4))
    let ph ← see fun s => phys s.th a 0
    unitOp (fmtR 0x71#7 d a b 0#4) [ph] [] none [] none (do
      let cs ← see fun s => samples (s.th.vr ph) vl
      let dom ← domainOf d v
      needGranules d vl
      setFreg d (mkFreg (some dom) (cs, 0) false 0)
      pure [])) s

/-- FNGET (R239). Writes a function register's contents to a vector. -/
def execFnget (d : Reg) (a : Reg) (s : State) : Out :=
  issueN .fnget (fmtR 0x71#7 d a 0#7 1#4) (do
    needFp32 (fmtR 0x71#7 d a 0#7 1#4)
    let f ← onLanded (source32 a)
    let ph ← see fun s => phys s.th d 0
    unitOp (fmtR 0x71#7 d a 0#7 1#4) [] [ph] none [] none (do
      let cs := f.codes
      let tail := [f.lo, f.hi, f.eps.toNat, sumAbs rne cs, f.beta]
      updT fun t => t.setVr ph
        (setElems (t.vr ph) 32 261 (fun _ => true) fun i => if i < 256 then atD 0 i cs else atD 0 (i - 256) tail)
      pure [])) s

/-- FNADD (R234). Adds two function registers. EINFO of DOM names `b` where the domains differ (DESIGN
CHOICE, log 74). -/
def execFnadd (d : Reg) (a : Reg) (b : Reg) (s : State) : Out :=
  issueN .fnadd (fmtR 0x71#7 d a b 2#4) (do
    unitOp (fmtR 0x71#7 d a b 2#4) [] [] none [] none (do
      let f ← source32 a
      let g ← source32 b
      if f.dom != g.dom then domTrap b else pure ()
      let n := max f.coef.length g.coef.length
      needGranules d n
      let tau ← see tolOf
      let cs := (List.range n).map fun k => (fAdd fp32 rne (atD 0 k f.codes) (atD 0 k g.codes)).1
      let eps := (fAdd fp32 rru f.eps.toNat g.eps.toNat).1
      setFreg d (mkFreg f.dom (adaptive tau (cs, eps)) (f.est || g.est) 0)
      pure [])) s

/-- FNMUL (R235). Multiplies two function registers. -/
def execFnmul (d : Reg) (a : Reg) (b : Reg) (s : State) : Out :=
  issueN .fnmul (fmtR 0x71#7 d a b 3#4) (do
    unitOp (fmtR 0x71#7 d a b 3#4) [] [] none [] none (do
      let f ← source32 a
      let g ← source32 b
      if f.dom != g.dom then domTrap b else pure ()
      let cs := seriesMul f.codes g.codes
      needGranules d (min cs.length 256)
      let tau ← see tolOf
      let sa := sumAbs rru f.codes
      let sb := sumAbs rru g.codes
      let ea := f.eps.toNat
      let eb := g.eps.toNat
      let eps := if [sa, sb, ea, eb].all finite32 then
          ((((dy ea).mul (dy sb)).add ((dy eb).mul (dy sa))).add ((dy ea).mul (dy eb))).round rru
        else (fFma fp32 rru false (fFma fp32 rru false (fMul fp32 rru ea sb).1 eb sa).1 ea eb).1
      setFreg d (mkFreg f.dom (adaptive tau (forced (cs, eps))) (f.est || g.est) 0)
      pure [])) s

/-- FNCOMP (R236). Composes two function registers by refitting. -/
def execFncomp (d : Reg) (a : Reg) (b : Reg) (s : State) : Out :=
  issueN .fncomp (fmtR 0x71#7 d a b 4#4) (do
    unitOp (fmtR 0x71#7 d a b 4#4) [] [] none [] none (do
      let f ← source32 a
      let g ← source32 b
      let c0 := dy (atD 0 0 g.codes)
      let rad := (g.codes.drop 1).foldl (fun (s : Dy) c => s.add (dy c).abs) (dy g.eps.toNat)
      let fin := g.codes.all finite32 && finite32 g.eps.toNat
      let inside := fin && le32 f.lo ((c0.add rad.neg).round rrd) && le32 ((c0.add rad).round rru) f.hi
      if !inside then domTrap a else pure ()
      needGranules d 256
      let tau ← see tolOf
      let t := nodeTable 256
      let ys := (List.range 256).map fun j => f.eval (g.eval (nodeX t 256 g.lo g.hi j))
      let l := sumAbs rru (seriesDiff f.lo f.hi f.codes)
      let eps := (fFma fp32 rru false f.eps.toNat l g.eps.toNat).1
      setFreg d (mkFreg g.dom (adaptive tau (refit t ys, eps)) true 0)
      pure [])) s

/-- FNINT (R234). Integrates a function register. -/
def execFnint (d : Reg) (a : Reg) (s : State) : Out :=
  issueN .fnint (fmtR 0x71#7 d a 0#7 5#4) (do
    unitOp (fmtR 0x71#7 d a 0#7 5#4) [] [] none [] none (do
      let f ← source32 a
      needGranules d (min (f.coef.length + 1) 256)
      let tau ← see tolOf
      let h := domWidth f.lo f.hi
      let e := f.eps.toNat
      let eps := if finite32 e then ((dy e).mul h).round rru else (fMul fp32 rru e (h.round rru)).1
      setFreg d (mkFreg f.dom (adaptive tau (forced (seriesInt f.lo f.hi f.codes, eps))) f.est 0)
      pure [])) s

/-- FNDIFF (R234). Differentiates a function register. -/
def execFndiff (d : Reg) (a : Reg) (s : State) : Out :=
  issueN .fndiff (fmtR 0x71#7 d a 0#7 6#4) (do
    unitOp (fmtR 0x71#7 d a 0#7 6#4) [] [] none [] none (do
      let f ← source32 a
      let n := f.coef.length
      needGranules d (n - 1)
      let e := f.eps.toNat
      let eps := if finite32 e then ((Dy.nat (4 * n * n)).mul (dy e)).ratio rru (domWidth f.lo f.hi) else e
      setFreg d (mkFreg f.dom (seriesDiff f.lo f.hi f.codes, eps) true 0)
      pure [])) s

/-- FNEVAL (R233). Evaluates a function register at vector points. -/
def execFneval (d : Reg) (a : Reg) (b : Reg) (s : State) : Out :=
  issueN .fneval (fmtR 0x71#7 d a b 7#4) (do
    needFp32 (fmtR 0x71#7 d a b 7#4)
    let f ← onLanded (source32 a)
    let u ← see fun s => s.th
    let (pd, pb) := (phys u d 0, phys u b 0)
    unitOp (fmtR 0x71#7 d a b 7#4) [pb] [pd] none [] none (do
      let s ← get
      let n := vcount s 32
      let x := s.th.vr pb
      let out (c : Nat) : Bool := !(unpack fp32 c).isNan && (lt32 c f.lo || lt32 f.hi c)
      updT fun t => (t.addDom (maskOf n fun i => out (elem x 32 i)) (a.setWidth 5)).setVr pd
        (setElems (t.vr pd) 32 n (fun _ => true) fun i =>
          let c := elem x 32 i
          if (unpack fp32 c).isNan then quieten fp32 c else if out c then canonNan fp32 else f.eval c)
      pure [])) s

/-- FNROOT (R237). Finds roots of a function register. -/
def execFnroot (d : Reg) (a : Reg) (b : Reg) (s : State) : Out :=
  issueN .fnroot (fmtR 0x71#7 d a b 8#4) (do
    needFp32 (fmtR 0x71#7 d a b 8#4)
    let f ← onLanded (source32 a)
    let roots := scanRoots f.eval (rootPoints f.lo f.hi f.codes)
    let ph ← see fun s => phys s.th d 0
    unitOp (fmtR 0x71#7 d a b 8#4) [] [ph] none [b] none (do
      updT fun t => t.setVr ph (setElems (t.vr ph) 32 roots.length (fun _ => true) fun i => atD 0 i roots)
      pure [BitVec.ofNat 64 roots.length])) s

/-- FNTRUNC (R232). Copies a function register with adaptive truncation. -/
def execFntrunc (d : Reg) (a : Reg) (s : State) : Out :=
  issueN .fntrunc (fmtR 0x71#7 d a 0#7 9#4) (do
    unitOp (fmtR 0x71#7 d a 0#7 9#4) [] [] none [] none (do
      let f ← source32 a
      needGranules d f.coef.length
      let tau ← see tolOf
      setFreg d (mkFreg f.dom (adaptive tau (f.codes, f.eps.toNat)) f.est 0)
      pure [])) s

/-- FNFIT (R236). Fits a series to samples at the nodes. -/
def execFnfit (d : Reg) (a : Reg) (b : Reg) (s : State) : Out :=
  issueN .fnfit (fmtR 0x71#7 d a b 0xa#4) (do
    let v ← rdKept b
    needFp32 (fmtR 0x71#7 d a b 0xa#4)
    let vl ← see fun s => s.cur.vl.toNat
    need (1 ≤ vl && vl ≤ 256) cILL (wordInfo (fmtR 0x71#7 d a b 0xa#4))
    let ph ← see fun s => phys s.th a 0
    unitOp (fmtR 0x71#7 d a b 0xa#4) [ph] [] none [] none (do
      let ys ← see fun s => samples (s.th.vr ph) vl
      let dom ← domainOf d v
      needGranules d vl
      let tau ← see tolOf
      setFreg d (mkFreg (some dom) (adaptive tau (refit (nodeTable vl) ys, 0)) true 0)
      pure [])) s

/-- FNMONO (R238). Determines a register's monotonicity status. -/
def execFnmono (d : Reg) (s : State) : Out :=
  issueN .fnmono (fmtR 0x71#7 d 0#7 0#7 0xb#4) (do
    unitOp (fmtR 0x71#7 d 0#7 0#7 0xb#4) [] [] none [] none (do
      let f ← source32 d
      if f.coef.isEmpty then domTrap d else pure ()
      setFreg d { f with mono := BitVec.ofNat 2 (monoOf f.lo f.hi f.codes) }
      pure [])) s

/-- FNINFO (R239). Writes a packed descriptor of a function register. -/
def execFninfo (d : Reg) (a : Reg) (s : State) : Out :=
  issueN .fninfo (fmtR 0x71#7 d a 0#7 0xc#4) (do
    unitOp (fmtR 0x71#7 d a 0#7 0xc#4) [] [] none [d] none (do
      let f ← source32 a
      let n := f.coef.length
      pure [BitVec.ofNat 64 (f.eps.toNat * 2 ^ 32 + granules n * 2 ^ 16 + (if f.dom.isSome then 2 ^ 12 else 0)
        + f.mono.toNat * 2 ^ 10 + (if f.est then 2 ^ 9 else 0) + n)])) s

/-- FNFREE (R234). Frees a function register's granules. -/
def execFnfree (d : Reg) (s : State) : Out :=
  issueN .fnfree (fmtR 0x71#7 d 0#7 0#7 0xd#4) (do
    unitOp (fmtR 0x71#7 d 0#7 0#7 0xd#4) [] [] none [] none (do
      setFreg d FReg.empty
      pure [])) s

/-- FNSCAL (R234). Scales a function register by a factor. -/
def execFnscal (d : Reg) (a : Reg) (b : Reg) (s : State) : Out :=
  issueN .fnscal (fmtR 0x71#7 d a b 0xe#4) (do
    let v ← rdKept b
    unitOp (fmtR 0x71#7 d a b 0xe#4) [] [] none [] none (do
      let f ← source32 a
      let k := v.toNat % 2 ^ 32
      if !finite32 k then domTrap a else pure ()
      needGranules d f.coef.length
      let tau ← see tolOf
      let cs := f.codes.map fun c => (fMul fp32 rne c k).1
      let eps := (fMul fp32 rru f.eps.toNat (abs32 k)).1
      let mono : BitVec 2 := if isZero32 k then 0
        else if fNeg fp32 k then (if f.mono == 1 then 2 else if f.mono == 2 then 1 else f.mono) else f.mono
      setFreg d (mkFreg f.dom (adaptive tau (cs, eps)) f.est mono)
      pure [])) s

end Sys2Proof.Machine
end

