-- ==== Sys2Proof/Machine/VecConv.lean ====
section
/-! DEFINITION. Vector conversions and scaling (06_vector, R161 to R165; 01_numbers, R33 to R38). -/

namespace Sys2Proof.Machine

/-! ## Conversions (R161, R162) -/

/-- A conversion of source width `sw` to destination width `w` (R161): ILL when vl exceeds the VLMAX of the wider. -/
def vcvt (word : Word) (d a : Reg) (w sw : Nat) (f : Bool → Rnd → Nat → FRes) : M Unit := do
  let vl ← see fun s => s.cur.vl.toNat
  need (vl ≤ 16384 / max w sw) cILL (wordInfo word)
  elementwiseAt word d [a] w sw 0 false fun s =>
    let x := vreg s a
    let sat := s.cur.fmode.getLsbD 6
    fun i => f sat (elemRnd s i) (elem x sw i)

/-- The value of block element `j` of an NI8 plane block: bit j of each plane, plane 0 the most significant, read as a
signed byte (R18, R19, R162). -/
def planeElem (x : VReg) (j : Nat) : Nat :=
  codeOf 32 (signedOf 8 ((List.range 8).foldl (fun acc k => 2 * acc + (if x.getLsbD (8 * (256 * k) + j) then 1 else 0)) 0))

/-! ## Scaled narrow codes (R163 to R165) -/

/-- The record of a tensor identifier of the issuing thread's partition (R73). -/
def tidRecord (s : State) (n : Nat) : Bytes := Store.get (List.replicate 32 0) (getPart s s.th.part).tids n

/-- Formats that VSCALE reads or writes: INT8, E4M3, E5M2, and FP16 and BF16 for VDEQ alone (R163). -/
def scaleFormat (wide : Bool) (f : Nat) : Bool :=
  f == 0x01 || f == 0x13 || f == 0x14 || (wide && (f == 0x11 || f == 0x12))

/-- The record VSCALE names with its scalar: ILL unless it is one R163 allows. -/
def scaleRecord (word : Word) (v : Dword) (wide : Bool) : M Bytes := do
  need (v.toNat < 256) cILL (wordInfo word)
  let r ← see fun s => tidRecord s v.toNat
  need (scaleFormat wide (tidFmt r) && (tidBlk r == 0 || tidBlk r == 5)) cILL (wordInfo word)
  pure r

/-- The FP32 value of a narrow code, exact, by tensor format (R33, R164). -/
def codeTo32 (f c : Nat) : Nat :=
  match f with
  | 0x01 => (intToF fp32 rne (signedOf 8 c)).1
  | 0x11 => narrowTo32 fp16 c
  | 0x12 => narrowTo32 bf16 c
  | 0x13 => narrowTo32 e4m3 c
  | _ => narrowTo32 e5m2 c

/-- An FP32 value times 2^k, rounded (R164). -/
def scale32 (r : Rnd) (c : Nat) (k : Int) : FRes :=
  match unpack fp32 c with
  | .fin n m x => if m == 0 then (c, 0) else roundMag fp32 r n m (x + k) false
  | _ => (c, 0)

/-- The block of element `i` (R163). -/
def scaleBlock (s : State) (r : Bytes) (i : Nat) : Nat := if tidBlk r == 5 then (s.cur.sbase.toNat % 32 + i) / 32 else 0

/-- An FP32 value times 2^(−X) converted to a narrow format by R37, or for INT8 by R38 saturating to ±127 (R165). -/
def quantize (f : Nat) (sat : Bool) (r : Rnd) (c : Nat) (x : Int) : FRes :=
  match unpack fp32 c with
  | .fin n m e =>
    if f == 0x01 then
      let q := roundInt r n m (e - x)
      let v := min q.1 127
      (if n then (256 - v) % 256 else v, if q.2 && q.1 ≤ 127 then 32 else 0)
    else
      let t := if f == 0x13 then e4m3 else e5m2
      if m == 0 then (signBit t n, 0)
      else
        let q := roundMag t r n m (e - x) false
        if q.2 / 16 % 2 == 1 then (if sat then fMax t n else fInf t n, 48) else q
  | _ => (0, 0)

/-- floor(log2) of the largest magnitude among FP32 codes; none where all are zero (R165). -/
def amaxLog : List Nat → Option Int
  | [] => none
  | c :: r =>
    match unpack fp32 c with
    | .fin _ m e =>
      if m == 0 then amaxLog r
      else
        let k : Int := (bitLen m : Int) - 1 + e
        match amaxLog r with
        | none => some k
        | some j => some (max j k)
    | _ => amaxLog r

/-- The scale byte and X of one block from its present elements (R165): none for an exceptional block. -/
def blockScale (f : Nat) (xs : List Nat) : Nat × Option Int :=
  if xs.any (fun c => c / 2 ^ 23 % 256 == 255) then (255, none)
  else
    match amaxLog xs with
    | none => (127, some 0)
    | some k =>
      let emax : Int := if f == 0x13 then 8 else if f == 0x14 then 15 else 6
      let x := max (-127) (min 127 (k - emax))
      ((x + 127).toNat, some x)

/-- VQNT (R165): the register after quantizing, and the fault bits. -/
def quantized (s : State) (tr : Bytes) (m : BitVec 1) (old x : VReg) : VReg × Mask :=
  let n := vcount s 32
  let f := tidFmt tr
  let sat := s.cur.fmode.getLsbD 6
  let here := (List.range n).filter (present s m)
  let blocks := if tidBlk tr == 5 then 17 else 1
  (List.range blocks).foldl (fun acc k =>
    let es := here.filter fun i => scaleBlock s tr i == k
    if es.isEmpty then acc
    else
      let sc := blockScale f (es.map fun i => elem x 32 i)
      let nan := if f == 0x01 then 0 else if f == 0x13 then canonNan e4m3 else canonNan e5m2
      let done := es.foldl (fun (a : VReg × Mask) i =>
        let q : FRes := match sc.2 with
          | none => (nan, 0)
          | some e => quantize f sat (elemRnd s i) (elem x 32 i) e
        let q := if sc.1 == 127 && (es.all fun j => elem x 32 j % 2 ^ 31 == 0) then (0, 0) else q
        (setElem a.1 8 i q.1, if faulty s q then a.2 ||| (BitVec.ofNat 2048 1 <<< i) else a.2)) acc
      (if tidBlk tr == 5 then setElem done.1 8 (0x600 + k) sc.1 else done.1, done.2)) (old, 0)

/-! ## The instructions -/

/-- VCVFH (R161). Converts FP16 to FP32. -/
def execVcvfh (d : Reg) (a : Reg) (s : State) : Out :=
  issueN .vcvfh (fmtR 0x59#7 d a 0#7 0#4) (vcvt (fmtR 0x59#7 d a 0#7 0#4) d a 32 16 (fun _ _ x => (narrowTo32 fp16 x, 0))) s

/-- VCVFB (R161). Converts BF16 to FP32. -/
def execVcvfb (d : Reg) (a : Reg) (s : State) : Out :=
  issueN .vcvfb (fmtR 0x59#7 d a 0#7 1#4) (vcvt (fmtR 0x59#7 d a 0#7 1#4) d a 32 16 (fun _ _ x => (narrowTo32 bf16 x, 0))) s

/-- VCVFE4 (R161). Converts E4M3 to FP32. -/
def execVcvfe4 (d : Reg) (a : Reg) (s : State) : Out :=
  issueN .vcvfe4 (fmtR 0x59#7 d a 0#7 2#4) (vcvt (fmtR 0x59#7 d a 0#7 2#4) d a 32 8 (fun _ _ x => (narrowTo32 e4m3 x, 0))) s

/-- VCVFE5 (R161). Converts E5M2 to FP32. -/
def execVcvfe5 (d : Reg) (a : Reg) (s : State) : Out :=
  issueN .vcvfe5 (fmtR 0x59#7 d a 0#7 3#4) (vcvt (fmtR 0x59#7 d a 0#7 3#4) d a 32 8 (fun _ _ x => (narrowTo32 e5m2 x, 0))) s

/-- VCVHF (R161). Converts FP32 to FP16. -/
def execVcvhf (d : Reg) (a : Reg) (s : State) : Out :=
  issueN .vcvhf (fmtR 0x59#7 d a 0#7 4#4) (vcvt (fmtR 0x59#7 d a 0#7 4#4) d a 16 32 (fun sat r x => f32ToNarrow fp16 r sat x)) s

/-- VCVBF (R161). Converts FP32 to BF16. -/
def execVcvbf (d : Reg) (a : Reg) (s : State) : Out :=
  issueN .vcvbf (fmtR 0x59#7 d a 0#7 5#4) (vcvt (fmtR 0x59#7 d a 0#7 5#4) d a 16 32 (fun sat r x => f32ToNarrow bf16 r sat x)) s

/-- VCVE4F (R37). Converts FP32 to E4M3 with overflow per SAT. -/
def execVcve4f (d : Reg) (a : Reg) (s : State) : Out :=
  issueN .vcve4f (fmtR 0x59#7 d a 0#7 6#4) (vcvt (fmtR 0x59#7 d a 0#7 6#4) d a 8 32 (fun sat r x => f32ToNarrow e4m3 r sat x)) s

/-- VCVE5F (R37). Converts FP32 to E5M2 with overflow per SAT. -/
def execVcve5f (d : Reg) (a : Reg) (s : State) : Out :=
  issueN .vcve5f (fmtR 0x59#7 d a 0#7 7#4) (vcvt (fmtR 0x59#7 d a 0#7 7#4) d a 8 32 (fun sat r x => f32ToNarrow e5m2 r sat x)) s

/-- VCVFI (R161). Converts INT32 to FP32. -/
def execVcvfi (d : Reg) (a : Reg) (s : State) : Out :=
  issueN .vcvfi (fmtR 0x59#7 d a 0#7 8#4) (vcvt (fmtR 0x59#7 d a 0#7 8#4) d a 32 32 (fun _ r x => intToF fp32 r (signedOf 32 x))) s

/-- VCVIF (R38). Converts FP32 to INT32 with saturation. -/
def execVcvif (d : Reg) (a : Reg) (s : State) : Out :=
  issueN .vcvif (fmtR 0x59#7 d a 0#7 9#4) (vcvt (fmtR 0x59#7 d a 0#7 9#4) d a 32 32 (fun _ r x => fToInt fp32 r 32 x)) s

/-- VCVDF (R161). Converts FP32 to FP64. -/
def execVcvdf (d : Reg) (a : Reg) (s : State) : Out :=
  issueN .vcvdf (fmtR 0x59#7 d a 0#7 0xa#4) (vcvt (fmtR 0x59#7 d a 0#7 0xa#4) d a 64 32 (fun _ _ x => (f32To64 x, 0))) s

/-- VCVFD (R35). Converts FP64 to FP32. -/
def execVcvfd (d : Reg) (a : Reg) (s : State) : Out :=
  issueN .vcvfd (fmtR 0x59#7 d a 0#7 0xb#4) (vcvt (fmtR 0x59#7 d a 0#7 0xb#4) d a 32 64 (fun _ r x => f64To32 r x)) s

/-- VCVIN (R162). Decodes NI8 planes of a block to INT32. -/
def execVcvin (d : Reg) (a : Reg) (s : State) : Out :=
  issueN .vcvin (fmtR 0x59#7 d a 0#7 0xc#4) (do
    let s ← get
    let j := s.cur.sbase.toNat % 2048
    need (s.cur.vl.toNat ≤ 512 && j + s.cur.vl.toNat ≤ 2048) cILL (wordInfo (fmtR 0x59#7 d a 0#7 0xc#4))
    wholeReg (fmtR 0x59#7 d a 0#7 0xc#4) d [a] [] (fun s =>
      let x := vreg s a
      (setElems (vreg s d) 32 (vcount s 32) (fun _ => true) fun i => planeElem x (j + i), 0))) s

/-- VCVCI (R161). Converts INT32 to INT8 with saturation. -/
def execVcvci (d : Reg) (a : Reg) (s : State) : Out :=
  issueN .vcvci (fmtR 0x59#7 d a 0#7 0xd#4) (vcvt (fmtR 0x59#7 d a 0#7 0xd#4) d a 8 32 (fun _ _ x => (codeOf 8 (max (-128) (min 127 (signedOf 32 x))), 0))) s

/-- VCVIC (R161). Converts INT8 to INT32. -/
def execVcvic (d : Reg) (a : Reg) (s : State) : Out :=
  issueN .vcvic (fmtR 0x59#7 d a 0#7 0xe#4) (vcvt (fmtR 0x59#7 d a 0#7 0xe#4) d a 32 8 (fun _ _ x => (codeOf 32 (signedOf 8 x), 0))) s

/-- VCVFC (R161). Converts INT8 to FP32. -/
def execVcvfc (d : Reg) (a : Reg) (s : State) : Out :=
  issueN .vcvfc (fmtR 0x59#7 d a 0#7 0xf#4) (vcvt (fmtR 0x59#7 d a 0#7 0xf#4) d a 32 8 (fun _ r x => intToF fp32 r (signedOf 8 x))) s

/-- VDEQ (R164). Dequantizes scaled narrow codes to FP32. -/
def execVdeq (d : Reg) (a : Reg) (b : Reg) (m : BitVec 1) (s : State) : Out :=
  issueN .vdeq (fmtR 0x5a#7 d a b (m ++ 0#3)) (do
    classIs (fmtR 0x5a#7 d a b (m ++ 0#3)) isFp32
    let v ← rdKept b
    let tr ← scaleRecord (fmtR 0x5a#7 d a b (m ++ 0#3)) v true
    let sw := 8 * fmtSize (tidFmt tr)
    elementwiseAt (fmtR 0x5a#7 d a b (m ++ 0#3)) d [a] 32 sw m (tidBlk tr == 5) (fun s =>
      let x := vreg s a
      fun i =>
        let e := if tidBlk tr == 5 then elem x 8 (0x600 + scaleBlock s tr i) else 127
        if e == 255 then (canonNan fp32, 0) else scale32 (elemRnd s i) (codeTo32 (tidFmt tr) (elem x sw i)) ((e : Int) - 127))) s

/-- VQNT (R165). Quantizes FP32 elements to scaled narrow codes. -/
def execVqnt (d : Reg) (a : Reg) (b : Reg) (m : BitVec 1) (s : State) : Out :=
  issueN .vqnt (fmtR 0x5a#7 d a b (m ++ 1#3)) (do
    classIs (fmtR 0x5a#7 d a b (m ++ 1#3)) isFp32
    let v ← rdKept b
    let tr ← scaleRecord (fmtR 0x5a#7 d a b (m ++ 1#3)) v false
    let t ← see fun s => s.th
    wholeReg (fmtR 0x5a#7 d a b (m ++ 1#3)) d [a] (governs t m) (fun s =>
      quantized s tr m (vreg s d) (vreg s a))) s

end Sys2Proof.Machine
end

