-- ==== Sys2Proof/Machine/Matrix.lean ====
section
/-! DEFINITION. The matrix engine (07_memory_engines, R211 to R216; 01_numbers, R40 to R43). -/

namespace Sys2Proof.Machine

/-! ## Tiles (R71, R211, R212) -/

/-- Code (k, n) of a tile; of NI8, the signed value c_p of its planes (R19). -/
def tileCode (t : Tile) (k n : Nat) : Nat :=
  let kk := tileK t.fmt t.planes
  if t.fmt == 0x20 then
    let i := n * kk + k
    (List.range t.planes).foldl (fun acc q =>
      acc + (if (atD 0 (q * (kk * 24) + i / 8) t.data).getLsbD (i % 8) then 2 ^ (7 - q) else 0)) 0
  else field t.data ((n * kk + k) * fmtSize t.fmt) (fmtSize t.fmt)

/-- The rows a tile format pairs with (R211). -/
def pairs (f vt : Nat) : Bool :=
  match f with
  | 0x13 | 0x14 => vt == 12 || vt == 13
  | 0x01 | 0x20 => vt == 0
  | 0x12 => vt == 9
  | 0x11 => vt == 8
  | _ => false

/-- A tile slot of a thread, and its fill in progress (R71, R279). -/
def Thread.tileSlot (t : Thread) (j : Nat) : Option Tile := if j == 0 then t.slot0 else t.slot1
def Thread.filling (t : Thread) (j : Nat) : Bool := if j == 0 then t.fill0 else t.fill1

/-! ## One lane (R40 to R43) -/

/-- The sticky flags a lane raises: 1 invalid, 2 overflow, 4 integer overflow (R216). -/
abbrev Lane := Nat × Nat

/-- The running exact sum of FP8 products at scale 2^−64: value, whether every term was −0, infinities met by sign, and
whether a product was NaN. -/
structure Exact where
  sum : Int
  negZero : Bool
  pinf : Bool
  ninf : Bool
  nan : Bool
  deriving DecidableEq, Repr

/-- One product joins the sum (R40, R41): an activation of ±0 contributes +0 whatever the weight is. -/
def Exact.add (e : Exact) (ta tw : Fmt) (a w : Nat) : Exact :=
  let x := unpack ta a
  let y := unpack tw w
  if x.isZero then { e with negZero := false }
  else
    let neg := fNeg ta a != fNeg tw w
    match x, y with
    | .nan _, _ => { e with nan := true, negZero := false }
    | _, .nan _ => { e with nan := true, negZero := false }
    | .inf _, _ =>
      if y.isZero then { e with nan := true, negZero := false }
      else if neg then { e with ninf := true, negZero := false } else { e with pinf := true, negZero := false }
    | _, .inf _ => if neg then { e with ninf := true, negZero := false } else { e with pinf := true, negZero := false }
    | .fin _ m1 x1, .fin _ m2 x2 =>
      if m2 == 0 then { e with negZero := e.negZero && neg }
      else
        let v : Int := ((m1 * m2 : Nat) : Int) * (2 ^ (x1 + x2 + 64).toNat : Nat)
        { e with sum := if neg then e.sum - v else e.sum + v, negZero := false }

/-- An FP8 lane (R41): the exact sum of the products and, unless overwriting, the accumulator, rounded once. -/
def laneExact (e : Exact) (acc : Option Nat) : Lane :=
  let accv := match acc with
    | some c => unpack fp32 c
    | none => .fin true 0 0
  let pinf := e.pinf || accv == .inf false
  let ninf := e.ninf || accv == .inf true
  if e.nan then (canonNan fp32, 1)
  else if accv.isNan then (canonNan fp32, if e.pinf && e.ninf then 1 else 0)
  else if pinf && ninf then (canonNan fp32, 1)
  else if pinf then (fInf fp32 false, 0)
  else if ninf then (fInf fp32 true, 0)
  else
    match accv with
    | .fin n m x =>
      let r := sumRound fp32 rne n m x (e.sum < 0 || (e.sum == 0 && e.negZero)) e.sum.natAbs (-64)
      (r.1, if r.2 / 16 % 2 == 1 then 2 else 0)
    | _ => (canonNan fp32, 0)

/-- An integer lane (R41): modulo 2^32, with the integer-overflow flag where the true sum leaves INT32. -/
def laneInt (s : Int) (acc : Option Nat) : Lane :=
  let v := s + (match acc with
    | some c => signedOf 32 c
    | none => 0)
  (codeOf 32 v, if -(2 ^ 31 : Int) ≤ v && v < 2 ^ 31 then 0 else 4)

/-- An FP32 result of the matrix engine: the canonical NaN for any NaN, with its flags (R43). -/
def matrixFp (r : FRes) (nanIn : Bool) : Lane :=
  let nan := (unpack fp32 r.1).isNan
  (if nan then canonNan fp32 else r.1, (if nan && !nanIn then 1 else 0) + (if r.2 / 16 % 2 == 1 then 2 else 0))

/-- One level of the pairwise tree over products, by K index (R42). -/
def pairLevel : List Lane → List Lane
  | x :: y :: r =>
    let nanIn := (unpack fp32 x.1).isNan || (unpack fp32 y.1).isNan
    let q := matrixFp (fAdd fp32 rne x.1 y.1) nanIn
    (q.1, q.2 ||| x.2 ||| y.2) :: pairLevel r
  | l => l

/-- A BF16 or FP16 lane (R42): 64 products rounded to FP32, summed pairwise, then added to the accumulator. -/
def lanePairs (t : Fmt) (ps : List (Nat × Nat)) (acc : Option Nat) : Lane :=
  let prods : List Lane := ps.map fun p =>
    if (unpack t p.1).isZero then (0, 0)
    else matrixFp (fMul fp32 rne (narrowTo32 t p.1) (narrowTo32 t p.2)) false
  let root := (List.range 6).foldl (fun l _ => pairLevel l) prods
  let r : Lane := atD (0, 0) 0 root
  match acc with
  | none => r
  | some c =>
    let nanIn := (unpack fp32 r.1).isNan || (unpack fp32 c).isNan
    let q := matrixFp (fAdd fp32 rne c r.1) nanIn
    (q.1, q.2 ||| r.2)

/-- Lane `n` of a row by a tile (R213): activations `act` by k. -/
def laneOf (t : Tile) (vt : Nat) (act : Nat → Nat) (n : Nat) (acc : Option Nat) : Lane :=
  let kk := tileK t.fmt t.planes
  if vt == 12 || vt == 13 then
    let tw := if t.fmt == 0x13 then e4m3 else e5m2
    laneExact ((List.range kk).foldl (fun (e : Exact) k => e.add (vfmt vt) tw (act k) (tileCode t k n)) ⟨0, true, false, false, false⟩) acc
  else if vt == 0 then
    laneInt ((List.range kk).foldl (fun s k => s + signedOf 8 (act k) * signedOf 8 (tileCode t k n)) 0) acc
  else lanePairs (vfmt vt) ((List.range kk).map fun k => (act k, tileCode t k n)) acc

/-! ## Rows (R70) -/

/-- Lane `n` of a row, and a row with a lane replaced. -/
def rowLane (r : AcsRow) (n : Nat) : Nat := (r.extractLsb' (32 * n) 32).toNat
def rowOf (ls : List Nat) : AcsRow := BitVec.ofNat 6144 (leNat (ls.flatMap (leBytes 4)))
/-- A row of the thread's reservation. -/
def Thread.row (t : Thread) (k : Nat) : AcsRow := Store.get 0 t.acs k
def Thread.setRow (t : Thread) (k : Nat) (r : AcsRow) : Thread := { t with acs := Store.put 0 t.acs k r }

/-- Rows of the issuing thread that queued MROWs still name. -/
def rowsBusy (s : State) (p : Nat → Bool) : Bool :=
  s.rowq.any fun j => j.lcore == s.th.lcore && j.slot == s.th.slot && p j.row

/-- Rows of the issuing thread that accumulator reads in flight name. -/
def rowsRead (s : State) (p : Nat → Bool) : Bool :=
  s.th.flying.any fun f => match f.eff.row with
    | some e => p e.1
    | none => false

/-- An MROW may issue: room in the core's row queue, no self-test due, and no sub-array awaiting its spare (R279, R419,
R420). -/
def matrixReady (s : State) : Bool :=
  let c := coreOfState s (engineCore s s.th.lcore)
  (s.rowq.filter fun j => engineCore s j.lcore == engineCore s s.th.lcore).length < 8 && !c.testDue && (c.fenced == 0 || c.spareUsed)

/-- How many of a row's 16 K-groups hold only zero activations (R213). -/
def zeroGroups (vt k : Nat) (act : Nat → Nat) : Nat :=
  let zero (x : Nat) : Bool := if isI vt then x == 0 else x % 2 ^ (vwidth vt - 1) == 0
  ((List.range 16).filter fun g => (List.range (k / 16)).all fun j => zero (act (g * (k / 16) + j))).length

/-- MROW (R213). -/
def matrixRow (word : Word) (d a b : Reg) (fresh : Bool) : M Unit := do
  let v ← rd d
  let s ← get
  need (v.toNat < s.th.acsSize) cPROT v
  match s.th.tileSlot b.toNat with
  | none => illWord word
  | some t => do
    need (pairs t.fmt s.cur.vtype.toNat) cILL (wordInfo word)
    if s.th.filling b.toNat || !matrixReady s || rowsRead s (fun r => r == v.toNat) then park .work else pure ()
    roomInFlight
    untouched [phys s.th a 0]
    sources [phys s.th a 0]
    let s ← get
    let vt := s.cur.vtype.toNat
    let x := vreg s a
    let w := vwidth vt
    let act (k : Nat) : Nat := elem x w k
    let row := s.th.row v.toNat
    let ls := (List.range 192).map fun n => laneOf t vt act n (if fresh then none else some (rowLane row n))
    let fl := ls.foldl (fun acc l => acc ||| l.2) 0
    let s := updCore s (engineCore s s.th.lcore) fun c =>
      { c with mrows := c.mrows + 1, testDue := (c.mrows + 1) % 2 ^ s.health.stlog == 0 }
    let job : RowJob := ⟨s.th.lcore, s.th.slot, v.toNat⟩
    let s := count s s.th 0x20E 1
    let s := if word.getLsbD 1 then s else count s s.th 0x20F (zeroGroups vt (tileK t.fmt t.planes) act)
    set ({ s with rowq := s.rowq ++ [job] } : State)
    updT fun t =>
      { t.setRow v.toNat (rowOf (ls.map fun l => l.1)) with
        minv := t.minv || fl % 2 == 1
        movf := t.movf || fl / 2 % 2 == 1
        miovf := t.miovf || fl / 4 % 2 == 1
        mseq := t.mseq + 1
        firstRow := match t.firstRow with
          | some n => some n
          | none => some (t.mseq + 1) }

/-- MACC and its forms (R214): a row's lanes into elements 0 to 191. -/
def matrixRead (word : Word) (d a : Reg) (cls : Nat → Bool) (w : Nat → Nat) (zero : Bool) (f : State → Nat → Nat → Nat → FRes) :
    M Unit := do
  classIs word cls
  let v ← rdKept a
  let s ← get
  need (v.toNat < s.th.acsSize) cPROT v
  unitOp word [] [phys s.th d 0] none [] (some (v.toNat, zero)) (do
    let s ← get
    let vt := s.cur.vtype.toNat
    let row := s.th.row v.toNat
    let rs := (List.range 192).map fun i => f s vt i (rowLane row i)
    updT fun t => (t.addFpx (maskOf 192 fun i => faulty s (atD (0, 0) i rs))).setVr (phys t d 0)
      (setElems (vreg s d) (w vt) 192 (fun _ => true) fun i => (atD (0, 0) i rs).1)
    pure [])

/-- MSTAT's value (R216). -/
def matrixStatus (t : Thread) : Dword :=
  BitVec.ofNat 64 (t.mseq % 2 ^ 32 * 2 ^ 32 + (if t.miovf then 4 else 0) + (if t.movf then 2 else 0) + (if t.minv then 1 else 0))

/-! ## The instructions -/

/-- MTILE (R212). Pops a tile FIFO head into a stationary slot; it waits, so it writes stat (R191). -/
def execMtile (d : Reg) (a : Reg) (b : Reg) (s : State) : Out :=
  issueN .mtile (fmtR 0x68#7 d a b 0#4) (do
    let v ← rd b
    need (v.toNat < 256) cILL (wordInfo (fmtR 0x68#7 d a b 0#4))
    roomInFlight
    let s ← get
    let q := if a == 0 then s.th.fifo0 else s.th.fifo1
    match q with
    | [] => park .tile
    | t :: r => do
      let tr := tidRecord s v.toNat
      need (tidFmt tr != 0 && tidFmt tr == t.fmt && tidPlanes tr == t.planes) cILL (wordInfo (fmtR 0x68#7 d a b 0#4))
      updT fun u => if a == 0 then { u with fifo0 := r } else { u with fifo1 := r }
      updT fun u => if d == 0 then { u with slot0 := some t, fill0 := true } else { u with slot1 := some t, fill1 := true }
      setStat 0) s

/-- MROW (R213). Multiplies an activation row by a slot's tile into an ACS row. -/
def execMrow (d : Reg) (a : Reg) (b : Reg) (k : BitVec 1) (j : BitVec 1) (s : State) : Out :=
  issueN .mrow (fmtR 0x69#7 d a b (0#2 ++ k ++ j)) (matrixRow (fmtR 0x69#7 d a b (0#2 ++ k ++ j)) d a b (j == 1)) s

/-- MACCF (R214). Reads an ACS row as FP32. -/
def execMaccf (d : Reg) (a : Reg) (s : State) : Out :=
  issueN .maccf (fmtR 0x6a#7 d a 0#7 0#4) (matrixRead (fmtR 0x6a#7 d a 0#7 0#4) d a (fun v => v == 8 || v == 9 || v == 10) vwidth false (fun s vt i x =>
    if vt == 10 then (x, 0) else f32ToNarrow (vfmt vt) (elemRnd s i) true x)) s

/-- MACC (R214). Reads an ACS row as INT32 with saturation. -/
def execMacc (d : Reg) (a : Reg) (s : State) : Out :=
  issueN .macc (fmtR 0x6a#7 d a 0#7 1#4) (matrixRead (fmtR 0x6a#7 d a 0#7 1#4) d a (fun v => v == 0 || v == 2 || v == 4) vwidth false (fun _ vt _ x =>
    (codeOf (vwidth vt) (max (-(2 ^ (vwidth vt - 1) : Nat)) (min ((2 ^ (vwidth vt - 1) : Nat) - 1) (signedOf 32 x))), 0))) s

/-- MACCZ (R214). Reads an ACS row raw and zeroes it. -/
def execMaccz (d : Reg) (a : Reg) (s : State) : Out :=
  issueN .maccz (fmtR 0x6a#7 d a 0#7 2#4) (matrixRead (fmtR 0x6a#7 d a 0#7 2#4) d a (fun _ => true) (fun _ => 32) true (fun _ _ _ x => (x, 0))) s

/-- MZERO (R215). Zeroes a range of ACS rows. -/
def execMzero (a : Reg) (b : Reg) (s : State) : Out :=
  issueN .mzero (fmtR 0x6b#7 0#7 a b 0#4) (do
    let r ← rd a
    let n ← rd b
    if n == 0 then pure ()
    else
      let s ← get
      let size := s.th.acsSize
      need (r.toNat + n.toNat ≤ size) cPROT (if size ≤ r.toNat then r else BitVec.ofNat 64 size)
      let p := fun k => decide (r.toNat ≤ k) && decide (k < r.toNat + n.toNat)
      if rowsBusy s p || rowsRead s p then park .work else pure ()
      updT fun t => (List.range n.toNat).foldl (fun t k => t.setRow (r.toNat + k) 0) t) s

/-- MSTAT (R216). Reads the matrix status. -/
def execMstat (d : Reg) (s : State) : Out :=
  issueN .mstat (fmtR 0x6c#7 d 0#7 0#7 0#4) (do
    let s ← get
    if rowsBusy s (fun _ => true) then park .work else pure ()
    wr d (matrixStatus s.th)) s

/-- MSTATC (R216). Reads the matrix status and clears its sticky flags. -/
def execMstatc (d : Reg) (s : State) : Out :=
  issueN .mstatc (fmtR 0x6c#7 d 0#7 0#7 1#4) (do
    let s ← get
    if rowsBusy s (fun _ => true) then park .work else pure ()
    wr d (matrixStatus s.th)
    updT fun t => { t with minv := false, movf := false, miovf := false }) s

end Sys2Proof.Machine
end

