-- ==== Sys2Proof/Machine/Race.lean ====
section
/-! DEFINITION. The bounded race (R68, R69, R219 to R230, R320 to R328). -/

namespace Sys2Proof.Machine

/-! ## The region and its entries (R69, R219, R326) -/

/-- The entry states of R69: 0 LIVE, 1 EXACT, 2 DROPPED, 3 EXCLUDED. -/
def Bound.kind (b : Bound) : Nat := b.st.toNat % 4

def nInf32 : Nat := 0xFF800000
def pInf32 : Nat := 0x7F800000
/-- The larger and the smaller of two FP32 values (R23). -/
def max32 (a b : Nat) : Nat := (fMinMax fp32 true a b).1
def min32 (a b : Nat) : Nat := (fMinMax fp32 false a b).1
def eq32 (a b : Nat) : Bool := (fCmp fp32 0 a b).1
def isNan32 (a : Nat) : Bool := (unpack fp32 a).isNan

/-- An entry of the region, and one replaced. -/
def Thread.entry (t : Thread) (e : Nat) : Bound := Store.get Bound.reset t.bound e
def Thread.setEntry (t : Thread) (e : Nat) (b : Bound) : Thread := { t with bound := Store.put Bound.reset t.bound e b }

/-- An entry out of the race: its score interval is (−∞, −∞) (R223). -/
def Bound.exclude (b : Bound) : Bound := { b with st := 3, slo := 0xFF800000, shi := 0xFF800000 }
/-- An exact entry (R224, R225). -/
def exactBound (s l : Nat) : Bound := ⟨1, BitVec.ofNat 32 s, BitVec.ofNat 32 s, BitVec.ofNat 32 l, BitVec.ofNat 32 l⟩

/-- The fields of mode (R68). -/
def Race.isOpen (r : Race) : Bool := r.mode.getLsbD 9
def Race.nnoise (r : Race) : Bool := r.mode.getLsbD 8
def Race.xform (r : Race) : Bool := r.mode.getLsbD 7
def Race.freg (r : Race) : Reg := BitVec.ofNat 7 (r.mode.toNat / 4 % 32)
def Race.thrOn (r : Race) : Bool := r.mode.toNat % 4 == 1

/-- NANS and DROPS of rstat counted up, saturating (R68). -/
def Race.addNan (r : Race) : Race :=
  if r.rstat.toNat / 2 ^ 32 % 2 ^ 24 == 2 ^ 24 - 1 then r else { r with rstat := r.rstat + 0x100000000 }
def Race.addDrop (r : Race) : Race := if r.rstat.toNat % 2 ^ 32 == 2 ^ 32 - 1 then r else { r with rstat := r.rstat + 1 }

/-- Whether every element's entry lies in the region: else PROT with the first index beyond it (R69, R219). -/
def inRegion : M Unit := do
  let s ← get
  let n := vcount s 32
  let e := s.cur.sbase.toNat
  need (n == 0 || e + n ≤ s.th.boundSize) cPROT (BitVec.ofNat 64 (max e s.th.boundSize))

/-- ILL while no race is open, as every earlier instruction leaves it (R219). -/
def needOpen (word : Word) : M Unit := do
  let r ← onLanded (see fun s => s.th.race)
  need r.isOpen cILL (wordInfo word)

/-- κ · l in FP64, exactly. -/
def kappaTimes (r : Race) (l : Nat) : Nat := (fMul fp64 rne (f32To64 r.kappa.toNat) (f32To64 l)).1

/-- best, bidx and wterm after an exact score at a global index (R224). -/
def Race.improve (r : Race) (s l : Nat) (j : Dword) : Race :=
  if lt32 r.best.toNat s || (eq32 s r.best.toNat && j.toNat < r.bidx.toNat) then
    { r with best := BitVec.ofNat 32 s, bidx := j, wterm := BitVec.ofNat 64 (kappaTimes r l) }
  else r

/-- bar, left, nlive and nexact after RCCUT or RCEXACT (R224, R225). -/
def Thread.recount (t : Thread) : Thread :=
  let es := (List.range t.boundSize).map t.entry
  let live := es.filter fun b => b.kind == 0
  { t with
    race :=
      { t.race with
        bar := BitVec.ofNat 32 (max32 t.race.bar.toNat t.race.best.toNat)
        left := BitVec.ofNat 32 (live.foldl (fun m b => max32 m b.shi.toNat) nInf32)
        nlive := BitVec.ofNat 32 live.length
        nexact := BitVec.ofNat 32 (es.filter fun b => b.kind == 1).length } }

/-- The transform of the race: DOM where its register has lost its domain (R231), then FnEval and beta. -/
def transform (r : Race) : M FReg := source32 r.freg

/-! ## RCSCORE, RCCUT, RCEXACT (R223 to R225) -/

/-- One element of RCSCORE on a LIVE entry: the race, the entry and the score interval written. -/
def scoreOne (r : Race) (f : Option FReg) (b : Bound) (u v noise : Nat) : Race × Bound × (Nat × Nat) :=
  if isNan32 u || isNan32 v then (r.addNan, b.exclude, (nInf32, nInf32))
  else
    let n := if r.nnoise then 0 else noise
    let u := match f with
      | some g => (fSub fp32 rrd (g.eval u) g.beta).1
      | none => u
    let v := match f with
      | some g => (fAdd fp32 rru (g.eval v) g.beta).1
      | none => v
    if r.thrOn && lt32 v r.thr.toNat then (r, b.exclude, (nInf32, nInf32))
    else
      let lo := max32 (fFma fp32 rrd false n r.kappa.toNat u).1 b.slo.toNat
      let hi := min32 (fFma fp32 rru false n r.kappa.toNat v).1 b.shi.toNat
      (r, ⟨0, BitVec.ofNat 32 lo, BitVec.ofNat 32 hi, BitVec.ofNat 32 (max32 u b.llo.toNat),
        BitVec.ofNat 32 (min32 v b.lhi.toNat)⟩, (lo, hi))

/-- Whether a transformed logit interval leaves the domain (R223). -/
def outOfDomain (f : Option FReg) (u v : Nat) : Bool :=
  match f with
  | some g => !(isNan32 u || isNan32 v) && (lt32 u g.lo || lt32 g.hi v)
  | none => false

/-- The transform's register where mode asks for one. -/
def transformOf (r : Race) : M (Option FReg) := if r.xform then do return some (← transform r) else pure none

/-- One step of the cut's exact pass (R224). -/
def cutExact (t : Thread) (e : Nat) (lo hi : Nat) : Thread :=
  let b := { t.entry e with slo := BitVec.ofNat 32 lo, shi := BitVec.ofNat 32 hi }
  if eq32 lo hi && eq32 b.llo.toNat b.lhi.toNat then
    let t := t.setEntry e { b with st := 1, shi := b.slo, lhi := b.llo }
    { t with
      race := { t.race.improve lo b.llo.toNat (t.race.base + BitVec.ofNat 64 e) with nexact := t.race.nexact + 1 } }
  else t.setEntry e b

/-! ## Terms (R226) -/

/-- An exponent above 1023, infinite ones among them (R230). -/
def exponentOver (x : Nat) : Bool := (fCmp fp64 4 x 0x408FF80000000000).1

/-- A finite FP64 value above 1023. -/
def above1023 (x : Nat) : Bool :=
  match unpack fp64 x with
  | .fin _ _ _ => exponentOver x
  | _ => false

/-- 2^(κl − A), both steps rounded one way, with +0 for a logit of −∞ and +∞ for one of +∞ whatever the anchor: none where
the exponent overflows. -/
def term (r : Race) (rnd : Rnd) (l : Nat) : Option Nat :=
  if l == nInf32 then some 0
  else if l == pInf32 then some (fInf fp64 false)
  else
    let x := (fSub fp64 rnd (kappaTimes r l) r.anchor.toNat).1
    if above1023 x then none else some (fExp2 fp64 rnd x).1

/-- The low, high and nearest terms of an entry: the nearest one counts for an EXACT or EXCLUDED entry only. -/
def Bound.terms (r : Race) (b : Bound) : Option (Nat × Nat × Nat) :=
  if b.kind == 3 then some (0, 0, 0)
  else do
    let lo ← term r rrd b.llo.toNat
    let hi ← term r rru (if b.kind == 1 then b.llo.toNat else b.lhi.toNat)
    let ne ← if b.kind == 1 then term r rne b.llo.toNat else some 0
    return (lo, hi, ne)

/-- LocalSums and LocalRNE over the entries from `e` on: low, high and nearest sums, and whether every entry is EXACT or
EXCLUDED; or the entry whose exponent overflows. -/
def localSums (r : Race) : List Bound → Nat → (Nat × Nat × Nat × Bool) → Except Nat (Nat × Nat × Nat × Bool)
  | [], _, acc => .ok acc
  | b :: bs, e, (lo, hi, ne, all) =>
    match b.terms r with
    | some (x, y, z) =>
      localSums r bs (e + 1)
        ((fAdd fp64 rrd lo x).1, (fAdd fp64 rru hi y).1, (fAdd fp64 rne ne z).1, all && b.kind % 2 == 1)
    | none => .error e

/-- RACEX with OVF set in the state before the instruction (R226, R230, R78). -/
def overflowTrap {α : Type} (s0 : State) (info : Dword) : M α := fun _ =>
  .error (.trapIn (s0.updTh fun t => { t with race := { t.race with rstat := t.race.rstat ||| 0x100000000000000 } })
    cRACEX info)

/-- The 32 bytes of a race record (R227, R328). -/
def raceRecord (r : Race) (tid : Nat) (x : Bool) (lo hi : Nat) : Bytes :=
  leBytes 4 r.best.toNat ++ leBytes 4 r.bidx.toNat ++ leBytes 4 r.left.toNat ++
    leBytes 4 (tid % 2 ^ 24 + (if x then 2 ^ 31 else 0)) ++ leBytes 8 lo ++ leBytes 8 hi

/-! ## Merging (R228) -/

/-- What a merge has found so far: best, index, left, low and high sums. -/
structure Merge where
  best : Nat
  bidx : Nat
  left : Nat
  lo : Nat
  hi : Nat
  deriving DecidableEq, Repr

/-- One record of a merge. -/
def Merge.add (m : Merge) (rec : Bytes) (allX : Bool) : Merge :=
  let rb := field rec 0 4
  let ri := field rec 4 4
  let m := if ri != 2 ^ 32 - 1 && !isNan32 rb && (lt32 m.best rb || (eq32 rb m.best && ri < m.bidx)) then
      { m with best := rb, bidx := ri } else m
  let m := { m with left := max32 m.left (field rec 8 4) }
  if allX then
    let lo := (fAdd fp64 rne m.lo (field rec 16 8)).1
    { m with lo := lo, hi := lo }
  else { m with lo := (fAdd fp64 rrd m.lo (field rec 16 8)).1, hi := (fAdd fp64 rru m.hi (field rec 24 8)).1 }

/-- The canonical NaN of FP64. -/
def dNan : Nat := canonNan fp64

/-- A zero of either sign in FP64. -/
def isZero64 (c : Nat) : Bool := c % 2 ^ 63 == 0
/-- The quotient of a term and a sum, +∞ where the sum is a zero of either sign (R230). -/
def ratio (rnd : Rnd) (n q : Nat) : Nat := if isZero64 q then fInf fp64 false else (fDiv fp64 rnd n q).1

/-- p_lo: +0 for a term that underflows (R332), also over a sum that does (log 76). -/
def pLow (term sum : Nat) : Nat := if isZero64 term then 0 else ratio rrd term sum

/-- Race register `n` as RCGET reads it (R221). -/
def Race.get (r : Race) (n : Nat) : Dword :=
  match n with
  | 0 => r.kappa.setWidth 64
  | 1 => r.key
  | 2 => r.base
  | 3 => r.mode
  | 4 => r.thr.setWidth 64
  | 5 => r.anchor
  | 6 => r.best.setWidth 64
  | 7 => r.bidx
  | 8 => r.bar.setWidth 64
  | 9 => r.left.setWidth 64
  | 10 => r.slo
  | 11 => r.shi
  | 12 => r.nlive.setWidth 64
  | 13 => r.nexact.setWidth 64
  | 14 => r.wterm
  | _ => r.rstat

/-- Race register `n` written (R221). -/
def Race.put (r : Race) (n : Nat) (v : Dword) : Race :=
  match n with
  | 0 => { r with kappa := v.setWidth 32 }
  | 1 => { r with key := v }
  | 2 => { r with base := v }
  | 3 => { r with mode := v }
  | 4 => { r with thr := v.setWidth 32 }
  | 5 => { r with anchor := v }
  | 6 => { r with best := v.setWidth 32 }
  | 7 => { r with bidx := v }
  | 8 => { r with bar := v.setWidth 32 }
  | 9 => { r with left := v.setWidth 32 }
  | 10 => { r with slo := v }
  | 11 => { r with shi := v }
  | 14 => { r with wterm := v }
  | 15 => { r with rstat := v }
  | _ => r

/-- A write that R221 and R68 allow. -/
def putAllowed (r : Race) (n : Nat) (v : Dword) : Bool :=
  n != 12 && n != 13 && !(n ≤ 3 && r.isOpen) && (n != 3 || (v.toNat < 2 ^ 9 && v.toNat % 4 ≤ 1)) &&
    (n != 15 || v.toNat < 2 ^ 57)

/-- The noise of a global index (R222). -/
def noiseOf (key j : Dword) : Nat :=
  let m := (nmx key j).toNat / 2 ^ 41
  let u := (roundMag fp32 rne false (2 * m + 1) (-24) false).1
  flipSign fp32 (fLog2 fp32 rne (flipSign fp32 (fLog2 fp32 rne u).1)).1

/-! ## The instructions -/

/-- RCOPEN (R220). Opens a race and resets its registers and region. -/
def execRcopen (a : Reg) (s : State) : Out :=
  issueN .rcopen (fmtR 0x70#7 0#7 a 0#7 0#4) (do
    let v ← rdKept a
    unitOp (fmtR 0x70#7 0#7 a 0#7 0#4) [] [] none [] none (do
      let t ← see fun s => s.th
      let n := v.toNat / 2 ^ 32 % 2 ^ 13
      let resv := v.toNat / 2 ^ 9 % 2 ^ 23 == 0 && v.toNat / 2 ^ 45 == 0
      need (resv && v.toNat % 4 ≤ 1 && n ≤ t.boundSize) cILL (wordInfo (fmtR 0x70#7 0#7 a 0#7 0#4))
      let f := BitVec.ofNat 7 (v.toNat / 4 % 32)
      if v.getLsbD 7 && ((t.fr f).mono != 1 || (t.fr f).dom.isNone) then domTrap f else pure ()
      let k := t.race.kappa.toNat
      need (finite32 k && !isZero32 k && !fNeg fp32 k) cRACEX (BitVec.allOnes 64)
      let r := { t.race with
        mode := BitVec.ofNat 64 (v.toNat % 512 + 512), best := 0xFF800000, bidx := BitVec.allOnes 64, bar := 0xFF800000
        left := if n == 0 then 0xFF800000 else 0x7F800000, slo := 0, shi := 0, nlive := BitVec.ofNat 32 n, nexact := 0
        wterm := BitVec.ofNat 64 dNan, rstat := 0 }
      let live : Bound := ⟨0, 0xFF800000, 0x7F800000, 0xFF800000, 0x7F800000⟩
      updT fun t => (List.range t.boundSize).foldl (fun t e =>
        t.setEntry e (if e < n then live else (t.entry e).exclude)) { t with race := r }
      pure [])) s

/-- RCNOISE (R222). Writes the Gumbel noise of each global index. -/
def execRcnoise (d : Reg) (s : State) : Out :=
  issueN .rcnoise (fmtR 0x70#7 d 0#7 0#7 1#4) (do
    needFp32 (fmtR 0x70#7 d 0#7 0#7 1#4)
    let ph ← see fun s => phys s.th d 0
    unitOp (fmtR 0x70#7 d 0#7 0#7 1#4) [] [ph] none [] none (do
      let s ← get
      let r := s.th.race
      updT fun t => t.setVr ph (setElems (t.vr ph) 32 (vcount s 32) (fun _ => true) fun i =>
        if r.nnoise then 0 else noiseOf r.key (r.base + s.cur.sbase + BitVec.ofNat 64 i))
      pure [])) s

/-- RCSCORE (R223). Turns logit intervals into score intervals for LIVE entries. -/
def execRcscore (d : Reg) (a : Reg) (s : State) : Out :=
  issueN .rcscore (fmtR 0x70#7 d a 0#7 2#4) (do
    needFp32 (fmtR 0x70#7 d a 0#7 2#4)
    needOpen (fmtR 0x70#7 d a 0#7 2#4)
    inRegion
    let t ← see fun s => s.th
    let (d0, d1, a0, a1) := (phys t d 0, phys t d 1, phys t a 0, phys t a 1)
    unitOp (fmtR 0x70#7 d a 0#7 2#4) [a0, a1, d0] [d0, d1] none [] none (do
      let s ← get
      let f ← transformOf s.th.race
      let n := vcount s 32
      let base := s.cur.sbase.toNat
      let us := samples (s.th.vr a0) n
      let vs := samples (s.th.vr a1) n
      let ns := samples (s.th.vr d0) n
      let bad := (List.range n).find? fun i =>
        (s.th.entry (base + i)).kind == 0 && outOfDomain f (atD 0 i us) (atD 0 i vs)
      match bad with
      | some i => trap cRACEX (BitVec.ofNat 64 (base + i))
      | none => pure ()
      let q := (List.range n).foldl (fun (acc : Thread × List (Nat × Nat)) i =>
        let b := acc.1.entry (base + i)
        if b.kind == 0 then
          let o := scoreOne acc.1.race f b (atD 0 i us) (atD 0 i vs) (atD 0 i ns)
          ({ acc.1.setEntry (base + i) o.2.1 with race := o.1 }, acc.2 ++ [o.2.2])
        else (acc.1, acc.2 ++ [if b.kind == 3 then (nInf32, nInf32) else (b.slo.toNat, b.shi.toNat)])) (s.th, [])
      updT fun _ => (q.1.setVr d0 (setElems (s.th.vr d0) 32 n (fun _ => true) fun i => (atD (0, 0) i q.2).1)).setVr d1
        (setElems (s.th.vr d1) 32 n (fun _ => true) fun i => (atD (0, 0) i q.2).2)
      pure [])) s

/-- RCCUT (R224). Settles exact entries, raises the bar and drops losers. -/
def execRccut (d : Reg) (a : Reg) (s : State) : Out :=
  issueN .rccut (fmtR 0x70#7 d a 0#7 3#4) (do
    needFp32 (fmtR 0x70#7 d a 0#7 3#4)
    needOpen (fmtR 0x70#7 d a 0#7 3#4)
    inRegion
    let t ← see fun s => s.th
    let (a0, a1) := (phys t a 0, phys t a 1)
    unitOp (fmtR 0x70#7 d a 0#7 3#4) [a0, a1] [] (some d) [] none (do
      let s ← get
      let n := vcount s 32
      let base := s.cur.sbase.toNat
      let live := (List.range n).filter fun i => (s.th.entry (base + i)).kind == 0
      let t := live.foldl (fun t i => cutExact t (base + i) (elem (s.th.vr a0) 32 i) (elem (s.th.vr a1) 32 i)) s.th
      let bar := max32 t.race.bar.toNat t.race.best.toNat
      let lost := live.filter fun i => (t.entry (base + i)).kind == 0 && lt32 (t.entry (base + i)).shi.toNat bar
      let t := lost.foldl (fun t i =>
        { t.setEntry (base + i) { t.entry (base + i) with st := 2 } with race := t.race.addDrop }) t
      updT fun _ => t.recount
      upd fun s => count (count s s.th 0x21B lost.length) s.th 0x21C (live.filter fun i => (t.entry (base + i)).kind == 1).length
      setPred d (maskOf n fun i => live.contains i && (t.entry (base + i)).kind == 0)
      pure [])) s

/-- RCEXACT (R225). Scores entries exactly from their logits. -/
def execRcexact (d : Reg) (a : Reg) (s : State) : Out :=
  issueN .rcexact (fmtR 0x70#7 d a 0#7 4#4) (do
    needFp32 (fmtR 0x70#7 d a 0#7 4#4)
    needOpen (fmtR 0x70#7 d a 0#7 4#4)
    inRegion
    let t ← see fun s => s.th
    let (a0, a1) := (phys t a 0, phys t a 1)
    unitOp (fmtR 0x70#7 d a 0#7 4#4) [a0, a1] [] (some d) [] none (do
      let s ← get
      let f ← transformOf s.th.race
      let n := vcount s 32
      let base := s.cur.sbase.toNat
      let open_ := (List.range n).filter fun i => (s.th.entry (base + i)).kind % 2 == 0
      let l0 := fun i => elem (s.th.vr a0) 32 i
      match open_.find? fun i => outOfDomain f (l0 i) (l0 i) with
      | some i => trap cRACEX (BitVec.ofNat 64 (base + i))
      | none => pure ()
      let step (acc : Thread × List Nat) (i : Nat) : Thread × List Nat :=
        let e := base + i
        let t := acc.1
        if isNan32 (l0 i) then ({ t.setEntry e (t.entry e).exclude with race := t.race.addNan }, acc.2)
        else
          let l := match f with
            | some g => g.eval (l0 i)
            | none => l0 i
          if t.race.thrOn && lt32 l t.race.thr.toNat then (t.setEntry e (t.entry e).exclude, acc.2)
          else
            let nz := if t.race.nnoise then 0 else elem (s.th.vr a1) 32 i
            let sc := (fFma fp32 rne false nz t.race.kappa.toNat l).1
            ({ t.setEntry e (exactBound sc l) with race := t.race.improve sc l (t.race.base + BitVec.ofNat 64 e) }, acc.2 ++ [i])
      let q := open_.foldl step (s.th, [])
      updT fun _ => q.1.recount
      upd fun s => count s s.th 0x21C q.2.length
      setPred d (maskOf n fun i => q.2.contains i)
      pure [])) s

/-- RCPOST (R227). Forms a race record and sends it as a remote store. -/
def execRcpost (a : Reg) (b : Reg) (s : State) : Out :=
  issueN .rcpost (fmtR 0x70#7 0#7 a b 5#4) (do
    let s0 ← get
    needOpen (fmtR 0x70#7 0#7 a b 5#4)
    let nm ← rd a
    let v ← rd b
    let name := nm.toNat % 2 ^ 32
    let spec := v.toNat % 2 ^ 28
    need (v.toNat / 2 ^ 28 % 16 == 0 && v.toNat / 2 ^ 33 == 0) cILL (wordInfo (fmtR 0x70#7 0#7 a b 5#4))
    need (name == 0 || (specWidth spec == 2 && specCount spec == 8 && specMailbox spec ≤ 7)) cILL (wordInfo (fmtR 0x70#7 0#7 a b 5#4))
    lanePass
    let t ← see fun s => s.th
    let r := t.race
    match localSums r ((List.range t.boundSize).map t.entry) 0 (0, 0, 0, true) with
    | .error e => overflowTrap s0 (BitVec.ofNat 64 e)
    | .ok (lo, hi, ne, all) =>
      let x := v.getLsbD 32 && all
      let (lo, hi) := if x then (ne, ne) else (lo, hi)
      updT fun t => { t with race := { r with slo := BitVec.ofNat 64 lo, shi := BitVec.ofNat 64 hi } }
      if name == 0 then pure ()
      else upd fun s => sendRStore s name spec (raceRecord r s.th.tid x lo hi) false) s

/-- RCMERGE (R228). Merges the race records held in a mailbox register. A record with a nonzero reserved bit, [30:24] of its
word 0x0C, takes ILL as the merge's other refusals do (DESIGN CHOICE: R8 lets no reserved field be ignored, and R228 names
no handling; log 72). -/
def execRcmerge (d : Reg) (s : State) : Out :=
  issueN .rcmerge (fmtR 0x70#7 d 0#7 0#7 6#4) (do
    needOpen (fmtR 0x70#7 d 0#7 0#7 6#4)
    let t ← see fun s => s.th
    let ph := phys t d 0
    let h := Store.get (⟨0, 0⟩ : Hold) t.hold ph
    need (isMailbox t ph && 1 ≤ h.count && h.count ≤ 64) cILL (wordInfo (fmtR 0x70#7 d 0#7 0#7 6#4))
    unitOp (fmtR 0x70#7 d 0#7 0#7 6#4) [ph] [] none [] none (do
      let t ← see fun s => s.th
      let rec_ (k : Nat) : Bytes := (List.range 32).map fun i => (t.vr ph).extractLsb' (8 * (32 * k + i)) 8
      let recs := (List.range h.count).map rec_
      need (recs.all fun b => field b 12 4 / 2 ^ 24 % 128 == 0) cILL (wordInfo (fmtR 0x70#7 d 0#7 0#7 6#4))
      let isX (b : Bytes) : Bool := field b 12 4 / 2 ^ 31 % 2 == 1
      let allX := recs.all isX
      let m := recs.foldl (fun m b => m.add b allX) (⟨nInf32, 2 ^ 64 - 1, nInf32, 0, 0⟩ : Merge)
      let m := if recs.any isX && !allX then { m with lo := 0, hi := fInf fp64 false } else m
      let r := t.race
      let same := m.best == r.best.toNat && m.bidx == r.bidx.toNat
      updT fun t =>
        { t with
          race :=
            { r with
              best := BitVec.ofNat 32 m.best, bidx := BitVec.ofNat 64 m.bidx, left := BitVec.ofNat 32 m.left
              slo := BitVec.ofNat 64 m.lo, shi := BitVec.ofNat 64 m.hi
              bar := BitVec.ofNat 32 (max32 r.bar.toNat m.best)
              wterm := if same then r.wterm else BitVec.ofNat 64 dNan } }
      pure [])) s

/-- RCBAR (R229). Raises the bar to a given score. -/
def execRcbar (a : Reg) (s : State) : Out :=
  issueN .rcbar (fmtR 0x70#7 0#7 a 0#7 7#4) (do
    needOpen (fmtR 0x70#7 0#7 a 0#7 7#4)
    let v ← rdKept a
    unitOp (fmtR 0x70#7 0#7 a 0#7 7#4) [] [] none [] none (do
      updT fun t => { t with race := { t.race with bar := BitVec.ofNat 32 (max32 t.race.bar.toNat (v.toNat % 2 ^ 32)) } }
      pure [])) s

/-- RCPROB (R230). Writes probability bounds and the exact probability of the winner. -/
def execRcprob (d : Reg) (s : State) : Out :=
  issueN .rcprob (fmtR 0x70#7 d 0#7 0#7 8#4) (do
    let s0 ← get
    needOpen (fmtR 0x70#7 d 0#7 0#7 8#4)
    unitOp (fmtR 0x70#7 d 0#7 0#7 8#4) [] [] none [d, d + 1, d + 2] none (do
      let r ← see fun s => s.th.race
      let x (rnd : Rnd) : Nat := (fSub fp64 rnd r.wterm.toNat r.anchor.toNat).1
      let put (lo hi ex : Nat) : M (List Dword) := pure [BitVec.ofNat 64 lo, BitVec.ofNat 64 hi, BitVec.ofNat 64 ex]
      if r.bidx == BitVec.allOnes 64 then put 0 0 dNan
      else if (unpack fp64 r.wterm.toNat).isNan then put 0 0x3FF0000000000000 dNan
      else if exponentOver (x rrd) || exponentOver (x rru) || exponentOver (x rne) then overflowTrap s0 (BitVec.allOnes 64)
      else
        let winner (rnd : Rnd) : Nat := (fExp2 fp64 rnd (x rnd)).1
        let lo := pLow (winner rrd) r.shi.toNat
        let hi := (fMinMax fp64 false 0x3FF0000000000000 (ratio rru (winner rru) r.slo.toNat)).1
        let exact := (fCmp fp64 0 r.slo.toNat r.shi.toNat).1 && r.left.toNat == nInf32
        put lo hi (if exact then ratio rne (winner rne) r.slo.toNat else dNan))) s

/-- RCGET (R221). Reads a race register. -/
def execRcget (d : Reg) (b : Reg) (s : State) : Out :=
  issueN .rcget (fmtR 0x70#7 d 0#7 b 9#4) (do
    unitOp (fmtR 0x70#7 d 0#7 b 9#4) [] [] none [d] none (do
      let r ← see fun s => s.th.race
      pure [r.get b.toNat])) s

/-- RCPUT (R221). Writes a race register. -/
def execRcput (a : Reg) (b : Reg) (s : State) : Out :=
  issueN .rcput (fmtR 0x70#7 0#7 a b 0xa#4) (do
    let v ← rdKept a
    unitOp (fmtR 0x70#7 0#7 a b 0xa#4) [] [] none [] none (do
      let r ← see fun s => s.th.race
      need (putAllowed r b.toNat v) cILL (wordInfo (fmtR 0x70#7 0#7 a b 0xa#4))
      updT fun t => { t with race := t.race.put b.toNat v }
      pure [])) s

/-- RCCLOSE (R229). Closes the open race. -/
def execRcclose (s : State) : Out :=
  issueN .rcclose (fmtR 0x70#7 0#7 0#7 0#7 0xb#4) (do
    needOpen (fmtR 0x70#7 0#7 0#7 0#7 0xb#4)
    unitOp (fmtR 0x70#7 0#7 0#7 0#7 0xb#4) [] [] none [] none (do
      updT fun t => { t with race := { t.race with mode := t.race.mode &&& ~~~0x200#64 } }
      pure [])) s

end Sys2Proof.Machine
end

