-- ==== Sys2Proof/Machine/Image.lean ====
section
/-! DEFINITION. The context image (18_launch_contexts, R379 to R382): a stopped thread as bytes, and a thread from
bytes. Where a row of R380 or R381 names several contents without their offsets, the order here is the model's own
(log 30). -/

namespace Sys2Proof.Machine

/-- A list of bytes cut or filled with zeros to a length. -/
def padTo (n : Nat) (bs : Bytes) : Bytes := bs.take n ++ List.replicate (n - bs.length) 0

/-- The 8 bytes of a value. -/
def dw (v : Dword) : Bytes := leBytes 8 v.toNat
/-- An 8-byte value at an offset. -/
def dwAt (b : Bytes) (o : Nat) : Dword := BitVec.ofNat 64 (field b o 8)
/-- A Boolean as 0 or 1. -/
def bit01 (b : Bool) : Nat := if b then 1 else 0

/-- The bytes of a wide value, and back. -/
def wideBytes {w : Nat} (n : Nat) (v : BitVec w) : Bytes := leBytes n v.toNat

/-! ## Stream blocks (R381) -/

/-- The masks STSTEP and STFLG have pending, by flight and kind; none where not set. -/
def pendAt (p : StairPend) (f : Nat) (last : Bool) : Option (BitVec 64) :=
  (p.masks.find? fun m => m.1 == (f, last)).map fun m => m.2

/-- The loop context at 0x388: flags ([0] open, [1] D, [2] I), body PC, strip, done. -/
def loopBytes (l : Option LoopCtx) : Bytes :=
  match l with
  | none => List.replicate 32 0
  | some l => leBytes 8 (1 + 2 * bit01 l.dflag + 4 * bit01 l.iflag) ++ dw l.body ++ dw l.strip ++ dw l.done
def loopOf (b : Bytes) : Option LoopCtx :=
  if field b 0 8 % 2 == 0 then none
  else some ⟨dwAt b 8, dwAt b 16, dwAt b 24, field b 0 8 / 2 % 2 == 1, field b 0 8 / 4 % 2 == 1, none⟩

/-- The stair at 0x430 to 0x6FF: 464 bytes up to the buffer, then 256 bytes of buffer. -/
def stairBytes (pc : Dword) (t : Option Stair) (p : StairPend) : Bytes :=
  let pend := padTo 8 (leBytes 1 p.stepped.length ++ p.stepped.map fun r => r.setWidth 8) ++
    leBytes 8 ((List.range 12).foldl (fun v j => v + bit01 (pendAt p (j / 2) (j % 2 == 1)).isSome * 2 ^ j) 0) ++
    (List.range 12).flatMap fun j => dw ((pendAt p (j / 2) (j % 2 == 1)).getD 0)
  match t with
  | none => List.replicate 0x130 0 ++ padTo 0xA0 pend ++ List.replicate 0x100 0
  | some t =>
    leBytes 2 1 ++ leBytes 2 t.flights.length ++ leBytes 2 t.words.length ++ leBytes 2 ((pc - t.start).toNat / 4 % 65536) ++
      padTo 0x30 (t.flights.flatMap fun f => leBytes 4 f.count ++ leBytes 4 f.index) ++
      padTo 8 (leBytes 1 t.stepped.length ++ t.stepped.map fun r => r.setWidth 8) ++
      padTo 0x90 (t.strides.flatMap dw) ++ padTo 0x60 (t.flights.flatMap fun f => dw f.first ++ dw f.last) ++
      padTo 0x98 pend ++ dw t.start ++ padTo 0x100 (t.words.flatMap fun w => leBytes 4 w.toNat)

/-- A stair from the bytes at 0x430. -/
def stairOf (b : Bytes) : Option Stair :=
  if field b 0 2 == 0 then none
  else
    let n := min 6 (field b 2 2)
    let m := field b 0x38 1
    some ⟨dwAt b 0x1C8, (List.range (min 64 (field b 4 2))).map fun j => BitVec.ofNat 32 (field b (0x1D0 + 4 * j) 4),
      (List.range n).map fun j => ⟨field b (8 + 8 * j) 4, field b (12 + 8 * j) 4, dwAt b (0xD0 + 16 * j), dwAt b (0xD8 + 16 * j)⟩,
      (List.range m).map fun j => BitVec.ofNat 7 (field b (0x39 + j) 1), (List.range (n * m)).map fun j => dwAt b (0x40 + 8 * j)⟩

/-- The pending configuration from the bytes at 0x560. -/
def pendOf (b : Bytes) : StairPend :=
  ⟨(List.range (field b 0 1)).map fun j => BitVec.ofNat 7 (field b (1 + j) 1),
    ((List.range 12).filter fun j => field b 8 8 / 2 ^ j % 2 == 1).map fun j => ((j / 2, j % 2 == 1), dwAt b (16 + 8 * j))⟩

/-- The counts of GSTAT as the X stream's block holds them. -/
def countBytes (t : Thread) : Bytes := leBytes 4 t.gout ++ leBytes 4 t.gcause ++ leBytes 4 t.gok ++ leBytes 4 t.gnack

/-- One stream's block of 0x800 bytes; tol and the counts of GSTAT stand in the X stream's, and in the A stream's whether a
BWAIT's deadline stands. -/
def streamBytes (t : Thread) (x : Bool) (c : Stream) : Bytes :=
  padTo 0x800 (dw c.pc ++ ((List.range 103).flatMap fun j => dw (Store.get 0 c.gpr (j + 1))) ++
    dw c.vl ++ dw c.ftrim ++ dw c.sbase ++ dw c.seed ++ dw c.stat ++ leBytes 8 (if x then t.tol.toNat else 0) ++
    leBytes 8 c.fmode.toNat ++ leBytes 8 c.vtype.toNat ++ dw c.arm ++ loopBytes c.loop ++
    leBytes 8 (c.link.length + c.spill * 256) ++ padTo 0x80 (c.link.flatMap dw) ++ stairBytes c.pc c.stair c.pend ++
    dw c.cause ++ dw c.epc ++ dw c.einfo ++ dw (c.deadline.getD 0) ++
    if x then countBytes t else leBytes 4 (bit01 c.deadline.isSome))

/-- A stream from its block: what the block does not hold stays as it was, a BWAIT that a BDISS has ended among it, if the
stream still stands at it. An fmode is taken as it stands: one with a rounding code of 5 to 7 fails `fmodeOk` before (DESIGN
CHOICE, log 72). -/
def streamOf (c : Stream) (x : Bool) (b : Bytes) : Stream :=
  { c with
    pc := dwAt b 0
    gpr := (List.range 103).foldl (fun g j => Store.put 0 g (j + 1) (dwAt b (8 + 8 * j))) []
    vl := dwAt b 0x340
    ftrim := dwAt b 0x348
    sbase := dwAt b 0x350
    seed := dwAt b 0x358
    stat := dwAt b 0x360
    fmode := BitVec.ofNat 7 (field b 0x370 8)
    vtype := BitVec.ofNat 4 (field b 0x378 8)
    arm := dwAt b 0x380
    loop := loopOf ((b.drop 0x388).take 32)
    link := (List.range (min 16 (field b 0x3A8 8 % 32))).map fun j => dwAt b (0x3B0 + 8 * j)
    spill := field b 0x3A8 8 / 256 % 256
    stair := stairOf ((b.drop 0x430).take 0x2D0)
    pend := pendOf ((b.drop 0x560).take 0x78)
    cause := dwAt b 0x700
    epc := dwAt b 0x708
    einfo := dwAt b 0x710
    deadline := if x || field b 0x720 4 % 2 == 0 then none else some (dwAt b 0x718)
    park := none
    exiting := false
    object := none
    freed := c.freed.filter fun f => f.1 == dwAt b 0
    ibuf := []
    popped := [] }

/-! ## The tree register at 0x1E80 (R47, R380) -/

/-- The pending root of a level, if any. -/
def treeNode (t : Tree) (lev : Nat) : Option TreeNode := t.nodes.find? fun n => n.lev == lev

/-- Chunk partials of levels 8 to 39, element partials of levels 0 to 7, then precision ([0] FP64, [1] in use), the next
index, which levels hold a root, and the root of the spans of 2^40 indices already whole. -/
def treeBytes (t : Tree) : Bytes :=
  let code (lev : Nat) : Nat := match treeNode t lev with
    | some n => n.code
    | none => 0
  padTo 0x180 (((List.range 32).flatMap fun k => leBytes 8 (code (k + 8))) ++ ((List.range 8).flatMap fun k => leBytes 8 (code k)) ++
    leBytes 8 (bit01 t.wide + 2 * bit01 t.live) ++ leBytes 8 t.next ++
    leBytes 8 ((List.range 41).foldl (fun v k => v + bit01 (treeNode t k).isSome * 2 ^ k) 0) ++ leBytes 8 (code 40))

/-- The tree from its bytes; the lowest present index of a root the thread already held is kept. -/
def treeOf (old : Tree) (b : Bytes) : Tree :=
  let next := field b 0x148 8
  let mask := field b 0x150 8
  ⟨field b 0x140 8 / 2 % 2 == 1, field b 0x140 8 % 2 == 1, next,
    ((List.range 41).reverse.filter fun k => mask / 2 ^ k % 2 == 1).map fun k =>
      let j := next / 2 ^ k - 1
      let code := if k == 40 then field b 0x158 8 else if 8 ≤ k then field b (8 * (k - 8)) 8 else field b (0x100 + 8 * k) 8
      match treeNode old k with
      | some n => if n.j == j || k == 40 then { n with code := code } else ⟨k, j, code, j * 2 ^ k⟩
      | none => ⟨k, j, code, j * 2 ^ k⟩⟩

/-! ## The other blocks of the fixed part (R380) -/

/-- Race registers 0 to 15, and back. -/
def raceBytes (r : Race) : Bytes := (List.range 16).flatMap fun n => dw (r.get n)
def raceOf (b : Bytes) : Race :=
  let r := (List.range 16).foldl (fun (r : Race) n => r.put n (dwAt b (8 * n))) Race.reset
  { r with nlive := BitVec.ofNat 32 (field b 0x60 4), nexact := BitVec.ofNat 32 (field b 0x68 4) }

/-- MSTAT's word (R216). -/
def mstatWord (t : Thread) : Nat := bit01 t.minv + 2 * bit01 t.movf + 4 * bit01 t.miovf + t.mseq % 2 ^ 32 * 2 ^ 32

/-- The six tile places: FIFO 0, FIFO 1, slots 0 and 1. -/
def tilePlaces (t : Thread) : List (Option Tile) :=
  [t.fifo0[0]?, t.fifo0[1]?, t.fifo1[0]?, t.fifo1[1]?, t.slot0, t.slot1]

/-- The block at 0x8100: DOM register, flags ([0] named, [1] MULTI), governing predicate, window base, segment base and
size, MSTAT, then format and planes of each tile place with a presence byte. -/
def modalBytes (t : Thread) : Bytes :=
  padTo 0x100 (leBytes 1 (match t.dom with
      | some f => f.toNat
      | none => 0) ++ leBytes 1 (bit01 t.dom.isSome + 2 * bit01 t.multi) ++ leBytes 1 t.gpred.toNat ++ leBytes 1 t.wbase ++
    leBytes 2 t.segBase ++ leBytes 2 t.segSize ++ leBytes 8 (mstatWord t) ++
    (tilePlaces t).flatMap fun p => match p with
      | some q => leBytes 1 1 ++ leBytes 1 q.fmt ++ leBytes 1 q.planes ++ leBytes 1 0
      | none => leBytes 4 0)

/-- The resume table at 0x8200 (R64, R380). -/
def resumeBytes (l : List Resume) : Bytes :=
  padTo 0x100 ((l.take 8).flatMap fun r =>
    dw r.pc ++ leBytes 2 r.start ++ leBytes 1 r.fmode.toNat ++ leBytes 1 r.wbase ++ leBytes 1 r.gpred.toNat ++ leBytes 3 0)
def resumeOf (old : List Resume) (x : Stream) (b : Bytes) : List Resume :=
  ((List.range 8).map fun k =>
    let pc := dwAt b (16 * k)
    let same := match old[k]? with
      | some r => if r.pc == pc then some r else none
      | none => none
    ⟨pc, field b (16 * k + 8) 2, BitVec.ofNat 7 (field b (16 * k + 10) 1), field b (16 * k + 11) 1,
      BitVec.ofNat 7 (field b (16 * k + 12) 1), (same.map fun r => r.x).getD x, same.bind fun r => r.waits⟩).takeWhile fun r => r.pc != 0

/-- The stream descriptors at 0x8300: per stream the bound register plus one, the chunks held and the end flag, then per
chunk its count and flags ([0] end, [1] trim, [2] whole). -/
def vstreamBytes (t : Thread) : Bytes :=
  padTo 0x100 ((List.range 12).flatMap fun j =>
    let v := t.vstream j
    let ph := match t.bind.find? fun e => e.2 == j with
      | some e => e.1 + 1
      | none => 0
    leBytes 2 ph ++ leBytes 1 v.chunks.length ++ leBytes 1 (bit01 v.held) ++
      padTo 8 (v.chunks.flatMap fun c => leBytes 2 c.count) ++
      padTo 4 (v.chunks.flatMap fun c => leBytes 1 (bit01 c.fin + 2 * bit01 c.trim + 4 * bit01 c.whole)) ++ leBytes 4 0)

/-- Mailboxes and holds at 0x8400: the register plus one of each index, then the registers with a hold counter. -/
def mailBytes (t : Thread) : Bytes :=
  padTo 0x100 (((List.range 8).flatMap fun k => leBytes 2 (if Store.has t.mbox k then Store.get 0 t.mbox k + 1 else 0)) ++
    leBytes 4 t.hold.length ++ t.hold.flatMap fun h => leBytes 2 h.1 ++ leBytes 1 h.2.count ++ leBytes 1 h.2.left)

/-- A function register's descriptor (16 bytes, R67, R380). -/
def fregBytes (f : FReg) : Bytes :=
  leBytes 4 f.lo ++ leBytes 4 f.hi ++ leBytes 4 f.eps.toNat ++
    leBytes 4 (f.coef.length + bit01 f.est * 2 ^ 9 + f.mono.toNat * 2 ^ 10 + bit01 f.dom.isSome * 2 ^ 12)

/-- The outstanding copies at 0x8700: descriptor and progress (elements moved, and in all), with a presence byte. -/
def copiesBytes (l : List Copy) : Bytes :=
  padTo 0x500 ((l.take 16).flatMap fun c => padTo 64 c.desc ++ leBytes 8 c.moved ++ leBytes 7 c.total ++ leBytes 1 1)

/-! ## The variable sections (R382) -/

/-- The seven sections, in order. -/
def imageSections (s : State) (t : Thread) : List Bytes :=
  [(List.range t.segSize).flatMap fun r => wideBytes 2048 (t.vr r),
    (List.range 12).flatMap fun j => (t.vstream j).chunks.flatMap fun c => wideBytes 2048 c.data,
    (List.range 32).flatMap fun k => (Store.get FReg.empty t.freg k).coef.flatMap fun c => leBytes 4 c.toNat,
    (List.range t.boundSize).flatMap (fun e =>
      let b := t.entry e
      leBytes 4 b.slo.toNat ++ leBytes 4 b.shi.toNat ++ leBytes 4 b.llo.toNat ++ leBytes 4 b.lhi.toNat) ++
      (List.range t.boundSize).map fun e => (t.entry e).st,
    (List.range t.acsSize).flatMap fun r => wideBytes 768 (Store.get 0 t.acs r),
    if (tilePlaces t).all Option.isNone then []
    else (tilePlaces t).flatMap fun p => match p with
      | some q => padTo 24576 q.data
      | none => List.replicate 24576 0,
    readBytes s (alcoveAt t.lcore t.alcBase) t.alcSize]

/-- The directory of sections from an offset on: offset and length of each, an empty one at 0 (R382). -/
def directory : Nat → List Bytes → Bytes
  | _, [] => []
  | o, x :: r =>
    if x.isEmpty then leBytes 8 0 ++ directory o r
    else leBytes 4 o ++ leBytes 4 x.length ++ directory (o + (x.length + 4095) / 4096 * 4096) r

/-- A section up to the next 4 KiB boundary. -/
def padPage (x : Bytes) : Bytes := padTo ((x.length + 4095) / 4096 * 4096) x

/-- The image of a stopped thread (R380 to R382). -/
def image (s : State) (t : Thread) (reason : Nat) : Bytes :=
  let secs := imageSections s t
  let size := 0x9000 + (secs.map fun x => (padPage x).length).sum
  let queue (n cap : Nat) : Bytes := padTo (8 * cap) ((t.queue n).flatMap dw)
  let bits (n : Nat) : Nat := ((t.queue n).zipIdx).foldl (fun v e => v + e.1.toNat % 2 * 2 ^ e.2) 0
  List.flatten [
    padTo 0x90 (leBytes 4 1 ++ leBytes 4 (size / 4096) ++ leBytes 4 t.tid ++ leBytes 1 reason ++
      leBytes 1 t.a.priv.toNat ++ leBytes 2 0 ++ dw t.savedClock ++ leBytes 8 t.consumed),
    padTo 0x70 (directory 0x9000 secs), streamBytes t false t.a, streamBytes t true t.x,
    (List.range 32).flatMap fun k => dw (Store.get 0 t.areg k), (List.range 32).flatMap fun k => dw (Store.get 0 t.stride k),
    padTo 0x40 (leBytes 8 t.scope.toNat), padTo 0x40 ((List.range 14).flatMap fun k => leBytes 2 (t.queue (104 + k)).length),
    padTo 0x80 (leBytes 8 (bits 116) ++ leBytes 8 (bits 117)),
    (List.range 8).flatMap fun k => queue (104 + k) 32, (List.range 4).flatMap fun k => queue (112 + k) 16,
    raceBytes t.race, treeBytes t.tree, (List.range 96).flatMap fun k => wideBytes 256 (predVal t k),
    wideBytes 256 t.fmask, modalBytes t, resumeBytes t.resume, vstreamBytes t, mailBytes t,
    (List.range 32).flatMap fun k => fregBytes (Store.get FReg.empty t.freg k), copiesBytes t.copies,
    wideBytes 256 t.kind, List.replicate 0x300 0, secs.flatMap padPage]

/-! ## A thread from an image -/

/-- The bytes of section `k`. -/
def sectionOf (b : Bytes) (k : Nat) : Bytes :=
  let n := field b (0x94 + 8 * k) 4
  if n == 0 then [] else (b.drop (field b (0x90 + 8 * k) 4)).take n

/-- The queues of an image. -/
def queuesOf (b : Bytes) : Store (List Dword) :=
  let count (k : Nat) : Nat := field b (0x1340 + 2 * k) 2
  (List.range 14).foldl (fun q k =>
    let n := count k
    let l := if k < 8 then (List.range (min 32 n)).map fun j => dwAt b (0x1400 + 256 * k + 8 * j)
      else if k < 12 then (List.range (min 16 n)).map fun j => dwAt b (0x1C00 + 128 * (k - 8) + 8 * j)
      else (List.range (min (qDepth (104 + k)) n)).map fun j => BitVec.ofNat 64 (field b (0x1380 + 8 * (k - 12)) 8 / 2 ^ j % 2)
    Store.put [] q (104 + k) l) []

/-- The vector streams of an image, their chunks taken from section 2 in order. -/
def vstreamsOf (b : Bytes) : List Nat → Bytes → Store VStream → Store VStream
  | [], _, acc => acc
  | j :: r, data, acc =>
    let d := (b.drop (0x8300 + 20 * j)).take 20
    let n := min 4 (field d 2 1)
    let chunk (k : Nat) : Chunk :=
      let fl := field d (12 + k) 1
      ⟨BitVec.ofNat 16384 (leNat ((data.drop (2048 * k)).take 2048)), field d (4 + 2 * k) 2, fl % 2 == 1, fl / 2 % 2 == 1,
        fl / 4 % 2 == 1⟩
    vstreamsOf b r (data.drop (2048 * n)) (Store.put VStream.empty acc j ⟨(List.range n).map chunk, field d 3 1 == 1⟩)

/-- The function registers of an image, their coefficients taken from section 3 in order. -/
def fregsOf (b : Bytes) : List Nat → Bytes → Store FReg → Store FReg
  | [], _, acc => acc
  | k :: r, data, acc =>
    let d := (b.drop (0x8500 + 16 * k)).take 16
    let v := field d 12 4
    let n := min 256 (v % 512)
    let f : FReg :=
      ⟨if v / 2 ^ 12 % 2 == 1 then some (BitVec.ofNat 32 (field d 0 4), BitVec.ofNat 32 (field d 4 4)) else none,
        (List.range n).map fun j => BitVec.ofNat 32 (field data (4 * j) 4), BitVec.ofNat 32 (field d 8 4), v / 2 ^ 9 % 2 == 1,
        BitVec.ofNat 2 (v / 2 ^ 10)⟩
    fregsOf b r (data.drop (4 * n)) (Store.put FReg.empty acc k f)

/-- A tile place of an image. -/
def tileOf (b : Bytes) (k : Nat) : Option Tile :=
  let d := (b.drop (0x8110 + 4 * k)).take 4
  if field d 0 1 == 0 then none
  else some ⟨field d 1 1, field d 2 1, ((sectionOf b 5).drop (24576 * k)).take 24576⟩

/-- The copies an image lists (R217, R380). One the thread itself holds at that place goes on as it stood; of another the
identifier records are those of the partition, and a tile not yet in its FIFO is gathered again. -/
def copiesOf (s : State) (t : Thread) (b : Bytes) : List Copy :=
  (List.range 16).filterMap fun k =>
    let d := (b.drop (0x8700 + 80 * k)).take 80
    let desc := d.take 64
    let moved := field d 64 8
    if field d 79 1 != 1 then none
    else match t.copies[k]? with
      | some c => if padTo 64 c.desc == desc then some { c with moved := min moved c.total } else some (freshCopy s t k desc moved)
      | none => some (freshCopy s t k desc moved)
where
  /-- A copy that the slot's thread did not hold. -/
  freshCopy (s : State) (t : Thread) (k : Nat) (desc : Bytes) (moved : Nat) : Copy :=
    let tid (f o : Nat) : Bytes :=
      if descFlag desc f then Store.get (List.replicate 32 0) (getPart s t.part).tids (field desc o 1) else List.replicate 32 0
    let c : Copy := ⟨0, desc, tid 2 0x10, tid 3 0x11, if descHint desc == 2 then 1 else 0, k, 0, 0, t.transfers + 1 + k, [], [], [],
      t.mcword, field b 0x470 8 / 64 % 2 == 1⟩
    { c with total := c.amount, moved := if c.kind == 2 then 0 else min moved c.amount }

/-- The thread an image describes, in the slot of a thread that holds the same reservations (R379): what the image does
not hold stays as the thread has it. -/
def threadOf (s : State) (t : Thread) (b : Bytes) : Thread :=
  let seg := sectionOf b 0
  let bnd := sectionOf b 3
  let acs := sectionOf b 4
  let mod_ := (b.drop 0x8100).take 0x100
  { t with
    a := streamOf t.a false ((b.drop 0x100).take 0x800)
    x := streamOf t.x true ((b.drop 0x900).take 0x800)
    copies := copiesOf s t b
    transfers := (copiesOf s t b).foldl (fun n c => max n c.region) t.transfers
    tol := BitVec.ofNat 32 (field b (0x900 + 0x368) 4)
    gout := field b (0x900 + 0x720) 4
    gcause := field b (0x900 + 0x724) 4
    gok := field b (0x900 + 0x728) 4
    gnack := field b (0x900 + 0x72C) 4
    savedClock := dwAt b 0x10
    consumed := field b 0x18 8
    areg := (List.range 32).foldl (fun m k => Store.put 0 m k (dwAt b (0x1100 + 8 * k))) []
    stride := (List.range 32).foldl (fun m k => Store.put 0 m k (dwAt b (0x1200 + 8 * k))) []
    scope := BitVec.ofNat 5 (field b 0x1300 8)
    q := queuesOf b
    race := raceOf ((b.drop 0x1E00).take 0x80)
    tree := treeOf t.tree ((b.drop 0x1E80).take 0x180)
    pred := (List.range 95).foldl (fun m k => Store.put 0 m (k + 1) (BitVec.ofNat 2048 (field b (0x2100 + 256 * k) 256))) []
    fmask := BitVec.ofNat 2048 (field b 0x8000 256)
    kind := BitVec.ofNat 2048 (field b 0x8C00 256)
    dom := if field mod_ 1 1 % 2 == 1 then some (BitVec.ofNat 5 (field mod_ 0 1)) else none
    multi := field mod_ 1 1 / 2 % 2 == 1
    gpred := BitVec.ofNat 7 (field mod_ 2 1)
    wbase := field mod_ 3 1
    minv := field mod_ 8 1 % 2 == 1
    movf := field mod_ 8 1 / 2 % 2 == 1
    miovf := field mod_ 8 1 / 4 % 2 == 1
    mseq := field mod_ 12 4
    fifo0 := ([tileOf b 0, tileOf b 1].filterMap id)
    fifo1 := ([tileOf b 2, tileOf b 3].filterMap id)
    slot0 := tileOf b 4
    slot1 := tileOf b 5
    resume := resumeOf t.resume (streamOf t.x true ((b.drop 0x900).take 0x800)) ((b.drop 0x8200).take 0x100)
    vs := vstreamsOf b (List.range 12) (sectionOf b 1) []
    bind := (List.range 12).foldl (fun m j =>
      let ph := field b (0x8300 + 20 * j) 2
      if ph == 0 then m else Store.insert m (ph - 1) j) []
    mbox := (List.range 8).foldl (fun m k =>
      let ph := field b (0x8400 + 2 * k) 2
      if ph == 0 then m else Store.insert m k (ph - 1)) []
    hold := (List.range (min 59 (field b 0x8410 4))).foldl (fun m k =>
      let o := 0x8414 + 4 * k
      Store.put ⟨0, 0⟩ m (field b o 2) ⟨field b (o + 2) 1, field b (o + 3) 1⟩) []
    freg := fregsOf b (List.range 32) (sectionOf b 2) []
    vreg := (List.range t.segSize).foldl (fun m r =>
      Store.put 0 m r (BitVec.ofNat 16384 (leNat ((seg.drop (2048 * r)).take 2048)))) []
    bound := (List.range t.boundSize).foldl (fun m e =>
      Store.put Bound.reset m e ⟨BitVec.ofNat 8 (field bnd (16 * t.boundSize + e) 1), BitVec.ofNat 32 (field bnd (16 * e) 4),
        BitVec.ofNat 32 (field bnd (16 * e + 4) 4), BitVec.ofNat 32 (field bnd (16 * e + 8) 4),
        BitVec.ofNat 32 (field bnd (16 * e + 12) 4)⟩) []
    acs := (List.range t.acsSize).foldl (fun m r =>
      Store.put 0 m r (BitVec.ofNat 6144 (leNat ((acs.drop (768 * r)).take 768)))) [] }

/-- The image's reservations are those of the thread (R379): vector segment, ACS rows, bound entries, alcove, and function
coefficients within its quota. -/
def sameReservations (t : Thread) (b : Bytes) : Bool :=
  let length (k : Nat) : Nat := field b (0x94 + 8 * k) 4
  let fixed := b.drop 0x8100
  field fixed 4 2 == t.segBase && field fixed 6 2 == t.segSize && length 0 == 2048 * t.segSize &&
    length 3 == 17 * t.boundSize && length 4 == 768 * t.acsSize && length 6 == t.alcSize &&
    ((List.range 32).map fun k => granules (min 256 (field fixed (0x40C + 16 * k) 4 % 512))).sum ≤ t.coefQuota

/-- The reserved bytes of the fixed part, by offset and length (R380, R381). -/
def imageReserved : List (Nat × Nat) :=
  [(0x0B, 1), (0x0E, 2), (0x20, 0x70), (0xC8, 0x38), (0x468, 8), (0x824, 0xDC), (0x1030, 0xD0), (0x1308, 0x38), (0x135C, 0x24),
    (0x1390, 0x70), (0x8280, 0x80), (0x8D00, 0x300)] ++ (List.range 8).map fun k => (0x820D + 16 * k, 3)

/-- Whether an fmode as an image holds it is one that a register can hold (R26, R60). -/
def fmodeOk (v : Nat) : Bool := v < 128 && v % 8 ≤ 4

/-- Whether the image's reserved bytes are 0 and its registers' reserved bits and codes are not used. DESIGN CHOICE: another
image fails the checks of R379, among it one with a rounding code of 5 to 7; R8 lets no reserved field be ignored and R379
names neither case (log 72). -/
def reservedClear (b : Bytes) : Bool :=
  let part (off n : Nat) : Bytes := ((b.drop (off / 4096 * 4096)).drop (off % 4096)).take n
  (imageReserved.all fun r => leNat (part r.1 r.2) == 0) &&
    fmodeOk (leNat (part 0x470 8)) && fmodeOk (leNat (part 0xC70 8)) && leNat (part 0x478 8) < 16 &&
    leNat (part 0xC78 8) < 16 && leNat (part 0xC68 8) < 2 ^ 32 && leNat (part 0x1300 8) < 32 &&
    (List.range 8).all fun k => fmodeOk (leNat (part (0x820A + 16 * k) 1))

/-- Whether a thread can take on an image (R379). -/
def imageOk (t : Thread) (b : Bytes) : Bool := sameReservations t b && reservedClear b

/-- A thread installed from an image, with its alcove reservation (R379). -/
def installImage (s : State) (t : Thread) (b : Bytes) : State × Thread :=
  (writeBytes s (alcoveAt t.lcore t.alcBase) (sectionOf b 6), threadOf s t b)

/-! ## The context area (R379, R383) -/

/-- The VA of a thread's slot in its partition's context area; none where the partition has none. -/
def contextVa (p : Partition) (t : Thread) : Option Nat :=
  if p.ctxBase == 0 || p.ctxSlot == 0 then none else some (p.ctxBase + (t.lcore * 4 + t.slot) * p.ctxSlot)

/-- A range of VAs cut at the 4 KiB boundaries it crosses. -/
def pageRuns (va n : Nat) : List Run :=
  ((List.range (n / 4096 + 2)).map fun k =>
    let lo := max va ((va / 4096 + k) * 4096)
    (⟨lo, min (va + n) ((va / 4096 + k + 1) * 4096) - lo, lo - va⟩ : Run)).filter fun r => r.n != 0

/-- Bytes the device itself writes at a VA of a partition: every page or none. -/
def deviceWrite (s : State) (pn va : Nat) (bs : Bytes) : Option State :=
  (pageRuns va bs.length).foldl (fun acc r =>
    match acc with
    | none => none
    | some s =>
      match devicePlace s pn r.va r.n .write with
      | some (k, s') => some (writeBytes s' k ((bs.drop r.off).take r.n))
      | none => none) (some s)

/-- Bytes the device itself reads at a VA of a partition. -/
def deviceRead (s : State) (pn va n : Nat) : Option Bytes :=
  (pageRuns va n).foldl (fun acc r =>
    match acc with
    | none => none
    | some bs =>
      match devicePlace s pn r.va r.n .read with
      | some (k, s') => if badUnit s' k r.n then none else some (bs ++ readBytes s' k r.n)
      | none => none) (some [])

/-- Bytes of a launch's images as the device copies them (R88, R284): a page of another device gives what it holds there. -/
def imageRead (s : State) (pn va n : Nat) : Option (Bytes × State) :=
  (pageRuns va n).foldl (fun acc r =>
    match acc with
    | none => none
    | some (bs, s) =>
      let s := readyFrame s pn r.va
      match deviceRead s pn r.va r.n with
      | some b => some (bs ++ b, s)
      | none =>
        match deviceEntry s pn r.va .read with
        | some (e, m, s) =>
          if m == 0 then none
          else if 5 ≤ m && leafHome s pn e.leaf == accId s (getPart s pn) then
            if inWindows (getPart s pn) (e.addr r.va) r.n then some (bs ++ readBytes s (e.addr r.va) r.n, s) else none
          else
            let q := freeBytes s r.n
            some (bs ++ q.1, q.2)
        | none => none) (some ([], s))

/-- The reason byte of the image (R380). -/
def StopReason.code : StopReason → Nat
  | .ctxsave => 0
  | .preempt => 1
  | .budget => 2
  | .trap => 3
  | .gang => 4
  | .repair => 5

/-- A stopped thread's image written into its slot (R379), where the partition's tables map it. -/
def saveImage (s : State) (t : Thread) (reason : Nat) : State :=
  match contextVa (getPart s t.part) t with
  | none => s
  | some va => (deviceWrite s t.part va (image s t reason)).getD s

/-- The image in a thread's slot, if one of this thread is there. -/
def savedImage (s : State) (t : Thread) : Option Bytes :=
  match contextVa (getPart s t.part) t with
  | none => none
  | some va =>
    match deviceRead s t.part va 0x9000 with
    | none => none
    | some h =>
      if field h 0 4 == 1 && field h 8 4 == t.tid then deviceRead s t.part va (field h 4 4 * 4096) else none

/-- A thread restored from its image (R277, R379): DEVERR is pending where the slot holds no image of it that can be read
and passes its check (R418). A partition without a context area goes on from what the device holds. -/
def restoreThread (s : State) (t : Thread) : State × Thread :=
  match contextVa (getPart s t.part) t, (savedImage s t).filter (imageOk t) with
  | none, _ => (s, t)
  | some _, some b => installImage s t b
  | some _, none => (s, { t with devErr := t.devErr ++ [(Strm.a, BitVec.ofNat 64 (0x09 * 2 ^ 56))] })

/-- Bytes of a stopped thread's saved image changed in place, at an offset (R255, R388). -/
def patchImage (s : State) (t : Thread) (off : Nat) (bs : Bytes) : State :=
  match contextVa (getPart s t.part) t with
  | none => s
  | some va => (deviceWrite s t.part (va + off) bs).getD s

end Sys2Proof.Machine
end

