-- ==== Sys2Proof/Machine/Launch.lean ====
section
/-! DEFINITION. Launches: the record and its checks (R363 to R365), placement (R283, R284, R369, R448), the start of a
launch (R368, R370), the end of a thread and of a launch (R258, R372, R423), and staging (R378). -/

namespace Sys2Proof.Machine

/-! ## The launch record (R363, R364) -/

/-- A launch record from its 128 bytes. -/
def recordOf (b : Bytes) : LaunchRec where
  aentry := field b 0 8
  xentry := field b 8 8
  dies := field b 0x10 1
  clusters := field b 0x11 1
  cores := field b 0x12 1
  threads := field b 0x13 1
  vseg := field b 0x14 1
  acs := field b 0x16 2
  alcove := field b 0x18 4
  hall := field b 0x1C 4
  atrium := field b 0x20 4
  coef := field b 0x24 2
  bound := field b 0x26 2
  stage := field b 0x2A 2
  prio := field b 0x2C 1
  dep := field b 0x30 8
  depval := field b 0x38 8
  done := field b 0x40 8
  doneval := field b 0x48 8
  budget := field b 0x50 8
  flags := field b 0x58 8
  group := field b 0x60 8
  args := field b 0x68 8
  digLo := dwAt b 0x70
  digHi := dwAt b 0x78

/-- The rules of R363 and R364 that the record alone decides. -/
def recordValid (b : Bytes) : Bool :=
  let r := recordOf b
  let within (lo x hi : Nat) : Bool := lo ≤ x && x ≤ hi
  r.aentry % 4 == 0 && 2 ^ 32 ≤ r.aentry && r.xentry % 4 == 0 && 2 ^ 32 ≤ r.xentry &&
    within 1 r.dies 8 && within 1 r.clusters 6 && within 1 r.cores 8 && within 1 r.threads 4 && within 1 r.vseg 16 &&
    field b 0x15 1 == 0 && r.acs ≤ 1024 && r.alcove % 4096 == 0 && 4096 ≤ r.alcove &&
    r.hall % 65536 == 0 && r.hall ≤ 2 ^ 24 && r.atrium % 65536 == 0 && r.atrium ≤ 2 ^ 26 &&
    r.coef ≤ 2048 && r.bound ≤ 4096 && field b 0x28 2 == 0x800 && r.stage ≤ 256 && r.prio ≤ 7 && field b 0x2D 3 == 0 &&
    (r.dep == 0 || (r.dep % 8 == 0 && 2 ^ 32 ≤ r.dep)) && (r.done == 0 || (r.done % 8 == 0 && 2 ^ 32 ≤ r.done)) &&
    r.flags < 32 && r.group % 64 == 0 && r.args % 64 == 0 && 2 ^ 32 + 64 ≤ r.args &&
    r.threads * r.vseg ≤ 16 && r.threads * r.acs ≤ 1024 && r.threads * r.alcove ≤ 1536 * 1024 &&
    r.hall + r.stage * 65536 ≤ 2 ^ 24 && r.threads * r.coef ≤ 2048 && r.threads * r.bound ≤ 4096 &&
    r.flag 2 == (r.group != 0)

/-- The image header consistent with the reservations (R284, R365): each data image fits its reservation, that of the
alcove with the 2 KiB of spill areas. -/
def headerValid (r : LaunchRec) (h : Bytes) : Bool :=
  field h 0x18 8 + 0x800 ≤ r.alcove && field h 0x28 8 ≤ r.hall && field h 0x38 8 ≤ r.atrium

/-! ## Placement (R283, R369, R371, R448) -/

/-- The lowest position of a free run of `size` below `limit`, with runs in use given by base and size. -/
def lowestRun (used : List (Nat × Nat)) (limit size : Nat) : Option Nat :=
  let fits (b : Nat) : Bool := b + size ≤ limit && used.all fun u => u.1 + u.2 ≤ b || b + size ≤ u.1
  ((0 :: used.map fun u => u.1 + u.2).filter fits).foldl (fun m b => match m with
    | none => some b
    | some c => some (min b c)) none

/-- What one thread takes on its core: slot, vector segment, alcove, ACS rows, bound entries. -/
structure Seat where
  slot : Nat
  seg : Nat
  alc : Nat
  acs : Nat
  bound : Nat
  deriving DecidableEq, Repr

/-- The reservations of threads on one core: what is in use as threads are placed one by one. -/
structure CoreUse where
  slots : List Nat
  segs : List (Nat × Nat)
  alcs : List (Nat × Nat)
  acss : List (Nat × Nat)
  bounds : List (Nat × Nat)
  deriving DecidableEq, Repr

/-- What a list of threads holds of a core. -/
def useOf (ts : List Thread) : CoreUse :=
  ⟨ts.map fun t => t.slot, ts.map fun t => (t.segBase, t.segSize), ts.map fun t => (t.alcBase, t.alcSize),
    ts.map fun t => (t.acsBase, t.acsSize), ts.map fun t => (t.boundBase, t.boundSize)⟩

/-- Seats for `n` threads of a record on a core, in slot order, each reservation at the lowest free run (R283, R448). -/
def spots (r : LaunchRec) : Nat → CoreUse → Option (List Seat)
  | 0, _ => some []
  | n + 1, u =>
    match (List.range 4).find? fun k => !u.slots.contains k, lowestRun u.segs 512 (32 * r.vseg),
        lowestRun u.alcs (1536 * 1024) r.alcove, lowestRun u.acss 1024 r.acs, lowestRun u.bounds 4096 r.bound with
    | some k, some sg, some al, some ac, some bo =>
      (spots r n ⟨k :: u.slots, (sg, 32 * r.vseg) :: u.segs, (al, r.alcove) :: u.alcs, (ac, r.acs) :: u.acss,
        (bo, r.bound) :: u.bounds⟩).map fun l => ⟨k, sg, al, ac, bo⟩ :: l
    | _, _, _, _, _ => none

/-- Whether a core is offered to a record (R371, R378): served, not shared unless the launch is flagged D, and not kept
for a staged launch. -/
def offered (s : State) (r : LaunchRec) (lc : Nat) (own : Option Nat) : Bool :=
  let e := remapOf s lc
  e.getLsbD 15 && (!e.getLsbD 14 || r.flag 0) &&
    s.parts.all fun q => some q.1 == own || match q.2.staged with
      | none => true
      | some g =>
        !(g.d0 ≤ dieOf lc && dieOf lc < g.d0 + g.record.dies && g.c0 ≤ clusterOf lc && clusterOf lc < g.c0 + g.record.clusters &&
          g.k0 ≤ coreOf lc && coreOf lc < g.k0 + g.record.cores)

/-- The covered cores of a rectangle, in ascending logical index. -/
def rectCores (r : LaunchRec) (o : Nat × Nat × Nat) : List Nat :=
  (List.range r.dies).flatMap fun d => (List.range r.clusters).flatMap fun c => (List.range r.cores).map fun k =>
    lcoreAt (o.1 + d) (o.2.1 + c) (o.2.2 + k)

/-- The covered clusters, counted over the device, and the covered dies. -/
def rectClusters (r : LaunchRec) (o : Nat × Nat × Nat) : List Nat :=
  (List.range r.dies).flatMap fun d => (List.range r.clusters).map fun c => 6 * (o.1 + d) + o.2.1 + c
def rectDies (r : LaunchRec) (o : Nat × Nat × Nat) : List Nat := (List.range r.dies).map fun d => o.1 + d

/-- Every origin at which a record's rectangle lies in the grid, in ascending order. -/
def origins (r : LaunchRec) : List (Nat × Nat × Nat) :=
  (List.range (9 - r.dies)).flatMap fun d => (List.range (7 - r.clusters)).flatMap fun c =>
    (List.range (9 - r.cores)).map fun k => (d, c, k)

/-- The run of a hall that a record's staging reservation takes, with the offsets it has by cluster. -/
def stageUse (r : LaunchRec) (offs : List (Nat × Nat)) (cluster : Nat) : List (Nat × Nat) :=
  (offs.filter fun e => e.1 == cluster).map fun e => (e.2, r.stage * 65536)

/-- The runs of a hall in use: hall and staging reservations of live launches, and those of staged records. -/
def hallUse (s : State) (cluster : Nat) : List (Nat × Nat) :=
  (s.launches.filter fun l => !l.ended && l.coversCluster (cluster / 6) (cluster % 6)).flatMap (fun l =>
    (l.hallOff, l.record.hall) :: stageUse l.record l.stageOffs cluster) ++
  s.parts.flatMap fun q => match q.2.staged with
    | none => []
    | some g => stageUse g.record g.stageOffs cluster

/-- The runs of an atrium in use. -/
def atriumUse (s : State) (die : Nat) : List (Nat × Nat) :=
  (s.launches.filter fun l => !l.ended && l.coversDie die).map fun l => (l.atriumOff, l.record.atrium)

/-- A placement: origin, the spots on each covered core, the common offsets of hall and atrium, and the staging offset in each
covered cluster. -/
structure Placement where
  origin : Nat × Nat × Nat
  cores : List (Nat × List Seat)
  hallOff : Nat
  stageOffs : List (Nat × Nat)
  atriumOff : Nat
  deriving DecidableEq, Repr

/-- The placement of a record at one origin for a partition, judged against the threads that `counts` keeps; a staged
record brings its staging offsets (R369, R378). -/
def placeAt (s : State) (pn : Nat) (r : LaunchRec) (staged : Option (List (Nat × Nat))) (counts : Thread → Bool) (o : Nat × Nat × Nat) :
    Option Placement :=
  let p := getPart s pn
  let cs := rectCores r o
  if !cs.all fun lc => p.cores.contains lc && offered s r lc (if staged.isSome then some pn else none) then none
  else
    let on (lc : Nat) : List Thread := (allThreads s).filter fun t => t.lcore == lc && occupies s t && counts t
    let got := cs.filterMap fun lc =>
      let ts := on lc
      let u := useOf ts
      let u := if p.usherCore == lc then { u with slots := p.usherSlot :: u.slots } else u
      if (ts.map fun t => t.coefQuota).sum + r.threads * r.coef ≤ 2048 then (spots r r.threads u).map fun l => (lc, l) else none
    if got.length != cs.length then none
    else
      let halls := (rectClusters r o).flatMap (hallUse s)
      match lowestRun halls (2 ^ 24) r.hall, lowestRun ((rectDies r o).flatMap (atriumUse s)) (2 ^ 26) r.atrium with
      | some h, some a =>
        match staged with
        | some g => some ⟨o, got, h, g, a⟩
        | none =>
          ((rectClusters r o).mapM fun c =>
            (lowestRun ((h, r.hall) :: hallUse s c) (2 ^ 24) (r.stage * 65536)).map fun g => (c, g)).map fun g => ⟨o, got, h, g, a⟩
      | _, _ => none

/-- The placement of a record: at the first origin that qualifies (R369). -/
def place (s : State) (pn : Nat) (r : LaunchRec) : Option Placement :=
  (origins r).findSome? (placeAt s pn r none fun _ => true)

/-! ## Serials (R368) -/

/-- The serial after one: modulo 2^13, skipping 0. -/
def serialAfter (n : Nat) : Nat := if (n + 1) % 2 ^ 13 == 0 then 1 else (n + 1) % 2 ^ 13

/-- The next serial that no live launch holds, looked for `k` times. -/
def freeSerial (s : State) : Nat → Nat → Nat
  | 0, n => n
  | k + 1, n => if s.launches.any fun l => l.serial == n && !l.ended then freeSerial s k (serialAfter n) else n

/-! ## The start of a launch (R370) -/

/-- A thread added to the device. -/
def addThread (s : State) (t : Thread) : State :=
  if s.th.status == .free then { s with th := t } else { s with others := s.others ++ [t] }

/-- The registers of a new task thread (R51, R55, R284): everything at its entry value, argument block and index in both
streams, alcove base, spill areas, reservations and budget. -/
def taskThread (pn serial index : Nat) (r : LaunchRec) (lc : Nat) (p : Seat) : Thread :=
  let t := Thread.reset lc p.slot
  let entry (pc : Nat) : Stream :=
    { Stream.reset with
      pc := BitVec.ofNat 64 pc
      gpr := Store.put 0 (Store.put 0 [] 1 (BitVec.ofNat 64 r.args)) 2 (BitVec.ofNat 64 index) }
  { t with
    status := .running
    part := pn
    serial := serial
    index := index
    a := entry r.aentry
    x := entry r.xentry
    areg := Store.put 0 (Store.put 0 [] 0 (BitVec.ofNat 64 r.args)) 1 (BitVec.ofNat 64 p.alc)
    segBase := p.seg
    segSize := 32 * r.vseg
    coefQuota := r.coef
    boundSize := r.bound
    boundBase := p.bound
    acsBase := p.acs
    acsSize := r.acs
    spilla := BitVec.ofNat 64 (p.alc + r.alcove - 0x800)
    spillx := BitVec.ofNat 64 (p.alc + r.alcove - 0x400)
    alcBase := p.alc
    alcSize := r.alcove
    budget := r.budget }

/-- The usher of a partition as it starts (R373, R443): L1 in both streams, A at its code, X ended, with a segment of 32
registers and 4 KiB of alcove at the lowest free runs. -/
def usherThread (s : State) (pn : Nat) : Thread :=
  let p := getPart s pn
  let u := useOf ((allThreads s).filter fun t => t.lcore == p.usherCore && occupies s t)
  let alc := (lowestRun u.alcs (1536 * 1024) 4096).getD 0
  let t := Thread.reset p.usherCore p.usherSlot
  { t with
    status := .running
    part := pn
    segBase := (lowestRun u.segs 512 32).getD 0
    areg := Store.put 0 [] 1 (BitVec.ofNat 64 alc)
    alcBase := alc
    alcSize := 4096
    spilla := BitVec.ofNat 64 (alc + 0x800)
    spillx := BitVec.ofNat 64 (alc + 0xC00)
    tvec := BitVec.ofNat 64 p.tvec
    a := { Stream.reset with pc := BitVec.ofNat 64 p.usherVa, priv := 1 }
    x := { Stream.reset with priv := 1, exiting := true, ended := true } }

/-- The usher of a partition placed and started, its alcove bytes 0 (R373, R443). -/
def beginUsher (s : State) (pn : Nat) : State :=
  let t := usherThread s pn
  addThread (updPart (zeroRange s (alcoveAt t.lcore t.alcBase) t.alcSize) pn fun p => { p with usherUp := true }) t

/-- A data image of the header at offset `o` (its VA; its byte count stands 8 above), as far as it can be read. -/
def dataImage (s : State) (pn : Nat) (h : Bytes) (o : Nat) : Bytes × State :=
  let n := field h (o + 8) 8
  if n == 0 then ([], s) else (imageRead s pn (field h o 8) n).getD ([], s)

/-- A reservation made ready: every byte 0, then its data image (R284, R370). -/
def fillReservation (s : State) (k n : Nat) (image : Bytes) : State := writeBytes (zeroRange s k n) k image

/-- The place of a group object that a launch joins, seen from one of its threads (R370, R372). -/
def groupPlace (s : State) (l : Launch) (lc : Nat) : Option (Nat × State) :=
  if l.record.group < 2 ^ 32 then (localPlace s l lc l.record.group 64).map fun k => (k, s)
  else devicePlace s l.part l.record.group 64 .write

/-- The logical core of a thread ID. -/
def tidCore (tid : Nat) : Nat := tid / 4 % 512

/-- JOIN of one thread of a launch on its group object (R247, R370). -/
def autoJoin (l : Launch) (s : State) (tid : Nat) : State :=
  match groupPlace s l (tidCore tid) with
  | none => s
  | some (k, s) =>
    let g := readGroup s k
    if g.bad then s else writeGroup s l.part k (joinObj g tid)

/-- A placed record started: its serial, its reservations, its threads, its group (R365, R368, R370); every stamp is cleared
(R292). -/
def startLaunch (s : State) (pn : Nat) (r : LaunchRec) (pl : Placement) : State :=
  let serial := freeSerial s 8192 (serialAfter s.lastSerial)
  let (h, s) := (imageRead s pn (r.args - 0x40) 64).getD ([], s)
  let threads := (pl.cores.flatMap fun c => c.2.map fun p => (c.1, p)).zipIdx.map fun e => taskThread pn serial e.2 r e.1.1 e.1.2
  let l : Launch :=
    ⟨serial, pn, r, pl.origin.1, pl.origin.2.1, pl.origin.2.2, pl.hallOff, pl.atriumOff, pl.stageOffs, threads.length, 0, 0, false,
      false, [], threads.map Thread.tid, threads.map fun t => (t.lcore, t.alcBase),
      if h.isEmpty then none else some (field h 0 8 + field h 8 8)⟩
  let (alc, s) := dataImage s pn h 0x10
  let (hall, s) := dataImage s pn h 0x20
  let (atr, s) := dataImage s pn h 0x30
  let s := threads.foldl (fun s t => fillReservation s (alcoveAt t.lcore t.alcBase) t.alcSize alc) s
  let s := (rectClusters r pl.origin).foldl (fun s c => fillReservation s (hallAt c pl.hallOff) r.hall hall) s
  let s := (rectDies r pl.origin).foldl (fun s d => fillReservation s (atriumAt d pl.atriumOff) r.atrium atr) s
  let bases := leBytes 8 (0x04000000 + pl.hallOff) ++ leBytes 8 (0x08000000 + pl.atriumOff)
  let s := (deviceStore s pn r.args (.device none) bases).1
  let s := { s with
    lastSerial := serial
    launches := s.launches.filter (fun m => m.serial != serial) ++ [l]
    stamps := [] }
  let s := threads.foldl addThread s
  let s := if r.flag 2 then l.members.foldl (autoJoin l) s else s
  match threads with
  | t :: _ => traceRec s t 5 .a t.a.pc serial
  | [] => s

/-! ## The end of a thread and of a launch (R258, R372, R423) -/

/-- A record of a stamp that the sweep keeps: its tag is less than 2,048 behind its thread's count (R292). The records
of an ended thread have had their sweep when it ended. -/
def fresh (ts : List Thread) (r : Nat × Nat × Bool × Nat) : Bool :=
  !ts.any fun t => t.status != .free && t.serial == r.1 && t.index == r.2.1 &&
    r.2.2.2 + 2048 ≤ (if r.2.2.1 then t.transfers else t.regions)

/-- The background sweep over the records of some threads (R292). -/
def sweepOf (ts : List Thread) (m : Store Stamp) : Store Stamp :=
  (m.map fun e => (e.1, ({ e.2 with
    writer := match e.2.writer with
      | some w => if fresh ts w then some w else none
      | none => none
    readers := e.2.readers.filter (fresh ts) } : Stamp))).filter fun e => e.2 != Stamp.reset

/-- The background sweep (R292). -/
def sweep (s : State) : Store Stamp := sweepOf (allThreads s) s.stamps

/-- Whether a request outlasts its thread: a multicast write's record is still owed its update (R406). -/
def FabReq.outlasts (q : FabReq) : Bool :=
  match q.kind with
  | .multicast .. | .mcword .. => true
  | _ => false

/-- A thread removed from the device, with the requests and queued rows that are its own; its stamps are swept while
its counts stand. -/
def dropThread (s : State) (t : Thread) : State :=
  let same (u : Thread) : Bool := u.num == t.num && u.part == t.part && u.serial == t.serial
  { s with
    th := if same s.th then Thread.reset s.th.lcore s.th.slot else s.th
    others := s.others.filter fun u => !same u
    stamps := sweepOf [t] s.stamps
    reqs := s.reqs.filter fun q => !q.of t || q.outlasts
    rowq := s.rowq.filter fun j => !(j.lcore == t.lcore && j.slot == t.slot) }

/-- A notice queued for a partition's usher (R374). -/
def queueNotice (s : State) (pn : Nat) (n : Notice) : State := updPart s pn fun p => { p with notices := p.notices ++ [n] }

/-- ERESUME of a thread: its image plus 0x8200 (R382). -/
def resumeVa (s : State) (t : Thread) : Dword :=
  BitVec.ofNat 64 ((contextVa (getPart s t.part) t).getD 0 + 0x8200)

/-- Whether a launch's digest differs from a recorded one that counts (R372, R423). -/
def digestWrong (l : Launch) : Bool :=
  !l.ushered && (l.record.digLo != 0 || l.record.digHi != 0) && (l.digLo != l.record.digLo || l.digHi != l.record.digHi)

/-- An MSI-X vector of a partition's virtual function raised. -/
def raiseMsix (s : State) (pn v : Nat) : State := updPart s pn fun p => { p with msix := p.msix ++ [v] }

/-- Whether the completion word of an ended launch still waits for a peer's answer. -/
def FabReq.isDone (q : FabReq) (pn serial : Nat) : Bool :=
  q.part == pn && match q.kind with
    | .done n _ => n == serial
    | _ => false

/-- The last act of a launch's end: MSI-X vector 0 under N, once the completion word is written or refused (R372). -/
def launchSignal (s : State) (l : Launch) : State :=
  if l.record.flag 3 && !s.reqs.any (fun q => q.isDone l.part l.serial) then raiseMsix s l.part 0 else s

/-- The completion word of a launch written through the partition's tables, here or at a peer; where it cannot be, an
event record of kind 9 (R372), after that of an invalid multicast group (R405). A word whose unit holds an uncorrectable
error cannot be. DEDUCED (R372 names that error; R417 clears it for other stores of the whole unit). -/
def writeLaunchDone (s : State) (l : Launch) : State :=
  let va := l.record.done
  let bs := leBytes 8 l.record.doneval
  let refused (s : State) : State := logEvent s l.part 9 0 va l.serial 0 0 0
  let away (s : State) (peer pa : Nat) : State := sendFor s (deviceThread l.part) (.done l.serial va) peer va pa bs none []
  let here (s : State) (k : Nat) : State :=
    if inWindows (getPart s l.part) k 8 && !badUnit s k 8 then putAt (siteRecall s k 8) l.part k bs else refused s
  if va == 0 then s
  else
    match deviceEntry s l.part va .write with
    | none => refused s
    | some (e, m, s) =>
      if m == 0 then here s (e.addr va)
      else if m == 1 || m == 3 then away s (ptePeer e.leaf) (e.addr va)
      else if m == 4 then
        let g := ptePeer e.leaf % 256
        match multicastGroup s l.part g with
        | none => refused (if groupInvalid s l.part g then logEvent s l.part 8 0 (0x10000 + 256 * g) 0 0 0 0 else s)
        | some peers => peers.foldl (fun s q =>
            if q == accId s (getPart s l.part) then here s (e.addr va) else away s q (e.addr va)) s
      else refused s

/-- The end of a launch whose last thread has just ended (R372): digest, auto-join, completion word, notice or vector. -/
def endLaunch (s : State) (t : Thread) (q : Strm) (l : Launch) : State :=
  let wrong := digestWrong l
  let s := if l.record.flag 2 then
      (l.members.zipIdx.filter fun m => !l.leavers.contains m.2).foldl (fun s m =>
        match groupPlace s l (tidCore m.1) with
        | none => s
        | some (k, s) => leaveAt s l.part k m.1) s
    else s
  let s := if wrong then
      queueNotice (saveImage s t 3) l.part
        ⟨t.tid, cDIG.setWidth 64, (t.str q).pc, BitVec.ofNat 64 l.serial, if q == .a then 0 else 1, resumeVa s t⟩
    else
      launchSignal (writeLaunchDone s l) l
  let s := updLaunch s l.serial fun l => { l with ended := true }
  traceRec s t 6 q (t.str q).pc l.serial

/-- A thread ended: its reservations are free, and its launch ends with its last thread (R258, R372, R375). -/
def endThread (s : State) (t : Thread) (q : Strm) (ushered : Bool) : State :=
  let s := dropThread s t
  match launchOf s t with
  | none => s
  | some l =>
    let l : Launch :=
      { l with
        live := l.live - 1
        ushered := l.ushered || ushered
        leavers := if t.leftGroup then l.leavers ++ [t.index] else l.leavers }
    let s := updLaunch s l.serial fun _ => l
    if l.live == 0 then endLaunch s t q l else s

/-! ## Dispatch (R366, R367) and staging (R378) -/

/-- The effective priority of a head (R367). -/
def Queued.priority (q : Queued) : Nat := min 7 (q.record.prio + q.waited / 2 ^ 20)

/-- Whether a head's dependency is met (R366). -/
def Queued.depMet (q : Queued) : Bool := q.record.dep == 0 || q.ready

/-- A launch queue of a partition, and its replacement. -/
def Partition.queue (p : Partition) (k : Nat) : List Queued := Store.get [] p.queues k
def Partition.setQueue (p : Partition) (k : Nat) (l : List Queued) : Partition := { p with queues := Store.put [] p.queues k l }

/-- The heads whose dependencies are met, by queue, in cyclic order after the queue served last. -/
def readyHeads (p : Partition) : List (Nat × Queued) :=
  (List.range 16).filterMap fun j =>
    let k := (p.lastServed + 1 + j) % 16
    match p.queue k with
    | q :: _ => if q.depMet then some (k, q) else none
    | [] => none

/-- The first entry of greatest priority. -/
def winner {α : Type} (l : List (Nat × Queued × α)) : Option (Nat × Queued × α) :=
  l.foldl (fun b e => match b with
    | none => some e
    | some c => if c.2.1.priority < e.2.1.priority then some e else some c) none

/-- Whether the partition dispatches: its usher runs and its slice is on (R387, R388, R443). -/
def dispatching (p : Partition) : Bool := p.state == .run && !p.switchedOut

/-- The head that is dispatched now, with its placement; a staged head waits for its own start. -/
def nextDispatch (s : State) (pn : Nat) : Option (Nat × Queued × Placement) :=
  let p := getPart s pn
  if !dispatching p then none
  else
    winner ((readyHeads p).filterMap fun e =>
      match p.staged with
      | some g => if g.queue == e.1 then none else (place s pn e.2.record).map fun pl => (e.1, e.2, pl)
      | none => (place s pn e.2.record).map fun pl => (e.1, e.2, pl))

/-- A head taken from its queue and started. -/
def dispatchHead (s : State) (pn k : Nat) (r : LaunchRec) (pl : Placement) : State :=
  let s := updPart s pn fun p => { p.setQueue k ((p.queue k).drop 1) with lastServed := k }
  startLaunch s pn r pl

/-- A head to stage now: the one that would win, kept back only by running launches' slots and thread reservations
(R378), with the placement it will have. -/
def nextStaging (s : State) (pn : Nat) : Option (Nat × Queued × Placement) :=
  let p := getPart s pn
  if !dispatching p || p.staged.isSome then none
  else
    match winner ((readyHeads p).map fun e => (e.1, e.2, ())) with
    | none => none
    | some (k, q, _) =>
      if q.record.stage == 0 || (place s pn q.record).isSome then none
      else
        ((origins q.record).findSome? (placeAt s pn q.record none fun t => t.serial == 0)).map fun pl => (k, q, pl)

/-- A head staged: its staging reservation in each covered hall takes the alcove data image and the head of the code
image, as far as it reaches (R378). -/
def stageHead (s : State) (pn k : Nat) (r : LaunchRec) (pl : Placement) : State :=
  let (h, s) := (imageRead s pn (r.args - 0x40) 64).getD ([], s)
  let (code, s) := (imageRead s pn (field h 0 8) (min (field h 8 8) (r.stage * 65536))).getD ([], s)
  let (alc, s) := dataImage s pn h 0x10
  let data := (alc ++ code).take (r.stage * 65536)
  let s := pl.stageOffs.foldl (fun s e => writeBytes s (hallAt e.1 e.2) data) s
  updPart s pn fun p => { p with staged := some ⟨r, k, pl.origin.1, pl.origin.2.1, pl.origin.2.2, pl.stageOffs⟩ }

/-- The placement of a partition's staged record, once every holder of its slots has ended and its reservations are free. -/
def stagedReady (s : State) (pn : Nat) : Option (Staged × Placement) :=
  let p := getPart s pn
  match p.staged with
  | none => none
  | some g =>
    if !dispatching p then none
    else (placeAt s pn g.record (some g.stageOffs) (fun _ => true) (g.d0, g.c0, g.k0)).map fun pl => (g, pl)

end Sys2Proof.Machine
end

