-- ==== Sys2Proof/Machine/Context.lean ====
section
/-! DEFINITION. Stopping, saving and resuming a thread (R64, R78, R275 to R277, R377, R379), the notices of the usher
(R374, R375), and the return from a trap (R259). -/

namespace Sys2Proof.Machine

/-! ## The stop (R275 to R277) -/

/-- A stop asked of a running thread; the first cause alone takes effect (R377). -/
def Thread.askStop (t : Thread) (r : StopReason) : Thread :=
  match t.status with
  | .running => { t with status := .stopping r }
  | _ => t

/-- The cause of a stop that has been asked for and is not complete. -/
def Thread.stopping (t : Thread) : Option StopReason :=
  match t.status with
  | .stopping r => some r
  | _ => none

/-- Whether a thread is stopped. -/
def Thread.isStopped (t : Thread) : Bool :=
  match t.status with
  | .stopped _ => true
  | _ => false

/-- The parts of a stop that a thread still waits for have ended: loads and atomics have their answers, stream transfers
are complete, and a copy's piece is whole (R217, R275); for a gang switch a state-vector command's requests are answered
too (R388). -/
def stopReady (s : State) (t : Thread) : Bool :=
  t.stopping.isSome && t.xfers.isEmpty && !awaiting s t &&
    !(s.reqs.any fun q => q.of t && q.region != 0 &&
      (t.stopping == some .gang || t.copies.any fun c => c.region == q.region))

/-- A stream as a stop saves it: what it had not issued is still to issue (R217, R275); a BWAIT that a BDISS has ended
returns so when it issues again (R194). -/
def Stream.atStop (c : Stream) : Stream := { c with park := none, exiting := false, object := none, ibuf := [], popped := [] }

/-- The thread as its stop leaves it (R275, R276): the strips above the oldest are gone, started groups and final passes
have finished, and the resume table lists the instructions issued and not complete, then those of an earlier stop that had
not been reissued; A copy reads the piece it stands at again. -/
def haltThread (s : State) (t : Thread) (r : StopReason) : Thread :=
  let t := finishStarted s 144 (dropStrips t)
  { t with
    status := .stopped r
    savedClock := s.clock
    flying := []
    resume := t.flying.map Flying.entry ++ t.resume
    fill0 := false
    fill1 := false
    polled := []
    copies := t.copies.map fun c => { c with fetched := [], lock := [] }
    a := t.a.atStop
    x := t.x.atStop }

/-- The notice a stop sends the usher, if any: of a trap at L0, or of a budget's end (R374, R376). -/
def stopNotice (s : State) (t : Thread) (r : StopReason) : Option Notice :=
  match r with
  | .trap =>
    let q : Strm := if t.estream == 0 then .a else .x
    let c := t.str q
    if c.priv == 0 then some ⟨t.tid, c.cause, c.epc, c.einfo, t.estream, resumeVa s t⟩ else none
  | .budget => some ⟨t.tid, cBUDGET.setWidth 64, t.a.pc, BitVec.ofNat 64 t.consumed, 0, resumeVa s t⟩
  | _ => none

/-- Whether two records are of one thread. -/
def sameThread (t u : Thread) : Bool := t.num == u.num && t.part == u.part && t.serial == u.serial

/-- A thread's record replaced. -/
def setThread (s : State) (t : Thread) : State := updThreads s (sameThread t) fun _ => t

/-- Whether a request is a read that an instruction not yet issued waits for. -/
def FabReq.early (q : FabReq) : Bool :=
  match q.kind with
  | .poll | .ifetch _ => true
  | _ => false

/-- The requests without those that a thread's unissued instructions wait for. -/
def dropEarly (s : State) (t : Thread) : List FabReq := s.reqs.filter fun q => !(q.of t && q.early)

/-- A STOP COMPLETED for the thread in focus (R275, R276): its image is saved and the usher told. After a stop for a
repair it goes on at once, on the core's new place (R421); in a partition that is switched out, at its next slice
(R387). -/
def completeStop (s : State) (r : StopReason) : State :=
  let t := haltThread s s.th r
  let s := { s with
    th := t
    rowq := s.rowq.filter fun j => !(j.lcore == t.lcore && j.slot == t.slot)
    reqs := dropEarly s t }
  let q : Strm := if r == .trap && t.estream != 0 then .x else .a
  let s := traceRec s t 3 q (t.str q).pc r.code
  let s := saveImage s t r.code
  if r == .repair && !(getPart s t.part).switchedOut then traceRec (setThread s { t with status := .running }) t 4 .a t.a.pc 0
  else
    match stopNotice s t r with
    | some n => queueNotice s t.part n
    | none => s

/-! ## Resumption -/

/-- A stopped thread resumed from its image (R261, R277, R379), with a fresh budget count (R376). -/
def resumeThread (s : State) (t : Thread) : State :=
  let st := restoreThread s t
  let t' := { st.2 with status := .running, consumed := 0 }
  traceRec (setThread st.1 t') t' 4 .a t'.a.pc 0

/-- A change to a thread that the spec makes whether it runs or not: in a stopped thread's saved image the given bytes
change, at their offsets, and no others (R255). -/
def reachThread (s : State) (t : Thread) (bytes : List (Nat × Bytes)) : State :=
  let s := setThread s t
  if t.isStopped then bytes.foldl (fun s b => patchImage s t b.1 b.2) s else s

/-! ## Notices (R374, R375) and the return from a trap (R259) -/

/-- The partition's notice being handled, where the issuing stream is the usher's A stream. -/
def handledNotice (s : State) : Option Notice :=
  if s.strm == .a && isUsher s s.th then (getPart s s.th.part).handling else none

/-- The stopped thread a notice is about. -/
def noticeThread (s : State) (n : Notice) : Option Thread :=
  (allThreads s).find? fun t => t.tid == n.tid && t.part == s.th.part && t.isStopped

/-- The handled notice retired; kind 7 of the trace (R77). -/
def retireNotice (s : State) : State :=
  let s := updPart s s.th.part fun p => { p with handling := none }
  traceRec s s.th 7 s.strm s.cur.pc 0

/-- Where a stream goes on when its task resumes at `epc` (R259). Where `epc` is the address of the oldest entry of the
resume table, the reissue of that entry resumes the task there (R277), and the stream goes on at its saved PC after it
(log 57). -/
def Thread.backPc (t : Thread) (st : Strm) (epc : Dword) : Dword :=
  if st == .x && t.resume.head?.map (fun e => e.pc) == some epc then t.x.pc else epc

/-- RETURN FROM A TRAP (R259): the task resumes at the trapping stream's EPC, with CAUSE, EPC and EINFO as the usher
left them. -/
def returnFromTrap (s : State) (n : Notice) : State :=
  let c := s.cur
  let s := retireNotice s
  match noticeThread s n with
  | none => s
  | some t =>
    let s := resumeThread s t
    updThreads s (sameThread t) fun u =>
      let st : Strm := if n.estream == 0 then .a else .x
      u.updStr st fun d => { d with pc := u.backPc st c.epc, cause := c.cause, epc := c.epc, einfo := c.einfo }

/-- A notice delivered to a partition's usher, whose thread is in focus (R374): its A stream, saved as not issued where it
is parked, is diverted to TVEC. A full link stack takes LSO (R66, R128) and leaves the notice queued. -/
def deliverNotice (s : State) (n : Notice) : State :=
  let pc := s.th.a.pc
  let s := { s with strm := .a, reqs := dropEarly s s.th }
  match linkPush pc s with
  | .ok (_, s) =>
    let s := updPart s s.th.part fun p => { p with notices := p.notices.drop 1, handling := some n }
    s.updTh fun t =>
      { t with
        estream := n.estream
        eresume := n.eresume
        polled := []
        a := { t.a.atStop with pc := t.tvec, cause := n.cause, epc := n.epc, einfo := n.einfo } }
  | .error e =>
    match e.early with
    | some (c, i) => takeTrap s c i
    | none => s

end Sys2Proof.Machine
end

