-- ==== Sys2Proof/Machine/Loop.lean ====
section
/-! DEFINITION. Grants, loop contexts, the stair and the modal settings (05_scalar_control, R131 to R142; 03_idioms, R92). -/

namespace Sys2Proof.Machine

/-! ## Grants (R131 to R137) -/

/-- The most elements one grant covers, by vtype (R131). -/
def vlmax (vt : Nat) : Nat :=
  match vt with
  | 0 | 1 | 12 | 13 => 2048
  | 2 | 3 | 8 | 9 => 1024
  | 4 | 5 | 10 => 512
  | _ => 256

/-- Grant (R132): how many elements the next strip covers. -/
def grant (vt rem done arm : Nat) (d : Bool) : Nat :=
  let g := min rem (min (vlmax vt) arm)
  if d && g < rem then
    let e := (done + g) / 256 * 256
    if done < e then e - done else g
  else g

/-- D is forced in a launch flagged D (R425). -/
def forcedD (s : State) (k : BitVec 1) : Bool := k == 1 || launchFlag s s.th 0

/-! ## The stair (R92, R138 to R140) -/

/-- Whether an operation may not stand in a stair's buffer (R92). -/
def stairForbidden (o : Op) : Bool :=
  match o with
  | .b | .bz | .bnz | .bltz | .bgez | .call | .ret | .jr | .bq | .bany | .bnone | .bend => true
  | .smb | .vloop | .stair | .stflg | .ststep => true
  | _ => false

/-- Whether the level an operation needs is that of its system register, which executing it checks (R74, R101). -/
def levelOfRegister (o : Op) : Bool :=
  match o with
  | .mfs | .mts | .mtsCause | .mtsScopetab | .mtsVbase | .mtsFmode | .mtsLattol => true
  | _ => false

/-- The fate of one buffer word at its STAIR (R92, R100): EINFO holds the word whatever the cause. Steps 1 to 5 come
first, then what R92 forbids (log 69). -/
def bufferCheck (s : State) (w : Word) : Option (BitVec 8) :=
  match opOf w with
  | none => some cILL
  | some o =>
    let i := opInfo w o
    if !i.ok3 || (o == .smb && s.strm == .x && fA w != 0) then some cILL
    else if (i.strm.isSome && i.strm != some s.strm) || !i.ops.all (Opnd.streamOk s.strm) then some cWSTR
    else if !levelOfRegister o && s.cur.priv.toNat < i.level then some cPROT
    else if stairForbidden o then some cILL
    else none

/-- The first address beyond the section an address stands in: the other stream's entry where that lies ahead, else
the end of the code image (R100, R365). Without a launch, or where its header could not be read, nothing ends it. -/
def sectionEnd (s : State) (pc : Nat) : Option Nat :=
  match launchOf s s.th with
  | none => none
  | some l =>
    let later := max l.record.aentry l.record.xentry
    if pc < later then some later else l.codeEnd

/-- The `n` buffer words from an address, each fetched and checked. A fetch that fails traps at the STAIR, with the
word's VA in EINFO (log 70). -/
def bufferWords : Nat → Dword → M (List Word)
  | 0, _ => pure []
  | n + 1, pc => do
    let w ← fetchAt pc
    let s ← get
    match bufferCheck s w with
    | some c => trap c (wordInfo w)
    | none =>
      let r ← bufferWords n (pc + 4)
      pure (w :: r)

/-- The masks set for a flight, first-only or last-only (R139). -/
def pendMask (p : StairPend) (f : Nat) (last : Bool) : BitVec 64 :=
  match p.masks.find? fun m => m.1 == (f, last) with
  | some m => m.2
  | none => 0

/-- STAIR (R92, R138, R139): the buffer checked, the counts and strides read, the pending configuration consumed, and
the first replay begun, or the buffer skipped where a count is 0. Field a names a source scalar even where nothing is
stepped (R52). DESIGN CHOICE: a pop port named there is not popped, for no stride is read; R53 says that each naming pops
and R139 gives an empty stride span (log 82). -/
def stairBody (w : Word) (d a : Reg) (len flights : Nat) : M Unit := do
  let s ← get
  let c := s.cur
  let m := c.pend.stepped.length
  let pc := c.pc
  need (if m == 0 then Opnd.ok (.src a) else 1 ≤ a.toNat && a.toNat + flights * m ≤ 104) cILL (wordInfo w)
  need (m != 0 || Opnd.streamOk s.strm (.src a)) cWSTR (wordInfo w)
  need (match sectionEnd s pc.toNat with
    | some e => decide (pc.toNat + 4 + 4 * len ≤ e)
    | none => true) cILL (wordInfo w)
  let words ← bufferWords len (pc + 4)
  let counts := (List.range flights).map fun f => (Store.get 0 c.gpr (d.toNat + f)).toNat
  need (counts.all fun n => decide (n < 2 ^ 32)) cILL (wordInfo w)
  let strides := (List.range (flights * m)).map fun k => Store.get 0 c.gpr (a.toNat + k)
  let fs := (List.range flights).map fun f =>
    (⟨atD 0 f counts, 0, pendMask c.pend f false, pendMask c.pend f true⟩ : StairFlight)
  let t : Stair := ⟨pc + 4, words, fs, c.pend.stepped, strides⟩
  updC fun c =>
    let c := { c with pend := ⟨[], []⟩ }
    if counts.any (fun n => n == 0) then { c with pc := pc + 4 + BitVec.ofNat 64 (4 * len), stair := none }
    else enterReplay t.replays c t

/-! ## Modal settings (R141) -/

/-- WBASE and MTS to VBASE (R56, R141): a base at or beyond the segment takes WIN; in A the base is only checked. -/
def setWindow (w : Nat) : M Unit := do
  let s ← get
  need (8 * w < s.th.segSize) cWIN (BitVec.ofNat 64 (8 * w * 256 + 128))
  if s.strm == .x then updT fun t => { t with wbase := w } else pure ()

/-! ## Overlapped strips (R273) -/

/-- Whether an operation of the vector file is elementwise (R151). -/
def elementwiseWord (o : Op) (w : Word) : Bool :=
  match o with
  | .vcvin => false
  | .vcvfi | .vcvif | .vdeq | .vmov | .vsplat | .viota | .vmerge => true
  | _ =>
    if fOp w == 0x59 then fD w != fA w
    else (0x50 ≤ fOp w && fOp w ≤ 0x55) || fOp w == 0x61

/-- Whether an operand is a register bound to a stream. -/
def boundOperand (t : Thread) : Opnd → Bool
  | .vec r n => (List.range n).any fun k => (boundTo t (phys t r k)).isSome
  | _ => false

/-- Whether the body of a loop, read from an address, lets its strips overlap: at most `n` − 1 vector instructions, each
elementwise or with a bound register, up to an SMB whose target is the body's start. -/
def bodyOverlaps (s : State) (body : Dword) : Nat → Dword → Bool
  | 0, _ => false
  | n + 1, pc =>
    match fetchAt pc s with
    | .error _ => false
    | .ok (w, _) =>
      match opOf w with
      | some .smb => pc + (w.extractLsb' 0 11).signExtend 64 * 4 == body
      | some o =>
        0x50 ≤ fOp w && fOp w ≤ 0x61 && (elementwiseWord o w || (opInfo w o).ops.any (boundOperand s.th)) &&
          bodyOverlaps s body n (pc + 4)
      | none => false

/-- The X stream of an overlapped loop at its SMB: the next strip begins, in flight with those before it, at most four in
all; `push` is what the SMB will push when they are committed. -/
def beginStrip (l : LoopCtx) (push : Option (Nat × Dword)) : M Unit := do
  let s ← get
  match (if s.strm == .x then l.stripNum else none) with
  | none => pure ()
  | some n =>
    updC fun c => { c with loop := c.loop.map fun k => { k with stripNum := some (n + 1) } }
    if s.th.idle then pure ()
    else upd fun s => s.updTh fun t => { t with strips := t.strips ++ [⟨n + 1, t.x, push⟩] }

/-- The result of an SMB that begins a strip: written at once, but for a push behind strips that are not committed, which
waits for them once the queue has room for it (R273). -/
def stripResult (l : LoopCtx) (d : Reg) (v : Dword) : M (Option (Nat × Dword)) := do
  let s ← get
  if isPort d && s.strm == .x && l.stripNum.isSome && !s.th.idle then
    let owed := (s.th.strips.filter fun m => match m.push with
      | some p => p.1 == d.toNat
      | none => false).length
    if qDepth d.toNat ≤ (s.th.queue d.toNat).length + owed then park (.push d.toNat)
    else pure (some (d.toNat, if 116 ≤ d.toNat then (if v == 0 then 0 else 1) else v))
  else
    wr d v
    pure none

/-- Whether the strips of the issuing stream hold its SMB back: a fifth one waits for the oldest, and the last one for all
before it. -/
def stripsWait (s : State) (last : Bool) : Bool := s.strm == .x && (if last then !s.th.strips.isEmpty else 3 ≤ s.th.strips.length)

/-! ## The instructions -/

/-- VLGET (R133). Sets vtype and writes a grant to vl and sd. -/
def execVlget (d : Reg) (a : Reg) (k : BitVec 1) (t : BitVec 4) (s : State) : Out :=
  issueN .vlget (fmtI 0x20#7 d a (0#6 ++ k ++ t)) (do
    let n ← rd a
    let s ← get
    let g := grant t.toNat n.toNat 0 s.cur.arm.toNat (forcedD s k)
    updC fun c => { c with vtype := t, arm := BitVec.allOnes 64, vl := BitVec.ofNat 64 g }
    wr d (BitVec.ofNat 64 g)) s

/-- VLOOP (R134). Opens a loop context and writes its first grant. -/
def execVloop (d : Reg) (a : Reg) (j : BitVec 1) (k : BitVec 1) (t : BitVec 4) (s : State) : Out :=
  issueN .vloop (fmtI 0x21#7 d a (0#5 ++ j ++ k ++ t)) (do
    let n ← rd a
    let s ← get
    let dd := forcedD s k
    let g := grant t.toNat n.toNat 0 s.cur.arm.toNat dd
    updC fun c =>
      { c with
        vtype := t
        arm := BitVec.allOnes 64
        vl := BitVec.ofNat 64 g
        loop := some ⟨c.pc + 4, n, 0, dd, j == 1,
          if j == 1 && s.strm == .x && bodyOverlaps s (c.pc + 4) 9 (c.pc + 4) then some 0 else none⟩ }
    wr d (BitVec.ofNat 64 g)) s

/-- SMB (R136). Retires a strip, advances address registers, grants the next length and branches. A grant of 0 while
strip is above 0 keeps the context (log 34). -/
def execSmb (d : Reg) (k : BitVec 3) (m : BitVec 4) (o : BitVec 11) (s : State) : Out :=
  issue .smb (fmtI 0x1b#7 d (k ++ m) o) (do
    let s ← get
    match s.cur.loop with
    | none => illWord (fmtI 0x1b#7 d (k ++ m) o)
    | some l =>
      if stripsWait s (l.strip == s.cur.vl) then park .work else pure ()
      let g := s.cur.vl
      updT fun t => (List.range 4).foldl (fun t j =>
        if m.getLsbD j then
          let r : Reg := BitVec.ofNat 7 (4 * k.toNat + j)
          t.setAr r.toNat (t.ar r + g * t.arStride r)
        else t) t
      let strip := l.strip - g
      let done := l.done + g
      updC fun c => { c with sbase := c.sbase + g }
      if strip == 0 then
        updC fun c => { c with vl := 0, loop := none }
        wr d 0
        upd advance
      else
        let v := grant s.cur.vtype.toNat strip.toNat done.toNat s.cur.arm.toNat l.dflag
        updC fun c =>
          { c with vl := BitVec.ofNat 64 v, arm := BitVec.allOnes 64, loop := some { l with strip := strip, done := done } }
        let q ← stripResult l d (BitVec.ofNat 64 v)
        let t ← see fun s => target s o
        jump t
        beginStrip l q) s

/-- STAIR (R92). Replays the following buffer over up to six flights, stepping scalars. -/
def execStair (d : Reg) (a : Reg) (l : BitVec 6) (f : BitVec 3) (s : State) : Out :=
  issue .stair (fmtI 0x22#7 d a (0#2 ++ l ++ f)) (stairBody (fmtI 0x22#7 d a (0#2 ++ l ++ f)) d a (if l == 0 then 64 else l.toNat) f.toNat) s

/-- STFLG (R139). Sets the pending first-only or last-only mask of one flight. -/
def execStflg (a : Reg) (k : BitVec 1) (f : BitVec 6) (s : State) : Out :=
  issueN .stflg (fmtI 0x23#7 0#7 a (0#4 ++ k ++ f)) (do
    let v ← rd a
    updC fun c =>
      { c with pend := { c.pend with
          masks := ((f.toNat, k == 1), v) :: c.pend.masks.filter fun e => e.1 != (f.toNat, k == 1) } }) s

/-- STSTEP (R92). Names the pending stepped scalars of the next stair. -/
def execStstep (d : Reg) (a : Reg) (b : Reg) (m : BitVec 4) (s : State) : Out :=
  issueN .ststep (fmtR 0x24#7 d a b m) (updC fun c => { c with pend := { c.pend with stepped := [d, a, b].take m.toNat } }) s

/-- WBASE (R141). Sets the vector window base, or checks it in A. -/
def execWbase (w : BitVec 6) (s : State) : Out :=
  issueN .wbase (fmtI 0x25#7 0#7 0#7 (0#5 ++ w)) (setWindow w.toNat) s

/-- FMODE (R141). Sets fmode bits [6:0]. -/
def execFmode (m : Reg) (s : State) : Out :=
  issueN .fmode (fmtI 0x26#7 0#7 0#7 (0#4 ++ m)) (updC fun c => { c with fmode := m }) s

/-- SCOPE (R141). Sets the A stream's scope id. -/
def execScope (i : BitVec 5) (s : State) : Out :=
  issueN .scope (fmtI 0x27#7 0#7 0#7 (0#6 ++ i)) (updT fun t => { t with scope := i }) s

/-- VMASK (R141). Sets the governing predicate. -/
def execVmask (p : Reg) (s : State) : Out :=
  issueN .vmask (fmtI 0x28#7 0#7 0#7 (0#4 ++ p)) (updT fun t => { t with gpred := p }) s

end Sys2Proof.Machine
end

