-- ==== Sys2Proof/Machine/System.lean ====
section
/-! DEFINITION. Launch and system instructions (08_race_functions_groups_system, R256 to R264; 02_state, R74 to R77). -/

namespace Sys2Proof.Machine

/-! ## System registers (R74 to R77) -/

/-- The launch whose digest registers a thread reads and writes; none for an usher. -/
def digestLaunch (s : State) : Option Launch := launchOf s s.th

/-- What a system register reads as in the issuing stream (R74); the level and the number are checked at decode. -/
def sysRead (s : State) (n : Nat) : Dword :=
  let t := s.th
  let c := s.cur
  let p := getPart s t.part
  if n == 0x00 then BitVec.ofNat 64 t.part
  else if n == 0x01 then c.priv.setWidth 64
  else if n == 0x02 then BitVec.ofNat 64 t.serial
  else if n == 0x10 then c.cause
  else if n == 0x11 then c.epc
  else if n == 0x12 then c.einfo
  else if n == 0x13 then t.estream
  else if n == 0x14 then t.eresume
  else if n == 0x18 then t.tvec
  else if n == 0x20 then BitVec.ofNat 64 (t.segBase + (t.segSize / 32 - 1) * 2 ^ 16)
  else if n == 0x21 then BitVec.ofNat 64 t.wbase
  else if n == 0x30 then c.fmode.setWidth 64
  else if n == 0x31 then c.vtype.setWidth 64
  else if n == 0x40 then p.scopeVa
  else if n == 0x50 then (match digestLaunch s with
    | some l => l.digLo
    | none => p.dig0)
  else if n == 0x51 then (match digestLaunch s with
    | some l => l.digHi
    | none => p.dig1)
  else if n == 0x52 then (match digestLaunch s with
    | some l => l.record.digLo
    | none => p.digRef0)
  else if n == 0x53 then (match digestLaunch s with
    | some l => l.record.digHi
    | none => p.digRef1)
  else if n == 0x60 then t.mcword
  else if n == 0x70 then t.spilla
  else if n == 0x71 then t.spillx
  else if n == 0x80 then BitVec.ofNat 64 s.health.latTol
  else if n == 0x90 then p.trace
  else if 0x200 ≤ n && n < 0x220 && counting p then Store.get 0 s.counters (counterKey t.lcore t.part n)
  else 0

/-- A recorded digest written: that of the issuing thread's launch, or the usher's (R74). -/
def setDigRef (s : State) (high : Bool) (v : Dword) : State :=
  match digestLaunch s with
  | some l => updLaunch s l.serial fun l =>
      { l with record := if high then { l.record with digHi := v } else { l.record with digLo := v } }
  | none => updPart s s.th.part fun p => if high then { p with digRef1 := v } else { p with digRef0 := v }

/-- A system register that has no behaviour of its own written; reserved bits are discarded (R8, R74 to R77). -/
def sysWrite (s : State) (n : Nat) (v : Dword) : State :=
  if n == 0x00 then s.updTh fun t => { t with part := v.toNat % 16 }
  else if n == 0x11 then s.updCur fun c => { c with epc := v }
  else if n == 0x12 then s.updCur fun c => { c with einfo := v }
  else if n == 0x13 then s.updTh fun t => { t with estream := v &&& 1 }
  else if n == 0x14 then s.updTh fun t => { t with eresume := v }
  else if n == 0x18 then s.updTh fun t => { t with tvec := v }
  else if n == 0x52 then setDigRef s false v
  else if n == 0x53 then setDigRef s true v
  else if n == 0x60 then s.updTh fun t => { t with mcword := v }
  else if n == 0x70 then s.updTh fun t => { t with spilla := v }
  else if n == 0x71 then s.updTh fun t => { t with spillx := v }
  else if n == 0x90 then updPart s s.th.part fun p => { p with trace := v &&& 0x007FFFFFFFFFF01F }
  else if 0x200 ≤ n && n < 0x220 && counting (getPart s s.th.part) then
    { s with counters := Store.put 0 s.counters (counterKey s.th.lcore s.th.part n) v }
  else s

/-- FMODE's mirror written: a rounding code of 5 to 7 leaves RM as it is (R26). -/
def mirrorFmode (old : BitVec 7) (v : Dword) : BitVec 7 :=
  if v.toNat % 8 ≤ 4 then BitVec.ofNat 7 v.toNat else BitVec.ofNat 7 (v.toNat % 128 / 8 * 8 + old.toNat % 8)

/-- The programmed entries of a scope-table image (R301): entries 0 to 6 are ignored, and a reserved bit that is not 0
leaves an entry unprogrammed. -/
def scopesOf (b : Bytes) : Store (BitVec 512) :=
  (List.range 32).foldl (fun m k =>
    let e : BitVec 512 := BitVec.ofNat 512 (field b (64 * k) 64)
    if 7 ≤ k && e.getLsbD 386 && e.toNat / 2 ^ 387 == 0 then Store.put 0 m k e else m) []

/-- The thread of the handled notice ended, as if both streams had executed HALT (R375). -/
def endNoticed (s : State) (n : Notice) : State :=
  match noticeThread s n with
  | none => s
  | some t => endThread s t (if n.estream == 0 then .a else .x) true

/-- MTS to CAUSE (R375): 0x00 and 0xFF retire the notice being handled, 0xFF ends its task. -/
def writeCause (s : State) (v : Dword) : State :=
  let s := s.updCur fun c => { c with cause := v &&& 0xFF }
  match handledNotice s with
  | none => s
  | some n =>
    if v &&& 0xFF == 0 then retireNotice s else if v &&& 0xFF == 0xFF then endNoticed (retireNotice s) n else s

/-! ## Threads by their ID (R261, R384) -/

/-- The thread of the issuing partition with a given ID. -/
def findTid (s : State) (v : Dword) : Option Thread :=
  (allThreads s).find? fun t => t.status != .free && t.part == s.th.part && t.tid == v.toNat

/-- Bytes written by an instruction from a VA upward: every page must be writable before anything is written (R393, R405). -/
def writeBlock (va : Dword) (bs : Bytes) : M Unit := do
  let ps ← (pageRuns va.toNat bs.length).mapM fun r => do
    let a : Dword := BitVec.ofNat 64 r.va
    let t ← resolve a r.n .write
    interlock a r.n true
    if t.mode == 4 then
      let _ ← multicastCheck a t r.n
    else if t.mode == 0 || t.mode == 1 then pure ()
    else trapBack cPROT a
    pure (r, t)
  ps.forM fun p => do
    let d := (bs.drop p.1.off).take p.1.n
    if p.2.mode == 0 then writeAt (BitVec.ofNat 64 p.1.va) p.2 d true
    else (lineParts p.1.va p.1.n).forM fun q => do
      let a : Dword := BitVec.ofNat 64 (p.1.va + q.1)
      let bytes := (d.drop q.1).take q.2
      if p.2.mode == 4 then multicastWrite 0 a { p.2 with key := p.2.key + q.1 } bytes true
      else upd fun s => sendReq s (.store true) (ptePeer p.2.leaf) a (p.2.key + q.1) bytes none

/-- Bytes read by an instruction from a VA upward, page by page. -/
def readPages (va : Dword) (n : Nat) : M Bytes :=
  (pageRuns va.toNat n).foldlM (fun acc r => do
    let b ← readBlock (BitVec.ofNat 64 r.va) r.n .reply
    pure (acc ++ b)) []

/-- CTXSAVE of a thread that may be read (R261, R379). -/
def saveAt (va : Dword) (t : Thread) : M Unit := do
  let b ← see fun s => image s t StopReason.ctxsave.code
  writeBlock va b

/-- CTXLOAD into a stopped thread (R261, R379): PROT for an image of another version, of another partition's thread, or
with other reservations, and for one that uses what is reserved (log 72). -/
def loadAt (va : Dword) (t : Thread) (r : StopReason) : M Unit := do
  let h ← readPages va 0x9000
  need (field h 0 4 == 1) cPROT va
  let foreign ← see fun s => (allThreads s).any fun u => u.status != .free && u.part != t.part && u.tid == field h 8 4
  need (!foreign) cPROT va
  need (imageOk t h) cPROT va
  let b ← readPages va (field h 4 4 * 4096)
  upd fun s =>
    let q := installImage s t b
    saveImage (setThread q.1 q.2) q.2 r.code

/-- A context function on a thread ID: stat 0x51 where no such thread exists, 0x50 where it runs (R261). -/
def onStopped (v : Dword) (f : Thread → StopReason → M Unit) : M Unit := do
  let s ← get
  match findTid s v with
  | none => setStat 0x51
  | some t =>
    match t.status with
    | .stopped r =>
      f t r
      setStat 0
    | _ => setStat 0x50

/-- PREEMPT (R261, R373, R377): the instruction waits for the stop it asks for. -/
def preempt (v : Dword) : M Unit := do
  let s ← get
  match findTid s v with
  | none => setStat 0x51
  | some t =>
    if isUsher s t || t.isStopped then setStat 0
    else
      set (setThread s (t.askStop .preempt))
      parkAgain .work

/-! ## LAUNCH (R256, R364) -/

/-- A record appended to a launch queue: what sd receives. -/
def appendRecord (q : Nat) (b : Bytes) (ok : Bool) : M Nat := do
  let p ← see fun s => getPart s s.th.part
  if !ok then pure 0x41
  else if 64 ≤ (p.queue q).length then pure 0x40
  else
    upd fun s => updPart s s.th.part fun p => p.setQueue q (p.queue q ++ [⟨recordOf b, 0, false⟩])
    pure 0

/-- The record at a VA and its image header read and checked (R364, R365). -/
def readRecord (va : Dword) : M (Bytes × Bool) := do
  let b ← readBlock va 128 .reply
  if recordValid b then
    let r := recordOf b
    let h ← readBlock (BitVec.ofNat 64 (r.args - 0x40)) 64 .reply
    pure (b, headerValid r h)
  else pure (b, false)

/-! ## DIGCHK (R263) -/

/-- DIGCHK's answer for a launch (R263). For one that ended without a recorded digest the spec states none: that value is
free (log 46). -/
def digestAnswer (l : Launch) : M Dword :=
  if !l.ended then pure 2
  else if l.ushered then pure 4
  else if l.record.digLo == 0 && l.record.digHi == 0 then freeValue
  else pure (if digestWrong l then 1 else 0)

/-! ## EXIT and HALT (R258, R264) -/

/-- HALT: the thread ends at once. -/
def haltNow : M Unit := do
  let s ← get
  set (endThread (countIssue s) s.th s.strm true)

/-- LAUNCH (R256). Validates a launch record and appends it to a launch queue. -/
def execLaunch (d : Reg) (a : Reg) (b : Reg) (s : State) : Out :=
  issueN .launch (fmtR 0x47#7 d a b 0#4) (do
    let q ← rd b
    need (q.toNat < 16) cILL (wordInfo (fmtR 0x47#7 d a b 0#4))
    let va ← see fun s => s.th.ar a
    aligned va 128
    let r ← readRecord va
    let st ← appendRecord q.toNat r.1 r.2
    let _ ← beginTransfer
    wr d (BitVec.ofNat 64 st)
    setStat st) s

/-- EXIT (R258). Waits for the stream's earlier work and ends the stream: it stays at its own address, parked, until that
work has finished. -/
def execExit (s : State) : Out :=
  issue .exit (fmtR 0x78#7 0#7 0#7 0#7 0#4) (do
    upd retire
    updC fun c => { c with exiting := true }
    parkHere .exit) s

/-- ERET (R259). Resumes the task whose trap the usher handles. -/
def execEret (s : State) : Out :=
  issueN .eret (fmtR 0x78#7 0#7 0#7 0#7 1#4) (do
    let s ← get
    match handledNotice s with
    | some n => set (returnFromTrap s n)
    | none => illWord (fmtR 0x78#7 0#7 0#7 0#7 1#4)) s

/-- MFS (R260). Reads a system register. -/
def execMfs (d : Reg) (a : Reg) (b : Reg) (s : State) : Out :=
  issueN .mfs (fmtR 0x78#7 d a b 2#4) (do
    let v ← see fun s => sysRead s (sysNo a b)
    wr d v) s

/-- MTS (R260). Writes a system register that has no behaviour of its own. -/
def execMts (d : Reg) (a : Reg) (b : Reg) (s : State) : Out :=
  issueN .mts (fmtR 0x78#7 d a b 3#4) (do
    let v ← rd d
    upd fun s => sysWrite s (sysNo a b) v) s

/-- MTS_CAUSE (R375). Writes CAUSE, retiring a notice on 0x00 or 0xFF. -/
def execMtsCause (d : Reg) (s : State) : Out :=
  issueN .mtsCause (fmtR 0x78#7 d 0#7 0x10#7 3#4) (do
    let v ← rd d
    upd fun s => writeCause s v) s

/-- MTS_SCOPETAB (R301). Loads the whole scope-table image. -/
def execMtsScopetab (d : Reg) (s : State) : Out :=
  issueN .mtsScopetab (fmtR 0x78#7 d 0#7 0x40#7 3#4) (do
    let v ← rd d
    aligned v 2048
    let b ← readBlock v 2048 .reply
    upd fun s => updPart s s.th.part fun p => { p with scopeVa := v, scopes := scopesOf b }) s

/-- MTS_VBASE (R74). Sets the window base as WBASE does. -/
def execMtsVbase (d : Reg) (s : State) : Out :=
  issueN .mtsVbase (fmtR 0x78#7 d 0#7 0x21#7 3#4) (do
    let v ← rd d
    setWindow (v.toNat % 64)) s

/-- MTS_FMODE (R26). Writes the fmode mirror, keeping RM on reserved codes. -/
def execMtsFmode (d : Reg) (s : State) : Out :=
  issueN .mtsFmode (fmtR 0x78#7 d 0#7 0x30#7 3#4) (do
    let v ← rd d
    updC fun c => { c with fmode := mirrorFmode c.fmode v }) s

/-- MTS_LATTOL (R431). Sets the idle latency tolerance and wakes the device. -/
def execMtsLattol (d : Reg) (s : State) : Out :=
  issueN .mtsLattol (fmtR 0x78#7 d 1#7 0#7 3#4) (do
    let v ← rd d
    upd fun s => { s with health := { s.health with latTol := v.toNat % 2 ^ 24 } }) s

/-- CTXSAVE (R261). Writes a stopped thread's context image. -/
def execCtxsave (a : Reg) (b : Reg) (s : State) : Out :=
  issueN .ctxsave (fmtR 0x78#7 0#7 a b 4#4) (do
    let v ← rd b
    let va ← see fun s => s.th.ar a
    aligned va 4096
    onStopped v fun t _ => saveAt va t) s

/-- CTXLOAD (R261). Installs a context image into a stopped thread. -/
def execCtxload (a : Reg) (b : Reg) (s : State) : Out :=
  issueN .ctxload (fmtR 0x78#7 0#7 a b 5#4) (do
    let v ← rd b
    let va ← see fun s => s.th.ar a
    aligned va 4096
    onStopped v fun t r => loadAt va t r) s

/-- NOTIFY (R262). Raises an MSI-X vector of the partition's virtual function. -/
def execNotify (a : Reg) (s : State) : Out :=
  issueN .notify (fmtR 0x78#7 0#7 a 0#7 6#4) (do
    let v ← rd a
    need (v.toNat < 64) cILL (wordInfo (fmtR 0x78#7 0#7 a 0#7 6#4))
    upd fun s => raiseMsix s s.th.part v.toNat) s

/-- PREEMPT (R261). Requests a stop of a running thread. -/
def execPreempt (a : Reg) (s : State) : Out :=
  issueN .preempt (fmtR 0x78#7 0#7 a 0#7 7#4) (do
    let v ← rd a
    preempt v) s

/-- RESUME (R261). Resumes a stopped thread from its image. -/
def execResume (a : Reg) (s : State) : Out :=
  issueN .resume (fmtR 0x78#7 0#7 a 0#7 8#4) (do
    let v ← rd a
    let s ← get
    match findTid s v with
    | none => setStat 0x51
    | some t =>
      if t.isStopped then
        set (resumeThread s t)
        setStat 0
      else setStat 0x50) s

/-- DIGCHK (R263). Reports a launch's digest comparison and loads DIG0 and DIG1. -/
def execDigchk (d : Reg) (s : State) : Out :=
  issueN .digchk (fmtR 0x78#7 d 0#7 0#7 9#4) (do
    let v ← rd d
    let s ← get
    match s.launches.find? fun l => l.serial == v.toNat % 2 ^ 13 && l.part == s.th.part with
    | none => wr d 3
    | some l =>
      set (updPart s s.th.part fun p => { p with dig0 := l.digLo, dig1 := l.digHi })
      let v ← digestAnswer l
      wr d v) s

/-- HALT (R264). Ends the issuing thread at once. -/
def execHalt (s : State) : Out :=
  issue .halt (fmtR 0x78#7 0#7 0#7 0#7 0xa#4) (haltNow) s

end Sys2Proof.Machine
end

