-- ==== Sys2Proof/Machine/Events.lean ====
section
/-! DEFINITION. The device's own events about one thread (R178, R258, R265 to R279, R286 to R306, R374 to R376, R398 to R402). -/

namespace Sys2Proof.Machine

/-! ## Events about one thread -/

/-- A change to the state with the thread of a slot in focus; nothing where no thread occupies it. -/
def onSlot (n : Nat) (s : State) (f : State → State) : Out :=
  match focus s n with
  | some s' => .next (f s')
  | none => .next s

/-- Whether a thread runs, so that its engines move and its streams issue (R217, R275). -/
def Thread.runs (t : Thread) : Bool := t.status == .running

/-- A stream's park ended: it issues its instruction again (R268). -/
def unpark (s : State) (q : Strm) : State := s.updTh fun t => t.updStr q fun c => { c with park := none }

/-- Whether a stream stands at a boundary where it can trap: the X stream of overlapped strips only when one strip is left
(R273), the A stream not inside a load or atomic that a peer has to answer (R78). -/
def atBoundary (s : State) (q : Strm) : Bool :=
  match q with
  | .a => !awaiting s s.th
  | .x => s.th.strips.isEmpty

/-- A trap taken by a stream of the thread in focus, at its boundary (R78). -/
def trapOn (s : State) (q : Strm) (cause : BitVec 8) (info : Dword) : State := takeTrap { s with strm := q } cause info

/-! ## Answers of peers to this device's requests (R182, R265, R398 to R402) -/

/-- A request removed. -/
def dropReq (s : State) (id : Nat) : State := { s with reqs := s.reqs.filter fun q => q.id != id }

/-- Whether a thread is the one a request was sent for. -/
def FabReq.isOf (q : FabReq) (u : Thread) : Bool := u.status != .free && q.of u && u.serial == q.serial

/-- The thread of a request in focus, if it is still there, its partition switched in or not. -/
def focusReq (s : State) (q : FabReq) : Option State :=
  if q.isOf s.th then some s
  else
    match s.others.find? q.isOf with
    | some u =>
      let rest := dropFirst q.isOf s.others
      some { s with th := u, others := if s.th.status == .free then rest else rest ++ [s.th] }
    | none => none

/-- The width in bytes of a load or atomic request's result. -/
def FabReq.width (q : FabReq) : Nat := if q.kind == .load then leNat q.data else q.data.length

/-- The region boundary that a CAS at a peer still owes, once its answer tells whether it wrote (R183). -/
def FabReq.owesBoundary (q : FabReq) (old : Nat) : Bool :=
  match q.kind with
  | .atomic _ (some e) edge edgeFailed => if old == e then edge else edgeFailed
  | _ => false

/-- A load or atomic completed with its value: written or pushed, and the A stream moves on. -/
def completeLoad (q : FabReq) (data : Bytes) (s : State) : State :=
  let old := leNat (padTo q.width data)
  let body : M Unit := do
    if q.owesBoundary old then boundary else pure ()
    wr (q.dst.getD 0) (BitVec.ofNat 64 old)
    upd retire
    upd advance
  match body { s with strm := .a } with
  | .ok (_, s') => dropReq s' q.id
  | .error _ => s

/-- A GMOVE's answer from the device that leadership moves to (R248): the group's name from now on, or 0 where no slot is
free. -/
def completeMove (q : FabReq) (key : Nat) (spec : Dword) (data : Bytes) (s : State) : State :=
  let name := leNat (padTo 4 data)
  let body : M Unit := do
    let s ← get
    if name != 0 then set (moveGroup s s.th.part key (readGroup s key) (spec.toNat % 2 ^ 24) name) else pure ()
    wr (q.dst.getD 0) (BitVec.ofNat 64 name)
    setStat (if name == 0 then 0x31 else 0)
    upd retire
    upd advance
  match body { s with strm := .a } with
  | .ok (_, s') => dropReq s' q.id
  | .error _ => s

/-- Bytes a peer sent for an engine transfer put where the transfer keeps them: in the chunk, as far as it takes them (R201),
with a copy's or a command's fetched bytes. -/
def giveFetched (t : Thread) (region off va : Nat) (data : Bytes) : Thread :=
  let place (c : Chunk) : Chunk :=
    let n := data.length
    let mask : VReg := BitVec.ofNat 16384 (2 ^ (8 * n) - 1) <<< (8 * off)
    { c with data := (c.data &&& ~~~mask) ||| (BitVec.ofNat 16384 (leNat data) <<< (8 * off)) }
  { t with
    xfers := t.xfers.map fun x =>
      if x.region == region then { x with chunk := { place x.chunk with data := (place x.chunk).data &&& x.keep } } else x
    copies := t.copies.map fun c => if c.region == region then { c with fetched := c.fetched ++ [(va, data)] } else c
    svcmds := t.svcmds.map fun c => if c.region == region then { c with got := c.got ++ [(va, data)] } else c }

/-- A write of a thread that a peer has performed, in its launch's digest (R422). -/
def counted (q : FabReq) (s : State) : State := foldDigestOf s q.serial q.index q.va q.data

/-- An answer to a request that reads or writes a multicast record at a peer (R406): the record read is written back with
the answers counted, and the answers that have come since are counted in their turn. -/
def mcAnswer (q : FabReq) (put : Bool) (todo : List (Nat × Nat × Option (Nat × Nat))) (data : Bytes) (s : State) : State :=
  let again (kind : ReqKind) (bs : Bytes) : State :=
    { s with reqs := s.reqs ++ [{ q with kind := kind, data := bs, issued := s.clock.toNat }] }
  if !put then again (.mcword true []) (todo.foldl mcApply (padTo 16 data))
  else if todo.isEmpty then s else again (.mcword false todo) (leBytes 2 16)

/-- A copy's line at a peer is free for others' combinations once none of its writes there is owed an answer (R287). -/
def freeLine (q : FabReq) (region : Nat) (s : State) : State :=
  let owedThere := s.reqs.any fun u => u.of s.th && (u.peer, u.pa / 256) == (q.peer, q.pa / 256) && match u.kind with
    | .deliver r _ => r == region
    | _ => false
  if owedThere then s
  else s.updTh fun t => { t with copies := t.copies.map fun c =>
    if c.region == region then { c with lock := c.lock.filter fun l => l != (q.peer, q.pa / 256) } else c }

/-- An answer without a NACK. -/
def answerOk (q : FabReq) (data : Bytes) (s : State) : State :=
  match q.kind with
  | .load | .atomic .. => completeLoad q data s
  | .gmove key spec => completeMove q key spec data s
  | .poll =>
    unpark ((dropReq s q.id).updTh fun t => { t with polled := t.polled ++ [(q.va, padTo (leNat q.data) data)] }) .a
  | .ifetch p => (dropReq s q.id).updTh fun t =>
    t.updStr p fun c => { c with ibuf := [(BitVec.ofNat 64 q.va, BitVec.ofNat 32 (leNat (padTo 4 data)))] }
  | .fetch region off n => (dropReq s q.id).updTh fun t => giveFetched t region off q.va (padTo n data)
  | .deliver region quiet =>
    let s := freeLine q region (dropReq s q.id)
    if quiet then s else counted q s
  | .store quiet => if quiet then dropReq s q.id else counted q (dropReq s q.id)
  | .red .. => counted q (dropReq s q.id)
  | .mcword put todo => mcAnswer q put todo data (dropReq s q.id)
  | .multicast .. | .fill _ => s
  | .host vf op _ => { dropReq s q.id with hostLog := s.hostLog ++ [.served vf (padTo (rmwSize op) data)] }
  | .word _ | .forward .. | .done .. | .device _ => dropReq s q.id

/-- An engine transfer of a thread stopped, without its completion word (R209). -/
def stopTransfer (t : Thread) (region : Nat) : Thread :=
  { t with
    xfers := t.xfers.filter fun x => x.region != region
    copies := t.copies.filter fun c => c.region != region
    svcmds := t.svcmds.filter fun c => c.region != region }

/-- What an instruction popped, given back to the heads of its queues (R115). -/
def giveBack (l : List (Nat × Dword)) (s : State) : State :=
  l.reverse.foldl (fun s e => s.updTh fun t => t.setQueue e.1 (e.2 :: t.queue e.1)) s

/-- A NACK that traps a stream precisely: the instruction stands as not issued. While the thread is being stopped it will
only issue again (R275). -/
def preciseNack (q : FabReq) (p : Strm) (f : Option Failure) (s : State) : State :=
  let s := unpark (giveBack q.popped s) p
  match f with
  | some f => if s.th.runs then trapOn s p f.1 f.2 else s
  | none => s

/-- The VA that a refused request's trap names: of a state-vector participant's part, the base of the amplitudes there
(R339; log 25). -/
def FabReq.faultVa (q : FabReq) (t : Thread) : Nat :=
  if q.va < 2 ^ 64 then q.va
  else match t.svcmds.find? fun c => c.region == q.region with
    | some c => svBase c.recBytes
    | none => 0

/-- A NACK, or no answer in time (cause 4), for a request (R402): precise for a load, an atomic, an instruction fetch and
the reads an instruction makes before it issues; late for stores and engine transfers. -/
def answerNack (q : FabReq) (cause : Nat) (s : State) : State :=
  let f := nackFailure cause (q.faultVa s.th)
  let s := dropReq s q.id
  let late (s : State) : State := match f with
    | some f => s.updTh fun t => t.setLate f.1 f.2
    | none => s
  let stop (region : Nat) : State := if f.isNone then s else late (s.updTh fun t => stopTransfer t region)
  match q.kind with
  | .load | .atomic .. | .gmove .. => preciseNack q .a f s
  | .poll => if s.th.a.park.isSome then preciseNack q .a f s else s
  | .ifetch p => if (s.th.str p).pc.toNat == q.va then preciseNack q p f s else s
  | .fetch region .. | .deliver region _ | .red region _ => stop region
  | .store _ | .word _ => late s
  | .host vf .. => { s with hostLog := s.hostLog ++ [.abort vf] }
  | .multicast .. | .mcword .. | .fill _ | .forward .. | .done .. | .device _ => s

/-! ## Multicast answers (R406) -/

/-- The thread of a request as its multicast record is reached: the thread itself, or what the request says of one that
has ended. -/
def reqThread (s : State) (q : FabReq) : Thread :=
  ((allThreads s).find? q.isOf).getD
    { Thread.reset q.lcore q.slot with part := q.part, serial := q.serial, index := q.index }

/-- The answer of one peer to a multicast write counted, if that peer owes one; the last answer updates the request's
record. -/
def copyAnswer (s : State) (q : FabReq) (peer cause : Nat) : State :=
  match q.kind with
  | .multicast region word copies ok nacks first =>
    if !copies.any fun c => c.1 == peer then s
    else
      let left := dropFirst (fun c => c.1 == peer) copies
      let ok := if cause == 0 then ok + 1 else ok
      let first := if cause != 0 && nacks == 0 then some (peer, cause) else first
      let nacks := if cause == 0 then nacks else nacks + 1
      if left.isEmpty then
        let s := dropReq s q.id
        mcUpdate s (reqThread s q) word ok nacks first
      else
        { s with reqs := s.reqs.map fun r =>
          if r.id == q.id then { r with kind := .multicast region word left ok nacks first } else r }
  | _ => s

/-- Every copy of a multicast write that has no answer yet counted as timed out (R401, R406). -/
def copiesTimeOut (s : State) (q : FabReq) : State :=
  match q.kind with
  | .multicast _ _ copies .. => copies.foldl (fun s c =>
      match s.reqs.find? fun r => r.id == q.id with
      | some r => copyAnswer s r c.1 4
      | none => s) s
  | _ => s

/-- Whether an answer comes in time: 100 µs after its issue the source counts cause 4 (R401). -/
def timely (s : State) (issued : Nat) : Bool := s.clock.toNat < issued + 150000

/-- A page's fill refused, or not answered in time: the accesses that wait for its frame will take the trap (R402). -/
def failFill (s : State) (q : FabReq) (migrate : Bool) (cause : Nat) : State :=
  let s := dropReq s q.id
  { s with frames := s.frames.map fun f =>
      if f.part == q.part && f.vpage == q.va / 65536 && f.migrate == migrate && !f.filled then { f with failed := some cause } else f }

/-- The answer to a launch's completion word (R372): a refusal is an event record, and after the last answer the launch
signals its end. -/
def doneAnswer (s : State) (q : FabReq) (serial va cause : Nat) : State :=
  let s := dropReq s q.id
  let s := if cause == 0 then s else logEvent s q.part 9 0 va serial 0 0 0
  match s.launches.find? fun l => l.serial == serial && l.part == q.part && l.ended with
  | some l => launchSignal s l
  | none => s

/-- An answer given to the thread of a request. A launch's completion word and a page's fill have none, and a multicast
write is answered peer by peer. -/
def answerReq (s : State) (id : Nat) (f : FabReq → State → State) (cause : Nat) : State :=
  match s.reqs.find? fun q => q.id == id with
  | none => s
  | some q =>
    match q.kind with
    | .done serial va => doneAnswer s q serial va cause
    | .fill m => if cause == 0 then s else failFill s q m cause
    | .device _ | .forward .. => dropReq s q.id
    | .mcword .. | .host .. => f q s
    | .multicast .. => s
    | _ => match focusReq s q with
      | some s' => f q s'
      | none => dropReq s q.id

/-! ## Parks (R146, R268) -/

/-- Whether what a park waits for holds (R268): a wait on memory is woken by its own event. -/
def parkOver (t : Thread) : Park → Bool
  | .pop n => !(t.queue n).isEmpty
  | .push n => (t.queue n).length < qDepth n
  | .popV j => !(t.vstream j).chunks.isEmpty
  | .pushV j => (t.vstream j).chunks.length + (t.xfers.filter fun x => x.vs == some j).length < 4
  | .drain n => (t.queue n).isEmpty
  | .waita | .bwait | .vwait | .exit => false
  | .held ph => !heldReg t ph
  | .copySlots => t.copies.length < 16
  | .tile => !t.fifo0.isEmpty || !t.fifo1.isEmpty
  | .ack => t.gout == 0 || t.grep.isSome
  | .reply => true
  | .work => true

/-- Vector work in flight that can go on: what stands behind a VMERGE that waits for room in a full stream cannot. -/
def moving (t : Thread) : List Flying :=
  t.flying.filter (fun f => !f.done) |>.takeWhile fun f => !f.shape.fence || t.flying.all fun g => g.out.isEmpty

/-- Whether vector work in flight will still send a chunk to an outbound stream that has room for it. -/
def feeds (t : Thread) (j : Nat) : Bool :=
  (t.vstream j).chunks.length < 4 && (waitsForRoom t j || (moving t).any fun f => f.shape.outs.any fun o => boundTo t o.1 == some j)

/-- The outbound streams whose room an exiting X stream waits for: their bits of EINFO, where no other vector work is left
(R146, R258). -/
def exitPark (t : Thread) : Option Dword :=
  let l := [8, 9, 10, 11].filter fun j => waitsForRoom t j && 4 ≤ (t.vstream j).chunks.length
  if (moving t).isEmpty && !l.isEmpty then some (BitVec.ofNat 64 ((l.map fun j => 2 ^ (16 + j)).sum)) else none

/-- A park of a stream that only the thread's other stream can release (R146): its bit of EINFO; a transfer that feeds the
stream makes it another kind of wait. -/
def queuePark (t : Thread) (q : Strm) : Park → Option Dword
  | .pop n | .push n | .drain n =>
    if (moving t).any fun f => f.eff.push.any fun p => p.1 == n then none else some (BitVec.ofNat 64 (2 ^ (n - 104)))
  | .popV j | .pushV j =>
    if j ≤ 7 && t.xfers.any fun x => x.vs == some j then none
    else if j ≥ 8 && feeds t j then none
    else some (BitVec.ofNat 64 (2 ^ (16 + j)))
  | .exit => if q == .x then exitPark t else none
  | _ => none

/-- The queue park of a stream that cannot be released as things stand. -/
def stuckOn (t : Thread) (q : Strm) : Option Dword :=
  let c := t.str q
  match c.park with
  | none => none
  | some p => if c.ended || parkOver t p then none else queuePark t q p

/-- Whether a stream has executed EXIT. -/
def Stream.exited (c : Stream) : Bool := c.exiting || c.ended

/-- QDEAD of a thread (R146): the stream that takes it and the bit map of the ports in the cycle. -/
def queueDead (t : Thread) : Option (Strm × Dword) :=
  match stuckOn t .a, stuckOn t .x with
  | some i, some j => some (.x, i ||| j)
  | some i, none => if t.x.exited then some (.a, i) else none
  | none, some j => if t.a.exited then some (.x, j) else none
  | none, none => none

/-- Whether a stream is parked, and not only stalled (R265, R268): an exiting one while a push waits for room (R258). -/
def parkedNow (t : Thread) (q : Strm) : Bool :=
  match (t.str q).park with
  | none | some .work | some .reply => false
  | some .exit => q == .x && (exitPark t).isSome
  | some _ => true

/-! ## Element groups (R178, R270 to R273) -/

/-- The thread that a lane group of a core serves next: of those with a group ready for it, the one after the slot it
served last (R271). -/
def laneChoice (s : State) (lcore lane : Nat) : Option Thread :=
  let last := Store.get 3 s.laneTurn (4 * lcore + lane)
  ((List.range 4).map fun k => (last + 1 + k) % 4).findSome? fun slot =>
    (allThreads s).find? fun t => t.lcore == lcore && t.slot == slot && t.runs && (laneWork s t lane).isSome

/-- A lane group starting a group of the thread in focus, where it is that thread's turn (R76, R270, R271). -/
def laneStart (lane : Nat) (s : State) : State :=
  match laneChoice s s.th.lcore lane, laneWork s s.th lane with
  | some t, some (e, k) =>
    if t.slot == s.th.slot then
      let s := { s with laneTurn := Store.put 3 s.laneTurn (4 * s.th.lcore + lane) s.th.slot }
      count (s.updTh fun t => startGroup t e k) s.th 0x20D 1
    else s
  | _, _ => s

/-- Entry `e` of the thread in focus going on (R151, R272); the final pass of a whole-register instruction starts its groups
a second time (R76, R270). -/
def laneWrite (e : Nat) (s : State) : State :=
  if writeReady s s.th e then
    let again := match s.th.flying[e]? with
      | some f => if f.shape.whole && f.written == 0 then f.shape.groups else 0
      | none => 0
    count (s.updTh fun t => stepGroup t e) s.th 0x20D again
  else s

/-- The first waiting chunk whose stream has room, and that is the oldest of its stream, entered (R178). -/
def enterChunk (t : Thread) : Thread :=
  let can (c : Nat × Chunk) : Bool := (t.vstream c.1).chunks.length < 4
  match (List.range t.flying.length).findSome? fun e => (t.flying[e]?.bind fun f => f.out.find? can).map fun c => (e, c) with
  | none => t
  | some (e, c) =>
    let v := t.vstream c.1
    { t.setVstream c.1 { v with chunks := v.chunks ++ [c.2] } with
      flying := (updAt e (fun f => { f with out := dropFirst (fun d => d.1 == c.1) f.out }) t.flying).filter fun f =>
        !f.done || !f.out.isEmpty }

/-! ## The end of a stream (R258) -/

/-- Whether the earlier work of an exiting stream has finished. -/
def streamDone (s : State) (t : Thread) (q : Strm) : Bool :=
  match q with
  | .a =>
    t.copies.isEmpty && t.xfers.isEmpty && t.svcmds.isEmpty && !(s.reqs.any fun r => r.of t) && t.a.late.isNone
  | .x =>
    t.flying.isEmpty && t.resume.isEmpty && !t.fill0 && !t.fill1 && !(s.rowq.any fun j => j.lcore == t.lcore && j.slot == t.slot) && t.intg.isNone

/-- A stream ended: the X stream's mailboxes and holds go with it (R255, R258). -/
def endStream (t : Thread) (q : Strm) : Thread :=
  let t := t.updStr q fun c => { c with ended := true, park := none }
  if q == .x then { t with mbox := [], hold := [] } else t

/-- The fault that stands pending for a stream of the thread in focus, taken where the stream is at a boundary (R78, R209,
R418). An INTG comes before either stream's own (R420). -/
def takePending (s : State) (q : Strm) : Option State :=
  match (if atBoundary s .x then s.th.intg else none) with
  | some n => some (trapOn (s.updTh fun t => { t with intg := none }) .x cINTG (BitVec.ofNat 64 (n % 2 ^ 32)))
  | none =>
    if !atBoundary s q then none
    else match (s.th.str q).late with
    | some (c, i) => some (trapOn (s.updTh fun t => t.updStr q fun d => { d with late := none }) q c i)
    | none => (s.th.devErr.find? fun e => e.1 == q).map fun e =>
      trapOn (s.updTh fun t => { t with devErr := dropFirst (fun f => f == e) t.devErr }) q cDEVERR e.2

/-- An exiting stream takes the fault it has pending; else, when its work is done, it ends, and its thread with the second
one. -/
def finishStream (s : State) (q : Strm) : State :=
  let c := s.th.str q
  if !(s.th.runs && c.exiting && !c.ended) then s
  else match takePending s q with
  | some s' => s'
  | none =>
    if streamDone s s.th q then
      let s := s.updTh fun t => endStream t q
      if s.th.a.ended && s.th.x.ended then endThread s s.th q false else s
    else s

/-! ## Sites in time (R289) -/

/-- The site of a line changed. -/
def updSite (s : State) (line : Nat) (f : LineSite → LineSite) : State :=
  { s with sites := Store.put LineSite.reset s.sites line (f (Store.get LineSite.reset s.sites line)) }

/-- A lease that has lapsed: 256 clocks after its last atomic (R289). -/
def leaseOver (now : Nat) (l : LineSite) : LineSite :=
  match l.lease with
  | some (_, c) => if c + 256 ≤ now then { l with lease := none } else l
  | none => l

/-- A far line that fewer than two cores have reached for 16,384 clocks is near again (R289). -/
def nearAgain (now : Nat) (l : LineSite) : LineSite :=
  let r := l.recent.filter fun e => now < e.2 + 16384
  if l.far && r.length < 2 then ⟨false, none, r⟩ else l

/-- LOAD_COMPLETION (R265). A load or atomic completes and writes or pushes its result. -/
def execLoadCompletion (req : Nat) (data : Bytes) (s : State) : Out :=
  .next (if s.reqs.any fun q => q.id == req && timely s q.issued then answerReq s req (fun q => answerOk q data) 0 else s)

/-- PARKED_STREAM_RELEASE (R268). A parked stream resumes issue once its park condition holds. -/
def execParkedStreamRelease (t : Nat) (q : Strm) (s : State) : Out :=
  onSlot t s fun s =>
    match (s.th.str q).park with
    | some p => if s.th.runs && parkOver s.th p then unpark s q else s
    | none => s

/-- WAITA_WAKE (R190). A write to the watched line wakes a parked WAITA to re-read. -/
def execWaitaWake (t : Nat) (s : State) : Out :=
  onSlot t s fun s => if s.th.runs && s.th.a.park == some .waita then unpark s .a else s

/-- VWAIT_WAKE (R196). A write to the watched line wakes a parked VWAIT to re-read. -/
def execVwaitWake (t : Nat) (s : State) : Out :=
  onSlot t s fun s => if s.th.runs && s.th.a.park == some .vwait then unpark s .a else s

/-- BWAIT_WAKE (R195). A barrier phase change or dissolution ends a parked BWAIT. -/
def execBwaitWake (t : Nat) (s : State) : Out :=
  onSlot t s fun s => if s.th.runs && s.th.a.park == some .bwait then unpark s .a else s

/-- BWAIT_TIMEOUT (R195). A BWAIT deadline expires and it returns timeout. -/
def execBwaitTimeout (t : Nat) (s : State) : Out :=
  onSlot t s fun s =>
    match s.th.a.deadline with
    | some d => if s.th.runs && s.th.a.park == some .bwait && d.toNat ≤ s.clock.toNat then unpark s .a else s
    | none => s

/-- QDEAD_DETECTION (R146). A queue cycle between streams is detected and traps QDEAD. -/
def execQdeadDetection (t : Nat) (s : State) : Out :=
  onSlot t s fun s =>
    match (if s.th.runs then queueDead s.th else none) with
    | some (q, i) => if atBoundary s q then trapOn s q cQDEAD i else s
    | none => s

/-- OUTBOUND_CHUNK_ENTRY (R178). A waiting outbound chunk enters its stream when room frees. -/
def execOutboundChunkEntry (t : Nat) (s : State) : Out :=
  onSlot t s fun s => s.updTh enterChunk

/-- STREAM_TRANSFER_COMPLETION (R198). A stream load, gather or scatter completes its data movement. -/
def execStreamTransferCompletion (t : Nat) (k : Nat) (s : State) : Out :=
  onSlot t s fun s => if xferReady s s.th k then s.updTh fun t => finishXfer t k else s

/-- ELEMENT_GROUP_START (R271). A lane group starts one ready element group: lane group `e` of the core of slot `t`, if it
is that thread's turn. -/
def execElementGroupStart (t : Nat) (e : Nat) (s : State) : Out :=
  onSlot t s fun s => if s.th.runs then laneStart e s else s

/-- ELEMENT_GROUP_WRITE (R270). An element group's result is written at the end of its latency, entering the register in index order and setting fault-mask bits and outbound chunks: that of entry `e` of the instructions in flight. -/
def execElementGroupWrite (t : Nat) (e : Nat) (s : State) : Out :=
  onSlot t s fun s => if s.th.runs then laneWrite e s else s

/-- MATRIX_ROW_PROCESSING (R279). The matrix engine processes queued MROW K-groups. -/
def execMatrixRowProcessing (t : Nat) (s : State) : Out :=
  onSlot t s fun s =>
    { s with rowq := dropFirst (fun j => j.lcore == s.th.lcore && j.slot == s.th.slot) s.rowq }

/-- TILE_FILL (R279). An MTILE's slot fill completes. -/
def execTileFill (t : Nat) (slot : Nat) (s : State) : Out :=
  onSlot t s fun s => s.updTh fun t => if slot == 0 then { t with fill0 := false } else { t with fill1 := false }

/-- COPY_PIECE (R286). A copy engine moves one piece of a copy. -/
def execCopyPiece (t : Nat) (k : Nat) (s : State) : Out :=
  onSlot t s fun s => if s.th.runs then copyPiece k s else s

/-- COPY_COMPLETION (R208). A copy ends and writes its completion word. -/
def execCopyCompletion (t : Nat) (k : Nat) (s : State) : Out :=
  onSlot t s fun s => if s.th.runs && copyDone s s.th k then finishCopy k s else s

/-- LATE_ENGINE_FAULT (R78). A fault found after an engine transfer's issue is taken at the stream's next boundary. -/
def execLateEngineFault (t : Nat) (q : Strm) (s : State) : Out :=
  onSlot t s fun s =>
    if s.th.runs && (s.th.str q).late.isSome then (takePending s q).getD s else s

/-- SVOP_PASS (R339). A state-vector command's pass runs and completes, its issuer running or pre-empted (R240). -/
def execSvopPass (t : Nat) (s : State) : Out :=
  onSlot t s fun s => if s.th.stopping == some .gang then s else svPass s

/-- CONFLICT_CONFIRMATION (R306). An owning core answers whether a recorded region is still open. -/
def execConflictConfirmation (t : Nat) (s : State) : Out :=
  onSlot t s fun s =>
    s.updTh fun t => { t with confirm := t.confirm.map fun e => (e.1, true) }

/-- THREAD_STOP_COMPLETE (R275). A requested stop completes and the context is saved. -/
def execThreadStopComplete (t : Nat) (s : State) : Out :=
  onSlot t s fun s =>
    match s.th.stopping with
    | some r => if stopReady s s.th then completeStop s r else s
    | none => s

/-- NOTICE_DELIVERY (R374). A queued notice diverts the usher's A stream to TVEC. -/
def execNoticeDelivery (p : Nat) (s : State) : Out :=
  let u := getPart s p
  match u.handling, u.notices with
  | none, n :: _ =>
    match focus s (u.usherCore * 4 + u.usherSlot) with
    | some s' => if s'.th.part == p && isUsher s' s'.th && s'.th.runs && atBoundary s' .a then .next (deliverNotice s' n) else .next s
    | none => .next s
  | _, _ => .next s

/-- BUDGET_EXPIRY (R376). A thread's budget count reaches its limit and the thread is stopped; a trap at the same boundary
counts first (R377). -/
def execBudgetExpiry (t : Nat) (s : State) : Out :=
  onSlot t s fun s =>
    if !(s.th.budget != 0 && s.th.budget ≤ s.th.consumed && s.th.runs && !isUsher s s.th) then s
    else match takePending s .a, takePending s .x with
    | some s', _ => s'
    | none, some s' => s'
    | none, none => s.updTh fun t => t.askStop .budget

/-- INTG (R420). A failed self-test traps each affected thread's X stream. -/
def execIntg (t : Nat) (s : State) : Out :=
  onSlot t s fun s =>
    match s.th.intg with
    | some n => if s.th.runs && atBoundary s .x then trapOn (s.updTh fun t => { t with intg := none }) .x cINTG (BitVec.ofNat 64 (n % 2 ^ 32)) else s
    | none => s

/-- The units of R418 that each stream owns: X the vector, matrix and function stores, either the queues and link stack and
the fabric, A the state-vector engine and the image. Only an unanswered request has an address. -/
def unitOk (q : Strm) (unit va : Nat) : Bool :=
  1 ≤ unit && unit ≤ 9 && (va == 0 || unit == 8) && (unit == 6 || unit == 8 || (q == .x) == decide (unit ≤ 5))

/-- The state-vector engine's own error stops the command it works on, which writes no map and no completion word (R209,
R339). -/
def stopCommand (s : State) : State :=
  match s.th.svcmds with
  | [] => s
  | c :: r => { s.updTh fun t => { t with svcmds := r } with
      reqs := s.reqs.filter fun q => !(q.of s.th && q.region == c.region) }

/-- DEVERR (R418). An uncorrectable error in architectural state traps the owning stream at its next boundary; a pending
INTG is the first to be taken (R420). -/
def execDeverr (t : Nat) (q : Strm) (unit : BitVec 8) (va : BitVec 55) (s : State) : Out :=
  onSlot t s fun s =>
    let i : Dword := unit ++ (0#1 ++ va)
    if !unitOk q unit.toNat va.toNat then s
    else
      let known := s.th.devErr.contains (q, i)
      let s := if unit == 7 && !known then stopCommand s else s
      let s := if known then s else s.updTh fun t => { t with devErr := t.devErr ++ [(q, i)] }
      if !(s.th.runs && atBoundary s q) then s
      else if s.th.intg.isSome && atBoundary s .x then (takePending s q).getD s
      else trapOn (s.updTh fun t => { t with devErr := dropFirst (fun e => e == (q, i)) t.devErr }) q cDEVERR i

/-- STREAM_END (R258). An exiting stream's earlier work finishes and the stream ends. -/
def execStreamEnd (t : Nat) (q : Strm) (s : State) : Out :=
  onSlot t s fun s => finishStream s q

/-- STAMP_SWEEP (R292). The background sweep removes stale stamp entries. -/
def execStampSweep (s : State) : Out :=
  .next { s with stamps := sweep s }

/-- ATOMIC_LEASE_EXPIRY (R289). A near lease lapses 256 clocks after its last atomic. -/
def execAtomicLeaseExpiry (line : Nat) (s : State) : Out :=
  .next (updSite s line (leaseOver s.cycles))

/-- ATOMIC_SITE_RETURN_NEAR (R289). A far line returns to near after a quiet window. -/
def execAtomicSiteReturnNear (line : Nat) (s : State) : Out :=
  .next (updSite s line (nearAgain s.cycles))

/-- ILL (R102). A word that is not an instruction, or that uses a reserved opcode or fn value, reaches issue and traps ILL. -/
def execIll (w : BitVec 32) (s : State) : Out :=
  .next (takeTrap s cILL (wordInfo w))

end Sys2Proof.Machine
end

