-- ==== Sys2Proof/Machine/Names.lean ====
section
/-! DEFINITION. The device's own events about names, launches and gang slices (R253 to R255, R366 to R378, R386 to R388, R401 to R404). -/

namespace Sys2Proof.Machine

/-! ## Membership (R401) -/

/-- A valid entry of a partition's membership table: its key, its permissions ([1] R, [2] W, [3] A, [4] S), its windows. -/
structure Member where
  part : Nat
  key : Nat
  flags : Nat
  windows : List (Nat × Nat)
  deriving DecidableEq, Repr

/-- Entry `i` of a partition's membership table, where it is valid. -/
def member (s : State) (pn i : Nat) : Option Member :=
  let b := readBytes s (blockBase (getPart s pn) + 0x100 + 64 * i) 64
  let ws := (List.range 3).map fun k => (field b (8 + 16 * k) 8, field b (16 + 16 * k) 8)
  let f := field b 2 1
  if f % 2 == 1 && f < 32 && field b 3 5 == 0 && field b 0x38 8 == 0 && ws.all (fun w => w.1 ≤ w.2) then
    some ⟨pn, field b 0 2, f, ws⟩
  else none

/-- The valid entries of this device's partitions that hold a job key. -/
def membersOf (s : State) (key : Nat) : List Member :=
  s.parts.flatMap fun p => if p.2.state == .free then []
    else (List.range 16).filterMap fun i => match member s p.1 i with
      | some m => if m.key == key then some m else none
      | none => none

/-- The first of them that is in the named partition's table, else the first. -/
def memberOf (s : State) (key : Nat) (pn : Option Nat) : Option Member :=
  let l := membersOf s key
  match l.find? fun m => some m.part == pn with
  | some m => some m
  | none => l.head?

/-- Whether an entry permits what bit `b` names, and whether one of its windows holds a range. -/
def Member.may (m : Member) (b : Nat) : Bool := m.flags / 2 ^ b % 2 == 1
def Member.holds (m : Member) (pa n : Nat) : Bool := m.windows.any fun w => w.1 ≤ pa && pa + n ≤ w.2

/-! ## Remote register stores at their target (R251 to R255, R403, R404) -/

/-- The answer to a remote register store: back to a thread of this device, or out to the sender's device. -/
def answerStore (s : State) (r : RStore) (cause : Nat) : State :=
  match r.src with
  | some tid => { s with ranswers := s.ranswers ++ [⟨r.id, tid, r.waits, cause⟩] }
  | none => { s with sent := s.sent ++ [⟨r.acc, r.peerId, cause, []⟩] }

/-- The bytes of an arrival in a mailbox register, counted toward its hold (R251, R253). -/
def applyStore (t : Thread) (ph : Nat) (r : RStore) : Thread :=
  let n := r.data.length
  let mask : VReg := BitVec.ofNat 16384 (2 ^ (8 * n) - 1) <<< (8 * r.offset)
  let t := t.setVr ph ((t.vr ph &&& ~~~mask) ||| (BitVec.ofNat 16384 (leNat r.data) <<< (8 * r.offset)))
  let h := Store.get (⟨0, 0⟩ : Hold) t.hold ph
  if h.left == 0 then t
  else { t with hold := Store.put ⟨0, 0⟩ t.hold ph { h with left := h.left - 1 } }

/-- Where a saved image counts the arrivals that a register's hold still waits for, one fewer (R255). -/
def holdPatch (s : State) (t : Thread) (ph : Nat) : List (Nat × Bytes) :=
  match (contextVa (getPart s t.part) t).bind fun va => deviceRead s t.part (va + 0x8400) 0x100 with
  | none => []
  | some b =>
    match (List.range (min 59 (field b 0x10 4))).find? fun k => field b (0x14 + 4 * k) 2 == ph with
    | none => []
    | some k =>
      let left := field b (0x17 + 4 * k) 1
      if left == 0 then [] else [(0x8417 + 4 * k, leBytes 1 (left - 1))]

/-- An arrival in the thread that receives it (R253, R255): in its register, and in the saved image of a stopped one. -/
def deliverStore (s : State) (t : Thread) (ph : Nat) (r : RStore) : State :=
  reachThread s (applyStore t ph r) ((0x9000 + 2048 * ph + r.offset, r.data) :: holdPatch s t ph)

/-- An arrival at the slot its name gives, applied, forwarded or refused (R253, R255, R403, R404). -/
def arriveStore (s : State) (r : RStore) (owner : Option Nat) : State :=
  let v := slotOf s (nameSlot r.name.toNat)
  if v.gen != nameGen r.name.toNat || (v.object.isNone && v.forward.isNone) then answerStore s r 1
  else if (match owner, v.object with
    | some p, some o => p != o.1
    | _, _ => false) then answerStore s r 4
  else
    match v.forward with
    | some (name, until_) =>
      if until_ ≤ s.clock.toNat then answerStore s r 1
      else { s with rstores := s.rstores ++
        [{ r with name := BitVec.ofNat 32 name, station := stationOf s (nameAcc name) 0 }] }
    | none =>
      match (allThreads s).find? fun t => t.status != .free && some (t.tid % 2 ^ 24) == v.leader && some t.part == v.object.map fun o => o.1 with
      | none => answerStore s r 1
      | some t =>
        if !Store.has t.mbox r.mailbox then answerStore s r 2
        else if 2048 < r.offset + r.data.length then answerStore s r 3
        else answerStore (deliverStore s t (Store.get 0 t.mbox r.mailbox) r) r 0

/-- Whether a name is one of this device's: for a partition of this device by its accelerator ID, for a store of another
device by any partition's (R247, R252). -/
def nameHere (s : State) (pn : Option Nat) (name : Nat) : Bool :=
  match pn with
  | some p => nameAcc name == accId s (getPart s p)
  | none => s.parts.any fun p => p.2.state != .free && nameAcc name == accId s p.2

/-- Whether a store goes to another device, as sent or as a slot forwards it. -/
def goesAway (s : State) (r : RStore) : Bool := !nameHere s r.part r.name.toNat

/-- Whether an earlier store of the same sender to the same name has not arrived (R253). -/
def overtakes (s : State) (r : RStore) : Bool :=
  (s.rstores.takeWhile fun q => q.id != r.id || q != r).any fun q => q.src == r.src && q.acc == r.acc && q.name == r.name

/-- The answer already given to a request of a peer, by its identity (R410). -/
def answered (s : State) (peer id : Nat) : Option FabAnswer := s.sent.find? fun a => a.peer == peer && a.id == id

/-- The partition whose range of names holds a slot. -/
def slotRange (s : State) (slot : Nat) : Option Nat :=
  (s.parts.find? fun p => p.2.state != .free && p.2.nameBase ≤ slot && slot < p.2.nameBase + p.2.nameCount).map fun p => p.1

/-- A request about a name whose key no valid entry holds, dropped and logged (R401): in the log of the partition it would
have reached, where there is one (log 12). -/
def logDropped (s : State) (pn : Option Nat) (src key : Nat) : State :=
  match pn with
  | some p => logEventOf s p 1 src key 0 0 0 0 0
  | none => s

/-- A remote register store that reaches this device (R403). One of another device is checked against the membership
tables first: without a valid entry for its key it is dropped and logged, and without S refused. One that comes again is
answered as before (R410). -/
def arrival (s : State) (r : RStore) : State :=
  let s := { s with rstores := dropFirst (fun q => q == r) s.rstores }
  match r.src with
  | some _ => arriveStore s r r.part
  | none =>
    match answered s r.acc r.peerId with
    | some a => { s with sent := s.sent ++ [a] }
    | none =>
      let owner := (slotOf s (nameSlot r.name.toNat)).object.map fun o => o.1
      match memberOf s r.key owner with
      | none => logDropped s (owner.orElse fun _ => slotRange s (nameSlot r.name.toNat)) r.acc r.key
      | some m => if m.may 4 then arriveStore s r (some m.part) else answerStore s r 4

/-- A peer's request about names, answered once (R410): dropped and logged where no valid entry holds its key (R401), else
what it does for the partition of that entry, with the bytes it returns. -/
def nameRequest (s : State) (src id key : Nat) (reach : Option Nat) (f : State → Nat → State × Bytes) : State :=
  match answered s src id with
  | some a => { s with sent := s.sent ++ [a] }
  | none =>
    match memberOf s key reach with
    | none => logDropped s reach src key
    | some m =>
      let q := f s m.part
      { q.1 with sent := q.1.sent ++ [⟨src, id, 0, q.2⟩] }

/-- The partition whose cores include that of a thread ID. -/
def tidPart (s : State) (tid : Nat) : Option Nat :=
  (s.parts.find? fun p => p.2.state != .free && p.2.cores.contains (tidCore tid)).map fun p => p.1

/-- A peer's GMOVE to a thread of this device (R248): a name of this device is bound to the new leader and stays; for another
the lowest free slot of the range of the partition that the key names is taken. The name is answered, 0 where none is
free. -/
def takeMove (s : State) (src id key name tid : Nat) : State :=
  nameRequest s src id key (tidPart s tid) fun s pn =>
    if nameAcc name == accId s (getPart s pn) then
      let v := slotOf s (nameSlot name)
      if v.gen == nameGen name && v.object.map (fun o => o.1) == some pn then
        (rebindSlot s name (tid % 2 ^ 24), leBytes 4 name)
      else (s, leBytes 4 0)
    else match takeName s pn 0 (tid % 2 ^ 24) with
      | none => (s, leBytes 4 0)
      | some (name, s) => (s, leBytes 4 name)

/-- A peer tells that the group of a name of this device has moved (R248): the slot forwards. -/
def takeForward (s : State) (src id key name dest : Nat) : State :=
  nameRequest s src id key (slotRange s (nameSlot name)) fun s pn =>
    if (slotOf s (nameSlot name)).object.map (fun o => o.1) == some pn then (forwardSlot s name dest, []) else (s, [])

/-- An answer counted by its sender (R254): GSTAT's counts, the first NACK's cause, and an RSTVR's release. -/
def countAnswer (s : State) (tid : Nat) (waits : Bool) (cause : Nat) : State :=
  match (allThreads s).find? fun t => t.status != .free && t.tid == tid with
  | none => s
  | some t =>
    let t' := { t with
      gout := t.gout - 1
      gok := if cause == 0 then t.gok + 1 else t.gok
      gnack := if cause == 0 then t.gnack else t.gnack + 1
      gcause := if cause != 0 && t.gnack == 0 then cause else t.gcause
      grep := if waits then some cause else t.grep }
    reachThread (if cause == 0 then s else count s t 0x21E 1) t' [(0x900 + 0x720, countBytes t')]

/-- The answer of another device to a store that went there: counted by its sender, or passed back to the device it came
from. -/
def awayAnswer (s : State) (r : RStore) (cause : Nat) : State :=
  let s := { s with rstores := dropFirst (fun q => q == r) s.rstores }
  match r.src with
  | some tid => countAnswer s tid r.waits cause
  | none => { s with sent := s.sent ++ [⟨r.acc, r.peerId, cause, []⟩] }

/-! ## Launches (R366 to R378, R386 to R388, R421) -/

/-- The value of a dependency word through the partition's tables: whatever a peer's page holds (log 5). -/
def depWord (s : State) (pn va : Nat) : Option (Nat × State) :=
  let s := readyFrame s pn va
  match devicePlace s pn va 8 .read with
  | some (a, s) => if badUnit s a 8 then none else some (readLE s a 8, s)
  | none => (imageRead s pn va 8).map fun q => (leNat q.1, q.2)

/-- A dependency word re-read for the head of a queue (R366): found satisfied where it reads at least depval. While the
partition is switched out that waits for its next slice (R388). -/
def readDep (s : State) (pn k : Nat) : State :=
  let p := getPart s pn
  match p.queue k with
  | [] => s
  | q :: r =>
    if p.switchedOut then s
    else match depWord s pn q.record.dep with
    | none => s
    | some (v, s') => updPart s' pn fun p => p.setQueue k ({ q with ready := q.record.depval ≤ v } :: r)

/-- The gang schedule a partition follows. -/
def schedOf (s : State) (p : Partition) : GangSched := Store.get GangSched.reset s.gangs p.gang

/-- A schedule that is not rejected (R386): up to 16 slices, consecutive instants at least 1 ms apart. -/
def GangSched.ok (g : GangSched) : Bool :=
  g.slices.length ≤ 16 && 1500000 ≤ g.period && g.slices.zipIdx.all fun a => g.slices.zipIdx.all fun b =>
    a.2 == b.2 || 1500000 ≤ (b.1.1 % g.period + g.period - a.1.1 % g.period) % g.period

/-- The ticks since a slice's latest instant, T = E + nP + offset (R386). -/
def GangSched.since (g : GangSched) (clock offset : Nat) : Nat :=
  (clock % g.period + g.period - (g.epoch + offset) % g.period) % g.period

/-- The slice a schedule is in: the ticks since its instant, and its partition. -/
def GangSched.now (g : GangSched) (clock : Nat) : Option (Nat × Nat) :=
  (g.slices.map fun e => (g.since clock e.1, e.2)).foldl (fun b e => match b with
    | none => some e
    | some c => if e.1 < c.1 then some e else some c) none

/-- Whether a gang instant has ended the slice of a partition that is in (R386, R387). -/
def sliceOver (s : State) (pn : Nat) : Bool :=
  let p := getPart s pn
  p.state != .free && p.gang != 0 && !p.switchedOut &&
    match (schedOf s p).now s.clock.toNat with
    | some (_, q) => q != pn
    | none => false

/-- A gang instant for the partition that leaves (R387): its threads, its usher among them, are asked to stop. -/
def gangStop (s : State) (pn : Nat) : State :=
  if !sliceOver s pn then s
  else
    let s := updPart s pn fun p => { p with switchedOut := true }
    updThreads s (fun t => t.status != .free && t.part == pn) fun t => t.askStop .gang

/-- Whether a stop is under way on the device. -/
def stopsUnderWay (s : State) (pn : Nat) : Bool := (allThreads s).any fun t => t.part == pn && t.stopping.isSome

/-- A thread of the partition that comes in (R387): its saved image is put back, and a thread that the gang or a repair
stopped issues again. -/
def gangRestore (s : State) (t : Thread) : State :=
  let st := restoreThread s t
  if t.status == .stopped .gang || t.status == .stopped .repair then
    let t' := { st.2 with status := .running }
    traceRec (setThread st.1 t') t' 4 .a t'.a.pc 0
  else setThread st.1 st.2

/-- Whether a partition's slice begins (R387): 150 µs after its instant, with every other partition of its gang out and
saved. -/
def sliceBegins (s : State) (pn : Nat) : Bool :=
  let p := getPart s pn
  p.state != .free && p.switchedOut && !stopsUnderWay s pn &&
    (match (schedOf s p).now s.clock.toNat with
      | some (d, q) => q == pn && 225000 ≤ d
      | none => false) &&
    s.parts.all fun e => e.1 == pn || e.2.gang != p.gang || e.2.state == .free || (e.2.switchedOut && !stopsUnderWay s e.1)

/-- A partition's slice begins (R387, R388): its threads are restored, its usher starts where it has not, and the
dependency words of its queues' heads are read. -/
def gangResume (s : State) (pn : Nat) : State :=
  if !sliceBegins s pn then s
  else
    let mine := (allThreads s).filter fun t => t.status != .free && t.part == pn
    let s := mine.foldl gangRestore (updPart s pn fun p => { p with switchedOut := false })
    let p := getPart s pn
    let s := if p.state == .run && !p.usherUp then beginUsher s pn else s
    (List.range 16).foldl (fun s k => readDep s pn k) s

/-- The logical core whose slice runs on a shared physical core: at first the lowest. -/
def sliceHolder (s : State) (phys : Nat) : Nat :=
  let l := sharers s phys
  let now := Store.get 0 s.shareTurn phys
  if l.contains now then now else l.headD 0

/-- The logical core whose slice comes next. -/
def nextSharer (s : State) (phys : Nat) : Option Nat :=
  let l := sharers s phys
  let now := sliceHolder s phys
  match l.find? fun k => now < k with
  | some k => some k
  | none => l.head?

/-- MAILBOX_ARRIVAL (R253). A remote store arrives at its target and is applied or refused. -/
def execMailboxArrival (k : Nat) (s : State) : Out :=
  match s.rstores.find? fun r => r.id == k && !goesAway s r && !overtakes s r with
  | some r => .next (arrival s r)
  | none => .next s

/-- REMOTE_STORE_ANSWER (R254). An acknowledgement or NACK of a remote store reaches the sender. -/
def execRemoteStoreAnswer (k : Nat) (nack : Nat) (s : State) : Out :=
  match s.ranswers.find? fun r => r.id == k with
  | some r => .next (countAnswer { s with ranswers := dropFirst (fun q => q.id == k) s.ranswers } r.src r.waits r.cause)
  | none =>
    match s.rstores.find? fun r => r.id == k && goesAway s r && !overtakes s r with
    | some r => .next (if timely s r.sent && nack ≤ 4 then awayAnswer s r nack else s)
    | none => .next s

/-- NAME_FORWARDING_EXPIRY (R404). A moved name's forwarding slot ends and bumps its generation. -/
def execNameForwardingExpiry (slot : Nat) (s : State) : Out :=
  let v := slotOf s slot
  match v.forward with
  | some (_, c) => .next (if c ≤ s.clock.toNat then setSlot s slot ⟨nextGen v.gen, none, none, none⟩ else s)
  | none => .next s

/-- DEPENDENCY_WORD_READ (R366). A write to a dependency word's line makes the F8 re-read it. -/
def execDependencyWordRead (p : Nat) (q : Nat) (s : State) : Out :=
  .next (readDep s p q)

/-- LAUNCH_DISPATCH (R367). The dispatchable head of highest effective priority is dispatched. -/
def execLaunchDispatch (p : Nat) (s : State) : Out :=
  match nextDispatch s p with
  | some (k, q, pl) => .next (dispatchHead s p k q.record pl)
  | none => .next s

/-- LAUNCH_STAGING (R378). A waiting head is staged into hall reservations ahead of its cores. -/
def execLaunchStaging (p : Nat) (s : State) : Out :=
  match nextStaging s p with
  | some (k, q, pl) => .next (stageHead s p k q.record pl)
  | none => .next s

/-- STAGED_LAUNCH_START (R378). A staged launch starts once its slots are free. -/
def execStagedLaunchStart (p : Nat) (s : State) : Out :=
  match stagedReady s p with
  | some (g, pl) => .next (dispatchHead (updPart s p fun p => { p with staged := none }) p g.queue g.record pl)
  | none => .next s

/-- GANG_STOP (R387). At a gang instant the outgoing partition's threads stop and save. -/
def execGangStop (p : Nat) (s : State) : Out :=
  .next (gangStop s p)

/-- GANG_RESUME (R387). The incoming partition's threads resume 150 µs after the instant. -/
def execGangResume (p : Nat) (s : State) : Out :=
  .next (gangResume s p)

/-- SHARED_CORE_TIME_SLICE (R421). A physical core shared by two logical cores (SH = 1) switches between them by time-slicing. -/
def execSharedCoreTimeSlice (phys : Nat) (s : State) : Out :=
  match nextSharer s phys with
  | some k => .next { s with shareTurn := Store.put 0 s.shareTurn phys k }
  | none => .next s

end Sys2Proof.Machine
end

