-- ==== Sys2Proof/Machine/Fabric.lean ====
section
/-! DEFINITION. The device's own events on the fabric and toward the host (19_translation_fabric, R393 to R410; R444). -/

namespace Sys2Proof.Machine

/-! ## Waking (R427 to R430) -/

/-- The health block changed. -/
def updHealth (s : State) (f : Health → Health) : State := { s with health := f s.health }

/-- An active state by its number, 0 the fastest. -/
def activeState : Nat → Power
  | 0 => .a0
  | 1 => .a1
  | _ => .a2

/-- Whether a state is one of the active ones. -/
def Power.active : Power → Bool
  | .a0 | .a1 | .a2 => true
  | _ => false

/-- A thread as an idle state from I2 on saves it (R429): as a stop would, and still placed. -/
def idleThread (s : State) (t : Thread) : Thread := { haltThread s t .ctxsave with status := t.status }

/-- The device active again (R430). From I2 on, every placed thread is restored from its image, and DEVERR is pending where
that fails (R418, R429); threads that wait on memory re-read their words. -/
def wake (s : State) : State :=
  if s.health.power.active then s
  else
    let deep := s.health.power != .i1
    let s := updHealth s fun h => { h with power := activeState (max h.cap h.hot) }
    let s := if deep then
        ((allThreads s).filter fun t => t.runs).foldl (fun s t =>
          let r := restoreThread s (idleThread s t)
          setThread r.1 { r.2 with status := t.status, consumed := t.consumed }) s
      else s
    mapThreads s fun t =>
      if t.a.park == some .waita || t.a.park == some .bwait || t.a.park == some .vwait then
        { t with a := { t.a with park := none } }
      else t

/-! ## Invalidation (R396, R397) -/

/-- Entry `m` of the invalidation ring. -/
def ringEntry (s : State) (p : Partition) (m : Nat) : Bytes := readBytes s (blockBase p + 0x1000 + 64 * (m % 128)) 64

/-- Whether an entry is void (R396). -/
def ringVoid (e : Bytes) : Bool :=
  let kind := field e 0 1
  let va := field e 8 8
  let n := field e 16 8
  !(kind == 1 || kind == 2) || field e 1 7 != 0 || (e.drop 0x28).take 24 != List.replicate 24 0 ||
    (kind == 1 && (va % 65536 != 0 || n < 1 || 2 ^ 39 < n)) || (kind == 2 && (va != 0 || n != 0)) || field e 24 8 % 8 != 0

/-- Whether an entry names a page of the partition. -/
def ringHits (e : Bytes) (vpage : Nat) : Bool :=
  field e 0 1 == 2 || (field e 8 8 / 65536 ≤ vpage && vpage < field e 8 8 / 65536 + field e 16 8)

/-- Whether a request asks for the bytes of a partition's page for its frame. -/
def FabReq.fills (q : FabReq) (pn page : Nat) : Bool :=
  q.part == pn && q.va / 65536 == page && match q.kind with
    | .fill _ => true
    | _ => false

/-- The TLB entries of a range removed (R397). A migration under way is cancelled, with the entry's ACNT alone written back;
replica frames are released (R394, R395), and what was asked for such frames is not wanted any more. -/
def invalidate (s : State) (pn : Nat) (e : Bytes) : State :=
  let hit (u : TlbEntry) : Bool := u.part == pn && ringHits e u.vpage
  let s := (s.tlb.filter fun u => hit u && (movingFrame s pn u.vpage).isSome).foldl (fun s u =>
    writeLE s (u.entryPa + 6) 2 u.acnt) s
  { s with
    tlb := s.tlb.filter fun u => !hit u
    frames := s.frames.filter fun f => !(f.part == pn && ringHits e f.vpage && !(f.migrate && f.filled))
    reqs := s.reqs.filter fun q => !(q.fills pn (q.va / 65536) && ringHits e (q.va / 65536)) }

/-- The oldest invalidation entry retired. -/
def retireRing (s : State) (pn : Nat) : State :=
  let p := getPart s pn
  if p.invTail ≤ p.invHead then s
  else
    let e := ringEntry s p p.invHead
    let s := if ringVoid e then logEvent s pn 6 0 (field e 8 8) 0 0 0 0
      else
        let s := invalidate s pn e
        if field e 24 8 == 0 then s
        else (deviceStore s pn (field e 24 8) (.device none) (leBytes 8 (field e 32 8))).1
    let s := updPart s pn fun p => { p with invHead := p.invHead + 1 }
    writeLE s (blockBase p + 0x28) 8 (p.invHead + 1)

/-! ## Frames (R394, R395) -/

/-- The 64 KiB a peer sent for a page's frame: what was asked for it is answered. -/
def fillFrame (s : State) (f : Frame) (data : Bytes) : State :=
  let s := writeBytes s f.pa (padTo 65536 data)
  { s with
    frames := s.frames.map fun g => if g.pa == f.pa then { g with filled := true, failed := none } else g
    reqs := s.reqs.filter fun q => !q.fills f.part f.vpage }

/-- The frame of a page that waits for its data, which come in time (R401). -/
def waitingFrame (s : State) (pn page : Nat) (migrate : Bool) : Option Frame :=
  if s.reqs.any fun q => q.fills pn page && timely s q.issued then
    s.frames.find? fun f => f.part == pn && f.vpage == page && f.migrate == migrate && !f.filled
  else none

/-- A migration carried through (R395): the leaf becomes LOCAL at the frame, and the old entry leaves the TLB; an event
record holds the old peer and PA. DESIGN CHOICE: the PA stands in bits [40:16] of the field that holds the peer, for R409
gives it no place (log 80). -/
def migrate (s : State) (pn : Nat) (f : Frame) (data : Bytes) : State :=
  match s.tlb.find? fun e => e.part == pn && e.vpage == f.vpage with
  | none => s
  | some e =>
    let s := fillFrame s f data
    let leaf := e.leaf.toNat % 2 ^ 13 / 4096 * 4096 + e.leaf.toNat % 2 ^ 9 + f.pa / 65536 * 2 ^ 13
    let s := writeLE s e.entryPa 8 leaf
    let s := logEvent s pn 5 0 (65536 * f.vpage) 0 0 (ptePeer e.leaf + e.pa) 0
    { s with tlb := s.tlb.filter fun u => !(u.part == pn && u.vpage == f.vpage) }

/-! ## Requests of peers (R398, R401) -/

/-- A request that the port takes: 1 to 256 bytes inside one 256-byte line (R398). -/
def portTakes (pa n : Nat) : Bool := 1 ≤ n && n ≤ 256 && pa % 256 + n ≤ 256

/-- An answer sent to a peer. -/
def send (s : State) (peer id cause : Nat) (data : Bytes) : State := { s with sent := s.sent ++ [⟨peer, id, cause, data⟩] }

/-- The entry a request to memory is checked against: of those that hold its key, the first whose window holds its range,
else the first (R401). -/
def memberAt (s : State) (key pa n : Nat) : Option Member :=
  let l := membersOf s key
  match l.find? fun m => m.holds pa n with
  | some m => some m
  | none => l.head?

/-- The checks of R401 in order, for permission bit `b`; then what the request does, with its NACK cause or 0 and the
bytes it returns. A request wakes an idle device first (R430). A request without a valid key is dropped and logged where its address lies in a partition's memory; one
that comes again is answered as before (R410). -/
def atTarget (s : State) (src : BitVec 10) (id : Nat) (key : BitVec 16) (pa n b : Nat) (f : State → Nat → State × Nat × Bytes) :
    State :=
  if !portTakes pa n then s
  else
  let s := wake s
  match answered s src.toNat id with
  | some a => { s with sent := s.sent ++ [a] }
  | none =>
    match memberAt s key.toNat pa n with
    | none =>
      match s.parts.find? fun p => p.2.state != .free && inWindows p.2 pa n with
      | some p => logEventOf s p.1 1 src.toNat key.toNat pa 0 0 0 0
      | none => s
    | some m =>
      if !(m.holds pa n && inWindows (getPart s m.part) pa n) then send s src.toNat id 1 []
      else if !m.may b then send s src.toNat id 2 []
      else
        let (s', c, d) := f s m.part
        send s' src.toNat id c d

/-- A read-modify-write performed at the home for a peer or the host (R289, R393): the old value. -/
def homeAtomic (s : State) (pn pa : Nat) (op : RmwOp) (operand expect : Nat) : State × Nat :=
  let n := rmwSize op
  let old := readLE s pa n
  let hit := match op with
    | .cas _ => old == expect % 2 ^ (8 * n)
    | _ => true
  let s := siteRecall s pa n
  (if hit then putAt s pn pa (leBytes n (rmwValue op n old (operand % 2 ^ (8 * n)))) else s, old)

/-! ## Rounds in time (R409) -/

/-- An ordered round flushed when its time is over: the tree over the present contributions, the completion word, and a
record with the missing mask, which later contributions meet. -/
def flushRound (s : State) (r : RedRound) : State :=
  let e := redEntry s r.part r.ridx
  let absent := (List.range (redN e)).filter fun c => !r.got.any fun g => g.1 == c
  let s := redClose s r
  let s := logEvent s r.part 2 0 r.pa 0 r.ridx 0 ((absent.map fun c => 2 ^ c).sum)
  { s with flushed := Store.put [] s.flushed r.pa absent }

/-! ## The host (R393, R444) -/

/-- The partition bound to a virtual function. -/
def partOf (s : State) (vf : Nat) : Option Nat := (s.parts.find? fun p => p.2.state != .free && p.2.vf == vf).map fun p => p.1

/-- A refusal logged toward the host. -/
def abort (s : State) (vf : Nat) : State := { s with hostLog := s.hostLog ++ [.abort vf] }

/-- A host AtomicOp (R393): at the home slice, or at the peer of a DIRECT or MIGRATE page; an interface in RUN takes IDE
traffic with the T bit alone (R444). -/
def hostAtomic (s : State) (pn : Nat) (ide : Bool) (va : Nat) (op : RmwOp) (operand expect : Nat) : State :=
  let p := getPart s pn
  let n := rmwSize op
  if p.state == .run && !ide then abort s p.vf
  else
  match (if 2 ^ 32 ≤ va && va < 2 ^ 55 && va % n == 0 then lookup s pn va else none) with
  | none => abort s p.vf
  | some (e, s) =>
    let pa := e.addr va
    let m := effMode s p e
    if !pteBit e.leaf 7 then abort (logEvent s pn 7 0 pa 0 0 0 0) p.vf
    else if !permits m e.leaf 1 .atomic then abort s p.vf
    else if m == 0 && inWindows p pa n && !badUnit s pa n then
      let (s, old) := homeAtomic (wake s) pn pa op operand expect
      { s with hostLog := s.hostLog ++ [.served p.vf (leBytes n old)] }
    else if m != 0 then
      sendFor (wake s) (deviceThread pn) (.host p.vf op (match op with
        | .cas _ => some (expect % 2 ^ (8 * n))
        | _ => none)) (ptePeer e.leaf) va pa (leBytes n operand) none []
    else abort s p.vf

/-- The host's write into a partition's memory (R362, R389): inside its windows, and not to the fields of the
translation block that firmware or the F8 writes (log 12). It wakes an idle device (R430). -/
def hostWrite (s : State) (pn pa : Nat) (data : Bytes) : State :=
  let p := getPart s pn
  if p.state != .free && inWindows p pa data.length then
    putAt (siteRecall (wake s) pa data.length) pn pa data
  else s

/-- Whether a run of places meets a slot of the partition's context area where its tables place it (R379, R446). -/
def inImages (s : State) (pn pa n : Nat) : Bool :=
  let p := getPart s pn
  p.ctxBase != 0 && p.ctxSlot != 0 && p.cores.any fun c =>
    (pageRuns (p.ctxBase + 4 * c * p.ctxSlot) (4 * p.ctxSlot)).any fun r =>
      match devicePlace s pn r.va r.n .read with
      | some (k, _) => decide (k < pa + n) && decide (pa < k + r.n)
      | none => false

/-- The host's read of a partition's memory (log 12): inside its windows, and of a context image only while a debug policy
grants it (R446). -/
def hostRead (s : State) (pn pa n : Nat) : State :=
  let p := getPart s pn
  let granted := match p.policy with
    | some d => d.images
    | none => false
  if inWindows p pa n && !badUnit s pa n && (granted || !inImages s pn pa n) then
    { s with hostLog := s.hostLog ++ [.served p.vf (readBytes s pa n)] }
  else abort s p.vf

/-- INVALIDATION_REQUEST (R396). A write to INVTAIL's line makes the F8 take new invalidation entries. -/
def execInvalidationRequest (p : Nat) (s : State) : Out :=
  .next (updPart s p fun u => { u with invTail := readLE s (blockBase u + 0x20) 8 })

/-- INVALIDATION_RETIRE (R397). An invalidation entry retires after TLBs and egress drain. -/
def execInvalidationRetire (p : Nat) (s : State) : Out :=
  .next (retireRing s p)

/-- REPLICA_FILL (R394). A REPLICA page's local frame is filled from the peer. -/
def execReplicaFill (p : Nat) (page : Nat) (data : Bytes) (s : State) : Out :=
  match waitingFrame s p page false with
  | some f => .next (fillFrame s f data)
  | none => .next s

/-- MIGRATION (R395). A MIGRATE page's access count reaches 0 and the page moves local, once earlier requests to it have
their answers. -/
def execMigration (p : Nat) (page : Nat) (data : Bytes) (s : State) : Out :=
  match waitingFrame s p page true with
  | some f => .next (if s.reqs.any fun q => q.part == p && q.va / 65536 == page && !q.fills p page then s else migrate s p f data)
  | none => .next s

/-- FABRIC_READ_REQUEST (R401). A fabric read arrives and is checked against membership. -/
def execFabricReadRequest (src : ReqFrom) (key : BitVec 16) (pa : Nat) (n : Nat) (s : State) : Out :=
  .next (atTarget s src.acc src.id key pa n 1 fun s _ =>
    if badUnit s pa n then (s, 3, []) else (siteRecall s pa n, 0, readBytes s pa n))

/-- FABRIC_WRITE_REQUEST (R401). A fabric write arrives and is checked against membership. -/
def execFabricWriteRequest (src : ReqFrom) (key : BitVec 16) (pa : Nat) (data : Bytes) (s : State) : Out :=
  .next (atTarget s src.acc src.id key pa data.length 2 fun s pn =>
    if badMerge s pa data.length then (s, 3, []) else (putAt (siteRecall s pa data.length) pn pa data, 0, []))

/-- FABRIC_ATOMIC_REQUEST (R401). A fabric atomic arrives and executes at the home. -/
def execFabricAtomicRequest (src : ReqFrom) (key : BitVec 16) (pa : Nat) (op : RmwOp) (operand : BitVec 64) (expect : BitVec 64) (s : State) : Out :=
  let n := rmwSize op
  if pa % n != 0 then .next s
  else .next (atTarget s src.acc src.id key pa n 3 fun s pn =>
    if badUnit s pa n then (s, 3, [])
    else
      let (s', old) := homeAtomic s pn pa op operand.toNat expect.toNat
      (s', 0, leBytes n old))

/-- FABRIC_NACK (R402). A NACK for a load, atomic or store reaches the source and traps. -/
def execFabricNack (req : Nat) (cause : Nat) (s : State) : Out :=
  .next (if cause != 0 && s.reqs.any fun q => q.id == req && timely s q.issued then
    answerReq s req (fun q => answerNack q cause) cause else s)

/-- FABRIC_REQUEST_TIMEOUT (R401). A request, each copy of a multicast write, or a remote register store without answer for
100 µs counts cause 4. -/
def execFabricRequestTimeout (req : Nat) (s : State) : Out :=
  match s.reqs.find? fun q => q.id == req with
  | some q => .next (if timely s q.issued then s else answerReq (copiesTimeOut s q) req (fun q => answerNack q 4) 4)
  | none =>
    match s.rstores.find? fun r => r.id == req && goesAway s r with
    | some r => .next (if timely s r.sent then s
        else if r.src.isSome then awayAnswer s r 4 else { s with rstores := dropFirst (fun q => q == r) s.rstores })
    | none => .next s

/-- MULTICAST_COPY_ANSWER (R406). A multicast copy's answer arrives; the last one updates MCWORD's record. -/
def execMulticastCopyAnswer (req : Nat) (peer : BitVec 10) (cause : Nat) (s : State) : Out :=
  match s.reqs.find? fun q => q.id == req && timely s q.issued with
  | some q => .next (copyAnswer s q peer.toNat cause)
  | none => .next s

/-- RED_CONTRIBUTION (R408). A RED-page contribution arrives at the home round. -/
def execRedContribution (src : ReqFrom) (key : BitVec 16) (c : RedMsg) (s : State) : Out :=
  .next (atTarget s src.acc src.id key c.pa 256 2 fun s pn =>
    let q := redApply s pn src.acc.toNat c
    (q.1, q.2, []))

/-- RED_ROUND_TIMEOUT (R409). An ordered round times out and is flushed. -/
def execRedRoundTimeout (p : Nat) (pa : Nat) (s : State) : Out :=
  match s.rounds.find? fun r => r.part == p && r.pa == pa && r.ordered with
  | some r =>
    let tmo := redTmo (redEntry s p r.ridx)
    .next (if tmo != 0 && r.since + 1500 * tmo ≤ s.clock.toNat then flushRound s r else s)
  | none => .next s

/-- LINK_FAILURE (R410). A failed link leaves service and its requests reroute. -/
def execLinkFailure (station : BitVec 4) (s : State) : Out :=
  let s := { s with failedLinks := if s.failedLinks.contains station.toNat then s.failedLinks else s.failedLinks ++ [station.toNat] }
  let away (old peer pa : Nat) : Nat := if old == station.toNat then stationOf s peer pa else old
  .next { s with
    reqs := s.reqs.map fun q =>
      { q with
        station := away q.station q.peer q.pa
        kind := match q.kind with
          | .multicast g w copies ok no first => .multicast g w (copies.map fun c => (c.1, away c.2 c.1 q.pa)) ok no first
          | k => k }
    rstores := s.rstores.map fun r => { r with station := away r.station (nameAcc r.name.toNat) 0 } }

/-- HOST_ATOMIC_OP (R393). A host PCIe AtomicOp is performed on SYSAT pages or refused. -/
def execHostAtomicOp (p : HostFrom) (va : BitVec 64) (op : RmwOp) (operand : BitVec 64) (expect : BitVec 64) (s : State) : Out :=
  .next (hostAtomic s p.part p.ide va.toNat op operand.toNat expect.toNat)

/-- HOST_REQUEST (R444). A host request to a virtual function is checked for IDE in RUN. -/
def execHostRequest (vf : Nat) (ideT : Bool) (wr : HostOp) (s : State) : Out :=
  match partOf s vf with
  | none => .next (abort s vf)
  | some pn =>
    if (getPart s pn).state == .run && !ideT then .next (abort s vf)
    else
      match wr with
      | .write a d => .next (hostWrite s pn a.toNat d)
      | .read a n => .next (hostRead s pn a.toNat n)

end Sys2Proof.Machine
end

