-- ==== Sys2Proof/Machine/Health.lean ====
section
/-! DEFINITION. The device's own events of its health block: error counters, self-test and repairs, wear, power (21_faults_determinism_power, R415 to R431). -/

namespace Sys2Proof.Machine

/-! ## Power (R427 to R431) -/

/-- CUR of PWR (R427). -/
def Power.code : Power → Nat
  | .a0 => 0
  | .a1 => 1
  | .a2 => 2
  | .i1 => 3
  | .i2 => 4
  | .i3 => 5
  | .i4 => 6

/-- The least of the clocks to the next gang instant of any schedule; none where none is set (R386). -/
def toGang (s : State) : Option Nat :=
  s.gangs.foldl (fun m g => g.2.slices.foldl (fun m e =>
    let d := g.2.period - g.2.since s.clock.toNat e.1
    match m with
    | none => some d
    | some e => some (min d e)) m) none

/-- The least number of clocks to a BWAIT's deadline. -/
def toDeadline (s : State) : Option Nat :=
  (allThreads s).foldl (fun m t => match t.a.deadline with
    | none => m
    | some c =>
      let d := c.toNat - s.clock.toNat
      match m with
      | none => some d
      | some e => some (min d e)) none

/-- The active state that CAP and the temperature allow taken up (R428); a change waits while a gang instant lies within
200 µs. -/
def settlePower (s : State) : State :=
  if s.health.power.active && (match toGang s with
    | some d => decide (300000 < d)
    | none => true) then updHealth s fun h => { h with power := activeState (max h.cap h.hot) }
  else s

/-- Whether nothing is left to do: what the device must be to enter an idle state, and what ends one (R429, R430). -/
def quiet (s : State) : Bool :=
  s.reqs.isEmpty && s.rstores.isEmpty && s.ranswers.isEmpty && s.rowq.isEmpty &&
    ((allThreads s).all fun t => !occupies s t || (t.isStopped || ((t.a.ended || parkedNow t .a) && (t.x.ended || parkedNow t .x))) &&
      t.copies.isEmpty && t.xfers.isEmpty && t.svcmds.isEmpty && t.stopping.isNone) &&
    s.parts.all fun p => (nextDispatch s p.1).isNone && (stagedReady s p.1).isNone

/-- Whether the device is idle and not yet in an idle state (R429). -/
def idle (s : State) : Bool := s.health.power.active && quiet s

/-- The idle states, deepest first, with their exit latencies in µs (R427). -/
def idleStates : List (Power × Nat) := [(.i4, 25000), (.i3, 2000), (.i2, 40), (.i1, 2)]

/-- The deepest idle state allowed (R429). -/
def idleChoice (s : State) : Option Power :=
  let placed := s.launches.any fun l => !l.ended
  let short (n : Nat) : Option Nat → Bool
    | some d => decide (1500 * n < d)
    | none => true
  (idleStates.find? fun e => e.2 ≤ s.health.latTol && short e.2 (toGang s) && short e.2 (toDeadline s) &&
    (!placed || e.1 == .i1 || e.1 == .i2)).map fun e => e.1

/-- An idle state entered: I2 and deeper save every placed thread that a stop has not saved already (R429). -/
def enterIdle (s : State) (p : Power) : State :=
  let s := updHealth s fun h => { h with power := p }
  if p == .i1 then s
  else (allThreads s).foldl (fun s t => if t.runs then saveImage s (idleThread s t) 0 else s) s

/-- Whether an idle device has cause to wake by itself: a dependency word is satisfied or other work is there, or a gang
instant or a deadline is ahead (R430). A write to partition memory, a fabric request and a register write wake it in their
own events. -/
def wakeCause (s : State) : Bool :=
  !s.health.power.active && (!quiet s || (toGang s).isSome || (toDeadline s).isSome)

/-- Whether the model's own order wakes it: work is there, or the instant or deadline is as near as the exit is long. -/
def wakeDue (s : State) : Bool :=
  let near : Option Nat → Bool
    | some d => idleStates.any fun e => e.1 == s.health.power && d ≤ 1500 * e.2
    | none => false
  !s.health.power.active && (!quiet s || near (toGang s) || near (toDeadline s))

/-! ## The matrix self-test and repairs (R419 to R421) -/

/-- The threads whose MROWs the engine kept under a core's number multiplies. -/
def onEngine (s : State) (e : Nat) (t : Thread) : Bool := t.status != .free && engineCore s t.lcore == e

/-- The physical cores of a logical core's cluster: nine to a cluster, in cluster order. -/
def clusterCores (core : Nat) : List Nat := (List.range 9).map fun k => core / 8 * 9 + k

/-- The logical cores that a physical core serves, alone or by turns. -/
def servedBy (s : State) (phys : Nat) : List Nat :=
  (List.range 384).filter fun lc => let e := remapOf s lc; e.getLsbD 15 && e.toNat % 512 == phys

/-- One logical core moved off a physical core that is out of use (R421): to a free core of its cluster, else onto the
lowest enabled one, shared; the shared engine's record is then that of the core it was kept under. -/
def moveOne (s : State) (core : Nat) : State :=
  let set_ (s : State) (lc v : Nat) : State :=
    { s with remap := Store.put (bootEntry lc) s.remap lc (BitVec.ofNat 16 v) }
  let sound := (clusterCores core).filter fun p => !s.health.retired.contains p
  let put (s : State) (lc : Nat) (e : CoreSt) : State := updCore s lc fun c =>
    { e with degraded := c.degraded, accepted := c.accepted }
  match sound.find? fun p => (servedBy s p).isEmpty with
  | some p => put (set_ s core (0x8000 + p)) core { CoreSt.reset with mrows := (coreOfState s core).mrows }
  | none =>
    match sound.head? with
    | some p =>
      let there := servedBy s p
      let e := coreOfState s (engineCore s (there.headD core))
      let s := (there ++ [core]).foldl (fun s lc => set_ s lc (0xC000 + p)) s
      put s (engineCore s core) e
    | none => set_ s core ((remapOf s core).toNat % 0x4000)

/-- A degraded physical core taken out of use until reset, and the logical cores it serves moved, in ascending order
(R421). Their threads are stopped and go on there; an usher moves without a stop (R373). -/
def moveCore (s : State) (core : Nat) : State :=
  let old := (remapOf s core).toNat % 512
  let group := if Store.has s.remap core && (Store.get 0 s.remap core).getLsbD 14 then servedBy s old else [core]
  let s := updThreads s (fun t => t.status != .free && group.contains t.lcore && !isUsher s t) fun t => t.askStop .repair
  let s := updHealth s fun h => { h with retired := h.retired ++ [old], msixPf := h.msixPf ++ [1] }
  let s := group.foldl moveOne s
  group.foldl (fun s lc => updCore s lc fun c => { c with degraded := true }) s

/-- How many of the 12 sub-arrays a mask names. -/
def subArrays (m : BitVec 12) : Nat := ((List.range 12).filter fun k => m.getLsbD k).length

/-- A self-test's result (R419, R420): sub-arrays that differ are fenced, and every thread with an MROW since the last
passed test owes an INTG; a second failure at once, or one without a spare, degrades the core. -/
def selfTest (s : State) (core : Nat) (bad : BitVec 12) : State :=
  let e := engineCore s core
  let c := coreOfState s e
  if !c.testDue then s
  else
    let s := match (allThreads s).find? (onEngine s e) with
      | some t => count s t 0x210 1
      | none => s
    let on (t : Thread) : Bool := onEngine s e t
    let s := updCore s e fun c => { c with testDue := false, fenced := c.fenced ||| bad }
    if bad == 0 then updThreads s on fun t => { t with firstRow := none }
    else
      let s := updThreads s on fun t => { t with intg := match t.intg with
        | some n => some n
        | none => t.firstRow }
      if 2 ≤ subArrays bad || c.spareUsed then moveCore s core else s

/-- A single-bit error corrected (R415, R416): CE counts it, and in a core's SRAM the counter of the partition it was met
for (R76). -/
def correctedError (s : State) (lcore part : Nat) : State :=
  let s := updHealth s fun h => { h with ce := min (2 ^ 48 - 1) (h.ce + 1) }
  if part < 16 && counting (getPart s part) then
    let k := counterKey lcore part 0x21F
    { s with counters := Store.put 0 s.counters k (Store.get 0 s.counters k + 1) }
  else s

/-! ## The registers of the health block (R415, R426) -/

/-- HCTL written (R415): STLOG keeps its value where the new one lies outside 12 to 20. -/
def writeHctl (h : Health) (v : BitVec 64) : Health :=
  let l := v.toNat / 2 ^ 16 % 32
  { h with stlog := if 12 ≤ l && l ≤ 20 then l else h.stlog, wearThr := v.toNat % 2 ^ 16 }

/-- WEAR of a die. -/
def wearOf (s : State) (d : Nat) : BitVec 64 := Store.get wearReset s.health.wear d

/-- A register of the health block, by offset (R415); reserved offsets read 0. -/
def healthReg (s : State) (off : Nat) : BitVec 64 :=
  let h := s.health
  if off == 0 then BitVec.ofNat 64 (h.stlog * 2 ^ 16 + h.wearThr)
  else if off == 0x08 then BitVec.ofNat 64 (h.uce * 2 ^ 48 + h.ce)
  else if off == 0x10 then BitVec.ofNat 64 (h.power.code * 16 + h.cap)
  else if off == 0x18 then BitVec.ofNat 64 h.latTol
  else if 0x20 ≤ off && off < 0x50 && off % 8 == 0 then
    BitVec.ofNat 64 ((List.range 64).foldl (fun a k =>
      a + if (coreOfState s ((off - 0x20) * 8 + k)).degraded then 2 ^ k else 0) 0)
  else if 0x100 ≤ off && off < 0x140 && off % 8 == 0 then wearOf s ((off - 0x100) / 8)
  else 0

/-- A new estimate (R426): LOW and the notice come when MONTHS falls below the threshold, but no vector is raised in recovery
(R439). -/
def wearUpdate (s : State) (d : Nat) (months : BitVec 16) (conf : BitVec 8) (worst : BitVec 4) : State :=
  if 8 ≤ d then s
  else
    let low := (wearOf s d).getLsbD 28
    let new := months.toNat < s.health.wearThr && !low
    let v : BitVec 64 := BitVec.ofNat 64 ((if low || new then 2 ^ 28 else 0) + worst.toNat * 2 ^ 24 + min 100 conf.toNat * 2 ^ 16 + months.toNat)
    updHealth s fun h =>
      { h with wear := Store.put wearReset h.wear d v, msixPf := if new && !s.trust.recov then h.msixPf ++ [2] else h.msixPf }

/-- Whether the host's register pages other than the trust block answer: not in recovery (R439). -/
def served (s : State) : Bool := !s.trust.recov

/-- The host's read of a register of the health block, where the block answers. -/
def healthRead (s : State) (off : Nat) : Option (BitVec 64) := if served s then some (healthReg s off) else none

/-- SELF_TEST_PRODUCT (R419). The core's MROW count reaches a multiple of 2^STLOG and a test product runs. -/
def execSelfTestProduct (core : Nat) (bad : BitVec 12) (s : State) : Out :=
  .next (selfTest s core bad)

/-- SPARE_REPLACEMENT (R420). The spare sub-array enters service. -/
def execSpareReplacement (core : Nat) (s : State) : Out :=
  .next (updCore s (engineCore s core) fun c => if c.fenced != 0 then { c with spareUsed := true } else c)

/-- SCRUB (R416). Firmware scrubs memory and SRAM units on schedule. -/
def execScrub (unit : Nat) (s : State) : Out :=
  if s.uce.contains unit then .next (updHealth s fun h => { h with uce := min 65535 (h.uce + 1) })
  else .next s

/-- WEAR_UPDATE (R426). The hourly wear estimate updates and may raise the wear notice. -/
def execWearUpdate (die : Nat) (months : BitVec 16) (conf : BitVec 8) (worst : BitVec 4) (s : State) : Out :=
  .next (wearUpdate s die months conf worst)

/-- THERMAL_LIMIT (R428). A die at its limit moves the device to a slower A-state. -/
def execThermalLimit (s : State) : Out :=
  .next (settlePower (updHealth s fun h => { h with hot := min 2 (max h.cap h.hot + 1) }))

/-- DIE_TEMPERATURE_FALL (R428). A die falling back below its limit lets the device move to a faster A-state that CAP allows. -/
def execDieTemperatureFall (s : State) : Out :=
  .next (settlePower (updHealth s fun h => { h with hot := h.hot - 1 }))

/-- IDLE_ENTRY (R429). An idle device enters the deepest permitted idle state. -/
def execIdleEntry (s : State) : Out :=
  match (if idle s then idleChoice s else none) with
  | some p => .next (enterIdle s p)
  | none => .next s

/-- IDLE_WAKE (R430). A wake event exits the idle state. -/
def execIdleWake (s : State) : Out :=
  .next (if wakeCause s then wake s else s)

/-- REGISTER_WRITE (R8). A host write to a health or trust register with no behaviour of its own. -/
def execRegisterWrite (off : Nat) (v : BitVec 64) (s : State) : Out :=
  .next (if served s && off == 0x100000 then updHealth s fun h => writeHctl h v else s)

/-- ECCSTAT_WRITE (R415). A write of ones clears ECCSTAT fields. -/
def execEccstatWrite (v : BitVec 64) (s : State) : Out :=
  .next (if served s then updHealth s fun h =>
      { h with uce := if v.toNat / 2 ^ 48 == 0 then h.uce else 0, ce := if v.toNat % 2 ^ 48 == 0 then h.ce else 0 }
    else s)

/-- PWR_WRITE (R427). A write sets the power cap and wakes the device. -/
def execPwrWrite (v : BitVec 64) (s : State) : Out :=
  .next (if served s then settlePower (wake (updHealth s fun h => { h with cap := if v.toNat % 4 == 3 then h.cap else v.toNat % 4 }))
    else s)

/-- LATTOL_MIRROR_WRITE (R431). A host write sets the latency tolerance and wakes the device. -/
def execLattolMirrorWrite (v : BitVec 64) (s : State) : Out :=
  .next (if served s then wake (updHealth s fun h => { h with latTol := v.toNat % 2 ^ 24 }) else s)

/-- WEAR_WRITE (R426). A write of one clears a die's LOW flag. -/
def execWearWrite (die : Nat) (v : BitVec 64) (s : State) : Out :=
  .next (if served s && die < 8 && v.getLsbD 28 then
      updHealth s fun h => { h with wear := Store.put wearReset h.wear die (wearOf s die &&& ~~~(BitVec.ofNat 64 (2 ^ 28))) }
    else s)

/-- FWSTAGE_WRITE (R435). A write of 1 arms the flash image for the next reset. -/
def execFwstageWrite (v : BitVec 64) (s : State) : Out :=
  .next (if v == 1 then { s with trust := { s.trust with armed := true } } else s)

end Sys2Proof.Machine
end

