-- ==== Sys2Proof/Machine/Queue.lean ====
section
/-! DEFINITION. Queue control (05_scalar_control, R143 to R146). -/

namespace Sys2Proof.Machine

/-- The EINFO bit of a queue port (R79, R146): bit k for port 104 + k. -/
def portBit (n : Nat) : Dword := BitVec.ofNat 64 (2 ^ (n - 104))

/-- Whether the issuing stream is the one that pops a queue (R51). -/
def pops (q : Strm) (n : Nat) : Bool := match q with
  | .a => portXtoA n
  | .x => portAtoX n

/-- QDRAIN (R145). Parks until the named queue is empty. -/
def execQdrain (a : Reg) (s : State) : Out :=
  issueN .qdrain (fmtR 0x3e#7 0#7 a 0#7 0#4) (do
    let s ← get
    if (s.th.queue a.toNat).isEmpty then pure ()
    else if pops s.strm a.toNat then trap cQDEAD (portBit a.toNat)
    else park (.drain a.toNat)) s

/-- QCNT (R144). Writes the entry count of the named queue. -/
def execQcnt (d : Reg) (a : Reg) (s : State) : Out :=
  issueN .qcnt (fmtR 0x3f#7 d a 0#7 0#4) (do
    let n ← see fun s => (s.th.queue a.toNat).length
    wr d (BitVec.ofNat 64 n)) s

end Sys2Proof.Machine
end

