-- ==== Sys2Proof/Machine/Scalar.lean ====
section
/-! DEFINITION. Scalar integer and floating-point instructions (05_scalar_control, R116 to R123). Each is one read of its operands,
one computation and one write; queue ports pop and push as R53 says. -/

namespace Sys2Proof.Machine

/-! ## Shared operations -/

/-- The number of zero bits from the top of a 64-bit value (R118). -/
def clz64 (v : Dword) : Dword := BitVec.ofNat 64 (64 - bitLen v.toNat)
/-- The number of zero bits from bit `k` upward, over at most `n` bits. -/
def ctzFrom (v : Dword) : Nat → Nat → Nat
  | 0, k => k
  | n + 1, k => if v.getLsbD k then k else ctzFrom v n (k + 1)
/-- The number of zero bits from the bottom (R118). -/
def ctz64 (v : Dword) : Dword := BitVec.ofNat 64 (ctzFrom v 64 0)
/-- The number of one bits among the low `n` bits of a value. -/
def popcount : Nat → Nat → Nat
  | 0, _ => 0
  | n + 1, v => v % 2 + popcount n (v / 2)

/-- Signed and unsigned quotient and remainder, with the divisor 0 and overflow cases of R48. -/
def sdiv64 (x y : Dword) : Dword := if y == 0 then BitVec.allOnes 64 else BitVec.ofInt 64 (x.toInt.tdiv y.toInt)
def udiv64 (x y : Dword) : Dword := if y == 0 then BitVec.allOnes 64 else x / y
def srem64 (x y : Dword) : Dword := if y == 0 then x else BitVec.ofInt 64 (x.toInt.tmod y.toInt)
def urem64 (x y : Dword) : Dword := if y == 0 then x else x % y
/-- The high halves of the exact products (R48). -/
def mulh64 (x y : Dword) : Dword := BitVec.ofInt 64 (x.toInt * y.toInt / 2 ^ 64)
def mulhu64 (x y : Dword) : Dword := BitVec.ofNat 64 (x.toNat * y.toNat / 2 ^ 64)

/-- Signed and unsigned order. -/
def slt64 (x y : Dword) : Bool := decide (x.toInt < y.toInt)
def ult64 (x y : Dword) : Bool := decide (x.toNat < y.toNat)

/-- sd := f(sa, sb), the pops in field order (R53, R117). -/
def alu2 (d a b : Reg) (f : Dword → Dword → Dword) : M Unit := do
  let x ← rd a
  let y ← rd b
  wr d (f x y)

/-- sd := f(sa). -/
def alu1 (d a : Reg) (f : Dword → Dword) : M Unit := do
  let x ← rd a
  wr d (f x)

/-! ## Scalar floating point (R120 to R123) -/

/-- The rounding of a scalar floating operation: the stream's mode, with the RS counter sbase + 2^63 (R29, R31). -/
def scalarRnd (s : State) : Rnd :=
  ⟨s.cur.fmode.toNat % 8, (nmx s.cur.seed (s.cur.sbase + 0x8000000000000000)).toNat % 65536⟩

/-- A scalar floating result written, or FPX with the lowest enabled exception's place and nothing written (R123). -/
def fpWrite (d : Reg) (r : FRes) : M Unit := do
  let e ← see fun s => enabled s.cur.fmode r.2
  if e == 0 then wr d (BitVec.ofNat 64 r.1)
  else trap cFPX (fpxInfo e)

/-- sd := f(sa, sb) in FP64. -/
def fp2 (d a b : Reg) (f : Rnd → Nat → Nat → FRes) : M Unit := do
  let x ← rd a
  let y ← rd b
  let r ← see scalarRnd
  fpWrite d (f r x.toNat y.toNat)

/-- sd := f(sa) in FP64 or a conversion. -/
def fp1 (d a : Reg) (f : Rnd → Dword → FRes) : M Unit := do
  let x ← rd a
  let r ← see scalarRnd
  fpWrite d (f r x)

/-- sd := the truth of a comparison as an integer. -/
def fpCmp (d a b : Reg) (cond : Nat) : M Unit := do
  let x ← rd a
  let y ← rd b
  let c := fCmp fp64 cond x.toNat y.toNat
  fpWrite d (if c.1 then 1 else 0, c.2)

/-! ## The instructions -/

/-- ADD (R117). Writes sa + sb modulo 2^64 to sd. -/
def execAdd (d : Reg) (a : Reg) (b : Reg) (s : State) : Out :=
  issueN .add (fmtR 1#7 d a b 0#4) (alu2 d a b (fun x y => x + y)) s

/-- SUB (R117). Writes sa - sb modulo 2^64 to sd. -/
def execSub (d : Reg) (a : Reg) (b : Reg) (s : State) : Out :=
  issueN .sub (fmtR 1#7 d a b 1#4) (alu2 d a b (fun x y => x - y)) s

/-- AND (R117). Writes the bitwise AND of sa and sb to sd. -/
def execAnd (d : Reg) (a : Reg) (b : Reg) (s : State) : Out :=
  issueN .and (fmtR 1#7 d a b 2#4) (alu2 d a b (fun x y => x &&& y)) s

/-- OR (R117). Writes the bitwise OR of sa and sb to sd. -/
def execOr (d : Reg) (a : Reg) (b : Reg) (s : State) : Out :=
  issueN .or (fmtR 1#7 d a b 3#4) (alu2 d a b (fun x y => x ||| y)) s

/-- XOR (R117). Writes the bitwise XOR of sa and sb to sd. -/
def execXor (d : Reg) (a : Reg) (b : Reg) (s : State) : Out :=
  issueN .xor (fmtR 1#7 d a b 4#4) (alu2 d a b (fun x y => x ^^^ y)) s

/-- SHL (R117). Shifts sa left by sb mod 64. -/
def execShl (d : Reg) (a : Reg) (b : Reg) (s : State) : Out :=
  issueN .shl (fmtR 1#7 d a b 5#4) (alu2 d a b (fun x y => x <<< (y.toNat % 64))) s

/-- SHR (R117). Shifts sa right logically by sb mod 64. -/
def execShr (d : Reg) (a : Reg) (b : Reg) (s : State) : Out :=
  issueN .shr (fmtR 1#7 d a b 6#4) (alu2 d a b (fun x y => x >>> (y.toNat % 64))) s

/-- SRA (R117). Shifts sa right arithmetically by sb mod 64. -/
def execSra (d : Reg) (a : Reg) (b : Reg) (s : State) : Out :=
  issueN .sra (fmtR 1#7 d a b 7#4) (alu2 d a b (fun x y => x.sshiftRight (y.toNat % 64))) s

/-- MIN (R117). Writes the signed minimum of sa and sb. -/
def execMin (d : Reg) (a : Reg) (b : Reg) (s : State) : Out :=
  issueN .min (fmtR 1#7 d a b 8#4) (alu2 d a b (fun x y => if slt64 y x then y else x)) s

/-- MAX (R117). Writes the signed maximum of sa and sb. -/
def execMax (d : Reg) (a : Reg) (b : Reg) (s : State) : Out :=
  issueN .max (fmtR 1#7 d a b 9#4) (alu2 d a b (fun x y => if slt64 x y then y else x)) s

/-- MINU (R117). Writes the unsigned minimum of sa and sb. -/
def execMinu (d : Reg) (a : Reg) (b : Reg) (s : State) : Out :=
  issueN .minu (fmtR 1#7 d a b 0xa#4) (alu2 d a b (fun x y => if ult64 y x then y else x)) s

/-- MAXU (R117). Writes the unsigned maximum of sa and sb. -/
def execMaxu (d : Reg) (a : Reg) (b : Reg) (s : State) : Out :=
  issueN .maxu (fmtR 1#7 d a b 0xb#4) (alu2 d a b (fun x y => if ult64 x y then y else x)) s

/-- SLT (R117). Writes 1 if sa < sb signed, else 0. -/
def execSlt (d : Reg) (a : Reg) (b : Reg) (s : State) : Out :=
  issueN .slt (fmtR 1#7 d a b 0xc#4) (alu2 d a b (fun x y => boolWord (slt64 x y))) s

/-- SLTU (R117). Writes 1 if sa < sb unsigned, else 0. -/
def execSltu (d : Reg) (a : Reg) (b : Reg) (s : State) : Out :=
  issueN .sltu (fmtR 1#7 d a b 0xd#4) (alu2 d a b (fun x y => boolWord (ult64 x y))) s

/-- SEQ (R117). Writes 1 if sa equals sb, else 0. -/
def execSeq (d : Reg) (a : Reg) (b : Reg) (s : State) : Out :=
  issueN .seq (fmtR 1#7 d a b 0xe#4) (alu2 d a b (fun x y => boolWord (x == y))) s

/-- SEL (R117). Writes sa if sd is nonzero, else sb, into sd. -/
def execSel (d : Reg) (a : Reg) (b : Reg) (s : State) : Out :=
  issueN .sel (fmtR 1#7 d a b 0xf#4) (do
    let c ← rd d
    alu2 d a b (fun x y => if c != 0 then x else y)) s

/-- MUL (R118). Writes the low 64 bits of sa times sb. -/
def execMul (d : Reg) (a : Reg) (b : Reg) (s : State) : Out :=
  issueN .mul (fmtR 2#7 d a b 0#4) (alu2 d a b (fun x y => x * y)) s

/-- MULH (R118). Writes the high 64 bits of the signed product. -/
def execMulh (d : Reg) (a : Reg) (b : Reg) (s : State) : Out :=
  issueN .mulh (fmtR 2#7 d a b 1#4) (alu2 d a b (mulh64)) s

/-- MULHU (R118). Writes the high 64 bits of the unsigned product. -/
def execMulhu (d : Reg) (a : Reg) (b : Reg) (s : State) : Out :=
  issueN .mulhu (fmtR 2#7 d a b 2#4) (alu2 d a b (mulhu64)) s

/-- DIV (R118). Writes the signed quotient rounded toward zero. -/
def execDiv (d : Reg) (a : Reg) (b : Reg) (s : State) : Out :=
  issueN .div (fmtR 2#7 d a b 3#4) (alu2 d a b (sdiv64)) s

/-- DIVU (R118). Writes the unsigned quotient. -/
def execDivu (d : Reg) (a : Reg) (b : Reg) (s : State) : Out :=
  issueN .divu (fmtR 2#7 d a b 4#4) (alu2 d a b (udiv64)) s

/-- REM (R118). Writes the signed remainder with the sign of the dividend. -/
def execRem (d : Reg) (a : Reg) (b : Reg) (s : State) : Out :=
  issueN .rem (fmtR 2#7 d a b 5#4) (alu2 d a b (srem64)) s

/-- REMU (R118). Writes the unsigned remainder. -/
def execRemu (d : Reg) (a : Reg) (b : Reg) (s : State) : Out :=
  issueN .remu (fmtR 2#7 d a b 6#4) (alu2 d a b (urem64)) s

/-- CLZ (R118). Counts leading zero bits of sa. -/
def execClz (d : Reg) (a : Reg) (s : State) : Out :=
  issueN .clz (fmtR 2#7 d a 0#7 7#4) (alu1 d a (clz64)) s

/-- CTZ (R118). Counts trailing zero bits of sa. -/
def execCtz (d : Reg) (a : Reg) (s : State) : Out :=
  issueN .ctz (fmtR 2#7 d a 0#7 8#4) (alu1 d a (ctz64)) s

/-- POPC (R118). Counts the one bits of sa. -/
def execPopc (d : Reg) (a : Reg) (s : State) : Out :=
  issueN .popc (fmtR 2#7 d a 0#7 9#4) (alu1 d a (fun x => BitVec.ofNat 64 (popcount 64 x.toNat))) s

/-- SXB (R118). Sign-extends sa[7:0] to 64 bits. -/
def execSxb (d : Reg) (a : Reg) (s : State) : Out :=
  issueN .sxb (fmtR 2#7 d a 0#7 0xa#4) (alu1 d a (fun x => (x.setWidth 8).signExtend 64)) s

/-- SXH (R118). Sign-extends sa[15:0] to 64 bits. -/
def execSxh (d : Reg) (a : Reg) (s : State) : Out :=
  issueN .sxh (fmtR 2#7 d a 0#7 0xb#4) (alu1 d a (fun x => (x.setWidth 16).signExtend 64)) s

/-- SXW (R118). Sign-extends sa[31:0] to 64 bits. -/
def execSxw (d : Reg) (a : Reg) (s : State) : Out :=
  issueN .sxw (fmtR 2#7 d a 0#7 0xc#4) (alu1 d a (fun x => (x.setWidth 32).signExtend 64)) s

/-- ADDI (R119). Adds the sign-extended imm11 to sa. -/
def execAddi (d : Reg) (a : Reg) (i : BitVec 11) (s : State) : Out :=
  issueN .addi (fmtI 3#7 d a i) (alu1 d a (fun x => x + i.signExtend 64)) s

/-- ANDI (R119). ANDs sa with the zero-extended imm11. -/
def execAndi (d : Reg) (a : Reg) (i : BitVec 11) (s : State) : Out :=
  issueN .andi (fmtI 4#7 d a i) (alu1 d a (fun x => x &&& i.setWidth 64)) s

/-- ORI (R119). ORs sa with the zero-extended imm11. -/
def execOri (d : Reg) (a : Reg) (i : BitVec 11) (s : State) : Out :=
  issueN .ori (fmtI 5#7 d a i) (alu1 d a (fun x => x ||| i.setWidth 64)) s

/-- XORI (R119). XORs sa with the zero-extended imm11. -/
def execXori (d : Reg) (a : Reg) (i : BitVec 11) (s : State) : Out :=
  issueN .xori (fmtI 6#7 d a i) (alu1 d a (fun x => x ^^^ i.setWidth 64)) s

/-- SHLI (R119). Shifts sa left by imm11[5:0]. -/
def execShli (d : Reg) (a : Reg) (i : BitVec 6) (s : State) : Out :=
  issueN .shli (fmtI 7#7 d a (0#5 ++ i)) (alu1 d a (fun x => x <<< i.toNat)) s

/-- SHRI (R119). Shifts sa right logically by imm11[5:0]. -/
def execShri (d : Reg) (a : Reg) (i : BitVec 6) (s : State) : Out :=
  issueN .shri (fmtI 8#7 d a (0#5 ++ i)) (alu1 d a (fun x => x >>> i.toNat)) s

/-- SRAI (R119). Shifts sa right arithmetically by imm11[5:0]. -/
def execSrai (d : Reg) (a : Reg) (i : BitVec 6) (s : State) : Out :=
  issueN .srai (fmtI 9#7 d a (0#5 ++ i)) (alu1 d a (fun x => x.sshiftRight i.toNat)) s

/-- SLTI (R119). Writes 1 if sa is below the sign-extended imm11. -/
def execSlti (d : Reg) (a : Reg) (i : BitVec 11) (s : State) : Out :=
  issueN .slti (fmtI 0xa#7 d a i) (alu1 d a (fun x => boolWord (slt64 x (i.signExtend 64)))) s

/-- LI (R119). Writes imm18 sign-extended to sd. -/
def execLi (d : Reg) (i : BitVec 18) (s : State) : Out :=
  issueN .li (fmtL 0xb#7 d i) (wr d (i.signExtend 64)) s

/-- LSH (R119). Writes (sd << 18) | imm18 to sd. -/
def execLsh (d : Reg) (i : BitVec 18) (s : State) : Out :=
  issueN .lsh (fmtL 0xc#7 d i) (do
    let x ← rd d
    wr d (x <<< 18 ||| i.setWidth 64)) s

/-- SFADD (R121). FP64 add rounded in the fmode mode. -/
def execSfadd (d : Reg) (a : Reg) (b : Reg) (s : State) : Out :=
  issueN .sfadd (fmtR 0xd#7 d a b 0#4) (fp2 d a b (fAdd fp64)) s

/-- SFSUB (R121). FP64 subtract rounded in the fmode mode. -/
def execSfsub (d : Reg) (a : Reg) (b : Reg) (s : State) : Out :=
  issueN .sfsub (fmtR 0xd#7 d a b 1#4) (fp2 d a b (fSub fp64)) s

/-- SFMUL (R121). FP64 multiply rounded in the fmode mode. -/
def execSfmul (d : Reg) (a : Reg) (b : Reg) (s : State) : Out :=
  issueN .sfmul (fmtR 0xd#7 d a b 2#4) (fp2 d a b (fMul fp64)) s

/-- SFDIV (R121). FP64 divide rounded in the fmode mode. -/
def execSfdiv (d : Reg) (a : Reg) (b : Reg) (s : State) : Out :=
  issueN .sfdiv (fmtR 0xd#7 d a b 3#4) (fp2 d a b (fDiv fp64)) s

/-- SFSQRT (R121). FP64 square root rounded in the fmode mode. -/
def execSfsqrt (d : Reg) (a : Reg) (s : State) : Out :=
  issueN .sfsqrt (fmtR 0xd#7 d a 0#7 4#4) (fp1 d a (fun r x => fSqrt fp64 r x.toNat)) s

/-- SFMIN (R121). FP64 minimumNumber of sa and sb. -/
def execSfmin (d : Reg) (a : Reg) (b : Reg) (s : State) : Out :=
  issueN .sfmin (fmtR 0xd#7 d a b 5#4) (fp2 d a b (fun _ => fMinMax fp64 false)) s

/-- SFMAX (R121). FP64 maximumNumber of sa and sb. -/
def execSfmax (d : Reg) (a : Reg) (b : Reg) (s : State) : Out :=
  issueN .sfmax (fmtR 0xd#7 d a b 6#4) (fp2 d a b (fun _ => fMinMax fp64 true)) s

/-- SFMA (R121). Fused sd + sa x sb in FP64 with one rounding. -/
def execSfma (d : Reg) (a : Reg) (b : Reg) (s : State) : Out :=
  issueN .sfma (fmtR 0xd#7 d a b 7#4) (do
    let c ← rd d
    fp2 d a b (fun r x y => fFma fp64 r false c.toNat x y)) s

/-- SFEQ (R121). Writes 1 if the FP64 operands compare equal. -/
def execSfeq (d : Reg) (a : Reg) (b : Reg) (s : State) : Out :=
  issueN .sfeq (fmtR 0xd#7 d a b 8#4) (fpCmp d a b 0) s

/-- SFLT (R121). Writes 1 if sa < sb in FP64. -/
def execSflt (d : Reg) (a : Reg) (b : Reg) (s : State) : Out :=
  issueN .sflt (fmtR 0xd#7 d a b 9#4) (fpCmp d a b 2) s

/-- SFLE (R121). Writes 1 if sa <= sb in FP64. -/
def execSfle (d : Reg) (a : Reg) (b : Reg) (s : State) : Out :=
  issueN .sfle (fmtR 0xd#7 d a b 0xa#4) (fpCmp d a b 3) s

/-- SCVDL (R122). Converts INT64 to FP64. -/
def execScvdl (d : Reg) (a : Reg) (s : State) : Out :=
  issueN .scvdl (fmtR 0xe#7 d a 0#7 0#4) (fp1 d a (fun r x => intToF fp64 r x.toInt)) s

/-- SCVLD (R122). Converts FP64 to INT64 with saturation. -/
def execScvld (d : Reg) (a : Reg) (s : State) : Out :=
  issueN .scvld (fmtR 0xe#7 d a 0#7 1#4) (fp1 d a (fun r x => fToInt fp64 r 64 x.toNat)) s

/-- SCVDF (R122). Converts FP32 to FP64 exactly. -/
def execScvdf (d : Reg) (a : Reg) (s : State) : Out :=
  issueN .scvdf (fmtR 0xe#7 d a 0#7 2#4) (fp1 d a (fun _ x => (f32To64 (x.toNat % 2 ^ 32), 0))) s

/-- SCVFD (R122). Converts FP64 to FP32. -/
def execScvfd (d : Reg) (a : Reg) (s : State) : Out :=
  issueN .scvfd (fmtR 0xe#7 d a 0#7 3#4) (fp1 d a (fun r x => f64To32 r x.toNat)) s

/-- SCVDH (R122). Converts FP16 to FP64 exactly. -/
def execScvdh (d : Reg) (a : Reg) (s : State) : Out :=
  issueN .scvdh (fmtR 0xe#7 d a 0#7 4#4) (fp1 d a (fun _ x => (f32To64 (narrowTo32 fp16 (x.toNat % 2 ^ 16)), 0))) s

/-- SCVHD (R122). Converts FP64 to FP16. -/
def execScvhd (d : Reg) (a : Reg) (s : State) : Out :=
  issueN .scvhd (fmtR 0xe#7 d a 0#7 5#4) (fp1 d a (fun r x => f64ToNarrow fp16 r true x.toNat)) s

/-- SCVDB (R122). Converts BF16 to FP64 exactly. -/
def execScvdb (d : Reg) (a : Reg) (s : State) : Out :=
  issueN .scvdb (fmtR 0xe#7 d a 0#7 6#4) (fp1 d a (fun _ x => (f32To64 (narrowTo32 bf16 (x.toNat % 2 ^ 16)), 0))) s

/-- SCVBD (R122). Converts FP64 to BF16. -/
def execScvbd (d : Reg) (a : Reg) (s : State) : Out :=
  issueN .scvbd (fmtR 0xe#7 d a 0#7 7#4) (fp1 d a (fun r x => f64ToNarrow bf16 r true x.toNat)) s

end Sys2Proof.Machine
end

