-- ==== Sys2Proof/Machine/Trust.lean ====
section
/-! DEFINITION. The trust controller's events: firmware, boot, partitions, SPDM and TDISP, the debug policy (22_trust_boot_package, R435 to R447; 18_launch_contexts, R383 to R385). -/

namespace Sys2Proof.Machine

/-! ## Firmware images (R436, R437) -/

/-- Why an image is not accepted: its failure code; 0 where it is (R437, R438). -/
def imageCode (b : BootInput) (kind floor : Nat) (img : Bytes) : Nat :=
  let body := (img.drop 0x9B4).take (field img 8 8)
  let key := field img 0x30 1
  if field img 0 4 != 0x38464A46 || field img 4 2 != kind || (img.drop 0x31).take 15 != List.replicate 15 0 ||
      img.length < 0x9B4 + field img 8 8 || 4 ≤ key ||
      Config.sha3 body != BitVec.ofNat 256 (leNat ((img.drop 0x10).take 32)) then 2
  else if b.revoked / 2 ^ key % 2 == 1 ||
      !Config.mldsaVerify (atD [] key b.keys) (img.take 0x40) ((img.drop 0x40).take 2420) then 3
  else if field img 6 2 < floor then 4
  else 0

/-- An image's security version, and the hash of its body. -/
def imageSvn (img : Bytes) : Nat := field img 6 2
def imageHash (img : Bytes) : BitVec 256 := BitVec.ofNat 256 (leNat ((img.drop 0x10).take 32))

/-- The image of a kind that the boot finds in flash: an armed update gives its own; else one accepted in recovery stands in
the place of its kind (R435, R439). -/
def bootImage (s : State) (b : BootInput) (kind : Nat) : Bytes :=
  if s.trust.armed then atD [] (kind - 1) b.staged
  else (s.trust.recovered.find? fun i => field i 4 2 == kind).getD (atD [] (kind - 1) b.images)

/-! ## Boot (R438, R439) -/

/-- The device as a reset leaves it before its first stage: everything at its reset value but the fuses, the DRBG and
the flash, the model's own schedule and free values. -/
def resetState (s : State) : State :=
  { State.reset with
    agenda := s.agenda
    beat := s.beat
    drawn := s.drawn
    trust := { Trust.reset with
      svnFused := s.trust.svnFused
      svnMirori := s.trust.svnMirori
      svnUsher := s.trust.svnUsher
      recovered := if s.trust.armed then [] else s.trust.recovered
      draws := s.trust.draws } }

/-- A failed stage (R439). -/
def bootFail (s : State) (stage code : Nat) : State :=
  { s with trust := { s.trust with fail := code, stage := stage, recov := true } }

/-- A measurement recorded (R441). -/
def measure (s : State) (k : Nat) (v : BitVec 256) : State :=
  { s with trust := { s.trust with meas := Store.put 0 s.trust.meas k v } }

/-- Stage 6 (R421, R438): the physical cores that fail their test are out of use, and every logical core of one is degraded
and moved as a repair moves it. -/
def bootCores (s : State) (bad : List Nat) : State :=
  let s := updHealth s fun h => { h with retired := bad }
  ((List.range 384).filter fun lc => !bad.isEmpty && bad.contains (bootCore lc)).foldl (fun s lc =>
    updHealth (updCore (moveOne s lc) lc fun c => { c with degraded := true }) fun h => { h with msixPf := h.msixPf ++ [1] }) s

/-- What measurement 1 covers: the ROM and the fuses (R438); and measurement 4: the map of the physical cores that passed and
the remap table. -/
def fuseConfig (s : State) (b : BootInput) : Bytes :=
  Config.rom ++ leBytes 2 s.trust.svnFused ++ leBytes 2 s.trust.svnMirori ++ leBytes 2 s.trust.svnUsher ++
    leBytes 8 b.revoked ++ b.keys.flatMap id
def coreConfig (s : State) (bad : List Nat) : Bytes :=
  leBytes 54 (((List.range 432).filter fun p => !bad.contains p).map fun p => 2 ^ p).sum ++
    (List.range 384).flatMap fun k => leBytes 2 (remapOf s k).toNat

/-- The alias key and its certificate, which the identity key signs (R440). -/
def aliasKey (s : State) : Bytes :=
  Config.mldsaKey (Config.sha3 ((List.range 5).flatMap fun k => leBytes 32 (Store.get 0 s.trust.meas (k + 1)).toNat))
def aliasOf (s : State) : Bytes :=
  let body := Config.aliasBody (Config.mldsaPublic (aliasKey s))
  body ++ Config.mldsaSign s.trust.identity body

/-- How many of the 432 physical cores pass. -/
def goodCores (bad : List Nat) : Nat := ((List.range 432).filter fun p => !bad.contains p).length

/-- The stages of a boot in order (R438). -/
def boot (s0 : State) (b : BootInput) : State :=
  let s := resetState s0
  let trustFw := bootImage s0 b 1
  let mirori := bootImage s0 b 2
  let usher := bootImage s0 b 3
  if b.fuseFault then bootFail s 1 1
  else
    let s := { s with trust := { s.trust with identity := Config.mldsaKey b.seed } }
    let s := measure s 1 (Config.sha3 (fuseConfig s b))
    let c := imageCode b 1 s.trust.svnFused trustFw
    if c != 0 then bootFail s 2 c
    else
      let s := measure s 2 (imageHash trustFw)
      let s := { s with trust := { s.trust with svnForce := imageSvn trustFw, svnFused := max s.trust.svnFused (imageSvn trustFw)
                                                ide := [(0, Config.linkKey)] } }
      if b.memoryFault then bootFail s 4 5
      else
        let c := imageCode b 2 s.trust.svnMirori mirori
        if c != 0 then bootFail s 5 c
        else
          let s := measure s 3 (imageHash mirori)
          if goodCores b.bad < 384 then bootFail s 6 6
          else
            let s := bootCores s b.bad
            let s := measure s 4 (Config.sha3 (coreConfig s b.bad))
            let c := imageCode b 3 s.trust.svnUsher usher
            if c != 0 then bootFail s 7 c
            else
              let s := measure s 5 (imageHash usher)
              { s with trust := { s.trust with stage := 7, ready := true, usherHash := imageHash usher, aliasCert := aliasOf s } }

/-! ## The trust block (R435) -/

/-- Whether some partition has a debug policy in force. -/
def debugAny (s : State) : Bool := s.parts.any fun p => p.2.policy.isSome

/-- A register of the trust block as the host reads it (R435); FWSTAGE and reserved offsets read 0. -/
def trustRead (s : State) (off : Nat) : BitVec 64 :=
  let t := s.trust
  if off == 0 then
    BitVec.ofNat 64 (t.fail * 2 ^ 16 + t.stage * 2 ^ 8 + (if t.recov then 4 else 0) + (if debugAny s then 2 else 0) +
      (if t.ready then 1 else 0))
  else if off == 8 then BitVec.ofNat 64 (t.svnForce * 2 ^ 16 + t.svnFused)
  else 0

/-- Measurement 6 brought up to date: 0 while no policy is in force (R441). -/
def measureDebug (s : State) : State :=
  measure s 6 (if debugAny s then
    Config.sha3 (s.parts.flatMap fun p => match p.2.policy with
      | some d => leBytes 2 p.1 ++ leBytes 1 (bit01 d.counters + 2 * bit01 d.trace + 4 * bit01 d.images) ++ leBytes 8 d.expiry
      | none => [])
    else 0)

/-- A partition's performance counters at 0 (R76). -/
def clearCounters (s : State) (pn : Nat) : State :=
  { s with counters := s.counters.filter fun c => c.1 / 256 % 16 != pn }

/-! ## Partitions (R383 to R385, R443, R445) -/

/-- Whether two ranges of numbers meet. -/
def meets (a n b m : Nat) : Bool := a < b + m && b < a + n

/-- A rectangle of the virtual grid, and the logical cores it covers. -/
def rectOk (r : Rect) : Bool :=
  1 ≤ r.dies && r.d0 + r.dies ≤ 8 && 1 ≤ r.clusters && r.c0 + r.clusters ≤ 6 && 1 ≤ r.cores && r.k0 + r.cores ≤ 8
def rectList (r : Rect) : List Nat :=
  (List.range r.dies).flatMap fun d => (List.range r.clusters).flatMap fun c => (List.range r.cores).map fun k =>
    lcoreAt (r.d0 + d) (r.c0 + c) (r.k0 + k)

/-- The core set that a request's rectangles give. -/
def requestCores (c : PartReq) : List Nat := (c.rects.flatMap rectList).eraseDups

/-- The rules of R383 and R384 a new partition must meet. -/
def requestOk (s : State) (c : PartReq) : Bool :=
  let live := s.parts.filter fun p => p.2.state != .free
  s.trust.ready && c.number < 16 && c.vf < 16 && (getPart s c.number).state == .free &&
    !(live.any fun p => p.2.vf == c.vf) &&
    c.rects.length ≤ 8 && c.rects.all rectOk && (requestCores c).contains c.usherCore && c.usherSlot < 4 &&
    1 ≤ c.windows.length && c.windows.length ≤ 8 &&
    c.windows.all (fun w => w.1 % 2 ^ 30 == 0 && w.2 % 2 ^ 30 == 0 && 2 ^ 30 ≤ w.2 && w.1 + w.2 ≤ 2 ^ 41) &&
    c.nameBase + c.nameCount ≤ 1024 &&
    live.all fun p =>
      (p.2.windows.all fun w => c.windows.all fun v => !meets w.1 w.2 v.1 v.2) &&
        !meets p.2.nameBase p.2.nameCount c.nameBase c.nameCount &&
        ((requestCores c).all (fun k => !p.2.cores.contains k) || (c.gang != 0 && c.gang == p.2.gang))

/-- The 64-byte data unit of a partition's window as it stands in main memory: encrypted under the partition's key pair, with
the unit's physical address as tweak (R384, R445). Every read and write of the model is of the plain bytes. -/
def storedUnit (s : State) (p : Partition) (unit : Nat) : Bytes :=
  let plain := readBytes s (64 * unit) 64
  match p.xts with
  | some k => Config.xts k.1 k.2 (64 * unit) plain
  | none => plain

/-- A partition created (R383, R389, R445): its key pair drawn, its entry filled, and the firmware's fields of its translation
block written. One that shares a gang begins switched out while another of the gang is in. -/
def createPartition (s : State) (c : PartReq) : State :=
  let out := c.gang != 0 && s.parts.any fun p => p.2.gang == c.gang && p.2.state != .free && !p.2.switchedOut
  let s := updPart s c.number fun _ =>
    { Partition.reset with
      state := .open_
      vf := c.vf
      rects := c.rects
      cores := (requestCores c)
      windows := c.windows
      xts := some (Config.drbg s.trust.draws, Config.drbg (s.trust.draws + 1))
      entryVa := c.entryVa
      gallery := c.galleryVa
      remapVa := c.remapVa
      ctxBase := c.ctxBase
      ctxSlot := c.ctxSlot
      usherCore := c.usherCore
      usherSlot := c.usherSlot
      usherVa := c.usherVa
      tvec := c.tvec
      nameBase := c.nameBase
      nameCount := c.nameCount
      gang := c.gang
      switchedOut := out }
  let b := blockBase (getPart s c.number)
  let s := writeLE s (b + 8) 2 c.jobKey
  let s := writeLE s (b + 10) 2 (c.accId % 1024)
  let s := writeLE s (b + 0x30) 32 c.gown
  { s with trust := { s.trust with draws := s.trust.draws + 2 } }

/-- The bytes of a partition's interface report (R441). -/
def reportOf (s : State) (pn : Nat) : Bytes :=
  let p := getPart s pn
  p.cores.flatMap (leBytes 2) ++ (p.windows.flatMap fun w => leBytes 8 w.1 ++ leBytes 8 w.2) ++
    leBytes 32 s.trust.usherHash.toNat ++ leBytes 32 (match p.debugHash with
      | some h => h.toNat
      | none => 0)

/-- DISSOLUTION (R385, R445): threads ended, names dropped, the keys destroyed, then windows zeroed, cores and windows returned (log 48). The
vectors its virtual function has raised stay raised. -/
def dissolve (s : State) (pn : Nat) : State :=
  let p := getPart s pn
  if p.state == .free then s
  else
    let s := ((allThreads s).filter fun t => t.status != .free && t.part == pn).foldl (fun s t => endThread s t .a true) s
    let s := (s.names.filter fun e => match e.2.object with
        | some o => o.1 == pn
        | none => p.nameBase ≤ e.1 && e.1 < p.nameBase + p.nameCount && e.2.forward.isSome).foldl (fun s e =>
      setSlot s e.1 ⟨nextGen e.2.gen, none, none, none⟩) s
    let s := updPart { s with trust := { s.trust with ide := Store.put [] s.trust.ide (p.vf + 1) [] } } pn fun p =>
      { p with xts := none }
    let s := p.windows.foldl (fun s w => zeroRange s w.1 w.2) s
    let s := updPart s pn fun p => { Partition.reset with msix := p.msix }
    let s := clearCounters { s with
      launches := s.launches.filter fun l => l.part != pn
      tlb := s.tlb.filter fun e => e.part != pn
      frames := s.frames.filter fun f => f.part != pn
      reqs := s.reqs.filter fun q => q.part != pn
      rstores := s.rstores.filter fun r => r.part != some pn
      rounds := s.rounds.filter fun r => r.part != pn
      flushed := s.flushed.filter fun e => !(p.windows.any fun w => w.1 ≤ e.1 && e.1 < w.1 + w.2) } pn
    measureDebug (measure s (16 + pn) 0)

/-- The partition bound to a virtual function dissolved, where its state is one of those given. -/
def dissolveVf (s : State) (vf : Nat) (ok : PartState → Bool) : State :=
  match partOf s vf with
  | some pn => if ok (getPart s pn).state then dissolve s pn else s
  | none => s

/-- An interface moved to RUN (R443): the usher starts, in a partition that is switched out at its next slice (R387). -/
def startUsher (s : State) (pn : Nat) : State :=
  let s := updPart s pn fun p => { p with state := .run }
  if (getPart s pn).switchedOut then s else beginUsher s pn

/-! ## SPDM (R442) -/

/-- The responder of a function, 0 the physical one. -/
def spdmOf (s : State) (fn : Nat) : Spdm := Store.get Spdm.reset s.trust.spdm fn
def updSpdm (s : State) (fn : Nat) (f : Spdm → Spdm) : State :=
  { s with trust := { s.trust with spdm := Store.put Spdm.reset s.trust.spdm fn (f (spdmOf s fn)) } }

/-- An answer given. -/
def answer (s : State) (fn : Nat) (bs : Bytes) : State := updSpdm s fn fun p => { p with answers := p.answers ++ [bs] }
/-- ERROR answers: UnsupportedRequest and InvalidRequest (R442). -/
def answerUnsupported (s : State) (fn : Nat) : State := answer s fn (Config.spdmAnswer 1000 [])
def answerInvalid (s : State) (fn : Nat) : State := answer s fn (Config.spdmAnswer 1001 [])

/-- The session a message names. -/
def sessionOf (s : State) (fn : Nat) (m : SpdmMsg) : Option Session :=
  match m.session with
  | some k => (spdmOf s fn).sessions.find? fun e => e.id == k
  | none => none

/-- A message's plain text: as it stands outside a session, opened by the session's key inside one. -/
def plain (s : State) (fn : Nat) (m : SpdmMsg) : Option Bytes :=
  match m.session with
  | none => some m.payload
  | some _ => match sessionOf s fn m with
    | some e => Config.gcmOpen e.secret m.payload
    | none => none

/-- A request served: refused in recovery unless `always`, and where its reserved fields are not 0; then its effect and
its answer. A record that does not open is dropped. -/
def spdm (s : State) (fn : Nat) (m : SpdmMsg) (code : Nat) (always : Bool) (f : State → Bytes → State × Bytes) : State :=
  match plain s fn m with
  | none => s
  | some b =>
    if s.trust.recov && !always then answerUnsupported s fn
    else if Config.spdmReserved code b then answerInvalid s fn
    else
      let q := f s b
      answer q.1 fn (Config.spdmAnswer code b ++ q.2)

/-- A request without a state of its own. -/
def spdmPlain (s : State) (fn : Nat) (m : SpdmMsg) (code : Nat) (data : State → Bytes → Bytes) : State :=
  spdm s fn m code false fun s b => (s, data s b)

/-- The next value of the DRBG. -/
def draw (s : State) : State × BitVec 256 :=
  ({ s with trust := { s.trust with draws := s.trust.draws + 1 } }, Config.drbg s.trust.draws)

/-- KEY_EXCHANGE (R442): a session where fewer than four are open; it is established by FINISH. -/
def keyExchange (s : State) (fn : Nat) (b : Bytes) : State × Bytes :=
  let p := spdmOf s fn
  if 4 ≤ p.sessions.length then (s, [])
  else
    let e : Session := ⟨p.nextId, Config.sessionSecret s.trust.draws b, false⟩
    (updSpdm (draw s).1 fn fun p => { p with sessions := p.sessions ++ [e], nextId := p.nextId + 1 },
      leBytes 2 p.nextId ++ Config.mldsaSign s.trust.identity b)

/-- A session changed, and one closed. -/
def updSession (s : State) (fn : Nat) (m : SpdmMsg) (f : Session → Session) : State :=
  match m.session with
  | some k => updSpdm s fn fun p => { p with sessions := p.sessions.map fun e => if e.id == k then f e else e }
  | none => s
def endSession (s : State) (fn : Nat) (m : SpdmMsg) : State :=
  match m.session with
  | some k => updSpdm s fn fun p => { p with sessions := p.sessions.filter fun e => e.id != k }
  | none => s

/-- Whether a message comes inside an established session of its function. -/
def inSession (s : State) (fn : Nat) (m : SpdmMsg) : Bool :=
  match sessionOf s fn m with
  | some e => e.established && (plain s fn m).isSome
  | none => false

/-- A request on a partition's interface inside its function's session; one with a nonzero reserved field draws
InvalidRequest (R442). -/
def onInterface (s : State) (vf : Nat) (m : SpdmMsg) (code : Nat) (f : State → Nat → State) : State :=
  match partOf s vf with
  | some pn =>
    if inSession s (vf + 1) m && !s.trust.recov then
      if Config.spdmReserved code ((plain s (vf + 1) m).getD []) then answerInvalid s (vf + 1) else f s pn
    else answerUnsupported s (vf + 1)
  | none => answerUnsupported s (vf + 1)

/-- A request that the F8 does not support (R442); a record that does not open is dropped. -/
def otherRequest (s : State) (fn : Nat) (m : SpdmMsg) : State :=
  if (plain s fn m).isSome then answerUnsupported s fn else s

/-- The key of a virtual function's selective IDE stream set from the secret of its session (R444). -/
def startIde (s : State) (vf : Nat) (m : SpdmMsg) : State :=
  match sessionOf s (vf + 1) m with
  | some e => { s with trust := { s.trust with ide := Store.put [] s.trust.ide (vf + 1) (Config.ideKey e.secret) } }
  | none => s

/-- The certificate chain of a slot (R440): the identity's in slot 0, the alias certificate in slot 1. -/
def certChain (s : State) (slot : Nat) : Bytes :=
  if slot == 0 then Config.rootCert ++ Config.deviceCaCert ++ Config.deviceCert (Config.mldsaPublic s.trust.identity)
  else if slot == 1 then s.trust.aliasCert
  else []

/-! ## The debug policy (R446, R447) -/

/-- Whether a policy comes into force for a partition at a time given in seconds (R446, R447). -/
def policyOk (s : State) (pn : Nat) (b : Bytes) (now : Nat) : Bool :=
  let p := getPart s pn
  let key := (b.drop 0x30).take 1312
  (p.state == .locked || p.state == .run) && field b 0 2 == 1 && field b 2 1 == pn && field b 3 1 < 8 && field b 4 4 == 0 &&
    now < field b 8 8 && s.trust.nonce == some (BitVec.ofNat 256 (field b 0x10 32)) &&
    (match p.debugHash with
      | some h => h != 0 && Config.sha3 key == h
      | none => false) &&
    Config.mldsaVerify key (b.take 0x550) ((b.drop 0x550).take 2420)

/-- A policy put in force, replacing any earlier one: counters read from 0 (R76, R447). It ends as many seconds of the clock
counter (R54) from now as its expiry lies ahead. -/
def setPolicy (s : State) (pn : Nat) (b : Bytes) (now : Nat) : State :=
  let g := field b 3 1
  let s := updPart s pn fun p => { p with
    policy := some ⟨g % 2 == 1, g / 2 % 2 == 1, g / 4 % 2 == 1, field b 8 8,
      s.clock.toNat + 1500000000 * (field b 8 8 - now)⟩ }
  measureDebug (clearCounters s pn)

/-- DEVICE_RESET (R438). Power-on or device reset boots through the trust stages. -/
def execDeviceReset (b : BootInput) (s : State) : Out :=
  .next (boot s b)

/-- THERMAL_RESET (R434). A die at 115 °C resets the device as at power-on. -/
def execThermalReset (b : BootInput) (s : State) : Out :=
  .next (boot s b)

/-- PARTITION_CREATE (R383). Firmware creates a partition at the host's request. -/
def execPartitionCreate (c : PartReq) (s : State) : Out :=
  .next (if requestOk s c then createPartition s c else s)

/-- FUNCTION_LEVEL_RESET (R443). A VF reset puts its interface in ERROR and dissolves the partition. -/
def execFunctionLevelReset (vf : Nat) (s : State) : Out :=
  .next (dissolveVf s vf fun _ => true)

/-- CONFIG_WRITE_LOCKED (R443). A configuration write to a locked or running VF puts it in ERROR. -/
def execConfigWriteLocked (vf : Nat) (s : State) : Out :=
  .next (dissolveVf s vf fun st => st == .locked || st == .run)

/-- LOCK_INTERFACE_REQUEST (R443). Locks a VF's TDISP interface and its partition. -/
def execLockInterfaceRequest (vf : Nat) (m : SpdmMsg) (s : State) : Out :=
  .next (onInterface s vf m 14 fun s pn =>
    let p := getPart s pn
    if p.state == .open_ && p.debugHash.isSome then
      measure (updPart s pn fun p => { p with state := .locked }) (16 + pn) (Config.sha3 (reportOf s pn))
    else answerInvalid s (vf + 1))

/-- START_INTERFACE_REQUEST (R443). Moves a locked interface to RUN and starts the usher. -/
def execStartInterfaceRequest (vf : Nat) (m : SpdmMsg) (s : State) : Out :=
  .next (onInterface s vf m 15 fun s pn =>
    if (getPart s pn).state == .locked then startUsher (startIde s vf m) pn else answerInvalid s (vf + 1))

/-- STOP_INTERFACE_REQUEST (R443). Moves an interface to ERROR, dissolving its partition. -/
def execStopInterfaceRequest (vf : Nat) (m : SpdmMsg) (s : State) : Out :=
  .next (onInterface s vf m 16 fun s pn => dissolve s pn)

/-- GET_VERSION (R442). SPDM request for the supported versions. -/
def execGetVersion (fn : Nat) (m : SpdmMsg) (s : State) : Out :=
  .next (spdm s fn m 1 true fun s _ => (updSpdm s fn fun p => { p with stage := 1 }, []))

/-- GET_CAPABILITIES (R442). SPDM request for capabilities. -/
def execGetCapabilities (fn : Nat) (m : SpdmMsg) (s : State) : Out :=
  .next (spdm s fn m 2 true fun s _ => (updSpdm s fn fun p => { p with stage := max p.stage 2 }, []))

/-- NEGOTIATE_ALGORITHMS (R442). SPDM algorithm negotiation. -/
def execNegotiateAlgorithms (fn : Nat) (m : SpdmMsg) (s : State) : Out :=
  .next (spdm s fn m 3 false fun s _ => (updSpdm s fn fun p => { p with stage := max p.stage 3 }, []))

/-- GET_DIGESTS (R442). SPDM request for certificate chain digests. -/
def execGetDigests (fn : Nat) (m : SpdmMsg) (s : State) : Out :=
  .next (spdmPlain s fn m 4 fun s _ => [0, 1].flatMap fun k => leBytes 32 (Config.sha3 (certChain s k)).toNat)

/-- GET_CERTIFICATE (R440). SPDM request for a certificate chain slot. PRESUMED: the slot, the offset and the length stand
where SPDM's own request has them, at payload bytes 0, 2 and 4 (log 52). -/
def execGetCertificate (fn : Nat) (m : SpdmMsg) (s : State) : Out :=
  .next (spdmPlain s fn m 5 fun s b => ((certChain s (field b 0 1 % 16)).drop (field b 2 2)).take (field b 4 2))

/-- CHALLENGE (R442). SPDM challenge signed by the identity key. -/
def execChallenge (fn : Nat) (m : SpdmMsg) (s : State) : Out :=
  .next (spdmPlain s fn m 6 fun s b => Config.mldsaSign s.trust.identity b)

/-- GET_MEASUREMENTS (R441). SPDM request for measurements. -/
def execGetMeasurements (fn : Nat) (m : SpdmMsg) (s : State) : Out :=
  .next (spdmPlain s fn m 7 fun s _ => s.trust.meas.flatMap fun e => leBytes 1 e.1 ++ leBytes 32 e.2.toNat)

/-- KEY_EXCHANGE (R442). SPDM ML-KEM key exchange opening a session. -/
def execKeyExchange (fn : Nat) (m : SpdmMsg) (s : State) : Out :=
  .next (spdm s fn m 8 false fun s b => keyExchange s fn b)

/-- FINISH (R442). SPDM session finish. -/
def execFinish (fn : Nat) (m : SpdmMsg) (s : State) : Out :=
  .next (spdm s fn m 9 false fun s _ => (updSession s fn m fun e => { e with established := true }, []))

/-- KEY_UPDATE (R442). SPDM session key update. -/
def execKeyUpdate (fn : Nat) (m : SpdmMsg) (s : State) : Out :=
  .next (spdm s fn m 10 false fun s _ =>
    (updSession s fn m fun e => { e with secret := Config.sessionSecret 0 e.secret }, []))

/-- HEARTBEAT (R442). SPDM session heartbeat. -/
def execHeartbeat (fn : Nat) (m : SpdmMsg) (s : State) : Out :=
  .next (spdmPlain s fn m 11 fun _ _ => [])

/-- END_SESSION (R442). SPDM session end. -/
def execEndSession (fn : Nat) (m : SpdmMsg) (s : State) : Out :=
  .next (spdm s fn m 12 false fun s _ => (endSession s fn m, []))

/-- VENDOR_CHALLENGE (R447). A vendor challenge returns and replaces the policy nonce. -/
def execVendorChallenge (fn : Nat) (m : SpdmMsg) (s : State) : Out :=
  .next (spdm s fn m 13 false fun s _ =>
    let (s, v) := draw s
    ({ s with trust := { s.trust with nonce := some v } }, leBytes 32 v.toNat))

/-- DEBUG_KEY_HASH_BIND (R443). A vendor message binds the partition's debug-key hash. -/
def execDebugKeyHashBind (vf : Nat) (m : SpdmMsg) (hash : BitVec 256) (s : State) : Out :=
  .next (onInterface s vf m 17 fun s pn =>
    if (getPart s pn).state == .open_ then updPart s pn fun p => { p with debugHash := some hash }
    else answerInvalid s (vf + 1))

/-- DEBUG_POLICY (R447). A signed debug policy is checked and comes into force. -/
def execDebugPolicy (vf : Nat) (m : SpdmMsg) (now : BitVec 64) (s : State) : Out :=
  .next (onInterface s vf m 18 fun s pn =>
    match plain s (vf + 1) m with
    | some b => if policyOk s pn b now.toNat then setPolicy s pn b now.toNat else answerInvalid s (vf + 1)
    | none => s)

/-- Whether a partition's debug policy has reached its expiry (R447). -/
def policyOver (s : State) (p : Partition) : Bool :=
  match p.policy with
  | some d => decide (d.ends ≤ s.clock.toNat)
  | none => false

/-- DEBUG_POLICY_EXPIRY (R447). A debug policy's grants end at expiry. -/
def execDebugPolicyExpiry (p : Nat) (s : State) : Out :=
  .next (if policyOver s (getPart s p) then measureDebug (clearCounters (updPart s p fun u => { u with policy := none }) p)
    else s)

/-- RECOVERY_IMAGE_WRITE (R439). A vendor message in recovery accepts a new image into flash. -/
def execRecoveryImageWrite (image : Bytes) (s : State) : Out :=
  .next (if s.trust.recov then { s with trust := { s.trust with
      recovered := (s.trust.recovered.filter fun i => field i 4 2 != field image 4 2) ++ [image] } } else s)

end Sys2Proof.Machine
end

