-- ==== Sys2Proof/Machine/VecArith.lean ====
section
/-! DEFINITION. Vector arithmetic: integer, bitwise and floating-point lanes, functions and random numbers (06_vector, R152 to
R156, R175; 01_numbers). -/

namespace Sys2Proof.Machine

/-! ## Shared operations -/

/-- d[i] := f(w, a[i], b[i]) at the vtype width. -/
def lanes2 (word : Word) (d a b : Reg) (m : BitVec 1) (f : Nat → Nat → Nat → Nat) : M Unit := do
  elementwise word d [a, b] m fun s =>
    let w := vwidth s.cur.vtype.toNat
    let x := vreg s a
    let y := vreg s b
    fun i => (f w (elem x w i) (elem y w i) % 2 ^ w, 0)

/-- An element as the vtype reads it, signed or unsigned. -/
def valueOf (vt w x : Nat) : Int := if vsigned vt then signedOf w x else (x : Int)

/-- The smallest and the largest value of an integer vtype. -/
def vlow (vt w : Nat) : Int := if vsigned vt then -(2 ^ (w - 1) : Nat) else 0
def vhigh (vt w : Nat) : Int := if vsigned vt then (2 ^ (w - 1) : Nat) - 1 else (2 ^ w : Nat) - 1

/-- An integer brought into the range of the vtype (R152). -/
def vclamp (vt w : Nat) (v : Int) : Int := max (vlow vt w) (min (vhigh vt w) v)

/-- A VINT function: the exact result of the operands' values, coded modulo 2^w (R152). -/
def vint (word : Word) (d a b : Reg) (m : BitVec 1) (f : Nat → Nat → Int → Int → Int) : M Unit := do
  classIs word isI
  let vt ← see fun s => s.cur.vtype.toNat
  lanes2 word d a b m fun w x y => codeOf w (f vt w (valueOf vt w x) (valueOf vt w y))

/-- A VFP function of a and b (R154). -/
def vfp (word : Word) (d a b : Reg) (m : BitVec 1) (f : Fmt → Rnd → Nat → Nat → FRes) : M Unit := do
  classIs word isF
  elementwise word d [a, b] m fun s =>
    let t := vfmt s.cur.vtype.toNat
    let w := vwidth s.cur.vtype.toNat
    let x := vreg s a
    let y := vreg s b
    fun i => f t (elemRnd s i) (elem x w i) (elem y w i)

/-- VFMA, and VFMS when `sub`: d := Round(d ± a × b) (R154). -/
def vfma (word : Word) (d a b : Reg) (m : BitVec 1) (sub : Bool) : M Unit := do
  classIs word isF
  elementwise word d [d, a, b] m fun s =>
    let t := vfmt s.cur.vtype.toNat
    let w := vwidth s.cur.vtype.toNat
    let z := vreg s d
    let x := vreg s a
    let y := vreg s b
    fun i => fFma t (elemRnd s i) sub (elem z w i) (elem x w i) (elem y w i)

/-- A VFUN function of a (R155), for the classes of R148. -/
def vfun (word : Word) (d a : Reg) (m : BitVec 1) (cls : Nat → Bool) (f : Fmt → Rnd → Nat → FRes) : M Unit := do
  classIs word cls
  elementwise word d [a] m fun s =>
    let t := vfmt s.cur.vtype.toNat
    let w := vwidth s.cur.vtype.toNat
    let x := vreg s a
    fun i => f t (elemRnd s i) (elem x w i)

/-- The class mask of a code (R156): bit 10 for a NaN with the marker of R35, in FP32 and FP64. -/
def fclass (t : Fmt) (c : Nat) : Nat :=
  match unpack t c with
  | .nan s =>
    (if s then 256 else 512) +
      (if (t == fp32 && c / 2 ^ 21 % 2 == 1) || (t == fp64 && c / 2 ^ 50 % 2 == 1) then 1024 else 0)
  | .inf n => if n then 1 else 128
  | .fin n mag _ =>
    if mag == 0 then (if n then 8 else 16)
    else if mag < 2 ^ t.f then (if n then 4 else 32)
    else if n then 2 else 64

/-- A VRND function of x = NMX(seed, sbase + i) (R175). -/
def vrnd (word : Word) (d : Reg) (m : BitVec 1) (cls : Nat → Bool) (f : Nat → Nat) : M Unit := do
  classIs word cls
  elementwise word d [] m fun s i => (f (nmx s.cur.seed (s.cur.sbase + BitVec.ofNat 64 i)).toNat, 0)

/-! ## The instructions -/

/-- VADD (R152). Vector integer add modulo 2^w. -/
def execVadd (d : Reg) (a : Reg) (b : Reg) (m : BitVec 1) (s : State) : Out :=
  issueN .vadd (fmtR 0x50#7 d a b (m ++ 0#3)) (vint (fmtR 0x50#7 d a b (m ++ 0#3)) d a b m (fun _ _ x y => x + y)) s

/-- VSUB (R152). Vector integer subtract modulo 2^w. -/
def execVsub (d : Reg) (a : Reg) (b : Reg) (m : BitVec 1) (s : State) : Out :=
  issueN .vsub (fmtR 0x50#7 d a b (m ++ 1#3)) (vint (fmtR 0x50#7 d a b (m ++ 1#3)) d a b m (fun _ _ x y => x - y)) s

/-- VMUL (R152). Vector integer multiply, low w bits. -/
def execVmul (d : Reg) (a : Reg) (b : Reg) (m : BitVec 1) (s : State) : Out :=
  issueN .vmul (fmtR 0x50#7 d a b (m ++ 2#3)) (vint (fmtR 0x50#7 d a b (m ++ 2#3)) d a b m (fun _ _ x y => x * y)) s

/-- VMULH (R152). Vector integer multiply, high w bits. -/
def execVmulh (d : Reg) (a : Reg) (b : Reg) (m : BitVec 1) (s : State) : Out :=
  issueN .vmulh (fmtR 0x50#7 d a b (m ++ 3#3)) (vint (fmtR 0x50#7 d a b (m ++ 3#3)) d a b m (fun _ w x y => x * y / (2 ^ w : Nat))) s

/-- VMIN (R152). Vector integer minimum. -/
def execVmin (d : Reg) (a : Reg) (b : Reg) (m : BitVec 1) (s : State) : Out :=
  issueN .vmin (fmtR 0x50#7 d a b (m ++ 4#3)) (vint (fmtR 0x50#7 d a b (m ++ 4#3)) d a b m (fun _ _ x y => min x y)) s

/-- VMAX (R152). Vector integer maximum. -/
def execVmax (d : Reg) (a : Reg) (b : Reg) (m : BitVec 1) (s : State) : Out :=
  issueN .vmax (fmtR 0x50#7 d a b (m ++ 5#3)) (vint (fmtR 0x50#7 d a b (m ++ 5#3)) d a b m (fun _ _ x y => max x y)) s

/-- VADDS (R152). Vector saturating add. -/
def execVadds (d : Reg) (a : Reg) (b : Reg) (m : BitVec 1) (s : State) : Out :=
  issueN .vadds (fmtR 0x50#7 d a b (m ++ 6#3)) (vint (fmtR 0x50#7 d a b (m ++ 6#3)) d a b m (fun vt w x y => vclamp vt w (x + y))) s

/-- VSUBS (R152). Vector saturating subtract. -/
def execVsubs (d : Reg) (a : Reg) (b : Reg) (m : BitVec 1) (s : State) : Out :=
  issueN .vsubs (fmtR 0x50#7 d a b (m ++ 7#3)) (vint (fmtR 0x50#7 d a b (m ++ 7#3)) d a b m (fun vt w x y => vclamp vt w (x - y))) s

/-- VAND (R153). Vector bitwise AND. -/
def execVand (d : Reg) (a : Reg) (b : Reg) (m : BitVec 1) (s : State) : Out :=
  issueN .vand (fmtR 0x51#7 d a b (m ++ 0#3)) (lanes2 (fmtR 0x51#7 d a b (m ++ 0#3)) d a b m (fun _ x y => x &&& y)) s

/-- VOR (R153). Vector bitwise OR. -/
def execVor (d : Reg) (a : Reg) (b : Reg) (m : BitVec 1) (s : State) : Out :=
  issueN .vor (fmtR 0x51#7 d a b (m ++ 1#3)) (lanes2 (fmtR 0x51#7 d a b (m ++ 1#3)) d a b m (fun _ x y => x ||| y)) s

/-- VXOR (R153). Vector bitwise XOR. -/
def execVxor (d : Reg) (a : Reg) (b : Reg) (m : BitVec 1) (s : State) : Out :=
  issueN .vxor (fmtR 0x51#7 d a b (m ++ 2#3)) (lanes2 (fmtR 0x51#7 d a b (m ++ 2#3)) d a b m (fun _ x y => x ^^^ y)) s

/-- VSHL (R153). Vector shift left. -/
def execVshl (d : Reg) (a : Reg) (b : Reg) (m : BitVec 1) (s : State) : Out :=
  issueN .vshl (fmtR 0x51#7 d a b (m ++ 3#3)) (lanes2 (fmtR 0x51#7 d a b (m ++ 3#3)) d a b m (fun w x y => x * 2 ^ (y % w))) s

/-- VSHR (R153). Vector logical shift right. -/
def execVshr (d : Reg) (a : Reg) (b : Reg) (m : BitVec 1) (s : State) : Out :=
  issueN .vshr (fmtR 0x51#7 d a b (m ++ 4#3)) (lanes2 (fmtR 0x51#7 d a b (m ++ 4#3)) d a b m (fun w x y => x / 2 ^ (y % w))) s

/-- VSRA (R153). Vector arithmetic shift right. -/
def execVsra (d : Reg) (a : Reg) (b : Reg) (m : BitVec 1) (s : State) : Out :=
  issueN .vsra (fmtR 0x51#7 d a b (m ++ 5#3)) (lanes2 (fmtR 0x51#7 d a b (m ++ 5#3)) d a b m (fun w x y => codeOf w (signedOf w x / (2 ^ (y % w) : Nat)))) s

/-- VANDN (R153). Vector a AND NOT b. -/
def execVandn (d : Reg) (a : Reg) (b : Reg) (m : BitVec 1) (s : State) : Out :=
  issueN .vandn (fmtR 0x51#7 d a b (m ++ 6#3)) (lanes2 (fmtR 0x51#7 d a b (m ++ 6#3)) d a b m (fun w x y => x &&& (2 ^ w - 1 - y))) s

/-- VFADD (R154). Vector floating add with one rounding. -/
def execVfadd (d : Reg) (a : Reg) (b : Reg) (m : BitVec 1) (s : State) : Out :=
  issueN .vfadd (fmtR 0x52#7 d a b (m ++ 0#3)) (vfp (fmtR 0x52#7 d a b (m ++ 0#3)) d a b m fAdd) s

/-- VFSUB (R154). Vector floating subtract. -/
def execVfsub (d : Reg) (a : Reg) (b : Reg) (m : BitVec 1) (s : State) : Out :=
  issueN .vfsub (fmtR 0x52#7 d a b (m ++ 1#3)) (vfp (fmtR 0x52#7 d a b (m ++ 1#3)) d a b m fSub) s

/-- VFMUL (R154). Vector floating multiply. -/
def execVfmul (d : Reg) (a : Reg) (b : Reg) (m : BitVec 1) (s : State) : Out :=
  issueN .vfmul (fmtR 0x52#7 d a b (m ++ 2#3)) (vfp (fmtR 0x52#7 d a b (m ++ 2#3)) d a b m fMul) s

/-- VFDIV (R154). Vector floating divide. -/
def execVfdiv (d : Reg) (a : Reg) (b : Reg) (m : BitVec 1) (s : State) : Out :=
  issueN .vfdiv (fmtR 0x52#7 d a b (m ++ 3#3)) (vfp (fmtR 0x52#7 d a b (m ++ 3#3)) d a b m fDiv) s

/-- VFMIN (R154). Vector minimumNumber. -/
def execVfmin (d : Reg) (a : Reg) (b : Reg) (m : BitVec 1) (s : State) : Out :=
  issueN .vfmin (fmtR 0x52#7 d a b (m ++ 4#3)) (vfp (fmtR 0x52#7 d a b (m ++ 4#3)) d a b m (fun t _ x y => fMinMax t false x y)) s

/-- VFMAX (R154). Vector maximumNumber. -/
def execVfmax (d : Reg) (a : Reg) (b : Reg) (m : BitVec 1) (s : State) : Out :=
  issueN .vfmax (fmtR 0x52#7 d a b (m ++ 5#3)) (vfp (fmtR 0x52#7 d a b (m ++ 5#3)) d a b m (fun t _ x y => fMinMax t true x y)) s

/-- VFMA (R154). Vector fused d + a x b. -/
def execVfma (d : Reg) (a : Reg) (b : Reg) (m : BitVec 1) (s : State) : Out :=
  issueN .vfma (fmtR 0x52#7 d a b (m ++ 6#3)) (vfma (fmtR 0x52#7 d a b (m ++ 6#3)) d a b m false) s

/-- VFMS (R154). Vector fused d - a x b. -/
def execVfms (d : Reg) (a : Reg) (b : Reg) (m : BitVec 1) (s : State) : Out :=
  issueN .vfms (fmtR 0x52#7 d a b (m ++ 7#3)) (vfma (fmtR 0x52#7 d a b (m ++ 7#3)) d a b m true) s

/-- VFSQRT (R155). Vector square root. -/
def execVfsqrt (d : Reg) (a : Reg) (m : BitVec 1) (s : State) : Out :=
  issueN .vfsqrt (fmtR 0x53#7 d a 0#7 (m ++ 0#3)) (vfun (fmtR 0x53#7 d a 0#7 (m ++ 0#3)) d a m isF fSqrt) s

/-- VFRSQ (R155). Vector reciprocal square root. -/
def execVfrsq (d : Reg) (a : Reg) (m : BitVec 1) (s : State) : Out :=
  issueN .vfrsq (fmtR 0x53#7 d a 0#7 (m ++ 1#3)) (vfun (fmtR 0x53#7 d a 0#7 (m ++ 1#3)) d a m isFp32 fRsqrt) s

/-- VLOG2 (R39). Vector base-2 logarithm, correctly rounded. -/
def execVlog2 (d : Reg) (a : Reg) (m : BitVec 1) (s : State) : Out :=
  issueN .vlog2 (fmtR 0x53#7 d a 0#7 (m ++ 2#3)) (vfun (fmtR 0x53#7 d a 0#7 (m ++ 2#3)) d a m isFp32 (fun t r x => fLog2 t r x)) s

/-- VEXP2 (R39). Vector power of two, correctly rounded. -/
def execVexp2 (d : Reg) (a : Reg) (m : BitVec 1) (s : State) : Out :=
  issueN .vexp2 (fmtR 0x53#7 d a 0#7 (m ++ 3#3)) (vfun (fmtR 0x53#7 d a 0#7 (m ++ 3#3)) d a m isFp32 (fun t r x => fExp2 t r x)) s

/-- VFABS (R155). Clears each element's sign bit. -/
def execVfabs (d : Reg) (a : Reg) (m : BitVec 1) (s : State) : Out :=
  issueN .vfabs (fmtR 0x53#7 d a 0#7 (m ++ 4#3)) (vfun (fmtR 0x53#7 d a 0#7 (m ++ 4#3)) d a m (fun v => isF v || isF8 v) (fun t _ x => (x % 2 ^ (t.width - 1), 0))) s

/-- VFNEG (R155). Inverts each element's sign bit. -/
def execVfneg (d : Reg) (a : Reg) (m : BitVec 1) (s : State) : Out :=
  issueN .vfneg (fmtR 0x53#7 d a 0#7 (m ++ 5#3)) (vfun (fmtR 0x53#7 d a 0#7 (m ++ 5#3)) d a m (fun v => isF v || isF8 v) (fun t _ x => (flipSign t x, 0))) s

/-- VFCLASS (R156). Writes each element's class mask. -/
def execVfclass (d : Reg) (a : Reg) (m : BitVec 1) (s : State) : Out :=
  issueN .vfclass (fmtR 0x53#7 d a 0#7 (m ++ 6#3)) (vfun (fmtR 0x53#7 d a 0#7 (m ++ 6#3)) d a m isF (fun t _ x => (fclass t x, 0))) s

/-- VFRINT (R155). Rounds each element to an integral value. -/
def execVfrint (d : Reg) (a : Reg) (m : BitVec 1) (s : State) : Out :=
  issueN .vfrint (fmtR 0x53#7 d a 0#7 (m ++ 7#3)) (vfun (fmtR 0x53#7 d a 0#7 (m ++ 7#3)) d a m isF fRint) s

/-- VRNDL (R175). Writes the low 32 bits of the mixer per element. -/
def execVrndl (d : Reg) (m : BitVec 1) (s : State) : Out :=
  issueN .vrndl (fmtR 0x61#7 d 0#7 0#7 (m ++ 0#3)) (vrnd (fmtR 0x61#7 d 0#7 0#7 (m ++ 0#3)) d m (fun v => v == 4 || v == 5 || v == 10) (fun x => x % 2 ^ 32)) s

/-- VRNDH (R175). Writes the high 32 bits of the mixer per element. -/
def execVrndh (d : Reg) (m : BitVec 1) (s : State) : Out :=
  issueN .vrndh (fmtR 0x61#7 d 0#7 0#7 (m ++ 1#3)) (vrnd (fmtR 0x61#7 d 0#7 0#7 (m ++ 1#3)) d m (fun v => v == 4 || v == 5 || v == 10) (fun x => x / 2 ^ 32)) s

/-- VRNDU (R175). Writes a uniform FP32 per element. -/
def execVrndu (d : Reg) (m : BitVec 1) (s : State) : Out :=
  issueN .vrndu (fmtR 0x61#7 d 0#7 0#7 (m ++ 2#3)) (vrnd (fmtR 0x61#7 d 0#7 0#7 (m ++ 2#3)) d m isFp32 (fun x => (roundMag fp32 rne false (2 * (x / 2 ^ 41) + 1) (-24) false).1)) s

end Sys2Proof.Machine
end

