-- ==== Sys2Proof/Machine/VecPred.lean ====
section
/-! DEFINITION. Vector comparisons and predicates (06_vector, R157 to R160). -/

namespace Sys2Proof.Machine

/-! ## Shared operations -/

/-- The relation of a condition, with the exceptions it raises (R157): integers by vtype, floats by `fCmp`. -/
def vrel (vt w c x y : Nat) : Bool × Nat :=
  if isI vt then
    let p := if vsigned vt then signedOf w x else (x : Int)
    let q := if vsigned vt then signedOf w y else (y : Int)
    (match c with
      | 0 => p == q
      | 1 => p != q
      | 2 => decide (p < q)
      | 3 => decide (p ≤ q)
      | 4 => decide (q < p)
      | _ => decide (q ≤ p), 0)
  else fCmp (vfmt vt) c x y

/-- A comparison of a register with a value for each element, into a predicate (R157): bits not computed are 0, and
faults are recorded whatever the predicate. It is elementwise (R151): a resumed one writes from its start index. -/
def compare (word : Word) (p : Reg) (srcs : List Reg) (a : Reg) (m : BitVec 1) (c : BitVec 3)
    (rhs : M (State → Nat → Nat)) : M Unit := do
  classIs word fun v => isI v || isF v || isF8 v
  roomInFlight
  let r ← rhs
  let s0 ← get
  let ps := srcs.map fun q => phys s0.th q 0
  sources ps
  let s ← get
  let v := landed s
  let vt := s.cur.vtype.toNat
  let w := vwidth vt
  let n := vcount s w
  let start := s.th.startIdx.getD 0
  let x := vreg v a
  let y := r v
  let rel : List (Bool × Nat) :=
    (List.range n).map fun i =>
      if start ≤ i && present v m i then vrel vt w c.toNat (elem x w i) (y i) else (false, 0)
  let sh : Shape :=
    { whole := false, n := n, wide := w, width := 1, srcs := ps.map fun q => (q, w), preds := governs s.th m
      mask := false, tree := false, fence := false, outs := [] }
  fly false word sh
    { Effect.none with
      pw := [⟨p.toNat, bitsBetween 2048 start 2048, maskOf n fun i => (atD (false, 0) i rel).1⟩]
      faults := maskOf n fun i => faulty s (0, (atD (false, 0) i rel).2) } (popsOf s0 ps)

/-- A whole-register instruction that writes a predicate (R158, R159): bits 0 to vl − 1 as given, the rest cleared. -/
def predFrom (word : Word) (p : Reg) (preds : List Nat) (mask : Bool) (f : State → Mask) : M Unit := do
  roomInFlight
  let s ← get
  let v := landed s
  fly false word { wholeShape s [] preds [] with mask := mask }
    { Effect.none with pw := [⟨p.toNat, BitVec.allOnes 2048, f v &&& lowMask s.cur.vl.toNat⟩] } []

/-- A function of the predicates that the fields a and b name (R158). -/
def predOp (word : Word) (p a b : Reg) (f : (Nat → Mask) → Mask) : M Unit :=
  predFrom word p [a.toNat, b.toNat] false fun s => f (predVal s.th)

/-- A scalar from bits [vl−1:0] of a predicate (R160). -/
def predBits (word : Word) (d a : Reg) (f : Nat → Dword) : M Unit :=
  scalarFrom word d [] [a.toNat] false fun s =>
    (f (predVal s.th a.toNat &&& lowMask s.cur.vl.toNat).toNat, Effect.none)

/-- The lowest set bit of a nonzero number among `n` positions from `k`. -/
def lowestBit (v : Nat) : Nat → Nat → Nat
  | 0, k => k
  | n + 1, k => if v.testBit k then k else lowestBit v n (k + 1)

/-- The number of ones among the low `n` bits. -/
def onesBelow (v : Nat) : Nat → Nat
  | 0 => 0
  | n + 1 => (if v.testBit n then 1 else 0) + onesBelow v n

/-! ## The instructions -/

/-- VCMP (R157). Compares two vectors elementwise into a predicate. -/
def execVcmp (d : Reg) (a : Reg) (b : Reg) (m : BitVec 1) (c : BitVec 3) (s : State) : Out :=
  issueN .vcmp (fmtR 0x54#7 d a b (m ++ c)) (compare (fmtR 0x54#7 d a b (m ++ c)) d [a, b] a m c (pure fun s =>
    let y := vreg s b
    fun i => elem y (vwidth s.cur.vtype.toNat) i)) s

/-- VCMPX (R157). Compares a vector with a scalar into a predicate. -/
def execVcmpx (d : Reg) (a : Reg) (b : Reg) (m : BitVec 1) (c : BitVec 3) (s : State) : Out :=
  issueN .vcmpx (fmtR 0x55#7 d a b (m ++ c)) (compare (fmtR 0x55#7 d a b (m ++ c)) d [a] a m c (do
    let v ← rdKept b
    pure fun s _ => v.toNat % 2 ^ vwidth s.cur.vtype.toNat)) s

/-- PAND (R158). Predicate AND. -/
def execPand (d : Reg) (a : Reg) (b : Reg) (s : State) : Out :=
  issueN .pand (fmtR 0x56#7 d a b 0#4) (predOp (fmtR 0x56#7 d a b 0#4) d a b (fun p => p a.toNat &&& p b.toNat)) s

/-- POR (R158). Predicate OR. -/
def execPor (d : Reg) (a : Reg) (b : Reg) (s : State) : Out :=
  issueN .por (fmtR 0x56#7 d a b 1#4) (predOp (fmtR 0x56#7 d a b 1#4) d a b (fun p => p a.toNat ||| p b.toNat)) s

/-- PXOR (R158). Predicate XOR. -/
def execPxor (d : Reg) (a : Reg) (b : Reg) (s : State) : Out :=
  issueN .pxor (fmtR 0x56#7 d a b 2#4) (predOp (fmtR 0x56#7 d a b 2#4) d a b (fun p => p a.toNat ^^^ p b.toNat)) s

/-- PANDN (R158). Predicate a AND NOT b. -/
def execPandn (d : Reg) (a : Reg) (b : Reg) (s : State) : Out :=
  issueN .pandn (fmtR 0x56#7 d a b 3#4) (predOp (fmtR 0x56#7 d a b 3#4) d a b (fun p => p a.toNat &&& ~~~(p b.toNat))) s

/-- PNOT (R158). Predicate NOT. -/
def execPnot (d : Reg) (a : Reg) (s : State) : Out :=
  issueN .pnot (fmtR 0x56#7 d a 0#7 4#4) (predOp (fmtR 0x56#7 d a 0#7 4#4) d a a (fun p => ~~~(p a.toNat))) s

/-- PMOV (R158). Predicate copy. -/
def execPmov (d : Reg) (a : Reg) (s : State) : Out :=
  issueN .pmov (fmtR 0x56#7 d a 0#7 5#4) (predOp (fmtR 0x56#7 d a 0#7 5#4) d a a (fun p => p a.toNat)) s

/-- PSET (R158). Sets predicate bits below vl. -/
def execPset (d : Reg) (s : State) : Out :=
  issueN .pset (fmtR 0x56#7 d 0#7 0#7 6#4) (predOp (fmtR 0x56#7 d 0#7 0#7 6#4) d 0 0 (fun _ => BitVec.allOnes 2048)) s

/-- PCLR (R158). Clears all predicate bits. -/
def execPclr (d : Reg) (s : State) : Out :=
  issueN .pclr (fmtR 0x56#7 d 0#7 0#7 7#4) (predOp (fmtR 0x56#7 d 0#7 0#7 7#4) d 0 0 (fun _ => 0)) s

/-- PCNT (R159). Sets the first min(sa, vl) predicate bits. -/
def execPcnt (d : Reg) (a : Reg) (s : State) : Out :=
  issueN .pcnt (fmtR 0x57#7 d a 0#7 0#4) (do
    let x ← rdKept a
    predFrom (fmtR 0x57#7 d a 0#7 0#4) d [] false fun _ => lowMask x.toNat) s

/-- PCNTT (R159). Sets the first min(sa, vl, ftrim) predicate bits. -/
def execPcntt (d : Reg) (a : Reg) (s : State) : Out :=
  issueN .pcntt (fmtR 0x57#7 d a 0#7 1#4) (do
    let x ← rdKept a
    let f ← see fun s => s.cur.ftrim.toNat
    predFrom (fmtR 0x57#7 d a 0#7 1#4) d [] false fun _ => lowMask (min x.toNat f)) s

/-- PPOP (R160). Counts the set predicate bits below vl. -/
def execPpop (d : Reg) (a : Reg) (s : State) : Out :=
  issueN .ppop (fmtR 0x58#7 d a 0#7 0#4) (predBits (fmtR 0x58#7 d a 0#7 0#4) d a fun v => BitVec.ofNat 64 (onesBelow v 2048)) s

/-- PFIRST (R160). Writes the lowest set predicate index. -/
def execPfirst (d : Reg) (a : Reg) (s : State) : Out :=
  issueN .pfirst (fmtR 0x58#7 d a 0#7 1#4) (predBits (fmtR 0x58#7 d a 0#7 1#4) d a fun v => (if v == 0 then BitVec.allOnes 64 else BitVec.ofNat 64 (lowestBit v 2048 0))) s

/-- PLAST (R160). Writes the highest set predicate index. -/
def execPlast (d : Reg) (a : Reg) (s : State) : Out :=
  issueN .plast (fmtR 0x58#7 d a 0#7 2#4) (predBits (fmtR 0x58#7 d a 0#7 2#4) d a fun v => (if v == 0 then BitVec.allOnes 64 else BitVec.ofNat 64 (bitLen v - 1))) s

end Sys2Proof.Machine
end

