-- ==== Sys2Proof/Machine/VecMove.lean ====
section
/-! DEFINITION. Permutes, moves, the fault mask and stream bindings (06_vector, R166 to R168, R176 to R178). -/

namespace Sys2Proof.Machine

/-! ## Permutes (R166) -/

/-- A permute that gives each destination element below vl: masked-off ones keep their value. -/
def permute (word : Word) (d : Reg) (srcs : List Reg) (m : BitVec 1) (val : State → Nat → Nat → Nat → Nat) :
    M Unit := do
  let t ← see fun s => s.th
  wholeReg word d srcs (governs t m) fun s =>
    let w := vwidth s.cur.vtype.toNat
    let n := vcount s w
    (setElems (vreg s d) w n (present s m) (val s w n), 0)

/-- The selected indices below vl, rising (VCOMP, VEXPD). -/
def selected (s : State) (m : BitVec 1) (n : Nat) : List Nat := (List.range n).filter (present s m)

/-! ## Moves (R167, R168) -/

/-- The check of VMERGE (R168): the fault at the lowest element whose governing and fault bits are both 1, with the
trap it raises. -/
def mergeFault (s : State) : Option (BitVec 8 × Dword) :=
  let hit := (govern s &&& s.th.fmask &&& lowMask s.cur.vl.toNat).toNat
  if hit == 0 then none
  else
    match (List.range 2048).find? fun i => hit.testBit i with
    | none => none
    | some i =>
      if s.th.kind.getLsbD i then
        some (cDOM, BitVec.ofNat 64 (i * 2 ^ 16 + (if s.th.multi then 32 else 0) + (s.th.dom.getD 0).toNat))
      else some (cFPX, BitVec.ofNat 64 i)

/-- VMERGE's check, of the fault mask as every earlier instruction leaves it: a fault stands until all of them have
completed, matrix work and chunks that wait for room included; then it leaves the sources as they were and empties the
mask. A VMERGE resumed above start index 0 has passed it. -/
def mergeCheck (s0 : State) : M Unit := do
  match (if s0.th.startIdx.getD 0 == 0 then mergeFault (landed s0) else none) with
  | none => pure ()
  | some (c, i) => do
    if s0.th.flying.isEmpty && matrixWork s0 == 0 then pure () else park .work
    set (s0.updTh Thread.clearFaults)
    trapHere c i

/-! ## Stream bindings (R176 to R178) -/

/-- VBIN and VBOUT: ILL where the register is bound already or a mailbox, or the stream is bound (R176). -/
def bindStream (word : Word) (d a : Reg) : M Unit := do
  let t ← see fun s => s.th
  let ph := phys t d 0
  untouched [ph]
  let taken := Store.has t.bind ph || t.mbox.any (fun e => e.2 == ph) || t.bind.any (fun e => e.2 == a.toNat)
  need (!taken) cILL (wordInfo word)
  updT fun t => { t with bind := Store.insert t.bind ph a.toNat }

/-- The end flag set on the latest chunk of a list. -/
def endLast : List Chunk → List Chunk
  | [] => []
  | [c] => [{ c with fin := true }]
  | c :: d :: r => c :: endLast (d :: r)

/-- VUNB (R176, R178): the binding ends; an outbound stream's latest chunk takes the end flag, or an empty chunk with
it is pushed. A mailbox declaration ends too (R249). DESIGN CHOICE: while a chunk of the stream waits for room, VUNB parks as
a push on it does and counts so for QDEAD; R146 lists pushes and a stall behind eight, R265 speaks of any stall behind such a
chunk (log 82). -/
def unbind (d : Reg) : M Unit := do
  let t ← see fun s => s.th
  let ph := phys t d 0
  untouched [ph]
  updT fun t => { t with mbox := t.mbox.filter fun e => e.2 != ph }
  match boundTo t ph with
  | none => pure ()
  | some j =>
    if 8 ≤ j then
      if waitsForRoom t j then park (.pushV j) else pure ()
      let v := t.vstream j
      match v.chunks with
      | [] => updT fun t => t.setVstream j { v with chunks := [⟨0, 0, true, false, false⟩] }
      | l => updT fun t => t.setVstream j { v with chunks := endLast l }
    else pure ()
    updT fun t => { t with bind := Store.del t.bind ph }

/-! ## The instructions -/

/-- VPERM (R166). Permutes elements by an index vector. -/
def execVperm (d : Reg) (a : Reg) (b : Reg) (m : BitVec 1) (s : State) : Out :=
  issueN .vperm (fmtR 0x5b#7 d a b (m ++ 0#3)) (permute (fmtR 0x5b#7 d a b (m ++ 0#3)) d [a, b] m (fun s w n =>
    let x := vreg s a
    let y := vreg s b
    fun i => if elem y w i < n then elem x w (elem y w i) else 0)) s

/-- VSLUP (R166). Slides elements up by a scalar count. -/
def execVslup (d : Reg) (a : Reg) (b : Reg) (m : BitVec 1) (s : State) : Out :=
  issueN .vslup (fmtR 0x5b#7 d a b (m ++ 1#3)) (do
    let k ← rdKept b
    permute (fmtR 0x5b#7 d a b (m ++ 1#3)) d [a] m (fun s w _ =>
      let x := vreg s a
      fun i => if k.toNat ≤ i then elem x w (i - k.toNat) else 0)) s

/-- VSLDN (R166). Slides elements down by a scalar count. -/
def execVsldn (d : Reg) (a : Reg) (b : Reg) (m : BitVec 1) (s : State) : Out :=
  issueN .vsldn (fmtR 0x5b#7 d a b (m ++ 2#3)) (do
    let k ← rdKept b
    permute (fmtR 0x5b#7 d a b (m ++ 2#3)) d [a] m (fun s w n =>
      let x := vreg s a
      fun i => if i + k.toNat < n then elem x w (i + k.toNat) else 0)) s

/-- VCOMP (R166). Compresses selected elements to the low end. -/
def execVcomp (d : Reg) (a : Reg) (m : BitVec 1) (s : State) : Out :=
  issueN .vcomp (fmtR 0x5b#7 d a 0#7 (m ++ 3#3)) (do
    let t ← see fun s => s.th
    wholeReg (fmtR 0x5b#7 d a 0#7 (m ++ 3#3)) d [a] (governs t m) (fun s =>
      let w := vwidth s.cur.vtype.toNat
      let l := selected s m (vcount s w)
      let x := vreg s a
      (setElems (vreg s d) w l.length (fun _ => true) fun k => elem x w (atD 0 k l), 0))) s

/-- VEXPD (R166). Expands elements into selected positions. -/
def execVexpd (d : Reg) (a : Reg) (m : BitVec 1) (s : State) : Out :=
  issueN .vexpd (fmtR 0x5b#7 d a 0#7 (m ++ 4#3)) (do
    let t ← see fun s => s.th
    wholeReg (fmtR 0x5b#7 d a 0#7 (m ++ 4#3)) d [a] (governs t m) (fun s =>
      let w := vwidth s.cur.vtype.toNat
      let l := selected s m (vcount s w)
      let x := vreg s a
      ((l.zipIdx).foldl (fun acc e => setElem acc w e.1 (elem x w e.2)) (vreg s d), 0))) s

/-- VZIP (R166). Interleaves two vectors. -/
def execVzip (d : Reg) (a : Reg) (b : Reg) (m : BitVec 1) (s : State) : Out :=
  issueN .vzip (fmtR 0x5b#7 d a b (m ++ 5#3)) (permute (fmtR 0x5b#7 d a b (m ++ 5#3)) d [a, b] m (fun s w _ =>
    let x := vreg s a
    let y := vreg s b
    fun i => if i % 2 == 0 then elem x w (i / 2) else elem y w (i / 2))) s

/-- VUZP (R166). De-interleaves two vectors. -/
def execVuzp (d : Reg) (a : Reg) (b : Reg) (m : BitVec 1) (s : State) : Out :=
  issueN .vuzp (fmtR 0x5b#7 d a b (m ++ 6#3)) (permute (fmtR 0x5b#7 d a b (m ++ 6#3)) d [a, b] m (fun s w n =>
    let x := vreg s a
    let y := vreg s b
    fun i => if 2 * i < n then elem x w (2 * i) else elem y w (2 * i - n))) s

/-- VREV (R166). Reverses the elements below vl. -/
def execVrev (d : Reg) (a : Reg) (m : BitVec 1) (s : State) : Out :=
  issueN .vrev (fmtR 0x5b#7 d a 0#7 (m ++ 7#3)) (permute (fmtR 0x5b#7 d a 0#7 (m ++ 7#3)) d [a] m (fun s w n =>
    let x := vreg s a
    fun i => elem x w (n - 1 - i))) s

/-- VMOV (R167). Copies a vector register. -/
def execVmov (d : Reg) (a : Reg) (m : BitVec 1) (s : State) : Out :=
  issueN .vmov (fmtR 0x5c#7 d a 0#7 (m ++ 0#3)) (elementwise (fmtR 0x5c#7 d a 0#7 (m ++ 0#3)) d [a] m (fun s =>
    let w := vwidth s.cur.vtype.toNat
    let x := vreg s a
    fun i => (elem x w i, 0))) s

/-- VSPLAT (R167). Writes a scalar into every element. -/
def execVsplat (d : Reg) (a : Reg) (m : BitVec 1) (s : State) : Out :=
  issueN .vsplat (fmtR 0x5c#7 d a 0#7 (m ++ 1#3)) (do
    let v ← rdKept a
    let w ← see fun s => vwidth s.cur.vtype.toNat
    elementwiseAt (fmtR 0x5c#7 d a 0#7 (m ++ 1#3)) d [] w w m false (fun s _ => (v.toNat % 2 ^ vwidth s.cur.vtype.toNat, 0))) s

/-- VEXT (R167). Extracts one element into a scalar. -/
def execVext (d : Reg) (a : Reg) (b : Reg) (s : State) : Out :=
  issueN .vext (fmtR 0x5c#7 d a b 2#4) (do
    let k ← rdKept b
    scalarFrom (fmtR 0x5c#7 d a b 2#4) d [a] [] false fun s =>
      let vt := s.cur.vtype.toNat
      let w := vwidth vt
      let x := elem (vreg s a) w k.toNat
      (if k.toNat < vcount s w then (if isI vt && vsigned vt then BitVec.ofInt 64 (signedOf w x) else BitVec.ofNat 64 x)
        else 0, Effect.none)) s

/-- VINS (R167). Inserts a scalar into one element. -/
def execVins (d : Reg) (a : Reg) (b : Reg) (s : State) : Out :=
  issueN .vins (fmtR 0x5c#7 d a b 3#4) (do
    let v ← rdKept a
    let k ← rdKept b
    let s ← get
    if k.toNat < vcount s (vwidth s.cur.vtype.toNat) then
      wholeReg (fmtR 0x5c#7 d a b 3#4) d [] [] (fun s =>
        (setElem (vreg s d) (vwidth s.cur.vtype.toNat) k.toNat v.toNat, 0))
    else
      roomInFlight
      destOk (fmtR 0x5c#7 d a b 3#4) (phys s.th d 0)) s

/-- VIOTA (R167). Writes each element's global index. -/
def execViota (d : Reg) (m : BitVec 1) (s : State) : Out :=
  issueN .viota (fmtR 0x5c#7 d 0#7 0#7 (m ++ 4#3)) (elementwise (fmtR 0x5c#7 d 0#7 0#7 (m ++ 4#3)) d [] m (fun s i => ((s.cur.sbase.toNat + i) % 2 ^ vwidth s.cur.vtype.toNat, 0))) s

/-- VMERGE (R168). Merges two vectors under the governing predicate, raising selected recorded faults. -/
def execVmerge (d : Reg) (a : Reg) (b : Reg) (s : State) : Out :=
  issueN .vmerge (fmtR 0x5c#7 d a b 5#4) (do
    roomInFlight
    let s0 ← get
    let ps := [phys s0.th a 0, phys s0.th b 0]
    destOk (fmtR 0x5c#7 d a b 5#4) (phys s0.th d 0)
    sources ps
    mergeCheck s0
    let s ← get
    let v := landed s
    let w := vwidth s.cur.vtype.toNat
    let n := vcount s w
    let x := vreg v a
    let y := vreg v b
    let g := govern v
    fly false (fmtR 0x5c#7 d a b 5#4)
      { whole := false, n := n, wide := w, width := w, srcs := ps.map fun p => (p, w), preds := [s.th.gpred.toNat]
        mask := false, tree := false, fence := true, outs := [(phys s0.th d 0, n)] }
      (elemEffect v (phys s0.th d 0) w n (fun _ => true) fun i => (if g.getLsbD i then elem x w i else elem y w i, 0))
      (popsOf s0 ps)) s

/-- VFMSK (R167). Copies the fault mask into a predicate. -/
def execVfmsk (d : Reg) (s : State) : Out :=
  issueN .vfmsk (fmtR 0x5c#7 d 0#7 0#7 6#4) (predFrom (fmtR 0x5c#7 d 0#7 0#7 6#4) d [] true fun s => s.th.fmask) s

/-- VCLRF (R167). Empties the fault mask. -/
def execVclrf (s : State) : Out :=
  issueN .vclrf (fmtR 0x5c#7 0#7 0#7 0#7 7#4) (do
    roomInFlight
    let s ← get
    fly false (fmtR 0x5c#7 0#7 0#7 0#7 7#4) { wholeShape s [] [] [] with n := 0 } { Effect.none with clear := true } []) s

/-- VBIN (R176). Binds a register as consumer of an inbound stream. -/
def execVbin (d : Reg) (a : Reg) (s : State) : Out :=
  issueN .vbin (fmtR 0x62#7 d a 0#7 0#4) (bindStream (fmtR 0x62#7 d a 0#7 0#4) d a) s

/-- VBOUT (R176). Binds a register as producer of an outbound stream. -/
def execVbout (d : Reg) (a : Reg) (s : State) : Out :=
  issueN .vbout (fmtR 0x62#7 d a 0#7 1#4) (bindStream (fmtR 0x62#7 d a 0#7 1#4) d a) s

/-- VUNB (R178). Removes a register's binding, ending an outbound stream. -/
def execVunb (d : Reg) (s : State) : Out :=
  issueN .vunb (fmtR 0x62#7 d 0#7 0#7 2#4) (unbind d) s

end Sys2Proof.Machine
end

