-- ==== Sys2Proof/Machine/Dispatch.lean ====
section
/-! DEFINITION. Dispatch: one arm for each row of spec/opcode_table.json, each a direct call of its meaning. The first 345
are the encoded instructions, the other 92 the events of the device. -/

namespace Sys2Proof.Machine

/-- The meaning of every instruction and every event of the device. -/
def exec (i : Instr) (s : State) : Host.Outcome State Fault Refusal :=
  match i with
  | .add d a b => Sys2Proof.Machine.execAdd d a b s
  | .sub d a b => Sys2Proof.Machine.execSub d a b s
  | .and d a b => Sys2Proof.Machine.execAnd d a b s
  | .or d a b => Sys2Proof.Machine.execOr d a b s
  | .xor d a b => Sys2Proof.Machine.execXor d a b s
  | .shl d a b => Sys2Proof.Machine.execShl d a b s
  | .shr d a b => Sys2Proof.Machine.execShr d a b s
  | .sra d a b => Sys2Proof.Machine.execSra d a b s
  | .min d a b => Sys2Proof.Machine.execMin d a b s
  | .max d a b => Sys2Proof.Machine.execMax d a b s
  | .minu d a b => Sys2Proof.Machine.execMinu d a b s
  | .maxu d a b => Sys2Proof.Machine.execMaxu d a b s
  | .slt d a b => Sys2Proof.Machine.execSlt d a b s
  | .sltu d a b => Sys2Proof.Machine.execSltu d a b s
  | .seq d a b => Sys2Proof.Machine.execSeq d a b s
  | .sel d a b => Sys2Proof.Machine.execSel d a b s
  | .mul d a b => Sys2Proof.Machine.execMul d a b s
  | .mulh d a b => Sys2Proof.Machine.execMulh d a b s
  | .mulhu d a b => Sys2Proof.Machine.execMulhu d a b s
  | .div d a b => Sys2Proof.Machine.execDiv d a b s
  | .divu d a b => Sys2Proof.Machine.execDivu d a b s
  | .rem d a b => Sys2Proof.Machine.execRem d a b s
  | .remu d a b => Sys2Proof.Machine.execRemu d a b s
  | .clz d a => Sys2Proof.Machine.execClz d a s
  | .ctz d a => Sys2Proof.Machine.execCtz d a s
  | .popc d a => Sys2Proof.Machine.execPopc d a s
  | .sxb d a => Sys2Proof.Machine.execSxb d a s
  | .sxh d a => Sys2Proof.Machine.execSxh d a s
  | .sxw d a => Sys2Proof.Machine.execSxw d a s
  | .addi d a idx => Sys2Proof.Machine.execAddi d a idx s
  | .andi d a idx => Sys2Proof.Machine.execAndi d a idx s
  | .ori d a idx => Sys2Proof.Machine.execOri d a idx s
  | .xori d a idx => Sys2Proof.Machine.execXori d a idx s
  | .shli d a idx => Sys2Proof.Machine.execShli d a idx s
  | .shri d a idx => Sys2Proof.Machine.execShri d a idx s
  | .srai d a idx => Sys2Proof.Machine.execSrai d a idx s
  | .slti d a idx => Sys2Proof.Machine.execSlti d a idx s
  | .li d idx => Sys2Proof.Machine.execLi d idx s
  | .lsh d idx => Sys2Proof.Machine.execLsh d idx s
  | .sfadd d a b => Sys2Proof.Machine.execSfadd d a b s
  | .sfsub d a b => Sys2Proof.Machine.execSfsub d a b s
  | .sfmul d a b => Sys2Proof.Machine.execSfmul d a b s
  | .sfdiv d a b => Sys2Proof.Machine.execSfdiv d a b s
  | .sfsqrt d a => Sys2Proof.Machine.execSfsqrt d a s
  | .sfmin d a b => Sys2Proof.Machine.execSfmin d a b s
  | .sfmax d a b => Sys2Proof.Machine.execSfmax d a b s
  | .sfma d a b => Sys2Proof.Machine.execSfma d a b s
  | .sfeq d a b => Sys2Proof.Machine.execSfeq d a b s
  | .sflt d a b => Sys2Proof.Machine.execSflt d a b s
  | .sfle d a b => Sys2Proof.Machine.execSfle d a b s
  | .scvdl d a => Sys2Proof.Machine.execScvdl d a s
  | .scvld d a => Sys2Proof.Machine.execScvld d a s
  | .scvdf d a => Sys2Proof.Machine.execScvdf d a s
  | .scvfd d a => Sys2Proof.Machine.execScvfd d a s
  | .scvdh d a => Sys2Proof.Machine.execScvdh d a s
  | .scvhd d a => Sys2Proof.Machine.execScvhd d a s
  | .scvdb d a => Sys2Proof.Machine.execScvdb d a s
  | .scvbd d a => Sys2Proof.Machine.execScvbd d a s
  | .b o => Sys2Proof.Machine.execB o s
  | .bz c o => Sys2Proof.Machine.execBz c o s
  | .bnz c o => Sys2Proof.Machine.execBnz c o s
  | .bltz c o => Sys2Proof.Machine.execBltz c o s
  | .bgez c o => Sys2Proof.Machine.execBgez c o s
  | .call o => Sys2Proof.Machine.execCall o s
  | .ret => Sys2Proof.Machine.execRet s
  | .jr a => Sys2Proof.Machine.execJr a s
  | .bq c o => Sys2Proof.Machine.execBq c o s
  | .bany c o => Sys2Proof.Machine.execBany c o s
  | .bnone c o => Sys2Proof.Machine.execBnone c o s
  | .smb d k m o => Sys2Proof.Machine.execSmb d k m o s
  | .bend c o => Sys2Proof.Machine.execBend c o s
  | .nop => Sys2Proof.Machine.execNop s
  | .yield => Sys2Proof.Machine.execYield s
  | .trap c => Sys2Proof.Machine.execTrap c s
  | .vlget d a k t => Sys2Proof.Machine.execVlget d a k t s
  | .vloop d a j k t => Sys2Proof.Machine.execVloop d a j k t s
  | .stair d a l f => Sys2Proof.Machine.execStair d a l f s
  | .stflg a k f => Sys2Proof.Machine.execStflg a k f s
  | .ststep d a b m => Sys2Proof.Machine.execStstep d a b m s
  | .wbase w => Sys2Proof.Machine.execWbase w s
  | .fmode m => Sys2Proof.Machine.execFmode m s
  | .scope idx => Sys2Proof.Machine.execScope idx s
  | .vmask p => Sys2Proof.Machine.execVmask p s
  | .ldb d a idx => Sys2Proof.Machine.execLdb d a idx s
  | .ldh d a idx => Sys2Proof.Machine.execLdh d a idx s
  | .ldw d a idx => Sys2Proof.Machine.execLdw d a idx s
  | .ldd d a idx => Sys2Proof.Machine.execLdd d a idx s
  | .stb d a idx => Sys2Proof.Machine.execStb d a idx s
  | .sth d a idx => Sys2Proof.Machine.execSth d a idx s
  | .stw d a idx => Sys2Proof.Machine.execStw d a idx s
  | .std d a idx => Sys2Proof.Machine.execStd d a idx s
  | .aset d a => Sys2Proof.Machine.execAset d a s
  | .aget d a => Sys2Proof.Machine.execAget d a s
  | .astr d a => Sys2Proof.Machine.execAstr d a s
  | .aadd d a => Sys2Proof.Machine.execAadd d a s
  | .agstr d a => Sys2Proof.Machine.execAgstr d a s
  | .lds d a o w => Sys2Proof.Machine.execLds d a o w s
  | .sts d a o w => Sys2Proof.Machine.execSts d a o w s
  | .amoAdd d a b => Sys2Proof.Machine.execAmoAdd d a b s
  | .amoAnd d a b => Sys2Proof.Machine.execAmoAnd d a b s
  | .amoOr d a b => Sys2Proof.Machine.execAmoOr d a b s
  | .amoXor d a b => Sys2Proof.Machine.execAmoXor d a b s
  | .amoMin d a b => Sys2Proof.Machine.execAmoMin d a b s
  | .amoMax d a b => Sys2Proof.Machine.execAmoMax d a b s
  | .amoMinu d a b => Sys2Proof.Machine.execAmoMinu d a b s
  | .amoMaxu d a b => Sys2Proof.Machine.execAmoMaxu d a b s
  | .amoSwap d a b => Sys2Proof.Machine.execAmoSwap d a b s
  | .amoFadd32 d a b => Sys2Proof.Machine.execAmoFadd32 d a b s
  | .amoFadd64 d a b => Sys2Proof.Machine.execAmoFadd64 d a b s
  | .amoaAdd d a b => Sys2Proof.Machine.execAmoaAdd d a b s
  | .amoaAnd d a b => Sys2Proof.Machine.execAmoaAnd d a b s
  | .amoaOr d a b => Sys2Proof.Machine.execAmoaOr d a b s
  | .amoaXor d a b => Sys2Proof.Machine.execAmoaXor d a b s
  | .amoaMin d a b => Sys2Proof.Machine.execAmoaMin d a b s
  | .amoaMax d a b => Sys2Proof.Machine.execAmoaMax d a b s
  | .amoaMinu d a b => Sys2Proof.Machine.execAmoaMinu d a b s
  | .amoaMaxu d a b => Sys2Proof.Machine.execAmoaMaxu d a b s
  | .amoaSwap d a b => Sys2Proof.Machine.execAmoaSwap d a b s
  | .amoaFadd32 d a b => Sys2Proof.Machine.execAmoaFadd32 d a b s
  | .amoaFadd64 d a b => Sys2Proof.Machine.execAmoaFadd64 d a b s
  | .amolAdd d a b => Sys2Proof.Machine.execAmolAdd d a b s
  | .amolAnd d a b => Sys2Proof.Machine.execAmolAnd d a b s
  | .amolOr d a b => Sys2Proof.Machine.execAmolOr d a b s
  | .amolXor d a b => Sys2Proof.Machine.execAmolXor d a b s
  | .amolMin d a b => Sys2Proof.Machine.execAmolMin d a b s
  | .amolMax d a b => Sys2Proof.Machine.execAmolMax d a b s
  | .amolMinu d a b => Sys2Proof.Machine.execAmolMinu d a b s
  | .amolMaxu d a b => Sys2Proof.Machine.execAmolMaxu d a b s
  | .amolSwap d a b => Sys2Proof.Machine.execAmolSwap d a b s
  | .amolFadd32 d a b => Sys2Proof.Machine.execAmolFadd32 d a b s
  | .amolFadd64 d a b => Sys2Proof.Machine.execAmolFadd64 d a b s
  | .amoxAdd d a b => Sys2Proof.Machine.execAmoxAdd d a b s
  | .amoxAnd d a b => Sys2Proof.Machine.execAmoxAnd d a b s
  | .amoxOr d a b => Sys2Proof.Machine.execAmoxOr d a b s
  | .amoxXor d a b => Sys2Proof.Machine.execAmoxXor d a b s
  | .amoxMin d a b => Sys2Proof.Machine.execAmoxMin d a b s
  | .amoxMax d a b => Sys2Proof.Machine.execAmoxMax d a b s
  | .amoxMinu d a b => Sys2Proof.Machine.execAmoxMinu d a b s
  | .amoxMaxu d a b => Sys2Proof.Machine.execAmoxMaxu d a b s
  | .amoxSwap d a b => Sys2Proof.Machine.execAmoxSwap d a b s
  | .amoxFadd32 d a b => Sys2Proof.Machine.execAmoxFadd32 d a b s
  | .amoxFadd64 d a b => Sys2Proof.Machine.execAmoxFadd64 d a b s
  | .cas d a b w o => Sys2Proof.Machine.execCas d a b w o s
  | .fence e k => Sys2Proof.Machine.execFence e k s
  | .waita d a w c => Sys2Proof.Machine.execWaita d a w c s
  | .barr d a b => Sys2Proof.Machine.execBarr d a b s
  | .barrt d a b => Sys2Proof.Machine.execBarrt d a b s
  | .binit d a b => Sys2Proof.Machine.execBinit d a b s
  | .bdiss d a => Sys2Proof.Machine.execBdiss d a s
  | .bwait d a b => Sys2Proof.Machine.execBwait d a b s
  | .vwait d a b => Sys2Proof.Machine.execVwait d a b s
  | .qdrain a => Sys2Proof.Machine.execQdrain a s
  | .qcnt d a => Sys2Proof.Machine.execQcnt d a s
  | .sload d a => Sys2Proof.Machine.execSload d a s
  | .sloadSlice d a b => Sys2Proof.Machine.execSloadSlice d a b s
  | .sloadTrim d a => Sys2Proof.Machine.execSloadTrim d a s
  | .sstore d a => Sys2Proof.Machine.execSstore d a s
  | .sstoreSlice d a b => Sys2Proof.Machine.execSstoreSlice d a b s
  | .sstoreTrim d a => Sys2Proof.Machine.execSstoreTrim d a s
  | .sgath d a b w => Sys2Proof.Machine.execSgath d a b w s
  | .sgathc d a b w => Sys2Proof.Machine.execSgathc d a b w s
  | .sscat d a b w => Sys2Proof.Machine.execSscat d a b w s
  | .sscatc d a b w => Sys2Proof.Machine.execSscatc d a b w s
  | .cpy a => Sys2Proof.Machine.execCpy a s
  | .cpyq d a => Sys2Proof.Machine.execCpyq d a s
  | .tidset d a => Sys2Proof.Machine.execTidset d a s
  | .svmap d a => Sys2Proof.Machine.execSvmap d a s
  | .svg1 d a => Sys2Proof.Machine.execSvg1 d a s
  | .svg2 d a => Sys2Proof.Machine.execSvg2 d a s
  | .svph d a => Sys2Proof.Machine.execSvph d a s
  | .svswp d a => Sys2Proof.Machine.execSvswp d a s
  | .svrun d a => Sys2Proof.Machine.execSvrun d a s
  | .svprob d a => Sys2Proof.Machine.execSvprob d a s
  | .launch d a b => Sys2Proof.Machine.execLaunch d a b s
  | .join d a => Sys2Proof.Machine.execJoin d a s
  | .leave d a => Sys2Proof.Machine.execLeave d a s
  | .gname d a => Sys2Proof.Machine.execGname d a s
  | .gdrop d a => Sys2Proof.Machine.execGdrop d a s
  | .ginfo d a => Sys2Proof.Machine.execGinfo d a s
  | .gmove d a b => Sys2Proof.Machine.execGmove d a b s
  | .vadd d a b m => Sys2Proof.Machine.execVadd d a b m s
  | .vsub d a b m => Sys2Proof.Machine.execVsub d a b m s
  | .vmul d a b m => Sys2Proof.Machine.execVmul d a b m s
  | .vmulh d a b m => Sys2Proof.Machine.execVmulh d a b m s
  | .vmin d a b m => Sys2Proof.Machine.execVmin d a b m s
  | .vmax d a b m => Sys2Proof.Machine.execVmax d a b m s
  | .vadds d a b m => Sys2Proof.Machine.execVadds d a b m s
  | .vsubs d a b m => Sys2Proof.Machine.execVsubs d a b m s
  | .vand d a b m => Sys2Proof.Machine.execVand d a b m s
  | .vor d a b m => Sys2Proof.Machine.execVor d a b m s
  | .vxor d a b m => Sys2Proof.Machine.execVxor d a b m s
  | .vshl d a b m => Sys2Proof.Machine.execVshl d a b m s
  | .vshr d a b m => Sys2Proof.Machine.execVshr d a b m s
  | .vsra d a b m => Sys2Proof.Machine.execVsra d a b m s
  | .vandn d a b m => Sys2Proof.Machine.execVandn d a b m s
  | .vfadd d a b m => Sys2Proof.Machine.execVfadd d a b m s
  | .vfsub d a b m => Sys2Proof.Machine.execVfsub d a b m s
  | .vfmul d a b m => Sys2Proof.Machine.execVfmul d a b m s
  | .vfdiv d a b m => Sys2Proof.Machine.execVfdiv d a b m s
  | .vfmin d a b m => Sys2Proof.Machine.execVfmin d a b m s
  | .vfmax d a b m => Sys2Proof.Machine.execVfmax d a b m s
  | .vfma d a b m => Sys2Proof.Machine.execVfma d a b m s
  | .vfms d a b m => Sys2Proof.Machine.execVfms d a b m s
  | .vfsqrt d a m => Sys2Proof.Machine.execVfsqrt d a m s
  | .vfrsq d a m => Sys2Proof.Machine.execVfrsq d a m s
  | .vlog2 d a m => Sys2Proof.Machine.execVlog2 d a m s
  | .vexp2 d a m => Sys2Proof.Machine.execVexp2 d a m s
  | .vfabs d a m => Sys2Proof.Machine.execVfabs d a m s
  | .vfneg d a m => Sys2Proof.Machine.execVfneg d a m s
  | .vfclass d a m => Sys2Proof.Machine.execVfclass d a m s
  | .vfrint d a m => Sys2Proof.Machine.execVfrint d a m s
  | .vcmp d a b m c => Sys2Proof.Machine.execVcmp d a b m c s
  | .vcmpx d a b m c => Sys2Proof.Machine.execVcmpx d a b m c s
  | .pand d a b => Sys2Proof.Machine.execPand d a b s
  | .por d a b => Sys2Proof.Machine.execPor d a b s
  | .pxor d a b => Sys2Proof.Machine.execPxor d a b s
  | .pandn d a b => Sys2Proof.Machine.execPandn d a b s
  | .pnot d a => Sys2Proof.Machine.execPnot d a s
  | .pmov d a => Sys2Proof.Machine.execPmov d a s
  | .pset d => Sys2Proof.Machine.execPset d s
  | .pclr d => Sys2Proof.Machine.execPclr d s
  | .pcnt d a => Sys2Proof.Machine.execPcnt d a s
  | .pcntt d a => Sys2Proof.Machine.execPcntt d a s
  | .ppop d a => Sys2Proof.Machine.execPpop d a s
  | .pfirst d a => Sys2Proof.Machine.execPfirst d a s
  | .plast d a => Sys2Proof.Machine.execPlast d a s
  | .vcvfh d a => Sys2Proof.Machine.execVcvfh d a s
  | .vcvfb d a => Sys2Proof.Machine.execVcvfb d a s
  | .vcvfe4 d a => Sys2Proof.Machine.execVcvfe4 d a s
  | .vcvfe5 d a => Sys2Proof.Machine.execVcvfe5 d a s
  | .vcvhf d a => Sys2Proof.Machine.execVcvhf d a s
  | .vcvbf d a => Sys2Proof.Machine.execVcvbf d a s
  | .vcve4f d a => Sys2Proof.Machine.execVcve4f d a s
  | .vcve5f d a => Sys2Proof.Machine.execVcve5f d a s
  | .vcvfi d a => Sys2Proof.Machine.execVcvfi d a s
  | .vcvif d a => Sys2Proof.Machine.execVcvif d a s
  | .vcvdf d a => Sys2Proof.Machine.execVcvdf d a s
  | .vcvfd d a => Sys2Proof.Machine.execVcvfd d a s
  | .vcvin d a => Sys2Proof.Machine.execVcvin d a s
  | .vcvci d a => Sys2Proof.Machine.execVcvci d a s
  | .vcvic d a => Sys2Proof.Machine.execVcvic d a s
  | .vcvfc d a => Sys2Proof.Machine.execVcvfc d a s
  | .vdeq d a b m => Sys2Proof.Machine.execVdeq d a b m s
  | .vqnt d a b m => Sys2Proof.Machine.execVqnt d a b m s
  | .vperm d a b m => Sys2Proof.Machine.execVperm d a b m s
  | .vslup d a b m => Sys2Proof.Machine.execVslup d a b m s
  | .vsldn d a b m => Sys2Proof.Machine.execVsldn d a b m s
  | .vcomp d a m => Sys2Proof.Machine.execVcomp d a m s
  | .vexpd d a m => Sys2Proof.Machine.execVexpd d a m s
  | .vzip d a b m => Sys2Proof.Machine.execVzip d a b m s
  | .vuzp d a b m => Sys2Proof.Machine.execVuzp d a b m s
  | .vrev d a m => Sys2Proof.Machine.execVrev d a m s
  | .vmov d a m => Sys2Proof.Machine.execVmov d a m s
  | .vsplat d a m => Sys2Proof.Machine.execVsplat d a m s
  | .vext d a b => Sys2Proof.Machine.execVext d a b s
  | .vins d a b => Sys2Proof.Machine.execVins d a b s
  | .viota d m => Sys2Proof.Machine.execViota d m s
  | .vmerge d a b => Sys2Proof.Machine.execVmerge d a b s
  | .vfmsk d => Sys2Proof.Machine.execVfmsk d s
  | .vclrf => Sys2Proof.Machine.execVclrf s
  | .vrsum d a m => Sys2Proof.Machine.execVrsum d a m s
  | .vfsum a m => Sys2Proof.Machine.execVfsum a m s
  | .vrmin d a m => Sys2Proof.Machine.execVrmin d a m s
  | .vrmax d a m => Sys2Proof.Machine.execVrmax d a m s
  | .vrand d a m => Sys2Proof.Machine.execVrand d a m s
  | .vror d a m => Sys2Proof.Machine.execVror d a m s
  | .vrxor d a m => Sys2Proof.Machine.execVrxor d a m s
  | .vtree d => Sys2Proof.Machine.execVtree d s
  | .vargmax d a m => Sys2Proof.Machine.execVargmax d a m s
  | .vargmin d a m => Sys2Proof.Machine.execVargmin d a m s
  | .vargmaxc d a m => Sys2Proof.Machine.execVargmaxc d a m s
  | .vscan d a seg => Sys2Proof.Machine.execVscan d a seg s
  | .vscanx d a seg => Sys2Proof.Machine.execVscanx d a seg s
  | .vfscan d a seg => Sys2Proof.Machine.execVfscan d a seg s
  | .vmscan d a seg => Sys2Proof.Machine.execVmscan d a seg s
  | .vsegrAdd d a seg => Sys2Proof.Machine.execVsegrAdd d a seg s
  | .vsegrMin d a seg => Sys2Proof.Machine.execVsegrMin d a seg s
  | .vsegrMax d a seg => Sys2Proof.Machine.execVsegrMax d a seg s
  | .vsegrAnd d a seg => Sys2Proof.Machine.execVsegrAnd d a seg s
  | .vsegrOr d a seg => Sys2Proof.Machine.execVsegrOr d a seg s
  | .vsegrFadd d a seg => Sys2Proof.Machine.execVsegrFadd d a seg s
  | .vsegrFmin d a seg => Sys2Proof.Machine.execVsegrFmin d a seg s
  | .vsegrFmax d a seg => Sys2Proof.Machine.execVsegrFmax d a seg s
  | .vrndl d m => Sys2Proof.Machine.execVrndl d m s
  | .vrndh d m => Sys2Proof.Machine.execVrndh d m s
  | .vrndu d m => Sys2Proof.Machine.execVrndu d m s
  | .vbin d a => Sys2Proof.Machine.execVbin d a s
  | .vbout d a => Sys2Proof.Machine.execVbout d a s
  | .vunb d => Sys2Proof.Machine.execVunb d s
  | .mtile d a b => Sys2Proof.Machine.execMtile d a b s
  | .mrow d a b k j => Sys2Proof.Machine.execMrow d a b k j s
  | .maccf d a => Sys2Proof.Machine.execMaccf d a s
  | .macc d a => Sys2Proof.Machine.execMacc d a s
  | .maccz d a => Sys2Proof.Machine.execMaccz d a s
  | .mzero a b => Sys2Proof.Machine.execMzero a b s
  | .mstat d => Sys2Proof.Machine.execMstat d s
  | .mstatc d => Sys2Proof.Machine.execMstatc d s
  | .rcopen a => Sys2Proof.Machine.execRcopen a s
  | .rcnoise d => Sys2Proof.Machine.execRcnoise d s
  | .rcscore d a => Sys2Proof.Machine.execRcscore d a s
  | .rccut d a => Sys2Proof.Machine.execRccut d a s
  | .rcexact d a => Sys2Proof.Machine.execRcexact d a s
  | .rcpost a b => Sys2Proof.Machine.execRcpost a b s
  | .rcmerge d => Sys2Proof.Machine.execRcmerge d s
  | .rcbar a => Sys2Proof.Machine.execRcbar a s
  | .rcprob d => Sys2Proof.Machine.execRcprob d s
  | .rcget d b => Sys2Proof.Machine.execRcget d b s
  | .rcput a b => Sys2Proof.Machine.execRcput a b s
  | .rcclose => Sys2Proof.Machine.execRcclose s
  | .fnset d a b => Sys2Proof.Machine.execFnset d a b s
  | .fnget d a => Sys2Proof.Machine.execFnget d a s
  | .fnadd d a b => Sys2Proof.Machine.execFnadd d a b s
  | .fnmul d a b => Sys2Proof.Machine.execFnmul d a b s
  | .fncomp d a b => Sys2Proof.Machine.execFncomp d a b s
  | .fnint d a => Sys2Proof.Machine.execFnint d a s
  | .fndiff d a => Sys2Proof.Machine.execFndiff d a s
  | .fneval d a b => Sys2Proof.Machine.execFneval d a b s
  | .fnroot d a b => Sys2Proof.Machine.execFnroot d a b s
  | .fntrunc d a => Sys2Proof.Machine.execFntrunc d a s
  | .fnfit d a b => Sys2Proof.Machine.execFnfit d a b s
  | .fnmono d => Sys2Proof.Machine.execFnmono d s
  | .fninfo d a => Sys2Proof.Machine.execFninfo d a s
  | .fnfree d => Sys2Proof.Machine.execFnfree d s
  | .fnscal d a b => Sys2Proof.Machine.execFnscal d a b s
  | .gmbox d b => Sys2Proof.Machine.execGmbox d b s
  | .vhold d a => Sys2Proof.Machine.execVhold d a s
  | .rstv d a b => Sys2Proof.Machine.execRstv d a b s
  | .rstvr d a b => Sys2Proof.Machine.execRstvr d a b s
  | .gstat d => Sys2Proof.Machine.execGstat d s
  | .exit => Sys2Proof.Machine.execExit s
  | .eret => Sys2Proof.Machine.execEret s
  | .mfs d a b => Sys2Proof.Machine.execMfs d a b s
  | .mts d a b => Sys2Proof.Machine.execMts d a b s
  | .mtsCause d => Sys2Proof.Machine.execMtsCause d s
  | .mtsScopetab d => Sys2Proof.Machine.execMtsScopetab d s
  | .mtsVbase d => Sys2Proof.Machine.execMtsVbase d s
  | .mtsFmode d => Sys2Proof.Machine.execMtsFmode d s
  | .mtsLattol d => Sys2Proof.Machine.execMtsLattol d s
  | .ctxsave a b => Sys2Proof.Machine.execCtxsave a b s
  | .ctxload a b => Sys2Proof.Machine.execCtxload a b s
  | .notify a => Sys2Proof.Machine.execNotify a s
  | .preempt a => Sys2Proof.Machine.execPreempt a s
  | .resume a => Sys2Proof.Machine.execResume a s
  | .digchk d => Sys2Proof.Machine.execDigchk d s
  | .halt => Sys2Proof.Machine.execHalt s
  | .loadCompletion req data => Sys2Proof.Machine.execLoadCompletion req data s
  | .parkedStreamRelease t q => Sys2Proof.Machine.execParkedStreamRelease t q s
  | .waitaWake t => Sys2Proof.Machine.execWaitaWake t s
  | .vwaitWake t => Sys2Proof.Machine.execVwaitWake t s
  | .bwaitWake t => Sys2Proof.Machine.execBwaitWake t s
  | .bwaitTimeout t => Sys2Proof.Machine.execBwaitTimeout t s
  | .qdeadDetection t => Sys2Proof.Machine.execQdeadDetection t s
  | .outboundChunkEntry t => Sys2Proof.Machine.execOutboundChunkEntry t s
  | .streamTransferCompletion t k => Sys2Proof.Machine.execStreamTransferCompletion t k s
  | .elementGroupStart t e => Sys2Proof.Machine.execElementGroupStart t e s
  | .matrixRowProcessing t => Sys2Proof.Machine.execMatrixRowProcessing t s
  | .tileFill t slot => Sys2Proof.Machine.execTileFill t slot s
  | .copyPiece t k => Sys2Proof.Machine.execCopyPiece t k s
  | .copyCompletion t k => Sys2Proof.Machine.execCopyCompletion t k s
  | .lateEngineFault t q => Sys2Proof.Machine.execLateEngineFault t q s
  | .svopPass t => Sys2Proof.Machine.execSvopPass t s
  | .mailboxArrival k => Sys2Proof.Machine.execMailboxArrival k s
  | .remoteStoreAnswer k nack => Sys2Proof.Machine.execRemoteStoreAnswer k nack s
  | .nameForwardingExpiry slot => Sys2Proof.Machine.execNameForwardingExpiry slot s
  | .atomicLeaseExpiry line => Sys2Proof.Machine.execAtomicLeaseExpiry line s
  | .atomicSiteReturnNear line => Sys2Proof.Machine.execAtomicSiteReturnNear line s
  | .stampSweep => Sys2Proof.Machine.execStampSweep s
  | .conflictConfirmation t => Sys2Proof.Machine.execConflictConfirmation t s
  | .threadStopComplete t => Sys2Proof.Machine.execThreadStopComplete t s
  | .noticeDelivery p => Sys2Proof.Machine.execNoticeDelivery p s
  | .budgetExpiry t => Sys2Proof.Machine.execBudgetExpiry t s
  | .intg t => Sys2Proof.Machine.execIntg t s
  | .deverr t q unit va => Sys2Proof.Machine.execDeverr t q unit va s
  | .streamEnd t q => Sys2Proof.Machine.execStreamEnd t q s
  | .dependencyWordRead p q => Sys2Proof.Machine.execDependencyWordRead p q s
  | .launchDispatch p => Sys2Proof.Machine.execLaunchDispatch p s
  | .launchStaging p => Sys2Proof.Machine.execLaunchStaging p s
  | .stagedLaunchStart p => Sys2Proof.Machine.execStagedLaunchStart p s
  | .gangStop p => Sys2Proof.Machine.execGangStop p s
  | .gangResume p => Sys2Proof.Machine.execGangResume p s
  | .selfTestProduct core bad => Sys2Proof.Machine.execSelfTestProduct core bad s
  | .spareReplacement core => Sys2Proof.Machine.execSpareReplacement core s
  | .invalidationRequest p => Sys2Proof.Machine.execInvalidationRequest p s
  | .invalidationRetire p => Sys2Proof.Machine.execInvalidationRetire p s
  | .replicaFill p page data => Sys2Proof.Machine.execReplicaFill p page data s
  | .migration p page data => Sys2Proof.Machine.execMigration p page data s
  | .fabricReadRequest src key pa n => Sys2Proof.Machine.execFabricReadRequest src key pa n s
  | .fabricWriteRequest src key pa data => Sys2Proof.Machine.execFabricWriteRequest src key pa data s
  | .fabricAtomicRequest src key pa op operand expect => Sys2Proof.Machine.execFabricAtomicRequest src key pa op operand expect s
  | .fabricNack req cause => Sys2Proof.Machine.execFabricNack req cause s
  | .fabricRequestTimeout req => Sys2Proof.Machine.execFabricRequestTimeout req s
  | .multicastCopyAnswer req peer cause => Sys2Proof.Machine.execMulticastCopyAnswer req peer cause s
  | .redContribution src key c => Sys2Proof.Machine.execRedContribution src key c s
  | .redRoundTimeout p pa => Sys2Proof.Machine.execRedRoundTimeout p pa s
  | .linkFailure station => Sys2Proof.Machine.execLinkFailure station s
  | .hostAtomicOp p va op operand expect => Sys2Proof.Machine.execHostAtomicOp p va op operand expect s
  | .hostRequest vf ideT wr => Sys2Proof.Machine.execHostRequest vf ideT wr s
  | .scrub unit => Sys2Proof.Machine.execScrub unit s
  | .wearUpdate die months conf worst => Sys2Proof.Machine.execWearUpdate die months conf worst s
  | .thermalLimit => Sys2Proof.Machine.execThermalLimit s
  | .thermalReset b => Sys2Proof.Machine.execThermalReset b s
  | .deviceReset b => Sys2Proof.Machine.execDeviceReset b s
  | .idleEntry => Sys2Proof.Machine.execIdleEntry s
  | .idleWake => Sys2Proof.Machine.execIdleWake s
  | .registerWrite off v => Sys2Proof.Machine.execRegisterWrite off v s
  | .eccstatWrite v => Sys2Proof.Machine.execEccstatWrite v s
  | .pwrWrite v => Sys2Proof.Machine.execPwrWrite v s
  | .lattolMirrorWrite v => Sys2Proof.Machine.execLattolMirrorWrite v s
  | .wearWrite die v => Sys2Proof.Machine.execWearWrite die v s
  | .fwstageWrite v => Sys2Proof.Machine.execFwstageWrite v s
  | .partitionCreate c => Sys2Proof.Machine.execPartitionCreate c s
  | .functionLevelReset vf => Sys2Proof.Machine.execFunctionLevelReset vf s
  | .configWriteLocked vf => Sys2Proof.Machine.execConfigWriteLocked vf s
  | .lockInterfaceRequest vf m => Sys2Proof.Machine.execLockInterfaceRequest vf m s
  | .startInterfaceRequest vf m => Sys2Proof.Machine.execStartInterfaceRequest vf m s
  | .stopInterfaceRequest vf m => Sys2Proof.Machine.execStopInterfaceRequest vf m s
  | .getVersion fn m => Sys2Proof.Machine.execGetVersion fn m s
  | .getCapabilities fn m => Sys2Proof.Machine.execGetCapabilities fn m s
  | .negotiateAlgorithms fn m => Sys2Proof.Machine.execNegotiateAlgorithms fn m s
  | .getDigests fn m => Sys2Proof.Machine.execGetDigests fn m s
  | .getCertificate fn m => Sys2Proof.Machine.execGetCertificate fn m s
  | .challenge fn m => Sys2Proof.Machine.execChallenge fn m s
  | .getMeasurements fn m => Sys2Proof.Machine.execGetMeasurements fn m s
  | .keyExchange fn m => Sys2Proof.Machine.execKeyExchange fn m s
  | .finish fn m => Sys2Proof.Machine.execFinish fn m s
  | .keyUpdate fn m => Sys2Proof.Machine.execKeyUpdate fn m s
  | .heartbeat fn m => Sys2Proof.Machine.execHeartbeat fn m s
  | .endSession fn m => Sys2Proof.Machine.execEndSession fn m s
  | .vendorChallenge fn m => Sys2Proof.Machine.execVendorChallenge fn m s
  | .debugKeyHashBind vf m hash => Sys2Proof.Machine.execDebugKeyHashBind vf m hash s
  | .debugPolicy vf m now => Sys2Proof.Machine.execDebugPolicy vf m now s
  | .debugPolicyExpiry p => Sys2Proof.Machine.execDebugPolicyExpiry p s
  | .recoveryImageWrite image => Sys2Proof.Machine.execRecoveryImageWrite image s
  | .ill w => Sys2Proof.Machine.execIll w s
  | .elementGroupWrite t e => Sys2Proof.Machine.execElementGroupWrite t e s
  | .dieTemperatureFall => Sys2Proof.Machine.execDieTemperatureFall s
  | .sharedCoreTimeSlice phys => Sys2Proof.Machine.execSharedCoreTimeSlice phys s

end Sys2Proof.Machine
end

