-- ==== Sys2Proof/Machine/Issue.lean ====
section
/-! DEFINITION. What a step is made of: the passing of time (R2, R54, R76, R367, R376), the word a stream issues (R92,
R94), the faults taken at its boundary (R78), reissue after a stop (R277), and the order the model's own schedule keeps. -/

namespace Sys2Proof.Machine

/-! ## Time -/

/-- The tenths of a gigahertz of the arithmetic clock in a power state (R427). -/
def Power.rate : Power → Nat
  | .a0 => 15
  | .a1 => 10
  | .a2 => 6
  | _ => 0

/-- The arithmetic clocks that `n` ticks from the present one hold. -/
def cyclesIn (s : State) (n : Nat) : Nat :=
  let f := s.health.power.rate
  (s.clock.toNat + n) * f / 15 - s.clock.toNat * f / 15

/-- Whether both streams of a placed thread are parked. -/
def Thread.bothParked (t : Thread) : Bool := t.status == .running && parkedNow t .a && parkedNow t .x

/-- The cycle counters of one thread's core and slot after `c` cycles (R76): CYC once for the core, by its first thread. -/
def countCycles (s : State) (c : Nat) (ts : List Thread) : State :=
  match ts with
  | [] => s
  | t :: r =>
    let s := if r.any fun u => u.lcore == t.lcore && u.part == t.part then s
      else
        let s := count s t 0x200 c
        if 1024 ≤ (s.reqs.filter fun q => q.lcore == t.lcore).length then count s t 0x212 c else s
    let s := if t.bothParked then count s t (0x209 + t.slot) c else s
    countCycles s c r

/-- A queue's head has waited (R367). -/
def waitHead (n : Nat) : List Queued → List Queued
  | [] => []
  | q :: r => { q with waited := q.waited + n } :: r

/-- A partition's queue heads after `n` ticks of its slice. -/
def Partition.wait (n : Nat) (p : Partition) : Partition :=
  if p.switchedOut then p else { p with queues := p.queues.map fun e => (e.1, waitHead n e.2) }

/-- A placed thread's budget count after `n` ticks (R376). -/
def Thread.spend (n : Nat) (t : Thread) : Thread :=
  match t.status with
  | .running | .stopping _ => { t with consumed := t.consumed + n }
  | _ => t

/-- TIME PASSES: `n` ticks of 1/1.5 GHz (R54), with the arithmetic clocks they hold (R2). A change of the A-state that a gang
instant held back takes place once it has passed (R428). -/
def passTime (n : Nat) (s : State) : State :=
  let c := cyclesIn s n
  let s := countCycles s c ((allThreads s).filter fun t => occupies s t)
  let s := mapThreads s (Thread.spend n)
  settlePower { s with
    clock := s.clock + BitVec.ofNat 64 n
    cycles := s.cycles + c
    parts := s.parts.map fun e => (e.1, e.2.wait n) }

/-! ## Which stream may issue -/

/-- Whether a stream has nothing to issue until an event releases it; a stall is tried again (R265). -/
def Stream.waits (c : Stream) : Bool :=
  c.exiting || c.ended || match c.park with
    | none | some .work | some .reply => false
    | some _ => true

/-- Whether a thread of a SER launch keeps the issue of its core: one of its streams can issue (R424). -/
def keepsIssue (s : State) (t : Thread) : Bool :=
  t.status == .running && launchFlag s t 4 && !(t.a.waits && t.x.waits)

/-- The slot whose thread holds the issue of a logical core in a SER launch, looked for in slot order from the holder
(R424). -/
def serHolder (s : State) (lcore : Nat) : Nat :=
  let now := Store.get 0 s.serTurn lcore
  let ok (k : Nat) : Bool := (allThreads s).any fun t => t.lcore == lcore && t.slot == (now + k) % 4 && keepsIssue s t
  match (List.range 4).find? ok with
  | some k => (now + k) % 4
  | none => now

/-- The restrictions of a SER launch on the issuing stream (R424): its thread holds the core's issue; A waits for its
engine transfer, and X for its earlier vector work. -/
def serReady (s : State) : Bool :=
  !launchFlag s s.th 4 ||
  (serHolder s s.th.lcore == s.th.slot &&
    match s.strm with
    | .a => s.th.copies.isEmpty && s.th.xfers.isEmpty && s.th.svcmds.isEmpty && !payloadOut s
    | .x => s.th.idle)

/-- Whether the issuing thread's core has the time slice of its physical core (R371, R421). -/
def sliceReady (s : State) : Bool :=
  !(Store.has s.remap s.th.lcore && (Store.get 0 s.remap s.th.lcore).getLsbD 14) ||
    sliceHolder s ((remapOf s s.th.lcore).toNat % 512) == s.th.lcore

/-- Whether the stream in focus issues now (R265, R268, R275, R387, R427): an A stream whose load or atomic has no answer
yet does not. -/
def mayIssue (s : State) : Bool :=
  s.health.power.active && s.th.status == .running && !(getPart s s.th.part).switchedOut && !s.cur.waits &&
    !(s.strm == .a && awaitingReply s) && serReady s && sliceReady s

/-! ## One instruction -/

/-- The word the issuing stream issues next: from the buffer of an active stair, or from memory at the PC (R92, R94). -/
def nextWord : M Word := fun s =>
  match s.cur.stairPos with
  | some (t, b) => .ok (atD 0 b t.words, s)
  | none => fetchAt s.cur.pc s

/-- The issue of one word: the instruction it decodes to, or ILL (R101, R102). -/
noncomputable def issueWord (w : Word) (s : State) : Out :=
  match decode w with
  | some i => Sys2Proof.Machine.exec i s
  | none => Sys2Proof.Machine.exec (.ill w) s

/-- The issuing stream issues its next instruction. -/
noncomputable def issueNext (s : State) : Out :=
  match nextWord s with
  | .ok (w, s') => issueWord w s'
  | .error e => settle s (.error e)

/-- The thread as the reissue of a resume entry finds it (R277): the X stream as at its issue, with the window base and
governing predicate it had. -/
def reissueFrom (t : Thread) (e : Resume) (rest : List Resume) : Thread :=
  { t with
    x := { e.x with pc := e.pc, fmode := e.fmode, park := none, late := none, priv := t.x.priv }
    wbase := e.wbase
    gpred := e.gpred
    startIdx := some e.start
    resume := rest }

/-- The thread after the reissue of an entry: its own X stream again. An entry that has parked or trapped stays in the
table, and EPC of a trap is the address of the instruction that traps, that entry's (R78). -/
def reissueBack (t0 : Thread) (e : Resume) (rest : List Resume) (t : Thread) : Thread :=
  let back : Thread := { t with x := t0.x, wbase := t0.wbase, gpred := t0.gpred, startIdx := none }
  if t.status != t0.status then
    { back with resume := e :: rest, x := { t0.x with cause := t.x.cause, epc := t.x.epc, einfo := t.x.einfo } }
  else match t.x.park with
    | some p => { back with resume := e :: rest, x := { t0.x with park := some p } }
    | none => { back with x := { t0.x with park := none } }

/-- The reissue of the oldest entry of the resume table; an instruction of which only chunks wait for room is in flight
again as it was. -/
noncomputable def reissue (s : State) (e : Resume) (rest : List Resume) : Out :=
  match e.waits with
  | some f => .next (s.updTh fun t => { t with resume := rest, flying := t.flying ++ [f] })
  | none =>
    match issueNext (s.updTh fun t => reissueFrom t e rest) with
    | .next s' => .next (s'.updTh (reissueBack s.th e rest))
    | .fault r => .fault r
    | .refused r => .refused r

/-- The issue of the next word where strips overlap: a trap waits until every strip before its own has committed, so
that it is precise (R78, R273). -/
noncomputable def issueInStrip (s : State) : Out :=
  match issueNext s with
  | .next s' => .next (if s'.th.status == s.th.status then s' else takePark s .work)
  | .fault r => .fault r
  | .refused r => .refused r

/-- The stream in focus issues one instruction, if it may, where it next stands within a stair: a pending fault first, then
what a stop left to reissue. -/
noncomputable def issueTurn (s : State) : Out :=
  if !mayIssue s then .next s
  else
    let s := if launchFlag s s.th 4 then { s with serTurn := Store.put 0 s.serTurn s.th.lcore s.th.slot } else s
    let s := s.updCur Stream.onward
    if !atBoundary s s.strm then issueInStrip s
    else match takePending s s.strm with
    | some s' => .next s'
    | none =>
      match (if s.strm == .x then s.th.resume else []) with
      | e :: r => reissue s e r
      | [] => issueNext s

/-- That of a slot's stream. -/
noncomputable def issueAt (n : Nat) (q : Strm) (s : State) : Out :=
  match focus s n with
  | some s' => issueTurn { s' with strm := q }
  | none => .next s

/-! ## The model's own order, where the agenda gives none (log 2) -/

/-- The streams that may issue, by slot. -/
def issuable (s : State) : List (Nat × Strm) :=
  (allThreads s).flatMap fun t =>
    [Strm.a, Strm.x].filterMap fun q =>
      match focus s t.num with
      | some s' => if mayIssue { s' with strm := q } then some (t.num, q) else none
      | none => none

/-- An event listed where its condition holds. -/
def listIf (b : Bool) (i : Instr) : List Instr := if b then [i] else []

/-- The events of one thread whose conditions hold. -/
noncomputable def threadEvents (s : State) (t : Thread) : List Instr :=
  let n := t.num
  let lapsed (c : Stream) : Bool := match c.park with
    | some p => parkOver t p
    | none => false
  let lanes := List.range 4
  let flights := List.range t.flying.length
  let copies := List.range t.copies.length
  listIf t.a.late.isSome (.lateEngineFault n .a) ++ listIf t.x.late.isSome (.lateEngineFault n .x) ++
  listIf t.intg.isSome (.intg n) ++
  listIf (lapsed t.a) (.parkedStreamRelease n .a) ++ listIf (lapsed t.x) (.parkedStreamRelease n .x) ++
  listIf (t.a.park == some .waita) (.waitaWake n) ++ listIf (t.a.park == some .vwait) (.vwaitWake n) ++
  listIf (t.a.park == some .bwait) (.bwaitWake n) ++
  listIf (queueDead t).isSome (.qdeadDetection n) ++
  listIf (enterChunk t != t) (.outboundChunkEntry n) ++
  (List.range t.xfers.length).flatMap (fun k => listIf (xferReady s t k) (.streamTransferCompletion n k)) ++
  lanes.flatMap (fun l => listIf (t.runs && (laneWork s t l).isSome) (.elementGroupStart n l)) ++
  flights.flatMap (fun e => listIf (t.runs && writeReady s t e) (.elementGroupWrite n e)) ++
  listIf (s.rowq.any fun j => j.lcore == t.lcore && j.slot == t.slot) (.matrixRowProcessing n) ++
  listIf t.fill0 (.tileFill n 0) ++ listIf t.fill1 (.tileFill n 1) ++
  copies.flatMap (fun k => listIf (copyDone s t k) (.copyCompletion n k)) ++
  copies.flatMap (fun k => listIf (match t.copies[k]? with
    | some c => decide (c.moved < c.total)
    | none => false) (.copyPiece n k)) ++
  listIf (!t.svcmds.isEmpty) (.svopPass n) ++
  listIf (t.confirm.any fun e => !e.2) (.conflictConfirmation n) ++
  listIf (stopReady s t) (.threadStopComplete n) ++
  listIf (t.status == .running && t.budget != 0 && t.budget ≤ t.consumed) (.budgetExpiry n) ++
  listIf (t.a.exiting && !t.a.ended) (.streamEnd n .a) ++ listIf (t.x.exiting && !t.x.ended) (.streamEnd n .x)

/-- The events of one partition whose conditions hold. -/
noncomputable def partEvents (s : State) (pn : Nat) (p : Partition) : List Instr :=
  listIf (p.handling.isNone && !p.notices.isEmpty) (.noticeDelivery pn) ++
  p.queues.flatMap (fun e => listIf (match e.2 with
    | q :: _ => !q.depMet
    | [] => false) (.dependencyWordRead pn e.1)) ++
  listIf (stagedReady s pn).isSome (.stagedLaunchStart pn) ++
  listIf (nextDispatch s pn).isSome (.launchDispatch pn) ++
  listIf (nextStaging s pn).isSome (.launchStaging pn) ++
  listIf (sliceOver s pn) (.gangStop pn) ++ listIf (sliceBegins s pn) (.gangResume pn) ++
  listIf (p.state != .free && readLE s (blockBase p + 0x20) 8 != p.invTail) (.invalidationRequest pn) ++
  listIf (decide (p.invHead < p.invTail)) (.invalidationRetire pn) ++
  listIf (policyOver s p) (.debugPolicyExpiry pn)

/-- The device's other events whose conditions hold. -/
noncomputable def deviceEvents (s : State) : List Instr :=
  s.rstores.flatMap (fun r => listIf (!goesAway s r && !overtakes s r) (.mailboxArrival r.id)) ++
  s.ranswers.map (fun r => Instr.remoteStoreAnswer r.id r.cause) ++
  s.names.flatMap (fun e => listIf (match e.2.forward with
    | some (_, c) => decide (c ≤ s.clock.toNat)
    | none => false) (.nameForwardingExpiry e.1)) ++
  s.sites.flatMap (fun e => listIf (leaseOver s.cycles e.2 != e.2) (.atomicLeaseExpiry e.1)) ++
  s.sites.flatMap (fun e => listIf (nearAgain s.cycles e.2 != e.2) (.atomicSiteReturnNear e.1)) ++
  listIf (sweep s != s.stamps) .stampSweep ++
  s.reqs.flatMap (fun q => listIf (!timely s q.issued) (.fabricRequestTimeout q.id)) ++
  s.rstores.flatMap (fun r => listIf (goesAway s r && !timely s r.sent) (.fabricRequestTimeout r.id)) ++
  s.rounds.flatMap (fun r =>
    let tmo := redTmo (redEntry s r.part r.ridx)
    listIf (r.ordered && tmo != 0 && r.since + 1500 * tmo ≤ s.clock.toNat) (.redRoundTimeout r.part r.pa)) ++
  s.cores.flatMap (fun e => listIf e.2.testDue (.selfTestProduct e.1 0)) ++
  listIf (idle s && (idleChoice s).isSome) .idleEntry ++ listIf (wakeDue s) .idleWake

/-- Every event whose condition holds, in one order. -/
noncomputable def readyEvents (s : State) : List Instr :=
  ((allThreads s).filter fun t => occupies s t).flatMap (threadEvents s) ++
  s.parts.flatMap (fun e => partEvents s e.1 e.2) ++ deviceEvents s

/-- One issue of the model's own order: the streams that may issue take turns. -/
noncomputable def ownIssue (s : State) : Out :=
  let l := issuable s
  match l[s.clock.toNat / 2 % max 1 l.length]? with
  | some (n, q) => issueAt n q s
  | none => .next s

/-- One move of the model's own order: an event and an issue in turn. -/
noncomputable def ownMove (s : State) : Out :=
  if s.beat then
    let s := { s with beat := false }
    let l := readyEvents s
    match l[s.clock.toNat / 2 % max 1 l.length]? with
    | some i => Sys2Proof.Machine.exec i s
    | none => ownIssue s
  else ownIssue { s with beat := true }

/-- Whether a row of the table may come as an event by itself: not an encoded instruction, and not the ILL that only
issue raises. -/
def mayOccur (i : Instr) : Bool :=
  match i with
  | .ill _ => false
  | i => instrIsEvent i

/-- One turn of the agenda. -/
noncomputable def doTurn (t : Turn) (s : State) : Out :=
  match t with
  | .issue lcore slot q => issueAt (4 * lcore + slot) q s
  | .event i => if mayOccur i then Sys2Proof.Machine.exec i s else .next s
  | .time n => .next (passTime n s)
  | .poison pa => .next { s with uce := if s.uce.contains (pa / 8) then s.uce else s.uce ++ [pa / 8] }
  | .corrected lcore part => .next (correctedError s lcore part)
  | .rstore r =>
    let s := wake s
    .next { s with
      nextReq := s.nextReq + 1
      rstores := s.rstores ++ [{ r with id := s.nextReq, peerId := r.id, src := none, part := none, waits := false }] }
  | .gmoveIn src id key name tid => .next (takeMove (wake s) src id key name tid)
  | .gforward src id key name dest => .next (takeForward (wake s) src id key name dest)
  | .request fn m => .next (otherRequest s fn m)
  | .gang g sched => .next (if sched.ok then { s with gangs := Store.put GangSched.reset s.gangs g sched } else s)

end Sys2Proof.Machine
end

