-- ==== Sys2Proof/Machine/Placing.lean ====
section
/-! DEFINITION. One instruction placed where the next step fetches it: what stands around it is a partition with one
page, one launch and one thread (log 6). -/

namespace Sys2Proof.Machine

/-- The launch record of a placed word: one thread, nothing reserved. -/
def placedRecord : LaunchRec where
  aentry := 0x100000000
  xentry := 0x100000000
  dies := 1
  clusters := 1
  cores := 1
  threads := 1
  vseg := 1
  acs := 0
  alcove := 0
  hall := 0
  atrium := 0
  coef := 0
  bound := 0
  stage := 0
  prio := 0
  dep := 0
  depval := 0
  done := 0
  doneval := 0
  budget := 0
  flags := 0
  group := 0
  args := 0
  digLo := 0
  digHi := 0

/-- The launch of a placed word: serial 1 at the first core. -/
def placedLaunch : Launch where
  serial := 1
  part := 0
  record := placedRecord
  d0 := 0
  c0 := 0
  k0 := 0
  hallOff := 0
  atriumOff := 0
  stageOffs := []
  codeEnd := none
  live := 1
  digLo := 0
  digHi := 0
  ushered := false
  ended := false
  leavers := []
  members := [2048]
  alcoves := []

/-- The partition of a placed word: running, the first core, the first gibibyte. -/
def placedPart : Partition :=
  { Partition.reset with
    state := .run
    cores := [0]
    windows := [(0, 0x40000000)]
    usherCore := 1 }

/-- The stream that may issue a word, and the level it needs. -/
def wordStrm (w : Word) : Strm :=
  match opOf w with
  | none => .a
  | some o =>
    let i := opInfo w o
    match i.strm with
    | some q => q
    | none => if i.ops.all (Opnd.streamOk .a) then .a else .x
def wordLevel (w : Word) : BitVec 2 :=
  match opOf w with
  | none => 0
  | some o => BitVec.ofNat 2 (opInfo w o).level

/-- The thread of a placed word, at the word's address in both streams. -/
def placedThread (w : Word) : Thread :=
  let c := { Stream.reset with pc := 0x100000000, priv := wordLevel w }
  { Thread.reset 0 0 with
    status := .running
    part := 0
    serial := 1
    a := c
    x := c }

/-- Memory with a page table of three entries at 0x40000, 0x50040 and 0x60000 (R390), which maps VA 2^32 to 0x70000, and
the word there. -/
def placedMem (m : List Host.Cell) (w : Word) : List Host.Cell :=
  let m := putBytes m 0 (leBytes 8 0x40000)
  let m := putBytes m 0x40000 (leBytes 8 0xA003)
  let m := putBytes m 0x50040 (leBytes 8 0xC003)
  let m := putBytes m 0x60000 (leBytes 8 0xE01D)
  putBytes m 0x70000 (wordBytes w)

/-- A word placed: the next turn is its issue. -/
def placeWord (s : State) (w : Word) : State :=
  { s with
    th := placedThread w
    strm := wordStrm w
    others := s.others.filter fun t => t.num != 0
    agenda := .issue 0 0 (wordStrm w) :: s.agenda
    mem := placedMem s.mem w
    uce := []
    tlb := s.tlb.filter fun e => e.part != 0
    reqs := s.reqs.filter fun q => q.lcore != 0
    remap := Store.del s.remap 0
    parts := Store.put Partition.reset s.parts 0 placedPart
    launches := placedLaunch :: s.launches.filter fun l => l.serial != 1
    health := { s.health with power := .a0 } }

end Sys2Proof.Machine
end

