-- ==== Sys2Proof/Machine/Step.lean ====
section
/-! DEFINITION. One step of the device, and the placing of one instruction where the next step fetches it. -/

namespace Sys2Proof.Machine

/-- ONE STEP: the next turn of the agenda, or, where it is empty, one tick of time and one move of the model's own
order (log 2). -/
noncomputable def step (s : State) : Host.Outcome State Fault Refusal :=
  match s.agenda with
  | t :: r => doTurn t { s with agenda := r }
  | [] => ownMove (passTime 1 s)

/-- The state with one instruction where the next step fetches it: `Placing.lean` says what stands around it. -/
def State.withFetchWord (s : State) (nbits w : Nat) : State :=
  placeWord s (BitVec.ofNat 32 (w % 2 ^ nbits))

end Sys2Proof.Machine
end

