-- ==== Sys2Proof/WellFormed.lean ====
section
/-! DEFINITION. Which instructions are well formed: those whose word passes steps 1 to 3 of R101. A word that is not
the encoding of a well-formed instruction takes ILL (R101, R102, R113). A device event is well formed as it stands:
it has no word to check. -/

namespace Sys2Proof

/-- Whether an instruction stands under its own row: a write of a system register that the table lists by name is that
row's, and not MTS's. -/
def Instr.ownRow (i : Instr) : Bool :=
  match i with
  | .mts _ hi lo => !([0x10, 0x21, 0x30, 0x40, 0x80].contains (sysNo hi lo))
  | _ => true

/-- Every operand is of its class, and the literals and register combinations are within their ranges (R95 to R98,
and the entries of R104 to R112). -/
def Instr.wf (i : Instr) : Bool := instrIsEvent i || (wordOk (encode i) && i.ownRow)

end Sys2Proof
end

