-- ==== Sys2Proof/Safety.lean ====
section
/-! DEFINITION. The terms in which claims about the machine are stated: when an instruction issues with its operands in
hand, what an issued instruction leaves, what each family computes, which parts of the state a family may change, and
the invariant of memory. -/

namespace Sys2Proof.Machine

/-! ## Issue -/

/-- The decode checks of R101 pass for an instruction in the issuing stream, no register it names is held (R251), and no
operand waits for earlier vector work (R265). -/
def Ready (i : Instr) (s : State) : Bool :=
  match opOf (encode i) with
  | some o =>
    (gate o (encode i) s).isNone && (o == .vhold || o == .gmbox || (heldName s.th (opInfo (encode i) o).ops).isNone) &&
      !stalls o (encode i) s
  | none => false

/-- The state as a stream issues in it: in a SER launch the thread's slot now holds its core's issue (R424). -/
def marked (s : State) : State :=
  if launchFlag s s.th 4 then { s with serTurn := Store.put 0 s.serTurn s.th.lcore s.th.slot } else s

/-- THE TURN OF A STREAM (R265, R424; log 2): stream `q` of a placed thread stands next on the agenda and may issue; `u` is the
state in which it does so, where a PC that an ERET has put on a word its stair withholds has moved on (log 68). -/
def TurnOf (s : State) (lcore slot : Nat) (q : Strm) (u : State) : Prop :=
  ∃ t rest, s.agenda = .issue lcore slot q :: rest ∧ focus { s with agenda := rest } (4 * lcore + slot) = some t ∧
    mayIssue { t with strm := q } = true ∧ u = (marked { t with strm := q }).updCur Stream.onward

/-- Nothing comes before the stream's next word: it stands at an instruction boundary, no fault is pending there (R78,
R209), and no stopped vector instruction is left to issue again (R277). -/
def Unhindered (u : State) : Prop :=
  atBoundary u u.strm = true ∧ takePending u u.strm = none ∧ (u.strm = .x → u.th.resume = [])

/-- The state once the next strip of an overlapped loop begins, in flight with those before it (R273); `push` is what its SMB
pushes when they are committed. -/
def stripBegun (num : Option Nat) (push : Option (Nat × Dword)) (s : State) : State :=
  match num with
  | none => s
  | some n =>
    let u := s.updCur fun c => { c with loop := c.loop.map fun k => { k with stripNum := some (n + 1) } }
    if s.th.idle then u else u.updTh fun t => { t with strips := t.strips ++ [⟨n + 1, t.x, push⟩] }

/-- The state after an instruction that the next word follows. -/
def finish (s : State) : State := retire (advance s)

/-- The state after a transfer of control to `target` (R77 counts it for a trace). -/
def jumped (target : Dword) (s : State) : State :=
  retire ((traceRec s s.th 1 s.strm s.cur.pc target.toNat).updCur fun c => { c with pc := target })

/-- The issuing stream with the general registers named stepped by an active stair, which `advance` may change. -/
def Stream.steppedRegs (c : Stream) : List Nat :=
  match c.stair with
  | some t => t.stepped.map fun r => r.toNat
  | none => []

/-- The other stream of a thread. -/
def otherOf : Strm → Strm
  | .a => .x
  | .x => .a

/-- Scalar operands read in field order (R53). -/
def readAll : List Reg → M (List Dword)
  | [] => pure []
  | r :: rs => do
    let v ← rd r
    let vs ← readAll rs
    pure (v :: vs)

/-- Whether the trace policy of the issuing thread's partition is silent, so that no record enters memory (R77). -/
def Untraced (s : State) : Prop := ∀ t : Thread, ∀ k q pc e, traceRec s t k q pc e = s

/-! ## What each scalar instruction computes (R48, R117 to R119) -/

/-- Two sources and a result: destination, a, b, and the value (R48, R117, R118). -/
inductive IsBinary : Instr → Reg → Reg → Reg → (Dword → Dword → Dword) → Prop where
  | add (d a b) : IsBinary (.add d a b) d a b (fun x y => x + y)
  | sub (d a b) : IsBinary (.sub d a b) d a b (fun x y => x - y)
  | and (d a b) : IsBinary (.and d a b) d a b (fun x y => x &&& y)
  | or (d a b) : IsBinary (.or d a b) d a b (fun x y => x ||| y)
  | xor (d a b) : IsBinary (.xor d a b) d a b (fun x y => x ^^^ y)
  | shl (d a b) : IsBinary (.shl d a b) d a b (fun x y => x <<< (y.toNat % 64))
  | shr (d a b) : IsBinary (.shr d a b) d a b (fun x y => x >>> (y.toNat % 64))
  | sra (d a b) : IsBinary (.sra d a b) d a b (fun x y => x.sshiftRight (y.toNat % 64))
  | min (d a b) : IsBinary (.min d a b) d a b (fun x y => if x.toInt ≤ y.toInt then x else y)
  | max (d a b) : IsBinary (.max d a b) d a b (fun x y => if x.toInt ≤ y.toInt then y else x)
  | minu (d a b) : IsBinary (.minu d a b) d a b (fun x y => if x.toNat ≤ y.toNat then x else y)
  | maxu (d a b) : IsBinary (.maxu d a b) d a b (fun x y => if x.toNat ≤ y.toNat then y else x)
  | slt (d a b) : IsBinary (.slt d a b) d a b (fun x y => if x.toInt < y.toInt then 1 else 0)
  | sltu (d a b) : IsBinary (.sltu d a b) d a b (fun x y => if x.toNat < y.toNat then 1 else 0)
  | seq (d a b) : IsBinary (.seq d a b) d a b (fun x y => if x = y then 1 else 0)
  | mul (d a b) : IsBinary (.mul d a b) d a b (fun x y => BitVec.ofNat 64 (x.toNat * y.toNat))
  | mulh (d a b) : IsBinary (.mulh d a b) d a b (fun x y => BitVec.ofInt 64 (x.toInt * y.toInt / 2 ^ 64))
  | mulhu (d a b) : IsBinary (.mulhu d a b) d a b (fun x y => BitVec.ofNat 64 (x.toNat * y.toNat / 2 ^ 64))
  | div (d a b) : IsBinary (.div d a b) d a b (fun x y => if y = 0 then BitVec.allOnes 64 else BitVec.ofInt 64 (x.toInt.tdiv y.toInt))
  | divu (d a b) : IsBinary (.divu d a b) d a b (fun x y => if y = 0 then BitVec.allOnes 64 else BitVec.ofNat 64 (x.toNat / y.toNat))
  | rem (d a b) : IsBinary (.rem d a b) d a b (fun x y => if y = 0 then x else BitVec.ofInt 64 (x.toInt.tmod y.toInt))
  | remu (d a b) : IsBinary (.remu d a b) d a b (fun x y => if y = 0 then x else BitVec.ofNat 64 (x.toNat % y.toNat))

/-- One source and a result (R118, R119). -/
inductive IsUnary : Instr → Reg → Reg → (Dword → Dword) → Prop where
  | clz (d a) : IsUnary (.clz d a) d a clz64
  | ctz (d a) : IsUnary (.ctz d a) d a ctz64
  | popc (d a) : IsUnary (.popc d a) d a (fun x => BitVec.ofNat 64 ((List.range 64).countP fun k => x.getLsbD k))
  | sxb (d a) : IsUnary (.sxb d a) d a (fun x => (x.extractLsb' 0 8).signExtend 64)
  | sxh (d a) : IsUnary (.sxh d a) d a (fun x => (x.extractLsb' 0 16).signExtend 64)
  | sxw (d a) : IsUnary (.sxw d a) d a (fun x => (x.extractLsb' 0 32).signExtend 64)
  | addi (d a i) : IsUnary (.addi d a i) d a (fun x => x + i.signExtend 64)
  | andi (d a i) : IsUnary (.andi d a i) d a (fun x => x &&& i.zeroExtend 64)
  | ori (d a i) : IsUnary (.ori d a i) d a (fun x => x ||| i.zeroExtend 64)
  | xori (d a i) : IsUnary (.xori d a i) d a (fun x => x ^^^ i.zeroExtend 64)
  | shli (d a i) : IsUnary (.shli d a i) d a (fun x => x <<< i.toNat)
  | shri (d a i) : IsUnary (.shri d a i) d a (fun x => x >>> i.toNat)
  | srai (d a i) : IsUnary (.srai d a i) d a (fun x => x.sshiftRight i.toNat)
  | slti (d a i) : IsUnary (.slti d a i) d a (fun x => if x.toInt < i.toInt then 1 else 0)
  | lsh (d i) : IsUnary (.lsh d i) d d (fun x => x <<< 18 ||| i.zeroExtend 64)

/-- A scalar floating-point instruction: destination, sources in the order they are read, and the result with its
exceptions (R121, R122). -/
inductive IsFloat : Instr → Reg → List Reg → (Rnd → List Dword → FRes) → Prop where
  | sfadd (d a b) : IsFloat (.sfadd d a b) d [a, b] (fun r v => fAdd fp64 r (atD 0 0 v).toNat (atD 0 1 v).toNat)
  | sfsub (d a b) : IsFloat (.sfsub d a b) d [a, b] (fun r v => fSub fp64 r (atD 0 0 v).toNat (atD 0 1 v).toNat)
  | sfmul (d a b) : IsFloat (.sfmul d a b) d [a, b] (fun r v => fMul fp64 r (atD 0 0 v).toNat (atD 0 1 v).toNat)
  | sfdiv (d a b) : IsFloat (.sfdiv d a b) d [a, b] (fun r v => fDiv fp64 r (atD 0 0 v).toNat (atD 0 1 v).toNat)
  | sfsqrt (d a) : IsFloat (.sfsqrt d a) d [a] (fun r v => fSqrt fp64 r (atD 0 0 v).toNat)
  | sfmin (d a b) : IsFloat (.sfmin d a b) d [a, b] (fun _ v => fMinMax fp64 false (atD 0 0 v).toNat (atD 0 1 v).toNat)
  | sfmax (d a b) : IsFloat (.sfmax d a b) d [a, b] (fun _ v => fMinMax fp64 true (atD 0 0 v).toNat (atD 0 1 v).toNat)
  | sfma (d a b) : IsFloat (.sfma d a b) d [d, a, b] (fun r v => fFma fp64 r false (atD 0 0 v).toNat (atD 0 1 v).toNat (atD 0 2 v).toNat)
  | sfeq (d a b) : IsFloat (.sfeq d a b) d [a, b] (fun _ v => ((if (fCmp fp64 0 (atD 0 0 v).toNat (atD 0 1 v).toNat).1 then 1 else 0), (fCmp fp64 0 (atD 0 0 v).toNat (atD 0 1 v).toNat).2))
  | sflt (d a b) : IsFloat (.sflt d a b) d [a, b] (fun _ v => ((if (fCmp fp64 2 (atD 0 0 v).toNat (atD 0 1 v).toNat).1 then 1 else 0), (fCmp fp64 2 (atD 0 0 v).toNat (atD 0 1 v).toNat).2))
  | sfle (d a b) : IsFloat (.sfle d a b) d [a, b] (fun _ v => ((if (fCmp fp64 3 (atD 0 0 v).toNat (atD 0 1 v).toNat).1 then 1 else 0), (fCmp fp64 3 (atD 0 0 v).toNat (atD 0 1 v).toNat).2))
  | scvdl (d a) : IsFloat (.scvdl d a) d [a] (fun r v => intToF fp64 r (atD 0 0 v).toInt)
  | scvld (d a) : IsFloat (.scvld d a) d [a] (fun r v => fToInt fp64 r 64 (atD 0 0 v).toNat)
  | scvdf (d a) : IsFloat (.scvdf d a) d [a] (fun _ v => (f32To64 ((atD 0 0 v).toNat % 2 ^ 32), 0))
  | scvfd (d a) : IsFloat (.scvfd d a) d [a] (fun r v => f64To32 r (atD 0 0 v).toNat)
  | scvdh (d a) : IsFloat (.scvdh d a) d [a] (fun _ v => (f32To64 (narrowTo32 fp16 ((atD 0 0 v).toNat % 2 ^ 16)), 0))
  | scvhd (d a) : IsFloat (.scvhd d a) d [a] (fun r v => f64ToNarrow fp16 r true (atD 0 0 v).toNat)
  | scvdb (d a) : IsFloat (.scvdb d a) d [a] (fun _ v => (f32To64 (narrowTo32 bf16 ((atD 0 0 v).toNat % 2 ^ 16)), 0))
  | scvbd (d a) : IsFloat (.scvbd d a) d [a] (fun r v => f64ToNarrow bf16 r true (atD 0 0 v).toNat)

/-- A branch on a value: its source scalar (none: always taken), when it is taken, and its offset in words (R124, R125). -/
inductive IsBranch : Instr → Option Reg → (Dword → Bool) → BitVec 18 → Prop where
  | b (o) : IsBranch (.b o) none (fun _ => true) o
  | bz (c o) : IsBranch (.bz c o) (some c) (fun v => decide (v = 0)) o
  | bnz (c o) : IsBranch (.bnz c o) (some c) (fun v => decide (v ≠ 0)) o
  | bltz (c o) : IsBranch (.bltz c o) (some c) (fun v => decide (v.toInt < 0)) o
  | bgez (c o) : IsBranch (.bgez c o) (some c) (fun v => decide (0 ≤ v.toInt)) o
  | bq (c o) : IsBranch (.bq c o) (some c) (fun v => decide (v ≠ 0)) o

/-- An instruction that reads scalars and writes one, or none (s0): its destination and its sources. -/
inductive ScalarShape : Instr → Reg → List Reg → Prop where
  | binary {i d a b f} (h : IsBinary i d a b f) : ScalarShape i d [a, b]
  | unary {i d a f} (h : IsUnary i d a f) : ScalarShape i d [a]
  | float {i d rs f} (h : IsFloat i d rs f) : ScalarShape i d rs
  | sel (d a b) : ScalarShape (.sel d a b) d [d, a, b]
  | li (d o) : ScalarShape (.li d o) d []
  | qcnt (d a) : ScalarShape (.qcnt d a) d []
  | aget (d a) : ScalarShape (.aget d a) d []
  | agstr (d a) : ScalarShape (.agstr d a) d []
  | qdrain (a) : ScalarShape (.qdrain a) 0 []
  | nop : ScalarShape .nop 0 []
  | yield : ScalarShape .yield 0 []

/-- What an instruction that writes the scalar `d` and reads the scalars `rs` leaves as it was: everything but `d`, the
queues it names, its stream's PC, stair and park, the counters (R76) and the answers of peers it has used. -/
def ScalarKept (d : Reg) (rs : List Reg) (s t : State) : Prop :=
  { t with th := s.th, counters := s.counters } = s ∧
  { t.th with a := s.th.a, x := s.th.x, q := s.th.q, tol := s.th.tol, polled := s.th.polled } = s.th ∧
  t.th.str (otherOf s.strm) = s.th.str (otherOf s.strm) ∧
  { t.cur with
    pc := s.cur.pc, stair := s.cur.stair, gpr := s.cur.gpr, park := s.cur.park, deadline := s.cur.deadline
    object := s.cur.object, freed := s.cur.freed, ibuf := s.cur.ibuf, popped := s.cur.popped
    ftrim := s.cur.ftrim, sbase := s.cur.sbase, seed := s.cur.seed } = s.cur ∧
  (∀ n, n ≠ d.toNat → n ∉ s.cur.steppedRegs → Store.get 0 t.cur.gpr n = Store.get 0 s.cur.gpr n) ∧
  (d.toNat ≠ 119 → t.cur.ftrim = s.cur.ftrim) ∧ (d.toNat ≠ 120 → t.cur.sbase = s.cur.sbase) ∧
  (d.toNat ≠ 121 → t.cur.seed = s.cur.seed) ∧ (d.toNat ≠ 127 → t.th.tol = s.th.tol) ∧
  (∀ n, n ≠ d.toNat → n ∉ rs.map (fun r => r.toNat) → t.th.queue n = s.th.queue n) ∧
  ∀ k, readByte t k = readByte s k

/-! ## Accesses to memory -/

/-- An access of `n` bytes at a VA as an instruction opens it: alignment (R180), the route (R179 to R181), the
thread's own engines (R288), and what the class of the access asks (R183, R305). -/
def opened (va : Dword) (n : Nat) (a : Acc) (k : Cls) (write : Bool) : M Route := do
  aligned va n
  let r ← resolve va n a
  interlock va n write
  classify k va r write
  pure r

/-- A CAS opened, which stands as a write only where it `hit`s (R183, R188). -/
def openedCas (va : Dword) (n : Nat) (k : Cls) (hit : Bool) : M Route := do
  aligned va n
  let r ← resolve va n .atomic
  interlock va n true
  classify k va r hit
  pure r

/-- The state once `n` bytes of a route of this device have been read: a request counted (R76), and the leases of their
lines recalled (R289) but for a table of firmware. -/
def hasRead (s : State) (r : Route) (n : Nat) : State :=
  if r.mode = 7 then countReq s else siteRecall (countReq s) r.key n

/-- The value that those bytes have: of memory, or of a table that firmware shows an usher (R371, R383). -/
def shownAt (s : State) (r : Route) (n : Nat) : Nat :=
  if r.mode = 7 then leNat ((List.range n).map fun j => (firmwareByte s s.th (r.key + j)).getD 0) else readLE s r.key n

/-- A load: destination, address register, offset, bytes and class (R184, R185). -/
inductive IsLoad : Instr → Reg → Reg → BitVec 11 → Nat → Cls → Prop where
  | ldb (d a i) : IsLoad (.ldb d a i) d a i 1 .plain
  | ldh (d a i) : IsLoad (.ldh d a i) d a i 2 .plain
  | ldw (d a i) : IsLoad (.ldw d a i) d a i 4 .plain
  | ldd (d a i) : IsLoad (.ldd d a i) d a i 8 .plain
  | lds (d a o w) : IsLoad (.lds d a o w) d a 0 (2 ^ w.toNat)
      (if o = 0 then .relaxed else if o = 1 then .acquire else .sc)

/-- A store, likewise. -/
inductive IsStore : Instr → Reg → Reg → BitVec 11 → Nat → Cls → Prop where
  | stb (d a i) : IsStore (.stb d a i) d a i 1 .plain
  | sth (d a i) : IsStore (.sth d a i) d a i 2 .plain
  | stw (d a i) : IsStore (.stw d a i) d a i 4 .plain
  | std (d a i) : IsStore (.std d a i) d a i 8 .plain
  | sts (d a o w) : IsStore (.sts d a o w) d a 0 (2 ^ w.toNat)
      (if o = 0 then .relaxed else if o = 1 then .release else .sc)

/-- The address a load or store accesses (R179). -/
def eaOf (s : State) (a : Reg) (i : BitVec 11) : Dword := Store.get 0 s.th.areg a.toNat + i.signExtend 64

/-- What an atomic writes, from the old value and B (R187). -/
def amoNew : RmwOp → Nat → Nat → Nat
  | .add, old, b => (old + b) % 2 ^ 64
  | .and, old, b => old &&& b
  | .or, old, b => old ||| b
  | .xor, old, b => old ^^^ b
  | .min, old, b => if (BitVec.ofNat 64 b).toInt < (BitVec.ofNat 64 old).toInt then b else old
  | .max, old, b => if (BitVec.ofNat 64 old).toInt < (BitVec.ofNat 64 b).toInt then b else old
  | .minu, old, b => if b < old then b else old
  | .maxu, old, b => if old < b then b else old
  | .swap, _, b => b
  | .fadd32, old, b => (fAdd fp32 rne old b).1
  | .fadd64, old, b => (fAdd fp64 rne old b).1
  | .cas _, _, b => b

/-- An atomic read-modify-write: destination, address register, operand, operation, bytes and class (R187). -/
inductive IsAmo : Instr → Reg → Reg → Reg → RmwOp → Nat → Cls → Prop where
  | amoAdd (d a b) : IsAmo (.amoAdd d a b) d a b .add 8 .relaxed
  | amoAnd (d a b) : IsAmo (.amoAnd d a b) d a b .and 8 .relaxed
  | amoOr (d a b) : IsAmo (.amoOr d a b) d a b .or 8 .relaxed
  | amoXor (d a b) : IsAmo (.amoXor d a b) d a b .xor 8 .relaxed
  | amoMin (d a b) : IsAmo (.amoMin d a b) d a b .min 8 .relaxed
  | amoMax (d a b) : IsAmo (.amoMax d a b) d a b .max 8 .relaxed
  | amoMinu (d a b) : IsAmo (.amoMinu d a b) d a b .minu 8 .relaxed
  | amoMaxu (d a b) : IsAmo (.amoMaxu d a b) d a b .maxu 8 .relaxed
  | amoSwap (d a b) : IsAmo (.amoSwap d a b) d a b .swap 8 .relaxed
  | amoFadd32 (d a b) : IsAmo (.amoFadd32 d a b) d a b .fadd32 4 .relaxed
  | amoFadd64 (d a b) : IsAmo (.amoFadd64 d a b) d a b .fadd64 8 .relaxed
  | amoaAdd (d a b) : IsAmo (.amoaAdd d a b) d a b .add 8 .acquire
  | amoaAnd (d a b) : IsAmo (.amoaAnd d a b) d a b .and 8 .acquire
  | amoaOr (d a b) : IsAmo (.amoaOr d a b) d a b .or 8 .acquire
  | amoaXor (d a b) : IsAmo (.amoaXor d a b) d a b .xor 8 .acquire
  | amoaMin (d a b) : IsAmo (.amoaMin d a b) d a b .min 8 .acquire
  | amoaMax (d a b) : IsAmo (.amoaMax d a b) d a b .max 8 .acquire
  | amoaMinu (d a b) : IsAmo (.amoaMinu d a b) d a b .minu 8 .acquire
  | amoaMaxu (d a b) : IsAmo (.amoaMaxu d a b) d a b .maxu 8 .acquire
  | amoaSwap (d a b) : IsAmo (.amoaSwap d a b) d a b .swap 8 .acquire
  | amoaFadd32 (d a b) : IsAmo (.amoaFadd32 d a b) d a b .fadd32 4 .acquire
  | amoaFadd64 (d a b) : IsAmo (.amoaFadd64 d a b) d a b .fadd64 8 .acquire
  | amolAdd (d a b) : IsAmo (.amolAdd d a b) d a b .add 8 .release
  | amolAnd (d a b) : IsAmo (.amolAnd d a b) d a b .and 8 .release
  | amolOr (d a b) : IsAmo (.amolOr d a b) d a b .or 8 .release
  | amolXor (d a b) : IsAmo (.amolXor d a b) d a b .xor 8 .release
  | amolMin (d a b) : IsAmo (.amolMin d a b) d a b .min 8 .release
  | amolMax (d a b) : IsAmo (.amolMax d a b) d a b .max 8 .release
  | amolMinu (d a b) : IsAmo (.amolMinu d a b) d a b .minu 8 .release
  | amolMaxu (d a b) : IsAmo (.amolMaxu d a b) d a b .maxu 8 .release
  | amolSwap (d a b) : IsAmo (.amolSwap d a b) d a b .swap 8 .release
  | amolFadd32 (d a b) : IsAmo (.amolFadd32 d a b) d a b .fadd32 4 .release
  | amolFadd64 (d a b) : IsAmo (.amolFadd64 d a b) d a b .fadd64 8 .release
  | amoxAdd (d a b) : IsAmo (.amoxAdd d a b) d a b .add 8 .release
  | amoxAnd (d a b) : IsAmo (.amoxAnd d a b) d a b .and 8 .release
  | amoxOr (d a b) : IsAmo (.amoxOr d a b) d a b .or 8 .release
  | amoxXor (d a b) : IsAmo (.amoxXor d a b) d a b .xor 8 .release
  | amoxMin (d a b) : IsAmo (.amoxMin d a b) d a b .min 8 .release
  | amoxMax (d a b) : IsAmo (.amoxMax d a b) d a b .max 8 .release
  | amoxMinu (d a b) : IsAmo (.amoxMinu d a b) d a b .minu 8 .release
  | amoxMaxu (d a b) : IsAmo (.amoxMaxu d a b) d a b .maxu 8 .release
  | amoxSwap (d a b) : IsAmo (.amoxSwap d a b) d a b .swap 8 .release
  | amoxFadd32 (d a b) : IsAmo (.amoxFadd32 d a b) d a b .fadd32 4 .release
  | amoxFadd64 (d a b) : IsAmo (.amoxFadd64 d a b) d a b .fadd64 8 .release

/-- An access that R180 wants aligned beside the loads and stores of R184 and R185: its address register, its bytes, and the
scalars it reads before the address counts. -/
inductive IsAligned : Instr → Reg → Nat → List Reg → Prop where
  | amo {i d a b op n k} (h : IsAmo i d a b op n k) : IsAligned i a n [b]
  | cas (d a b w o) : IsAligned (.cas d a b w o) a (if w = 1 then 8 else 4) [d, b]
  | waita (d a w c) : IsAligned (.waita d a w c) a (if w = 1 then 8 else 4) []
  | vwait (d a b) : IsAligned (.vwait d a b) a 8 []
  | bdiss (d a) : IsAligned (.bdiss d a) a 16 []
  | bwait (d a b) : IsAligned (.bwait d a b) a 16 [d, b]
  | sgath (d a b w) : IsAligned (.sgath d a b w) a (2 ^ w.toNat) []
  | sgathc (d a b w) : IsAligned (.sgathc d a b w) a (2 ^ w.toNat) []
  | sscat (d a b w) : IsAligned (.sscat d a b w) a (2 ^ w.toNat) []
  | sscatc (d a b w) : IsAligned (.sscatc d a b w) a (2 ^ w.toNat) []

/-- A barrier access that counts: its count must be 1 to 65,535 (R193, R194). -/
inductive IsArrival : Instr → Reg → Reg → Prop where
  | barr (d a b) : IsArrival (.barr d a b) a b
  | barrt (d a b) : IsArrival (.barrt d a b) a b
  | binit (d a b) : IsArrival (.binit d a b) a b

/-- The state after an atomic has read, and written where `hit`, its word (R76, R187, R289). -/
def rmwDone (s : State) (r : Route) (n new : Nat) (hit : Bool) : State :=
  let s := atomicSite (countReq s) s.th r
  if hit then putAt s s.th.part r.key (leBytes n new) else s

/-- The class of a CAS that writes, and of one that does not (R183, R188). -/
def casClass (o : BitVec 2) (hit : Bool) : Cls :=
  if o = 0 then .relaxed
  else if o = 1 then .acquire
  else if o = 3 then .sc
  else if hit then .release else .relaxed

/-- Whether no transfer of the thread's engines is outstanding, nor any of its payload or completion words (R189). -/
def enginesDone (s : State) : Prop := s.th.copies = [] ∧ s.th.xfers = [] ∧ s.th.svcmds = [] ∧ payloadOut s = false

/-- What an access leaves as it was: everything but the scalar `d` it writes, the queues of the scalars `d` and `rs`, its
stream's PC, stair, park and deadline, the thread's region number and the answers it has used; of the device, memory, what an
access itself leaves behind (translations, replica frames' order of use, leases, stamps), the counters and its launch's
digest. -/
def AccessKept (d : Reg) (rs : List Reg) (s t : State) : Prop :=
  { t with
    th := s.th, mem := s.mem, uce := s.uce, tlb := s.tlb, frames := s.frames, sites := s.sites, stamps := s.stamps
    stampUse := s.stampUse, counters := s.counters, launches := s.launches } = s ∧
  { t.th with
    a := s.th.a, x := s.th.x, q := s.th.q, regions := s.th.regions, polled := s.th.polled, confirm := s.th.confirm
    tol := s.th.tol } = s.th ∧
  t.th.tol = s.th.tol ∧ t.th.str (otherOf s.strm) = s.th.str (otherOf s.strm) ∧
  { t.cur with
    pc := s.cur.pc, stair := s.cur.stair, gpr := s.cur.gpr, park := s.cur.park, deadline := s.cur.deadline
    object := s.cur.object, freed := s.cur.freed, ibuf := s.cur.ibuf, popped := s.cur.popped
    ftrim := s.cur.ftrim, sbase := s.cur.sbase, seed := s.cur.seed } = s.cur ∧
  (d.toNat ≠ 119 → t.cur.ftrim = s.cur.ftrim) ∧ (d.toNat ≠ 120 → t.cur.sbase = s.cur.sbase) ∧
  (d.toNat ≠ 121 → t.cur.seed = s.cur.seed) ∧
  (∀ n, n ≠ d.toNat → n ∉ s.cur.steppedRegs → Store.get 0 t.cur.gpr n = Store.get 0 s.cur.gpr n) ∧
  (∀ n, n ≠ d.toNat → n ∉ rs.map (fun r => r.toNat) → t.th.queue n = s.th.queue n)

/-! ## Vector instructions -/

/-- A lane of integers: the operands' values by vtype, and the result modulo 2^w (R152). -/
def intLane (f : Nat → Nat → Int → Int → Int) (s : State) (_ : Nat) (v : List Nat) : FRes :=
  let vt := s.cur.vtype.toNat
  let w := vwidth vt
  (codeOf w (f vt w (valueOf vt w (atD 0 0 v)) (valueOf vt w (atD 0 1 v))), 0)

/-- A lane of bits (R153). -/
def bitLane (f : Nat → Nat → Nat → Nat) (s : State) (_ : Nat) (v : List Nat) : FRes :=
  (f (vwidth s.cur.vtype.toNat) (atD 0 0 v) (atD 0 1 v), 0)

/-- A lane of two floating operands, rounded as element `k` (R154, R149). -/
def floatLane (f : Fmt → Rnd → Nat → Nat → FRes) (s : State) (k : Nat) (v : List Nat) : FRes :=
  f (vfmt s.cur.vtype.toNat) (elemRnd s k) (atD 0 0 v) (atD 0 1 v)

/-- A lane of one floating operand (R155). -/
def funLane (f : Fmt → Rnd → Nat → FRes) (s : State) (k : Nat) (v : List Nat) : FRes :=
  f (vfmt s.cur.vtype.toNat) (elemRnd s k) (atD 0 0 v)

/-- A lane of the mixer at sbase + k (R175). -/
def rndLane (f : Nat → Nat) (s : State) (k : Nat) (_ : List Nat) : FRes :=
  (f (nmx s.cur.seed (s.cur.sbase + BitVec.ofNat 64 k)).toNat, 0)

/-- An elementwise instruction at the vtype width: destination, sources, masked form, vtype classes, and the value of
element `k` with its exceptions from the sources' elements (R39, R148 to R156, R167, R175). -/
inductive IsLane : Instr → Reg → List Reg → BitVec 1 → (Nat → Bool) → (State → Nat → List Nat → FRes) → Prop where
  | vadd (d a b m) : IsLane (.vadd d a b m) d [a, b] m (isI) (intLane (fun _ _ x y => x + y))
  | vsub (d a b m) : IsLane (.vsub d a b m) d [a, b] m (isI) (intLane (fun _ _ x y => x - y))
  | vmul (d a b m) : IsLane (.vmul d a b m) d [a, b] m (isI) (intLane (fun _ _ x y => x * y))
  | vmulh (d a b m) : IsLane (.vmulh d a b m) d [a, b] m (isI) (intLane (fun _ w x y => x * y / (2 ^ w : Nat)))
  | vmin (d a b m) : IsLane (.vmin d a b m) d [a, b] m (isI) (intLane (fun _ _ x y => min x y))
  | vmax (d a b m) : IsLane (.vmax d a b m) d [a, b] m (isI) (intLane (fun _ _ x y => max x y))
  | vadds (d a b m) : IsLane (.vadds d a b m) d [a, b] m (isI) (intLane (fun vt w x y => vclamp vt w (x + y)))
  | vsubs (d a b m) : IsLane (.vsubs d a b m) d [a, b] m (isI) (intLane (fun vt w x y => vclamp vt w (x - y)))
  | vand (d a b m) : IsLane (.vand d a b m) d [a, b] m (fun _ => true) (bitLane (fun _ x y => x &&& y))
  | vor (d a b m) : IsLane (.vor d a b m) d [a, b] m (fun _ => true) (bitLane (fun _ x y => x ||| y))
  | vxor (d a b m) : IsLane (.vxor d a b m) d [a, b] m (fun _ => true) (bitLane (fun _ x y => x ^^^ y))
  | vshl (d a b m) : IsLane (.vshl d a b m) d [a, b] m (fun _ => true) (bitLane (fun w x y => x * 2 ^ (y % w)))
  | vshr (d a b m) : IsLane (.vshr d a b m) d [a, b] m (fun _ => true) (bitLane (fun w x y => x / 2 ^ (y % w)))
  | vsra (d a b m) : IsLane (.vsra d a b m) d [a, b] m (fun _ => true) (bitLane (fun w x y => codeOf w (signedOf w x / (2 ^ (y % w) : Nat))))
  | vandn (d a b m) : IsLane (.vandn d a b m) d [a, b] m (fun _ => true) (bitLane (fun w x y => x &&& (2 ^ w - 1 - y)))
  | vfadd (d a b m) : IsLane (.vfadd d a b m) d [a, b] m (isF) (floatLane (fAdd))
  | vfsub (d a b m) : IsLane (.vfsub d a b m) d [a, b] m (isF) (floatLane (fSub))
  | vfmul (d a b m) : IsLane (.vfmul d a b m) d [a, b] m (isF) (floatLane (fMul))
  | vfdiv (d a b m) : IsLane (.vfdiv d a b m) d [a, b] m (isF) (floatLane (fDiv))
  | vfmin (d a b m) : IsLane (.vfmin d a b m) d [a, b] m (isF) (floatLane (fun t _ x y => fMinMax t false x y))
  | vfmax (d a b m) : IsLane (.vfmax d a b m) d [a, b] m (isF) (floatLane (fun t _ x y => fMinMax t true x y))
  | vfma (d a b m) : IsLane (.vfma d a b m) d [d, a, b] m (isF) (fun s k v => fFma (vfmt s.cur.vtype.toNat) (elemRnd s k) false (atD 0 0 v) (atD 0 1 v) (atD 0 2 v))
  | vfms (d a b m) : IsLane (.vfms d a b m) d [d, a, b] m (isF) (fun s k v => fFma (vfmt s.cur.vtype.toNat) (elemRnd s k) true (atD 0 0 v) (atD 0 1 v) (atD 0 2 v))
  | vfsqrt (d a m) : IsLane (.vfsqrt d a m) d [a] m (isF) (funLane (fSqrt))
  | vfrsq (d a m) : IsLane (.vfrsq d a m) d [a] m (isFp32) (funLane (fRsqrt))
  | vlog2 (d a m) : IsLane (.vlog2 d a m) d [a] m (isFp32) (funLane (fLog2))
  | vexp2 (d a m) : IsLane (.vexp2 d a m) d [a] m (isFp32) (funLane (fExp2))
  | vfabs (d a m) : IsLane (.vfabs d a m) d [a] m (fun v => isF v || isF8 v) (funLane (fun t _ x => (x % 2 ^ (t.width - 1), 0)))
  | vfneg (d a m) : IsLane (.vfneg d a m) d [a] m (fun v => isF v || isF8 v) (funLane (fun t _ x => (flipSign t x, 0)))
  | vfclass (d a m) : IsLane (.vfclass d a m) d [a] m (isF) (funLane (fun t _ x => (fclass t x, 0)))
  | vfrint (d a m) : IsLane (.vfrint d a m) d [a] m (isF) (funLane (fRint))
  | vrndl (d m) : IsLane (.vrndl d m) d [] m (fun v => v == 4 || v == 5 || v == 10) (rndLane (fun x => x % 2 ^ 32))
  | vrndh (d m) : IsLane (.vrndh d m) d [] m (fun v => v == 4 || v == 5 || v == 10) (rndLane (fun x => x / 2 ^ 32))
  | vrndu (d m) : IsLane (.vrndu d m) d [] m (isFp32) (rndLane (fun x => (roundMag fp32 rne false (2 * (x / 2 ^ 41) + 1) (-24) false).1))
  | vmov (d a m) : IsLane (.vmov d a m) d [a] m (fun _ => true) (fun _ _ v => (atD 0 0 v, 0))
  | viota (d m) : IsLane (.viota d m) d [] m (fun _ => true) (fun s k _ => (s.cur.sbase.toNat + k, 0))

/-- A conversion between element widths: to `w` bits from `sw` (R35 to R38, R161). -/
inductive IsConvert : Instr → Reg → Reg → Nat → Nat → (Bool → Rnd → Nat → FRes) → Prop where
  | vcvfh (d a) : IsConvert (.vcvfh d a) d a 32 16 (fun _ _ x => (narrowTo32 fp16 x, 0))
  | vcvfb (d a) : IsConvert (.vcvfb d a) d a 32 16 (fun _ _ x => (narrowTo32 bf16 x, 0))
  | vcvfe4 (d a) : IsConvert (.vcvfe4 d a) d a 32 8 (fun _ _ x => (narrowTo32 e4m3 x, 0))
  | vcvfe5 (d a) : IsConvert (.vcvfe5 d a) d a 32 8 (fun _ _ x => (narrowTo32 e5m2 x, 0))
  | vcvhf (d a) : IsConvert (.vcvhf d a) d a 16 32 (fun sat r x => f32ToNarrow fp16 r sat x)
  | vcvbf (d a) : IsConvert (.vcvbf d a) d a 16 32 (fun sat r x => f32ToNarrow bf16 r sat x)
  | vcve4f (d a) : IsConvert (.vcve4f d a) d a 8 32 (fun sat r x => f32ToNarrow e4m3 r sat x)
  | vcve5f (d a) : IsConvert (.vcve5f d a) d a 8 32 (fun sat r x => f32ToNarrow e5m2 r sat x)
  | vcvfi (d a) : IsConvert (.vcvfi d a) d a 32 32 (fun _ r x => intToF fp32 r (signedOf 32 x))
  | vcvif (d a) : IsConvert (.vcvif d a) d a 32 32 (fun _ r x => fToInt fp32 r 32 x)
  | vcvdf (d a) : IsConvert (.vcvdf d a) d a 64 32 (fun _ _ x => (f32To64 x, 0))
  | vcvfd (d a) : IsConvert (.vcvfd d a) d a 32 64 (fun _ r x => f64To32 r x)
  | vcvci (d a) : IsConvert (.vcvci d a) d a 8 32 (fun _ _ x => (codeOf 8 (max (-128) (min 127 (signedOf 32 x))), 0))
  | vcvic (d a) : IsConvert (.vcvic d a) d a 32 8 (fun _ _ x => (codeOf 32 (signedOf 8 x), 0))
  | vcvfc (d a) : IsConvert (.vcvfc d a) d a 32 8 (fun _ r x => intToF fp32 r (signedOf 8 x))

/-- A predicate written from bits 0 to vl − 1 of a value (R158, R167). -/
inductive IsPredOp : Instr → Reg → (State → Mask) → Prop where
  | pand (d a b) : IsPredOp (.pand d a b) d (fun s => predVal s.th a.toNat &&& predVal s.th b.toNat)
  | por (d a b) : IsPredOp (.por d a b) d (fun s => predVal s.th a.toNat ||| predVal s.th b.toNat)
  | pxor (d a b) : IsPredOp (.pxor d a b) d (fun s => predVal s.th a.toNat ^^^ predVal s.th b.toNat)
  | pandn (d a b) : IsPredOp (.pandn d a b) d (fun s => predVal s.th a.toNat &&& ~~~predVal s.th b.toNat)
  | pnot (d a) : IsPredOp (.pnot d a) d (fun s => ~~~predVal s.th a.toNat)
  | pmov (d a) : IsPredOp (.pmov d a) d (fun s => predVal s.th a.toNat)
  | pset (d) : IsPredOp (.pset d) d (fun _ => BitVec.allOnes 2048)
  | pclr (d) : IsPredOp (.pclr d) d (fun _ => 0)
  | vfmsk (d) : IsPredOp (.vfmsk d) d (fun s => s.th.fmask)

/-- A permute: the value of each element below vl from the width and vl (R166). -/
inductive IsPermute : Instr → Reg → List Reg → BitVec 1 → (State → Nat → Nat → Nat → Nat) → Prop where
  | vperm (d a b m) : IsPermute (.vperm d a b m) d [a, b] m (fun s w n k =>
      if elem (vreg s b) w k < n then elem (vreg s a) w (elem (vreg s b) w k) else 0)
  | vzip (d a b m) : IsPermute (.vzip d a b m) d [a, b] m (fun s w _ k =>
      if k % 2 = 0 then elem (vreg s a) w (k / 2) else elem (vreg s b) w (k / 2))
  | vuzp (d a b m) : IsPermute (.vuzp d a b m) d [a, b] m (fun s w n k =>
      if 2 * k < n then elem (vreg s a) w (2 * k) else elem (vreg s b) w (2 * k - n))
  | vrev (d a m) : IsPermute (.vrev d a m) d [a] m (fun s w n k => elem (vreg s a) w (n - 1 - k))

/-- A reduction of the present elements to a scalar (R169). -/
inductive IsReduce : Instr → Reg → Reg → BitVec 1 → (Nat → Bool) → (State → Nat → List Nat → Dword) → Prop where
  | vrsum (d a m) : IsReduce (.vrsum d a m) d a m (isI) (fun s w l => BitVec.ofInt 64 (l.map fun x => redValue s.cur.vtype.toNat w x).sum)
  | vrand (d a m) : IsReduce (.vrand d a m) d a m (fun _ => true) (fun _ w l => BitVec.ofNat 64 (l.foldl (fun acc x => acc &&& x) (2 ^ w - 1)))
  | vror (d a m) : IsReduce (.vror d a m) d a m (fun _ => true) (fun _ _ l => BitVec.ofNat 64 (l.foldl (fun acc x => acc ||| x) 0))
  | vrxor (d a m) : IsReduce (.vrxor d a m) d a m (fun _ => true) (fun _ _ l => BitVec.ofNat 64 (l.foldl (fun acc x => acc ^^^ x) 0))

/-- A scan: the running value from the one before it in the segment and the element, and what d[i] shows (R173). -/
inductive IsScan : Instr → Reg → Reg → BitVec 1 → (Nat → Bool) → (State → Nat → Option Nat → Nat → FRes) →
    (Nat → Nat → Nat → Nat) → Prop where
  | vscan (d a g) : IsScan (.vscan d a g) d a g isI (fun _ w p x => ((p.getD 0 + x) % 2 ^ w, 0)) (fun _ v _ => v)
  | vscanx (d a g) : IsScan (.vscanx d a g) d a g isI (fun _ w p x => ((p.getD 0 + x) % 2 ^ w, 0))
      (fun w v x => (v + 2 ^ w - x) % 2 ^ w)
  | vfscan (d a g) : IsScan (.vfscan d a g) d a g isF (fun s _ p x =>
      match p with
      | none => (x, 0)
      | some v => fAdd (vfmt s.cur.vtype.toNat) (sumRnd s) v x) (fun _ v _ => v)
  | vmscan (d a g) : IsScan (.vmscan d a g) d a g (fun v => isI v || isF v) (fun s w p x =>
      match p with
      | none => (x, 0)
      | some v => if isI s.cur.vtype.toNat then (pick s.cur.vtype.toNat w true v x, 0)
          else fMinMax (vfmt s.cur.vtype.toNat) true v x) (fun _ v _ => v)

/-- A segmented reduction: the value of one segment from its element indices, with fault bits (R174). -/
inductive IsSegmented : Instr → Reg → Reg → BitVec 1 → (Nat → Bool) → (State → Nat → VReg → List Nat → Nat × Mask) → Prop where
  | vsegrAdd (d a g) : IsSegmented (.vsegrAdd d a g) d a g (isI) (segInt fun _ w x y => (x + y) % 2 ^ w)
  | vsegrMin (d a g) : IsSegmented (.vsegrMin d a g) d a g (isI) (segInt fun vt w x y => pick vt w false x y)
  | vsegrMax (d a g) : IsSegmented (.vsegrMax d a g) d a g (isI) (segInt fun vt w x y => pick vt w true x y)
  | vsegrAnd (d a g) : IsSegmented (.vsegrAnd d a g) d a g (isI) (segInt fun _ _ x y => x &&& y)
  | vsegrOr (d a g) : IsSegmented (.vsegrOr d a g) d a g (isI) (segInt fun _ _ x y => x ||| y)
  | vsegrFadd (d a g) : IsSegmented (.vsegrFadd d a g) d a g (isF) (segTree fun s => fAdd (vfmt s.cur.vtype.toNat) (sumRnd s))
  | vsegrFmin (d a g) : IsSegmented (.vsegrFmin d a g) d a g (isF) (segTree fun s => fMinMax (vfmt s.cur.vtype.toNat) false)
  | vsegrFmax (d a g) : IsSegmented (.vsegrFmax d a g) d a g (isF) (segTree fun s => fMinMax (vfmt s.cur.vtype.toNat) true)

/-- The running value of a scan at element `k`. -/
def running (f : Option Nat → Nat → FRes) (starts : Nat → Bool) (x : Nat → Nat) : Nat → FRes
  | 0 => f none (x 0)
  | k + 1 => f (if starts (k + 1) then none else some (running f starts x k).1) (x (k + 1))

/-- The destination is not a register bound to an inbound stream (R177). -/
def destFree (s : State) (d : Reg) (k : Nat) : Bool :=
  match boundTo s.th (phys s.th d k) with
  | some j => decide (8 ≤ j)
  | none => true

/-- A place among the eight in flight, and with `now` every earlier vector instruction done but for chunks that wait for
room: what an instruction that acts at its issue asks (R265, R271). -/
def placed (s : State) (now : Bool) : Bool :=
  decide (s.th.flying.length + matrixWork s < 8) && (!now || s.th.idle)

/-- The state once an instruction that acts at its issue has counted its element groups (R270). -/
def laned (s : State) : State := count s s.th 0x20D (2 * (wholeShape s [] [] []).groups)

/-- The sources of a vector instruction made ready: inbound chunks popped, in field order (R177). -/
def ready (s : State) (srcs : List Reg) : Except Stop (Unit × State) := sources (srcs.map fun r => phys s.th r 0) s

/-- A predicate written; p0 discards (R59). -/
def predSet (s : State) (p : Reg) (v : Mask) : State :=
  s.updTh fun t => if p = 0 then t else { t with pred := Store.put 0 t.pred p.toNat v }

/-- What a vector instruction whose destinations are the registers `ds` leaves as it was, measured against the state
its sources have left: the A stream, every register that is no destination, every predicate, accumulator, queue and
function register, all of memory and every other thread. -/
def VectorKept (ds : List Nat) (s t : State) : Prop :=
  { t with th := s.th, counters := s.counters } = s ∧
  { t.th with x := s.th.x, vreg := s.th.vreg, fmask := s.th.fmask, flying := s.th.flying, vs := s.th.vs } = s.th ∧
  { t.th.x with
    pc := s.th.x.pc, stair := s.th.x.stair, gpr := s.th.x.gpr, park := s.th.x.park, deadline := s.th.x.deadline
    object := s.th.x.object, freed := s.th.x.freed, ibuf := s.th.x.ibuf, popped := s.th.x.popped } = s.th.x ∧
  (∀ n, n ∉ s.cur.steppedRegs → Store.get 0 t.th.x.gpr n = Store.get 0 s.th.x.gpr n) ∧
  (∀ ph, ph ∉ ds → t.th.vr ph = s.th.vr ph) ∧
  ∀ k, readByte t k = readByte s k

/-- What an instruction leaves whose whole effect is the state `s` but for the X stream's own progress. -/
def Left (s t : State) : Prop := VectorKept [] s t ∧ t.th.fmask = s.th.fmask ∧ t.th.vs = s.th.vs

/-- What a race function leaves as it was, measured against the state its sources have left: all but the race registers, the
region, the destinations `ds` and the predicate `p` (R219). -/
def RaceKept (ds : List Nat) (p : Option Nat) (s t : State) : Prop :=
  VectorKept ds s (t.updTh fun u => { u with race := s.th.race, bound := s.th.bound, pred := s.th.pred }) ∧
  t.th.fmask = s.th.fmask ∧ ∀ q, p ≠ some q → Store.get 0 t.th.pred q = Store.get 0 s.th.pred q

/-- rstat after `nans` more NaN logits and `drops` more drops, each count saturating, OVF as it was (R68). -/
def Tallied (nans drops : Nat) (old new : Dword) : Prop :=
  new.toNat / 2 ^ 56 = old.toNat / 2 ^ 56 ∧
    new.toNat / 2 ^ 32 % 2 ^ 24 = min (2 ^ 24 - 1) (old.toNat / 2 ^ 32 % 2 ^ 24 + nans) ∧
    new.toNat % 2 ^ 32 = min (2 ^ 32 - 1) (old.toNat % 2 ^ 32 + drops)

/-- The registers that a cut or an exact scoring recomputes from the region (R224, R225). -/
def Recounted (t : Thread) : Prop :=
  t.race.nlive = BitVec.ofNat 32 ((List.range t.boundSize).countP fun e => (t.entry e).kind == 0) ∧
  t.race.nexact = BitVec.ofNat 32 ((List.range t.boundSize).countP fun e => (t.entry e).kind == 1) ∧
  t.race.left.toNat = (((List.range t.boundSize).map t.entry).filter fun b => b.kind == 0).foldl
    (fun m b => max32 m b.shi.toNat) 0xFF800000

/-- Whether a register's chunk of an outbound stream has room at once (R178). -/
def roomOut (t : Thread) (j : Nat) : Bool := decide ((t.vstream j).chunks.length < 4) && !waitsForRoom t j

/-- A destination's chunk sent (R178): a register bound to an outbound stream sends what it holds with count `n`, at once
or when room frees; one that is not bound sends nothing. -/
def Sent (ph n : Nat) (s t : State) : Prop :=
  ∀ j, (boundTo s.th ph = some j → 8 ≤ j → roomOut s.th j = true →
      (t.th.vstream j).chunks = (s.th.vstream j).chunks ++ [outChunk (t.th.vr ph) n]) ∧
    (boundTo s.th ph = some j → 8 ≤ j → roomOut s.th j = false →
      (t.th.vstream j).chunks = (s.th.vstream j).chunks ∧
        ∃ f ∈ t.th.flying, (j, outChunk (t.th.vr ph) n) ∈ f.out) ∧
    (boundTo s.th ph ≠ some j ∨ j ≤ 7 → t.th.vstream j = s.th.vstream j)

/-- The chunks of two destinations sent: that of a stream to which one of the two registers alone is bound, with count `n`, at
once or when room frees; other streams are as they were. -/
def SentBoth (p q n : Nat) (s t : State) : Prop :=
  ∀ j, (boundTo s.th p ≠ some j ∧ boundTo s.th q ≠ some j ∨ j ≤ 7 → t.th.vstream j = s.th.vstream j) ∧
    ∀ ph, (ph = p ∧ boundTo s.th q ≠ some j ∨ ph = q ∧ boundTo s.th p ≠ some j) → boundTo s.th ph = some j → 8 ≤ j →
      (roomOut s.th j = true →
        (t.th.vstream j).chunks = (s.th.vstream j).chunks ++ [outChunk (t.th.vr ph) n]) ∧
      (roomOut s.th j = false → (t.th.vstream j).chunks = (s.th.vstream j).chunks ∧
        ∃ f ∈ t.th.flying, (j, outChunk (t.th.vr ph) n) ∈ f.out)

/-- The fault bits that an instruction sets, every other one as it was (R63, R150). -/
def Marked (bad : Nat → Bool) (s t : State) : Prop :=
  ∀ k, k < 2048 → t.th.fmask.getLsbD k = (s.th.fmask.getLsbD k || bad k)

/-- A register written at width `w`: element `k` holds the value given for it, or what it held; the faults marked; the
rest of an instruction's effect on the thread is its chunk of `n` elements. -/
def Wrote (ph w n : Nat) (val : Nat → Option Nat) (bad : Nat → Bool) (s t : State) : Prop :=
  (∀ k, k < 16384 / w → elem (t.th.vr ph) w k = match val k with
    | some x => x % 2 ^ w
    | none => elem (s.th.vr ph) w k) ∧
  Marked bad s t ∧ Sent ph n s t ∧ VectorKept [ph] s t

/-! ## Engine transfers -/

/-- The state as an engine transfer begins: its region number is the thread's count of transfers (R292). -/
def begun (s : State) : State := s.updTh fun t => { t with transfers := t.transfers + 1 }

/-- The stream's stat written. -/
def stated (s : State) (v : Nat) : State := s.updCur fun c => { c with stat := BitVec.ofNat 64 v }

/-- A stream transfer on record: in flight with its chunk, of which bytes from a peer will fill the bits `keep` (R201), or
stopped by its failure, which is taken late (R209). -/
def recorded (g : Nat) (vs : Option Nat) (c : Chunk) (f : Option Failure) (keep : VReg) (s : State) : State :=
  s.updTh fun t => match f with
    | some e => t.setLate e.1 e.2
    | none => { t with xfers := t.xfers ++ [⟨vs, c, g, keep⟩] }

/-- A stream load past its checks: its pieces are read now, and the chunk made of their bytes is in flight (R198). -/
def loadBegun (s : State) (j total : Nat) (ps : List Piece) (keep : VReg) (mk : Bytes → Chunk) : State :=
  recorded (s.th.transfers + 1) (some j) (mk (readPieces (s.th.transfers + 1) total ps (begun s)).2.1)
    (readPieces (s.th.transfers + 1) total ps (begun s)).2.2 keep (readPieces (s.th.transfers + 1) total ps (begun s)).1

/-- A stream store past its checks: its pieces are written now (R200). -/
def storeBegun (s : State) (data : Bytes) (ps : List Piece) : State :=
  recorded (s.th.transfers + 1) none ⟨0, 0, false, false, false⟩ (writePieces (s.th.transfers + 1) false data ps (begun s)).2.2
    (BitVec.allOnes 16384) (writePieces (s.th.transfers + 1) false data ps (begun s)).1

/-- Room in an inbound stream, transfers in flight to it counted (R198). -/
def roomIn (s : State) (j : Nat) : Bool :=
  decide ((s.th.vstream j).chunks.length + (s.th.xfers.filter fun x => x.vs == some j).length < 4)

/-- The state once the oldest chunk of a stream is taken, where the chunks are `c :: r` (R200). -/
def took (s : State) (j : Nat) (c : Chunk) (r : List Chunk) : State := s.updTh fun t => t.setVstream j ⟨r, c.fin⟩

/-- ftrim and the arm limit after a trimmed transfer of `k` elements, or of all (R199, R200). -/
def trimmedAt (s : State) (k : Option Nat) (arms : Bool) : State := s.updCur fun c =>
  { c with
    ftrim := match k with
      | some n => BitVec.ofNat 64 n
      | none => BitVec.allOnes 64
    arm := match k with
      | some n => if arms then BitVec.ofNat 64 (min c.arm.toNat n) else c.arm
      | none => c.arm }

/-- A record of the partition's identifier table (R73). -/
def tidAt (s : State) (n : Nat) : Bytes := Store.get (List.replicate 32 0) (getPart s s.th.part).tids n

/-- The copy that a descriptor asks for, as it is accepted (R204 to R207). -/
def freshCopy (s : State) (word : Word) (b : Bytes) : Copy :=
  ⟨word, b, if descFlag b 2 then tidAt s (field b 0x10 1) else List.replicate 32 0,
    if descFlag b 3 then tidAt s (field b 0x11 1) else List.replicate 32 0, engineFor s (descHint b),
    (coreOfState s s.th.lcore).accepted, 0, 0, 0, [], [], [], s.th.mcword,
    s.cur.fmode.getLsbD 6⟩

/-- A descriptor that keeps the rules of R205's table and the limits of its kind (R207). -/
def DescFits (b : Bytes) : Prop :=
  field b 0x12 1 ≤ 2 ∧ field b 0x14 2 < 16 ∧ field b 0x16 1 ≤ 2 ∧ field b 0x17 1 = 0 ∧ field b 0x30 16 = 0 ∧
    (field b 0x12 1 = 1 → 1 ≤ field b 0x13 1 ∧ field b 0x13 1 ≤ 6 ∧ field b 0x14 2 / 8 % 2 = 1) ∧
    (field b 0x12 1 ≠ 1 → field b 0x13 1 = 0) ∧
    (field b 0x12 1 = 2 → field b 0x14 2 / 4 % 2 = 1 ∧ field b 0x14 2 / 8 % 2 = 0 ∧ field b 8 8 ≤ 1) ∧
    field b 0x20 8 % (if field b 0x14 2 / 2 % 2 = 1 then 4 else 8) = 0

/-- A VA aligned to the element size of a record, 2 KiB for NI8 (R180). -/
def SideFits (va : Nat) (r : Bytes) : Prop := va % (if tidFmt r = 0x20 then 2048 else fmtSize (tidFmt r)) = 0

/-- What a copy's records ask beside R205's table: aligned sides, whole blocks of NI8, and the tile of R207 and R211. -/
def BoxFits (c : Copy) : Prop :=
  let f := tidFmt c.srcTid
  let p := tidPlanes c.srcTid
  let k := if f = 0x13 ∨ f = 0x14 ∨ f = 0x01 then 128 else if f = 0x12 ∨ f = 0x11 then 64
    else if f = 0x20 then (if p = 2 then 512 else if p ≤ 4 then 256 else 128) else 0
  (c.flag 2 = true → SideFits (field c.desc 0 8) c.srcTid) ∧ (c.flag 3 = true → SideFits (field c.desc 8 8) c.dstTid) ∧
    ((c.flag 2 = true ∧ f = 0x20 ∨ c.flag 3 = true ∧ tidFmt c.dstTid = 0x20) →
      c.ext 0 * c.ext 1 * c.ext 2 * c.ext 3 % 2048 = 0) ∧
    (field c.desc 0x12 1 = 2 → k ≠ 0 ∧ c.ext 0 ≤ k ∧ c.ext 1 ≤ 192 ∧ c.ext 2 = 1 ∧ c.ext 3 = 1)

/-- A record that a TIDSET takes (R73, R210). -/
def RecordFits (r : Bytes) : Prop :=
  let f := field r 0 1
  (f = 0x01 ∨ f = 0x02 ∨ f = 0x03 ∨ f = 0x10 ∨ f = 0x11 ∨ f = 0x12 ∨ f = 0x13 ∨ f = 0x14 ∨ f = 0x20 ∨ f = 0x30 ∨ f = 0x31) ∧
    (if f = 0x20 then 2 ≤ field r 1 1 ∧ field r 1 1 ≤ 8 ∧ field r 12 12 = 0 else field r 1 1 = 0) ∧
    (field r 2 1 = 0 ∧ field r 3 1 = 0 ∧ field r 24 8 = 0 ∨ field r 2 1 = 5 ∧ field r 3 1 = 1) ∧
    field r 4 2 ≠ 0 ∧ field r 6 2 ≠ 0 ∧ field r 8 2 ≠ 0 ∧ field r 10 2 ≠ 0

/-- A state record that holds (R241): its limits, its map a permutation, its reserved fields 0, and at most 2^41 bytes of
amplitudes on a device. -/
def StateFits (b : Bytes) : Prop :=
  let n := field b 8 1
  let g := field b 10 1
  1 ≤ n ∧ n ≤ 48 ∧ field b 9 1 ≤ 3 ∧ (field b 11 1 = 0 ∧ g ≤ 3 ∨ field b 11 1 = 1 ∧ g ≤ 10) ∧ g + 2 ≤ n ∧
    field b 12 4 = 0 ∧ field b 0x4C 52 = 0 ∧ field b 0x28 36 < 2 ^ (6 * n) ∧
    (∀ p, p < n → ∃ q, q < n ∧ field b 0x28 36 / 2 ^ (6 * q) % 64 = p) ∧
    2 ^ (if field b 11 1 = 0 then n else n - g) * svSize (field b 9 1) ≤ 2 ^ 41

/-- A copy accepted: outstanding, with the next number of its core's engines and the next region number (R204, R286). -/
def copyBegun (s : State) (c : Copy) : State :=
  (updCore (begun (stated s 0)) s.th.lcore fun k => { k with accepted := k.accepted + 1 }).updTh fun t =>
    { t with copies := t.copies ++ [{ c with total := c.amount, region := s.th.transfers + 1 }] }

/-- A state-vector command accepted (R240). -/
def svBegun (s : State) (op va : Nat) (rec : Bytes) (parts : List Nat) (gates : List SvGate) (done value result : Nat) :
    State :=
  (begun s).updTh fun t =>
    { t with svcmds := t.svcmds ++ [⟨op, va, rec, parts, gates, done, value, result, s.th.transfers + 1, [], t.mcword, t.a.fmode, 0, 0⟩] }

/-- Runs of bytes that lead to memory of this device, checked in order (R179 to R181): the pieces, and the state after. -/
inductive Reaches (a : Acc) : List Run → State → List Piece → State → Prop where
  | nil (s) : Reaches a [] s [] s
  | cons {r rs s t s1 ps s2} (h : resolve (BitVec.ofNat 64 r.va) r.n a s = .ok (t, s1)) (here : t.mode = 0)
      (rest : Reaches a rs s1 ps s2) : Reaches a (r :: rs) s ((r, t) :: ps) s2

/-- A piece of this device read for a transfer region (R289, R292, R417): no open region conflicts, no unit is bad, and a lease
of its lines is recalled. -/
def Fetched (region : Nat) (p : Piece) (s : State) (bs : Bytes) (t : State) : Prop :=
  ∃ s1, stampEngine s p.1.va p.2 p.1.n region false = .ok s1 ∧ badUnit s1 p.2.key p.1.n = false ∧
    bs = readBytes s1 p.2.key p.1.n ∧ t = siteRecall s1 p.2.key p.1.n

/-- Pieces read in order, by their place in the transfer's data. -/
inductive FetchedAll (region : Nat) : List Piece → State → List (Nat × Bytes) → State → Prop where
  | nil (s) : FetchedAll region [] s [] s
  | cons {p ps s bs s1 g s2} (h : Fetched region p s bs s1) (rest : FetchedAll region ps s1 g s2) :
      FetchedAll region (p :: ps) s ((p.1.off, bs) :: g) s2

/-- The runs of a copy's piece, each checked as it is read (R206, R286). -/
inductive Gathered (a : Acc) (region : Nat) : List Run → State → List (Nat × Bytes) → State → Prop where
  | nil (s) : Gathered a region [] s [] s
  | cons {r rs s t s1 bs s2 g s3} (h : resolve (BitVec.ofNat 64 r.va) r.n a s = .ok (t, s1)) (here : t.mode = 0)
      (read : Fetched region (r, t) s1 bs s2) (rest : Gathered a region rs s2 g s3) :
      Gathered a region (r :: rs) s ((r.off, bs) :: g) s3

/-- What was read, as one string of `n` bytes. -/
def placedAll (n : Nat) (g : List (Nat × Bytes)) : Bytes :=
  g.foldl (fun bs e => bs.take e.1 ++ e.2 ++ bs.drop (e.1 + e.2.length)) (List.replicate n 0)

/-- The bytes of one piece of this device written by an engine: main memory counts in the digest unless `quiet` (R422). -/
def pieceLanded (p : Piece) (d : Bytes) (quiet : Bool) (s : State) : State :=
  let t := putAt (siteRecall (countReq s) p.2.key d.length) s.th.part p.2.key d
  if isMain p.2.key = true ∧ quiet = false then foldDigest t t.th (BitVec.ofNat 64 p.1.va).toNat d else t

/-- The pieces of a write landed in order, each with its part of the data: no open region conflicts (R292), and none merges
into a bad unit (R417). -/
inductive Lands (region : Nat) (quiet : Bool) (data : Bytes) : List Piece → State → State → Prop where
  | nil (s) : Lands region quiet data [] s s
  | cons {p ps s s1 s2 d} (part : d = (data.drop p.1.off).take p.1.n)
      (open_ : stampEngine s p.1.va p.2 p.1.n region true = .ok s1) (whole : badMerge s1 p.2.key d.length = false)
      (rest : Lands region quiet data ps (pieceLanded p d quiet s1) s2) : Lands region quiet data (p :: ps) s s2

/-- The operators of a reduction on a format that is not complex (R28, R207): integers wrap, floats round RNE, and a sum of OFP8
that overflows is the largest finite value where SAT is set. -/
inductive IsCombine (sat : Bool) : Nat → Nat → (Nat → Nat → Nat) → Prop where
  | addInt {f} (h : f = 0x01 ∨ f = 0x02 ∨ f = 0x03) : IsCombine sat 1 f (fun x y => (x + y) % 2 ^ (8 * fmtSize f))
  | minInt {f} (h : f = 0x01 ∨ f = 0x02 ∨ f = 0x03) :
      IsCombine sat 2 f (fun x y => if signedOf (8 * fmtSize f) y < signedOf (8 * fmtSize f) x then y else x)
  | maxInt {f} (h : f = 0x01 ∨ f = 0x02 ∨ f = 0x03) :
      IsCombine sat 3 f (fun x y => if signedOf (8 * fmtSize f) x < signedOf (8 * fmtSize f) y then y else x)
  | addFloat {f t} (h : (f, t) ∈ [(0x10, fp32), (0x11, fp16), (0x12, bf16)]) : IsCombine sat 1 f (fun x y => (fAdd t rne x y).1)
  | addOfp8 {f t} (h : (f, t) ∈ [(0x13, e4m3), (0x14, e5m2)]) : IsCombine sat 1 f (fun x y =>
      if sat = true ∧ (fAdd t rne x y).2 / 16 % 2 = 1 then fMax t (decide ((fAdd t rne x y).1 / 128 = 1)) else (fAdd t rne x y).1)
  | minFloat {f t} (h : (f, t) ∈ [(0x10, fp32), (0x11, fp16), (0x12, bf16), (0x13, e4m3), (0x14, e5m2)]) :
      IsCombine sat 2 f (fun x y => (fMinMax t false x y).1)
  | maxFloat {f t} (h : (f, t) ∈ [(0x10, fp32), (0x11, fp16), (0x12, bf16), (0x13, e4m3), (0x14, e5m2)]) :
      IsCombine sat 3 f (fun x y => (fMinMax t true x y).1)
  | and (f) : IsCombine sat 4 f (fun x y => x &&& y)
  | or (f) : IsCombine sat 5 f (fun x y => x ||| y)
  | xor (f) : IsCombine sat 6 f (fun x y => x ^^^ y)

/-- A thread once copy `k` has ended (R207, R208): it is outstanding no more, and a tile has entered its FIFO. -/
def copyEnded (k : Nat) (c : Copy) (t : Thread) : Thread :=
  let u := { t with copies := t.copies.take k ++ t.copies.drop (k + 1) }
  let tile : Tile := ⟨tidFmt c.srcTid, tidPlanes c.srcTid, if c.tile = [] then tileData c [] else c.tile⟩
  if c.kind ≠ 2 then u else if c.dst = 0 then { u with fifo0 := u.fifo0 ++ [tile] } else { u with fifo1 := u.fifo1 ++ [tile] }

/-- The bytes of the amplitude 1 + 0i in a state's format (R241). -/
def ampOne : Nat → Bytes
  | 0 => leBytes 4 0x3F800000 ++ leBytes 4 0
  | 1 => leBytes 2 0x3C00 ++ leBytes 2 0
  | 2 => leBytes 4 0x3F800000
  | _ => leBytes 2 0x3F80

/-- A state-vector function with one gate block: its operation and its gate kind (R218, R243, R245). -/
inductive IsGate : Instr → Reg → Reg → Nat → Nat → Prop where
  | svg1 (d a) : IsGate (.svg1 d a) d a 1 1
  | svg2 (d a) : IsGate (.svg2 d a) d a 2 2
  | svph (d a) : IsGate (.svph d a) d a 3 3
  | svswp (d a) : IsGate (.svswp d a) d a 4 4
  | svprob (d a) : IsGate (.svprob d a) d a 6 5

/-! ## Function registers -/

/-- A function register written (R231). -/
def fregSet (s : State) (d : Reg) (f : FReg) : State :=
  s.updTh fun t => { t with freg := Store.put FReg.empty t.freg d.toNat f }

/-- Whether a result of a working length fits the thread's granules beside its other registers (R336). -/
def fits (s : State) (d : Reg) (wl : Nat) : Bool := decide (otherGranules s.th d + (wl + 15) / 16 ≤ s.th.coefQuota)

/-! ## System registers (R74 to R77) -/

/-- What each numbered system register reads as. -/
inductive SysReads : State → Nat → Dword → Prop where
  | part (s) : SysReads s 0x00 (BitVec.ofNat 64 s.th.part)
  | priv (s) : SysReads s 0x01 (s.cur.priv.zeroExtend 64)
  | lserial (s) : SysReads s 0x02 (BitVec.ofNat 64 s.th.serial)
  | cause (s) : SysReads s 0x10 s.cur.cause
  | epc (s) : SysReads s 0x11 s.cur.epc
  | einfo (s) : SysReads s 0x12 s.cur.einfo
  | estream (s) : SysReads s 0x13 s.th.estream
  | eresume (s) : SysReads s 0x14 s.th.eresume
  | tvec (s) : SysReads s 0x18 s.th.tvec
  | vseg (s) : SysReads s 0x20 (BitVec.ofNat 64 (s.th.segBase + (s.th.segSize / 32 - 1) * 2 ^ 16))
  | vbase (s) : SysReads s 0x21 (BitVec.ofNat 64 s.th.wbase)
  | fmode (s) : SysReads s 0x30 (s.cur.fmode.zeroExtend 64)
  | vtype (s) : SysReads s 0x31 (s.cur.vtype.zeroExtend 64)
  | scopetab (s) : SysReads s 0x40 (getPart s s.th.part).scopeVa
  | dig0 (s l) (h : launchOf s s.th = some l) : SysReads s 0x50 l.digLo
  | dig1 (s l) (h : launchOf s s.th = some l) : SysReads s 0x51 l.digHi
  | digref0 (s l) (h : launchOf s s.th = some l) : SysReads s 0x52 l.record.digLo
  | digref1 (s l) (h : launchOf s s.th = some l) : SysReads s 0x53 l.record.digHi
  | usher0 (s) (h : launchOf s s.th = none) : SysReads s 0x50 (getPart s s.th.part).dig0
  | usher1 (s) (h : launchOf s s.th = none) : SysReads s 0x51 (getPart s s.th.part).dig1
  | usherRef0 (s) (h : launchOf s s.th = none) : SysReads s 0x52 (getPart s s.th.part).digRef0
  | usherRef1 (s) (h : launchOf s s.th = none) : SysReads s 0x53 (getPart s s.th.part).digRef1
  | mcword (s) : SysReads s 0x60 s.th.mcword
  | spilla (s) : SysReads s 0x70 s.th.spilla
  | spillx (s) : SysReads s 0x71 s.th.spillx
  | lattol (s) : SysReads s 0x80 (BitVec.ofNat 64 s.health.latTol)
  | tracebuf (s) : SysReads s 0x90 (getPart s s.th.part).trace
  | counter (s n) (lo : 0x200 ≤ n) (hi : n < 0x220) (h : counting (getPart s s.th.part) = true) :
      SysReads s n (Store.get 0 s.counters ((s.th.lcore * 16 + s.th.part) * 256 + n))
  | closed (s n) (lo : 0x200 ≤ n) (hi : n < 0x300) (h : counting (getPart s s.th.part) = false ∨ 0x220 ≤ n) :
      SysReads s n 0

/-- What a write of each numbered system register without a constructor of its own leaves. -/
inductive SysWrites : State → Nat → Dword → State → Prop where
  | part (s v) : SysWrites s 0x00 v (s.updTh fun t => { t with part := v.toNat % 16 })
  | epc (s v) : SysWrites s 0x11 v (s.updCur fun c => { c with epc := v })
  | einfo (s v) : SysWrites s 0x12 v (s.updCur fun c => { c with einfo := v })
  | estream (s v) : SysWrites s 0x13 v (s.updTh fun t => { t with estream := v &&& 1 })
  | eresume (s v) : SysWrites s 0x14 v (s.updTh fun t => { t with eresume := v })
  | tvec (s v) : SysWrites s 0x18 v (s.updTh fun t => { t with tvec := v })
  | digref0 (s v l) (h : launchOf s s.th = some l) : SysWrites s 0x52 v
      (updLaunch s l.serial fun l => { l with record := { l.record with digLo := v } })
  | digref1 (s v l) (h : launchOf s s.th = some l) : SysWrites s 0x53 v
      (updLaunch s l.serial fun l => { l with record := { l.record with digHi := v } })
  | usherRef0 (s v) (h : launchOf s s.th = none) : SysWrites s 0x52 v
      (updPart s s.th.part fun p => { p with digRef0 := v })
  | usherRef1 (s v) (h : launchOf s s.th = none) : SysWrites s 0x53 v
      (updPart s s.th.part fun p => { p with digRef1 := v })
  | mcword (s v) : SysWrites s 0x60 v (s.updTh fun t => { t with mcword := v })
  | spilla (s v) : SysWrites s 0x70 v (s.updTh fun t => { t with spilla := v })
  | spillx (s v) : SysWrites s 0x71 v (s.updTh fun t => { t with spillx := v })
  | tracebuf (s v) : SysWrites s 0x90 v
      (updPart s s.th.part fun p => { p with trace := BitVec.ofNat 64 (v.toNat / 2 ^ 12 % 2 ^ 43 * 2 ^ 12 + v.toNat % 2 ^ 5) })
  | counter (s n v) (lo : 0x200 ≤ n) (hi : n < 0x220) (h : counting (getPart s s.th.part) = true) : SysWrites s n v
      { s with counters := Store.put 0 s.counters ((s.th.lcore * 16 + s.th.part) * 256 + n) v }
  | closed (s n v) (lo : 0x200 ≤ n) (hi : n < 0x300) (h : counting (getPart s s.th.part) = false ∨ 0x220 ≤ n) :
      SysWrites s n v s

/-! ## Groups -/

/-- The state once the issuing thread has itself left its launch's own group (R372). -/
def leftMark (s : State) (va : Dword) : State :=
  match launchOf s s.th with
  | some l => if l.record.group = va.toNat ∧ va ≠ 0 then s.updTh fun t => { t with leftGroup := true } else s
  | none => s

/-- The thread that a name slot's leader names: of the slot's partition (R247, R403). -/
def leaderOf (s : State) (v : NameSlot) : Option Thread :=
  (allThreads s).find? fun t =>
    t.status != .free && some (t.tid % 2 ^ 24) == v.leader && some t.part == v.object.map fun o => o.1

/-! ## Device events -/

/-- The events about the thread of slot `n`. -/
inductive OnSlot : Nat → Instr → Prop where
  | parkedStreamRelease (n q) : OnSlot n (.parkedStreamRelease n q)
  | waitaWake (n) : OnSlot n (.waitaWake n)
  | vwaitWake (n) : OnSlot n (.vwaitWake n)
  | bwaitWake (n) : OnSlot n (.bwaitWake n)
  | bwaitTimeout (n) : OnSlot n (.bwaitTimeout n)
  | qdeadDetection (n) : OnSlot n (.qdeadDetection n)
  | outboundChunkEntry (n) : OnSlot n (.outboundChunkEntry n)
  | streamTransferCompletion (n k) : OnSlot n (.streamTransferCompletion n k)
  | elementGroupStart (n e) : OnSlot n (.elementGroupStart n e)
  | elementGroupWrite (n e) : OnSlot n (.elementGroupWrite n e)
  | matrixRowProcessing (n) : OnSlot n (.matrixRowProcessing n)
  | tileFill (n j) : OnSlot n (.tileFill n j)
  | copyPiece (n k) : OnSlot n (.copyPiece n k)
  | copyCompletion (n k) : OnSlot n (.copyCompletion n k)
  | lateEngineFault (n q) : OnSlot n (.lateEngineFault n q)
  | svopPass (n) : OnSlot n (.svopPass n)
  | conflictConfirmation (n) : OnSlot n (.conflictConfirmation n)
  | threadStopComplete (n) : OnSlot n (.threadStopComplete n)
  | budgetExpiry (n) : OnSlot n (.budgetExpiry n)
  | intg (n) : OnSlot n (.intg n)
  | deverr (n q u va) : OnSlot n (.deverr n q u va)
  | streamEnd (n q) : OnSlot n (.streamEnd n q)

/-- The earlier work of an exiting stream has finished (R258): on A its engines and requests and its late fault, on X its vector
and matrix instructions and a failed self-test. -/
def StreamFinished (s : State) : Strm → Prop
  | .a => s.th.copies = [] ∧ s.th.xfers = [] ∧ s.th.svcmds = [] ∧ (∀ q ∈ s.reqs, q.of s.th = false) ∧ s.th.a.late = none
  | .x => s.th.flying = [] ∧ s.th.resume = [] ∧ s.th.fill0 = false ∧ s.th.fill1 = false ∧ s.th.intg = none ∧
      ∀ j ∈ s.rowq, j.lcore = s.th.lcore → j.slot ≠ s.th.slot

/-- The state once the state-vector engine's own error has stopped the command at work, with its requests; no map and no
completion word is written (R209, R339, R418). -/
def engineStopped (s : State) : State :=
  match s.th.svcmds with
  | [] => s
  | c :: r => { s.updTh fun t => { t with svcmds := r } with
      reqs := s.reqs.filter fun q => !(q.of s.th && q.region == c.region) }

/-- A request of a peer that R401 and R398 let through: of a valid membership entry, inside one of its windows and of
its partition's, with permission bit `b`. -/
def Admitted (s : State) (key : BitVec 16) (pa n b : Nat) (m : Member) : Prop :=
  portTakes pa n = true ∧ memberAt s key.toNat pa n = some m ∧ m.holds pa n = true ∧
    inWindows (getPart s m.part) pa n = true ∧ m.may b = true

/-- The trap that a NACK cause gives an access at an address: cause and EINFO (R402, R418). -/
inductive NackTrap : Nat → Nat → BitVec 8 → Dword → Prop where
  | window (va) : NackTrap 1 va cPROT (BitVec.ofNat 64 va)
  | permission (va) : NackTrap 2 va cPROT (BitVec.ofNat 64 va)
  | error (va) : NackTrap 3 va cECC (BitVec.ofNat 64 va)
  | silent (va) : NackTrap 4 va cDEVERR (BitVec.ofNat 64 (0x08 * 2 ^ 56 + va % 2 ^ 55))

/-- A function's responder changed. -/
def responder (s : State) (fn : Nat) (f : Spdm → Spdm) : State :=
  { s with trust := { s.trust with spdm := Store.put Spdm.reset s.trust.spdm fn (f (Store.get Spdm.reset s.trust.spdm fn)) } }

/-- An answer of a function's responder given (R442). -/
def replied (s : State) (fn : Nat) (b : Bytes) : State := responder s fn fun p => { p with answers := p.answers ++ [b] }

/-- A function's responder changed by the session a message names. -/
def inSessionOf (s : State) (fn : Nat) (m : SpdmMsg) (f : Spdm → Nat → Spdm) : State :=
  match m.session with
  | some j => responder s fn fun p => f p j
  | none => s

/-- An ERROR answer: 1000 where the request is not served, 1001 where it is not valid (R442). -/
def refusedWith (s : State) (fn code : Nat) : State := replied s fn (Config.spdmAnswer code [])

/-- An SPDM request of a function: its code, whether recovery still serves it, and what it changes and answers with
besides SPDM's own fields (R439 to R442, R447). -/
inductive SpdmRequest (fn : Nat) (m : SpdmMsg) : Instr → Nat → Bool → (State → Bytes → State × Bytes) → Prop where
  | getVersion : SpdmRequest fn m (.getVersion fn m) 1 true (fun s _ => (responder s fn fun p => { p with stage := 1 }, []))
  | getCapabilities : SpdmRequest fn m (.getCapabilities fn m) 2 true
      (fun s _ => (responder s fn fun p => { p with stage := max p.stage 2 }, []))
  | negotiateAlgorithms : SpdmRequest fn m (.negotiateAlgorithms fn m) 3 false
      (fun s _ => (responder s fn fun p => { p with stage := max p.stage 3 }, []))
  | getDigests : SpdmRequest fn m (.getDigests fn m) 4 false (fun s _ =>
      (s, leBytes 32 (Config.sha3 (certChain s 0)).toNat ++ leBytes 32 (Config.sha3 (certChain s 1)).toNat))
  | getCertificate : SpdmRequest fn m (.getCertificate fn m) 5 false (fun s b =>
      (s, ((certChain s (field b 0 1 % 16)).drop (field b 2 2)).take (field b 4 2)))
  | challenge : SpdmRequest fn m (.challenge fn m) 6 false (fun s b => (s, Config.mldsaSign s.trust.identity b))
  | getMeasurements : SpdmRequest fn m (.getMeasurements fn m) 7 false
      (fun s _ => (s, s.trust.meas.flatMap fun e => leBytes 1 e.1 ++ leBytes 32 e.2.toNat))
  | keyExchange : SpdmRequest fn m (.keyExchange fn m) 8 false (fun s b =>
      let p := Store.get Spdm.reset s.trust.spdm fn
      if 4 ≤ p.sessions.length then (s, [])
      else
        (responder { s with trust := { s.trust with draws := s.trust.draws + 1 } } fn fun p =>
          { p with sessions := p.sessions ++ [⟨p.nextId, Config.sessionSecret s.trust.draws b, false⟩], nextId := p.nextId + 1 },
          leBytes 2 p.nextId ++ Config.mldsaSign s.trust.identity b))
  | finish : SpdmRequest fn m (.finish fn m) 9 false (fun s _ => (inSessionOf s fn m fun p j =>
      { p with sessions := p.sessions.map fun e => if e.id == j then { e with established := true } else e }, []))
  | keyUpdate : SpdmRequest fn m (.keyUpdate fn m) 10 false (fun s _ => (inSessionOf s fn m fun p j =>
      { p with sessions := p.sessions.map fun e =>
          if e.id == j then { e with secret := Config.sessionSecret 0 e.secret } else e }, []))
  | heartbeat : SpdmRequest fn m (.heartbeat fn m) 11 false (fun s _ => (s, []))
  | endSession : SpdmRequest fn m (.endSession fn m) 12 false (fun s _ => (inSessionOf s fn m fun p j =>
      { p with sessions := p.sessions.filter fun e => e.id != j }, []))
  | vendorChallenge : SpdmRequest fn m (.vendorChallenge fn m) 13 false (fun s _ =>
      ({ s with trust := { s.trust with draws := s.trust.draws + 1, nonce := some (Config.drbg s.trust.draws) } },
        leBytes 32 (Config.drbg s.trust.draws).toNat))

end Sys2Proof.Machine
end

