-- ==== Sys2Proof/Certificates/Slice0/Obligations.lean ====
section
/-! DEFINITION. The statements of this model, for the provers. -/

open Sys2Proof Sys2Proof.Machine

/-! ## Encoding -/

/-- R94 to R113: every well-formed instruction is read back from its own word, every operand at every value. -/
def Obligations.DecodeEncode : Prop :=
  ∀ i : Instr, i.wf = true → instrIsEvent i = false → decode (encode i) = some i

/-- R94 to R113: a word decodes to one instruction at most, whose word it is; that instruction is well formed and none
of the device's own events. -/
def Obligations.EncodeDecode : Prop :=
  ∀ (w : Word) (i : Instr), decode w = some i → encode i = w ∧ i.wf = true ∧ instrIsEvent i = false

/-- Words written out from the spec's own encodings (R116, R119, R124, R131, R138, R141, R143) decode to what they stand
for. -/
def Obligations.DecodeWords : Prop :=
  decode 0x0214307F = some (.sel 5 6 7) ∧ decode 0x1627FFFE = some (.li 9 0x3FFFE) ∧
  decode 0x221C0005 = some (.bz 7 5) ∧ decode 0x31D3FFFC = some (.bq 116 0x3FFFC) ∧
  decode 0x4214201A = some (.vloop 5 4 0 1 10) ∧ decode 0x48500001 = some (.ststep 20 0 0 1) ∧
  decode 0x46007000 = some (.stflg 14 0 0) ∧ decode 0x4C000048 = some (.fmode 0x48) ∧
  decode 0x7E0F8000 = some (.qcnt 3 112) ∧ decode 0 = none ∧ decode 0xFE000000 = none

/-- R102: a word that decodes to nothing takes ILL with the word in EINFO, and so do the words of the major opcodes 0x00
and 0x7F and of every reserved one; nothing else of the word happens. -/
def Obligations.NoInstructionTakesIll : Prop :=
  ∀ (w : Word) (s : State) (op : Nat), op = w.toNat / 2 ^ 25 →
    (decode w = none ∨ op = 0 ∨ op = 0x7F ∨ op = 0x0F ∨ (0x49 ≤ op ∧ op ≤ 0x4F) ∨ (0x63 ≤ op ∧ op ≤ 0x67) ∨
      (0x6D ≤ op ∧ op ≤ 0x6F) ∨ (0x73 ≤ op ∧ op ≤ 0x77) ∨ (0x79 ≤ op ∧ op ≤ 0x7E)) →
    issueWord w s = .next (takeTrap s cILL (w.setWidth 64))

/-! ## The step -/

/-- The stream whose turn it is issues the instruction that the bytes at its PC encode: the step is that instruction's
`exec`, in the state as the fetch leaves it (R92, R94). Where strips overlap, one that would trap waits until the strips
before its own have committed (R273). The turn is the agenda's: log 2. -/
def Obligations.StepRunsDecoded : Prop :=
  ∀ (s u v w : State) (lcore slot : Nat) (q : Strm) (r : Route) (i : Instr),
    TurnOf s lcore slot q u → u.cur.stairPos = none → u.cur.ibuf = [] → resolve u.cur.pc 4 .fetch u = .ok (r, v) →
    r.here v = true → badUnit v r.key 4 = false → decodeBytes (readBytes v r.key 4) = some (i, []) →
    (Unhindered u → step s = exec i v) ∧
    (atBoundary u q = false → exec i v = .next w →
      step s = .next (if w.th.status = u.th.status then w else takePark u .work))

/-- Within the buffer of an active stair the instruction comes from the buffer (R92, R140); one that a peer has sent comes
from its answer (R393). -/
def Obligations.StepRunsStair : Prop :=
  ∀ (s u : State) (lcore slot : Nat) (q : Strm) (i : Instr),
    TurnOf s lcore slot q u → Unhindered u →
    (∀ st b, u.cur.stairPos = some (st, b) → decode (atD 0 b st.words) = some i → step s = exec i u) ∧
    (∀ w, u.cur.stairPos = none → (u.cur.ibuf.find? fun e => e.1 == u.cur.pc) = some (u.cur.pc, w) → decode w = some i →
      step s = exec i u)

/-- Every step of the device answers a next state: no word, no access and no event stops the machine (R101, R102). -/
def Obligations.StepAnswersNext : Prop := ∀ s : State, ∃ t, step s = .next t

/-- Memory keeps its canonical form at every step, so that equal memories are equal data. The form is the model's own. -/
def Obligations.StepKeepsMemory : Prop :=
  ∀ s t : State, Memory.wf s.mem = true → step s = .next t → Memory.wf t.mem = true

/-! ## Traps and parks -/

/-- R78, R79: a trap writes the code to CAUSE, the PC to EPC and the detail to EINFO of the stream that takes it, names
the stream in ESTREAM, and asks a running thread to stop. An usher does not stop, and its A stream goes on at TVEC: the
model's reading of R373 (log 36). -/
def Obligations.TrapEntry : Prop :=
  ∀ (s : State) (c : BitVec 8) (e : Dword),
    (takeTrap s c e).cur.cause = c.setWidth 64 ∧ (takeTrap s c e).cur.epc = s.cur.pc ∧
    (takeTrap s c e).cur.einfo = e ∧
    (takeTrap s c e).cur.pc = (if isUsher s s.th = true ∧ s.strm = .a then s.th.tvec else s.cur.pc) ∧
    (takeTrap s c e).th.estream = (if s.strm = .a then 0 else 1) ∧
    (s.th.status = .running → (takeTrap s c e).th.status = if isUsher s s.th = true then .running else .stopping .trap)

/-- R78, R115: taking a trap changes nothing else of the machine: of the device nothing but memory and its translations, which
a trace record may write, and the counters; of the thread nothing but the trapping stream, ESTREAM, the request to stop and
the confirmations and answers that its instruction waited for, which are dropped; of that stream no general register, loop
context, stair or link stack. Where no trace is granted (R77), no byte of memory changes. -/
def Obligations.TrapFrame : Prop :=
  ∀ (s : State) (c : BitVec 8) (e : Dword),
    { takeTrap s c e with th := s.th, counters := s.counters, mem := s.mem, uce := s.uce, tlb := s.tlb } = s ∧
    { (takeTrap s c e).cur with
      cause := s.cur.cause, epc := s.cur.epc, einfo := s.cur.einfo, pc := s.cur.pc
      park := s.cur.park, exiting := s.cur.exiting, object := s.cur.object, ibuf := s.cur.ibuf, popped := s.cur.popped } = s.cur ∧
    (takeTrap s c e).th.str (otherOf s.strm) = s.th.str (otherOf s.strm) ∧
    { (takeTrap s c e).th with
      a := s.th.a, x := s.th.x, estream := s.th.estream, status := s.th.status
      confirm := s.th.confirm, polled := s.th.polled } = s.th ∧
    (Untraced s → (takeTrap s c e).tlb = s.tlb ∧ (takeTrap s c e).uce = s.uce ∧ (takeTrap s c e).mem = s.mem ∧
      ∀ k, readByte (takeTrap s c e) k = readByte s k)

/-- R101: the checks of an instruction that reaches issue, in their order, WSTR before PROT before WIN; the first that fails
decides the trap, and the instruction does nothing else. An SMB of X whose quad or mask is not 0 is no instruction (R136). -/
def Obligations.DecodeChecks : Prop :=
  ∀ (i : Instr) (s : State) (o : Op) (w : Word) (ops : List Opnd) (level : Nat) (foreign : Prop),
    i.wf = true → w = encode i → opOf w = some o → ops = (opInfo w o).ops → level = (opInfo w o).level →
    (foreign ↔ (opInfo w o).strm = some (otherOf s.strm) ∨ ∃ p ∈ ops, p.streamOk s.strm = false) →
    (o = .smb ∧ s.strm = .x ∧ fA w ≠ 0 → exec i s = .next (takeTrap s cILL (w.setWidth 64))) ∧
    (¬(o = .smb ∧ s.strm = .x ∧ fA w ≠ 0) →
      (foreign → exec i s = .next (takeTrap s cWSTR (w.setWidth 64))) ∧
      (¬foreign → s.cur.priv.toNat < level → exec i s = .next (takeTrap s cPROT (BitVec.ofNat 64 level))) ∧
      (¬foreign → level ≤ s.cur.priv.toNat →
        ∀ (before after : List Opnd) (r : Reg) (n k : Nat), ops = before ++ .vec r n :: after → k < n →
          s.th.segSize ≤ 8 * s.th.wbase + r.toNat + k →
          (∀ j, j < k → 8 * s.th.wbase + r.toNat + j < s.th.segSize) →
          (∀ q m, .vec q m ∈ before → ∀ j, j < m → 8 * s.th.wbase + q.toNat + j < s.th.segSize) →
          exec i s = .next (takeTrap s cWIN
            (BitVec.ofNat 64 ((r.toNat + k) % 128 + (8 * s.th.wbase + (r.toNat + k)) * 256)))))

/-- R80: an instruction that needs a higher level takes PROT with the required level in EINFO, where no earlier check
fails. -/
def Obligations.LevelCheck : Prop :=
  ∀ (i : Instr) (s : State) (o : Op),
    i.wf = true → opOf (encode i) = some o → (o = .smb → s.strm = .a) →
    ((opInfo (encode i) o).strm = none ∨ (opInfo (encode i) o).strm = some s.strm) →
    (∀ p ∈ (opInfo (encode i) o).ops, p.streamOk s.strm = true) →
    s.cur.priv.toNat < (opInfo (encode i) o).level →
    exec i s = .next (takeTrap s cPROT (BitVec.ofNat 64 (opInfo (encode i) o).level))

/-- R251: an instruction that names a held mailbox register parks; only VHOLD replaces the hold, and GMBOX leaves it armed
(R249). -/
def Obligations.HeldRegisterParks : Prop :=
  ∀ (i : Instr) (s : State) (o : Op) (ph : Nat),
    i.wf = true → opOf (encode i) = some o → o ≠ .vhold → o ≠ .gmbox → gate o (encode i) s = none →
    heldName s.th (opInfo (encode i) o).ops = some ph → exec i s = .next (takePark s (.held ph))

/-! ## Scalars -/

/-- R51: what each scalar number that is no port reads as; reading it changes nothing. -/
def Obligations.ScalarReads : Prop :=
  ∀ (s : State) (r : Reg), isPort r = false →
    ∃ v, rd r s = .ok (v, s) ∧
      (r = 0 → v = 0) ∧ (1 ≤ r.toNat → r.toNat ≤ 103 → v = Store.get 0 s.cur.gpr r.toNat) ∧
      (r = 118 → v = s.cur.vl) ∧ (r = 119 → v = s.cur.ftrim) ∧ (r = 120 → v = s.cur.sbase) ∧
      (r = 121 → v = s.cur.seed) ∧
      (r = 122 → v = BitVec.ofNat 64 (s.th.serial * 2 ^ 11 + s.th.lcore * 4 + s.th.slot)) ∧
      (r = 123 → v = BitVec.ofNat 64 s.th.lcore) ∧ (r = 124 → v = s.clock) ∧ (r = 125 → v = s.cur.stat) ∧
      (r = 126 → v = (match s.cur.loop with
        | some l => l.strip
        | none => 0)) ∧
      (r = 127 → v = s.th.tol.zeroExtend 64)

/-- R51, R52: what a write of a scalar that is no port leaves: s0 discards it, a general register, ftrim, sbase and seed
hold it, tol holds its low 32 bits, and every other general register is as it was. -/
def Obligations.ScalarWrites : Prop :=
  ∀ (s : State) (r : Reg) (v : Dword), isPort r = false → roScalar r = false →
    ∃ t, wr r v s = .ok ((), t) ∧
      (r = 0 → t = s) ∧ (1 ≤ r.toNat → r.toNat ≤ 103 → Store.get 0 t.cur.gpr r.toNat = v) ∧
      (r = 119 → t.cur.ftrim = v) ∧ (r = 120 → t.cur.sbase = v) ∧ (r = 121 → t.cur.seed = v) ∧
      (r = 127 → t.th.tol = v.setWidth 32) ∧
      (∀ n, n ≠ r.toNat → Store.get 0 t.cur.gpr n = Store.get 0 s.cur.gpr n) ∧ t.th.q = s.th.q

/-- R53: a port named as a source pops the oldest entry, and an empty queue parks; named as a destination it pushes the
value behind the rest (a branch queue its truth), and a full queue parks. Other queues are as they were. -/
def Obligations.QueuePorts : Prop :=
  ∀ (s : State) (r : Reg) (v : Dword), isPort r = true →
    (s.th.queue r.toNat = [] → rd r s = .error (.park (.pop r.toNat))) ∧
    (∀ l, s.th.queue r.toNat = v :: l →
      ∃ t, rd r s = .ok (v, t) ∧ t.th.queue r.toNat = l ∧ ∀ n, n ≠ r.toNat → t.th.queue n = s.th.queue n) ∧
    ((s.th.queue r.toNat).length = qDepth r.toNat → wr r v s = .error (.park (.push r.toNat))) ∧
    ((s.th.queue r.toNat).length < qDepth r.toNat →
      ∃ t, wr r v s = .ok ((), t) ∧
        t.th.queue r.toNat = s.th.queue r.toNat ++ [if r = 116 ∨ r = 117 then (if v = 0 then 0 else 1) else v] ∧
        ∀ n, n ≠ r.toNat → t.th.queue n = s.th.queue n)

/-- R53, R115: a scalar instruction of any form, one operand or more, immediate, floating, SEL or LI, whose next operand pops
an empty queue, or whose result pushes a full one, parks with nothing changed; what it had popped is back. A floating one
whose result raises an enabled exception traps instead (R123). -/
def Obligations.ScalarParks : Prop :=
  ∀ (i : Instr) (d : Reg) (rs : List Reg) (s s1 : State) (vs : List Dword), ScalarShape i d rs → Ready i s = true →
    (∀ before a after, rs = before ++ a :: after → readAll before s = .ok (vs, s1) → isPort a = true →
      s1.th.queue a.toNat = [] → exec i s = .next (takePark s (.pop a.toNat))) ∧
    (readAll rs s = .ok (vs, s1) → isPort d = true → (s1.th.queue d.toNat).length = qDepth d.toNat →
      (∀ f, IsFloat i d rs f → enabled s.cur.fmode (f (scalarRnd s1) vs).2 = 0) →
      exec i s = .next (takePark s (.push d.toNat)))

/-- R48, R117 to R119: a two-operand scalar instruction reads a, then b, and writes its result to d; a one-operand one, or
an immediate form, reads a; then the next word follows. -/
def Obligations.ScalarResults : Prop :=
  ∀ (i : Instr) (d a b : Reg) (s s1 s2 s3 : State) (x y : Dword),
    Ready i s = true → rd a s = .ok (x, s1) →
    (∀ f : Dword → Dword → Dword, IsBinary i d a b f → rd b s1 = .ok (y, s2) → wr d (f x y) s2 = .ok ((), s3) →
      exec i s = .next (finish s3)) ∧
    (∀ f : Dword → Dword, IsUnary i d a f → wr d (f x) s1 = .ok ((), s2) → exec i s = .next (finish s2))

/-- R117, R119, R144: SEL reads d first, then a and b; LI writes its sign-extended literal; QCNT writes the entries of a
queue; AGET and AGSTR (R186) write an address register and its stride. -/
def Obligations.ScalarMoves : Prop :=
  ∀ (s t : State) (d a b : Reg) (o : BitVec 18),
    (∀ c x y s1 s2 s3, Ready (.sel d a b) s = true → rd d s = .ok (c, s1) → rd a s1 = .ok (x, s2) →
      rd b s2 = .ok (y, s3) → wr d (if c ≠ 0 then x else y) s3 = .ok ((), t) →
      exec (.sel d a b) s = .next (finish t)) ∧
    (Ready (.li d o) s = true → wr d (o.signExtend 64) s = .ok ((), t) → exec (.li d o) s = .next (finish t)) ∧
    (Ready (.qcnt d a) s = true → wr d (BitVec.ofNat 64 (s.th.queue a.toNat).length) s = .ok ((), t) →
      exec (.qcnt d a) s = .next (finish t)) ∧
    (Ready (.aget d a) s = true → wr d (Store.get 0 s.th.areg a.toNat) s = .ok ((), t) →
      exec (.aget d a) s = .next (finish t)) ∧
    (Ready (.agstr d a) s = true → wr d (Store.get 0 s.th.stride a.toNat) s = .ok ((), t) →
      exec (.agstr d a) s = .next (finish t))

/-- R121 to R123: a scalar floating-point instruction reads its sources in order and writes the rounded result; where the
result raises an exception that fmode enables, it takes FPX with the lowest one's place and writes nothing. -/
def Obligations.ScalarFloat : Prop :=
  ∀ (i : Instr) (d : Reg) (rs : List Reg) (f : Rnd → List Dword → FRes) (s s1 s2 : State) (vs : List Dword),
    IsFloat i d rs f → Ready i s = true → readAll rs s = .ok (vs, s1) →
    (enabled s.cur.fmode (f (scalarRnd s1) vs).2 = 0 →
      wr d (BitVec.ofNat 64 (f (scalarRnd s1) vs).1) s1 = .ok ((), s2) → exec i s = .next (finish s2)) ∧
    (enabled s.cur.fmode (f (scalarRnd s1) vs).2 ≠ 0 →
      exec i s = .next (takeTrap s cFPX (fpxInfo (enabled s.cur.fmode (f (scalarRnd s1) vs).2))))

/-- What the scalar instructions leave unchanged where they neither trap nor park: everything but the destination, the
queues they name, the stream's PC and stair, and the counters. -/
def Obligations.ScalarFrame : Prop :=
  ∀ (i : Instr) (d : Reg) (rs : List Reg) (s t : State), ScalarShape i d rs → exec i s = .next t →
    (∃ c e, t = takeTrap s c e) ∨ (∃ p, t = takePark s p) ∨ ScalarKept d rs s t

/-! ## Control -/

/-- R124, R125: a branch on a value goes to its own address plus four times its offset where its condition holds, and on
to the next word where it does not; BQ pops the outcome it tests. -/
def Obligations.Branches : Prop :=
  ∀ (i : Instr) (src : Option Reg) (p : Dword → Bool) (o : BitVec 18) (s s1 : State) (v : Dword),
    IsBranch i src p o → Ready i s = true →
    (∀ c, src = some c → rd c s = .ok (v, s1)) → (src = none → s1 = s) →
    exec i s = .next (if p v then jumped (s.cur.pc + o.signExtend 64 * 4) s1 else finish s1)

/-- R126, R127: BANY and BNONE test the predicate's bits below vl; BEND tests the end flag of the inbound stream its
register is bound to. -/
def Obligations.VectorBranches : Prop :=
  ∀ (c : Reg) (o : BitVec 18) (s : State),
    (Ready (.bany c o) s = true →
      exec (.bany c o) s = .next (if ∃ k, k < 2048 ∧ k < s.cur.vl.toNat ∧ (predVal s.th c.toNat).getLsbD k = true
        then jumped (s.cur.pc + o.signExtend 64 * 4) s else finish s)) ∧
    (Ready (.bnone c o) s = true →
      exec (.bnone c o) s = .next (if ∃ k, k < 2048 ∧ k < s.cur.vl.toNat ∧ (predVal s.th c.toNat).getLsbD k = true
        then finish s else jumped (s.cur.pc + o.signExtend 64 * 4) s)) ∧
    (∀ j, Ready (.bend c o) s = true → boundTo s.th (phys s.th c 0) = some j → j ≤ 7 →
      exec (.bend c o) s = .next (if (s.th.vstream j).held = true
        then jumped (s.cur.pc + o.signExtend 64 * 4) s else finish s)) ∧
    (Ready (.bend c o) s = true → boundTo s.th (phys s.th c 0) = none →
      exec (.bend c o) s = .next (takeTrap s cILL ((encode (.bend c o)).setWidth 64)))

/-- R66, R128, R129: CALL pushes the address of the next word on the link stack and branches; RET continues at the newest
address and drops it, and takes ILL of an empty stack; JR continues at an aligned address and leaves the stack alone. With
16 entries in hardware a CALL spills the oldest one to the spill area, and with 144 in use takes LSO; a RET that pops the
last hardware entry brings the newest spilled one back. -/
def Obligations.LinkStack : Prop :=
  ∀ (s : State),
    (∀ o, Ready (.call o) s = true → s.cur.link.length < 16 →
      exec (.call o) s = .next (jumped (s.cur.pc + o.signExtend 64 * 4)
        (s.updCur fun c => { c with link := (s.cur.pc + 4) :: c.link }))) ∧
    (∀ ra l, Ready .ret s = true → s.cur.link = ra :: l → (l = [] → s.cur.spill = 0) →
      exec .ret s = .next (jumped ra (s.updCur fun c => { c with link := l }))) ∧
    (Ready .ret s = true → s.cur.link = [] → exec .ret s = .next (takeTrap s cILL 0x2C000000)) ∧
    (∀ a v s1, Ready (.jr a) s = true → rd a s = .ok (v, s1) → v.toNat % 4 = 0 →
      exec (.jr a) s = .next (jumped v s1)) ∧
    (∀ a v s1, Ready (.jr a) s = true → rd a s = .ok (v, s1) → v.toNat % 4 ≠ 0 →
      exec (.jr a) s = .next (takeTrap s cALIGN v)) ∧
    (∀ o, Ready (.call o) s = true → 16 ≤ s.cur.link.length → s.cur.spill < 128 →
      exec (.call o) s = .next (jumped (s.cur.pc + o.signExtend 64 * 4)
        ((writeLE s (spillPlace s s.cur.spill) 8 (atD 0 15 s.cur.link).toNat).updCur fun c =>
          { c with link := (s.cur.pc + 4) :: c.link.take 15, spill := c.spill + 1 }))) ∧
    (∀ o, Ready (.call o) s = true → 16 ≤ s.cur.link.length → 128 ≤ s.cur.spill →
      exec (.call o) s = .next (takeTrap s cLSO (if s.strm = .a then s.th.spilla else s.th.spillx))) ∧
    (∀ ra, Ready .ret s = true → s.cur.link = [ra] → s.cur.spill ≠ 0 →
      exec .ret s = .next (jumped ra (s.updCur fun c =>
        { c with
          link := [BitVec.ofNat 64 (readLE s (spillPlace s (s.cur.spill - 1)) 8)]
          spill := s.cur.spill - 1 })))

/-- R130: TRAP takes SWT with its code in EINFO and its own address in EPC; NOP and YIELD only move on, and with a code
they are no instructions; R145: QDRAIN moves on once its queue is empty, and takes QDEAD in the stream that pops it. -/
def Obligations.TrapNopYieldDrain : Prop :=
  ∀ (s : State),
    (∀ c t, Ready (.trap c) s = true → t = takeTrap s cSWT (c.zeroExtend 64) →
      exec (.trap c) s = .next t ∧ t.cur.cause = 0x13 ∧ t.cur.einfo = c.zeroExtend 64 ∧ t.cur.epc = s.cur.pc) ∧
    encode .nop = 0x1D#7 ++ 0#25 ∧ encode .yield = 0x1E#7 ++ 0#25 ∧ (∀ c, encode (.trap c) = 0x1F#7 ++ c) ∧
    (∀ w : Word, (w.toNat / 2 ^ 25 = 0x1D ∨ w.toNat / 2 ^ 25 = 0x1E) → w.toNat % 2 ^ 25 ≠ 0 →
      issueWord w s = .next (takeTrap s cILL (w.setWidth 64))) ∧
    (Ready .nop s = true → exec .nop s = .next (finish s)) ∧
    (Ready .yield s = true → exec .yield s = .next (finish s)) ∧
    (∀ a, Ready (.qdrain a) s = true → s.th.queue a.toNat = [] → exec (.qdrain a) s = .next (finish s)) ∧
    (∀ a, Ready (.qdrain a) s = true → s.th.queue a.toNat ≠ [] →
      exec (.qdrain a) s = .next (if pops s.strm a.toNat then takeTrap s cQDEAD (BitVec.ofNat 64 (2 ^ (a.toNat - 104)))
        else takePark s (.drain a.toNat)))

/-! ## Grants, loops and stairs -/

/-- R132: a grant never exceeds what remains, VLMAX or the arm limit; where it is not the last and D is in force, it ends
on a multiple of 256 elements from the start of the context, if it reaches one. -/
def Obligations.GrantBounds : Prop :=
  ∀ (vt rem done arm : Nat) (d : Bool),
    grant vt rem done arm d ≤ rem ∧ grant vt rem done arm d ≤ vlmax vt ∧ grant vt rem done arm d ≤ arm ∧
    (rem ≠ 0 → arm ≠ 0 → 0 < grant vt rem done arm d) ∧
    (d = false → grant vt rem done arm d = min rem (min (vlmax vt) arm)) ∧
    (d = true → min rem (min (vlmax vt) arm) < rem →
      (done + grant vt rem done arm d) % 256 = 0 ∨
        (grant vt rem done arm d = min rem (min (vlmax vt) arm) ∧
          (done + grant vt rem done arm d) / 256 * 256 ≤ done))

/-- R133, R134: VLGET sets vtype and writes the grant to vl and d; VLOOP also opens a loop context whose body is the next
word; whether its strips may overlap is settled from the body (R273). Both consume the arm limit. -/
def Obligations.GrantsAndLoops : Prop :=
  ∀ (s s1 s2 : State) (d a : Reg) (j k : BitVec 1) (t : BitVec 4) (n : Dword) (g : Nat),
    g = grant t.toNat n.toNat 0 s.cur.arm.toNat (k == 1 || launchFlag s1 s1.th 0) → rd a s = .ok (n, s1) →
    (Ready (.vlget d a k t) s = true →
      wr d (BitVec.ofNat 64 g) (s1.updCur fun c =>
        { c with vtype := t, arm := BitVec.allOnes 64, vl := BitVec.ofNat 64 g }) = .ok ((), s2) →
      exec (.vlget d a k t) s = .next (finish s2)) ∧
    (Ready (.vloop d a j k t) s = true →
      wr d (BitVec.ofNat 64 g) (s1.updCur fun c =>
        { c with
          vtype := t, arm := BitVec.allOnes 64, vl := BitVec.ofNat 64 g
          loop := some ⟨s.cur.pc + 4, n, 0, k == 1 || launchFlag s1 s1.th 0, j == 1,
            if j == 1 && s.strm == .x && bodyOverlaps s1 (s.cur.pc + 4) 9 (s.cur.pc + 4) then some 0 else none⟩ }) =
        .ok ((), s2) →
      exec (.vloop d a j k t) s = .next (finish s2))

/-- R136: SMB retires the strip: the masked address registers advance by vl strides, sbase and done by vl, and strip falls
by vl modulo 2^64 (R10); with strip above 0 it grants the next strip and branches, also where the grant is 0, and at 0 it
writes 0, closes the context and goes on. With no context open it takes ILL, and in X it takes ILL with any bit of its quad
or mask set. Where strips overlap the next one begins, and SMB waits for the oldest where four are in flight, or at the end
for all of them; a result pushed behind strips in flight waits for them, once its queue has room (R273). That a grant of 0
keeps the context is the model's reading (log 34). -/
def Obligations.StripMine : Prop :=
  (∀ (s : State) (d : Reg) (k : BitVec 3) (m : BitVec 4) (o : BitVec 11),
    (Ready (.smb d k m o) s = true ∧ s.cur.loop = none ∨ s.strm = .x ∧ (k ≠ 0 ∨ m ≠ 0)) →
    exec (.smb d k m o) s = .next (takeTrap s cILL ((encode (.smb d k m o)).setWidth 64))) ∧
  ∀ (s s1 s2 : State) (d : Reg) (k : BitVec 3) (m : BitVec 4) (o : BitVec 11) (l : LoopCtx),
    Ready (.smb d k m o) s = true → s.cur.loop = some l →
    (stripsWait s (l.strip == s.cur.vl) = true → exec (.smb d k m o) s = .next (takePark s .work)) ∧
    (stripsWait s (l.strip == s.cur.vl) = false →
      s1 = (s.updTh fun t => (List.range 4).foldl (fun t j =>
        if m.getLsbD j then
          t.setAr (4 * k.toNat + j) (t.ar (BitVec.ofNat 7 (4 * k.toNat + j)) +
            s.cur.vl * t.arStride (BitVec.ofNat 7 (4 * k.toNat + j)))
        else t) t).updCur (fun c => { c with sbase := c.sbase + s.cur.vl }) →
      (l.strip ≠ s.cur.vl →
        ∀ (g : Nat) (tgt : Dword) (num : Option Nat) (s3 : State) (owing : Bool),
        g = grant s.cur.vtype.toNat (l.strip - s.cur.vl).toNat (l.done + s.cur.vl).toNat s.cur.arm.toNat l.dflag →
        tgt = s.cur.pc + o.signExtend 64 * 4 → num = (if s.strm = .x then l.stripNum else none) →
        s3 = (s1.updCur fun c =>
          { c with
            vl := BitVec.ofNat 64 g, arm := BitVec.allOnes 64
            loop := some { l with strip := l.strip - s.cur.vl, done := l.done + s.cur.vl } }) →
        owing = (isPort d && num.isSome && !s.th.idle) →
        (owing = false → wr d (BitVec.ofNat 64 g) s3 = .ok ((), s2) →
          exec (.smb d k m o) s = .next (retire (stripBegun num none
            ((traceRec s2 s2.th 1 s2.strm s2.cur.pc tgt.toNat).updCur fun c => { c with pc := tgt })))) ∧
        (owing = true →
          let owed := s.th.strips.countP fun q => q.push.any fun p => p.1 == d.toNat
          ((s.th.queue d.toNat).length + owed < qDepth d.toNat →
            exec (.smb d k m o) s = .next (retire (stripBegun num
              (some (d.toNat, if d = 116 ∨ d = 117 then (if g = 0 then 0 else 1) else BitVec.ofNat 64 g))
              ((traceRec s3 s3.th 1 s3.strm s3.cur.pc tgt.toNat).updCur fun c => { c with pc := tgt })))) ∧
          (qDepth d.toNat ≤ (s.th.queue d.toNat).length + owed →
            exec (.smb d k m o) s = .next (takePark s (.push d.toNat))))) ∧
      (l.strip = s.cur.vl →
        wr d 0 (s1.updCur fun c => { c with vl := 0, loop := none }) = .ok ((), s2) →
        exec (.smb d k m o) s = .next (finish s2)))

/-- R92, R138, R139: STAIR reads the counts and strides, checks its buffer, takes up the pending configuration and starts
the first replay, or skips the buffer where a count is 0. -/
def Obligations.StairBegins : Prop :=
  ∀ (s s1 : State) (d a : Reg) (l : BitVec 6) (f : BitVec 3) (words : List Word) (len m : Nat) (counts : List Nat),
    Ready (.stair d a l f) s = true → len = (if l = 0 then 64 else l.toNat) → m = s.cur.pend.stepped.length →
    (m = 0 → Opnd.ok (.src a) = true ∧ Opnd.streamOk s.strm (.src a) = true) →
    (m ≠ 0 → 1 ≤ a.toNat ∧ a.toNat + f.toNat * m ≤ 104) →
    (∀ e, sectionEnd s s.cur.pc.toNat = some e → s.cur.pc.toNat + 4 + 4 * len ≤ e) →
    bufferWords len (s.cur.pc + 4) s = .ok (words, s1) →
    counts = ((List.range f.toNat).map fun g => (Store.get 0 s.cur.gpr (d.toNat + g)).toNat) →
    (∀ n ∈ counts, n < 2 ^ 32) →
    (0 ∈ counts → exec (.stair d a l f) s = .next (retire (s1.updCur fun c =>
      { c with pend := ⟨[], []⟩, pc := s.cur.pc + 4 + BitVec.ofNat 64 (4 * len), stair := none }))) ∧
    (0 ∉ counts →
      ∀ t : Stair, t = ⟨s.cur.pc + 4, words,
          (List.range f.toNat).map (fun g =>
            ⟨atD 0 g counts, 0, pendMask s.cur.pend g false, pendMask s.cur.pend g true⟩),
          s.cur.pend.stepped,
          (List.range (f.toNat * m)).map fun k => Store.get 0 s.cur.gpr (a.toNat + k)⟩ →
      exec (.stair d a l f) s = .next (retire (s1.updCur fun c =>
        enterReplay t.replays { c with pend := ⟨[], []⟩ } t)))

/-- R139, R141: STFLG sets one pending mask and STSTEP the pending scalars; WBASE moves the window of X (in A it only
checks), FMODE the mode, SCOPE the scope id, VMASK the governing predicate; R186: the address-register forms. -/
def Obligations.ModalSettings : Prop :=
  ∀ (s s1 : State) (a b d : Reg) (v : Dword),
    (∀ k f, Ready (.stflg a k f) s = true → rd a s = .ok (v, s1) →
      exec (.stflg a k f) s = .next (finish (s1.updCur fun c =>
        { c with pend := { c.pend with
            masks := ((f.toNat, k == 1), v) :: c.pend.masks.filter fun e => e.1 != (f.toNat, k == 1) } }))) ∧
    (∀ m, Ready (.ststep d a b m) s = true →
      exec (.ststep d a b m) s = .next (finish (s.updCur fun c =>
        { c with pend := { c.pend with stepped := [d, a, b].take m.toNat } }))) ∧
    (∀ w, Ready (.wbase w) s = true → 8 * w.toNat < s.th.segSize →
      exec (.wbase w) s = .next (finish (if s.strm = .x then s.updTh fun t => { t with wbase := w.toNat } else s))) ∧
    (∀ w, Ready (.wbase w) s = true → s.th.segSize ≤ 8 * w.toNat →
      exec (.wbase w) s = .next (takeTrap s cWIN (BitVec.ofNat 64 (8 * w.toNat * 256 + 128)))) ∧
    (∀ m, Ready (.fmode m) s = true →
      exec (.fmode m) s = .next (finish (s.updCur fun c => { c with fmode := m }))) ∧
    (∀ i, Ready (.scope i) s = true →
      exec (.scope i) s = .next (finish (s.updTh fun t => { t with scope := i }))) ∧
    (∀ p, Ready (.vmask p) s = true →
      exec (.vmask p) s = .next (finish (s.updTh fun t => { t with gpred := p }))) ∧
    (Ready (.aset d a) s = true → rd a s = .ok (v, s1) →
      exec (.aset d a) s = .next (finish (s1.updTh fun t => { t with areg := Store.put 0 t.areg d.toNat v }))) ∧
    (Ready (.astr d a) s = true → rd a s = .ok (v, s1) →
      exec (.astr d a) s = .next (finish (s1.updTh fun t => { t with stride := Store.put 0 t.stride d.toNat v }))) ∧
    (Ready (.aadd d a) s = true → rd a s = .ok (v, s1) →
      exec (.aadd d a) s = .next (finish (s1.updTh fun t =>
        { t with areg := Store.put 0 t.areg d.toNat (Store.get 0 t.areg d.toNat + v) })))

/-! ## Memory -/

/-- R180: an access that is not aligned to its size takes ALIGN with the address in EINFO, and nothing of it happens: a load or
store of 2, 4 or 8 bytes, an atomic, a CAS, a wait, a barrier access (16 bytes), a gather or scatter, a stream transfer at
its element width and a slice at that of its record (2 KiB for NI8). An earlier check of its own entry comes first. -/
def Obligations.MisalignedAccess : Prop :=
  (∀ (i : Instr) (d a : Reg) (off : BitVec 11) (n : Nat) (k : Cls) (s : State),
    Ready i s = true → (eaOf s a off).toNat % n ≠ 0 →
    (IsLoad i d a off n k → exec i s = .next (takeTrap s cALIGN (eaOf s a off))) ∧
    (IsStore i d a off n k → (∃ v s1, rd d s = .ok (v, s1)) → exec i s = .next (takeTrap s cALIGN (eaOf s a off)))) ∧
  ∀ (i : Instr) (a : Reg) (s s1 : State) (va : Dword), Ready i s = true → va = Store.get 0 s.th.areg a.toNat →
    (∀ n rs vs, IsAligned i a n rs → va.toNat % n ≠ 0 → readAll rs s = .ok (vs, s1) →
      (∀ f, s.cur.freed = some f → f.1 ≠ s.cur.pc) →
      (∀ d b op k, IsAmo i d a b op n k → n = 4 ∨ op = .fadd64 → launchFlag s s.th 0 = false) →
      exec i s = .next (takeTrap s cALIGN va)) ∧
    (∀ b c, IsArrival i a b → va.toNat % 16 ≠ 0 → rd b s = .ok (c, s1) → 1 ≤ c.toNat → c.toNat ≤ 65535 →
      exec i s = .next (takeTrap s cALIGN va)) ∧
    (∀ d, i = .sload d a ∨ i = .sloadTrim d a → roomIn s d.toNat = true →
      va.toNat % (vwidth s.cur.vtype.toNat / 8) ≠ 0 → exec i s = .next (takeTrap s cALIGN va)) ∧
    (∀ d c l, i = .sstore d a ∨ i = .sstoreTrim d a → (s.th.vstream d.toNat).chunks = c :: l →
      c.count * (vwidth s.cur.vtype.toNat / 8) ≤ 2048 → va.toNat % (vwidth s.cur.vtype.toNat / 8) ≠ 0 →
      exec i s = .next (takeTrap s cALIGN va)) ∧
    (∀ d b x tr n z, rd b s = .ok (x, s1) → x.toNat < 256 →
      tr = Store.get (List.replicate 32 0) (getPart s s.th.part).tids x.toNat → tidFmt tr ≠ 0 → n = s.cur.vl.toNat →
      z = (if tidFmt tr = 0x20 then 2048 else fmtSize (tidFmt tr)) → va.toNat % z ≠ 0 →
      (tidFmt tr = 0x20 → s.cur.sbase.toNat % 2048 + n ≤ 2048 ∧ (tidBlk tr ≠ 5 ∨ tidPlanes tr * 256 ≤ 0x600)) →
      (tidFmt tr ≠ 0x20 → n ≤ 2048 / z ∧ (tidBlk tr ≠ 5 ∨ n * z ≤ 0x600)) →
      (i = .sloadSlice d a b → roomIn s1 d.toNat = true → exec i s = .next (takeTrap s cALIGN va)) ∧
      (i = .sstoreSlice d a b → tidFmt tr ≠ 0x20 → (s1.th.vstream d.toNat).chunks ≠ [] →
        exec i s = .next (takeTrap s cALIGN va)))

/-- R184, R185: a load that this device answers writes the bytes at its address, zero-extended, to d; one within a table
that firmware shows an usher (R371, R383) writes the table's bytes. That it does so in one step is the model's choice
(log 8). -/
def Obligations.Loads : Prop :=
  ∀ (i : Instr) (d a : Reg) (off : BitVec 11) (n : Nat) (k : Cls) (s s1 s2 : State) (r : Route),
    IsLoad i d a off n k → Ready i s = true → awaitingReply s = false →
    opened (eaOf s a off) n .read k false s = .ok (r, s1) → r.here s1 = true → (r.mode = 7 ∨ badUnit s1 r.key n = false) →
    wr d (BitVec.ofNat 64 (shownAt s1 r n)) (hasRead s1 r n) = .ok ((), s2) →
    exec i s = .next (finish s2)

/-- R184, R185, R389: a store to this device puts the low bytes of d at its address, lowest first; every other byte of
memory, and in the partition's translation block every field that software does not write, is as it was. -/
def Obligations.Stores : Prop :=
  ∀ (i : Instr) (d a : Reg) (off : BitVec 11) (n : Nat) (k : Cls) (s s1 s2 : State) (r : Route) (v : Dword),
    IsStore i d a off n k → Ready i s = true → rd d s = .ok (v, s1) →
    opened (eaOf s a off) n .write k true s1 = .ok (r, s2) → r.mode = 0 → badMerge s2 r.key n = false →
    ∃ t, exec i s = .next t ∧
      ∀ j, readByte t j =
        if r.key ≤ j ∧ j < r.key + n ∧ ¬(isMain r.key = true ∧ blockField (getPart s s.th.part) j = true)
        then BitVec.ofNat 8 (v.toNat / 256 ^ (j - r.key)) else readByte s j

/-- R187, R188: an atomic on this device reads its word, writes the combined value and returns the old one, zero-extended;
CAS writes the new value where the word equals the expected one, and returns the old word either way; one that writes
nothing stands as its acquire half alone (R183). -/
def Obligations.Atomics : Prop :=
  (∀ (i : Instr) (d a b : Reg) (op : RmwOp) (n : Nat) (k : Cls) (s s1 s2 s3 : State) (r : Route) (v : Dword),
    IsAmo i d a b op n k → Ready i s = true → (n = 4 ∨ op = .fadd64 → launchFlag s s.th 0 = false) →
    rd b s = .ok (v, s1) → awaitingReply s = false →
    opened (Store.get 0 s.th.areg a.toNat) n .atomic k true s1 = .ok (r, s2) → r.mode = 0 → badUnit s2 r.key n = false →
    wr d (BitVec.ofNat 64 (readLE s r.key n))
      (rmwDone s2 r n (amoNew op (readLE s r.key n) (v.toNat % 2 ^ (8 * n))) true) = .ok ((), s3) →
    exec i s = .next (finish s3)) ∧
  ∀ (d a b : Reg) (w o : BitVec 2) (n : Nat) (hit : Bool) (s s1 s2 s3 s4 : State) (r : Route) (e v : Dword),
    Ready (.cas d a b w o) s = true → n = (if w = 1 then 8 else 4) →
    rd d s = .ok (e, s1) → rd b s1 = .ok (v, s2) → awaitingReply s = false →
    openedCas (Store.get 0 s.th.areg a.toNat) n (casClass o hit) hit s2 = .ok (r, s3) → r.mode = 0 →
    hit = (readLE s r.key n == e.toNat % 2 ^ (8 * n)) → badUnit s3 r.key n = false →
    wr d (BitVec.ofNat 64 (readLE s r.key n)) (rmwDone s3 r n (v.toNat % 2 ^ (8 * n)) hit) = .ok ((), s4) →
    exec (.cas d a b w o) s = .next (finish s4)

/-- R183, R189: a FENCE whose waits are over is a region boundary and moves on; with E set it waits for the thread's
engine transfers. R190, R196: a WAITA whose word meets its condition writes the word to d and 0 to stat; a VWAIT whose
producer is ahead writes how many elements there are and lowers the arm limit. Each is an acquire. What a FENCE waits for
is the model's reading (log 15). -/
def Obligations.FencesAndWaits : Prop :=
  (∀ (e : BitVec 1) (k : BitVec 2) (s s1 : State),
    Ready (.fence e k) s = true →
    (boundary s = .ok ((), s1) → (k = 0 ∨ storesOut s = false) → (e = 0 ∨ enginesDone s) →
      exec (.fence e k) s = .next (finish s1)) ∧
    ((k = 0 ∨ storesOut s = false) → e = 1 → ¬enginesDone s →
      exec (.fence e k) s = .next (takePark s .work))) ∧
  ∀ (d a b : Reg) (s s1 s2 s3 s4 : State) (bs : Bytes) (x : Dword),
    (∀ (w : BitVec 1) (c : BitVec 2) (n : Nat), Ready (.waita d a w c) s = true → n = (if w = 1 then 8 else 4) →
      (Store.get 0 s.th.areg a.toNat).toNat % n = 0 →
      readBlock (Store.get 0 s.th.areg a.toNat) n .waita s = .ok (bs, s1) →
      rd d (s1.updTh fun t => { t with polled := [] }) = .ok (x, s2) →
      (if c = 0 then leNat bs = x.toNat % 2 ^ (8 * n) else if c = 1 then leNat bs ≠ x.toNat % 2 ^ (8 * n)
        else if c = 2 then x.toNat % 2 ^ (8 * n) ≤ leNat bs else leNat bs < x.toNat % 2 ^ (8 * n)) →
      boundary s2 = .ok ((), s3) → wr d (BitVec.ofNat 64 (leNat bs)) s3 = .ok ((), s4) →
      exec (.waita d a w c) s = .next (finish (s4.updCur fun u => { u with stat := 0 }))) ∧
    (∀ k, Ready (.vwait d a b) s = true → (Store.get 0 s.th.areg a.toNat).toNat % 8 = 0 →
      readBlock (Store.get 0 s.th.areg a.toNat) 8 .vwait s = .ok (bs, s1) →
      rd b (s1.updTh fun t => { t with polled := [] }) = .ok (x, s2) →
      (s1.cur.sbase.toNat < leNat bs % 2 ^ 63 ∨ leNat bs / 2 ^ 63 % 2 = 1) →
      k = (if s1.cur.sbase.toNat < leNat bs % 2 ^ 63 then min x.toNat (leNat bs % 2 ^ 63 - s1.cur.sbase.toNat) else 0) →
      boundary s2 = .ok ((), s3) →
      wr d (BitVec.ofNat 64 k) (s3.updCur fun u => { u with arm := BitVec.ofNat 64 (min u.arm.toNat k) }) = .ok ((), s4) →
      exec (.vwait d a b) s = .next (finish (s4.updCur fun u => { u with stat := 0 })))

/-- R193 to R195: an arrival at an object is refused where it is dissolved, counted, completes the phase, or overruns. BARR and
BARRT apply one and report it; BARRT goes on to BOVR on an overrun, with the next word in EPC; BINIT writes a fresh object, BDISS dissolves one and wakes those that wait on it; BWAIT ends on a
dissolved object, another phase or its deadline, and one that a BDISS woke reports the phase before. That an object with a
nonzero reserved field stands as dissolved is the model's choice (log 72). -/
def Obligations.Barriers : Prop :=
  (∀ (o : Barrier) (c tid : Nat) (gone : Prop), (gone ↔ o.dis = true ∨ o.exp = 0 ∨ o.res ≠ 0 ∨ 2 ^ 24 ≤ o.last) →
    (gone → arrive o c tid = (o, 3)) ∧
    (¬gone → o.arr + c < o.exp →
      arrive o c tid = ({ o with arr := o.arr + c, tot := (o.tot + c) % 2 ^ 32 }, 0)) ∧
    (¬gone → o.arr + c = o.exp →
      arrive o c tid =
        ({ o with arr := 0, ph := (o.ph + 1) % 16, tot := (o.tot + c) % 2 ^ 32, last := tid % 2 ^ 24 }, 1)) ∧
    (¬gone → o.exp < o.arr + c →
      arrive o c tid = ({ o with ovr := true, oth := if o.ovr then o.oth else tid % 2 ^ 24 }, 2))) ∧
  ∀ (d a b : Reg) (s s1 s2 s3 s4 : State) (r : Route) (c : Dword) (va : Dword) (o : Barrier) (q : Barrier × Nat),
    va = Store.get 0 s.th.areg a.toNat →
    (rd b s = .ok (c, s1) → 1 ≤ c.toNat → c.toNat ≤ 65535 → barrierAt va s1 = .ok (r, s2) →
      o = Barrier.ofNat (readLE s2 r.key 16) → q = arrive o c.toNat s.th.tid →
      s3 = putAt (atomicSite s2 s2.th r) s2.th.part r.key (leBytes 16 q.1.toNat) →
      wr d (BitVec.ofNat 64 (q.1.arr * 65536 + o.ph * 16 + q.2)) s3 = .ok ((), s4) →
      (Ready (.barr d a b) s = true →
        exec (.barr d a b) s = .next (finish (s4.updCur fun u => { u with stat := BitVec.ofNat 64 q.2 }))) ∧
      (Ready (.barrt d a b) s = true →
        exec (.barrt d a b) s = .next
          (if q.2 = 2 then takeTrap (finish (s4.updCur fun u => { u with stat := BitVec.ofNat 64 q.2 })) cBOVR va
            else finish (s4.updCur fun u => { u with stat := BitVec.ofNat 64 q.2 })))) ∧
    (Ready (.binit d a b) s = true → rd b s = .ok (c, s1) → 1 ≤ c.toNat → c.toNat ≤ 65535 →
      opened va 16 .write .release true s1 = .ok (r, s2) → r.mode = 0 → badMerge s2 r.key 16 = false →
      wr d 0 (putAt (siteRecall (countReq s2) r.key 16) s2.th.part r.key (leBytes 16 (c.toNat * 2 ^ 112))) = .ok ((), s3) →
      exec (.binit d a b) s = .next (finish (s3.updCur fun u => { u with stat := 0 }))) ∧
    (Ready (.bdiss d a) s = true → barrierAt va s = .ok (r, s1) →
      o = Barrier.ofNat (readLE s1 r.key 16) →
      wr d 0 (wakeBwaits (putAt (atomicSite s1 s1.th r) s1.th.part r.key (leBytes 16 { o with exp := 0, dis := true }.toNat))
        r.key o.ph) = .ok ((), s2) →
      exec (.bdiss d a) s = .next (finish (s2.updCur fun u => { u with stat := 0 }))) ∧
    (∀ t bound, Ready (.bwait d a b) s = true → rd d s = .ok (t, s1) → rd b s1 = .ok (bound, s2) →
      (∀ ph, s.cur.freed = some (s.cur.pc, ph) → boundary s2 = .ok ((), s3) →
        wr d (BitVec.ofNat 64 (ph * 16 + 2)) s3 = .ok ((), s4) →
        exec (.bwait d a b) s = .next (finish (s4.updCur fun u => { u with stat := 4 }))) ∧
      (∀ code st s5 dl bs, (∀ f, s.cur.freed = some f → f.1 ≠ s.cur.pc) → va.toNat % 16 = 0 →
        dl = (match s.cur.deadline with
          | some e => some e
          | none => if bound = BitVec.allOnes 64 then none else some (s.clock + bound)) →
        readBlock va 16 .bwait (s2.updCur fun u => { u with deadline := dl }) = .ok (bs, s3) → o = Barrier.ofNat (leNat bs) →
        (if o.void = true then code = 2 ∧ st = 4
          else if o.ph ≠ t.toNat % 16 then code = 0 ∧ st = 0
          else (∃ e, dl = some e ∧ e.toNat ≤ s.clock.toNat) ∧ code = 1 ∧ st = 2) →
        boundary s3 = .ok ((), s4) → wr d (BitVec.ofNat 64 (o.ph * 16 + code)) s4 = .ok ((), s5) →
        exec (.bwait d a b) s = .next (finish (s5.updCur fun u => { u with stat := BitVec.ofNat 64 st }))))

/-- What loads, stores, atomics and CAS that complete leave unchanged, memory apart: every other register of the thread and
of both streams, and every other part of the device but the translations, replica frames' order of use, leases, stamps,
counters and digest that the access itself goes through. Of memory, every byte that the access does not store to. -/
def Obligations.AccessFrame : Prop :=
  ∀ (i : Instr) (d a : Reg) (off : BitVec 11) (n : Nat) (k : Cls) (s s1 : State) (r : Route),
    Ready i s = true →
    (IsLoad i d a off n k → awaitingReply s = false →
      opened (eaOf s a off) n .read k false s = .ok (r, s1) → r.here s1 = true → (r.mode = 7 ∨ badUnit s1 r.key n = false) →
      ∀ t, exec i s = .next t → (∃ p, t = takePark s p) ∨ (AccessKept d [] s t ∧ ∀ j, readByte t j = readByte s j)) ∧
    (IsStore i d a off n k → ∀ v s2, rd d s = .ok (v, s2) → opened (eaOf s a off) n .write k true s2 = .ok (r, s1) →
      r.mode = 0 → badMerge s1 r.key n = false → ∀ t, exec i s = .next t →
        AccessKept 0 [d] s t ∧ ∀ j, j < r.key ∨ r.key + n ≤ j → readByte t j = readByte s j) ∧
    (∀ b op, IsAmo i d a b op n k → (n = 4 ∨ op = .fadd64 → launchFlag s s.th 0 = false) →
      ∀ v s2, rd b s = .ok (v, s2) → awaitingReply s = false →
      opened (Store.get 0 s.th.areg a.toNat) n .atomic k true s2 = .ok (r, s1) → r.mode = 0 → badUnit s1 r.key n = false →
      ∀ t, exec i s = .next t → (∃ p, t = takePark s p) ∨
        (AccessKept d [b] s t ∧ ∀ j, j < r.key ∨ r.key + n ≤ j → readByte t j = readByte s j)) ∧
    (∀ b w o hit, i = .cas d a b w o → n = (if w = 1 then 8 else 4) →
      ∀ e v s2 s3, rd d s = .ok (e, s2) → rd b s2 = .ok (v, s3) → awaitingReply s = false →
      openedCas (Store.get 0 s.th.areg a.toNat) n (casClass o hit) hit s3 = .ok (r, s1) → r.mode = 0 →
      hit = (readLE s r.key n == e.toNat % 2 ^ (8 * n)) → badUnit s1 r.key n = false →
      ∀ t, exec i s = .next t → (∃ p, t = takePark s p) ∨
        (AccessKept d [d, b] s t ∧ (hit = false → ∀ j, readByte t j = readByte s j) ∧
          ∀ j, j < r.key ∨ r.key + n ≤ j → readByte t j = readByte s j))

/-! ## Vector instructions -/

/-- R148 to R156, R63: an elementwise instruction gives every element below vl that its form selects the value its
operation gives the sources' elements, marks the elements whose exceptions fmode enables, and changes no other element
(R149); a resumed one begins at its start index (R277). A destination bound to an outbound stream sends its chunk. The
values are those of the registers as the earlier instructions in flight leave them (R271), and the result is stated as this
one and they leave the state once they have landed; when they do is the model's schedule (log 16). -/
def Obligations.VectorLanes : Prop :=
  ∀ (i : Instr) (d : Reg) (srcs : List Reg) (m : BitVec 1) (cls : Nat → Bool) (val : State → Nat → List Nat → FRes)
    (s s1 v : State) (w n : Nat) (here : Nat → Bool) (out : Nat → FRes),
    IsLane i d srcs m cls val → Ready i s = true → cls s.cur.vtype.toNat = true → placed s false = true →
    destFree s d 0 = true → ready s srcs = .ok ((), s1) → v = landed s1 →
    w = vwidth s.cur.vtype.toNat → n = min s.cur.vl.toNat (16384 / w) →
    here = (fun k => decide (s.th.startIdx.getD 0 ≤ k) && decide (k < n) && (m == 0 || (govern v).getLsbD k)) →
    out = (fun k => val v k (srcs.map fun r => elem (vreg v r) w k)) →
    ∃ t, exec i s = .next t ∧ Wrote (phys s.th d 0) w n (fun k => if here k then some (out k).1 else none)
        (fun k => here k && faulty v (out k)) v (landed t)

/-- R35 to R38, R161: a conversion covers vl elements, and takes ILL where vl exceeds VLMAX of the wider type. Values and
result stand to the instructions in flight as in `VectorLanes` (log 16). -/
def Obligations.VectorConversions : Prop :=
  ∀ (i : Instr) (d a : Reg) (w sw : Nat) (f : Bool → Rnd → Nat → FRes) (s s1 v : State) (here : Nat → Bool)
    (out : Nat → FRes),
    IsConvert i d a w sw f → Ready i s = true →
    (16384 / max w sw < s.cur.vl.toNat → exec i s = .next (takeTrap s cILL ((encode i).setWidth 64))) ∧
    (s.cur.vl.toNat ≤ 16384 / max w sw → placed s false = true → destFree s d 0 = true → ready s [a] = .ok ((), s1) →
      v = landed s1 → here = (fun k => decide (s.th.startIdx.getD 0 ≤ k) && decide (k < s.cur.vl.toNat)) →
      out = (fun k => f (s.cur.fmode.getLsbD 6) (elemRnd v k) (elem (vreg v a) sw k)) →
      ∃ t, exec i s = .next t ∧
        Wrote (phys s.th d 0) w s.cur.vl.toNat (fun k => if here k then some (out k).1 else none)
          (fun k => here k && faulty v (out k)) v (landed t))

/-- R162 to R165: VDEQ, VQNT and VCVIN. VDEQ multiplies the FP32 value of each code by two to the block's scale; VQNT
takes for each block of present elements the scale of its largest magnitude, writes each element scaled and rounded, an INT8
saturating to 127 in magnitude and an OFP8 by SAT, and the block's scale byte: 0xFF and NaNs for an exceptional block, 127
and zeros for one of zeros; VCVIN reads the codes of an NI8 plane block. Each sends its chunk. The
readings behind them are log 17 and log 22; values and result stand to the instructions in flight as in `VectorLanes`
(log 16). -/
def Obligations.ScaledCodes : Prop :=
  ∀ (d a b : Reg) (m : BitVec 1) (s s1 s2 v : State) (x : Dword) (tr : Bytes),
    destFree s d 0 = true →
    (Ready (.vdeq d a b m) s = true → s.cur.vtype = 10 → placed s false = true → rdKept b s = .ok (x, s1) → x.toNat < 256 →
      tr = Store.get (List.replicate 32 0) (getPart s s.th.part).tids x.toNat →
      (tidFmt tr = 0x01 ∨ tidFmt tr = 0x11 ∨ tidFmt tr = 0x12 ∨ tidFmt tr = 0x13 ∨ tidFmt tr = 0x14) →
      (tidBlk tr = 0 ∨ tidBlk tr = 5) → ready s1 [a] = .ok ((), s2) → v = landed s2 →
      ∀ (here : Nat → Bool) (out : Nat → FRes),
        here = (fun k => decide (s.th.startIdx.getD 0 ≤ k) && decide (k < min s.cur.vl.toNat 512) &&
          (m == 0 || (govern v).getLsbD k)) →
        out = (fun k =>
          let e := if tidBlk tr = 5 then elem (vreg v a) 8 (0x600 + (s.cur.sbase.toNat % 32 + k) / 32) else 127
          if e = 255 then (canonNan fp32, 0)
          else scale32 (elemRnd v k) (codeTo32 (tidFmt tr) (elem (vreg v a) (8 * fmtSize (tidFmt tr)) k)) (e - 127)) →
        ∃ t, exec (.vdeq d a b m) s = .next t ∧
          Wrote (phys s.th d 0) 32 (min s.cur.vl.toNat 512) (fun k => if here k then some (out k).1 else none)
            (fun k => here k && faulty v (out k)) v (landed t)) ∧
    (Ready (.vqnt d a b m) s = true → s.cur.vtype = 10 → placed s false = true → rdKept b s = .ok (x, s1) → x.toNat < 256 →
      tr = Store.get (List.replicate 32 0) (getPart s s.th.part).tids x.toNat →
      (tidFmt tr = 0x01 ∨ tidFmt tr = 0x13 ∨ tidFmt tr = 0x14) → (tidBlk tr = 0 ∨ tidBlk tr = 5) →
      ready s1 [a] = .ok ((), s2) → v = landed s2 →
      ∀ (f : Fmt) (emax : Int) (here special zero : Nat → Bool) (blk sc : Nat → Nat) (top : Nat → Int) (out : Nat → FRes)
        (x : Nat → Nat),
        f = (if tidFmt tr = 0x13 then e4m3 else e5m2) →
        emax = (if tidFmt tr = 0x13 then 8 else if tidFmt tr = 0x14 then 15 else 6) →
        x = (fun k => elem (vreg v a) 32 k) →
        here = (fun k => decide (k < min s.cur.vl.toNat 512) && (m == 0 || (govern v).getLsbD k)) →
        blk = (fun k => if tidBlk tr = 5 then (s.cur.sbase.toNat % 32 + k) / 32 else 0) →
        special = (fun b => (List.range 512).any fun k => here k && blk k == b && x k / 2 ^ 23 % 256 == 255) →
        zero = (fun b => (List.range 512).all fun k => !(here k && blk k == b) || x k % 2 ^ 31 == 0) →
        (∀ b, special b = false → zero b = false →
          (∃ k n z e, here k = true ∧ blk k = b ∧ unpack fp32 (x k) = .fin n z e ∧ z ≠ 0 ∧
            top b = max (-127) (min 127 ((bitLen z : Int) - 1 + e - emax))) ∧
          ∀ k n z e, here k = true → blk k = b → unpack fp32 (x k) = .fin n z e → z ≠ 0 →
            max (-127) (min 127 ((bitLen z : Int) - 1 + e - emax)) ≤ top b) →
        sc = (fun b => if special b then 255 else if zero b then 127 else (top b + 127).toNat) →
        out = (fun k =>
          if special (blk k) then (if tidFmt tr = 0x01 then 0 else canonNan f, 0)
          else if zero (blk k) then (0, 0)
          else match unpack fp32 (x k) with
            | .fin n z e =>
              if tidFmt tr = 0x01 then
                let q := roundInt (elemRnd v k) n z (e - top (blk k))
                (if n then (256 - min q.1 127) % 256 else min q.1 127, if q.2 && q.1 ≤ 127 then 32 else 0)
              else if z = 0 then (signBit f n, 0)
              else
                let q := roundMag f (elemRnd v k) n z (e - top (blk k)) false
                if q.2 / 16 % 2 = 1 then (if s.cur.fmode.getLsbD 6 then fMax f n else fInf f n, 48) else q
            | _ => (0, 0)) →
        ∃ t, exec (.vqnt d a b m) s = .next t ∧
          Wrote (phys s.th d 0) 8 (min s.cur.vl.toNat 512) (fun k =>
            if here k then some (out k).1
            else if tidBlk tr = 5 ∧ 0x600 ≤ k ∧ (List.range 512).any (fun j => here j && blk j == k - 0x600) then
              some (sc (k - 0x600))
            else none)
            (fun k => here k && faulty v (out k)) v (landed t)) ∧
    (Ready (.vcvin d a) s = true → s.cur.vl.toNat ≤ 512 → s.cur.sbase.toNat % 2048 + s.cur.vl.toNat ≤ 2048 →
      placed s false = true → ready s [a] = .ok ((), s1) → v = landed s1 →
      ∃ t, exec (.vcvin d a) s = .next t ∧
        Wrote (phys s.th d 0) 32 (min s.cur.vl.toNat (16384 / vwidth s.cur.vtype.toNat)) (fun k =>
          if k < s.cur.vl.toNat then some (planeElem (vreg v a) (s.cur.sbase.toNat % 2048 + k)) else none)
          (fun _ => false) v (landed t))

/-- R166: the permutes read every element before any result is written; each selected element below vl takes the value
its permute names, and the rest stay. VSLUP and VSLDN read their count first; VCOMP packs the selected elements low, and
VEXPD spreads the low ones over the selected places. Values and result stand to the instructions in flight as in
`VectorLanes` (log 16). -/
def Obligations.VectorPermutes : Prop :=
  ∀ (d a b : Reg) (m : BitVec 1) (s s0 s1 v : State) (x : Dword) (w n : Nat) (on : Nat → Bool),
    destFree s d 0 = true → w = vwidth s.cur.vtype.toNat → n = min s.cur.vl.toNat (16384 / w) → v = landed s1 →
    on = (fun k => decide (k < n) && (m == 0 || (govern v).getLsbD k)) →
    (∀ i srcs val, IsPermute i d srcs m val → Ready i s = true → placed s false = true → ready s srcs = .ok ((), s1) →
      ∃ t, exec i s = .next t ∧
        Wrote (phys s.th d 0) w n (fun k => if on k then some (val v w n k) else none) (fun _ => false) v (landed t)) ∧
    (placed s false = true → rdKept b s = .ok (x, s0) → ready s0 [a] = .ok ((), s1) →
      (Ready (.vslup d a b m) s = true → ∃ t, exec (.vslup d a b m) s = .next t ∧ Wrote (phys s.th d 0) w n (fun k =>
        if on k then some (if x.toNat ≤ k then elem (vreg v a) w (k - x.toNat) else 0) else none) (fun _ => false) v
          (landed t)) ∧
      (Ready (.vsldn d a b m) s = true → ∃ t, exec (.vsldn d a b m) s = .next t ∧ Wrote (phys s.th d 0) w n (fun k =>
        if on k then some (if k + x.toNat < n then elem (vreg v a) w (k + x.toNat) else 0) else none) (fun _ => false) v
          (landed t))) ∧
    (placed s false = true → ready s [a] = .ok ((), s1) →
      (Ready (.vcomp d a m) s = true → ∃ t, exec (.vcomp d a m) s = .next t ∧ Wrote (phys s.th d 0) w n (fun k =>
        (((List.range n).filter on)[k]?).map fun j => elem (vreg v a) w j) (fun _ => false) v (landed t)) ∧
      (Ready (.vexpd d a m) s = true → ∃ t, exec (.vexpd d a m) s = .next t ∧ Wrote (phys s.th d 0) w n (fun k =>
        if on k then some (elem (vreg v a) w ((List.range k).countP on)) else none) (fun _ => false) v (landed t)))

/-- R167, R168: VSPLAT writes the scalar's low bits to every selected element; VINS writes one element below vl and
nothing beyond; VEXT writes one element, extended as vtype says, or 0 beyond vl; VCLRF empties the fault mask once the
earlier vector work is done. VMERGE raises the lowest fault that it would merge and empties the mask, once every earlier
instruction has completed, and stalls until then; it merges where there is none. That a VINS beyond vl sends no chunk is
the model's reading (log 18), and so is what a faulting VMERGE gives back (log 19). -/
def Obligations.VectorMoves : Prop :=
  ∀ (d a b : Reg) (m : BitVec 1) (s s0 s1 v : State) (x y : Dword) (w n : Nat),
    w = vwidth s.cur.vtype.toNat → n = min s.cur.vl.toNat (16384 / w) →
    (Ready (.vsplat d a m) s = true → placed s false = true → destFree s d 0 = true → rdKept a s = .ok (x, s0) →
      v = landed s0 →
      ∃ t, exec (.vsplat d a m) s = .next t ∧ Wrote (phys s.th d 0) w n (fun k =>
        if s.th.startIdx.getD 0 ≤ k ∧ k < n ∧ (m = 0 ∨ (govern v).getLsbD k = true) then some x.toNat else none)
        (fun _ => false) v (landed t)) ∧
    (Ready (.vins d a b) s = true → destFree s d 0 = true → rdKept a s = .ok (x, s0) → rdKept b s0 = .ok (y, s1) →
      (y.toNat < n → placed s false = true → v = landed s1 →
        ∃ t, exec (.vins d a b) s = .next t ∧
          Wrote (phys s.th d 0) w n (fun k => if k = y.toNat then some x.toNat else none) (fun _ => false) v (landed t)) ∧
      (n ≤ y.toNat → placed s false = true → exec (.vins d a b) s = .next (finish s1))) ∧
    (Ready (.vext d a b) s = true → placed s (atOnce s d) = true → rdKept b s = .ok (x, s0) →
      ready s0 [a] = .ok ((), s1) → v = landed s1 →
      ∀ u, wr d (if n ≤ x.toNat then 0
        else if s.cur.vtype = 0 ∨ s.cur.vtype = 2 ∨ s.cur.vtype = 4 ∨ s.cur.vtype = 6 then
          BitVec.ofInt 64 (signedOf w (elem (vreg v a) w x.toNat))
        else BitVec.ofNat 64 (elem (vreg v a) w x.toNat)) v = .ok ((), u) →
      ∃ t, exec (.vext d a b) s = .next t ∧ Left u (landed t)) ∧
    (Ready .vclrf s = true → placed s false = true → ∃ t, exec .vclrf s = .next t ∧
      VectorKept [] ((landed s).updTh fun u => { u with kind := 0, dom := none, multi := false }) (landed t) ∧
      (landed t).th.fmask = 0 ∧ (landed t).th.vs = (landed s).th.vs) ∧
    (Ready (.vmerge d a b) s = true → placed s false = true → destFree s d 0 = true → ready s [a, b] = .ok ((), s1) →
      ∀ u, u = (landed s).th →
      (∀ k, s.th.startIdx.getD 0 = 0 → k < 2048 →
        (∀ j, j ≤ k →
          ((j < s.cur.vl.toNat ∧ (govern (landed s)).getLsbD j = true ∧ u.fmask.getLsbD j = true) ↔ j = k)) →
        (s.th.flying = [] ∧ matrixWork s = 0 → exec (.vmerge d a b) s = .next (takeTrap (s.updTh fun t =>
            { t with fmask := 0, kind := 0, dom := none, multi := false })
          (if u.kind.getLsbD k then cDOM else cFPX)
          (BitVec.ofNat 64 (if u.kind.getLsbD k then
            k * 2 ^ 16 + (if u.multi then 32 else 0) + (u.dom.getD 0).toNat else k)))) ∧
        (¬(s.th.flying = [] ∧ matrixWork s = 0) → exec (.vmerge d a b) s = .next (takePark s .work))) ∧
      ((s.th.startIdx.getD 0 ≠ 0 ∨
          ∀ k, k < 2048 → k < s.cur.vl.toNat → (govern (landed s)).getLsbD k = true → u.fmask.getLsbD k = false) →
        v = landed s1 →
        ∃ t, exec (.vmerge d a b) s = .next t ∧ Wrote (phys s.th d 0) w n (fun k =>
          if s.th.startIdx.getD 0 ≤ k ∧ k < n then
            some (if (govern v).getLsbD k then elem (vreg v a) w k else elem (vreg v b) w k)
          else none) (fun _ => false) v (landed t)))

/-- R157 to R160: comparisons write one bit for each selected element below vl and 0 elsewhere, a resumed one from its
start index on; the predicate operations compute bits 0 to vl − 1 and clear the rest; PPOP, PFIRST and PLAST read those
bits into a scalar; p0 discards. Values and result stand to the instructions in flight as in `VectorLanes` (log 16). -/
def Obligations.Predicates : Prop :=
  ∀ (d a b : Reg) (s s0 s1 v u : State) (x : Dword) (n : Nat),
    (∀ i f, IsPredOp i d f → Ready i s = true → placed s false = true →
      ∃ t, exec i s = .next t ∧ Left (predSet (landed s) d (f (landed s) &&& lowMask s.cur.vl.toNat)) (landed t)) ∧
    (rdKept a s = .ok (x, s0) → placed s false = true →
      (Ready (.pcnt d a) s = true → ∃ t, exec (.pcnt d a) s = .next t ∧
        Left (predSet (landed s0) d (lowMask (min x.toNat s.cur.vl.toNat))) (landed t)) ∧
      (Ready (.pcntt d a) s = true → ∃ t, exec (.pcntt d a) s = .next t ∧
        Left (predSet (landed s0) d (lowMask (min (min x.toNat s.cur.ftrim.toNat) s.cur.vl.toNat))) (landed t))) ∧
    (∀ on : Nat → Bool, placed s (atOnce s d) = true →
      on = (fun k => decide (k < s.cur.vl.toNat) && (predVal (landed s).th a.toNat).getLsbD k) →
      (Ready (.ppop d a) s = true →
        wr d (BitVec.ofNat 64 ((List.range 2048).countP on)) (landed s) = .ok ((), u) →
        ∃ t, exec (.ppop d a) s = .next t ∧ Left u (landed t)) ∧
      (((n < 2048 ∧ on n = true ∧ ∀ k, k < n → on k = false) ∧ x = BitVec.ofNat 64 n ∨
          (∀ k, k < 2048 → on k = false) ∧ x = BitVec.allOnes 64) →
        Ready (.pfirst d a) s = true → wr d x (landed s) = .ok ((), u) →
        ∃ t, exec (.pfirst d a) s = .next t ∧ Left u (landed t)) ∧
      (((n < 2048 ∧ on n = true ∧ ∀ k, n < k → k < 2048 → on k = false) ∧ x = BitVec.ofNat 64 n ∨
          (∀ k, k < 2048 → on k = false) ∧ x = BitVec.allOnes 64) →
        Ready (.plast d a) s = true → wr d x (landed s) = .ok ((), u) →
        ∃ t, exec (.plast d a) s = .next t ∧ Left u (landed t))) ∧
    (∀ (i : Instr) (m : BitVec 1) (c : BitVec 3) (w : Nat) (rel : Nat → Nat → Bool × Nat) (here : Nat → Bool) (y : Nat → Nat),
      s.cur.vtype.toNat ≤ 13 → w = vwidth s.cur.vtype.toNat → rel = vrel s.cur.vtype.toNat w c.toNat → v = landed s1 →
      here = (fun k => decide (s.th.startIdx.getD 0 ≤ k) && decide (k < min s.cur.vl.toNat (16384 / w)) &&
        (m == 0 || (govern v).getLsbD k)) → Ready i s = true →
      (i = .vcmp d a b m c ∧ placed s false = true ∧ ready s [a, b] = .ok ((), s1) ∧ y = elem (vreg v b) w ∨
        i = .vcmpx d a b m c ∧ placed s false = true ∧ rdKept b s = .ok (x, s0) ∧ ready s0 [a] = .ok ((), s1) ∧
          y = (fun _ => x.toNat % 2 ^ w)) →
      ∃ t p, exec i s = .next t ∧ VectorKept [] (predSet v d p) (landed t) ∧ (landed t).th.vs = v.th.vs ∧
        (∀ k, k < 2048 → p.getLsbD k = if s.th.startIdx.getD 0 ≤ k then here k && (rel (elem (vreg v a) w k) (y k)).1
          else (predVal v.th d.toNat).getLsbD k) ∧
        Marked (fun k => here k && faulty v (0, (rel (elem (vreg v a) w k) (y k)).2)) v (landed t))

/-- R169 to R171: a reduction takes the selected elements below vl in index order and writes a scalar; of no elements,
the minimum is the largest value of vtype and the maximum the smallest. VFSUM folds the strip into the tree register,
where whole spans of 2^40 indices join from left to right (R47), and takes ILL where the strip lies before what it holds or
the precision differs; VTREE writes the root and empties the register. Values and result stand to the instructions in
flight as in `VectorLanes` (log 16). -/
def Obligations.Reductions : Prop :=
  ∀ (d a : Reg) (m : BitVec 1) (s s1 v u : State) (vt w : Nat) (js : List Nat),
    vt = s.cur.vtype.toNat → w = vwidth vt →
    (ready s [a] = .ok ((), s1) → v = landed s1 →
      js = (List.range (min s.cur.vl.toNat (16384 / w))).filter (fun k => m == 0 || (govern v).getLsbD k) →
      (placed s (atOnce s d) = true →
        (∀ i cls f, IsReduce i d a m cls f → Ready i s = true → cls vt = true →
          wr d (f v w (js.map fun k => elem (vreg v a) w k)) v = .ok ((), u) →
          ∃ t, exec i s = .next t ∧ Left u (landed t)) ∧
        (vt ≤ 7 → ∀ x, (js = [] ∧ x = extreme vt w true ∨
            ∃ k ∈ js, x = elem (vreg v a) w k ∧ ∀ j ∈ js, redValue vt w x ≤ redValue vt w (elem (vreg v a) w j)) →
          Ready (.vrmin d a m) s = true → wr d (BitVec.ofInt 64 (redValue vt w x)) v = .ok ((), u) →
          ∃ t, exec (.vrmin d a m) s = .next t ∧ Left u (landed t)) ∧
        (vt ≤ 7 → ∀ x, (js = [] ∧ x = extreme vt w false ∨
            ∃ k ∈ js, x = elem (vreg v a) w k ∧ ∀ j ∈ js, redValue vt w (elem (vreg v a) w j) ≤ redValue vt w x) →
          Ready (.vrmax d a m) s = true → wr d (BitVec.ofInt 64 (redValue vt w x)) v = .ok ((), u) →
          ∃ t, exec (.vrmax d a m) s = .next t ∧ Left u (landed t)) ∧
        (isF vt = true → ∀ (mx : Bool) (i : Instr) (q : Option Nat × Mask),
          i = (if mx then .vrmax d a m else .vrmin d a m) →
          q = treeRoot (fMinMax (vfmt vt) mx) (treeHit v) (leavesOf v (vreg v a) w js) → Ready i s = true →
          wr d (BitVec.ofNat 64 (q.1.getD (canonNan (vfmt vt)))) (v.updTh fun t => { t with fmask := t.fmask ||| q.2 }) =
            .ok ((), u) →
          ∃ t, exec i s = .next t ∧ Left u (landed t))) ∧
      (isF vt = true → Ready (.vfsum a m) s = true → ∀ e, e = (landed s).th.tree →
        (e.live = true → e.next ≤ s.cur.sbase.toNat ∧ e.wide = (vt == 11)) → placed s false = true →
        ∀ (leaves : List TreeNode) (stop : Nat) (q j : List TreeNode × Mask),
        leaves = (leavesOf v (vreg v a) w js).map (fun n =>
          if w = 16 then { n with code := narrowTo32 (vfmt vt) n.code } else n) →
        stop = s.cur.sbase.toNat + min s.cur.vl.toNat (16384 / w) →
        q = treeUp (treeAdd v (vt == 11)) (treeHit v) (some stop) (e.nodes ++ leaves) →
        j = joinSpans (treeAdd v (vt == 11)) (treeHit v) q.1 →
        ∃ t, exec (.vfsum a m) s = .next t ∧ Left (v.updTh fun t =>
          { t with tree := ⟨true, vt == 11, stop, j.1⟩, fmask := t.fmask ||| (q.2 ||| j.2) }) (landed t))) ∧
    (isF vt = true → Ready (.vfsum a m) s = true → (landed s).th.tree.live = true →
      (s.cur.sbase.toNat < (landed s).th.tree.next ∨ (landed s).th.tree.wide ≠ (vt == 11)) →
      exec (.vfsum a m) s = .next (takeTrap s cILL ((encode (.vfsum a m)).setWidth 64))) ∧
    (∀ (e : Tree) (q : Option Nat × Mask), e = (landed s).th.tree → placed s (atOnce s d) = true →
      q = treeRoot (treeAdd s e.wide) (fun r _ => if faulty s r then 1 else 0) e.nodes →
      Ready (.vtree d) s = true →
      wr d (BitVec.ofNat 64 (q.1.getD 0)) ((landed s).updTh fun t =>
        { t with tree := Tree.empty, fmask := t.fmask ||| q.2 }) = .ok ((), u) →
      ∃ t, exec (.vtree d) s = .next t ∧ Left u (landed t))

/-- R172: VARGMAX and VARGMIN write the best value that is no NaN and its global index, the lower index of equal ones;
VARGMAXC weighs the pair its destination holds as well. Of no candidate they write the canonical NaN or the extreme
integer, and an index of all ones. Values and result stand to the instructions in flight as in `VectorLanes` (log 16). -/
def Obligations.ArgBest : Prop :=
  ∀ (i : Instr) (d a : Reg) (m : BitVec 1) (mx prior : Bool) (s s1 v : State) (vt w : Nat) (cands : List (Nat × Nat))
    (best : Nat × Nat) (nan : Nat → Bool),
    (i = .vargmax d a m ∧ mx = true ∧ prior = false ∨ i = .vargmin d a m ∧ mx = false ∧ prior = false ∨
      i = .vargmaxc d a m ∧ mx = true ∧ prior = true) →
    Ready i s = true → s.cur.vtype.toNat ≤ 11 → placed s false = true → destFree s d 0 = true → destFree s d 1 = true →
    ready s [a] = .ok ((), s1) → v = landed s1 → vt = s.cur.vtype.toNat → w = vwidth vt →
    nan = (fun c => isF vt && (unpack (vfmt vt) c).isNan) →
    cands = ((if prior ∧ elem (v.th.vr (phys s.th d 1)) 64 0 ≠ 2 ^ 64 - 1 then
          [(elem (v.th.vr (phys s.th d 0)) w 0, elem (v.th.vr (phys s.th d 1)) 64 0)] else []) ++
        ((List.range (min s.cur.vl.toNat (16384 / w))).filter fun k => m == 0 || (govern v).getLsbD k).map fun k =>
          (elem (vreg v a) w k, (s.cur.sbase.toNat + k) % 2 ^ 64)).filter (fun c => !nan c.1) →
    (cands = [] ∧ best = (if isF vt then canonNan (vfmt vt) else extreme vt w (!mx), 2 ^ 64 - 1) ∨
      best ∈ cands ∧ ∀ c ∈ cands, beats vt w mx c best = false) →
    ∃ t, exec i s = .next t ∧
      (∀ k, k < 16384 / w → elem ((landed t).th.vr (phys s.th d 0)) w k =
        if k = 0 then best.1 else elem (v.th.vr (phys s.th d 0)) w k) ∧
      (∀ k, k < 256 → elem ((landed t).th.vr (phys s.th d 1)) 64 k =
        if k = 0 then best.2 else elem (v.th.vr (phys s.th d 1)) 64 k) ∧
      Marked (fun k => decide (k < min s.cur.vl.toNat (16384 / w)) && (m == 0 || (govern v).getLsbD k) && isF vt &&
        (unpack (vfmt vt) (elem (vreg v a) w k)).isSnan && faulty v (0, 8)) v (landed t) ∧
      SentBoth (phys s.th d 0) (phys s.th d 1) (min s.cur.vl.toNat (16384 / w)) v (landed t) ∧
      VectorKept [phys s.th d 0, phys s.th d 1] v (landed t)

/-- R173, R174: a scan gives each element below vl the running value of its segment; a segmented reduction packs one
value for each segment low, and leaves the rest. Faults are marked at their elements. The tree of VSEGR's minimum and
maximum is the model's reading (log 21); values and result stand to the instructions in flight as in `VectorLanes`
(log 16). -/
def Obligations.ScansAndSegments : Prop :=
  ∀ (i : Instr) (d a : Reg) (seg : BitVec 1) (cls : Nat → Bool) (s s1 v : State) (w n : Nat),
    Ready i s = true → cls s.cur.vtype.toNat = true → placed s false = true → destFree s d 0 = true →
    ready s [a] = .ok ((), s1) → v = landed s1 → w = vwidth s.cur.vtype.toNat → n = min s.cur.vl.toNat (16384 / w) →
    (∀ f shown run, IsScan i d a seg cls f shown →
      run = running (f v w) (fun k => k == 0 || (seg == 1 && (govern v).getLsbD k)) (elem (vreg v a) w) →
      ∃ t, exec i s = .next t ∧ Wrote (phys s.th d 0) w n (fun k =>
          if k < n then some (shown w (run k).1 (elem (vreg v a) w k)) else none)
        (fun k => decide (k < n) && faulty v (run k)) v (landed t)) ∧
    (∀ f (rs : List (Nat × Mask)), IsSegmented i d a seg cls f →
      rs = (segments (fun k => k == 0 || (seg == 1 && (govern v).getLsbD k)) n 0).map (f v w (vreg v a)) →
      ∃ t, exec i s = .next t ∧
        Wrote (phys s.th d 0) w n (fun k => (rs[k]?).map fun r => r.1)
          (fun k => (rs.foldl (fun (acc : Mask) r => acc ||| r.2) 0).getLsbD k) v (landed t))

/-- R176, R178: VBIN and VBOUT bind a register to a stream where neither is bound and the register is no mailbox, and
take ILL otherwise; VUNB ends a binding, and of an outbound one marks the latest chunk as the last or sends an empty last
one. A declaration as a mailbox ends too. Each stalls while an instruction in flight uses the register, so that it may read
it again (R151). -/
def Obligations.StreamBindings : Prop :=
  ∀ (i : Instr) (d a : Reg) (s : State) (ph : Nat), ph = phys s.th d 0 → Ready i s = true →
    (i = .vbin d a ∨ i = .vbout d a ∨ i = .vunb d) →
    (touches s.th ph = true → exec i s = .next (takePark s .work)) ∧
    (touches s.th ph = false → (i = .vbin d a ∨ i = .vbout d a) →
      (boundTo s.th ph = none → (∀ e ∈ s.th.mbox, e.2 ≠ ph) → (∀ e ∈ s.th.bind, e.2 ≠ a.toNat) →
        exec i s = .next (finish (s.updTh fun t => { t with bind := Store.insert t.bind ph a.toNat }))) ∧
      ((boundTo s.th ph ≠ none ∨ (∃ e ∈ s.th.mbox, e.2 = ph) ∨ (∃ e ∈ s.th.bind, e.2 = a.toNat)) →
        exec i s = .next (takeTrap s cILL ((encode i).setWidth 64)))) ∧
    (touches s.th ph = false → i = .vunb d →
      ∀ u : State, u = s.updTh (fun t => { t with mbox := t.mbox.filter fun e => e.2 != ph }) →
      (boundTo s.th ph = none → exec i s = .next (finish u)) ∧
      (∀ j, boundTo s.th ph = some j → j ≤ 7 →
        exec i s = .next (finish (u.updTh fun t => { t with bind := Store.del t.bind ph }))) ∧
      (∀ j, boundTo s.th ph = some j → 8 ≤ j → waitsForRoom s.th j = false →
        exec i s = .next (finish (u.updTh fun t =>
          { t.setVstream j { t.vstream j with chunks := match (t.vstream j).chunks with
              | [] => [⟨0, 0, true, false, false⟩]
              | l => endLast l } with bind := Store.del t.bind ph }))))

/-! ## Engine transfers -/

/-- R198 to R203, R209: a stream load reads its elements and puts one chunk in flight for its inbound stream; a stream
store takes the oldest chunk of its outbound stream and writes its elements in place; gathers and scatters take their
element addresses from an index chunk. The trimmed forms end before the first element that fails or that its page refuses,
the slice forms follow a tensor record, an NI8 load taking a whole plane block and an NI8 store ILL, or write 0x11 to stat
where the record is invalid. Each that completes writes 0 to stat. The moment the
data move is the model's choice (log 10), and stat of the gathers its reading (log 23). -/
def Obligations.StreamTransfers : Prop :=
  ∀ (d a b : Reg) (w : BitVec 3) (s s1 s2 : State) (sz : Nat) (va x : Dword) (ps qs : List Piece) (c e : Chunk)
    (l m : List Chunk) (fin : Bool) (r : Bytes),
    va = Store.get 0 s.th.areg a.toNat → sz = vwidth s.cur.vtype.toNat / 8 →
    fin = (match s.cur.loop with
      | some k => k.strip == s.cur.vl
      | none => false) →
    (roomIn s d.toNat = true → va.toNat % sz = 0 →
      (Ready (.sload d a) s = true → reachAll .read sz (rowRuns va s.cur.vl.toNat sz) s = .ok (ps, s1) →
        exec (.sload d a) s = .next (finish (stated (loadBegun s1 d.toNat (s.cur.vl.toNat * sz) ps (BitVec.allOnes 16384) fun bs =>
          ⟨bytesReg bs, s.cur.vl.toNat, fin, false, false⟩) 0))) ∧
      (∀ k n, Ready (.sloadTrim d a) s = true →
        reachTrim .read sz (rowRuns va s.cur.vl.toNat sz) s = .ok ((ps, k), s1) →
        n = (match k with
          | some y => y / sz
          | none => s.cur.vl.toNat) →
        exec (.sloadTrim d a) s = .next (finish (stated (trimmedAt (loadBegun s1 d.toNat (n * sz) ps (BitVec.allOnes 16384) fun bs =>
          ⟨bytesReg bs, n, fin || k.isSome, k.isSome, false⟩) (k.map fun y => y / sz) true) 0)))) ∧
    ((s.th.vstream d.toNat).chunks = c :: l → c.count * sz ≤ 2048 → va.toNat % sz = 0 →
      (Ready (.sstore d a) s = true →
        reachAll .write sz (rowRuns va c.count sz) (took s d.toNat c l) = .ok (ps, s1) →
        writeChecks (encode (.sstore d a)) ps s1 = .ok ((), s2) →
        exec (.sstore d a) s = .next (finish (stated (storeBegun s2 (regBytes c.data (c.count * sz)) ps) 0))) ∧
      (∀ k, Ready (.sstoreTrim d a) s = true →
        reachTrim .write sz (rowRuns va c.count sz) (took s d.toNat c l) = .ok ((ps, k), s1) →
        ∀ h s3, writeTrim (encode (.sstoreTrim d a)) ps s1 = .ok ((qs, h), s2) →
        writeChecks (encode (.sstoreTrim d a)) qs s2 = .ok ((), s3) →
        exec (.sstoreTrim d a) s = .next (finish (stated
          (trimmedAt (storeBegun s3 (regBytes c.data (c.count * sz)) qs) ((h.orElse fun _ => k).map fun y => y / sz)
            false) 0)))) ∧
    (rd b s = .ok (x, s1) → x.toNat < 256 → r = tidAt s1 x.toNat →
      (tidFmt r = 0 → ∀ i, (i = .sloadSlice d a b ∨ i = .sstoreSlice d a b) → Ready i s = true →
        exec i s = .next (finish (stated s1 0x11))) ∧
      (tidFmt r ≠ 0 → tidFmt r ≠ 0x20 → Ready (.sloadSlice d a b) s = true → roomIn s1 d.toNat = true →
        sliceChecks (encode (.sloadSlice d a b)) r va s.cur.sbase.toNat s.cur.vl.toNat s1 = .ok ((), s1) →
        reachAll .read (fmtSize (tidFmt r)) (sliceRuns r va.toNat s.cur.sbase.toNat s.cur.vl.toNat (fmtSize (tidFmt r))) s1 =
          .ok (ps, s2) →
        ∀ s3, reachAll .read 1 (scaleRuns r s.cur.sbase.toNat s.cur.vl.toNat) s2 = .ok (qs, s3) →
        exec (.sloadSlice d a b) s = .next (finish (stated (loadBegun s3 d.toNat 2048 (ps ++ qs) (BitVec.allOnes 16384) fun bs =>
          ⟨bytesReg bs, s.cur.vl.toNat, fin, false, tidBlk r == 5⟩) 0))) ∧
      (tidFmt r = 0x20 → Ready (.sloadSlice d a b) s = true → roomIn s1 d.toNat = true →
        sliceChecks (encode (.sloadSlice d a b)) r va s.cur.sbase.toNat s.cur.vl.toNat s1 = .ok ((), s1) →
        ∀ blk p, blk = s.cur.sbase.toNat / 2048 → p = 256 * tidPlanes r →
        reachAll .read 1 ((if s.cur.sbase.toNat < tidTotal r ∧ s.cur.vl ≠ 0 then
            [⟨(va.toNat + 2048 * blk) % 2 ^ 64, p, 0⟩] else []) ++ scaleRuns r s.cur.sbase.toNat s.cur.vl.toNat) s1 =
          .ok (ps, s2) →
        exec (.sloadSlice d a b) s = .next (finish (stated (loadBegun s2 d.toNat 2048 ps
          (bytesReg (maskPlanes r blk ((List.replicate 2048 0xFF).take p) ++ (List.replicate 2048 0xFF).drop p)) fun bs =>
          ⟨bytesReg (maskPlanes r blk (bs.take p) ++ bs.drop p), s.cur.vl.toNat, fin, false, true⟩) 0))) ∧
      (tidFmt r = 0x20 → Ready (.sstoreSlice d a b) s = true →
        exec (.sstoreSlice d a b) s = .next (takeTrap s cILL ((encode (.sstoreSlice d a b)).setWidth 64))) ∧
      (tidFmt r ≠ 0 → tidFmt r ≠ 0x20 → Ready (.sstoreSlice d a b) s = true → (s1.th.vstream d.toNat).chunks = c :: l →
        sliceChecks (encode (.sstoreSlice d a b)) r va s.cur.sbase.toNat s.cur.vl.toNat s1 = .ok ((), s1) →
        sliceChecks (encode (.sstoreSlice d a b)) r va s.cur.sbase.toNat c.count s1 = .ok ((), s1) →
        reachAll .write (fmtSize (tidFmt r)) (sliceRuns r va.toNat s.cur.sbase.toNat c.count (fmtSize (tidFmt r)))
          (took s1 d.toNat c l) = .ok (ps, s2) →
        ∀ s3 s4, reachAll .write 1 (scaleRuns r s.cur.sbase.toNat c.count) s2 = .ok (qs, s3) →
        writeChecks (encode (.sstoreSlice d a b)) (ps ++ qs) s3 = .ok ((), s4) →
        exec (.sstoreSlice d a b) s = .next (finish (stated (storeBegun s4 (regBytes c.data 2048) (ps ++ qs)) 0)))) ∧
    (∀ (i : Instr) (cl : Bool), (i = .sgath d a b w ∧ cl = false ∨ i = .sgathc d a b w ∧ cl = true) → Ready i s = true →
      va.toNat % 2 ^ w.toNat = 0 → (cl = true → va.toNat < 0x180000) → roomIn s d.toNat = true →
      (s.th.vstream b.toNat).chunks = c :: l → c.count * 2 ^ w.toNat ≤ 2048 →
      (if cl then clusterPieces va c (2 ^ w.toNat) false else reachAll .read (2 ^ w.toNat) (indexRuns va c (2 ^ w.toNat)))
        (took s b.toNat c l) = .ok (ps, s1) →
      exec i s = .next (finish (stated (loadBegun s1 d.toNat (c.count * 2 ^ w.toNat) ps (BitVec.allOnes 16384) fun bs =>
        ⟨bytesReg bs, c.count, c.fin, false, false⟩) 0))) ∧
    ∀ (i : Instr) (cl : Bool), (i = .sscat d a b w ∧ cl = false ∨ i = .sscatc d a b w ∧ cl = true) → Ready i s = true →
      va.toNat % 2 ^ w.toNat = 0 → (cl = true → va.toNat < 0x180000) → (s.th.vstream d.toNat).chunks = e :: m →
      ((took s d.toNat e m).th.vstream b.toNat).chunks = c :: l → e.count = c.count → c.count * 2 ^ w.toNat ≤ 2048 →
      (if cl then clusterPieces va c (2 ^ w.toNat) true else reachAll .write (2 ^ w.toNat) (indexRuns va c (2 ^ w.toNat)))
        (took (took s d.toNat e m) b.toNat c l) = .ok (ps, s1) →
      writeChecks (encode i) ps s1 = .ok ((), s2) →
      exec i s = .next (finish (stated (storeBegun s2 (regBytes e.data (c.count * 2 ^ w.toNat)) ps) 0))

/-- R204 to R210, R218, R240, R242: CPY and CPYQ read a descriptor and accept a valid copy, or write the code of what is
wrong to stat; with 16 outstanding CPY parks and CPYQ answers 0. TIDSET puts a valid record in the table. A state-vector
function reads its record and gate blocks and accepts a valid command; with 16 outstanding it answers 0x22, with an invalid
record 0x20, and with invalid gate blocks 0x21. A copy with a page of unordered RED among its destination takes ILL in a
launch flagged D (R425). The order of the checks is the model's reading (log 24, log 42), and so is what an entry of a
participant list with further bits does (log 72). -/
def Obligations.Commands : Prop :=
  (∀ c : Copy,
    (¬DescFits c.desc → copyStat c = 0x10) ∧
    (DescFits c.desc → (c.flag 2 = true ∧ tidFmt c.srcTid = 0 ∨ c.flag 3 = true ∧ tidFmt c.dstTid = 0) → copyStat c = 0x11) ∧
    (DescFits c.desc → ¬(c.flag 2 = true ∧ tidFmt c.srcTid = 0 ∨ c.flag 3 = true ∧ tidFmt c.dstTid = 0) →
      (c.flag 2 = true ∧ c.flag 3 = true ∧ tidFmt c.srcTid ≠ tidFmt c.dstTid → copyStat c = 0x12) ∧
      (¬(c.flag 2 = true ∧ c.flag 3 = true ∧ tidFmt c.srcTid ≠ tidFmt c.dstTid) →
        (BoxFits c → copyStat c = 0) ∧ (¬BoxFits c → copyStat c = 0x10)))) ∧
  (∀ b : Bytes, (b.length = 32 → (recordOk b = true ↔ RecordFits b)) ∧
    (b.length = 128 → (svValid b = true ↔ StateFits b))) ∧
  ∀ (d a : Reg) (s s1 s2 s3 s4 s5 : State) (va n : Dword) (b rec : Bytes) (parts : List Nat) (gates : List SvGate),
    va = Store.get 0 s.th.areg a.toNat →
    (va.toNat % 64 = 0 →
      (s.th.copies.length < 16 → readBlock va 64 .reply s = .ok (b, s1) →
        ∀ (i : Instr) (c : Copy) (red : Bool), c = freshCopy s1 (encode i) b →
          red = (launchFlag s1 s1.th 0 && field b 0x12 1 != 2 && redUnordered s1 { c with total := c.amount }) →
          Ready i s = true →
          (i = .cpy a → copyStat c = 0 → red = false → exec i s = .next (finish (copyBegun s1 c))) ∧
          (i = .cpy a → copyStat c ≠ 0 → exec i s = .next (finish (stated s1 (copyStat c)))) ∧
          (i = .cpyq d a → copyStat c = 0 → red = false → wr d 1 (copyBegun s1 c) = .ok ((), s2) →
            exec i s = .next (finish s2)) ∧
          (i = .cpyq d a → copyStat c ≠ 0 → wr d 0 (stated s1 (copyStat c)) = .ok ((), s2) →
            exec i s = .next (finish s2)) ∧
          (i = .cpy a ∨ i = .cpyq d a → copyStat c = 0 → red = true →
            exec i s = .next (takeTrap (s1.unpopped s) cILL ((encode i).setWidth 64)))) ∧
      (16 ≤ s.th.copies.length →
        (Ready (.cpy a) s = true → exec (.cpy a) s = .next (takePark s .copySlots)) ∧
        (Ready (.cpyq d a) s = true → wr d 0 (stated s 0x13) = .ok ((), s2) →
          exec (.cpyq d a) s = .next (finish s2)))) ∧
    (Ready (.tidset d a) s = true → rd d s = .ok (n, s1) → n.toNat < 256 → va.toNat % 32 = 0 →
      readBlock va 32 .reply s1 = .ok (b, s2) →
      (recordOk b = true → ¬(tidFmt b = 0x20 ∧ tidBlk b = 5 ∧ tidScale b % 2048 ≠ 0) →
        exec (.tidset d a) s = .next (finish (stated (updPart s2 s2.th.part fun p =>
          { p with tids := Store.put (List.replicate 32 0) p.tids n.toNat b }) 0))) ∧
      (recordOk b = false → exec (.tidset d a) s = .next (finish (stated s2 0x11)))) ∧
    (∀ i op kind, IsGate i d a op kind → Ready i s = true →
      (16 ≤ s.th.svcmds.length → wr d 0x22 s = .ok ((), s1) → exec i s = .next (finish (stated s1 0x22))) ∧
      (s.th.svcmds.length < 16 → va.toNat % 64 = 0 → svRead va.toNat 64 s = .ok (b, s1) → field b 0 8 % 64 = 0 →
        svRead (field b 0 8) 128 s1 = .ok (rec, s2) →
        (svValid rec = false → wr d 0x20 s2 = .ok ((), s5) → exec i s = .next (finish (stated s5 0x20))) ∧
        (svValid rec = true → svParts rec s2 = .ok (none, s3) → wr d 0x20 s3 = .ok ((), s5) →
          exec i s = .next (finish (stated s5 0x20))) ∧
        (svValid rec = true → svParts rec s2 = .ok (some parts, s3) →
          svGates rec (field b 0 8) [kind] [va.toNat] s3 = .ok (none, s4) → wr d 0x21 s4 = .ok ((), s5) →
          exec i s = .next (finish (stated s5 0x21)))) ∧
      (s.th.svcmds.length < 16 → va.toNat % 64 = 0 → svRead va.toNat 64 s = .ok (b, s1) → field b 0 8 % 64 = 0 →
        svRead (field b 0 8) 128 s1 = .ok (rec, s2) → svValid rec = true → svParts rec s2 = .ok (some parts, s3) →
        svGates rec (field b 0 8) [kind] [va.toNat] s3 = .ok (some gates, s4) →
        (op = 6 ∨ (swapPlan (svN rec) (svG rec) (mapAhead s4 (field b 0 8) rec) gates).isSome = true) →
        wr d 0 (svBegun s4 op (field b 0 8) rec parts gates (field b 0x20 8) (field b 0x28 8) (field b 0x30 8)) =
          .ok ((), s5) →
        exec i s = .next (finish (stated s5 0)))) ∧
    (Ready (.svrun d a) s = true → s.th.svcmds.length < 16 → svRead va.toNat 128 s = .ok (b, s1) →
      1 ≤ field b 8 8 → field b 8 8 ≤ 8 → field b 0 8 % 64 = 0 → svRead (field b 0 8) 128 s1 = .ok (rec, s2) →
      svValid rec = true → svParts rec s2 = .ok (some parts, s3) →
      svGates rec (field b 0 8) [1, 2, 3, 4] ((List.range (field b 8 8)).map fun k => field b (0x20 + 8 * k) 8) s3 =
        .ok (some gates, s4) →
      (swapPlan (svN rec) (svG rec) (mapAhead s4 (field b 0 8) rec) gates).isSome = true →
      wr d 0 (svBegun s4 5 (field b 0 8) rec parts gates (field b 0x10 8) (field b 0x18 8) 0) = .ok ((), s5) →
      exec (.svrun d a) s = .next (finish (stated s5 0))) ∧
    (Ready (.svmap d a) s = true → s.th.svcmds.length < 16 → va.toNat % 64 = 0 → svRead va.toNat 128 s = .ok (rec, s1) →
      svValid rec = true → svParts rec s1 = .ok (some parts, s2) →
      wr d 0 (svBegun s2 0 va.toNat rec parts [] (svDone rec) (svValue rec) 0) = .ok ((), s3) →
      exec (.svmap d a) s = .next (finish (stated s3 0)))

/-- R201, R206 to R209, R241, R243 to R245, R288, R339: what the engines move. Element (i0, i1, i2, i3) of a copy's box stands
where its record's strides put it, or densely, and nowhere beyond the extents; a piece of kind 0 writes the source's bytes,
one of kind 1 each destination element combined with the source's, and kind 2 gathers a tile; the end of a copy writes its
completion word after all its bytes, or takes a late fault at a word that fails, and delivers the tile. A state-vector command
reads its amplitudes, exchanges the swapped bits, applies its gates in order, writes every amplitude back, then the map, then
its completion word; SVMAP writes |0…0⟩, SVPROB the canonical sum. The runs are those of this device, of a copy that the engine
has reached and no earlier transfer holds; when each event comes is the model's schedule (log 2). -/
def Obligations.EngineWork : Prop :=
  (∀ (c : Copy) (r : Bytes) (base i0 i1 i2 i3 m : Nat) (inside : Prop) [Decidable inside],
    i0 < c.ext 0 → i1 < c.ext 1 → i2 < c.ext 2 → m = i0 + c.ext 0 * (i1 + c.ext 1 * (i2 + c.ext 2 * i3)) →
    (inside ↔ i0 < field r 4 2 ∧ i1 < field r 6 2 ∧ i2 < field r 8 2 ∧ i3 < field r 10 2) →
    c.sideAddr false r base m = some ((base + m * c.size) % 2 ^ 64) ∧
    c.sideAddr true r base m = (if inside then some ((base + i0 * fmtSize (field r 0 1) + i1 * field r 12 4 +
      i2 * field r 16 4 + i3 * field r 20 4) % 2 ^ 64) else none) ∧
    c.spot true r m =
      (if inside then some (i0 + field r 4 2 * (i1 + field r 6 2 * (i2 + field r 8 2 * i3))) else none)) ∧
  (∀ (c : Copy) (n sz : Nat) (g d : List (Nat × Bytes)) (raw : List (Nat × Bytes) → Bytes), c.ni8 = false →
    raw = (fun l => (List.range ((l.map fun e => e.1 + e.2.length).foldl max (n * sz))).map (gatheredAt l)) →
    (c.kind ≠ 1 → pieceData c n sz g d = raw g) ∧
    ∀ f, c.kind = 1 → IsCombine c.sat (field c.desc 0x13 1) (tidFmt c.dstTid) f → tidFmt c.dstTid ≠ 0x30 →
      tidFmt c.dstTid ≠ 0x31 → pieceData c n sz g d = (List.range n).flatMap fun j => leBytes (fmtSize (tidFmt c.dstTid))
        (f (leNat (((raw d).drop (j * sz)).take sz)) (leNat (((raw g).drop (j * sz)).take sz)))) ∧
  (∀ (c : Copy) (g : List (Nat × Bytes)) (kk sz k n i : Nat), kk = tileK (tidFmt c.srcTid) (tidPlanes c.srcTid) →
    sz = fmtSize (tidFmt c.srcTid) → tidFmt c.srcTid ≠ 0x20 → k < kk → n < 192 → i < sz →
    atD 0 ((n * kk + k) * sz + i) (tileData c g) =
      if k < c.ext 0 ∧ n < c.ext 1 ∧ k < field c.srcTid 4 2 ∧ n < field c.srcTid 6 2 then
        gatheredAt g ((n * c.ext 0 + k) * sz + i) else 0) ∧
  (∀ (n k : Nat) (s u w s1 s2 s3 s4 : State) (c : Copy) (m : Nat) (g d : List (Nat × Bytes)) (ps : List Piece) (data : Bytes),
    focus s n = some u → u.th.status = .running → u.th.copies[k]? = some c → w = u.updTh (fun t => { t with mcword := c.mcword }) →
    engineTurn w w.th c = true → c.moved < c.total →
    (c.kind = 2 → heldEarlier w c.region (tileRuns c) false = false → Gathered .read c.region (tileRuns c) w g s1 →
      s2 = setCopy (count s1 s1.th 0x211 (tileRuns c).length) k { c with moved := c.total, fetched := [], tile := tileData c g } →
      exec (.copyPiece n k) s = .next ((count s2 s1.th 0x213 ((((tileRuns c).map fun r => r.n).sum + 127) / 128)).updTh
        fun t => { t with mcword := u.th.mcword })) ∧
    (c.kind ≠ 2 → m = pieceLen c c.moved (min (c.total - c.moved) (if c.ni8 then 32768 else 4096)) →
      heldEarlier w c.region (c.srcRuns m) false = false → heldEarlier w c.region (c.dstRuns m) true = false →
      Gathered .read c.region (c.srcRuns m) w g s1 → s2 = count s1 s1.th 0x211 (c.srcRuns m).length →
      (c.readsDst m = false → data = pieceData c m c.size g [] →
        Reaches .write (c.dstRuns m) s2 ps s3 → Lands c.region false data ps s3 s4 →
        exec (.copyPiece n k) s = .next ((setCopy (count s4 s4.th 0x213 (((ps.map fun p => p.1.n).sum + 127) / 128)) k
          { c with moved := c.moved + m, fetched := [] }).updTh fun t => { t with mcword := u.th.mcword })) ∧
      (∀ s5 ls c', c.readsDst m = true → ls = peerLines w (c.dstRuns m) → combinesThere w c ls = false →
        c' = { c with lock := (c.lock ++ ls).eraseDups } →
        Gathered (if c.kind = 1 then .atomic else .write) c.region (c.dstRuns m) (setCopy s2 k c') d s5 →
        data = pieceData c m c.size g d → Reaches .write (c.dstRuns m) (count s5 s5.th 0x211 (c.dstRuns m).length) ps s3 →
        Lands c.region false data ps s3 s4 →
        exec (.copyPiece n k) s = .next ((setCopy (count s4 s4.th 0x213 (((ps.map fun p => p.1.n).sum + 127) / 128)) k
          { c' with moved := c.moved + m, fetched := [] }).updTh fun t => { t with mcword := u.th.mcword })))) ∧
  (∀ (n k : Nat) (s u s1 : State) (c : Copy) (va z : Nat) (r : Route),
    focus s n = some u → u.th.status = .running → u.th.copies[k]? = some c → c.moved = c.total → engineTurn u u.th c = true →
    owed u u.th c.region = false → (c.kind = 2 → (if c.dst = 0 then u.th.fifo0 else u.th.fifo1).length < 2) →
    va = field c.desc 0x20 8 → z = (if field c.desc 0x14 2 / 2 % 2 = 1 then 4 else 8) →
    (field c.desc 0x14 2 % 2 = 0 → exec (.copyCompletion n k) s = .next (u.updTh (copyEnded k c))) ∧
    (field c.desc 0x14 2 % 2 = 1 →
      (resolve (BitVec.ofNat 64 va) z .write (u.updTh fun t => { t with mcword := c.mcword }) = .ok (r, s1) → r.mode = 0 →
        heldBy s1 s1.th c.region va z true = false → badMerge s1 r.key z = false →
        exec (.copyCompletion n k) s = .next ((putAt (siteRecall (countReq s1) r.key z) s1.th.part r.key
          (leBytes z (field c.desc 0x28 8 % 2 ^ (8 * z)))).updTh fun t => { copyEnded k c t with mcword := u.th.mcword })) ∧
      (∀ cause, cause = cXLAT ∨ cause = cPROT →
        resolve (BitVec.ofNat 64 va) z .write (u.updTh fun t => { t with mcword := c.mcword }) =
          .error (.trapBack s1 cause (BitVec.ofNat 64 va)) →
        exec (.copyCompletion n k) s = .next (s1.updTh fun t =>
          { copyEnded k c (t.setLate cause (BitVec.ofNat 64 va)) with mcword := u.th.mcword })))) ∧
  (∀ (real : Bool) (acc u x : Amp), chainStep real acc u x =
    ((fFma fp32 rne false (fFma fp32 rne false acc.1 u.1 x.1).1 (flipSign fp32 u.2) x.2).1,
      if real then 0 else (fFma fp32 rne false (fFma fp32 rne false acc.2 u.1 x.2).1 u.2 x.1).1)) ∧
  (∀ (f m off j b0 b1 : Nat) (g : SvGate) (as : Array Amp) (x : Nat → Amp) (y : Amp) (U : Nat → Nat → Nat → Amp) (ctl : Prop),
    j < as.size → x = (fun i => as.getD (i - off) (0, 0)) → b0 = mapBit m g.t0 → b1 = mapBit m g.t1 →
    U = (fun dim r q => (atD 0 (2 * (dim * r + q)) g.mat, atD 0 (2 * (dim * r + q) + 1) g.mat)) →
    (ctl ↔ ∀ q, q < 48 → g.cmask / 2 ^ q % 2 = 1 → idxBit (off + j) (mapBit m q) = g.cvals / 2 ^ q % 2) →
    y = (applyGate f m off g as).getD j (0, 0) →
    (g.kind = 1 → (¬ctl → y = x (off + j)) ∧ (ctl → ∀ r, r = idxBit (off + j) b0 →
      y = ampRound f (chainStep (decide (2 ≤ f)) (chainStep (decide (2 ≤ f)) (0, 0) (U 2 r 0) (x (idxPut (off + j) b0 0)))
        (U 2 r 1) (x (idxPut (off + j) b0 1))))) ∧
    (g.kind = 2 → (¬ctl → y = x (off + j)) ∧ (ctl → ∀ r, r = idxBit (off + j) b0 + 2 * idxBit (off + j) b1 →
      y = ampRound f ([0, 1, 2, 3].foldl (fun acc q =>
        chainStep (decide (2 ≤ f)) acc (U 4 r q) (x (idxPut (idxPut (off + j) b0 (q % 2)) b1 (q / 2)))) (0, 0)))) ∧
    (g.kind = 3 → y = if (∀ q, q < 48 → g.cmask / 2 ^ q % 2 = 1 → idxBit (off + j) (mapBit m q) = 1) then
      ampRound f (chainStep (decide (2 ≤ f)) (0, 0) (U 1 0 0) (x (off + j))) else x (off + j)) ∧
    (g.kind = 4 → y = x (idxPut (idxPut (off + j) b0 (idxBit (off + j) b1)) b1 (idxBit (off + j) b0)))) ∧
  (∀ (p : Nat × Nat) (as : Array Amp) (j : Nat), j < as.size → (swapBits p as).getD j (0, 0) =
    as.getD (idxPut (idxPut j p.1 (idxBit j p.2)) p.2 (idxBit j p.1)) (0, 0)) ∧
  ∀ (n : Nat) (s u w s1 s2 s3 s4 s5 s6 : State) (c : SvCmd) (l : List SvCmd) (b rec : Bytes) (ps0 ps1 ps : List Piece)
    (g0 g1 : List (Nat × Bytes)) (q f sz base : Nat),
    focus s n = some u → u.th.status ≠ .stopping .gang → u.th.svcmds = c :: l → (getPart u u.th.part).switchedOut = false →
    w = u.updTh (fun t => { t with mcword := c.mcword }) → b = c.recBytes →
    heldEarlier w c.region [⟨c.recVa, 128, 0⟩, ⟨field b 0 8,
      (if field b 11 1 = 0 then 2 ^ field b 8 1 else 2 ^ (field b 8 1 - field b 10 1)) * svSize (field b 9 1), 0⟩] true = false →
    (c.phase = 0 → field b 11 1 ≠ 1 → Reaches .read (ampRuns c.recVa 32 4) w ps0 s1 → FetchedAll c.region ps0 s1 g0 s2 → rec = placedAll 128 g0 →
      svValid rec = true → field rec 11 1 = 0 → q = field rec 8 1 → f = field rec 9 1 → sz = svSize f → base = field rec 0 8 →
      (c.op = 0 → Reaches .write (ampRuns base (2 ^ q) sz) (count s2 s2.th 0x211 ps0.length) ps s3 →
        (∀ r ∈ ampRuns base (2 ^ q) sz, heldBy s3 s3.th c.region r.va r.n true = false) →
        Lands c.region false ((List.range (2 ^ q)).flatMap fun j => if j = 0 then ampOne f else List.replicate sz 0) ps s3 s4 →
        exec (.svopPass n) s = .next (s4.updTh fun t => { t with
          svcmds := updAt 0 (fun _ => { c with phase := 1, newMap := mapId q }) t.svcmds, mcword := u.th.mcword })) ∧
      (∀ (as : Array Amp), c.op ≠ 0 → Reaches .read (ampRuns base (2 ^ q) sz) s2 ps1 s3 → FetchedAll c.region ps1 s3 g1 s4 →
        as = ((List.range (2 ^ q)).map fun j => ampOf f (((placedAll (2 ^ q * sz) g1).drop (j * sz)).take sz)).toArray →
        (∀ (swaps : List (Nat × Nat)) (m : Nat) (out : Array Amp), c.op ≠ 6 →
          swapPlan q (field rec 10 1) (field rec 0x28 36) c.gates = some (swaps, m) →
          out = c.gates.foldl (fun as g => applyGate f m 0 g as) (swaps.foldl (fun as p => swapBits p as) as) →
          Reaches .write (ampRuns base out.size sz) (count s4 s4.th 0x211 (ps0.length + ps1.length)) ps s5 →
          (∀ r ∈ ampRuns base out.size sz, heldBy s5 s5.th c.region r.va r.n true = false) →
          Lands c.region false (out.toList.flatMap (ampBytes f)) ps s5 s6 →
          exec (.svopPass n) s = .next (s6.updTh fun t => { t with
            svcmds := updAt 0 (fun _ => { c with phase := 1, newMap := m }) t.svcmds, mcword := u.th.mcword })) ∧
        (∀ (g : SvGate) (gs : List SvGate) (leaves : List TreeNode), c.op = 6 → c.gates = g :: gs →
          leaves = ((List.range (2 ^ q)).filter fun j => idxBit j (mapBit (field rec 0x28 36) g.t0) == 1).map (fun j =>
            (⟨0, j, (fFma fp64 rne false (fMul fp64 rne (f32To64 (as.getD j (0, 0)).2) (f32To64 (as.getD j (0, 0)).2)).1
              (f32To64 (as.getD j (0, 0)).1) (f32To64 (as.getD j (0, 0)).1)).1, j⟩ : TreeNode)) →
          Reaches .write (fieldRuns c.result 8) (count s4 s4.th 0x211 (ps0.length + ps1.length)) ps s5 →
          (∀ r ∈ fieldRuns c.result 8, heldBy s5 s5.th c.region r.va r.n true = false) →
          Lands c.region true (leBytes 8 (probSum c.fmode leaves)) ps s5 s6 →
          exec (.svopPass n) s = .next (s6.updTh fun t => { t with
            svcmds := updAt 0 (fun _ => { c with phase := 2 }) t.svcmds, mcword := u.th.mcword })))) ∧
    (c.phase = 1 → owed w w.th c.region = false → field b 11 1 ≠ 1 → Reaches .write (fieldRuns (c.recVa + 0x28) 36) w ps s1 →
      (∀ r ∈ fieldRuns (c.recVa + 0x28) 36, heldBy s1 s1.th c.region r.va r.n true = false) →
      Lands c.region true (leBytes 36 c.newMap) ps s1 s2 →
      exec (.svopPass n) s = .next (s2.updTh fun t => { t with
        svcmds := updAt 0 (fun _ => { c with phase := 2 }) t.svcmds, mcword := u.th.mcword })) ∧
    (c.phase = 2 → owed w w.th c.region = false →
      (c.done = 0 → exec (.svopPass n) s = .next (u.updTh fun t => { t with svcmds := l })) ∧
      (∀ r, c.done ≠ 0 → resolve (BitVec.ofNat 64 c.done) 8 .write w = .ok (r, s1) → r.mode = 0 →
        heldBy s1 s1.th c.region c.done 8 true = false → badMerge s1 r.key 8 = false →
        exec (.svopPass n) s = .next ((putAt (siteRecall (countReq s1) r.key 8) s1.th.part r.key (leBytes 8 c.value)).updTh
          fun t => { t with svcmds := l, mcword := u.th.mcword })))

/-! ## The matrix engine -/

/-- R40 to R43, R212 to R216: MTILE moves the head of a tile FIFO to a slot; MROW adds the products of an activation row
and a slot's tile to each of the 192 lanes of an accumulator row; MACCF, MACC and MACCZ read a row, and MACCZ zeroes it, once landed;
MZERO zeroes rows; MSTAT reads the status and MSTATC clears its flags. MTILE waits for a tile, and writes 0 to stat (R191).
That a row holds its sum at issue is the model's choice (log 27). -/
def Obligations.MatrixEngine : Prop :=
  ∀ (d a b : Reg) (k j : BitVec 1) (s s1 s2 s3 u : State) (v x : Dword) (tile : Tile) (rest : List Tile),
    (Ready (.mtile d a b) s = true → placed s false = true → rd b s = .ok (v, s1) → v.toNat < 256 →
      (if a = 0 then s1.th.fifo0 else s1.th.fifo1) = tile :: rest → tidFmt (tidAt s1 v.toNat) ≠ 0 →
      tidFmt (tidAt s1 v.toNat) = tile.fmt → tidPlanes (tidAt s1 v.toNat) = tile.planes →
      exec (.mtile d a b) s = .next (finish (stated (s1.updTh fun t =>
        { t with
          fifo0 := if a = 0 then rest else t.fifo0, fifo1 := if a = 0 then t.fifo1 else rest
          slot0 := if d = 0 then some tile else t.slot0, fill0 := if d = 0 then true else t.fill0
          slot1 := if d = 0 then t.slot1 else some tile, fill1 := if d = 0 then t.fill1 else true }) 0))) ∧
    (Ready (.mrow d a b k j) s = true → rd d s = .ok (v, s1) → v.toNat < s.th.acsSize →
      (if b = 0 then s.th.slot0 else s.th.slot1) = some tile → pairs tile.fmt s.cur.vtype.toNat = true →
      (if b = 0 then s.th.fill0 else s.th.fill1) = false → matrixReady s1 = true → placed s false = true →
      rowsRead s1 (fun r => r == v.toNat) = false → touches s.th (phys s.th a 0) = false → ready s1 [a] = .ok ((), s2) →
      ∃ t, exec (.mrow d a b k j) s = .next t ∧
        (∀ n, n < 192 → rowLane (t.th.row v.toNat) n =
          (laneOf tile s.cur.vtype.toNat (elem (vreg s2 a) (vwidth s.cur.vtype.toNat)) n
            (if j = 1 then none else some (rowLane (s2.th.row v.toNat) n))).1 % 2 ^ 32) ∧
        (∀ r, r ≠ v.toNat → t.th.row r = s2.th.row r) ∧ t.th.mseq = s2.th.mseq + 1 ∧
        t.rowq = s2.rowq ++ [⟨s2.th.lcore, s2.th.slot, v.toNat⟩] ∧ t.th.vreg = s2.th.vreg ∧ ∀ p, readByte t p = readByte s2 p) ∧
    (rdKept a s = .ok (v, s1) → v.toNat < s.th.acsSize → u = landed s1 → placed s false = true → destFree s d 0 = true →
      ∀ (out : Nat → FRes) (vt n : Nat), vt = s.cur.vtype.toNat → n = min s.cur.vl.toNat (16384 / vwidth vt) →
      (Ready (.maccf d a) s = true → vt = 8 ∨ vt = 9 ∨ vt = 10 →
        out = (fun i => if vt = 10 then (rowLane (u.th.row v.toNat) i, 0)
          else f32ToNarrow (vfmt vt) (elemRnd u i) true (rowLane (u.th.row v.toNat) i)) →
        ∃ t, exec (.maccf d a) s = .next t ∧ Wrote (phys s.th d 0) (vwidth vt) n
          (fun i => if i < 192 then some (out i).1 else none) (fun i => decide (i < 192) && faulty u (out i)) u (landed t)) ∧
      (Ready (.macc d a) s = true → vt = 0 ∨ vt = 2 ∨ vt = 4 →
        ∃ t, exec (.macc d a) s = .next t ∧ Wrote (phys s.th d 0) (vwidth vt) n (fun i => if i < 192 then
          some (codeOf (vwidth vt) (max (-(2 ^ (vwidth vt - 1) : Nat))
            (min ((2 ^ (vwidth vt - 1) : Nat) - 1) (signedOf 32 (rowLane (u.th.row v.toNat) i))))) else none)
          (fun _ => false) u (landed t)) ∧
      (Ready (.maccz d a) s = true →
        ∃ t, exec (.maccz d a) s = .next t ∧ Wrote (phys s.th d 0) 32 n
          (fun i => if i < 192 then some (rowLane (u.th.row v.toNat) i) else none) (fun _ => false)
          (u.updTh fun t => t.setRow v.toNat 0) (landed t))) ∧
    (Ready (.mzero a b) s = true → rd a s = .ok (v, s1) → rd b s1 = .ok (x, s2) →
      (x = 0 ∨ v.toNat + x.toNat ≤ s.th.acsSize) →
      (∀ q ∈ s2.rowq, ¬(q.lcore = s.th.lcore ∧ q.slot = s.th.slot ∧ v.toNat ≤ q.row ∧ q.row < v.toNat + x.toNat)) →
      rowsRead s2 (fun r => decide (v.toNat ≤ r) && decide (r < v.toNat + x.toNat)) = false →
      ∃ t, exec (.mzero a b) s = .next t ∧ ∀ r, t.th.row r =
        if v.toNat ≤ r ∧ r < v.toNat + x.toNat then 0 else s2.th.row r) ∧
    ((∀ q ∈ s.rowq, ¬(q.lcore = s.th.lcore ∧ q.slot = s.th.slot)) →
      wr d (BitVec.ofNat 64 (s.th.mseq % 2 ^ 32 * 2 ^ 32 + (if s.th.miovf then 4 else 0) + (if s.th.movf then 2 else 0) +
        (if s.th.minv then 1 else 0))) s = .ok ((), s3) →
      (Ready (.mstat d) s = true → exec (.mstat d) s = .next (finish s3)) ∧
      (Ready (.mstatc d) s = true → exec (.mstatc d) s = .next (finish (s3.updTh fun t =>
        { t with minv := false, movf := false, miovf := false }))))

/-! ## The bounded race -/

/-- R219 to R230: what each race function comes to once all in flight has landed. RCOPEN begins a race; RCNOISE writes the
noise of each index; RCSCORE turns the logit interval of each LIVE entry into a score interval; RCCUT settles, raises the bar
and drops; RCEXACT scores exactly; RCPOST sums the entries and sends a record; RCMERGE takes the records of a mailbox; RCBAR
raises the bar; RCPROB writes probability bounds; RCGET and RCPUT read and write registers; RCCLOSE ends the race. RCPOST and
RCPROB take RACEX with OVF set where an exponent overflows; RCPOST acts at its issue once nothing is in flight (log 16).
The +0 of p_lo for an underflowed term over a zero sum is the model's reading (log 76). -/
def Obligations.BoundedRace : Prop :=
  ∀ (d a b : Reg) (s s1 s2 s3 w : State) (v x : Dword) (n base : Nat) (r : Race) (live : Nat → Bool) (f : Option FReg),
    placed s false = true → n = min s.cur.vl.toNat 512 → base = s.cur.sbase.toNat → r = w.th.race →
    live = (fun k => decide (k < n) && (w.th.entry (base + k)).kind == 0) →
    (∀ m, Ready (.rcopen a) s = true → rdKept a s = .ok (v, s1) → w = landed s1 → v.toNat / 2 ^ 9 % 2 ^ 23 = 0 → v.toNat / 2 ^ 45 = 0 →
      v.toNat % 4 ≤ 1 → m = v.toNat / 2 ^ 32 % 2 ^ 13 → m ≤ s.th.boundSize →
      (v.getLsbD 7 = true → (w.th.fr (BitVec.ofNat 7 (v.toNat / 4 % 32))).mono = 1 ∧
        (w.th.fr (BitVec.ofNat 7 (v.toNat / 4 % 32))).dom ≠ none) →
      finite32 r.kappa.toNat = true → r.kappa.toNat % 2 ^ 31 ≠ 0 → r.kappa.getLsbD 31 = false →
      ∃ t u, exec (.rcopen a) s = .next u ∧ t = landed u ∧
        t.th.race = { r with
          mode := BitVec.ofNat 64 (v.toNat % 512 + 512), best := 0xFF800000, bidx := BitVec.allOnes 64, bar := 0xFF800000
          left := if m = 0 then 0xFF800000 else 0x7F800000, slo := 0, shi := 0, nlive := BitVec.ofNat 32 m, nexact := 0
          wterm := BitVec.ofNat 64 (canonNan fp64), rstat := 0 } ∧
        (∀ e, e < s.th.boundSize → t.th.entry e =
          if e < m then ⟨0, 0xFF800000, 0x7F800000, 0xFF800000, 0x7F800000⟩ else (w.th.entry e).exclude) ∧
        RaceKept [] none w t) ∧
    (Ready (.rcnoise d) s = true → w = landed s → s.cur.vtype = 10 → destFree s d 0 = true →
      ∃ t, exec (.rcnoise d) s = .next t ∧ Wrote (phys s.th d 0) 32 n (fun k => if k < n then
        some (if r.nnoise then 0 else noiseOf r.key (r.base + s.cur.sbase + BitVec.ofNat 64 k)) else none)
        (fun _ => false) w (landed t)) ∧
    (∀ (u y z : Nat → Nat) (out : Nat → Bound × Nat × Nat), Ready (.rcscore d a) s = true → r.isOpen = true → s.cur.vtype = 10 →
      (r.xform = false ∧ f = none ∨ r.xform = true ∧ f = some (w.th.fr r.freg) ∧ (w.th.fr r.freg).dom ≠ none) →
      (n = 0 ∨ base + n ≤ s.th.boundSize) → destFree s d 0 = true → destFree s d 1 = true →
      sources [phys s.th a 0, phys s.th a 1, phys s.th d 0] s = .ok ((), s1) → w = landed s1 →
      u = elem (w.th.vr (phys s.th a 0)) 32 → y = elem (w.th.vr (phys s.th a 1)) 32 →
      z = elem (w.th.vr (phys s.th d 0)) 32 → (∀ k, live k = true → outOfDomain f (u k) (y k) = false) →
      out = (fun k => if live k then (scoreOne r f (w.th.entry (base + k)) (u k) (y k) (z k)).2
        else (w.th.entry (base + k), if (w.th.entry (base + k)).kind = 3 then (0xFF800000, 0xFF800000)
          else ((w.th.entry (base + k)).slo.toNat, (w.th.entry (base + k)).shi.toNat))) →
      ∃ t u', exec (.rcscore d a) s = .next u' ∧ t = landed u' ∧ (∀ k, k < n → t.th.entry (base + k) = (out k).1) ∧
        (∀ e, e < base ∨ base + n ≤ e → t.th.entry e = w.th.entry e) ∧
        (∀ k, k < 512 → elem (t.th.vr (phys s.th d 0)) 32 k =
          if k < n then (out k).2.1 % 2 ^ 32 else elem (w.th.vr (phys s.th d 0)) 32 k) ∧
        (∀ k, k < 512 → elem (t.th.vr (phys s.th d 1)) 32 k =
          if k < n then (out k).2.2 % 2 ^ 32 else elem (w.th.vr (phys s.th d 1)) 32 k) ∧
        { t.th.race with rstat := r.rstat } = r ∧
        Tallied ((List.range n).countP fun k => live k && (isNan32 (u k) || isNan32 (y k))) 0 r.rstat t.th.race.rstat ∧
        SentBoth (phys s.th d 0) (phys s.th d 1) n w t ∧
        RaceKept [phys s.th d 0, phys s.th d 1] none w (t.updTh fun u => { u with vs := w.th.vs, flying := w.th.flying })) ∧
    (∀ (lo hi : Nat → Nat) (one : Nat → Bool) (q : Race), Ready (.rccut d a) s = true → r.isOpen = true → s.cur.vtype = 10 →
      (n = 0 ∨ base + n ≤ s.th.boundSize) → sources [phys s.th a 0, phys s.th a 1] s = .ok ((), s1) → w = landed s1 →
      lo = elem (w.th.vr (phys s.th a 0)) 32 → hi = elem (w.th.vr (phys s.th a 1)) 32 →
      one = (fun k => live k && eq32 (lo k) (hi k) &&
        eq32 (w.th.entry (base + k)).llo.toNat (w.th.entry (base + k)).lhi.toNat) →
      q = ((List.range n).filter one).foldl (fun q k =>
        q.improve (lo k) (w.th.entry (base + k)).llo.toNat (r.base + BitVec.ofNat 64 (base + k))) r →
      ∃ t u, exec (.rccut d a) s = .next u ∧ t = landed u ∧ t.th.race.bar.toNat = max32 r.bar.toNat t.th.race.best.toNat ∧
        { t.th.race with
          best := r.best, bidx := r.bidx, wterm := r.wterm, bar := r.bar, left := r.left, nlive := r.nlive
          nexact := r.nexact, rstat := r.rstat } = r ∧
        t.th.race.best = q.best ∧ t.th.race.bidx = q.bidx ∧ t.th.race.wterm = q.wterm ∧ Recounted t.th ∧
        Tallied 0 ((List.range n).countP fun k => live k && !one k && lt32 (hi k) t.th.race.bar.toNat)
          r.rstat t.th.race.rstat ∧
        (∀ k, live k = true → (t.th.entry (base + k)).kind =
            (if one k then 1 else if lt32 (hi k) t.th.race.bar.toNat then 2 else 0) ∧
          (t.th.entry (base + k)).slo = BitVec.ofNat 32 (lo k) ∧
          (t.th.entry (base + k)).shi = BitVec.ofNat 32 (if one k then lo k else hi k) ∧
          (t.th.entry (base + k)).llo = (w.th.entry (base + k)).llo ∧
          (t.th.entry (base + k)).lhi = if one k then (w.th.entry (base + k)).llo else (w.th.entry (base + k)).lhi) ∧
        (∀ k, k < n → live k = false → t.th.entry (base + k) = w.th.entry (base + k)) ∧
        (∀ e, e < base ∨ base + n ≤ e → t.th.entry e = w.th.entry e) ∧
        (d ≠ 0 → ∀ k, k < 2048 → (predVal t.th d.toNat).getLsbD k =
          (live k && (t.th.entry (base + k)).kind == 0)) ∧ RaceKept [] (some d.toNat) w t) ∧
    (∀ (u z l : Nat → Nat) (took gone : Nat → Bool) (q : Race), Ready (.rcexact d a) s = true → r.isOpen = true →
      s.cur.vtype = 10 → (n = 0 ∨ base + n ≤ s.th.boundSize) →
      (r.xform = false ∧ f = none ∨ r.xform = true ∧ f = some (w.th.fr r.freg) ∧ (w.th.fr r.freg).dom ≠ none) →
      sources [phys s.th a 0, phys s.th a 1] s = .ok ((), s1) → w = landed s1 →
      u = elem (w.th.vr (phys s.th a 0)) 32 →
      z = (fun k => if r.nnoise then 0 else elem (w.th.vr (phys s.th a 1)) 32 k) →
      l = (fun k => match f with
        | some g => g.eval (u k)
        | none => u k) →
      (∀ k, k < n → (w.th.entry (base + k)).kind % 2 = 0 → outOfDomain f (u k) (u k) = false) →
      gone = (fun k => isNan32 (u k) || (r.thrOn && lt32 (l k) r.thr.toNat)) →
      took = (fun k => decide (k < n) && (w.th.entry (base + k)).kind % 2 == 0 && !gone k) →
      q = ((List.range n).filter took).foldl (fun q k =>
        q.improve (fFma fp32 rne false (z k) r.kappa.toNat (l k)).1 (l k) (r.base + BitVec.ofNat 64 (base + k))) r →
      ∃ t u', exec (.rcexact d a) s = .next u' ∧ t = landed u' ∧ (∀ k, k < n → t.th.entry (base + k) =
          if (w.th.entry (base + k)).kind % 2 = 1 then w.th.entry (base + k)
          else if gone k then (w.th.entry (base + k)).exclude
          else exactBound (fFma fp32 rne false (z k) r.kappa.toNat (l k)).1 (l k)) ∧
        (∀ e, e < base ∨ base + n ≤ e → t.th.entry e = w.th.entry e) ∧
        t.th.race.best = q.best ∧ t.th.race.bidx = q.bidx ∧ t.th.race.wterm = q.wterm ∧
        { t.th.race with
          best := r.best, bidx := r.bidx, wterm := r.wterm, bar := r.bar, left := r.left, nlive := r.nlive
          nexact := r.nexact, rstat := r.rstat } = r ∧
        t.th.race.bar.toNat = max32 r.bar.toNat q.best.toNat ∧ Recounted t.th ∧
        Tallied ((List.range n).countP fun k => (w.th.entry (base + k)).kind % 2 == 0 && isNan32 (u k)) 0
          r.rstat t.th.race.rstat ∧
        (d ≠ 0 → ∀ k, k < 2048 → (predVal t.th d.toNat).getLsbD k = took k) ∧ RaceKept [] (some d.toNat) w t) ∧
    (Ready (.rcpost a b) s = true → w = s → s.th.idle = true → r.isOpen = true → rd a s = .ok (v, s1) → rd b s1 = .ok (x, s2) →
      x.toNat / 2 ^ 28 % 16 = 0 → x.toNat / 2 ^ 33 = 0 →
      (v.toNat % 2 ^ 32 = 0 ∨ specWidth (x.toNat % 2 ^ 28) = 2 ∧ specCount (x.toNat % 2 ^ 28) = 8 ∧
        specMailbox (x.toNat % 2 ^ 28) ≤ 7) →
      (∀ (lo hi ne : Nat) (all y : Bool),
        localSums r ((List.range s.th.boundSize).map s.th.entry) 0 (0, 0, 0, true) = .ok (lo, hi, ne, all) →
        y = (x.getLsbD 32 && all) →
        s3 = (laned s2).updTh (fun t => { t with
          race := { r with slo := BitVec.ofNat 64 (if y then ne else lo), shi := BitVec.ofNat 64 (if y then ne else hi) } }) →
        exec (.rcpost a b) s = .next (finish (if v.toNat % 2 ^ 32 = 0 then s3
          else sendRStore s3 (v.toNat % 2 ^ 32) (x.toNat % 2 ^ 28)
            (raceRecord r s3.th.tid y (if y then ne else lo) (if y then ne else hi)) false))) ∧
      (∀ e, localSums r ((List.range s.th.boundSize).map s.th.entry) 0 (0, 0, 0, true) = .error e →
        exec (.rcpost a b) s = .next (takeTrap (s.updTh fun t => { t with
          race := { t.race with rstat := t.race.rstat ||| 0x100000000000000 } }) cRACEX (BitVec.ofNat 64 e)))) ∧
    (∀ h, Ready (.rcmerge d) s = true → r.isOpen = true → isMailbox s.th (phys s.th d 0) = true →
      h = Store.get (⟨0, 0⟩ : Hold) s.th.hold (phys s.th d 0) → 1 ≤ h.count → h.count ≤ 64 →
      sources [phys s.th d 0] s = .ok ((), s1) → w = landed s1 →
      ∀ (recs : List Bytes) (isX : Bytes → Bool) (m0 m : Merge),
      recs = (List.range h.count).map (fun k =>
        (List.range 32).map fun i => (w.th.vr (phys s.th d 0)).extractLsb' (8 * (32 * k + i)) 8) →
      isX = (fun e => field e 12 4 / 2 ^ 31 % 2 == 1) →
      ((∃ e ∈ recs, field e 12 4 / 2 ^ 24 % 128 ≠ 0) →
        exec (.rcmerge d) s = .next (takeTrap s cILL ((encode (.rcmerge d)).setWidth 64))) ∧
      ((∀ e ∈ recs, field e 12 4 / 2 ^ 24 % 128 = 0) →
      m0 = recs.foldl (fun m e => m.add e (recs.all isX)) ⟨0xFF800000, 2 ^ 64 - 1, 0xFF800000, 0, 0⟩ →
      m = (if recs.any isX = true ∧ recs.all isX = false then { m0 with lo := 0, hi := fInf fp64 false } else m0) →
      ∃ t, exec (.rcmerge d) s = .next t ∧ Left (w.updTh fun t => { t with
        race := { r with
          best := BitVec.ofNat 32 m.best, bidx := BitVec.ofNat 64 m.bidx, left := BitVec.ofNat 32 m.left
          slo := BitVec.ofNat 64 m.lo, shi := BitVec.ofNat 64 m.hi, bar := BitVec.ofNat 32 (max32 r.bar.toNat m.best)
          wterm := if m.best = r.best.toNat ∧ m.bidx = r.bidx.toNat then r.wterm
            else BitVec.ofNat 64 (canonNan fp64) } }) (landed t))) ∧
    (Ready (.rcbar a) s = true → r.isOpen = true → rdKept a s = .ok (v, s1) → w = landed s1 →
      ∃ t, exec (.rcbar a) s = .next t ∧ Left (w.updTh fun t =>
        { t with race := { r with bar := BitVec.ofNat 32 (max32 r.bar.toNat (v.toNat % 2 ^ 32)) } }) (landed t)) ∧
    (∀ (e p : Rnd → Nat) (big : Nat → Bool), Ready (.rcprob d) s = true → r.isOpen = true → w = landed s →
      big = (fun x => (fCmp fp64 4 x 0x408FF80000000000).1) →
      e = (fun q => (fSub fp64 q r.wterm.toNat r.anchor.toNat).1) → p = (fun q => (fExp2 fp64 q (e q)).1) →
      (∀ lo hi ex : Nat,
        (r.bidx = BitVec.allOnes 64 ∧ lo = 0 ∧ hi = 0 ∧ ex = canonNan fp64 ∨
          r.bidx ≠ BitVec.allOnes 64 ∧ (unpack fp64 r.wterm.toNat).isNan = true ∧ lo = 0 ∧ hi = 0x3FF0000000000000 ∧
            ex = canonNan fp64 ∨
          r.bidx ≠ BitVec.allOnes 64 ∧ (unpack fp64 r.wterm.toNat).isNan = false ∧
            big (e rrd) = false ∧ big (e rru) = false ∧ big (e rne) = false ∧
            lo = pLow (p rrd) r.shi.toNat ∧
            hi = (fMinMax fp64 false 0x3FF0000000000000 (ratio rru (p rru) r.slo.toNat)).1 ∧
            ex = if (fCmp fp64 0 r.slo.toNat r.shi.toNat).1 = true ∧ r.left = 0xFF800000 then ratio rne (p rne) r.slo.toNat
              else canonNan fp64) →
        placed s (atOnce s d || atOnce s (d + 1) || atOnce s (d + 2)) = true →
        wr d (BitVec.ofNat 64 lo) w = .ok ((), s1) → wr (d + 1) (BitVec.ofNat 64 hi) s1 = .ok ((), s2) →
        wr (d + 2) (BitVec.ofNat 64 ex) s2 = .ok ((), s3) →
        ∃ t, exec (.rcprob d) s = .next t ∧ Left s3 (landed t)) ∧
      (r.bidx ≠ BitVec.allOnes 64 → (unpack fp64 r.wterm.toNat).isNan = false →
        (big (e rrd) = true ∨ big (e rru) = true ∨ big (e rne) = true) →
        exec (.rcprob d) s = .next (if s.th.idle = true then takeTrap (s.updTh fun t => { t with
          race := { t.race with rstat := t.race.rstat ||| 0x100000000000000 } }) cRACEX (BitVec.allOnes 64)
          else takePark s .work))) ∧
    (Ready (.rcget d b) s = true → w = landed s → placed s (atOnce s d) = true → wr d (r.get b.toNat) w = .ok ((), s1) →
      ∃ t, exec (.rcget d b) s = .next t ∧ Left s1 (landed t)) ∧
    (Ready (.rcput a b) s = true → rdKept a s = .ok (v, s1) → w = landed s1 → putAllowed r b.toNat v = true →
      ∃ t, exec (.rcput a b) s = .next t ∧ Left (w.updTh fun t => { t with race := r.put b.toNat v }) (landed t)) ∧
    (Ready .rcclose s = true → r.isOpen = true → w = landed s → ∃ t, exec .rcclose s = .next t ∧ Left (w.updTh fun t =>
      { t with race := { r with mode := r.mode &&& ~~~0x200#64 } }) (landed t))

/-! ## Function registers -/

/-- R231 to R239, R336: what each function-register instruction does with sources that have a domain and a result that
fits the thread's granules. FNSET takes coefficients and a domain; FNADD, FNMUL, FNCOMP, FNINT, FNDIFF, FNTRUNC, FNSCAL
and FNFIT make series; FNEVAL evaluates, recording a DOM fault of its register
at points outside the domain; FNROOT lists roots; FNMONO settles the
direction; FNGET and FNINFO read; FNFREE empties. The error bounds are those of R234 and R235, the sums exact and rounded up
once. Each is said of the state once all in flight has landed, and FNROOT and FNGET send
their register where it is bound outbound. The readings behind them are log 39. -/
def Obligations.FunctionRegisters : Prop :=
  ∀ (d a b : Reg) (s s1 s2 w : State) (v : Dword) (f g : FReg) (n tau : Nat),
    placed s false = true → f = w.th.fr a → g = w.th.fr b → tau = tolOf s → n = min s.cur.vl.toNat 512 →
    (rdKept b s = .ok (v, s1) → ready s1 [a] = .ok ((), s2) → w = landed s2 → s.cur.vl.toNat ≤ 256 →
      finite32 (v.toNat % 2 ^ 32) = true → finite32 (v.toNat / 2 ^ 32) = true →
      lt32 (v.toNat % 2 ^ 32) (v.toNat / 2 ^ 32) = true → fits w d s.cur.vl.toNat = true →
      (Ready (.fnset d a b) s = true → ∃ t, exec (.fnset d a b) s = .next t ∧ Left (fregSet w d
        (mkFreg (some (v.extractLsb' 0 32, v.extractLsb' 32 32)) (samples (vreg w a) s.cur.vl.toNat, 0) false 0)) (landed t)) ∧
      (Ready (.fnfit d a b) s = true → s.cur.vtype = 10 → 1 ≤ s.cur.vl.toNat →
        ∃ t, exec (.fnfit d a b) s = .next t ∧ Left (fregSet w d (mkFreg (some (v.extractLsb' 0 32, v.extractLsb' 32 32))
          (adaptive tau (refit (nodeTable s.cur.vl.toNat) (samples (vreg w a) s.cur.vl.toNat), 0)) true 0)) (landed t))) ∧
    (Ready (.fnfree d) s = true → w = landed s → ∃ t, exec (.fnfree d) s = .next t ∧ Left (fregSet w d FReg.empty) (landed t)) ∧
    (f.dom ≠ none → w = landed s →
      (Ready (.fnget d a) s = true → s.cur.vtype = 10 → destFree s d 0 = true →
        ∃ t, exec (.fnget d a) s = .next t ∧ Wrote (phys s.th d 0) 32 n (fun k =>
          if k < 256 then some (atD 0 k f.codes) else if k = 256 then some f.lo else if k = 257 then some f.hi
          else if k = 258 then some f.eps.toNat else if k = 259 then some (sumAbs rne f.codes)
          else if k = 260 then some f.beta else none) (fun _ => false) w (landed t)) ∧
      (g.dom = f.dom → Ready (.fnadd d a b) s = true → fits w d (max f.coef.length g.coef.length) = true →
        ∃ t, exec (.fnadd d a b) s = .next t ∧ Left (fregSet w d (mkFreg f.dom (adaptive tau
          ((List.range (max f.coef.length g.coef.length)).map (fun k =>
            (fAdd fp32 rne (atD 0 k f.codes) (atD 0 k g.codes)).1), (fAdd fp32 rru f.eps.toNat g.eps.toNat).1))
          (f.est || g.est) 0)) (landed t)) ∧
      (g.dom = f.dom → Ready (.fnmul d a b) s = true →
        fits w d (min (if f.coef = [] ∨ g.coef = [] then 0 else f.coef.length + g.coef.length - 1) 256) = true →
        ∀ (e sa sb : Nat), sa = sumAbs rru f.codes → sb = sumAbs rru g.codes →
        (finite32 sa = true ∧ finite32 sb = true ∧ finite32 f.eps.toNat = true ∧ finite32 g.eps.toNat = true →
          e = ((((dy f.eps.toNat).mul (dy sb)).add ((dy g.eps.toNat).mul (dy sa))).add
            ((dy f.eps.toNat).mul (dy g.eps.toNat))).round rru) →
        (¬(finite32 sa = true ∧ finite32 sb = true ∧ finite32 f.eps.toNat = true ∧ finite32 g.eps.toNat = true) →
          e = (fFma fp32 rru false (fFma fp32 rru false (fMul fp32 rru f.eps.toNat sb).1 g.eps.toNat sa).1
            f.eps.toNat g.eps.toNat).1) →
        ∃ t, exec (.fnmul d a b) s = .next t ∧ Left (fregSet w d (mkFreg f.dom
          (adaptive tau (forced (seriesMul f.codes g.codes, e))) (f.est || g.est) 0)) (landed t)) ∧
      (g.dom ≠ none → Ready (.fncomp d a b) s = true → fits w d 256 = true →
        g.codes.all finite32 = true → finite32 g.eps.toNat = true →
        (∀ rad : Dy, rad = (g.codes.drop 1).foldl (fun (s : Dy) c => s.add (dy c).abs) (dy g.eps.toNat) →
          le32 f.lo (((dy (atD 0 0 g.codes)).add rad.neg).round rrd) = true ∧
          le32 (((dy (atD 0 0 g.codes)).add rad).round rru) f.hi = true) →
        ∃ t, exec (.fncomp d a b) s = .next t ∧ Left (fregSet w d (mkFreg g.dom (adaptive tau
          (refit (nodeTable 256) ((List.range 256).map fun j => f.eval (g.eval (nodeX (nodeTable 256) 256 g.lo g.hi j))),
            (fFma fp32 rru false f.eps.toNat (sumAbs rru (seriesDiff f.lo f.hi f.codes)) g.eps.toNat).1)) true 0)) (landed t)) ∧
      (Ready (.fnint d a) s = true → fits w d (min (f.coef.length + 1) 256) = true →
        ∀ (e : Nat) (h : Dy), h = (dy f.hi).add (dy f.lo).neg →
        e = (if finite32 f.eps.toNat then ((dy f.eps.toNat).mul h).round rru
          else (fMul fp32 rru f.eps.toNat (h.round rru)).1) →
        ∃ t, exec (.fnint d a) s = .next t ∧ Left (fregSet w d (mkFreg f.dom
          (adaptive tau (forced (seriesInt f.lo f.hi f.codes, e))) f.est 0)) (landed t)) ∧
      (Ready (.fndiff d a) s = true → fits w d (f.coef.length - 1) = true →
        ∀ (e : Nat) (h : Dy), h = (dy f.hi).add (dy f.lo).neg →
        e = (if finite32 f.eps.toNat then
            ((Dy.nat (4 * f.coef.length * f.coef.length)).mul (dy f.eps.toNat)).ratio rru h
          else f.eps.toNat) →
        ∃ t, exec (.fndiff d a) s = .next t ∧ Left (fregSet w d
          (mkFreg f.dom (seriesDiff f.lo f.hi f.codes, e) true 0)) (landed t)) ∧
      (Ready (.fneval d a b) s = true → s.cur.vtype = 10 → destFree s d 0 = true → ready s [b] = .ok ((), s1) →
        ∀ y : State, y = landed s1 →
        ∀ away : Nat → Bool, away = (fun k => decide (k < n) && !isNan32 (elem (vreg y b) 32 k) &&
            (lt32 (elem (vreg y b) 32 k) f.lo || lt32 f.hi (elem (vreg y b) 32 k))) →
        ∃ t u, exec (.fneval d a b) s = .next u ∧ t = landed u ∧ (∀ k, k < 512 → elem (t.th.vr (phys s.th d 0)) 32 k =
            if k < n then
              (if isNan32 (elem (vreg y b) 32 k) then quieten fp32 (elem (vreg y b) 32 k)
              else if lt32 (elem (vreg y b) 32 k) f.lo || lt32 f.hi (elem (vreg y b) 32 k) then canonNan fp32
              else f.eval (elem (vreg y b) 32 k)) % 2 ^ 32
            else elem (y.th.vr (phys s.th d 0)) 32 k) ∧
          Marked away y t ∧ Sent (phys s.th d 0) n y t ∧
          (∀ k, k < 2048 → t.th.kind.getLsbD k = (y.th.kind.getLsbD k || (away k && !y.th.fmask.getLsbD k))) ∧
          ((∀ k, away k = false) → t.th.dom = y.th.dom ∧ t.th.multi = y.th.multi) ∧
          ((∃ k, away k = true) → t.th.dom = some (y.th.dom.getD (a.setWidth 5)) ∧
            t.th.multi = (y.th.multi || decide (∃ g, y.th.dom = some g ∧ g ≠ a.setWidth 5))) ∧
          VectorKept [phys s.th d 0] y (t.updTh fun u =>
            { u with kind := y.th.kind, dom := y.th.dom, multi := y.th.multi })) ∧
      (Ready (.fnroot d a b) s = true → s.cur.vtype = 10 → destFree s d 0 = true →
        ∀ roots : List Nat, roots = scanRoots f.eval (rootPoints f.lo f.hi f.codes) →
        placed s (atOnce s b) = true → wr b (BitVec.ofNat 64 roots.length) w = .ok ((), s1) →
        ∃ t, exec (.fnroot d a b) s = .next t ∧
          Wrote (phys s.th d 0) 32 n (fun k => if k < roots.length then some (atD 0 k roots) else none) (fun _ => false) s1
            (landed t)) ∧
      (Ready (.fntrunc d a) s = true → fits w d f.coef.length = true →
        ∃ t, exec (.fntrunc d a) s = .next t ∧ Left (fregSet w d
          (mkFreg f.dom (adaptive tau (f.codes, f.eps.toNat)) f.est 0)) (landed t)) ∧
      (Ready (.fnmono a) s = true → f.coef ≠ [] → ∃ t, exec (.fnmono a) s = .next t ∧ Left (fregSet w a
        { f with mono := BitVec.ofNat 2 (monoOf f.lo f.hi f.codes) }) (landed t)) ∧
      (Ready (.fninfo d a) s = true → placed s (atOnce s d) = true → wr d (BitVec.ofNat 64 (f.eps.toNat * 2 ^ 32 + (f.coef.length + 15) / 16 * 2 ^ 16 +
          2 ^ 12 + f.mono.toNat * 2 ^ 10 + (if f.est then 2 ^ 9 else 0) + f.coef.length)) w = .ok ((), s1) →
        ∃ t, exec (.fninfo d a) s = .next t ∧ Left s1 (landed t))) ∧
    (f.dom ≠ none → Ready (.fnscal d a b) s = true → rdKept b s = .ok (v, s1) → w = landed s1 → finite32 (v.toNat % 2 ^ 32) = true →
      fits w d f.coef.length = true →
      ∃ t, exec (.fnscal d a b) s = .next t ∧ Left (fregSet w d (mkFreg f.dom (adaptive tau
        (f.codes.map (fun c => (fMul fp32 rne c (v.toNat % 2 ^ 32)).1),
          (fMul fp32 rru f.eps.toNat (v.toNat % 2 ^ 31)).1)) f.est
        (if v.toNat % 2 ^ 31 = 0 then 0 else if v.getLsbD 31 = true then
          (if f.mono = 1 then 2 else if f.mono = 2 then 1 else f.mono) else f.mono))) (landed t))

/-! ## Groups -/

/-- R246 to R249, R251 to R254: a group function acts on the object its address names, or writes 0 and stat 0x32 where
the object is not in order. JOIN counts up and makes the joiner leader of a group without one; LEAVE counts down, and a
leader or a last member drops the name; GNAME takes the lowest free slot; GDROP drops; GINFO reads; GMOVE on the device of the
name rebinds its slot, to this device from another's it takes the lowest free slot here and lets the old name forward, and to
another device it asks that device for a name; a group without a name only changes its leader. GMBOX
declares a mailbox, VHOLD arms a hold, RSTV sends, RSTVR sends, waits and ends on its answer, GSTAT reports the counts and
clears them. The readings behind them are log 40 and log 41. -/
def Obligations.Groups : Prop :=
  ∀ (d a b : Reg) (s s1 s2 s3 s4 : State) (k : Nat) (g : GroupObj) (v n va : Dword) (pn me : Nat),
    va = Store.get 0 s.th.areg a.toNat →
    (groupAt va s = .ok (k, s1) → g = readGroup s1 k → pn = s1.th.part → me = s1.th.tid % 2 ^ 24 →
      (g.bad = true → wr d 0 s1 = .ok ((), s2) →
        (∀ i, (i = .join d a ∨ i = .gname d a ∨ i = .gdrop d a ∨ i = .ginfo d a) → Ready i s = true →
          exec i s = .next (finish (stated s2 0x32))) ∧
        (Ready (.leave d a) s = true → exec (.leave d a) s = .next (finish (leftMark (stated s2 0x32) va)))) ∧
      (g.bad = false →
        (Ready (.join d a) s = true → wr d (BitVec.ofNat 64 g.count)
            (writeGroup s1 pn k { g with
              count := (g.count + 1) % 2 ^ 32
              leader := if g.count = 0 ∨ g.leader = 0 then me else g.leader }) = .ok ((), s2) →
          exec (.join d a) s = .next (finish (stated s2 0))) ∧
        (Ready (.leave d a) s = true → g.count = 0 → wr d (BitVec.allOnes 64) s1 = .ok ((), s2) →
          exec (.leave d a) s = .next (finish (leftMark (stated s2 0) va))) ∧
        (Ready (.leave d a) s = true → g.count ≠ 0 →
          wr d (BitVec.ofNat 64 (g.count - 1))
            (if g.leader = me ∨ g.count = 1 then dropName (writeGroup s1 pn k ⟨g.count - 1, 0, 0, 0⟩) pn g.name
              else dropName (writeGroup s1 pn k { g with count := g.count - 1 }) pn 0) = .ok ((), s2) →
          exec (.leave d a) s = .next (finish (leftMark (stated s2 0) va))) ∧
        (Ready (.gname d a) s = true → g.leader ≠ me → wr d 0 s1 = .ok ((), s2) →
          exec (.gname d a) s = .next (finish (stated s2 0x30))) ∧
        (Ready (.gname d a) s = true → g.leader = me → g.name ≠ 0 → wr d (BitVec.ofNat 64 g.name) s1 = .ok ((), s2) →
          exec (.gname d a) s = .next (finish (stated s2 0))) ∧
        (Ready (.gname d a) s = true → g.leader = me → g.name = 0 → lowestFree s1 (getPart s1 pn) = none →
          wr d 0 s1 = .ok ((), s2) → exec (.gname d a) s = .next (finish (stated s2 0x31))) ∧
        (∀ j gen name, Ready (.gname d a) s = true → g.leader = me → g.name = 0 →
          lowestFree s1 (getPart s1 pn) = some j → gen = (slotOf s1 j).gen % 4095 + 1 →
          name = accId s1 (getPart s1 pn) * 2 ^ 22 + j * 2 ^ 12 + gen →
          wr d (BitVec.ofNat 64 name) (writeGroup (setSlot s1 j ⟨gen, some (pn, k), some me, none⟩) pn k
            { g with name := name, flags := 1 }) = .ok ((), s2) →
          exec (.gname d a) s = .next (finish (stated s2 0))) ∧
        (Ready (.gdrop d a) s = true →
          wr d 0 (dropName (writeGroup s1 pn k { g with name := 0, flags := 0 }) pn g.name) = .ok ((), s2) →
          exec (.gdrop d a) s = .next (finish (stated s2 0))) ∧
        (Ready (.ginfo d a) s = true → wr d (BitVec.ofNat 64 (g.count * 2 ^ 32 + g.name)) s1 = .ok ((), s2) →
          exec (.ginfo d a) s = .next (finish (stated s2 0))))) ∧
    (Ready (.gmove d a b) s = true → awaitingReply s = false → rd b s = .ok (v, s1) → groupAt va s1 = .ok (k, s2) →
      g = readGroup s2 k → pn = s2.th.part →
      (g.bad = true → wr d 0 s2 = .ok ((), s3) → exec (.gmove d a b) s = .next (finish (stated s3 0x32))) ∧
      (g.bad = false → g.name = 0 → wr d 0 (writeGroup s2 pn k { g with leader := v.toNat % 2 ^ 24 }) = .ok ((), s3) →
        exec (.gmove d a b) s = .next (finish (stated s3 0))) ∧
      (g.bad = false → g.name ≠ 0 → v.toNat / 2 ^ 24 % 1024 = accId s2 (getPart s2 pn) →
        (nameAcc g.name = accId s2 (getPart s2 pn) →
          wr d (BitVec.ofNat 64 g.name) (writeGroup
            (if (slotOf s2 (nameSlot g.name)).gen = nameGen g.name
              then setSlot s2 (nameSlot g.name) { slotOf s2 (nameSlot g.name) with leader := some (v.toNat % 2 ^ 24) }
              else s2) pn k { g with leader := v.toNat % 2 ^ 24 }) = .ok ((), s3) →
          exec (.gmove d a b) s = .next (finish (stated s3 0))) ∧
        (nameAcc g.name ≠ accId s2 (getPart s2 pn) →
          (lowestFree s2 (getPart s2 pn) = none → wr d 0 s2 = .ok ((), s3) →
            exec (.gmove d a b) s = .next (finish (stated s3 0x31))) ∧
          (∀ j gen name s5, lowestFree s2 (getPart s2 pn) = some j → gen = (slotOf s2 j).gen % 4095 + 1 →
            name = accId s2 (getPart s2 pn) * 2 ^ 22 + j * 2 ^ 12 + gen → name ≠ g.name →
            s5 = setSlot s2 j ⟨gen, some (pn, k), some (v.toNat % 2 ^ 24), none⟩ →
            wr d (BitVec.ofNat 64 name) (writeGroup (sendFor s5 (deviceThread pn) (.forward g.name name) (nameAcc g.name) 0 0
              (leBytes 4 g.name ++ leBytes 4 name) none []) pn k { g with name := name, leader := v.toNat % 2 ^ 24 }) =
                .ok ((), s3) →
            exec (.gmove d a b) s = .next (finish (stated s3 0))))) ∧
      (g.bad = false → v.toNat / 2 ^ 24 % 1024 ≠ accId s2 (getPart s2 pn) → g.name ≠ 0 →
        portRoom d s2 = .ok ((), s2) →
        exec (.gmove d a b) s = .next (takePark (sendReq s2 (.gmove k v) (v.toNat / 2 ^ 24 % 1024)
          (Store.get 0 s2.th.areg a.toNat) k (leBytes 4 (v.toNat % 2 ^ 24) ++ leBytes 4 g.name) (some d)) .reply))) ∧
    (touches s.th (phys s.th d 0) = false → ∀ ph, ph = phys s.th d 0 →
      (Ready (.gmbox d b) s = true → boundTo s.th ph = none →
        exec (.gmbox d b) s = .next (finish (s.updTh fun t =>
          { t with mbox := Store.insert (t.mbox.filter fun e => e.2 != ph && e.1 != b.toNat) b.toNat ph }))) ∧
      (Ready (.vhold d a) s = true → rd a s = .ok (v, s1) → (∃ e ∈ s.th.mbox, e.2 = ph) → 1 ≤ v.toNat → v.toNat ≤ 255 →
        exec (.vhold d a) s = .next (finish (s1.updTh fun t =>
          { t with hold := Store.put ⟨0, 0⟩ t.hold ph ⟨v.toNat, v.toNat⟩ }))) ∧
      (Ready (.rstv d a b) s = true → rd a s = .ok (n, s1) → rd b s1 = .ok (v, s2) → specOk v.toNat = true →
        ready s2 [d] = .ok ((), s3) →
        exec (.rstv d a b) s = .next (finish (sendRStore s3 (n.toNat % 2 ^ 32) v.toNat
          ((List.range (specCount v.toNat * 2 ^ specWidth v.toNat)).map fun i => (s3.th.vr ph).extractLsb' (8 * i) 8)
          false))) ∧
      (Ready (.rstvr d a b) s = true → ∀ s0 c, s.th.grep = some c → s0 = s.updTh (fun t => { t with grep := none }) →
        rd a s0 = .ok (n, s1) → rd b s1 = .ok (v, s2) → specOk v.toNat = true → ready s2 [d] = .ok ((), s3) →
        exec (.rstvr d a b) s = .next (if c = 0 then finish s3
          else takeTrap s0 cGRPN (BitVec.ofNat 64 (n.toNat % 2 ^ 32)))) ∧
      (Ready (.rstvr d a b) s = true → s.th.grep = none → awaitsAck s = false → rd a s = .ok (n, s1) →
        rd b s1 = .ok (v, s2) → specOk v.toNat = true → ready s2 [d] = .ok ((), s3) →
        storesOut s3 = false → awaitingReply s3 = false → boundary s = .ok ((), s4) →
        exec (.rstvr d a b) s = .next (takePark ((sendRStore s4 (n.toNat % 2 ^ 32) v.toNat
          ((List.range (specCount v.toNat * 2 ^ specWidth v.toNat)).map fun i => (s3.th.vr ph).extractLsb' (8 * i) 8)
          true).unpopped s) .ack))) ∧
    (Ready (.gstat d) s = true → s.th.gout = 0 → s.th.gok ≤ 65535 → s.th.gnack ≤ 65535 →
      wr d (BitVec.ofNat 64 (s.th.gok + s.th.gnack * 2 ^ 16 + s.th.gcause * 2 ^ 32)) s = .ok ((), s1) →
      exec (.gstat d) s = .next (finish (s1.updTh fun t => { t with gok := 0, gnack := 0, gcause := 0 })))

/-! ## System registers and threads -/

/-- R74 to R77, R260: MFS reads each system register as its table says, MTS writes it; MTS to SCOPETAB loads the scope
table, to VBASE moves the window, to FMODE writes the mode but a reserved rounding code, to LATTOL the tolerance, to CAUSE
the code, which retires a notice on 0x00 and on 0xFF also ends its task (R375). Whose digest registers a thread reads is
the model's reading (log 46). -/
def Obligations.SystemRegisters : Prop :=
  ∀ (d a b : Reg) (s s1 s2 : State) (v : Dword) (bs : Bytes),
    (Ready (.mfs d a b) s = true → SysReads s (sysNo a b) v → wr d v s = .ok ((), s1) →
      exec (.mfs d a b) s = .next (finish s1)) ∧
    (rd d s = .ok (v, s1) →
      (Ready (.mts d a b) s = true → SysWrites s1 (sysNo a b) v s2 → exec (.mts d a b) s = .next (finish s2)) ∧
      (Ready (.mtsScopetab d) s = true → v.toNat % 2048 = 0 → readBlock v 2048 .reply s1 = .ok (bs, s2) →
        exec (.mtsScopetab d) s = .next (finish (updPart s2 s2.th.part fun p =>
          { p with scopeVa := v, scopes := scopesOf bs }))) ∧
      (Ready (.mtsVbase d) s = true → 8 * (v.toNat % 64) < s.th.segSize →
        exec (.mtsVbase d) s = .next (finish (if s.strm = .x then s1.updTh fun t => { t with wbase := v.toNat % 64 } else s1))) ∧
      (Ready (.mtsVbase d) s = true → s.th.segSize ≤ 8 * (v.toNat % 64) →
        exec (.mtsVbase d) s = .next (takeTrap s cWIN (BitVec.ofNat 64 (8 * (v.toNat % 64) * 256 + 128)))) ∧
      (Ready (.mtsFmode d) s = true →
        exec (.mtsFmode d) s = .next (finish (s1.updCur fun c => { c with
          fmode := if v.toNat % 8 ≤ 4 then BitVec.ofNat 7 v.toNat
            else BitVec.ofNat 7 (v.toNat % 128 / 8 * 8 + c.fmode.toNat % 8) }))) ∧
      (Ready (.mtsLattol d) s = true →
        exec (.mtsLattol d) s = .next (finish { s1 with health := { s1.health with latTol := v.toNat % 2 ^ 24 } })) ∧
      (Ready (.mtsCause d) s = true → s2 = s1.updCur (fun c => { c with cause := v &&& 0xFF }) →
        (handledNotice s1 = none → exec (.mtsCause d) s = .next (finish s2)) ∧
        (∀ n, handledNotice s1 = some n →
          exec (.mtsCause d) s = .next (finish (if v &&& 0xFF = 0 then retireNotice s2
            else if v &&& 0xFF = 0xFF then endNoticed (retireNotice s2) n else s2)))))

/-- R256 to R264, R218: LAUNCH appends a valid record to its queue, or answers 0x41 for one that is not valid and 0x40 for
a full queue, in sd and stat; EXIT leaves its stream at its own address, waiting to end; HALT ends the thread; ERET retires
the notice and resumes its task at EPC, by the reissue of the resume table where EPC is its oldest entry's address, and takes
ILL where none is handled; CTXSAVE, CTXLOAD and RESUME act on a stopped
thread, PREEMPT on one that runs and waits for its stop; NOTIFY raises a vector; DIGCHK reports the digest comparison. The
readings behind them are log 44, log 46 (a launch without a recorded digest: the answer is free), log 48 and log 57. -/
def Obligations.Threads : Prop :=
  ∀ (d a b : Reg) (s s1 s2 s3 : State) (v va : Dword) (r : Bytes × Bool),
    va = Store.get 0 s.th.areg a.toNat →
    (Ready (.launch d a b) s = true → rd b s = .ok (v, s1) → v.toNat < 16 → va.toNat % 128 = 0 →
      readRecord va s1 = .ok (r, s2) → r.2 = false → wr d 0x41 (begun s2) = .ok ((), s3) →
      exec (.launch d a b) s = .next (finish (stated s3 0x41))) ∧
    (Ready (.launch d a b) s = true → rd b s = .ok (v, s1) → v.toNat < 16 → va.toNat % 128 = 0 →
      readRecord va s1 = .ok (r, s2) → r.2 = true → 64 ≤ ((getPart s2 s2.th.part).queue v.toNat).length →
      wr d 0x40 (begun s2) = .ok ((), s3) → exec (.launch d a b) s = .next (finish (stated s3 0x40))) ∧
    (Ready (.launch d a b) s = true → rd b s = .ok (v, s1) → v.toNat < 16 → va.toNat % 128 = 0 →
      readRecord va s1 = .ok (r, s2) → r.2 = true → ((getPart s2 s2.th.part).queue v.toNat).length < 64 →
      wr d 0 (begun (updPart s2 s2.th.part fun p =>
        p.setQueue v.toNat (p.queue v.toNat ++ [⟨recordOf r.1, 0, false⟩]))) = .ok ((), s3) →
      exec (.launch d a b) s = .next (finish (stated s3 0))) ∧
    (Ready .exit s = true →
      exec .exit s = .next ((retire s).updCur fun c => { c with exiting := true, park := some .exit })) ∧
    (Ready .halt s = true → exec .halt s = .next (retire (endThread (countIssue s) s.th s.strm true))) ∧
    (Ready .eret s = true → handledNotice s = none →
      exec .eret s = .next (takeTrap s cILL ((encode .eret).setWidth 64))) ∧
    (∀ n, Ready .eret s = true → handledNotice s = some n → noticeThread (retireNotice s) n = none →
      exec .eret s = .next (finish (retireNotice s))) ∧
    (∀ n t, Ready .eret s = true → handledNotice s = some n → noticeThread (retireNotice s) n = some t →
      exec .eret s = .next (finish (updThreads (resumeThread (retireNotice s) t) (sameThread t) fun u =>
        u.updStr (if n.estream == 0 then .a else .x) fun c =>
          { c with
            pc := if n.estream ≠ 0 ∧ u.resume.head?.map (fun e => e.pc) = some s.cur.epc then u.x.pc else s.cur.epc
            cause := s.cur.cause, epc := s.cur.epc, einfo := s.cur.einfo }))) ∧
    (∀ i, (i = .ctxsave a b ∨ i = .ctxload a b) → Ready i s = true → rd b s = .ok (v, s1) → va.toNat % 4096 = 0 →
      (findTid s1 v = none → exec i s = .next (finish (stated s1 0x51))) ∧
      (∀ t, findTid s1 v = some t → t.isStopped = false → exec i s = .next (finish (stated s1 0x50)))) ∧
    (∀ t c, Ready (.ctxsave a b) s = true → rd b s = .ok (v, s1) → va.toNat % 4096 = 0 → findTid s1 v = some t →
      t.status = .stopped c → saveAt va t s1 = .ok ((), s2) →
      exec (.ctxsave a b) s = .next (finish (stated s2 0))) ∧
    (∀ t c, Ready (.ctxload a b) s = true → rd b s = .ok (v, s1) → va.toNat % 4096 = 0 → findTid s1 v = some t →
      t.status = .stopped c → loadAt va t c s1 = .ok ((), s2) →
      exec (.ctxload a b) s = .next (finish (stated s2 0))) ∧
    (Ready (.notify a) s = true → rd a s = .ok (v, s1) → v.toNat < 64 →
      exec (.notify a) s = .next (finish (updPart s1 s1.th.part fun p => { p with msix := p.msix ++ [v.toNat] }))) ∧
    (Ready (.notify a) s = true → rd a s = .ok (v, s1) → 64 ≤ v.toNat →
      exec (.notify a) s = .next (takeTrap s cILL ((encode (.notify a)).setWidth 64))) ∧
    (∀ i, (i = .preempt a ∨ i = .resume a) → Ready i s = true → rd a s = .ok (v, s1) → findTid s1 v = none →
      exec i s = .next (finish (stated s1 0x51))) ∧
    (∀ t, Ready (.preempt a) s = true → rd a s = .ok (v, s1) → findTid s1 v = some t →
      (isUsher s1 t = true ∨ t.isStopped = true) → exec (.preempt a) s = .next (finish (stated s1 0))) ∧
    (∀ t, Ready (.preempt a) s = true → rd a s = .ok (v, s1) → findTid s1 v = some t →
      isUsher s1 t = false → t.isStopped = false →
      exec (.preempt a) s = .next (takePark ((setThread s1 (t.askStop .preempt)).unpopped s) .work)) ∧
    (∀ t, Ready (.resume a) s = true → rd a s = .ok (v, s1) → findTid s1 v = some t → t.isStopped = true →
      exec (.resume a) s = .next (finish (stated (resumeThread s1 t) 0))) ∧
    (∀ t, Ready (.resume a) s = true → rd a s = .ok (v, s1) → findTid s1 v = some t → t.isStopped = false →
      exec (.resume a) s = .next (finish (stated s1 0x50))) ∧
    (Ready (.digchk d) s = true → rd d s = .ok (v, s1) →
      s1.launches.find? (fun l => l.serial == v.toNat % 2 ^ 13 && l.part == s1.th.part) = none →
      wr d 3 s1 = .ok ((), s2) → exec (.digchk d) s = .next (finish s2)) ∧
    (∀ l, Ready (.digchk d) s = true → rd d s = .ok (v, s1) →
      s1.launches.find? (fun l => l.serial == v.toNat % 2 ^ 13 && l.part == s1.th.part) = some l →
      s2 = updPart s1 s1.th.part (fun p => { p with dig0 := l.digLo, dig1 := l.digHi }) →
      (l.ended = false ∨ l.ushered = true ∨ l.record.digLo ≠ 0 ∨ l.record.digHi ≠ 0 →
        wr d (if l.ended = false then 2 else if l.ushered = true then 4 else if digestWrong l = true then 1 else 0) s2 =
          .ok ((), s3) →
        exec (.digchk d) s = .next (finish s3)) ∧
      (l.ended = true → l.ushered = false → l.record.digLo = 0 → l.record.digHi = 0 →
        wr d (Config.freeValue s2.drawn) { s2 with drawn := s2.drawn + 1 } = .ok ((), s3) →
        exec (.digchk d) s = .next (finish s3)))

/-! ## The device's own events -/

/-- R78, R146, R178, R195, R198, R208, R258, R268, R270 to R279, R286, R339, R374, R376, R377, R418, R420: what each event
about one thread changes where its condition holds; where no thread occupies the slot, nothing changes. A pending fault is
taken at a boundary only, an INTG first. The readings behind them are log 1, log 13, log 16, log 28, log 29 and log 63. -/
def Obligations.ThreadEvents : Prop :=
  (∀ (i : Instr) (n : Nat) (s : State), OnSlot n i → focus s n = none → exec i s = .next s) ∧
  (∀ w s, exec (.ill w) s = .next (takeTrap s cILL (w.setWidth 64))) ∧
  ∀ (s u : State) (n k : Nat) (q : Strm), focus s n = some u →
    (u.th.status = .running →
      (∀ p, (u.th.str q).park = some p → parkOver u.th p = true →
        exec (.parkedStreamRelease n q) s = .next (unpark u q)) ∧
      (u.th.a.park = some .waita → exec (.waitaWake n) s = .next (unpark u .a)) ∧
      (u.th.a.park = some .vwait → exec (.vwaitWake n) s = .next (unpark u .a)) ∧
      (u.th.a.park = some .bwait → exec (.bwaitWake n) s = .next (unpark u .a)) ∧
      (∀ c, u.th.a.park = some .bwait → u.th.a.deadline = some c → c.toNat ≤ u.clock.toNat →
        exec (.bwaitTimeout n) s = .next (unpark u .a)) ∧
      (∀ x y, stuckOn u.th .a = some x → stuckOn u.th .x = some y → atBoundary u .x = true →
        exec (.qdeadDetection n) s = .next (takeTrap { u with strm := .x } cQDEAD (x ||| y))) ∧
      (∀ x, stuckOn u.th .a = some x → stuckOn u.th .x = none → u.th.x.exiting = true → atBoundary u .a = true →
        exec (.qdeadDetection n) s = .next (takeTrap { u with strm := .a } cQDEAD x)) ∧
      (∀ y, stuckOn u.th .a = none → stuckOn u.th .x = some y → u.th.a.exiting = true → atBoundary u .x = true →
        exec (.qdeadDetection n) s = .next (takeTrap { u with strm := .x } cQDEAD y)) ∧
      (∀ c e, (u.th.str q).late = some (c, e) → u.th.intg = none → atBoundary u q = true →
        exec (.lateEngineFault n q) s =
          .next (takeTrap { (u.updTh fun t => t.updStr q fun x => { x with late := none }) with strm := q } c e)) ∧
      (∀ m, u.th.intg = some m → atBoundary u .x = true → exec (.intg n) s =
        .next (takeTrap { (u.updTh fun t => { t with intg := none }) with strm := .x } cINTG
          (BitVec.ofNat 64 (m % 2 ^ 32)))) ∧
      (∀ (c : BitVec 8) (va : BitVec 55) (i : Dword) (w : State), unitOk q c.toNat va.toNat = true → i = c ++ (0#1 ++ va) →
        w = (if c = 7 ∧ (q, i) ∉ u.th.devErr then engineStopped u else u) →
        (atBoundary u q = true → (u.th.intg = none ∨ atBoundary u .x = false) →
          exec (.deverr n q c va) s = .next (takeTrap { (w.updTh fun t =>
            { t with devErr := dropFirst (fun e => e == (q, i)) t.devErr }) with strm := q } cDEVERR i)) ∧
        (∀ m, atBoundary u q = true → atBoundary u .x = true → u.th.intg = some m →
          exec (.deverr n q c va) s = .next (takeTrap { (w.updTh fun t => { t with
            devErr := if (q, i) ∈ u.th.devErr then t.devErr else t.devErr ++ [(q, i)], intg := none }) with strm := .x } cINTG
              (BitVec.ofNat 64 (m % 2 ^ 32))))) ∧
      (∀ t e g, laneChoice u u.th.lcore k = some t → t.slot = u.th.slot → laneWork u u.th k = some (e, g) →
        ∃ v, exec (.elementGroupStart n k) s = .next v ∧ v.th = { u.th with
            flying := updAt e (fun f => { f with started := f.started ||| (1#16 <<< g) }) u.th.flying } ∧
          v.laneTurn = Store.put 3 u.laneTurn (4 * u.th.lcore + k) u.th.slot) ∧
      (writeReady u u.th k = true → ∃ v, exec (.elementGroupWrite n k) s = .next v ∧ v.th = stepGroup u.th k ∧
        { v with th := u.th, counters := u.counters } = u ∧
        ∀ f, u.th.flying[k]? = some f → f.shape.whole = false → f.written + 1 < f.shape.groups →
          v.th = { u.th.apply (f.eff.part f.shape.width (f.written * f.shape.per) ((f.written + 1) * f.shape.per) false) with
            flying := updAt k (fun g => { g with written := f.written + 1 }) u.th.flying }) ∧
      exec (.copyPiece n k) s = .next (copyPiece k u) ∧
      (copyDone u u.th k = true → exec (.copyCompletion n k) s = .next (finishCopy k u)) ∧
      (u.th.budget ≠ 0 → u.th.budget ≤ u.th.consumed → isUsher u u.th = false → takePending u .a = none →
        takePending u .x = none → exec (.budgetExpiry n) s = .next (u.updTh fun t => { t with status := .stopping .budget })) ∧
      ((u.th.str q).exiting = true → (u.th.str q).ended = false → takePending u q = none → StreamFinished u q →
        ∀ v, v = u.updTh (fun t => endStream t q) → exec (.streamEnd n q) s =
          .next (if (v.th.a.ended && v.th.x.ended) = true then endThread v v.th q false else v))) ∧
    (u.th.status ≠ .running → ∀ (c : BitVec 8) (va : BitVec 55) (i : Dword), unitOk q c.toNat va.toNat = true →
      i = c ++ (0#1 ++ va) → ((q, i) ∈ u.th.devErr → exec (.deverr n q c va) s = .next u) ∧
      ((q, i) ∉ u.th.devErr → exec (.deverr n q c va) s =
        .next ((if c = 7 then engineStopped u else u).updTh fun t => { t with devErr := t.devErr ++ [(q, i)] }))) ∧
    (u.th.status ≠ .stopping .gang → exec (.svopPass n) s = .next (svPass u)) ∧
    (∀ r w, u.th.status = .stopping r → stopReady u u.th = true → w = finishStarted u 144 (dropStrips u.th) →
      ∃ t, exec (.threadStopComplete n) s = .next t ∧
        t.th.status = (if r = .repair ∧ (getPart u u.th.part).switchedOut = false then .running else .stopped r) ∧
        t.th.savedClock = u.clock ∧ t.th.flying = [] ∧
        t.th.resume = w.flying.map (fun f => (⟨f.pc, if f.done then min f.shape.n 2047 else if f.shape.whole then 0
          else f.written * f.shape.per, f.fmode, f.wbase, f.gpred, f.x, if f.done then some f else none⟩ : Resume)) ++ w.resume ∧
        t.th.a = { w.a with park := none, exiting := false, object := none, ibuf := [], popped := [] } ∧
        t.th.x = { w.x with park := none, exiting := false, object := none, ibuf := [], popped := [] } ∧
        t.th.copies = w.copies.map (fun c => { c with fetched := [], lock := [] }) ∧ t.th.fill0 = false ∧ t.th.fill1 = false ∧
        t.reqs = u.reqs.filter (fun q => !(q.of u.th && q.early)) ∧
        t.rowq = u.rowq.filter (fun j => !(j.lcore == u.th.lcore && j.slot == u.th.slot)) ∧
        ∃ e l, (getPart t u.th.part).notices = (getPart u u.th.part).notices ++ l ∧
          (r = .budget → l = [⟨w.tid, cBUDGET.setWidth 64, w.a.pc, BitVec.ofNat 64 w.consumed, 0, e⟩]) ∧
          (r = .trap → ∀ c, c = (if w.estream = 0 then w.a else w.x) →
            l = if c.priv = 0 then [⟨w.tid, c.cause, c.epc, c.einfo, w.estream, e⟩] else []) ∧
          (r ≠ .budget → r ≠ .trap → l = [])) ∧
    (∀ f l j c r, u.th.flying = f :: l → f.out = (j, c) :: r → f.done = true → (u.th.vstream j).chunks.length < 4 →
      (∀ g ∈ l, g.done = false ∨ g.out ≠ []) →
      exec (.outboundChunkEntry n) s = .next (u.updTh fun t =>
        { t.setVstream j { t.vstream j with chunks := (t.vstream j).chunks ++ [c] } with
          flying := if r = [] then l else { f with out := r } :: l })) ∧
    (∀ x, u.th.xfers[k]? = some x → xferReady u u.th k = true →
      exec (.streamTransferCompletion n k) s = .next (u.updTh fun t =>
        { (match x.vs with
          | some j => t.setVstream j { t.vstream j with chunks := (t.vstream j).chunks ++ [x.chunk] }
          | none => t) with xfers := t.xfers.take k ++ t.xfers.drop (k + 1) })) ∧
    (∀ j l, u.rowq = j :: l → j.lcore = u.th.lcore → j.slot = u.th.slot →
      exec (.matrixRowProcessing n) s = .next { u with rowq := l }) ∧
    exec (.tileFill n 0) s = .next (u.updTh fun t => { t with fill0 := false }) ∧
    exec (.tileFill n 1) s = .next (u.updTh fun t => { t with fill1 := false }) ∧
    exec (.conflictConfirmation n) s =
      .next (u.updTh fun t => { t with confirm := t.confirm.map fun e => (e.1, true) })

/-- R182, R248 to R255, R265, R289, R292, R366 to R378, R386 to R410, R421, R444: what the device's events on the fabric,
about names, launches, gang slices and invalidation change where their conditions hold: answers and NACKs of peers,
remote stores at their target, requests of peers checked against the membership table, and requests of the host. The
readings behind them are log 11, log 12, log 41, log 43, log 45, log 48, log 51, log 53, log 64 and log 65. -/
def Obligations.DeviceEvents : Prop :=
  ∀ (s : State) (req p k : Nat) (data : Bytes),
    (∀ q u, s.reqs.find? (fun r => r.id == req) = some q → focusReq s q = some u →
      (s.clock.toNat < q.issued + 150000 →
        (q.kind = .load ∨ (∃ op e x y, q.kind = .atomic op e x y) → ∀ b v old, old = leNat (padTo q.width data) →
          (if q.owesBoundary old then boundary else pure ()) { u with strm := .a } = .ok ((), b) →
          wr (q.dst.getD 0) (BitVec.ofNat 64 old) b = .ok ((), v) →
          exec (.loadCompletion req data) s = .next (dropReq (advance (retire v)) q.id)) ∧
        (∀ key spec w v name, q.kind = .gmove key spec → name = leNat (padTo 4 data) → w = { u with strm := .a } →
          wr (q.dst.getD 0) (BitVec.ofNat 64 name)
            (if name = 0 then w else moveGroup w w.th.part key (readGroup w key) (spec.toNat % 2 ^ 24) name) = .ok ((), v) →
          exec (.loadCompletion req data) s =
            .next (dropReq (advance (retire (stated v (if name = 0 then 0x31 else 0)))) q.id)) ∧
        (∀ quiet, q.kind = .store quiet → exec (.loadCompletion req data) s =
          .next (if quiet = true then dropReq u q.id else counted q (dropReq u q.id)))) ∧
      (∀ n c e w, NackTrap n q.va c e → q.va < 2 ^ 64 → w = unpark (giveBack q.popped (dropReq u q.id)) .a → u.th.status = .running →
        (q.kind = .load ∨ (∃ op e x y, q.kind = .atomic op e x y) ∨ q.kind = .poll ∧ u.th.a.park.isSome = true) →
        (s.clock.toNat < q.issued + 150000 →
          exec (.fabricNack req n) s = .next (takeTrap { w with strm := .a } c e)) ∧
        (q.issued + 150000 ≤ s.clock.toNat → n = 4 →
          exec (.fabricRequestTimeout req) s = .next (takeTrap { w with strm := .a } c e))) ∧
      (∀ n c e quiet, NackTrap n q.va c e → q.va < 2 ^ 64 → q.kind = .store quiet → s.clock.toNat < q.issued + 150000 →
        exec (.fabricNack req n) s = .next ((dropReq u q.id).updTh fun t => t.setLate c e))) ∧
    (∀ q region word copies ok nacks first (peer : BitVec 10) c left,
      s.reqs.find? (fun r => r.id == req && timely s r.issued) = some q →
      q.kind = .multicast region word copies ok nacks first → left = dropFirst (fun c => c.1 == peer.toNat) copies →
      ∀ ok' nacks' first',
      ok' = (if c = 0 then ok + 1 else ok) → nacks' = (if c = 0 then nacks else nacks + 1) →
      first' = (if c ≠ 0 ∧ nacks = 0 then some (peer.toNat, c) else first) →
      ((∀ e ∈ copies, e.1 ≠ peer.toNat) → exec (.multicastCopyAnswer req peer c) s = .next s) ∧
      ((∃ e ∈ copies, e.1 = peer.toNat) → left ≠ [] → exec (.multicastCopyAnswer req peer c) s = .next { s with
        reqs := s.reqs.map fun r =>
          if r.id == q.id then { r with kind := .multicast region word left ok' nacks' first' } else r }) ∧
      ((∃ e ∈ copies, e.1 = peer.toNat) → left = [] → exec (.multicastCopyAnswer req peer c) s =
        .next (mcUpdate (dropReq s q.id) (reqThread (dropReq s q.id) q) word ok' nacks' first'))) ∧
    (∀ r rest v s1 src, s.rstores = r :: rest → r.id = k → r.src = some src → goesAway s r = false →
      s1 = { s with rstores := rest } → v = slotOf s (nameSlot r.name.toNat) →
      ((v.gen ≠ nameGen r.name.toNat ∨ v.object = none ∧ v.forward = none) →
        exec (.mailboxArrival k) s = .next (answerStore s1 r 1)) ∧
      (∀ o pn, v.gen = nameGen r.name.toNat → v.object = some o → r.part = some pn →
        (pn ≠ o.1 → exec (.mailboxArrival k) s = .next (answerStore s1 r 4)) ∧
        (∀ name c, pn = o.1 → v.forward = some (name, c) → s.clock.toNat < c →
          exec (.mailboxArrival k) s = .next { s1 with
            rstores := rest ++ [{ r with name := BitVec.ofNat 32 name, station := stationOf s1 (nameAcc name) 0 }] }) ∧
        (∀ t, pn = o.1 → v.forward = none → leaderOf s1 v = some t →
          exec (.mailboxArrival k) s = .next
            (if Store.has t.mbox r.mailbox = false then answerStore s1 r 2
            else if 2048 < r.offset + r.data.length then answerStore s1 r 3
            else answerStore (deliverStore s1 t (Store.get 0 t.mbox r.mailbox) r) r 0)))) ∧
    (∀ r rest n, s.ranswers = r :: rest → r.id = k →
      exec (.remoteStoreAnswer k n) s = .next (countAnswer { s with ranswers := rest } r.src r.waits r.cause)) ∧
    (∀ f c, (slotOf s k).forward = some (f, c) → c ≤ s.clock.toNat →
      exec (.nameForwardingExpiry k) s = .next (setSlot s k ⟨(slotOf s k).gen % 4095 + 1, none, none, none⟩)) ∧
    (∀ q r a s1, (getPart s p).queue k = q :: r → (getPart s p).switchedOut = false →
      devicePlace (readyFrame s p q.record.dep) p q.record.dep 8 .read = some (a, s1) → badUnit s1 a 8 = false →
      exec (.dependencyWordRead p k) s = .next (updPart s1 p fun u =>
        u.setQueue k ({ q with ready := decide (q.record.depval ≤ readLE s1 a 8) } :: r))) ∧
    (∀ j q pl, nextDispatch s p = some (j, q, pl) → exec (.launchDispatch p) s = .next (startLaunch
      (updPart s p fun u => { u.setQueue j ((u.queue j).drop 1) with lastServed := j }) p q.record pl)) ∧
    (∀ j q pl, nextStaging s p = some (j, q, pl) →
      exec (.launchStaging p) s = .next (stageHead s p j q.record pl)) ∧
    (∀ g pl, stagedReady s p = some (g, pl) →
      exec (.stagedLaunchStart p) s = .next (dispatchHead (updPart s p fun u => { u with staged := none }) p g.queue g.record pl)) ∧
    (∀ d j, (getPart s p).state ≠ .free → (getPart s p).gang ≠ 0 → (getPart s p).switchedOut = false →
      (schedOf s (getPart s p)).now s.clock.toNat = some (d, j) → j ≠ p →
      ∃ t, exec (.gangStop p) s = .next t ∧ (getPart t p).switchedOut = true ∧
        t.mem = s.mem ∧ ∀ u ∈ allThreads t, u.part = p → u.status ≠ .running) ∧
    (sliceBegins s p = true → ∀ s1 s2,
      s1 = ((allThreads s).filter fun t => t.status != .free && t.part == p).foldl gangRestore
        (updPart s p fun u => { u with switchedOut := false }) →
      s2 = (if (getPart s1 p).state = .run ∧ (getPart s1 p).usherUp = false then beginUsher s1 p else s1) →
      exec (.gangResume p) s = .next ((List.range 16).foldl (fun s j => readDep s p j) s2)) ∧
    ((∀ d, (schedOf s (getPart s p)).now s.clock.toNat = some (d, p) → d < 225000) →
      exec (.gangResume p) s = .next s) ∧
    (∀ j, nextSharer s k = some j →
      exec (.sharedCoreTimeSlice k) s = .next { s with shareTurn := Store.put 0 s.shareTurn k j }) ∧
    exec (.invalidationRequest p) s =
      .next (updPart s p fun u => { u with invTail := readLE s (blockBase u + 0x20) 8 }) ∧
    (∀ h b, h = (getPart s p).invHead → b = ringEntry s (getPart s p) h → h < (getPart s p).invTail →
      ∀ s1, s1 = (if ringVoid b = true then logEvent s p 6 0 (field b 8 8) 0 0 0 0 else if field b 24 8 = 0 then invalidate s p b
        else (deviceStore (invalidate s p b) p (field b 24 8) (.device none) (leBytes 8 (field b 32 8))).1) →
      exec (.invalidationRetire p) s = .next (writeLE (updPart s1 p fun u => { u with invHead := u.invHead + 1 })
        (blockBase (getPart s p) + 0x28) 8 (h + 1))) ∧
    (∀ f, waitingFrame s p k false = some f → exec (.replicaFill p k data) s = .next (fillFrame s f data) ∧
      ∀ i, i < 65536 → readByte (fillFrame s f data) (f.pa + i) = atD 0 i data) ∧
    (∀ f, waitingFrame s p k true = some f → (∀ q ∈ s.reqs, q.part = p → q.va / 65536 = k → q.fills p k = true) →
      exec (.migration p k data) s = .next (migrate s p f data)) ∧
    (∀ (src : ReqFrom) (key : BitVec 16) (pa n : Nat), s.health.power.active = false → portTakes pa n = true →
      exec (.fabricReadRequest src key pa n) s = exec (.fabricReadRequest src key pa n) (wake s)) ∧
    (∀ (src : ReqFrom) (key : BitVec 16) (pa n : Nat), s.health.power.active = true →
      (∀ a, portTakes pa n = true → answered s src.acc.toNat src.id = some a →
        exec (.fabricReadRequest src key pa n) s = .next { s with sent := s.sent ++ [a] }) ∧
      (answered s src.acc.toNat src.id = none →
        (∀ e, portTakes pa n = true → memberAt s key.toNat pa n = none →
          s.parts.find? (fun q => q.2.state != .free && inWindows q.2 pa n) = some e →
          exec (.fabricReadRequest src key pa n) s = .next (logEventOf s e.1 1 src.acc.toNat key.toNat pa 0 0 0 0)) ∧
        (∀ m, portTakes pa n = true → memberAt s key.toNat pa n = some m →
          (m.holds pa n = false ∨ inWindows (getPart s m.part) pa n = false) →
          exec (.fabricReadRequest src key pa n) s = .next { s with sent := s.sent ++ [⟨src.acc.toNat, src.id, 1, []⟩] }) ∧
        (∀ m, portTakes pa n = true → memberAt s key.toNat pa n = some m → m.holds pa n = true →
          inWindows (getPart s m.part) pa n = true → m.may 1 = false →
          exec (.fabricReadRequest src key pa n) s = .next { s with sent := s.sent ++ [⟨src.acc.toNat, src.id, 2, []⟩] }) ∧
        (∀ m, Admitted s key pa n 1 m → ∀ s1, s1 = siteRecall s pa n →
          exec (.fabricReadRequest src key pa n) s = .next
            (if badUnit s pa n = true then { s with sent := s.sent ++ [⟨src.acc.toNat, src.id, 3, []⟩] }
            else { s1 with sent := s1.sent ++ [⟨src.acc.toNat, src.id, 0, readBytes s pa n⟩] })) ∧
        (∀ m, Admitted s key pa data.length 2 m → badMerge s pa data.length = false →
          ∀ s1, s1 = putAt (siteRecall s pa data.length) m.part pa data →
          exec (.fabricWriteRequest src key pa data) s = .next { s1 with sent := s1.sent ++ [⟨src.acc.toNat, src.id, 0, []⟩] }) ∧
        (∀ m op x y s1, Admitted s key pa (rmwSize op) 3 m → pa % rmwSize op = 0 → badUnit s pa (rmwSize op) = false →
          s1 = (homeAtomic s m.part pa op x.toNat y.toNat).1 →
          exec (.fabricAtomicRequest src key pa op x y) s =
            .next { s1 with sent := s1.sent ++ [⟨src.acc.toNat, src.id, 0, leBytes (rmwSize op) (readLE s pa (rmwSize op))⟩] }) ∧
        (∀ m c s1, Admitted s key c.pa 256 2 m → s1 = (redApply s m.part src.acc.toNat c).1 →
          exec (.redContribution src key c) s =
            .next { s1 with sent := s1.sent ++ [⟨src.acc.toNat, src.id, (redApply s m.part src.acc.toNat c).2, []⟩] }))) ∧
    (∀ r, s.rounds.find? (fun r => r.part == p && r.pa == k && r.ordered) = some r → redTmo (redEntry s p r.ridx) ≠ 0 →
      r.since + 1500 * redTmo (redEntry s p r.ridx) ≤ s.clock.toNat →
      exec (.redRoundTimeout p k) s = .next (flushRound s r)) ∧
    (∀ (st : BitVec 4) (s1 : State) (away : Nat → Nat → Nat → Nat), s1 = { s with
        failedLinks := if s.failedLinks.contains st.toNat then s.failedLinks else s.failedLinks ++ [st.toNat] } →
      away = (fun old peer pa => if old = st.toNat then stationOf s1 peer pa else old) →
      exec (.linkFailure st) s = .next { s1 with
        reqs := s.reqs.map fun q => { q with
          station := away q.station q.peer q.pa
          kind := match q.kind with
            | .multicast g w copies ok no first =>
              .multicast g w (copies.map fun c => (c.1, away c.2 c.1 q.pa)) ok no first
            | k => k }
        rstores := s.rstores.map fun r => { r with station := away r.station (nameAcc r.name.toNat) 0 } }) ∧
    (∀ (ide : Bool) (va : BitVec 64) op x y,
      (va.toNat % rmwSize op ≠ 0 ∨ (getPart s p).state = .run ∧ ide = false →
        exec (.hostAtomicOp ⟨p, ide⟩ va op x y) s = .next { s with hostLog := s.hostLog ++ [.abort (getPart s p).vf] }) ∧
      ∀ e s1 pa, ((getPart s p).state = .run → ide = true) → 2 ^ 32 ≤ va.toNat → va.toNat < 2 ^ 55 →
        va.toNat % rmwSize op = 0 → lookup s p va.toNat = some (e, s1) → pa = e.addr va.toNat →
        s1.health.power.active = true →
        (pteBit e.leaf 7 = false → ∀ s2, s2 = logEvent s1 p 7 0 pa 0 0 0 0 → exec (.hostAtomicOp ⟨p, ide⟩ va op x y) s =
          .next { s2 with hostLog := s2.hostLog ++ [.abort (getPart s p).vf] }) ∧
        (pteBit e.leaf 7 = true → permits (effMode s1 (getPart s p) e) e.leaf 1 .atomic = true →
          (effMode s1 (getPart s p) e = 0 → inWindows (getPart s p) pa (rmwSize op) = true → badUnit s1 pa (rmwSize op) = false →
            ∀ s2, s2 = (homeAtomic s1 p pa op x.toNat y.toNat).1 →
            exec (.hostAtomicOp ⟨p, ide⟩ va op x y) s = .next { s2 with
              hostLog := s2.hostLog ++ [.served (getPart s p).vf (leBytes (rmwSize op) (readLE s1 pa (rmwSize op)))] }) ∧
          (effMode s1 (getPart s p) e ≠ 0 → exec (.hostAtomicOp ⟨p, ide⟩ va op x y) s =
            .next (sendFor s1 (deviceThread p) (.host (getPart s p).vf op (match op with
              | .cas _ => some (y.toNat % 2 ^ (8 * rmwSize op))
              | _ => none)) (ptePeer e.leaf) va.toNat pa (leBytes (rmwSize op) x.toNat) none [])))) ∧
    (∀ t w, partOf s k = none →
      exec (.hostRequest k t w) s = .next { s with hostLog := s.hostLog ++ [.abort k] }) ∧
    (∀ w, partOf s k = some p → (getPart s p).state = .run →
      exec (.hostRequest k false w) s = .next { s with hostLog := s.hostLog ++ [.abort k] }) ∧
    (∀ t (a : BitVec 64) d, partOf s k = some p → ((getPart s p).state = .run → t = true) → (getPart s p).state ≠ .free →
      s.health.power.active = true →
      exec (.hostRequest k t (.write a d)) s = .next (if inWindows (getPart s p) a.toNat d.length = true then
        putAt (siteRecall s a.toNat d.length) p a.toNat d else s)) ∧
    (∀ t (a : BitVec 64) n, partOf s k = some p → ((getPart s p).state = .run → t = true) →
      badUnit s a.toNat n = false →
      (inWindows (getPart s p) a.toNat n = false → exec (.hostRequest k t (.read a n)) s =
        .next { s with hostLog := s.hostLog ++ [.abort (getPart s p).vf] }) ∧
      (inWindows (getPart s p) a.toNat n = true → inImages s p a.toNat n = true → (getPart s p).policy = none →
        exec (.hostRequest k t (.read a n)) s = .next { s with hostLog := s.hostLog ++ [.abort (getPart s p).vf] }) ∧
      (inWindows (getPart s p) a.toNat n = true →
        (inImages s p a.toNat n = false ∨ ∃ d, (getPart s p).policy = some d ∧ d.images = true) →
        exec (.hostRequest k t (.read a n)) s =
          .next { s with hostLog := s.hostLog ++ [.served (getPart s p).vf (readBytes s a.toNat n)] })) ∧
    exec .stampSweep s = .next { s with stamps := sweep s } ∧
    (∀ l o c, Store.get LineSite.reset s.sites k = l → l.lease = some (o, c) → c + 256 ≤ s.cycles →
      exec (.atomicLeaseExpiry k) s = .next { s with sites := Store.put LineSite.reset s.sites k { l with lease := none } }) ∧
    (∀ l, Store.get LineSite.reset s.sites k = l → l.far = true →
      (l.recent.filter fun e => decide (s.cycles < e.2 + 16384)).length < 2 →
      exec (.atomicSiteReturnNear k) s = .next { s with
        sites := Store.put LineSite.reset s.sites k
          (⟨false, none, l.recent.filter fun e => decide (s.cycles < e.2 + 16384)⟩ : LineSite) }) ∧
    (∀ n l u, (getPart s p).handling = none → (getPart s p).notices = n :: l →
      focus s ((getPart s p).usherCore * 4 + (getPart s p).usherSlot) = some u → u.th.part = p →
      isUsher u u.th = true → u.th.status = .running → atBoundary u .a = true → u.th.a.link.length < 16 →
      ∃ t, exec (.noticeDelivery p) s = .next t ∧ t.th.a.pc = u.th.tvec ∧ t.th.a.cause = n.cause ∧ t.th.a.epc = n.epc ∧
        t.th.a.einfo = n.einfo ∧ t.th.estream = n.estream ∧ t.th.eresume = n.eresume ∧
        t.th.a.link = u.th.a.pc :: u.th.a.link ∧ (getPart t p).handling = some n ∧ (getPart t p).notices = l ∧
        t.th.x = u.th.x)

/-- R415 to R447: what the events of the health block and the trust controller change: self-tests and repairs, wear,
temperature and power, register writes of the host, boot and reset, partitions and their interfaces, the requests of
SPDM and TDISP, and the debug policy. The model's own choices in it are log 4, log 47, log 50, log 52, log 53 and
log 54: the answers 1000 and 1001, the usher's registers, the codes of a refused image. -/
def Obligations.HostEvents : Prop :=
  ∀ (s : State) (k fn vf : Nat) (v : BitVec 64) (h : Health), h = s.health →
    (∀ (bad : BitVec 12) (e : Nat), e = engineCore s k → (coreOfState s e).testDue = true →
      (bad = 0 → ∃ t, exec (.selfTestProduct k bad) s = .next t ∧ (coreOfState t e).testDue = false ∧
        allThreads t = (allThreads s).map fun u => if onEngine s e u = true then { u with firstRow := none } else u) ∧
      (bad ≠ 0 → subArrays bad = 1 → (coreOfState s e).spareUsed = false →
        ∃ t, exec (.selfTestProduct k bad) s = .next t ∧ (coreOfState t e).testDue = false ∧
          (coreOfState t e).fenced = (coreOfState s e).fenced ||| bad ∧
          allThreads t = (allThreads s).map fun u => if onEngine s e u = true then { u with intg := match u.intg with
            | some n => some n
            | none => u.firstRow } else u)) ∧
    ((coreOfState s (engineCore s k)).fenced ≠ 0 →
      exec (.spareReplacement k) s = .next (updCore s (engineCore s k) fun c => { c with spareUsed := true })) ∧
    (k ∈ s.uce → exec (.scrub k) s = .next { s with health := { h with uce := min 65535 (h.uce + 1) } }) ∧
    (∀ (months : BitVec 16) (conf : BitVec 8) (worst : BitVec 4) (low new : Bool), k < 8 →
      low = (Store.get wearReset h.wear k).getLsbD 28 → new = (decide (months.toNat < h.wearThr) && !low) →
      exec (.wearUpdate k months conf worst) s = .next { s with health := { h with
        wear := Store.put wearReset h.wear k (BitVec.ofNat 64 ((if low || new then 2 ^ 28 else 0) + worst.toNat * 2 ^ 24 +
          min 100 conf.toNat * 2 ^ 16 + months.toNat))
        msixPf := if new && !s.trust.recov then h.msixPf ++ [2] else h.msixPf } }) ∧
    (h.power.active = true → toGang s = none → ∀ n,
      (n = min 2 (max h.cap h.hot + 1) →
        exec .thermalLimit s = .next { s with health := { h with hot := n, power := activeState (max h.cap n) } }) ∧
      (n = h.hot - 1 → exec .dieTemperatureFall s =
        .next { s with health := { h with hot := n, power := activeState (max h.cap n) } })) ∧
    (∀ p, idle s = true → idleChoice s = some p → exec .idleEntry s = .next (enterIdle s p)) ∧
    (wakeCause s = true → ∃ t, exec .idleWake s = .next t ∧ t.health.power = activeState (max h.cap h.hot) ∧
      ∀ u ∈ allThreads t, u.a.park ≠ some .waita ∧ u.a.park ≠ some .vwait ∧ u.a.park ≠ some .bwait) ∧
    (s.trust.recov = false →
      exec (.registerWrite 0x100000 v) s = .next { s with health := { h with
        stlog := if 12 ≤ v.toNat / 2 ^ 16 % 32 ∧ v.toNat / 2 ^ 16 % 32 ≤ 20 then v.toNat / 2 ^ 16 % 32 else h.stlog
        wearThr := v.toNat % 2 ^ 16 } } ∧
      exec (.eccstatWrite v) s = .next { s with health := { h with
        uce := if v.toNat / 2 ^ 48 = 0 then h.uce else 0, ce := if v.toNat % 2 ^ 48 = 0 then h.ce else 0 } } ∧
      (h.power.active = true → toGang s = none → ∀ c, c = (if v.toNat % 4 = 3 then h.cap else v.toNat % 4) →
        exec (.pwrWrite v) s = .next { s with health := { h with cap := c, power := activeState (max c h.hot) } }) ∧
      (h.power.active = true →
        exec (.lattolMirrorWrite v) s = .next { s with health := { h with latTol := v.toNat % 2 ^ 24 } }) ∧
      (k < 8 → v.getLsbD 28 = true → exec (.wearWrite k v) s = .next { s with health := { h with
        wear := Store.put wearReset h.wear k (Store.get wearReset h.wear k &&& ~~~(BitVec.ofNat 64 (2 ^ 28))) } })) ∧
    exec (.fwstageWrite 1) s = .next { s with trust := { s.trust with armed := true } } ∧
    (∀ b : BootInput, ∀ c1 c2 c3 : Nat, c1 = imageCode b 1 s.trust.svnFused (bootImage s b 1) →
      c2 = imageCode b 2 s.trust.svnMirori (bootImage s b 2) → c3 = imageCode b 3 s.trust.svnUsher (bootImage s b 3) →
      exec (.thermalReset b) s = exec (.deviceReset b) s ∧
      ∃ t, exec (.deviceReset b) s = .next t ∧
        (t.trust.stage, t.trust.fail) =
          (if b.fuseFault = true then (1, 1) else if c1 ≠ 0 then (2, c1) else if b.memoryFault = true then (4, 5)
          else if c2 ≠ 0 then (5, c2) else if ((List.range 432).filter fun p => !b.bad.contains p).length < 384 then (6, 6) else (7, c3)) ∧
        (t.trust.ready = true ↔ t.trust.stage = 7 ∧ t.trust.fail = 0) ∧ t.trust.recov = !t.trust.ready ∧
        t.trust.svnFused = (if b.fuseFault = true ∨ c1 ≠ 0 then s.trust.svnFused
          else max s.trust.svnFused (imageSvn (bootImage s b 1))) ∧
        (b.fuseFault = false → t.trust.identity = Config.mldsaKey b.seed ∧
          Store.get 0 t.trust.meas 1 = Config.sha3 (Config.rom ++ leBytes 2 s.trust.svnFused ++ leBytes 2 s.trust.svnMirori ++
            leBytes 2 s.trust.svnUsher ++ leBytes 8 b.revoked ++ b.keys.flatMap id)) ∧
        (t.trust.ready = true → Store.get 0 t.trust.meas 2 = imageHash (bootImage s b 1) ∧
          Store.get 0 t.trust.meas 3 = imageHash (bootImage s b 2) ∧ Store.get 0 t.trust.meas 5 = imageHash (bootImage s b 3) ∧
          Store.get 0 t.trust.meas 4 = Config.sha3 (leBytes 54
            (((List.range 432).filter fun p => !b.bad.contains p).map fun p => 2 ^ p).sum ++
              (List.range 384).flatMap fun k => leBytes 2 (remapOf t k).toNat)) ∧
        t.mem = [] ∧ t.parts = [] ∧ t.launches = [] ∧ t.clock = 0 ∧ ∀ u ∈ allThreads t, u.status = .free) ∧
    (∀ c : PartReq,
      (requestOk s c = true → ∃ t, exec (.partitionCreate c) s = .next t ∧ (getPart t c.number).state = .open_ ∧
        (getPart t c.number).windows = c.windows ∧ (getPart t c.number).rects = c.rects ∧
        (getPart t c.number).cores = (c.rects.flatMap rectList).eraseDups ∧ (getPart t c.number).entryVa = c.entryVa ∧
        (getPart t c.number).xts = some (Config.drbg s.trust.draws, Config.drbg (s.trust.draws + 1)) ∧
        t.trust.draws = s.trust.draws + 2) ∧
      (requestOk s c = false → exec (.partitionCreate c) s = .next s)) ∧
    (∀ p, partOf s vf = some p → (getPart s p).state ≠ .free → ∀ t, t = dissolve s p →
      exec (.functionLevelReset vf) s = .next t ∧
      ((getPart s p).state = .locked ∨ (getPart s p).state = .run → exec (.configWriteLocked vf) s = .next t) ∧
      (∃ v, getPart t p = { Partition.reset with msix := v }) ∧ (∀ l ∈ t.launches, l.part ≠ p) ∧ ∀ e ∈ t.tlb, e.part ≠ p) ∧
    (∀ p m ok sound, partOf s vf = some p → ok = (inSession s (vf + 1) m && !s.trust.recov) →
      sound = (fun code => !Config.spdmReserved code ((plain s (vf + 1) m).getD [])) →
      exec (.lockInterfaceRequest vf m) s = .next (if ok = false then refusedWith s (vf + 1) 1000
        else if sound 14 = true ∧ (getPart s p).state = .open_ ∧ (getPart s p).debugHash ≠ none then
          measure (updPart s p fun u => { u with state := .locked }) (16 + p) (Config.sha3 (reportOf s p))
        else refusedWith s (vf + 1) 1001) ∧
      (∃ t, exec (.startInterfaceRequest vf m) s = .next t ∧
        if ok = true ∧ sound 15 = true ∧ (getPart s p).state = .locked then
          (getPart t p).state = .run ∧
          (∀ e, sessionOf s (vf + 1) m = some e → Store.get [] t.trust.ide (vf + 1) = Config.ideKey e.secret) ∧
          if (getPart s p).switchedOut = true then allThreads t = allThreads s else
            ∃ u ∈ allThreads t, u.status = .running ∧ u.part = p ∧ u.serial = 0 ∧
            u.lcore = (getPart s p).usherCore ∧ u.slot = (getPart s p).usherSlot ∧ u.a.priv = 1 ∧
            u.a.pc = BitVec.ofNat 64 (getPart s p).usherVa ∧ u.x.ended = true
        else t = refusedWith s (vf + 1) (if ok = true then 1001 else 1000)) ∧
      exec (.stopInterfaceRequest vf m) s = .next (if ok = false then refusedWith s (vf + 1) 1000
        else if sound 16 = true then dissolve s p else refusedWith s (vf + 1) 1001) ∧
      (∀ hash, exec (.debugKeyHashBind vf m hash) s = .next (if ok = false then refusedWith s (vf + 1) 1000
        else if sound 17 = true ∧ (getPart s p).state = .open_ then updPart s p fun u => { u with debugHash := some hash }
        else refusedWith s (vf + 1) 1001)) ∧
      ∀ now, exec (.debugPolicy vf m now) s = .next (if ok = false then refusedWith s (vf + 1) 1000
        else if sound 18 = false then refusedWith s (vf + 1) 1001
        else match plain s (vf + 1) m with
          | some b => if policyOk s p b now.toNat then setPolicy s p b now.toNat else refusedWith s (vf + 1) 1001
          | none => s)) ∧
    (∀ p, ((∃ d, (getPart s p).policy = some d ∧ d.ends ≤ s.clock.toNat) → exec (.debugPolicyExpiry p) s =
        .next (measureDebug (clearCounters (updPart s p fun u => { u with policy := none }) p))) ∧
      (((getPart s p).policy = none ∨ ∃ d, (getPart s p).policy = some d ∧ s.clock.toNat < d.ends) →
        exec (.debugPolicyExpiry p) s = .next s)) ∧
    (∀ img, s.trust.recov = true →
      exec (.recoveryImageWrite img) s = .next { s with trust := { s.trust with
        recovered := (s.trust.recovered.filter fun i => field i 4 2 != field img 4 2) ++ [img] } }) ∧
    ∀ m i code always f, SpdmRequest fn m i code always f →
      exec i s = .next (match plain s fn m with
        | none => s
        | some b =>
          if s.trust.recov = true ∧ always = false then refusedWith s fn 1000
          else if Config.spdmReserved code b = true then refusedWith s fn 1001
          else replied (f s b).1 fn (Config.spdmAnswer code b ++ (f s b).2))

/-! ## Reset -/

/-- R54, R383, R415, R426, R427, R431, R438: right after reset the clock counter is 0, no partition exists and every
thread slot is free, memory holds 0 everywhere in its canonical form, STLOG is 16 and the wear threshold 24, every WEAR
reads MONTHS 0xFFFF, the tolerance and the cap are 0, and no name, launch or TLB entry exists. The registers the spec
gives no reset value hold the model's own (log 3); an unwritten byte of an on-chip store reads 0 by log 62. -/
def Obligations.Reset : Prop :=
  State.reset.clock = 0 ∧ (∀ p, (getPart State.reset p).state = .free) ∧
  (∀ t ∈ allThreads State.reset, t.status = .free) ∧ Memory.wf State.reset.mem = true ∧
  (∀ k, readByte State.reset k = 0) ∧ healthReg State.reset 0 = 0x100018 ∧
  (∀ d, d < 8 → healthReg State.reset (0x100 + 8 * d) = 0xFFFF) ∧ healthReg State.reset 0x10 = 0 ∧
  healthReg State.reset 0x18 = 0 ∧ State.reset.launches = [] ∧ State.reset.names = [] ∧ State.reset.tlb = [] ∧
  trustRead State.reset 0 = 0
end

