-- ==== Sys2Proof/Laws/Elements.lean ====
section
/-! SUPPORT. Elements of vector registers: an element written reads back, and every other one is as it was (R56). -/

namespace Sys2Proof.Machine

theorem elem_lt (v : VReg) (w i : Nat) : elem v w i < 2 ^ w := by
  unfold elem; exact BitVec.isLt _

theorem elem_testBit (v : VReg) (w i j : Nat) : (elem v w i).testBit j = (decide (j < w) && v.getLsbD (i * w + j)) := by
  unfold elem
  rw [BitVec.testBit_toNat, BitVec.getLsbD_extractLsb']

theorem setElem_getLsbD (v : VReg) (w i x j : Nat) (hj : j < 16384) :
    (setElem v w i x).getLsbD j =
      if i * w ≤ j ∧ j < i * w + w then x.testBit (j - i * w) else v.getLsbD j := by
  unfold setElem
  simp only [BitVec.getLsbD_or, BitVec.getLsbD_and, BitVec.getLsbD_not, BitVec.getLsbD_shiftLeft, BitVec.getLsbD_ofNat,
    Nat.testBit_mod_two_pow, Nat.testBit_two_pow_sub_one, hj, decide_true, Bool.true_and]
  by_cases h1 : j < i * w
  · simp [h1, Nat.not_le.2 h1]
  · simp only [h1, decide_false, Bool.not_false, Bool.true_and]
    have h2 : i * w ≤ j := Nat.not_lt.1 h1
    have h4 : j - i * w < 16384 := by omega
    by_cases h3 : j < i * w + w
    · have h5 : j - i * w < w := by omega
      simp [h2, h3, h4, h5]
    · have h5 : ¬ j - i * w < w := by omega
      simp [h3, h5]

/-- An element written reads back, modulo its width. -/
theorem elem_setElem_self (v : VReg) (w i x : Nat) (h : i * w + w ≤ 16384) : elem (setElem v w i x) w i = x % 2 ^ w := by
  apply Nat.eq_of_testBit_eq
  intro j
  rw [elem_testBit, Nat.testBit_mod_two_pow]
  by_cases hj : j < w
  · rw [setElem_getLsbD _ _ _ _ _ (by omega), if_pos (by omega), Nat.add_sub_cancel_left]
  · simp [hj]

/-- A write of one element leaves every other one of its width as it was. -/
theorem elem_setElem_ne (v : VReg) (w x : Nat) {i k : Nat} (hk : k * w + w ≤ 16384) (h : k ≠ i) :
    elem (setElem v w i x) w k = elem v w k := by
  apply Nat.eq_of_testBit_eq
  intro j
  rw [elem_testBit, elem_testBit]
  by_cases hj : j < w
  · rw [setElem_getLsbD _ _ _ _ _ (by omega), if_neg]
    intro hc
    apply h
    rcases Nat.lt_trichotomy k i with hl | he | hl
    · have : (k + 1) * w ≤ i * w := Nat.mul_le_mul_right w hl
      rw [Nat.succ_mul] at this; omega
    · exact he
    · have : (i + 1) * w ≤ k * w := Nat.mul_le_mul_right w hl
      rw [Nat.succ_mul] at this; omega
  · simp [hj]

/-- An element below 16384 / w lies within the register. -/
theorem elem_fits {w k : Nat} (h : k < 16384 / w) : k * w + w ≤ 16384 := by
  have h1 : (k + 1) * w ≤ 16384 := by
    have := Nat.mul_le_mul_right w (Nat.succ_le_of_lt h)
    exact Nat.le_trans this (Nat.div_mul_le_self _ _)
  rw [Nat.succ_mul] at h1; exact h1

/-- What a fold of element writes over distinct indices leaves: the elements it names, and the rest as they were. -/
theorem elem_foldl_setElem (w n : Nat) (sel : Nat → Bool) (val : Nat → Nat) (v : VReg) (k : Nat) (hk : k < 16384 / w) :
    elem ((List.range n).foldl (fun acc i => if sel i then setElem acc w i (val i) else acc) v) w k =
      if k < n ∧ sel k = true then val k % 2 ^ w else elem v w k := by
  induction n with
  | zero => simp
  | succ n ih =>
    rw [List.range_succ, List.foldl_append]
    simp only [List.foldl_cons, List.foldl_nil]
    by_cases hs : sel n = true
    · rw [if_pos hs]
      by_cases hkn : k = n
      · subst hkn
        rw [elem_setElem_self _ _ _ _ (elem_fits hk), if_pos ⟨Nat.lt_succ_self k, hs⟩]
      · rw [elem_setElem_ne _ _ _ (elem_fits hk) hkn, ih]
        have : (k < n + 1 ∧ sel k = true) ↔ (k < n ∧ sel k = true) := and_congr_left fun _ => by omega
        simp only [this]
    · rw [if_neg hs, ih]
      by_cases hkn : k = n
      · subst hkn; simp [hs]
      · have : (k < n + 1 ∧ sel k = true) ↔ (k < n ∧ sel k = true) := and_congr_left fun _ => by omega
        simp only [this]

/-- Elements set by a function of their index. -/
theorem elem_setElems (v : VReg) (w n : Nat) (sel : Nat → Bool) (val : Nat → Nat) (k : Nat) (hk : k < 16384 / w) :
    elem (setElems v w n sel val) w k = if k < n ∧ sel k = true then val k % 2 ^ w else elem v w k :=
  elem_foldl_setElem w n sel val v k hk

/-- The bits of a mask built from a function of the index. -/
theorem maskOf_getLsbD (n : Nat) (f : Nat → Bool) (k : Nat) (hk : k < 2048) :
    (maskOf n f).getLsbD k = (decide (k < n) && f k) := by
  unfold maskOf
  induction n with
  | zero => simp
  | succ n ih =>
    rw [List.range_succ, List.foldl_append]
    simp only [List.foldl_cons, List.foldl_nil]
    split
    · next hf =>
      rw [BitVec.getLsbD_or, ih, BitVec.getLsbD_shiftLeft, BitVec.getLsbD_ofNat]
      by_cases hkn : k = n
      · subst hkn; simp [hk, hf]
      · by_cases hl : k < n
        · simp [hl, Nat.lt_succ_of_lt hl]
        · have h1 : ¬ k < n + 1 := by omega
          have h2 : k - n ≠ 0 := by omega
          simp [hl, h1, hk]
          intro _
          rw [Bool.eq_false_iff, ne_eq, Nat.testBit_one_eq_true_iff_self_eq_zero]
          exact h2
    · next hf =>
      rw [ih]
      by_cases hkn : k = n
      · subst hkn; simp [hf]
      · by_cases hl : k < n
        · simp [hl, Nat.lt_succ_of_lt hl]
        · have h1 : ¬ k < n + 1 := by omega
          simp [hl, h1]

end Sys2Proof.Machine
end

