-- ==== Sys2Proof/Laws/Fields.lean ====
section
/-! SUPPORT. The fields of a word that a format builds are the fields it was built from (R94). -/

namespace Sys2Proof.Laws

theorem cut_hi {m n : Nat} (k w : Nat) (x : BitVec m) (y : BitVec n) :
    (x ++ y).extractLsb' (n + k) w = x.extractLsb' k w := by
  rw [BitVec.extractLsb'_append_eq_of_le (Nat.le_add_right n k), Nat.add_sub_cancel_left]

theorem cut_lo {m n : Nat} (k w : Nat) (h : k + w ≤ n) (x : BitVec m) (y : BitVec n) :
    (x ++ y).extractLsb' k w = y.extractLsb' k w := BitVec.extractLsb'_append_eq_of_add_le h

theorem cut_self {w : Nat} (x : BitVec w) : x.extractLsb' 0 w = x := BitVec.extractLsb'_eq_self

theorem fOp_R (op d a b : Reg) (fn : BitVec 4) : fOp (fmtR op d a b fn) = op.toNat :=
  congrArg BitVec.toNat ((cut_hi 21 7 (op ++ d ++ a ++ b) fn).trans ((cut_hi 14 7 _ b).trans
    ((cut_hi 7 7 _ a).trans ((cut_hi 0 7 op d).trans (cut_self op)))))

theorem fD_R (op d a b : Reg) (fn : BitVec 4) : fD (fmtR op d a b fn) = d :=
  (cut_hi 14 7 (op ++ d ++ a ++ b) fn).trans ((cut_hi 7 7 _ b).trans
    ((cut_hi 0 7 _ a).trans ((cut_lo 0 7 (by decide) op d).trans (cut_self d))))

theorem fA_R (op d a b : Reg) (fn : BitVec 4) : fA (fmtR op d a b fn) = a :=
  (cut_hi 7 7 (op ++ d ++ a ++ b) fn).trans ((cut_hi 0 7 _ b).trans ((cut_lo 0 7 (by decide) _ a).trans (cut_self a)))

theorem fB_R (op d a b : Reg) (fn : BitVec 4) : fB (fmtR op d a b fn) = b :=
  (cut_hi 0 7 (op ++ d ++ a ++ b) fn).trans ((cut_lo 0 7 (by decide) _ b).trans (cut_self b))

theorem low_R (k w : Nat) (h : k + w ≤ 4) (op d a b : Reg) (fn : BitVec 4) :
    (fmtR op d a b fn).extractLsb' k w = fn.extractLsb' k w := cut_lo k w h (op ++ d ++ a ++ b) fn

theorem fFn_R (op d a b : Reg) (fn : BitVec 4) : fFn (fmtR op d a b fn) = fn.toNat :=
  congrArg BitVec.toNat ((low_R 0 4 (by decide) op d a b fn).trans (cut_self fn))

theorem fOp_I (op d a : Reg) (i : BitVec 11) : fOp (fmtI op d a i) = op.toNat :=
  congrArg BitVec.toNat ((cut_hi 14 7 (op ++ d ++ a) i).trans ((cut_hi 7 7 _ a).trans
    ((cut_hi 0 7 op d).trans (cut_self op))))

theorem fD_I (op d a : Reg) (i : BitVec 11) : fD (fmtI op d a i) = d :=
  (cut_hi 7 7 (op ++ d ++ a) i).trans ((cut_hi 0 7 _ a).trans ((cut_lo 0 7 (by decide) op d).trans (cut_self d)))

theorem fA_I (op d a : Reg) (i : BitVec 11) : fA (fmtI op d a i) = a :=
  (cut_hi 0 7 (op ++ d ++ a) i).trans ((cut_lo 0 7 (by decide) _ a).trans (cut_self a))

theorem low_I (k w : Nat) (h : k + w ≤ 11) (op d a : Reg) (i : BitVec 11) :
    (fmtI op d a i).extractLsb' k w = i.extractLsb' k w := cut_lo k w h (op ++ d ++ a) i

theorem fOp_L (op d : Reg) (i : BitVec 18) : fOp (fmtL op d i) = op.toNat :=
  congrArg BitVec.toNat ((cut_hi 7 7 (op ++ d) i).trans ((cut_hi 0 7 op d).trans (cut_self op)))

theorem fD_L (op d : Reg) (i : BitVec 18) : fD (fmtL op d i) = d :=
  (cut_hi 0 7 (op ++ d) i).trans ((cut_lo 0 7 (by decide) op d).trans (cut_self d))

theorem low_L (k w : Nat) (h : k + w ≤ 18) (op d : Reg) (i : BitVec 18) :
    (fmtL op d i).extractLsb' k w = i.extractLsb' k w := cut_lo k w h (op ++ d) i

theorem fOp_N (op : Reg) (i : BitVec 25) : fOp (fmtN op i) = op.toNat :=
  congrArg BitVec.toNat ((cut_hi 0 7 op i).trans (cut_self op))

theorem low_N (k w : Nat) (h : k + w ≤ 25) (op : Reg) (i : BitVec 25) :
    (fmtN op i).extractLsb' k w = i.extractLsb' k w := cut_lo k w h op i

/-! Equality of a constructor's values, argument by argument. -/

theorem congr1 {α ρ : Sort _} (f : α → ρ) {a a' : α} (h : a = a') : f a = f a' := h ▸ rfl

theorem congr2 {α β ρ : Sort _} (f : α → β → ρ) {a a' : α} {b b' : β} (h : a = a') (k : b = b') :
    f a b = f a' b' := h ▸ k ▸ rfl

theorem congr3 {α β γ ρ : Sort _} (f : α → β → γ → ρ) {a a' : α} {b b' : β} {c c' : γ} (h : a = a') (k : b = b')
    (l : c = c') : f a b c = f a' b' c' := h ▸ k ▸ l ▸ rfl

theorem congr4 {α β γ δ ρ : Sort _} (f : α → β → γ → δ → ρ) {a a' : α} {b b' : β} {c c' : γ} {d d' : δ} (h : a = a')
    (k : b = b') (l : c = c') (m : d = d') : f a b c d = f a' b' c' d' := h ▸ k ▸ l ▸ m ▸ rfl

theorem congr5 {α β γ δ ε ρ : Sort _} (f : α → β → γ → δ → ε → ρ) {a a' : α} {b b' : β} {c c' : γ} {d d' : δ}
    {e e' : ε} (h : a = a') (k : b = b') (l : c = c') (m : d = d') (n : e = e') :
    f a b c d e = f a' b' c' d' e' := h ▸ k ▸ l ▸ m ▸ n ▸ rfl

end Sys2Proof.Laws
end

