-- ==== Sys2Proof/Laws/PerInstr.lean ====
section
/-! SUPPORT. The family `Encoding`, instruction by instruction: the word of an instruction names its own operation and
carries every operand. An event has no word. -/

namespace Sys2Proof.Laws

/-- The word that the encoder writes for an instruction of its own row names the operation it was written for, and its
fields are the operands. -/
def Encoding.Statement (i : Instr) : Prop :=
  instrIsEvent i = true ∨ (i.ownRow = true → ∃ o, opOf (encode i) = some o ∧ opInstr (encode i) o = i)

theorem op_add (d : Reg) (a : Reg) (b : Reg) : opOf (encode (.add d a b)) = some .add := by
  show opOf (fmtR 1#7 d a b 0#4) = _; unfold opOf; rw [fOp_R]; show opOf01 _ = _; unfold opOf01; rw [fFn_R]; rfl
theorem Encoding.add (d : Reg) (a : Reg) (b : Reg) : Encoding.Statement (.add d a b) :=
  .inr fun _ => ⟨_, op_add d a b, congr3 Instr.add (fD_R ..) (fA_R ..) (fB_R ..)⟩
theorem op_sub (d : Reg) (a : Reg) (b : Reg) : opOf (encode (.sub d a b)) = some .sub := by
  show opOf (fmtR 1#7 d a b 1#4) = _; unfold opOf; rw [fOp_R]; show opOf01 _ = _; unfold opOf01; rw [fFn_R]; rfl
theorem Encoding.sub (d : Reg) (a : Reg) (b : Reg) : Encoding.Statement (.sub d a b) :=
  .inr fun _ => ⟨_, op_sub d a b, congr3 Instr.sub (fD_R ..) (fA_R ..) (fB_R ..)⟩
theorem op_and (d : Reg) (a : Reg) (b : Reg) : opOf (encode (.and d a b)) = some .and := by
  show opOf (fmtR 1#7 d a b 2#4) = _; unfold opOf; rw [fOp_R]; show opOf01 _ = _; unfold opOf01; rw [fFn_R]; rfl
theorem Encoding.and (d : Reg) (a : Reg) (b : Reg) : Encoding.Statement (.and d a b) :=
  .inr fun _ => ⟨_, op_and d a b, congr3 Instr.and (fD_R ..) (fA_R ..) (fB_R ..)⟩
theorem op_or (d : Reg) (a : Reg) (b : Reg) : opOf (encode (.or d a b)) = some .or := by
  show opOf (fmtR 1#7 d a b 3#4) = _; unfold opOf; rw [fOp_R]; show opOf01 _ = _; unfold opOf01; rw [fFn_R]; rfl
theorem Encoding.or (d : Reg) (a : Reg) (b : Reg) : Encoding.Statement (.or d a b) :=
  .inr fun _ => ⟨_, op_or d a b, congr3 Instr.or (fD_R ..) (fA_R ..) (fB_R ..)⟩
theorem op_xor (d : Reg) (a : Reg) (b : Reg) : opOf (encode (.xor d a b)) = some .xor := by
  show opOf (fmtR 1#7 d a b 4#4) = _; unfold opOf; rw [fOp_R]; show opOf01 _ = _; unfold opOf01; rw [fFn_R]; rfl
theorem Encoding.xor (d : Reg) (a : Reg) (b : Reg) : Encoding.Statement (.xor d a b) :=
  .inr fun _ => ⟨_, op_xor d a b, congr3 Instr.xor (fD_R ..) (fA_R ..) (fB_R ..)⟩
theorem op_shl (d : Reg) (a : Reg) (b : Reg) : opOf (encode (.shl d a b)) = some .shl := by
  show opOf (fmtR 1#7 d a b 5#4) = _; unfold opOf; rw [fOp_R]; show opOf01 _ = _; unfold opOf01; rw [fFn_R]; rfl
theorem Encoding.shl (d : Reg) (a : Reg) (b : Reg) : Encoding.Statement (.shl d a b) :=
  .inr fun _ => ⟨_, op_shl d a b, congr3 Instr.shl (fD_R ..) (fA_R ..) (fB_R ..)⟩
theorem op_shr (d : Reg) (a : Reg) (b : Reg) : opOf (encode (.shr d a b)) = some .shr := by
  show opOf (fmtR 1#7 d a b 6#4) = _; unfold opOf; rw [fOp_R]; show opOf01 _ = _; unfold opOf01; rw [fFn_R]; rfl
theorem Encoding.shr (d : Reg) (a : Reg) (b : Reg) : Encoding.Statement (.shr d a b) :=
  .inr fun _ => ⟨_, op_shr d a b, congr3 Instr.shr (fD_R ..) (fA_R ..) (fB_R ..)⟩
theorem op_sra (d : Reg) (a : Reg) (b : Reg) : opOf (encode (.sra d a b)) = some .sra := by
  show opOf (fmtR 1#7 d a b 7#4) = _; unfold opOf; rw [fOp_R]; show opOf01 _ = _; unfold opOf01; rw [fFn_R]; rfl
theorem Encoding.sra (d : Reg) (a : Reg) (b : Reg) : Encoding.Statement (.sra d a b) :=
  .inr fun _ => ⟨_, op_sra d a b, congr3 Instr.sra (fD_R ..) (fA_R ..) (fB_R ..)⟩
theorem op_min (d : Reg) (a : Reg) (b : Reg) : opOf (encode (.min d a b)) = some .min := by
  show opOf (fmtR 1#7 d a b 8#4) = _; unfold opOf; rw [fOp_R]; show opOf01 _ = _; unfold opOf01; rw [fFn_R]; rfl
theorem Encoding.min (d : Reg) (a : Reg) (b : Reg) : Encoding.Statement (.min d a b) :=
  .inr fun _ => ⟨_, op_min d a b, congr3 Instr.min (fD_R ..) (fA_R ..) (fB_R ..)⟩
theorem op_max (d : Reg) (a : Reg) (b : Reg) : opOf (encode (.max d a b)) = some .max := by
  show opOf (fmtR 1#7 d a b 9#4) = _; unfold opOf; rw [fOp_R]; show opOf01 _ = _; unfold opOf01; rw [fFn_R]; rfl
theorem Encoding.max (d : Reg) (a : Reg) (b : Reg) : Encoding.Statement (.max d a b) :=
  .inr fun _ => ⟨_, op_max d a b, congr3 Instr.max (fD_R ..) (fA_R ..) (fB_R ..)⟩
theorem op_minu (d : Reg) (a : Reg) (b : Reg) : opOf (encode (.minu d a b)) = some .minu := by
  show opOf (fmtR 1#7 d a b 0xa#4) = _; unfold opOf; rw [fOp_R]; show opOf01 _ = _; unfold opOf01; rw [fFn_R]; rfl
theorem Encoding.minu (d : Reg) (a : Reg) (b : Reg) : Encoding.Statement (.minu d a b) :=
  .inr fun _ => ⟨_, op_minu d a b, congr3 Instr.minu (fD_R ..) (fA_R ..) (fB_R ..)⟩
theorem op_maxu (d : Reg) (a : Reg) (b : Reg) : opOf (encode (.maxu d a b)) = some .maxu := by
  show opOf (fmtR 1#7 d a b 0xb#4) = _; unfold opOf; rw [fOp_R]; show opOf01 _ = _; unfold opOf01; rw [fFn_R]; rfl
theorem Encoding.maxu (d : Reg) (a : Reg) (b : Reg) : Encoding.Statement (.maxu d a b) :=
  .inr fun _ => ⟨_, op_maxu d a b, congr3 Instr.maxu (fD_R ..) (fA_R ..) (fB_R ..)⟩
theorem op_slt (d : Reg) (a : Reg) (b : Reg) : opOf (encode (.slt d a b)) = some .slt := by
  show opOf (fmtR 1#7 d a b 0xc#4) = _; unfold opOf; rw [fOp_R]; show opOf01 _ = _; unfold opOf01; rw [fFn_R]; rfl
theorem Encoding.slt (d : Reg) (a : Reg) (b : Reg) : Encoding.Statement (.slt d a b) :=
  .inr fun _ => ⟨_, op_slt d a b, congr3 Instr.slt (fD_R ..) (fA_R ..) (fB_R ..)⟩
theorem op_sltu (d : Reg) (a : Reg) (b : Reg) : opOf (encode (.sltu d a b)) = some .sltu := by
  show opOf (fmtR 1#7 d a b 0xd#4) = _; unfold opOf; rw [fOp_R]; show opOf01 _ = _; unfold opOf01; rw [fFn_R]; rfl
theorem Encoding.sltu (d : Reg) (a : Reg) (b : Reg) : Encoding.Statement (.sltu d a b) :=
  .inr fun _ => ⟨_, op_sltu d a b, congr3 Instr.sltu (fD_R ..) (fA_R ..) (fB_R ..)⟩
theorem op_seq (d : Reg) (a : Reg) (b : Reg) : opOf (encode (.seq d a b)) = some .seq := by
  show opOf (fmtR 1#7 d a b 0xe#4) = _; unfold opOf; rw [fOp_R]; show opOf01 _ = _; unfold opOf01; rw [fFn_R]; rfl
theorem Encoding.seq (d : Reg) (a : Reg) (b : Reg) : Encoding.Statement (.seq d a b) :=
  .inr fun _ => ⟨_, op_seq d a b, congr3 Instr.seq (fD_R ..) (fA_R ..) (fB_R ..)⟩
theorem op_sel (d : Reg) (a : Reg) (b : Reg) : opOf (encode (.sel d a b)) = some .sel := by
  show opOf (fmtR 1#7 d a b 0xf#4) = _; unfold opOf; rw [fOp_R]; show opOf01 _ = _; unfold opOf01; rw [fFn_R]; rfl
theorem Encoding.sel (d : Reg) (a : Reg) (b : Reg) : Encoding.Statement (.sel d a b) :=
  .inr fun _ => ⟨_, op_sel d a b, congr3 Instr.sel (fD_R ..) (fA_R ..) (fB_R ..)⟩
theorem op_mul (d : Reg) (a : Reg) (b : Reg) : opOf (encode (.mul d a b)) = some .mul := by
  show opOf (fmtR 2#7 d a b 0#4) = _; unfold opOf; rw [fOp_R]; show opOf02 _ = _; unfold opOf02; rw [fFn_R]; rfl
theorem Encoding.mul (d : Reg) (a : Reg) (b : Reg) : Encoding.Statement (.mul d a b) :=
  .inr fun _ => ⟨_, op_mul d a b, congr3 Instr.mul (fD_R ..) (fA_R ..) (fB_R ..)⟩
theorem op_mulh (d : Reg) (a : Reg) (b : Reg) : opOf (encode (.mulh d a b)) = some .mulh := by
  show opOf (fmtR 2#7 d a b 1#4) = _; unfold opOf; rw [fOp_R]; show opOf02 _ = _; unfold opOf02; rw [fFn_R]; rfl
theorem Encoding.mulh (d : Reg) (a : Reg) (b : Reg) : Encoding.Statement (.mulh d a b) :=
  .inr fun _ => ⟨_, op_mulh d a b, congr3 Instr.mulh (fD_R ..) (fA_R ..) (fB_R ..)⟩
theorem op_mulhu (d : Reg) (a : Reg) (b : Reg) : opOf (encode (.mulhu d a b)) = some .mulhu := by
  show opOf (fmtR 2#7 d a b 2#4) = _; unfold opOf; rw [fOp_R]; show opOf02 _ = _; unfold opOf02; rw [fFn_R]; rfl
theorem Encoding.mulhu (d : Reg) (a : Reg) (b : Reg) : Encoding.Statement (.mulhu d a b) :=
  .inr fun _ => ⟨_, op_mulhu d a b, congr3 Instr.mulhu (fD_R ..) (fA_R ..) (fB_R ..)⟩
theorem op_div (d : Reg) (a : Reg) (b : Reg) : opOf (encode (.div d a b)) = some .div := by
  show opOf (fmtR 2#7 d a b 3#4) = _; unfold opOf; rw [fOp_R]; show opOf02 _ = _; unfold opOf02; rw [fFn_R]; rfl
theorem Encoding.div (d : Reg) (a : Reg) (b : Reg) : Encoding.Statement (.div d a b) :=
  .inr fun _ => ⟨_, op_div d a b, congr3 Instr.div (fD_R ..) (fA_R ..) (fB_R ..)⟩
theorem op_divu (d : Reg) (a : Reg) (b : Reg) : opOf (encode (.divu d a b)) = some .divu := by
  show opOf (fmtR 2#7 d a b 4#4) = _; unfold opOf; rw [fOp_R]; show opOf02 _ = _; unfold opOf02; rw [fFn_R]; rfl
theorem Encoding.divu (d : Reg) (a : Reg) (b : Reg) : Encoding.Statement (.divu d a b) :=
  .inr fun _ => ⟨_, op_divu d a b, congr3 Instr.divu (fD_R ..) (fA_R ..) (fB_R ..)⟩
theorem op_rem (d : Reg) (a : Reg) (b : Reg) : opOf (encode (.rem d a b)) = some .rem := by
  show opOf (fmtR 2#7 d a b 5#4) = _; unfold opOf; rw [fOp_R]; show opOf02 _ = _; unfold opOf02; rw [fFn_R]; rfl
theorem Encoding.rem (d : Reg) (a : Reg) (b : Reg) : Encoding.Statement (.rem d a b) :=
  .inr fun _ => ⟨_, op_rem d a b, congr3 Instr.rem (fD_R ..) (fA_R ..) (fB_R ..)⟩
theorem op_remu (d : Reg) (a : Reg) (b : Reg) : opOf (encode (.remu d a b)) = some .remu := by
  show opOf (fmtR 2#7 d a b 6#4) = _; unfold opOf; rw [fOp_R]; show opOf02 _ = _; unfold opOf02; rw [fFn_R]; rfl
theorem Encoding.remu (d : Reg) (a : Reg) (b : Reg) : Encoding.Statement (.remu d a b) :=
  .inr fun _ => ⟨_, op_remu d a b, congr3 Instr.remu (fD_R ..) (fA_R ..) (fB_R ..)⟩
theorem op_clz (d : Reg) (a : Reg) : opOf (encode (.clz d a)) = some .clz := by
  show opOf (fmtR 2#7 d a 0#7 7#4) = _; unfold opOf; rw [fOp_R]; show opOf02 _ = _; unfold opOf02; rw [fFn_R]; rfl
theorem Encoding.clz (d : Reg) (a : Reg) : Encoding.Statement (.clz d a) :=
  .inr fun _ => ⟨_, op_clz d a, congr2 Instr.clz (fD_R ..) (fA_R ..)⟩
theorem op_ctz (d : Reg) (a : Reg) : opOf (encode (.ctz d a)) = some .ctz := by
  show opOf (fmtR 2#7 d a 0#7 8#4) = _; unfold opOf; rw [fOp_R]; show opOf02 _ = _; unfold opOf02; rw [fFn_R]; rfl
theorem Encoding.ctz (d : Reg) (a : Reg) : Encoding.Statement (.ctz d a) :=
  .inr fun _ => ⟨_, op_ctz d a, congr2 Instr.ctz (fD_R ..) (fA_R ..)⟩
theorem op_popc (d : Reg) (a : Reg) : opOf (encode (.popc d a)) = some .popc := by
  show opOf (fmtR 2#7 d a 0#7 9#4) = _; unfold opOf; rw [fOp_R]; show opOf02 _ = _; unfold opOf02; rw [fFn_R]; rfl
theorem Encoding.popc (d : Reg) (a : Reg) : Encoding.Statement (.popc d a) :=
  .inr fun _ => ⟨_, op_popc d a, congr2 Instr.popc (fD_R ..) (fA_R ..)⟩
theorem op_sxb (d : Reg) (a : Reg) : opOf (encode (.sxb d a)) = some .sxb := by
  show opOf (fmtR 2#7 d a 0#7 0xa#4) = _; unfold opOf; rw [fOp_R]; show opOf02 _ = _; unfold opOf02; rw [fFn_R]; rfl
theorem Encoding.sxb (d : Reg) (a : Reg) : Encoding.Statement (.sxb d a) :=
  .inr fun _ => ⟨_, op_sxb d a, congr2 Instr.sxb (fD_R ..) (fA_R ..)⟩
theorem op_sxh (d : Reg) (a : Reg) : opOf (encode (.sxh d a)) = some .sxh := by
  show opOf (fmtR 2#7 d a 0#7 0xb#4) = _; unfold opOf; rw [fOp_R]; show opOf02 _ = _; unfold opOf02; rw [fFn_R]; rfl
theorem Encoding.sxh (d : Reg) (a : Reg) : Encoding.Statement (.sxh d a) :=
  .inr fun _ => ⟨_, op_sxh d a, congr2 Instr.sxh (fD_R ..) (fA_R ..)⟩
theorem op_sxw (d : Reg) (a : Reg) : opOf (encode (.sxw d a)) = some .sxw := by
  show opOf (fmtR 2#7 d a 0#7 0xc#4) = _; unfold opOf; rw [fOp_R]; show opOf02 _ = _; unfold opOf02; rw [fFn_R]; rfl
theorem Encoding.sxw (d : Reg) (a : Reg) : Encoding.Statement (.sxw d a) :=
  .inr fun _ => ⟨_, op_sxw d a, congr2 Instr.sxw (fD_R ..) (fA_R ..)⟩
theorem op_addi (d : Reg) (a : Reg) (i : BitVec 11) : opOf (encode (.addi d a i)) = some .addi := by
  show opOf (fmtI 3#7 d a i) = _; unfold opOf; rw [fOp_I]; rfl
theorem Encoding.addi (d : Reg) (a : Reg) (i : BitVec 11) : Encoding.Statement (.addi d a i) :=
  .inr fun _ => ⟨_, op_addi d a i, congr3 Instr.addi (fD_I ..) (fA_I ..) ((low_I 0 11 (by decide) ..).trans (cut_self _))⟩
theorem op_andi (d : Reg) (a : Reg) (i : BitVec 11) : opOf (encode (.andi d a i)) = some .andi := by
  show opOf (fmtI 4#7 d a i) = _; unfold opOf; rw [fOp_I]; rfl
theorem Encoding.andi (d : Reg) (a : Reg) (i : BitVec 11) : Encoding.Statement (.andi d a i) :=
  .inr fun _ => ⟨_, op_andi d a i, congr3 Instr.andi (fD_I ..) (fA_I ..) ((low_I 0 11 (by decide) ..).trans (cut_self _))⟩
theorem op_ori (d : Reg) (a : Reg) (i : BitVec 11) : opOf (encode (.ori d a i)) = some .ori := by
  show opOf (fmtI 5#7 d a i) = _; unfold opOf; rw [fOp_I]; rfl
theorem Encoding.ori (d : Reg) (a : Reg) (i : BitVec 11) : Encoding.Statement (.ori d a i) :=
  .inr fun _ => ⟨_, op_ori d a i, congr3 Instr.ori (fD_I ..) (fA_I ..) ((low_I 0 11 (by decide) ..).trans (cut_self _))⟩
theorem op_xori (d : Reg) (a : Reg) (i : BitVec 11) : opOf (encode (.xori d a i)) = some .xori := by
  show opOf (fmtI 6#7 d a i) = _; unfold opOf; rw [fOp_I]; rfl
theorem Encoding.xori (d : Reg) (a : Reg) (i : BitVec 11) : Encoding.Statement (.xori d a i) :=
  .inr fun _ => ⟨_, op_xori d a i, congr3 Instr.xori (fD_I ..) (fA_I ..) ((low_I 0 11 (by decide) ..).trans (cut_self _))⟩
theorem op_shli (d : Reg) (a : Reg) (i : BitVec 6) : opOf (encode (.shli d a i)) = some .shli := by
  show opOf (fmtI 7#7 d a (0#5 ++ i)) = _; unfold opOf; rw [fOp_I]; rfl
theorem Encoding.shli (d : Reg) (a : Reg) (i : BitVec 6) : Encoding.Statement (.shli d a i) :=
  .inr fun _ => ⟨_, op_shli d a i, congr3 Instr.shli (fD_I ..) (fA_I ..) ((low_I 0 6 (by decide) ..).trans ((cut_lo 0 6 (by decide) (0#5) i).trans (cut_self _)))⟩
theorem op_shri (d : Reg) (a : Reg) (i : BitVec 6) : opOf (encode (.shri d a i)) = some .shri := by
  show opOf (fmtI 8#7 d a (0#5 ++ i)) = _; unfold opOf; rw [fOp_I]; rfl
theorem Encoding.shri (d : Reg) (a : Reg) (i : BitVec 6) : Encoding.Statement (.shri d a i) :=
  .inr fun _ => ⟨_, op_shri d a i, congr3 Instr.shri (fD_I ..) (fA_I ..) ((low_I 0 6 (by decide) ..).trans ((cut_lo 0 6 (by decide) (0#5) i).trans (cut_self _)))⟩
theorem op_srai (d : Reg) (a : Reg) (i : BitVec 6) : opOf (encode (.srai d a i)) = some .srai := by
  show opOf (fmtI 9#7 d a (0#5 ++ i)) = _; unfold opOf; rw [fOp_I]; rfl
theorem Encoding.srai (d : Reg) (a : Reg) (i : BitVec 6) : Encoding.Statement (.srai d a i) :=
  .inr fun _ => ⟨_, op_srai d a i, congr3 Instr.srai (fD_I ..) (fA_I ..) ((low_I 0 6 (by decide) ..).trans ((cut_lo 0 6 (by decide) (0#5) i).trans (cut_self _)))⟩
theorem op_slti (d : Reg) (a : Reg) (i : BitVec 11) : opOf (encode (.slti d a i)) = some .slti := by
  show opOf (fmtI 0xa#7 d a i) = _; unfold opOf; rw [fOp_I]; rfl
theorem Encoding.slti (d : Reg) (a : Reg) (i : BitVec 11) : Encoding.Statement (.slti d a i) :=
  .inr fun _ => ⟨_, op_slti d a i, congr3 Instr.slti (fD_I ..) (fA_I ..) ((low_I 0 11 (by decide) ..).trans (cut_self _))⟩
theorem op_li (d : Reg) (i : BitVec 18) : opOf (encode (.li d i)) = some .li := by
  show opOf (fmtL 0xb#7 d i) = _; unfold opOf; rw [fOp_L]; rfl
theorem Encoding.li (d : Reg) (i : BitVec 18) : Encoding.Statement (.li d i) :=
  .inr fun _ => ⟨_, op_li d i, congr2 Instr.li (fD_L ..) ((low_L 0 18 (by decide) ..).trans (cut_self _))⟩
theorem op_lsh (d : Reg) (i : BitVec 18) : opOf (encode (.lsh d i)) = some .lsh := by
  show opOf (fmtL 0xc#7 d i) = _; unfold opOf; rw [fOp_L]; rfl
theorem Encoding.lsh (d : Reg) (i : BitVec 18) : Encoding.Statement (.lsh d i) :=
  .inr fun _ => ⟨_, op_lsh d i, congr2 Instr.lsh (fD_L ..) ((low_L 0 18 (by decide) ..).trans (cut_self _))⟩
theorem op_sfadd (d : Reg) (a : Reg) (b : Reg) : opOf (encode (.sfadd d a b)) = some .sfadd := by
  show opOf (fmtR 0xd#7 d a b 0#4) = _; unfold opOf; rw [fOp_R]; show opOf0D _ = _; unfold opOf0D; rw [fFn_R]; rfl
theorem Encoding.sfadd (d : Reg) (a : Reg) (b : Reg) : Encoding.Statement (.sfadd d a b) :=
  .inr fun _ => ⟨_, op_sfadd d a b, congr3 Instr.sfadd (fD_R ..) (fA_R ..) (fB_R ..)⟩
theorem op_sfsub (d : Reg) (a : Reg) (b : Reg) : opOf (encode (.sfsub d a b)) = some .sfsub := by
  show opOf (fmtR 0xd#7 d a b 1#4) = _; unfold opOf; rw [fOp_R]; show opOf0D _ = _; unfold opOf0D; rw [fFn_R]; rfl
theorem Encoding.sfsub (d : Reg) (a : Reg) (b : Reg) : Encoding.Statement (.sfsub d a b) :=
  .inr fun _ => ⟨_, op_sfsub d a b, congr3 Instr.sfsub (fD_R ..) (fA_R ..) (fB_R ..)⟩
theorem op_sfmul (d : Reg) (a : Reg) (b : Reg) : opOf (encode (.sfmul d a b)) = some .sfmul := by
  show opOf (fmtR 0xd#7 d a b 2#4) = _; unfold opOf; rw [fOp_R]; show opOf0D _ = _; unfold opOf0D; rw [fFn_R]; rfl
theorem Encoding.sfmul (d : Reg) (a : Reg) (b : Reg) : Encoding.Statement (.sfmul d a b) :=
  .inr fun _ => ⟨_, op_sfmul d a b, congr3 Instr.sfmul (fD_R ..) (fA_R ..) (fB_R ..)⟩
theorem op_sfdiv (d : Reg) (a : Reg) (b : Reg) : opOf (encode (.sfdiv d a b)) = some .sfdiv := by
  show opOf (fmtR 0xd#7 d a b 3#4) = _; unfold opOf; rw [fOp_R]; show opOf0D _ = _; unfold opOf0D; rw [fFn_R]; rfl
theorem Encoding.sfdiv (d : Reg) (a : Reg) (b : Reg) : Encoding.Statement (.sfdiv d a b) :=
  .inr fun _ => ⟨_, op_sfdiv d a b, congr3 Instr.sfdiv (fD_R ..) (fA_R ..) (fB_R ..)⟩
theorem op_sfsqrt (d : Reg) (a : Reg) : opOf (encode (.sfsqrt d a)) = some .sfsqrt := by
  show opOf (fmtR 0xd#7 d a 0#7 4#4) = _; unfold opOf; rw [fOp_R]; show opOf0D _ = _; unfold opOf0D; rw [fFn_R]; rfl
theorem Encoding.sfsqrt (d : Reg) (a : Reg) : Encoding.Statement (.sfsqrt d a) :=
  .inr fun _ => ⟨_, op_sfsqrt d a, congr2 Instr.sfsqrt (fD_R ..) (fA_R ..)⟩
theorem op_sfmin (d : Reg) (a : Reg) (b : Reg) : opOf (encode (.sfmin d a b)) = some .sfmin := by
  show opOf (fmtR 0xd#7 d a b 5#4) = _; unfold opOf; rw [fOp_R]; show opOf0D _ = _; unfold opOf0D; rw [fFn_R]; rfl
theorem Encoding.sfmin (d : Reg) (a : Reg) (b : Reg) : Encoding.Statement (.sfmin d a b) :=
  .inr fun _ => ⟨_, op_sfmin d a b, congr3 Instr.sfmin (fD_R ..) (fA_R ..) (fB_R ..)⟩
theorem op_sfmax (d : Reg) (a : Reg) (b : Reg) : opOf (encode (.sfmax d a b)) = some .sfmax := by
  show opOf (fmtR 0xd#7 d a b 6#4) = _; unfold opOf; rw [fOp_R]; show opOf0D _ = _; unfold opOf0D; rw [fFn_R]; rfl
theorem Encoding.sfmax (d : Reg) (a : Reg) (b : Reg) : Encoding.Statement (.sfmax d a b) :=
  .inr fun _ => ⟨_, op_sfmax d a b, congr3 Instr.sfmax (fD_R ..) (fA_R ..) (fB_R ..)⟩
theorem op_sfma (d : Reg) (a : Reg) (b : Reg) : opOf (encode (.sfma d a b)) = some .sfma := by
  show opOf (fmtR 0xd#7 d a b 7#4) = _; unfold opOf; rw [fOp_R]; show opOf0D _ = _; unfold opOf0D; rw [fFn_R]; rfl
theorem Encoding.sfma (d : Reg) (a : Reg) (b : Reg) : Encoding.Statement (.sfma d a b) :=
  .inr fun _ => ⟨_, op_sfma d a b, congr3 Instr.sfma (fD_R ..) (fA_R ..) (fB_R ..)⟩
theorem op_sfeq (d : Reg) (a : Reg) (b : Reg) : opOf (encode (.sfeq d a b)) = some .sfeq := by
  show opOf (fmtR 0xd#7 d a b 8#4) = _; unfold opOf; rw [fOp_R]; show opOf0D _ = _; unfold opOf0D; rw [fFn_R]; rfl
theorem Encoding.sfeq (d : Reg) (a : Reg) (b : Reg) : Encoding.Statement (.sfeq d a b) :=
  .inr fun _ => ⟨_, op_sfeq d a b, congr3 Instr.sfeq (fD_R ..) (fA_R ..) (fB_R ..)⟩
theorem op_sflt (d : Reg) (a : Reg) (b : Reg) : opOf (encode (.sflt d a b)) = some .sflt := by
  show opOf (fmtR 0xd#7 d a b 9#4) = _; unfold opOf; rw [fOp_R]; show opOf0D _ = _; unfold opOf0D; rw [fFn_R]; rfl
theorem Encoding.sflt (d : Reg) (a : Reg) (b : Reg) : Encoding.Statement (.sflt d a b) :=
  .inr fun _ => ⟨_, op_sflt d a b, congr3 Instr.sflt (fD_R ..) (fA_R ..) (fB_R ..)⟩
theorem op_sfle (d : Reg) (a : Reg) (b : Reg) : opOf (encode (.sfle d a b)) = some .sfle := by
  show opOf (fmtR 0xd#7 d a b 0xa#4) = _; unfold opOf; rw [fOp_R]; show opOf0D _ = _; unfold opOf0D; rw [fFn_R]; rfl
theorem Encoding.sfle (d : Reg) (a : Reg) (b : Reg) : Encoding.Statement (.sfle d a b) :=
  .inr fun _ => ⟨_, op_sfle d a b, congr3 Instr.sfle (fD_R ..) (fA_R ..) (fB_R ..)⟩
theorem op_scvdl (d : Reg) (a : Reg) : opOf (encode (.scvdl d a)) = some .scvdl := by
  show opOf (fmtR 0xe#7 d a 0#7 0#4) = _; unfold opOf; rw [fOp_R]; show opOf0E _ = _; unfold opOf0E; rw [fFn_R]; rfl
theorem Encoding.scvdl (d : Reg) (a : Reg) : Encoding.Statement (.scvdl d a) :=
  .inr fun _ => ⟨_, op_scvdl d a, congr2 Instr.scvdl (fD_R ..) (fA_R ..)⟩
theorem op_scvld (d : Reg) (a : Reg) : opOf (encode (.scvld d a)) = some .scvld := by
  show opOf (fmtR 0xe#7 d a 0#7 1#4) = _; unfold opOf; rw [fOp_R]; show opOf0E _ = _; unfold opOf0E; rw [fFn_R]; rfl
theorem Encoding.scvld (d : Reg) (a : Reg) : Encoding.Statement (.scvld d a) :=
  .inr fun _ => ⟨_, op_scvld d a, congr2 Instr.scvld (fD_R ..) (fA_R ..)⟩
theorem op_scvdf (d : Reg) (a : Reg) : opOf (encode (.scvdf d a)) = some .scvdf := by
  show opOf (fmtR 0xe#7 d a 0#7 2#4) = _; unfold opOf; rw [fOp_R]; show opOf0E _ = _; unfold opOf0E; rw [fFn_R]; rfl
theorem Encoding.scvdf (d : Reg) (a : Reg) : Encoding.Statement (.scvdf d a) :=
  .inr fun _ => ⟨_, op_scvdf d a, congr2 Instr.scvdf (fD_R ..) (fA_R ..)⟩
theorem op_scvfd (d : Reg) (a : Reg) : opOf (encode (.scvfd d a)) = some .scvfd := by
  show opOf (fmtR 0xe#7 d a 0#7 3#4) = _; unfold opOf; rw [fOp_R]; show opOf0E _ = _; unfold opOf0E; rw [fFn_R]; rfl
theorem Encoding.scvfd (d : Reg) (a : Reg) : Encoding.Statement (.scvfd d a) :=
  .inr fun _ => ⟨_, op_scvfd d a, congr2 Instr.scvfd (fD_R ..) (fA_R ..)⟩
theorem op_scvdh (d : Reg) (a : Reg) : opOf (encode (.scvdh d a)) = some .scvdh := by
  show opOf (fmtR 0xe#7 d a 0#7 4#4) = _; unfold opOf; rw [fOp_R]; show opOf0E _ = _; unfold opOf0E; rw [fFn_R]; rfl
theorem Encoding.scvdh (d : Reg) (a : Reg) : Encoding.Statement (.scvdh d a) :=
  .inr fun _ => ⟨_, op_scvdh d a, congr2 Instr.scvdh (fD_R ..) (fA_R ..)⟩
theorem op_scvhd (d : Reg) (a : Reg) : opOf (encode (.scvhd d a)) = some .scvhd := by
  show opOf (fmtR 0xe#7 d a 0#7 5#4) = _; unfold opOf; rw [fOp_R]; show opOf0E _ = _; unfold opOf0E; rw [fFn_R]; rfl
theorem Encoding.scvhd (d : Reg) (a : Reg) : Encoding.Statement (.scvhd d a) :=
  .inr fun _ => ⟨_, op_scvhd d a, congr2 Instr.scvhd (fD_R ..) (fA_R ..)⟩
theorem op_scvdb (d : Reg) (a : Reg) : opOf (encode (.scvdb d a)) = some .scvdb := by
  show opOf (fmtR 0xe#7 d a 0#7 6#4) = _; unfold opOf; rw [fOp_R]; show opOf0E _ = _; unfold opOf0E; rw [fFn_R]; rfl
theorem Encoding.scvdb (d : Reg) (a : Reg) : Encoding.Statement (.scvdb d a) :=
  .inr fun _ => ⟨_, op_scvdb d a, congr2 Instr.scvdb (fD_R ..) (fA_R ..)⟩
theorem op_scvbd (d : Reg) (a : Reg) : opOf (encode (.scvbd d a)) = some .scvbd := by
  show opOf (fmtR 0xe#7 d a 0#7 7#4) = _; unfold opOf; rw [fOp_R]; show opOf0E _ = _; unfold opOf0E; rw [fFn_R]; rfl
theorem Encoding.scvbd (d : Reg) (a : Reg) : Encoding.Statement (.scvbd d a) :=
  .inr fun _ => ⟨_, op_scvbd d a, congr2 Instr.scvbd (fD_R ..) (fA_R ..)⟩
theorem op_b (o : BitVec 18) : opOf (encode (.b o)) = some .b := by
  show opOf (fmtL 0x10#7 0#7 o) = _; unfold opOf; rw [fOp_L]; rfl
theorem Encoding.b (o : BitVec 18) : Encoding.Statement (.b o) :=
  .inr fun _ => ⟨_, op_b o, congr1 Instr.b ((low_L 0 18 (by decide) ..).trans (cut_self _))⟩
theorem op_bz (c : Reg) (o : BitVec 18) : opOf (encode (.bz c o)) = some .bz := by
  show opOf (fmtL 0x11#7 c o) = _; unfold opOf; rw [fOp_L]; rfl
theorem Encoding.bz (c : Reg) (o : BitVec 18) : Encoding.Statement (.bz c o) :=
  .inr fun _ => ⟨_, op_bz c o, congr2 Instr.bz (fD_L ..) ((low_L 0 18 (by decide) ..).trans (cut_self _))⟩
theorem op_bnz (c : Reg) (o : BitVec 18) : opOf (encode (.bnz c o)) = some .bnz := by
  show opOf (fmtL 0x12#7 c o) = _; unfold opOf; rw [fOp_L]; rfl
theorem Encoding.bnz (c : Reg) (o : BitVec 18) : Encoding.Statement (.bnz c o) :=
  .inr fun _ => ⟨_, op_bnz c o, congr2 Instr.bnz (fD_L ..) ((low_L 0 18 (by decide) ..).trans (cut_self _))⟩
theorem op_bltz (c : Reg) (o : BitVec 18) : opOf (encode (.bltz c o)) = some .bltz := by
  show opOf (fmtL 0x13#7 c o) = _; unfold opOf; rw [fOp_L]; rfl
theorem Encoding.bltz (c : Reg) (o : BitVec 18) : Encoding.Statement (.bltz c o) :=
  .inr fun _ => ⟨_, op_bltz c o, congr2 Instr.bltz (fD_L ..) ((low_L 0 18 (by decide) ..).trans (cut_self _))⟩
theorem op_bgez (c : Reg) (o : BitVec 18) : opOf (encode (.bgez c o)) = some .bgez := by
  show opOf (fmtL 0x14#7 c o) = _; unfold opOf; rw [fOp_L]; rfl
theorem Encoding.bgez (c : Reg) (o : BitVec 18) : Encoding.Statement (.bgez c o) :=
  .inr fun _ => ⟨_, op_bgez c o, congr2 Instr.bgez (fD_L ..) ((low_L 0 18 (by decide) ..).trans (cut_self _))⟩
theorem op_call (o : BitVec 18) : opOf (encode (.call o)) = some .call := by
  show opOf (fmtL 0x15#7 0#7 o) = _; unfold opOf; rw [fOp_L]; rfl
theorem Encoding.call (o : BitVec 18) : Encoding.Statement (.call o) :=
  .inr fun _ => ⟨_, op_call o, congr1 Instr.call ((low_L 0 18 (by decide) ..).trans (cut_self _))⟩
theorem op_ret : opOf (encode (.ret)) = some .ret := by
  show opOf (fmtN 0x16#7 0#25) = _; unfold opOf; rw [fOp_N]; rfl
theorem Encoding.ret : Encoding.Statement (.ret) :=
  .inr fun _ => ⟨_, op_ret, rfl⟩
theorem op_jr (a : Reg) : opOf (encode (.jr a)) = some .jr := by
  show opOf (fmtR 0x17#7 0#7 a 0#7 0#4) = _; unfold opOf; rw [fOp_R]; rfl
theorem Encoding.jr (a : Reg) : Encoding.Statement (.jr a) :=
  .inr fun _ => ⟨_, op_jr a, congr1 Instr.jr (fA_R ..)⟩
theorem op_bq (c : Reg) (o : BitVec 18) : opOf (encode (.bq c o)) = some .bq := by
  show opOf (fmtL 0x18#7 c o) = _; unfold opOf; rw [fOp_L]; rfl
theorem Encoding.bq (c : Reg) (o : BitVec 18) : Encoding.Statement (.bq c o) :=
  .inr fun _ => ⟨_, op_bq c o, congr2 Instr.bq (fD_L ..) ((low_L 0 18 (by decide) ..).trans (cut_self _))⟩
theorem op_bany (c : Reg) (o : BitVec 18) : opOf (encode (.bany c o)) = some .bany := by
  show opOf (fmtL 0x19#7 c o) = _; unfold opOf; rw [fOp_L]; rfl
theorem Encoding.bany (c : Reg) (o : BitVec 18) : Encoding.Statement (.bany c o) :=
  .inr fun _ => ⟨_, op_bany c o, congr2 Instr.bany (fD_L ..) ((low_L 0 18 (by decide) ..).trans (cut_self _))⟩
theorem op_bnone (c : Reg) (o : BitVec 18) : opOf (encode (.bnone c o)) = some .bnone := by
  show opOf (fmtL 0x1a#7 c o) = _; unfold opOf; rw [fOp_L]; rfl
theorem Encoding.bnone (c : Reg) (o : BitVec 18) : Encoding.Statement (.bnone c o) :=
  .inr fun _ => ⟨_, op_bnone c o, congr2 Instr.bnone (fD_L ..) ((low_L 0 18 (by decide) ..).trans (cut_self _))⟩
theorem op_smb (d : Reg) (k : BitVec 3) (m : BitVec 4) (o : BitVec 11) : opOf (encode (.smb d k m o)) = some .smb := by
  show opOf (fmtI 0x1b#7 d (k ++ m) o) = _; unfold opOf; rw [fOp_I]; rfl
theorem Encoding.smb (d : Reg) (k : BitVec 3) (m : BitVec 4) (o : BitVec 11) : Encoding.Statement (.smb d k m o) :=
  .inr fun _ => ⟨_, op_smb d k m o, congr4 Instr.smb (fD_I ..) ((cut_hi 4 3 (_ ++ d ++ (k ++ m)) o).trans ((cut_lo 4 3 (by decide) (_ ++ d) (k ++ m)).trans ((cut_hi 0 3 (k) m).trans (cut_self _)))) ((cut_hi 0 4 (_ ++ d ++ (k ++ m)) o).trans ((cut_lo 0 4 (by decide) (_ ++ d) (k ++ m)).trans ((cut_lo 0 4 (by decide) (k) m).trans (cut_self _)))) ((low_I 0 11 (by decide) ..).trans (cut_self _))⟩
theorem op_bend (c : Reg) (o : BitVec 18) : opOf (encode (.bend c o)) = some .bend := by
  show opOf (fmtL 0x1c#7 c o) = _; unfold opOf; rw [fOp_L]; rfl
theorem Encoding.bend (c : Reg) (o : BitVec 18) : Encoding.Statement (.bend c o) :=
  .inr fun _ => ⟨_, op_bend c o, congr2 Instr.bend (fD_L ..) ((low_L 0 18 (by decide) ..).trans (cut_self _))⟩
theorem op_nop : opOf (encode (.nop)) = some .nop := by
  show opOf (fmtN 0x1d#7 0#25) = _; unfold opOf; rw [fOp_N]; rfl
theorem Encoding.nop : Encoding.Statement (.nop) :=
  .inr fun _ => ⟨_, op_nop, rfl⟩
theorem op_yield : opOf (encode (.yield)) = some .yield := by
  show opOf (fmtN 0x1e#7 0#25) = _; unfold opOf; rw [fOp_N]; rfl
theorem Encoding.yield : Encoding.Statement (.yield) :=
  .inr fun _ => ⟨_, op_yield, rfl⟩
theorem op_trap (c : BitVec 25) : opOf (encode (.trap c)) = some .trap := by
  show opOf (fmtN 0x1f#7 c) = _; unfold opOf; rw [fOp_N]; rfl
theorem Encoding.trap (c : BitVec 25) : Encoding.Statement (.trap c) :=
  .inr fun _ => ⟨_, op_trap c, congr1 Instr.trap ((low_N 0 25 (by decide) ..).trans (cut_self _))⟩
theorem op_vlget (d : Reg) (a : Reg) (k : BitVec 1) (t : BitVec 4) : opOf (encode (.vlget d a k t)) = some .vlget := by
  show opOf (fmtI 0x20#7 d a (0#6 ++ k ++ t)) = _; unfold opOf; rw [fOp_I]; rfl
theorem Encoding.vlget (d : Reg) (a : Reg) (k : BitVec 1) (t : BitVec 4) : Encoding.Statement (.vlget d a k t) :=
  .inr fun _ => ⟨_, op_vlget d a k t, congr4 Instr.vlget (fD_I ..) (fA_I ..) ((low_I 4 1 (by decide) ..).trans ((cut_hi 0 1 (0#6 ++ k) t).trans ((cut_lo 0 1 (by decide) (0#6) k).trans (cut_self _)))) ((low_I 0 4 (by decide) ..).trans ((cut_lo 0 4 (by decide) (0#6 ++ k) t).trans (cut_self _)))⟩
theorem op_vloop (d : Reg) (a : Reg) (j : BitVec 1) (k : BitVec 1) (t : BitVec 4) : opOf (encode (.vloop d a j k t)) = some .vloop := by
  show opOf (fmtI 0x21#7 d a (0#5 ++ j ++ k ++ t)) = _; unfold opOf; rw [fOp_I]; rfl
theorem Encoding.vloop (d : Reg) (a : Reg) (j : BitVec 1) (k : BitVec 1) (t : BitVec 4) : Encoding.Statement (.vloop d a j k t) :=
  .inr fun _ => ⟨_, op_vloop d a j k t, congr5 Instr.vloop (fD_I ..) (fA_I ..) ((low_I 5 1 (by decide) ..).trans ((cut_hi 1 1 (0#5 ++ j ++ k) t).trans ((cut_hi 0 1 (0#5 ++ j) k).trans ((cut_lo 0 1 (by decide) (0#5) j).trans (cut_self _))))) ((low_I 4 1 (by decide) ..).trans ((cut_hi 0 1 (0#5 ++ j ++ k) t).trans ((cut_lo 0 1 (by decide) (0#5 ++ j) k).trans (cut_self _)))) ((low_I 0 4 (by decide) ..).trans ((cut_lo 0 4 (by decide) (0#5 ++ j ++ k) t).trans (cut_self _)))⟩
theorem op_stair (d : Reg) (a : Reg) (l : BitVec 6) (f : BitVec 3) : opOf (encode (.stair d a l f)) = some .stair := by
  show opOf (fmtI 0x22#7 d a (0#2 ++ l ++ f)) = _; unfold opOf; rw [fOp_I]; rfl
theorem Encoding.stair (d : Reg) (a : Reg) (l : BitVec 6) (f : BitVec 3) : Encoding.Statement (.stair d a l f) :=
  .inr fun _ => ⟨_, op_stair d a l f, congr4 Instr.stair (fD_I ..) (fA_I ..) ((low_I 3 6 (by decide) ..).trans ((cut_hi 0 6 (0#2 ++ l) f).trans ((cut_lo 0 6 (by decide) (0#2) l).trans (cut_self _)))) ((low_I 0 3 (by decide) ..).trans ((cut_lo 0 3 (by decide) (0#2 ++ l) f).trans (cut_self _)))⟩
theorem op_stflg (a : Reg) (k : BitVec 1) (f : BitVec 6) : opOf (encode (.stflg a k f)) = some .stflg := by
  show opOf (fmtI 0x23#7 0#7 a (0#4 ++ k ++ f)) = _; unfold opOf; rw [fOp_I]; rfl
theorem Encoding.stflg (a : Reg) (k : BitVec 1) (f : BitVec 6) : Encoding.Statement (.stflg a k f) :=
  .inr fun _ => ⟨_, op_stflg a k f, congr3 Instr.stflg (fA_I ..) ((low_I 6 1 (by decide) ..).trans ((cut_hi 0 1 (0#4 ++ k) f).trans ((cut_lo 0 1 (by decide) (0#4) k).trans (cut_self _)))) ((low_I 0 6 (by decide) ..).trans ((cut_lo 0 6 (by decide) (0#4 ++ k) f).trans (cut_self _)))⟩
theorem op_ststep (d : Reg) (a : Reg) (b : Reg) (m : BitVec 4) : opOf (encode (.ststep d a b m)) = some .ststep := by
  show opOf (fmtR 0x24#7 d a b m) = _; unfold opOf; rw [fOp_R]; rfl
theorem Encoding.ststep (d : Reg) (a : Reg) (b : Reg) (m : BitVec 4) : Encoding.Statement (.ststep d a b m) :=
  .inr fun _ => ⟨_, op_ststep d a b m, congr4 Instr.ststep (fD_R ..) (fA_R ..) (fB_R ..) ((low_R 0 4 (by decide) ..).trans (cut_self _))⟩
theorem op_wbase (w : BitVec 6) : opOf (encode (.wbase w)) = some .wbase := by
  show opOf (fmtI 0x25#7 0#7 0#7 (0#5 ++ w)) = _; unfold opOf; rw [fOp_I]; rfl
theorem Encoding.wbase (w : BitVec 6) : Encoding.Statement (.wbase w) :=
  .inr fun _ => ⟨_, op_wbase w, congr1 Instr.wbase ((low_I 0 6 (by decide) ..).trans ((cut_lo 0 6 (by decide) (0#5) w).trans (cut_self _)))⟩
theorem op_fmode (m : Reg) : opOf (encode (.fmode m)) = some .fmode := by
  show opOf (fmtI 0x26#7 0#7 0#7 (0#4 ++ m)) = _; unfold opOf; rw [fOp_I]; rfl
theorem Encoding.fmode (m : Reg) : Encoding.Statement (.fmode m) :=
  .inr fun _ => ⟨_, op_fmode m, congr1 Instr.fmode ((low_I 0 7 (by decide) ..).trans ((cut_lo 0 7 (by decide) (0#4) m).trans (cut_self _)))⟩
theorem op_scope (i : BitVec 5) : opOf (encode (.scope i)) = some .scope := by
  show opOf (fmtI 0x27#7 0#7 0#7 (0#6 ++ i)) = _; unfold opOf; rw [fOp_I]; rfl
theorem Encoding.scope (i : BitVec 5) : Encoding.Statement (.scope i) :=
  .inr fun _ => ⟨_, op_scope i, congr1 Instr.scope ((low_I 0 5 (by decide) ..).trans ((cut_lo 0 5 (by decide) (0#6) i).trans (cut_self _)))⟩
theorem op_vmask (p : Reg) : opOf (encode (.vmask p)) = some .vmask := by
  show opOf (fmtI 0x28#7 0#7 0#7 (0#4 ++ p)) = _; unfold opOf; rw [fOp_I]; rfl
theorem Encoding.vmask (p : Reg) : Encoding.Statement (.vmask p) :=
  .inr fun _ => ⟨_, op_vmask p, congr1 Instr.vmask ((low_I 0 7 (by decide) ..).trans ((cut_lo 0 7 (by decide) (0#4) p).trans (cut_self _)))⟩
theorem op_ldb (d : Reg) (a : Reg) (i : BitVec 11) : opOf (encode (.ldb d a i)) = some .ldb := by
  show opOf (fmtI 0x29#7 d a i) = _; unfold opOf; rw [fOp_I]; rfl
theorem Encoding.ldb (d : Reg) (a : Reg) (i : BitVec 11) : Encoding.Statement (.ldb d a i) :=
  .inr fun _ => ⟨_, op_ldb d a i, congr3 Instr.ldb (fD_I ..) (fA_I ..) ((low_I 0 11 (by decide) ..).trans (cut_self _))⟩
theorem op_ldh (d : Reg) (a : Reg) (i : BitVec 11) : opOf (encode (.ldh d a i)) = some .ldh := by
  show opOf (fmtI 0x2a#7 d a i) = _; unfold opOf; rw [fOp_I]; rfl
theorem Encoding.ldh (d : Reg) (a : Reg) (i : BitVec 11) : Encoding.Statement (.ldh d a i) :=
  .inr fun _ => ⟨_, op_ldh d a i, congr3 Instr.ldh (fD_I ..) (fA_I ..) ((low_I 0 11 (by decide) ..).trans (cut_self _))⟩
theorem op_ldw (d : Reg) (a : Reg) (i : BitVec 11) : opOf (encode (.ldw d a i)) = some .ldw := by
  show opOf (fmtI 0x2b#7 d a i) = _; unfold opOf; rw [fOp_I]; rfl
theorem Encoding.ldw (d : Reg) (a : Reg) (i : BitVec 11) : Encoding.Statement (.ldw d a i) :=
  .inr fun _ => ⟨_, op_ldw d a i, congr3 Instr.ldw (fD_I ..) (fA_I ..) ((low_I 0 11 (by decide) ..).trans (cut_self _))⟩
theorem op_ldd (d : Reg) (a : Reg) (i : BitVec 11) : opOf (encode (.ldd d a i)) = some .ldd := by
  show opOf (fmtI 0x2c#7 d a i) = _; unfold opOf; rw [fOp_I]; rfl
theorem Encoding.ldd (d : Reg) (a : Reg) (i : BitVec 11) : Encoding.Statement (.ldd d a i) :=
  .inr fun _ => ⟨_, op_ldd d a i, congr3 Instr.ldd (fD_I ..) (fA_I ..) ((low_I 0 11 (by decide) ..).trans (cut_self _))⟩
theorem op_stb (d : Reg) (a : Reg) (i : BitVec 11) : opOf (encode (.stb d a i)) = some .stb := by
  show opOf (fmtI 0x2d#7 d a i) = _; unfold opOf; rw [fOp_I]; rfl
theorem Encoding.stb (d : Reg) (a : Reg) (i : BitVec 11) : Encoding.Statement (.stb d a i) :=
  .inr fun _ => ⟨_, op_stb d a i, congr3 Instr.stb (fD_I ..) (fA_I ..) ((low_I 0 11 (by decide) ..).trans (cut_self _))⟩
theorem op_sth (d : Reg) (a : Reg) (i : BitVec 11) : opOf (encode (.sth d a i)) = some .sth := by
  show opOf (fmtI 0x2e#7 d a i) = _; unfold opOf; rw [fOp_I]; rfl
theorem Encoding.sth (d : Reg) (a : Reg) (i : BitVec 11) : Encoding.Statement (.sth d a i) :=
  .inr fun _ => ⟨_, op_sth d a i, congr3 Instr.sth (fD_I ..) (fA_I ..) ((low_I 0 11 (by decide) ..).trans (cut_self _))⟩
theorem op_stw (d : Reg) (a : Reg) (i : BitVec 11) : opOf (encode (.stw d a i)) = some .stw := by
  show opOf (fmtI 0x2f#7 d a i) = _; unfold opOf; rw [fOp_I]; rfl
theorem Encoding.stw (d : Reg) (a : Reg) (i : BitVec 11) : Encoding.Statement (.stw d a i) :=
  .inr fun _ => ⟨_, op_stw d a i, congr3 Instr.stw (fD_I ..) (fA_I ..) ((low_I 0 11 (by decide) ..).trans (cut_self _))⟩
theorem op_std (d : Reg) (a : Reg) (i : BitVec 11) : opOf (encode (.std d a i)) = some .std := by
  show opOf (fmtI 0x30#7 d a i) = _; unfold opOf; rw [fOp_I]; rfl
theorem Encoding.std (d : Reg) (a : Reg) (i : BitVec 11) : Encoding.Statement (.std d a i) :=
  .inr fun _ => ⟨_, op_std d a i, congr3 Instr.std (fD_I ..) (fA_I ..) ((low_I 0 11 (by decide) ..).trans (cut_self _))⟩
theorem op_aset (d : Reg) (a : Reg) : opOf (encode (.aset d a)) = some .aset := by
  show opOf (fmtR 0x31#7 d a 0#7 0#4) = _; unfold opOf; rw [fOp_R]; show opOf31 _ = _; unfold opOf31; rw [fFn_R]; rfl
theorem Encoding.aset (d : Reg) (a : Reg) : Encoding.Statement (.aset d a) :=
  .inr fun _ => ⟨_, op_aset d a, congr2 Instr.aset (fD_R ..) (fA_R ..)⟩
theorem op_aget (d : Reg) (a : Reg) : opOf (encode (.aget d a)) = some .aget := by
  show opOf (fmtR 0x31#7 d a 0#7 1#4) = _; unfold opOf; rw [fOp_R]; show opOf31 _ = _; unfold opOf31; rw [fFn_R]; rfl
theorem Encoding.aget (d : Reg) (a : Reg) : Encoding.Statement (.aget d a) :=
  .inr fun _ => ⟨_, op_aget d a, congr2 Instr.aget (fD_R ..) (fA_R ..)⟩
theorem op_astr (d : Reg) (a : Reg) : opOf (encode (.astr d a)) = some .astr := by
  show opOf (fmtR 0x31#7 d a 0#7 2#4) = _; unfold opOf; rw [fOp_R]; show opOf31 _ = _; unfold opOf31; rw [fFn_R]; rfl
theorem Encoding.astr (d : Reg) (a : Reg) : Encoding.Statement (.astr d a) :=
  .inr fun _ => ⟨_, op_astr d a, congr2 Instr.astr (fD_R ..) (fA_R ..)⟩
theorem op_aadd (d : Reg) (a : Reg) : opOf (encode (.aadd d a)) = some .aadd := by
  show opOf (fmtR 0x31#7 d a 0#7 3#4) = _; unfold opOf; rw [fOp_R]; show opOf31 _ = _; unfold opOf31; rw [fFn_R]; rfl
theorem Encoding.aadd (d : Reg) (a : Reg) : Encoding.Statement (.aadd d a) :=
  .inr fun _ => ⟨_, op_aadd d a, congr2 Instr.aadd (fD_R ..) (fA_R ..)⟩
theorem op_agstr (d : Reg) (a : Reg) : opOf (encode (.agstr d a)) = some .agstr := by
  show opOf (fmtR 0x31#7 d a 0#7 4#4) = _; unfold opOf; rw [fOp_R]; show opOf31 _ = _; unfold opOf31; rw [fFn_R]; rfl
theorem Encoding.agstr (d : Reg) (a : Reg) : Encoding.Statement (.agstr d a) :=
  .inr fun _ => ⟨_, op_agstr d a, congr2 Instr.agstr (fD_R ..) (fA_R ..)⟩
theorem op_lds (d : Reg) (a : Reg) (o : BitVec 2) (w : BitVec 2) : opOf (encode (.lds d a o w)) = some .lds := by
  show opOf (fmtR 0x32#7 d a 0#7 (o ++ w)) = _; unfold opOf; rw [fOp_R]; rfl
theorem Encoding.lds (d : Reg) (a : Reg) (o : BitVec 2) (w : BitVec 2) : Encoding.Statement (.lds d a o w) :=
  .inr fun _ => ⟨_, op_lds d a o w, congr4 Instr.lds (fD_R ..) (fA_R ..) ((low_R 2 2 (by decide) ..).trans ((cut_hi 0 2 (o) w).trans (cut_self _))) ((low_R 0 2 (by decide) ..).trans ((cut_lo 0 2 (by decide) (o) w).trans (cut_self _)))⟩
theorem op_sts (d : Reg) (a : Reg) (o : BitVec 2) (w : BitVec 2) : opOf (encode (.sts d a o w)) = some .sts := by
  show opOf (fmtR 0x33#7 d a 0#7 (o ++ w)) = _; unfold opOf; rw [fOp_R]; rfl
theorem Encoding.sts (d : Reg) (a : Reg) (o : BitVec 2) (w : BitVec 2) : Encoding.Statement (.sts d a o w) :=
  .inr fun _ => ⟨_, op_sts d a o w, congr4 Instr.sts (fD_R ..) (fA_R ..) ((low_R 2 2 (by decide) ..).trans ((cut_hi 0 2 (o) w).trans (cut_self _))) ((low_R 0 2 (by decide) ..).trans ((cut_lo 0 2 (by decide) (o) w).trans (cut_self _)))⟩
theorem op_amoAdd (d : Reg) (a : Reg) (b : Reg) : opOf (encode (.amoAdd d a b)) = some .amoAdd := by
  show opOf (fmtR 0x34#7 d a b 0#4) = _; unfold opOf; rw [fOp_R]; show opOf34 _ = _; unfold opOf34; rw [fFn_R]; rfl
theorem Encoding.amoAdd (d : Reg) (a : Reg) (b : Reg) : Encoding.Statement (.amoAdd d a b) :=
  .inr fun _ => ⟨_, op_amoAdd d a b, congr3 Instr.amoAdd (fD_R ..) (fA_R ..) (fB_R ..)⟩
theorem op_amoAnd (d : Reg) (a : Reg) (b : Reg) : opOf (encode (.amoAnd d a b)) = some .amoAnd := by
  show opOf (fmtR 0x34#7 d a b 1#4) = _; unfold opOf; rw [fOp_R]; show opOf34 _ = _; unfold opOf34; rw [fFn_R]; rfl
theorem Encoding.amoAnd (d : Reg) (a : Reg) (b : Reg) : Encoding.Statement (.amoAnd d a b) :=
  .inr fun _ => ⟨_, op_amoAnd d a b, congr3 Instr.amoAnd (fD_R ..) (fA_R ..) (fB_R ..)⟩
theorem op_amoOr (d : Reg) (a : Reg) (b : Reg) : opOf (encode (.amoOr d a b)) = some .amoOr := by
  show opOf (fmtR 0x34#7 d a b 2#4) = _; unfold opOf; rw [fOp_R]; show opOf34 _ = _; unfold opOf34; rw [fFn_R]; rfl
theorem Encoding.amoOr (d : Reg) (a : Reg) (b : Reg) : Encoding.Statement (.amoOr d a b) :=
  .inr fun _ => ⟨_, op_amoOr d a b, congr3 Instr.amoOr (fD_R ..) (fA_R ..) (fB_R ..)⟩
theorem op_amoXor (d : Reg) (a : Reg) (b : Reg) : opOf (encode (.amoXor d a b)) = some .amoXor := by
  show opOf (fmtR 0x34#7 d a b 3#4) = _; unfold opOf; rw [fOp_R]; show opOf34 _ = _; unfold opOf34; rw [fFn_R]; rfl
theorem Encoding.amoXor (d : Reg) (a : Reg) (b : Reg) : Encoding.Statement (.amoXor d a b) :=
  .inr fun _ => ⟨_, op_amoXor d a b, congr3 Instr.amoXor (fD_R ..) (fA_R ..) (fB_R ..)⟩
theorem op_amoMin (d : Reg) (a : Reg) (b : Reg) : opOf (encode (.amoMin d a b)) = some .amoMin := by
  show opOf (fmtR 0x34#7 d a b 4#4) = _; unfold opOf; rw [fOp_R]; show opOf34 _ = _; unfold opOf34; rw [fFn_R]; rfl
theorem Encoding.amoMin (d : Reg) (a : Reg) (b : Reg) : Encoding.Statement (.amoMin d a b) :=
  .inr fun _ => ⟨_, op_amoMin d a b, congr3 Instr.amoMin (fD_R ..) (fA_R ..) (fB_R ..)⟩
theorem op_amoMax (d : Reg) (a : Reg) (b : Reg) : opOf (encode (.amoMax d a b)) = some .amoMax := by
  show opOf (fmtR 0x34#7 d a b 5#4) = _; unfold opOf; rw [fOp_R]; show opOf34 _ = _; unfold opOf34; rw [fFn_R]; rfl
theorem Encoding.amoMax (d : Reg) (a : Reg) (b : Reg) : Encoding.Statement (.amoMax d a b) :=
  .inr fun _ => ⟨_, op_amoMax d a b, congr3 Instr.amoMax (fD_R ..) (fA_R ..) (fB_R ..)⟩
theorem op_amoMinu (d : Reg) (a : Reg) (b : Reg) : opOf (encode (.amoMinu d a b)) = some .amoMinu := by
  show opOf (fmtR 0x34#7 d a b 6#4) = _; unfold opOf; rw [fOp_R]; show opOf34 _ = _; unfold opOf34; rw [fFn_R]; rfl
theorem Encoding.amoMinu (d : Reg) (a : Reg) (b : Reg) : Encoding.Statement (.amoMinu d a b) :=
  .inr fun _ => ⟨_, op_amoMinu d a b, congr3 Instr.amoMinu (fD_R ..) (fA_R ..) (fB_R ..)⟩
theorem op_amoMaxu (d : Reg) (a : Reg) (b : Reg) : opOf (encode (.amoMaxu d a b)) = some .amoMaxu := by
  show opOf (fmtR 0x34#7 d a b 7#4) = _; unfold opOf; rw [fOp_R]; show opOf34 _ = _; unfold opOf34; rw [fFn_R]; rfl
theorem Encoding.amoMaxu (d : Reg) (a : Reg) (b : Reg) : Encoding.Statement (.amoMaxu d a b) :=
  .inr fun _ => ⟨_, op_amoMaxu d a b, congr3 Instr.amoMaxu (fD_R ..) (fA_R ..) (fB_R ..)⟩
theorem op_amoSwap (d : Reg) (a : Reg) (b : Reg) : opOf (encode (.amoSwap d a b)) = some .amoSwap := by
  show opOf (fmtR 0x34#7 d a b 8#4) = _; unfold opOf; rw [fOp_R]; show opOf34 _ = _; unfold opOf34; rw [fFn_R]; rfl
theorem Encoding.amoSwap (d : Reg) (a : Reg) (b : Reg) : Encoding.Statement (.amoSwap d a b) :=
  .inr fun _ => ⟨_, op_amoSwap d a b, congr3 Instr.amoSwap (fD_R ..) (fA_R ..) (fB_R ..)⟩
theorem op_amoFadd32 (d : Reg) (a : Reg) (b : Reg) : opOf (encode (.amoFadd32 d a b)) = some .amoFadd32 := by
  show opOf (fmtR 0x34#7 d a b 9#4) = _; unfold opOf; rw [fOp_R]; show opOf34 _ = _; unfold opOf34; rw [fFn_R]; rfl
theorem Encoding.amoFadd32 (d : Reg) (a : Reg) (b : Reg) : Encoding.Statement (.amoFadd32 d a b) :=
  .inr fun _ => ⟨_, op_amoFadd32 d a b, congr3 Instr.amoFadd32 (fD_R ..) (fA_R ..) (fB_R ..)⟩
theorem op_amoFadd64 (d : Reg) (a : Reg) (b : Reg) : opOf (encode (.amoFadd64 d a b)) = some .amoFadd64 := by
  show opOf (fmtR 0x34#7 d a b 0xa#4) = _; unfold opOf; rw [fOp_R]; show opOf34 _ = _; unfold opOf34; rw [fFn_R]; rfl
theorem Encoding.amoFadd64 (d : Reg) (a : Reg) (b : Reg) : Encoding.Statement (.amoFadd64 d a b) :=
  .inr fun _ => ⟨_, op_amoFadd64 d a b, congr3 Instr.amoFadd64 (fD_R ..) (fA_R ..) (fB_R ..)⟩
theorem op_amoaAdd (d : Reg) (a : Reg) (b : Reg) : opOf (encode (.amoaAdd d a b)) = some .amoaAdd := by
  show opOf (fmtR 0x35#7 d a b 0#4) = _; unfold opOf; rw [fOp_R]; show opOf35 _ = _; unfold opOf35; rw [fFn_R]; rfl
theorem Encoding.amoaAdd (d : Reg) (a : Reg) (b : Reg) : Encoding.Statement (.amoaAdd d a b) :=
  .inr fun _ => ⟨_, op_amoaAdd d a b, congr3 Instr.amoaAdd (fD_R ..) (fA_R ..) (fB_R ..)⟩
theorem op_amoaAnd (d : Reg) (a : Reg) (b : Reg) : opOf (encode (.amoaAnd d a b)) = some .amoaAnd := by
  show opOf (fmtR 0x35#7 d a b 1#4) = _; unfold opOf; rw [fOp_R]; show opOf35 _ = _; unfold opOf35; rw [fFn_R]; rfl
theorem Encoding.amoaAnd (d : Reg) (a : Reg) (b : Reg) : Encoding.Statement (.amoaAnd d a b) :=
  .inr fun _ => ⟨_, op_amoaAnd d a b, congr3 Instr.amoaAnd (fD_R ..) (fA_R ..) (fB_R ..)⟩
theorem op_amoaOr (d : Reg) (a : Reg) (b : Reg) : opOf (encode (.amoaOr d a b)) = some .amoaOr := by
  show opOf (fmtR 0x35#7 d a b 2#4) = _; unfold opOf; rw [fOp_R]; show opOf35 _ = _; unfold opOf35; rw [fFn_R]; rfl
theorem Encoding.amoaOr (d : Reg) (a : Reg) (b : Reg) : Encoding.Statement (.amoaOr d a b) :=
  .inr fun _ => ⟨_, op_amoaOr d a b, congr3 Instr.amoaOr (fD_R ..) (fA_R ..) (fB_R ..)⟩
theorem op_amoaXor (d : Reg) (a : Reg) (b : Reg) : opOf (encode (.amoaXor d a b)) = some .amoaXor := by
  show opOf (fmtR 0x35#7 d a b 3#4) = _; unfold opOf; rw [fOp_R]; show opOf35 _ = _; unfold opOf35; rw [fFn_R]; rfl
theorem Encoding.amoaXor (d : Reg) (a : Reg) (b : Reg) : Encoding.Statement (.amoaXor d a b) :=
  .inr fun _ => ⟨_, op_amoaXor d a b, congr3 Instr.amoaXor (fD_R ..) (fA_R ..) (fB_R ..)⟩
theorem op_amoaMin (d : Reg) (a : Reg) (b : Reg) : opOf (encode (.amoaMin d a b)) = some .amoaMin := by
  show opOf (fmtR 0x35#7 d a b 4#4) = _; unfold opOf; rw [fOp_R]; show opOf35 _ = _; unfold opOf35; rw [fFn_R]; rfl
theorem Encoding.amoaMin (d : Reg) (a : Reg) (b : Reg) : Encoding.Statement (.amoaMin d a b) :=
  .inr fun _ => ⟨_, op_amoaMin d a b, congr3 Instr.amoaMin (fD_R ..) (fA_R ..) (fB_R ..)⟩
theorem op_amoaMax (d : Reg) (a : Reg) (b : Reg) : opOf (encode (.amoaMax d a b)) = some .amoaMax := by
  show opOf (fmtR 0x35#7 d a b 5#4) = _; unfold opOf; rw [fOp_R]; show opOf35 _ = _; unfold opOf35; rw [fFn_R]; rfl
theorem Encoding.amoaMax (d : Reg) (a : Reg) (b : Reg) : Encoding.Statement (.amoaMax d a b) :=
  .inr fun _ => ⟨_, op_amoaMax d a b, congr3 Instr.amoaMax (fD_R ..) (fA_R ..) (fB_R ..)⟩
theorem op_amoaMinu (d : Reg) (a : Reg) (b : Reg) : opOf (encode (.amoaMinu d a b)) = some .amoaMinu := by
  show opOf (fmtR 0x35#7 d a b 6#4) = _; unfold opOf; rw [fOp_R]; show opOf35 _ = _; unfold opOf35; rw [fFn_R]; rfl
theorem Encoding.amoaMinu (d : Reg) (a : Reg) (b : Reg) : Encoding.Statement (.amoaMinu d a b) :=
  .inr fun _ => ⟨_, op_amoaMinu d a b, congr3 Instr.amoaMinu (fD_R ..) (fA_R ..) (fB_R ..)⟩
theorem op_amoaMaxu (d : Reg) (a : Reg) (b : Reg) : opOf (encode (.amoaMaxu d a b)) = some .amoaMaxu := by
  show opOf (fmtR 0x35#7 d a b 7#4) = _; unfold opOf; rw [fOp_R]; show opOf35 _ = _; unfold opOf35; rw [fFn_R]; rfl
theorem Encoding.amoaMaxu (d : Reg) (a : Reg) (b : Reg) : Encoding.Statement (.amoaMaxu d a b) :=
  .inr fun _ => ⟨_, op_amoaMaxu d a b, congr3 Instr.amoaMaxu (fD_R ..) (fA_R ..) (fB_R ..)⟩
theorem op_amoaSwap (d : Reg) (a : Reg) (b : Reg) : opOf (encode (.amoaSwap d a b)) = some .amoaSwap := by
  show opOf (fmtR 0x35#7 d a b 8#4) = _; unfold opOf; rw [fOp_R]; show opOf35 _ = _; unfold opOf35; rw [fFn_R]; rfl
theorem Encoding.amoaSwap (d : Reg) (a : Reg) (b : Reg) : Encoding.Statement (.amoaSwap d a b) :=
  .inr fun _ => ⟨_, op_amoaSwap d a b, congr3 Instr.amoaSwap (fD_R ..) (fA_R ..) (fB_R ..)⟩
theorem op_amoaFadd32 (d : Reg) (a : Reg) (b : Reg) : opOf (encode (.amoaFadd32 d a b)) = some .amoaFadd32 := by
  show opOf (fmtR 0x35#7 d a b 9#4) = _; unfold opOf; rw [fOp_R]; show opOf35 _ = _; unfold opOf35; rw [fFn_R]; rfl
theorem Encoding.amoaFadd32 (d : Reg) (a : Reg) (b : Reg) : Encoding.Statement (.amoaFadd32 d a b) :=
  .inr fun _ => ⟨_, op_amoaFadd32 d a b, congr3 Instr.amoaFadd32 (fD_R ..) (fA_R ..) (fB_R ..)⟩
theorem op_amoaFadd64 (d : Reg) (a : Reg) (b : Reg) : opOf (encode (.amoaFadd64 d a b)) = some .amoaFadd64 := by
  show opOf (fmtR 0x35#7 d a b 0xa#4) = _; unfold opOf; rw [fOp_R]; show opOf35 _ = _; unfold opOf35; rw [fFn_R]; rfl
theorem Encoding.amoaFadd64 (d : Reg) (a : Reg) (b : Reg) : Encoding.Statement (.amoaFadd64 d a b) :=
  .inr fun _ => ⟨_, op_amoaFadd64 d a b, congr3 Instr.amoaFadd64 (fD_R ..) (fA_R ..) (fB_R ..)⟩
theorem op_amolAdd (d : Reg) (a : Reg) (b : Reg) : opOf (encode (.amolAdd d a b)) = some .amolAdd := by
  show opOf (fmtR 0x36#7 d a b 0#4) = _; unfold opOf; rw [fOp_R]; show opOf36 _ = _; unfold opOf36; rw [fFn_R]; rfl
theorem Encoding.amolAdd (d : Reg) (a : Reg) (b : Reg) : Encoding.Statement (.amolAdd d a b) :=
  .inr fun _ => ⟨_, op_amolAdd d a b, congr3 Instr.amolAdd (fD_R ..) (fA_R ..) (fB_R ..)⟩
theorem op_amolAnd (d : Reg) (a : Reg) (b : Reg) : opOf (encode (.amolAnd d a b)) = some .amolAnd := by
  show opOf (fmtR 0x36#7 d a b 1#4) = _; unfold opOf; rw [fOp_R]; show opOf36 _ = _; unfold opOf36; rw [fFn_R]; rfl
theorem Encoding.amolAnd (d : Reg) (a : Reg) (b : Reg) : Encoding.Statement (.amolAnd d a b) :=
  .inr fun _ => ⟨_, op_amolAnd d a b, congr3 Instr.amolAnd (fD_R ..) (fA_R ..) (fB_R ..)⟩
theorem op_amolOr (d : Reg) (a : Reg) (b : Reg) : opOf (encode (.amolOr d a b)) = some .amolOr := by
  show opOf (fmtR 0x36#7 d a b 2#4) = _; unfold opOf; rw [fOp_R]; show opOf36 _ = _; unfold opOf36; rw [fFn_R]; rfl
theorem Encoding.amolOr (d : Reg) (a : Reg) (b : Reg) : Encoding.Statement (.amolOr d a b) :=
  .inr fun _ => ⟨_, op_amolOr d a b, congr3 Instr.amolOr (fD_R ..) (fA_R ..) (fB_R ..)⟩
theorem op_amolXor (d : Reg) (a : Reg) (b : Reg) : opOf (encode (.amolXor d a b)) = some .amolXor := by
  show opOf (fmtR 0x36#7 d a b 3#4) = _; unfold opOf; rw [fOp_R]; show opOf36 _ = _; unfold opOf36; rw [fFn_R]; rfl
theorem Encoding.amolXor (d : Reg) (a : Reg) (b : Reg) : Encoding.Statement (.amolXor d a b) :=
  .inr fun _ => ⟨_, op_amolXor d a b, congr3 Instr.amolXor (fD_R ..) (fA_R ..) (fB_R ..)⟩
theorem op_amolMin (d : Reg) (a : Reg) (b : Reg) : opOf (encode (.amolMin d a b)) = some .amolMin := by
  show opOf (fmtR 0x36#7 d a b 4#4) = _; unfold opOf; rw [fOp_R]; show opOf36 _ = _; unfold opOf36; rw [fFn_R]; rfl
theorem Encoding.amolMin (d : Reg) (a : Reg) (b : Reg) : Encoding.Statement (.amolMin d a b) :=
  .inr fun _ => ⟨_, op_amolMin d a b, congr3 Instr.amolMin (fD_R ..) (fA_R ..) (fB_R ..)⟩
theorem op_amolMax (d : Reg) (a : Reg) (b : Reg) : opOf (encode (.amolMax d a b)) = some .amolMax := by
  show opOf (fmtR 0x36#7 d a b 5#4) = _; unfold opOf; rw [fOp_R]; show opOf36 _ = _; unfold opOf36; rw [fFn_R]; rfl
theorem Encoding.amolMax (d : Reg) (a : Reg) (b : Reg) : Encoding.Statement (.amolMax d a b) :=
  .inr fun _ => ⟨_, op_amolMax d a b, congr3 Instr.amolMax (fD_R ..) (fA_R ..) (fB_R ..)⟩
theorem op_amolMinu (d : Reg) (a : Reg) (b : Reg) : opOf (encode (.amolMinu d a b)) = some .amolMinu := by
  show opOf (fmtR 0x36#7 d a b 6#4) = _; unfold opOf; rw [fOp_R]; show opOf36 _ = _; unfold opOf36; rw [fFn_R]; rfl
theorem Encoding.amolMinu (d : Reg) (a : Reg) (b : Reg) : Encoding.Statement (.amolMinu d a b) :=
  .inr fun _ => ⟨_, op_amolMinu d a b, congr3 Instr.amolMinu (fD_R ..) (fA_R ..) (fB_R ..)⟩
theorem op_amolMaxu (d : Reg) (a : Reg) (b : Reg) : opOf (encode (.amolMaxu d a b)) = some .amolMaxu := by
  show opOf (fmtR 0x36#7 d a b 7#4) = _; unfold opOf; rw [fOp_R]; show opOf36 _ = _; unfold opOf36; rw [fFn_R]; rfl
theorem Encoding.amolMaxu (d : Reg) (a : Reg) (b : Reg) : Encoding.Statement (.amolMaxu d a b) :=
  .inr fun _ => ⟨_, op_amolMaxu d a b, congr3 Instr.amolMaxu (fD_R ..) (fA_R ..) (fB_R ..)⟩
theorem op_amolSwap (d : Reg) (a : Reg) (b : Reg) : opOf (encode (.amolSwap d a b)) = some .amolSwap := by
  show opOf (fmtR 0x36#7 d a b 8#4) = _; unfold opOf; rw [fOp_R]; show opOf36 _ = _; unfold opOf36; rw [fFn_R]; rfl
theorem Encoding.amolSwap (d : Reg) (a : Reg) (b : Reg) : Encoding.Statement (.amolSwap d a b) :=
  .inr fun _ => ⟨_, op_amolSwap d a b, congr3 Instr.amolSwap (fD_R ..) (fA_R ..) (fB_R ..)⟩
theorem op_amolFadd32 (d : Reg) (a : Reg) (b : Reg) : opOf (encode (.amolFadd32 d a b)) = some .amolFadd32 := by
  show opOf (fmtR 0x36#7 d a b 9#4) = _; unfold opOf; rw [fOp_R]; show opOf36 _ = _; unfold opOf36; rw [fFn_R]; rfl
theorem Encoding.amolFadd32 (d : Reg) (a : Reg) (b : Reg) : Encoding.Statement (.amolFadd32 d a b) :=
  .inr fun _ => ⟨_, op_amolFadd32 d a b, congr3 Instr.amolFadd32 (fD_R ..) (fA_R ..) (fB_R ..)⟩
theorem op_amolFadd64 (d : Reg) (a : Reg) (b : Reg) : opOf (encode (.amolFadd64 d a b)) = some .amolFadd64 := by
  show opOf (fmtR 0x36#7 d a b 0xa#4) = _; unfold opOf; rw [fOp_R]; show opOf36 _ = _; unfold opOf36; rw [fFn_R]; rfl
theorem Encoding.amolFadd64 (d : Reg) (a : Reg) (b : Reg) : Encoding.Statement (.amolFadd64 d a b) :=
  .inr fun _ => ⟨_, op_amolFadd64 d a b, congr3 Instr.amolFadd64 (fD_R ..) (fA_R ..) (fB_R ..)⟩
theorem op_amoxAdd (d : Reg) (a : Reg) (b : Reg) : opOf (encode (.amoxAdd d a b)) = some .amoxAdd := by
  show opOf (fmtR 0x37#7 d a b 0#4) = _; unfold opOf; rw [fOp_R]; show opOf37 _ = _; unfold opOf37; rw [fFn_R]; rfl
theorem Encoding.amoxAdd (d : Reg) (a : Reg) (b : Reg) : Encoding.Statement (.amoxAdd d a b) :=
  .inr fun _ => ⟨_, op_amoxAdd d a b, congr3 Instr.amoxAdd (fD_R ..) (fA_R ..) (fB_R ..)⟩
theorem op_amoxAnd (d : Reg) (a : Reg) (b : Reg) : opOf (encode (.amoxAnd d a b)) = some .amoxAnd := by
  show opOf (fmtR 0x37#7 d a b 1#4) = _; unfold opOf; rw [fOp_R]; show opOf37 _ = _; unfold opOf37; rw [fFn_R]; rfl
theorem Encoding.amoxAnd (d : Reg) (a : Reg) (b : Reg) : Encoding.Statement (.amoxAnd d a b) :=
  .inr fun _ => ⟨_, op_amoxAnd d a b, congr3 Instr.amoxAnd (fD_R ..) (fA_R ..) (fB_R ..)⟩
theorem op_amoxOr (d : Reg) (a : Reg) (b : Reg) : opOf (encode (.amoxOr d a b)) = some .amoxOr := by
  show opOf (fmtR 0x37#7 d a b 2#4) = _; unfold opOf; rw [fOp_R]; show opOf37 _ = _; unfold opOf37; rw [fFn_R]; rfl
theorem Encoding.amoxOr (d : Reg) (a : Reg) (b : Reg) : Encoding.Statement (.amoxOr d a b) :=
  .inr fun _ => ⟨_, op_amoxOr d a b, congr3 Instr.amoxOr (fD_R ..) (fA_R ..) (fB_R ..)⟩
theorem op_amoxXor (d : Reg) (a : Reg) (b : Reg) : opOf (encode (.amoxXor d a b)) = some .amoxXor := by
  show opOf (fmtR 0x37#7 d a b 3#4) = _; unfold opOf; rw [fOp_R]; show opOf37 _ = _; unfold opOf37; rw [fFn_R]; rfl
theorem Encoding.amoxXor (d : Reg) (a : Reg) (b : Reg) : Encoding.Statement (.amoxXor d a b) :=
  .inr fun _ => ⟨_, op_amoxXor d a b, congr3 Instr.amoxXor (fD_R ..) (fA_R ..) (fB_R ..)⟩
theorem op_amoxMin (d : Reg) (a : Reg) (b : Reg) : opOf (encode (.amoxMin d a b)) = some .amoxMin := by
  show opOf (fmtR 0x37#7 d a b 4#4) = _; unfold opOf; rw [fOp_R]; show opOf37 _ = _; unfold opOf37; rw [fFn_R]; rfl
theorem Encoding.amoxMin (d : Reg) (a : Reg) (b : Reg) : Encoding.Statement (.amoxMin d a b) :=
  .inr fun _ => ⟨_, op_amoxMin d a b, congr3 Instr.amoxMin (fD_R ..) (fA_R ..) (fB_R ..)⟩
theorem op_amoxMax (d : Reg) (a : Reg) (b : Reg) : opOf (encode (.amoxMax d a b)) = some .amoxMax := by
  show opOf (fmtR 0x37#7 d a b 5#4) = _; unfold opOf; rw [fOp_R]; show opOf37 _ = _; unfold opOf37; rw [fFn_R]; rfl
theorem Encoding.amoxMax (d : Reg) (a : Reg) (b : Reg) : Encoding.Statement (.amoxMax d a b) :=
  .inr fun _ => ⟨_, op_amoxMax d a b, congr3 Instr.amoxMax (fD_R ..) (fA_R ..) (fB_R ..)⟩
theorem op_amoxMinu (d : Reg) (a : Reg) (b : Reg) : opOf (encode (.amoxMinu d a b)) = some .amoxMinu := by
  show opOf (fmtR 0x37#7 d a b 6#4) = _; unfold opOf; rw [fOp_R]; show opOf37 _ = _; unfold opOf37; rw [fFn_R]; rfl
theorem Encoding.amoxMinu (d : Reg) (a : Reg) (b : Reg) : Encoding.Statement (.amoxMinu d a b) :=
  .inr fun _ => ⟨_, op_amoxMinu d a b, congr3 Instr.amoxMinu (fD_R ..) (fA_R ..) (fB_R ..)⟩
theorem op_amoxMaxu (d : Reg) (a : Reg) (b : Reg) : opOf (encode (.amoxMaxu d a b)) = some .amoxMaxu := by
  show opOf (fmtR 0x37#7 d a b 7#4) = _; unfold opOf; rw [fOp_R]; show opOf37 _ = _; unfold opOf37; rw [fFn_R]; rfl
theorem Encoding.amoxMaxu (d : Reg) (a : Reg) (b : Reg) : Encoding.Statement (.amoxMaxu d a b) :=
  .inr fun _ => ⟨_, op_amoxMaxu d a b, congr3 Instr.amoxMaxu (fD_R ..) (fA_R ..) (fB_R ..)⟩
theorem op_amoxSwap (d : Reg) (a : Reg) (b : Reg) : opOf (encode (.amoxSwap d a b)) = some .amoxSwap := by
  show opOf (fmtR 0x37#7 d a b 8#4) = _; unfold opOf; rw [fOp_R]; show opOf37 _ = _; unfold opOf37; rw [fFn_R]; rfl
theorem Encoding.amoxSwap (d : Reg) (a : Reg) (b : Reg) : Encoding.Statement (.amoxSwap d a b) :=
  .inr fun _ => ⟨_, op_amoxSwap d a b, congr3 Instr.amoxSwap (fD_R ..) (fA_R ..) (fB_R ..)⟩
theorem op_amoxFadd32 (d : Reg) (a : Reg) (b : Reg) : opOf (encode (.amoxFadd32 d a b)) = some .amoxFadd32 := by
  show opOf (fmtR 0x37#7 d a b 9#4) = _; unfold opOf; rw [fOp_R]; show opOf37 _ = _; unfold opOf37; rw [fFn_R]; rfl
theorem Encoding.amoxFadd32 (d : Reg) (a : Reg) (b : Reg) : Encoding.Statement (.amoxFadd32 d a b) :=
  .inr fun _ => ⟨_, op_amoxFadd32 d a b, congr3 Instr.amoxFadd32 (fD_R ..) (fA_R ..) (fB_R ..)⟩
theorem op_amoxFadd64 (d : Reg) (a : Reg) (b : Reg) : opOf (encode (.amoxFadd64 d a b)) = some .amoxFadd64 := by
  show opOf (fmtR 0x37#7 d a b 0xa#4) = _; unfold opOf; rw [fOp_R]; show opOf37 _ = _; unfold opOf37; rw [fFn_R]; rfl
theorem Encoding.amoxFadd64 (d : Reg) (a : Reg) (b : Reg) : Encoding.Statement (.amoxFadd64 d a b) :=
  .inr fun _ => ⟨_, op_amoxFadd64 d a b, congr3 Instr.amoxFadd64 (fD_R ..) (fA_R ..) (fB_R ..)⟩
theorem op_cas (d : Reg) (a : Reg) (b : Reg) (w : BitVec 2) (o : BitVec 2) : opOf (encode (.cas d a b w o)) = some .cas := by
  show opOf (fmtR 0x38#7 d a b (w ++ o)) = _; unfold opOf; rw [fOp_R]; rfl
theorem Encoding.cas (d : Reg) (a : Reg) (b : Reg) (w : BitVec 2) (o : BitVec 2) : Encoding.Statement (.cas d a b w o) :=
  .inr fun _ => ⟨_, op_cas d a b w o, congr5 Instr.cas (fD_R ..) (fA_R ..) (fB_R ..) ((low_R 2 2 (by decide) ..).trans ((cut_hi 0 2 (w) o).trans (cut_self _))) ((low_R 0 2 (by decide) ..).trans ((cut_lo 0 2 (by decide) (w) o).trans (cut_self _)))⟩
theorem op_fence (e : BitVec 1) (k : BitVec 2) : opOf (encode (.fence e k)) = some .fence := by
  show opOf (fmtI 0x39#7 0#7 0#7 (0#8 ++ e ++ k)) = _; unfold opOf; rw [fOp_I]; rfl
theorem Encoding.fence (e : BitVec 1) (k : BitVec 2) : Encoding.Statement (.fence e k) :=
  .inr fun _ => ⟨_, op_fence e k, congr2 Instr.fence ((low_I 2 1 (by decide) ..).trans ((cut_hi 0 1 (0#8 ++ e) k).trans ((cut_lo 0 1 (by decide) (0#8) e).trans (cut_self _)))) ((low_I 0 2 (by decide) ..).trans ((cut_lo 0 2 (by decide) (0#8 ++ e) k).trans (cut_self _)))⟩
theorem op_waita (d : Reg) (a : Reg) (w : BitVec 1) (c : BitVec 2) : opOf (encode (.waita d a w c)) = some .waita := by
  show opOf (fmtR 0x3a#7 d a 0#7 (w ++ 0#1 ++ c)) = _; unfold opOf; rw [fOp_R]; rfl
theorem Encoding.waita (d : Reg) (a : Reg) (w : BitVec 1) (c : BitVec 2) : Encoding.Statement (.waita d a w c) :=
  .inr fun _ => ⟨_, op_waita d a w c, congr4 Instr.waita (fD_R ..) (fA_R ..) ((low_R 3 1 (by decide) ..).trans ((cut_hi 1 1 (w ++ 0#1) c).trans ((cut_hi 0 1 (w) 0#1).trans (cut_self _)))) ((low_R 0 2 (by decide) ..).trans ((cut_lo 0 2 (by decide) (w ++ 0#1) c).trans (cut_self _)))⟩
theorem op_barr (d : Reg) (a : Reg) (b : Reg) : opOf (encode (.barr d a b)) = some .barr := by
  show opOf (fmtR 0x3b#7 d a b 0#4) = _; unfold opOf; rw [fOp_R]; show opOf3B _ = _; unfold opOf3B; rw [fFn_R]; rfl
theorem Encoding.barr (d : Reg) (a : Reg) (b : Reg) : Encoding.Statement (.barr d a b) :=
  .inr fun _ => ⟨_, op_barr d a b, congr3 Instr.barr (fD_R ..) (fA_R ..) (fB_R ..)⟩
theorem op_barrt (d : Reg) (a : Reg) (b : Reg) : opOf (encode (.barrt d a b)) = some .barrt := by
  show opOf (fmtR 0x3b#7 d a b 1#4) = _; unfold opOf; rw [fOp_R]; show opOf3B _ = _; unfold opOf3B; rw [fFn_R]; rfl
theorem Encoding.barrt (d : Reg) (a : Reg) (b : Reg) : Encoding.Statement (.barrt d a b) :=
  .inr fun _ => ⟨_, op_barrt d a b, congr3 Instr.barrt (fD_R ..) (fA_R ..) (fB_R ..)⟩
theorem op_binit (d : Reg) (a : Reg) (b : Reg) : opOf (encode (.binit d a b)) = some .binit := by
  show opOf (fmtR 0x3b#7 d a b 2#4) = _; unfold opOf; rw [fOp_R]; show opOf3B _ = _; unfold opOf3B; rw [fFn_R]; rfl
theorem Encoding.binit (d : Reg) (a : Reg) (b : Reg) : Encoding.Statement (.binit d a b) :=
  .inr fun _ => ⟨_, op_binit d a b, congr3 Instr.binit (fD_R ..) (fA_R ..) (fB_R ..)⟩
theorem op_bdiss (d : Reg) (a : Reg) : opOf (encode (.bdiss d a)) = some .bdiss := by
  show opOf (fmtR 0x3b#7 d a 0#7 3#4) = _; unfold opOf; rw [fOp_R]; show opOf3B _ = _; unfold opOf3B; rw [fFn_R]; rfl
theorem Encoding.bdiss (d : Reg) (a : Reg) : Encoding.Statement (.bdiss d a) :=
  .inr fun _ => ⟨_, op_bdiss d a, congr2 Instr.bdiss (fD_R ..) (fA_R ..)⟩
theorem op_bwait (d : Reg) (a : Reg) (b : Reg) : opOf (encode (.bwait d a b)) = some .bwait := by
  show opOf (fmtR 0x3c#7 d a b 0#4) = _; unfold opOf; rw [fOp_R]; rfl
theorem Encoding.bwait (d : Reg) (a : Reg) (b : Reg) : Encoding.Statement (.bwait d a b) :=
  .inr fun _ => ⟨_, op_bwait d a b, congr3 Instr.bwait (fD_R ..) (fA_R ..) (fB_R ..)⟩
theorem op_vwait (d : Reg) (a : Reg) (b : Reg) : opOf (encode (.vwait d a b)) = some .vwait := by
  show opOf (fmtR 0x3d#7 d a b 0#4) = _; unfold opOf; rw [fOp_R]; rfl
theorem Encoding.vwait (d : Reg) (a : Reg) (b : Reg) : Encoding.Statement (.vwait d a b) :=
  .inr fun _ => ⟨_, op_vwait d a b, congr3 Instr.vwait (fD_R ..) (fA_R ..) (fB_R ..)⟩
theorem op_qdrain (a : Reg) : opOf (encode (.qdrain a)) = some .qdrain := by
  show opOf (fmtR 0x3e#7 0#7 a 0#7 0#4) = _; unfold opOf; rw [fOp_R]; rfl
theorem Encoding.qdrain (a : Reg) : Encoding.Statement (.qdrain a) :=
  .inr fun _ => ⟨_, op_qdrain a, congr1 Instr.qdrain (fA_R ..)⟩
theorem op_qcnt (d : Reg) (a : Reg) : opOf (encode (.qcnt d a)) = some .qcnt := by
  show opOf (fmtR 0x3f#7 d a 0#7 0#4) = _; unfold opOf; rw [fOp_R]; rfl
theorem Encoding.qcnt (d : Reg) (a : Reg) : Encoding.Statement (.qcnt d a) :=
  .inr fun _ => ⟨_, op_qcnt d a, congr2 Instr.qcnt (fD_R ..) (fA_R ..)⟩
theorem op_sload (d : Reg) (a : Reg) : opOf (encode (.sload d a)) = some .sload := by
  show opOf (fmtR 0x40#7 d a 0#7 0#4) = _; unfold opOf; rw [fOp_R]; show opOf40 _ = _; unfold opOf40; rw [fFn_R]; rfl
theorem Encoding.sload (d : Reg) (a : Reg) : Encoding.Statement (.sload d a) :=
  .inr fun _ => ⟨_, op_sload d a, congr2 Instr.sload (fD_R ..) (fA_R ..)⟩
theorem op_sloadSlice (d : Reg) (a : Reg) (b : Reg) : opOf (encode (.sloadSlice d a b)) = some .sloadSlice := by
  show opOf (fmtR 0x40#7 d a b 1#4) = _; unfold opOf; rw [fOp_R]; show opOf40 _ = _; unfold opOf40; rw [fFn_R]; rfl
theorem Encoding.sloadSlice (d : Reg) (a : Reg) (b : Reg) : Encoding.Statement (.sloadSlice d a b) :=
  .inr fun _ => ⟨_, op_sloadSlice d a b, congr3 Instr.sloadSlice (fD_R ..) (fA_R ..) (fB_R ..)⟩
theorem op_sloadTrim (d : Reg) (a : Reg) : opOf (encode (.sloadTrim d a)) = some .sloadTrim := by
  show opOf (fmtR 0x40#7 d a 0#7 2#4) = _; unfold opOf; rw [fOp_R]; show opOf40 _ = _; unfold opOf40; rw [fFn_R]; rfl
theorem Encoding.sloadTrim (d : Reg) (a : Reg) : Encoding.Statement (.sloadTrim d a) :=
  .inr fun _ => ⟨_, op_sloadTrim d a, congr2 Instr.sloadTrim (fD_R ..) (fA_R ..)⟩
theorem op_sstore (d : Reg) (a : Reg) : opOf (encode (.sstore d a)) = some .sstore := by
  show opOf (fmtR 0x41#7 d a 0#7 0#4) = _; unfold opOf; rw [fOp_R]; show opOf41 _ = _; unfold opOf41; rw [fFn_R]; rfl
theorem Encoding.sstore (d : Reg) (a : Reg) : Encoding.Statement (.sstore d a) :=
  .inr fun _ => ⟨_, op_sstore d a, congr2 Instr.sstore (fD_R ..) (fA_R ..)⟩
theorem op_sstoreSlice (d : Reg) (a : Reg) (b : Reg) : opOf (encode (.sstoreSlice d a b)) = some .sstoreSlice := by
  show opOf (fmtR 0x41#7 d a b 1#4) = _; unfold opOf; rw [fOp_R]; show opOf41 _ = _; unfold opOf41; rw [fFn_R]; rfl
theorem Encoding.sstoreSlice (d : Reg) (a : Reg) (b : Reg) : Encoding.Statement (.sstoreSlice d a b) :=
  .inr fun _ => ⟨_, op_sstoreSlice d a b, congr3 Instr.sstoreSlice (fD_R ..) (fA_R ..) (fB_R ..)⟩
theorem op_sstoreTrim (d : Reg) (a : Reg) : opOf (encode (.sstoreTrim d a)) = some .sstoreTrim := by
  show opOf (fmtR 0x41#7 d a 0#7 2#4) = _; unfold opOf; rw [fOp_R]; show opOf41 _ = _; unfold opOf41; rw [fFn_R]; rfl
theorem Encoding.sstoreTrim (d : Reg) (a : Reg) : Encoding.Statement (.sstoreTrim d a) :=
  .inr fun _ => ⟨_, op_sstoreTrim d a, congr2 Instr.sstoreTrim (fD_R ..) (fA_R ..)⟩
theorem op_sgath (d : Reg) (a : Reg) (b : Reg) (w : BitVec 3) : opOf (encode (.sgath d a b w)) = some .sgath := by
  show opOf (fmtR 0x42#7 d a b (0#1 ++ w)) = _; unfold opOf; rw [fOp_R]; show opOf42 _ = _; unfold opOf42; rw [fFn_R]; revert w; decide
theorem Encoding.sgath (d : Reg) (a : Reg) (b : Reg) (w : BitVec 3) : Encoding.Statement (.sgath d a b w) :=
  .inr fun _ => ⟨_, op_sgath d a b w, congr4 Instr.sgath (fD_R ..) (fA_R ..) (fB_R ..) ((low_R 0 3 (by decide) ..).trans ((cut_lo 0 3 (by decide) (0#1) w).trans (cut_self _)))⟩
theorem op_sgathc (d : Reg) (a : Reg) (b : Reg) (w : BitVec 3) : opOf (encode (.sgathc d a b w)) = some .sgathc := by
  show opOf (fmtR 0x42#7 d a b (1#1 ++ w)) = _; unfold opOf; rw [fOp_R]; show opOf42 _ = _; unfold opOf42; rw [fFn_R]; revert w; decide
theorem Encoding.sgathc (d : Reg) (a : Reg) (b : Reg) (w : BitVec 3) : Encoding.Statement (.sgathc d a b w) :=
  .inr fun _ => ⟨_, op_sgathc d a b w, congr4 Instr.sgathc (fD_R ..) (fA_R ..) (fB_R ..) ((low_R 0 3 (by decide) ..).trans ((cut_lo 0 3 (by decide) (1#1) w).trans (cut_self _)))⟩
theorem op_sscat (d : Reg) (a : Reg) (b : Reg) (w : BitVec 3) : opOf (encode (.sscat d a b w)) = some .sscat := by
  show opOf (fmtR 0x43#7 d a b (0#1 ++ w)) = _; unfold opOf; rw [fOp_R]; show opOf43 _ = _; unfold opOf43; rw [fFn_R]; revert w; decide
theorem Encoding.sscat (d : Reg) (a : Reg) (b : Reg) (w : BitVec 3) : Encoding.Statement (.sscat d a b w) :=
  .inr fun _ => ⟨_, op_sscat d a b w, congr4 Instr.sscat (fD_R ..) (fA_R ..) (fB_R ..) ((low_R 0 3 (by decide) ..).trans ((cut_lo 0 3 (by decide) (0#1) w).trans (cut_self _)))⟩
theorem op_sscatc (d : Reg) (a : Reg) (b : Reg) (w : BitVec 3) : opOf (encode (.sscatc d a b w)) = some .sscatc := by
  show opOf (fmtR 0x43#7 d a b (1#1 ++ w)) = _; unfold opOf; rw [fOp_R]; show opOf43 _ = _; unfold opOf43; rw [fFn_R]; revert w; decide
theorem Encoding.sscatc (d : Reg) (a : Reg) (b : Reg) (w : BitVec 3) : Encoding.Statement (.sscatc d a b w) :=
  .inr fun _ => ⟨_, op_sscatc d a b w, congr4 Instr.sscatc (fD_R ..) (fA_R ..) (fB_R ..) ((low_R 0 3 (by decide) ..).trans ((cut_lo 0 3 (by decide) (1#1) w).trans (cut_self _)))⟩
theorem op_cpy (a : Reg) : opOf (encode (.cpy a)) = some .cpy := by
  show opOf (fmtR 0x44#7 0#7 a 0#7 0#4) = _; unfold opOf; rw [fOp_R]; show opOf44 _ = _; unfold opOf44; rw [fFn_R]; rfl
theorem Encoding.cpy (a : Reg) : Encoding.Statement (.cpy a) :=
  .inr fun _ => ⟨_, op_cpy a, congr1 Instr.cpy (fA_R ..)⟩
theorem op_cpyq (d : Reg) (a : Reg) : opOf (encode (.cpyq d a)) = some .cpyq := by
  show opOf (fmtR 0x44#7 d a 0#7 1#4) = _; unfold opOf; rw [fOp_R]; show opOf44 _ = _; unfold opOf44; rw [fFn_R]; rfl
theorem Encoding.cpyq (d : Reg) (a : Reg) : Encoding.Statement (.cpyq d a) :=
  .inr fun _ => ⟨_, op_cpyq d a, congr2 Instr.cpyq (fD_R ..) (fA_R ..)⟩
theorem op_tidset (d : Reg) (a : Reg) : opOf (encode (.tidset d a)) = some .tidset := by
  show opOf (fmtR 0x45#7 d a 0#7 0#4) = _; unfold opOf; rw [fOp_R]; rfl
theorem Encoding.tidset (d : Reg) (a : Reg) : Encoding.Statement (.tidset d a) :=
  .inr fun _ => ⟨_, op_tidset d a, congr2 Instr.tidset (fD_R ..) (fA_R ..)⟩
theorem op_svmap (d : Reg) (a : Reg) : opOf (encode (.svmap d a)) = some .svmap := by
  show opOf (fmtR 0x46#7 d a 0#7 0#4) = _; unfold opOf; rw [fOp_R]; show opOf46 _ = _; unfold opOf46; rw [fFn_R]; rfl
theorem Encoding.svmap (d : Reg) (a : Reg) : Encoding.Statement (.svmap d a) :=
  .inr fun _ => ⟨_, op_svmap d a, congr2 Instr.svmap (fD_R ..) (fA_R ..)⟩
theorem op_svg1 (d : Reg) (a : Reg) : opOf (encode (.svg1 d a)) = some .svg1 := by
  show opOf (fmtR 0x46#7 d a 0#7 1#4) = _; unfold opOf; rw [fOp_R]; show opOf46 _ = _; unfold opOf46; rw [fFn_R]; rfl
theorem Encoding.svg1 (d : Reg) (a : Reg) : Encoding.Statement (.svg1 d a) :=
  .inr fun _ => ⟨_, op_svg1 d a, congr2 Instr.svg1 (fD_R ..) (fA_R ..)⟩
theorem op_svg2 (d : Reg) (a : Reg) : opOf (encode (.svg2 d a)) = some .svg2 := by
  show opOf (fmtR 0x46#7 d a 0#7 2#4) = _; unfold opOf; rw [fOp_R]; show opOf46 _ = _; unfold opOf46; rw [fFn_R]; rfl
theorem Encoding.svg2 (d : Reg) (a : Reg) : Encoding.Statement (.svg2 d a) :=
  .inr fun _ => ⟨_, op_svg2 d a, congr2 Instr.svg2 (fD_R ..) (fA_R ..)⟩
theorem op_svph (d : Reg) (a : Reg) : opOf (encode (.svph d a)) = some .svph := by
  show opOf (fmtR 0x46#7 d a 0#7 3#4) = _; unfold opOf; rw [fOp_R]; show opOf46 _ = _; unfold opOf46; rw [fFn_R]; rfl
theorem Encoding.svph (d : Reg) (a : Reg) : Encoding.Statement (.svph d a) :=
  .inr fun _ => ⟨_, op_svph d a, congr2 Instr.svph (fD_R ..) (fA_R ..)⟩
theorem op_svswp (d : Reg) (a : Reg) : opOf (encode (.svswp d a)) = some .svswp := by
  show opOf (fmtR 0x46#7 d a 0#7 4#4) = _; unfold opOf; rw [fOp_R]; show opOf46 _ = _; unfold opOf46; rw [fFn_R]; rfl
theorem Encoding.svswp (d : Reg) (a : Reg) : Encoding.Statement (.svswp d a) :=
  .inr fun _ => ⟨_, op_svswp d a, congr2 Instr.svswp (fD_R ..) (fA_R ..)⟩
theorem op_svrun (d : Reg) (a : Reg) : opOf (encode (.svrun d a)) = some .svrun := by
  show opOf (fmtR 0x46#7 d a 0#7 5#4) = _; unfold opOf; rw [fOp_R]; show opOf46 _ = _; unfold opOf46; rw [fFn_R]; rfl
theorem Encoding.svrun (d : Reg) (a : Reg) : Encoding.Statement (.svrun d a) :=
  .inr fun _ => ⟨_, op_svrun d a, congr2 Instr.svrun (fD_R ..) (fA_R ..)⟩
theorem op_svprob (d : Reg) (a : Reg) : opOf (encode (.svprob d a)) = some .svprob := by
  show opOf (fmtR 0x46#7 d a 0#7 6#4) = _; unfold opOf; rw [fOp_R]; show opOf46 _ = _; unfold opOf46; rw [fFn_R]; rfl
theorem Encoding.svprob (d : Reg) (a : Reg) : Encoding.Statement (.svprob d a) :=
  .inr fun _ => ⟨_, op_svprob d a, congr2 Instr.svprob (fD_R ..) (fA_R ..)⟩
theorem op_launch (d : Reg) (a : Reg) (b : Reg) : opOf (encode (.launch d a b)) = some .launch := by
  show opOf (fmtR 0x47#7 d a b 0#4) = _; unfold opOf; rw [fOp_R]; rfl
theorem Encoding.launch (d : Reg) (a : Reg) (b : Reg) : Encoding.Statement (.launch d a b) :=
  .inr fun _ => ⟨_, op_launch d a b, congr3 Instr.launch (fD_R ..) (fA_R ..) (fB_R ..)⟩
theorem op_join (d : Reg) (a : Reg) : opOf (encode (.join d a)) = some .join := by
  show opOf (fmtR 0x48#7 d a 0#7 0#4) = _; unfold opOf; rw [fOp_R]; show opOf48 _ = _; unfold opOf48; rw [fFn_R]; rfl
theorem Encoding.join (d : Reg) (a : Reg) : Encoding.Statement (.join d a) :=
  .inr fun _ => ⟨_, op_join d a, congr2 Instr.join (fD_R ..) (fA_R ..)⟩
theorem op_leave (d : Reg) (a : Reg) : opOf (encode (.leave d a)) = some .leave := by
  show opOf (fmtR 0x48#7 d a 0#7 1#4) = _; unfold opOf; rw [fOp_R]; show opOf48 _ = _; unfold opOf48; rw [fFn_R]; rfl
theorem Encoding.leave (d : Reg) (a : Reg) : Encoding.Statement (.leave d a) :=
  .inr fun _ => ⟨_, op_leave d a, congr2 Instr.leave (fD_R ..) (fA_R ..)⟩
theorem op_gname (d : Reg) (a : Reg) : opOf (encode (.gname d a)) = some .gname := by
  show opOf (fmtR 0x48#7 d a 0#7 2#4) = _; unfold opOf; rw [fOp_R]; show opOf48 _ = _; unfold opOf48; rw [fFn_R]; rfl
theorem Encoding.gname (d : Reg) (a : Reg) : Encoding.Statement (.gname d a) :=
  .inr fun _ => ⟨_, op_gname d a, congr2 Instr.gname (fD_R ..) (fA_R ..)⟩
theorem op_gdrop (d : Reg) (a : Reg) : opOf (encode (.gdrop d a)) = some .gdrop := by
  show opOf (fmtR 0x48#7 d a 0#7 3#4) = _; unfold opOf; rw [fOp_R]; show opOf48 _ = _; unfold opOf48; rw [fFn_R]; rfl
theorem Encoding.gdrop (d : Reg) (a : Reg) : Encoding.Statement (.gdrop d a) :=
  .inr fun _ => ⟨_, op_gdrop d a, congr2 Instr.gdrop (fD_R ..) (fA_R ..)⟩
theorem op_ginfo (d : Reg) (a : Reg) : opOf (encode (.ginfo d a)) = some .ginfo := by
  show opOf (fmtR 0x48#7 d a 0#7 4#4) = _; unfold opOf; rw [fOp_R]; show opOf48 _ = _; unfold opOf48; rw [fFn_R]; rfl
theorem Encoding.ginfo (d : Reg) (a : Reg) : Encoding.Statement (.ginfo d a) :=
  .inr fun _ => ⟨_, op_ginfo d a, congr2 Instr.ginfo (fD_R ..) (fA_R ..)⟩
theorem op_gmove (d : Reg) (a : Reg) (b : Reg) : opOf (encode (.gmove d a b)) = some .gmove := by
  show opOf (fmtR 0x48#7 d a b 5#4) = _; unfold opOf; rw [fOp_R]; show opOf48 _ = _; unfold opOf48; rw [fFn_R]; rfl
theorem Encoding.gmove (d : Reg) (a : Reg) (b : Reg) : Encoding.Statement (.gmove d a b) :=
  .inr fun _ => ⟨_, op_gmove d a b, congr3 Instr.gmove (fD_R ..) (fA_R ..) (fB_R ..)⟩
theorem op_vadd (d : Reg) (a : Reg) (b : Reg) (m : BitVec 1) : opOf (encode (.vadd d a b m)) = some .vadd := by
  show opOf (fmtR 0x50#7 d a b (m ++ 0#3)) = _; unfold opOf; rw [fOp_R]; show opOf50 _ = _; unfold opOf50; rw [fFn_R]; revert m; decide
theorem Encoding.vadd (d : Reg) (a : Reg) (b : Reg) (m : BitVec 1) : Encoding.Statement (.vadd d a b m) :=
  .inr fun _ => ⟨_, op_vadd d a b m, congr4 Instr.vadd (fD_R ..) (fA_R ..) (fB_R ..) ((low_R 3 1 (by decide) ..).trans ((cut_hi 0 1 (m) 0#3).trans (cut_self _)))⟩
theorem op_vsub (d : Reg) (a : Reg) (b : Reg) (m : BitVec 1) : opOf (encode (.vsub d a b m)) = some .vsub := by
  show opOf (fmtR 0x50#7 d a b (m ++ 1#3)) = _; unfold opOf; rw [fOp_R]; show opOf50 _ = _; unfold opOf50; rw [fFn_R]; revert m; decide
theorem Encoding.vsub (d : Reg) (a : Reg) (b : Reg) (m : BitVec 1) : Encoding.Statement (.vsub d a b m) :=
  .inr fun _ => ⟨_, op_vsub d a b m, congr4 Instr.vsub (fD_R ..) (fA_R ..) (fB_R ..) ((low_R 3 1 (by decide) ..).trans ((cut_hi 0 1 (m) 1#3).trans (cut_self _)))⟩
theorem op_vmul (d : Reg) (a : Reg) (b : Reg) (m : BitVec 1) : opOf (encode (.vmul d a b m)) = some .vmul := by
  show opOf (fmtR 0x50#7 d a b (m ++ 2#3)) = _; unfold opOf; rw [fOp_R]; show opOf50 _ = _; unfold opOf50; rw [fFn_R]; revert m; decide
theorem Encoding.vmul (d : Reg) (a : Reg) (b : Reg) (m : BitVec 1) : Encoding.Statement (.vmul d a b m) :=
  .inr fun _ => ⟨_, op_vmul d a b m, congr4 Instr.vmul (fD_R ..) (fA_R ..) (fB_R ..) ((low_R 3 1 (by decide) ..).trans ((cut_hi 0 1 (m) 2#3).trans (cut_self _)))⟩
theorem op_vmulh (d : Reg) (a : Reg) (b : Reg) (m : BitVec 1) : opOf (encode (.vmulh d a b m)) = some .vmulh := by
  show opOf (fmtR 0x50#7 d a b (m ++ 3#3)) = _; unfold opOf; rw [fOp_R]; show opOf50 _ = _; unfold opOf50; rw [fFn_R]; revert m; decide
theorem Encoding.vmulh (d : Reg) (a : Reg) (b : Reg) (m : BitVec 1) : Encoding.Statement (.vmulh d a b m) :=
  .inr fun _ => ⟨_, op_vmulh d a b m, congr4 Instr.vmulh (fD_R ..) (fA_R ..) (fB_R ..) ((low_R 3 1 (by decide) ..).trans ((cut_hi 0 1 (m) 3#3).trans (cut_self _)))⟩
theorem op_vmin (d : Reg) (a : Reg) (b : Reg) (m : BitVec 1) : opOf (encode (.vmin d a b m)) = some .vmin := by
  show opOf (fmtR 0x50#7 d a b (m ++ 4#3)) = _; unfold opOf; rw [fOp_R]; show opOf50 _ = _; unfold opOf50; rw [fFn_R]; revert m; decide
theorem Encoding.vmin (d : Reg) (a : Reg) (b : Reg) (m : BitVec 1) : Encoding.Statement (.vmin d a b m) :=
  .inr fun _ => ⟨_, op_vmin d a b m, congr4 Instr.vmin (fD_R ..) (fA_R ..) (fB_R ..) ((low_R 3 1 (by decide) ..).trans ((cut_hi 0 1 (m) 4#3).trans (cut_self _)))⟩
theorem op_vmax (d : Reg) (a : Reg) (b : Reg) (m : BitVec 1) : opOf (encode (.vmax d a b m)) = some .vmax := by
  show opOf (fmtR 0x50#7 d a b (m ++ 5#3)) = _; unfold opOf; rw [fOp_R]; show opOf50 _ = _; unfold opOf50; rw [fFn_R]; revert m; decide
theorem Encoding.vmax (d : Reg) (a : Reg) (b : Reg) (m : BitVec 1) : Encoding.Statement (.vmax d a b m) :=
  .inr fun _ => ⟨_, op_vmax d a b m, congr4 Instr.vmax (fD_R ..) (fA_R ..) (fB_R ..) ((low_R 3 1 (by decide) ..).trans ((cut_hi 0 1 (m) 5#3).trans (cut_self _)))⟩
theorem op_vadds (d : Reg) (a : Reg) (b : Reg) (m : BitVec 1) : opOf (encode (.vadds d a b m)) = some .vadds := by
  show opOf (fmtR 0x50#7 d a b (m ++ 6#3)) = _; unfold opOf; rw [fOp_R]; show opOf50 _ = _; unfold opOf50; rw [fFn_R]; revert m; decide
theorem Encoding.vadds (d : Reg) (a : Reg) (b : Reg) (m : BitVec 1) : Encoding.Statement (.vadds d a b m) :=
  .inr fun _ => ⟨_, op_vadds d a b m, congr4 Instr.vadds (fD_R ..) (fA_R ..) (fB_R ..) ((low_R 3 1 (by decide) ..).trans ((cut_hi 0 1 (m) 6#3).trans (cut_self _)))⟩
theorem op_vsubs (d : Reg) (a : Reg) (b : Reg) (m : BitVec 1) : opOf (encode (.vsubs d a b m)) = some .vsubs := by
  show opOf (fmtR 0x50#7 d a b (m ++ 7#3)) = _; unfold opOf; rw [fOp_R]; show opOf50 _ = _; unfold opOf50; rw [fFn_R]; revert m; decide
theorem Encoding.vsubs (d : Reg) (a : Reg) (b : Reg) (m : BitVec 1) : Encoding.Statement (.vsubs d a b m) :=
  .inr fun _ => ⟨_, op_vsubs d a b m, congr4 Instr.vsubs (fD_R ..) (fA_R ..) (fB_R ..) ((low_R 3 1 (by decide) ..).trans ((cut_hi 0 1 (m) 7#3).trans (cut_self _)))⟩
theorem op_vand (d : Reg) (a : Reg) (b : Reg) (m : BitVec 1) : opOf (encode (.vand d a b m)) = some .vand := by
  show opOf (fmtR 0x51#7 d a b (m ++ 0#3)) = _; unfold opOf; rw [fOp_R]; show opOf51 _ = _; unfold opOf51; rw [fFn_R]; revert m; decide
theorem Encoding.vand (d : Reg) (a : Reg) (b : Reg) (m : BitVec 1) : Encoding.Statement (.vand d a b m) :=
  .inr fun _ => ⟨_, op_vand d a b m, congr4 Instr.vand (fD_R ..) (fA_R ..) (fB_R ..) ((low_R 3 1 (by decide) ..).trans ((cut_hi 0 1 (m) 0#3).trans (cut_self _)))⟩
theorem op_vor (d : Reg) (a : Reg) (b : Reg) (m : BitVec 1) : opOf (encode (.vor d a b m)) = some .vor := by
  show opOf (fmtR 0x51#7 d a b (m ++ 1#3)) = _; unfold opOf; rw [fOp_R]; show opOf51 _ = _; unfold opOf51; rw [fFn_R]; revert m; decide
theorem Encoding.vor (d : Reg) (a : Reg) (b : Reg) (m : BitVec 1) : Encoding.Statement (.vor d a b m) :=
  .inr fun _ => ⟨_, op_vor d a b m, congr4 Instr.vor (fD_R ..) (fA_R ..) (fB_R ..) ((low_R 3 1 (by decide) ..).trans ((cut_hi 0 1 (m) 1#3).trans (cut_self _)))⟩
theorem op_vxor (d : Reg) (a : Reg) (b : Reg) (m : BitVec 1) : opOf (encode (.vxor d a b m)) = some .vxor := by
  show opOf (fmtR 0x51#7 d a b (m ++ 2#3)) = _; unfold opOf; rw [fOp_R]; show opOf51 _ = _; unfold opOf51; rw [fFn_R]; revert m; decide
theorem Encoding.vxor (d : Reg) (a : Reg) (b : Reg) (m : BitVec 1) : Encoding.Statement (.vxor d a b m) :=
  .inr fun _ => ⟨_, op_vxor d a b m, congr4 Instr.vxor (fD_R ..) (fA_R ..) (fB_R ..) ((low_R 3 1 (by decide) ..).trans ((cut_hi 0 1 (m) 2#3).trans (cut_self _)))⟩
theorem op_vshl (d : Reg) (a : Reg) (b : Reg) (m : BitVec 1) : opOf (encode (.vshl d a b m)) = some .vshl := by
  show opOf (fmtR 0x51#7 d a b (m ++ 3#3)) = _; unfold opOf; rw [fOp_R]; show opOf51 _ = _; unfold opOf51; rw [fFn_R]; revert m; decide
theorem Encoding.vshl (d : Reg) (a : Reg) (b : Reg) (m : BitVec 1) : Encoding.Statement (.vshl d a b m) :=
  .inr fun _ => ⟨_, op_vshl d a b m, congr4 Instr.vshl (fD_R ..) (fA_R ..) (fB_R ..) ((low_R 3 1 (by decide) ..).trans ((cut_hi 0 1 (m) 3#3).trans (cut_self _)))⟩
theorem op_vshr (d : Reg) (a : Reg) (b : Reg) (m : BitVec 1) : opOf (encode (.vshr d a b m)) = some .vshr := by
  show opOf (fmtR 0x51#7 d a b (m ++ 4#3)) = _; unfold opOf; rw [fOp_R]; show opOf51 _ = _; unfold opOf51; rw [fFn_R]; revert m; decide
theorem Encoding.vshr (d : Reg) (a : Reg) (b : Reg) (m : BitVec 1) : Encoding.Statement (.vshr d a b m) :=
  .inr fun _ => ⟨_, op_vshr d a b m, congr4 Instr.vshr (fD_R ..) (fA_R ..) (fB_R ..) ((low_R 3 1 (by decide) ..).trans ((cut_hi 0 1 (m) 4#3).trans (cut_self _)))⟩
theorem op_vsra (d : Reg) (a : Reg) (b : Reg) (m : BitVec 1) : opOf (encode (.vsra d a b m)) = some .vsra := by
  show opOf (fmtR 0x51#7 d a b (m ++ 5#3)) = _; unfold opOf; rw [fOp_R]; show opOf51 _ = _; unfold opOf51; rw [fFn_R]; revert m; decide
theorem Encoding.vsra (d : Reg) (a : Reg) (b : Reg) (m : BitVec 1) : Encoding.Statement (.vsra d a b m) :=
  .inr fun _ => ⟨_, op_vsra d a b m, congr4 Instr.vsra (fD_R ..) (fA_R ..) (fB_R ..) ((low_R 3 1 (by decide) ..).trans ((cut_hi 0 1 (m) 5#3).trans (cut_self _)))⟩
theorem op_vandn (d : Reg) (a : Reg) (b : Reg) (m : BitVec 1) : opOf (encode (.vandn d a b m)) = some .vandn := by
  show opOf (fmtR 0x51#7 d a b (m ++ 6#3)) = _; unfold opOf; rw [fOp_R]; show opOf51 _ = _; unfold opOf51; rw [fFn_R]; revert m; decide
theorem Encoding.vandn (d : Reg) (a : Reg) (b : Reg) (m : BitVec 1) : Encoding.Statement (.vandn d a b m) :=
  .inr fun _ => ⟨_, op_vandn d a b m, congr4 Instr.vandn (fD_R ..) (fA_R ..) (fB_R ..) ((low_R 3 1 (by decide) ..).trans ((cut_hi 0 1 (m) 6#3).trans (cut_self _)))⟩
theorem op_vfadd (d : Reg) (a : Reg) (b : Reg) (m : BitVec 1) : opOf (encode (.vfadd d a b m)) = some .vfadd := by
  show opOf (fmtR 0x52#7 d a b (m ++ 0#3)) = _; unfold opOf; rw [fOp_R]; show opOf52 _ = _; unfold opOf52; rw [fFn_R]; revert m; decide
theorem Encoding.vfadd (d : Reg) (a : Reg) (b : Reg) (m : BitVec 1) : Encoding.Statement (.vfadd d a b m) :=
  .inr fun _ => ⟨_, op_vfadd d a b m, congr4 Instr.vfadd (fD_R ..) (fA_R ..) (fB_R ..) ((low_R 3 1 (by decide) ..).trans ((cut_hi 0 1 (m) 0#3).trans (cut_self _)))⟩
theorem op_vfsub (d : Reg) (a : Reg) (b : Reg) (m : BitVec 1) : opOf (encode (.vfsub d a b m)) = some .vfsub := by
  show opOf (fmtR 0x52#7 d a b (m ++ 1#3)) = _; unfold opOf; rw [fOp_R]; show opOf52 _ = _; unfold opOf52; rw [fFn_R]; revert m; decide
theorem Encoding.vfsub (d : Reg) (a : Reg) (b : Reg) (m : BitVec 1) : Encoding.Statement (.vfsub d a b m) :=
  .inr fun _ => ⟨_, op_vfsub d a b m, congr4 Instr.vfsub (fD_R ..) (fA_R ..) (fB_R ..) ((low_R 3 1 (by decide) ..).trans ((cut_hi 0 1 (m) 1#3).trans (cut_self _)))⟩
theorem op_vfmul (d : Reg) (a : Reg) (b : Reg) (m : BitVec 1) : opOf (encode (.vfmul d a b m)) = some .vfmul := by
  show opOf (fmtR 0x52#7 d a b (m ++ 2#3)) = _; unfold opOf; rw [fOp_R]; show opOf52 _ = _; unfold opOf52; rw [fFn_R]; revert m; decide
theorem Encoding.vfmul (d : Reg) (a : Reg) (b : Reg) (m : BitVec 1) : Encoding.Statement (.vfmul d a b m) :=
  .inr fun _ => ⟨_, op_vfmul d a b m, congr4 Instr.vfmul (fD_R ..) (fA_R ..) (fB_R ..) ((low_R 3 1 (by decide) ..).trans ((cut_hi 0 1 (m) 2#3).trans (cut_self _)))⟩
theorem op_vfdiv (d : Reg) (a : Reg) (b : Reg) (m : BitVec 1) : opOf (encode (.vfdiv d a b m)) = some .vfdiv := by
  show opOf (fmtR 0x52#7 d a b (m ++ 3#3)) = _; unfold opOf; rw [fOp_R]; show opOf52 _ = _; unfold opOf52; rw [fFn_R]; revert m; decide
theorem Encoding.vfdiv (d : Reg) (a : Reg) (b : Reg) (m : BitVec 1) : Encoding.Statement (.vfdiv d a b m) :=
  .inr fun _ => ⟨_, op_vfdiv d a b m, congr4 Instr.vfdiv (fD_R ..) (fA_R ..) (fB_R ..) ((low_R 3 1 (by decide) ..).trans ((cut_hi 0 1 (m) 3#3).trans (cut_self _)))⟩
theorem op_vfmin (d : Reg) (a : Reg) (b : Reg) (m : BitVec 1) : opOf (encode (.vfmin d a b m)) = some .vfmin := by
  show opOf (fmtR 0x52#7 d a b (m ++ 4#3)) = _; unfold opOf; rw [fOp_R]; show opOf52 _ = _; unfold opOf52; rw [fFn_R]; revert m; decide
theorem Encoding.vfmin (d : Reg) (a : Reg) (b : Reg) (m : BitVec 1) : Encoding.Statement (.vfmin d a b m) :=
  .inr fun _ => ⟨_, op_vfmin d a b m, congr4 Instr.vfmin (fD_R ..) (fA_R ..) (fB_R ..) ((low_R 3 1 (by decide) ..).trans ((cut_hi 0 1 (m) 4#3).trans (cut_self _)))⟩
theorem op_vfmax (d : Reg) (a : Reg) (b : Reg) (m : BitVec 1) : opOf (encode (.vfmax d a b m)) = some .vfmax := by
  show opOf (fmtR 0x52#7 d a b (m ++ 5#3)) = _; unfold opOf; rw [fOp_R]; show opOf52 _ = _; unfold opOf52; rw [fFn_R]; revert m; decide
theorem Encoding.vfmax (d : Reg) (a : Reg) (b : Reg) (m : BitVec 1) : Encoding.Statement (.vfmax d a b m) :=
  .inr fun _ => ⟨_, op_vfmax d a b m, congr4 Instr.vfmax (fD_R ..) (fA_R ..) (fB_R ..) ((low_R 3 1 (by decide) ..).trans ((cut_hi 0 1 (m) 5#3).trans (cut_self _)))⟩
theorem op_vfma (d : Reg) (a : Reg) (b : Reg) (m : BitVec 1) : opOf (encode (.vfma d a b m)) = some .vfma := by
  show opOf (fmtR 0x52#7 d a b (m ++ 6#3)) = _; unfold opOf; rw [fOp_R]; show opOf52 _ = _; unfold opOf52; rw [fFn_R]; revert m; decide
theorem Encoding.vfma (d : Reg) (a : Reg) (b : Reg) (m : BitVec 1) : Encoding.Statement (.vfma d a b m) :=
  .inr fun _ => ⟨_, op_vfma d a b m, congr4 Instr.vfma (fD_R ..) (fA_R ..) (fB_R ..) ((low_R 3 1 (by decide) ..).trans ((cut_hi 0 1 (m) 6#3).trans (cut_self _)))⟩
theorem op_vfms (d : Reg) (a : Reg) (b : Reg) (m : BitVec 1) : opOf (encode (.vfms d a b m)) = some .vfms := by
  show opOf (fmtR 0x52#7 d a b (m ++ 7#3)) = _; unfold opOf; rw [fOp_R]; show opOf52 _ = _; unfold opOf52; rw [fFn_R]; revert m; decide
theorem Encoding.vfms (d : Reg) (a : Reg) (b : Reg) (m : BitVec 1) : Encoding.Statement (.vfms d a b m) :=
  .inr fun _ => ⟨_, op_vfms d a b m, congr4 Instr.vfms (fD_R ..) (fA_R ..) (fB_R ..) ((low_R 3 1 (by decide) ..).trans ((cut_hi 0 1 (m) 7#3).trans (cut_self _)))⟩
theorem op_vfsqrt (d : Reg) (a : Reg) (m : BitVec 1) : opOf (encode (.vfsqrt d a m)) = some .vfsqrt := by
  show opOf (fmtR 0x53#7 d a 0#7 (m ++ 0#3)) = _; unfold opOf; rw [fOp_R]; show opOf53 _ = _; unfold opOf53; rw [fFn_R]; revert m; decide
theorem Encoding.vfsqrt (d : Reg) (a : Reg) (m : BitVec 1) : Encoding.Statement (.vfsqrt d a m) :=
  .inr fun _ => ⟨_, op_vfsqrt d a m, congr3 Instr.vfsqrt (fD_R ..) (fA_R ..) ((low_R 3 1 (by decide) ..).trans ((cut_hi 0 1 (m) 0#3).trans (cut_self _)))⟩
theorem op_vfrsq (d : Reg) (a : Reg) (m : BitVec 1) : opOf (encode (.vfrsq d a m)) = some .vfrsq := by
  show opOf (fmtR 0x53#7 d a 0#7 (m ++ 1#3)) = _; unfold opOf; rw [fOp_R]; show opOf53 _ = _; unfold opOf53; rw [fFn_R]; revert m; decide
theorem Encoding.vfrsq (d : Reg) (a : Reg) (m : BitVec 1) : Encoding.Statement (.vfrsq d a m) :=
  .inr fun _ => ⟨_, op_vfrsq d a m, congr3 Instr.vfrsq (fD_R ..) (fA_R ..) ((low_R 3 1 (by decide) ..).trans ((cut_hi 0 1 (m) 1#3).trans (cut_self _)))⟩
theorem op_vlog2 (d : Reg) (a : Reg) (m : BitVec 1) : opOf (encode (.vlog2 d a m)) = some .vlog2 := by
  show opOf (fmtR 0x53#7 d a 0#7 (m ++ 2#3)) = _; unfold opOf; rw [fOp_R]; show opOf53 _ = _; unfold opOf53; rw [fFn_R]; revert m; decide
theorem Encoding.vlog2 (d : Reg) (a : Reg) (m : BitVec 1) : Encoding.Statement (.vlog2 d a m) :=
  .inr fun _ => ⟨_, op_vlog2 d a m, congr3 Instr.vlog2 (fD_R ..) (fA_R ..) ((low_R 3 1 (by decide) ..).trans ((cut_hi 0 1 (m) 2#3).trans (cut_self _)))⟩
theorem op_vexp2 (d : Reg) (a : Reg) (m : BitVec 1) : opOf (encode (.vexp2 d a m)) = some .vexp2 := by
  show opOf (fmtR 0x53#7 d a 0#7 (m ++ 3#3)) = _; unfold opOf; rw [fOp_R]; show opOf53 _ = _; unfold opOf53; rw [fFn_R]; revert m; decide
theorem Encoding.vexp2 (d : Reg) (a : Reg) (m : BitVec 1) : Encoding.Statement (.vexp2 d a m) :=
  .inr fun _ => ⟨_, op_vexp2 d a m, congr3 Instr.vexp2 (fD_R ..) (fA_R ..) ((low_R 3 1 (by decide) ..).trans ((cut_hi 0 1 (m) 3#3).trans (cut_self _)))⟩
theorem op_vfabs (d : Reg) (a : Reg) (m : BitVec 1) : opOf (encode (.vfabs d a m)) = some .vfabs := by
  show opOf (fmtR 0x53#7 d a 0#7 (m ++ 4#3)) = _; unfold opOf; rw [fOp_R]; show opOf53 _ = _; unfold opOf53; rw [fFn_R]; revert m; decide
theorem Encoding.vfabs (d : Reg) (a : Reg) (m : BitVec 1) : Encoding.Statement (.vfabs d a m) :=
  .inr fun _ => ⟨_, op_vfabs d a m, congr3 Instr.vfabs (fD_R ..) (fA_R ..) ((low_R 3 1 (by decide) ..).trans ((cut_hi 0 1 (m) 4#3).trans (cut_self _)))⟩
theorem op_vfneg (d : Reg) (a : Reg) (m : BitVec 1) : opOf (encode (.vfneg d a m)) = some .vfneg := by
  show opOf (fmtR 0x53#7 d a 0#7 (m ++ 5#3)) = _; unfold opOf; rw [fOp_R]; show opOf53 _ = _; unfold opOf53; rw [fFn_R]; revert m; decide
theorem Encoding.vfneg (d : Reg) (a : Reg) (m : BitVec 1) : Encoding.Statement (.vfneg d a m) :=
  .inr fun _ => ⟨_, op_vfneg d a m, congr3 Instr.vfneg (fD_R ..) (fA_R ..) ((low_R 3 1 (by decide) ..).trans ((cut_hi 0 1 (m) 5#3).trans (cut_self _)))⟩
theorem op_vfclass (d : Reg) (a : Reg) (m : BitVec 1) : opOf (encode (.vfclass d a m)) = some .vfclass := by
  show opOf (fmtR 0x53#7 d a 0#7 (m ++ 6#3)) = _; unfold opOf; rw [fOp_R]; show opOf53 _ = _; unfold opOf53; rw [fFn_R]; revert m; decide
theorem Encoding.vfclass (d : Reg) (a : Reg) (m : BitVec 1) : Encoding.Statement (.vfclass d a m) :=
  .inr fun _ => ⟨_, op_vfclass d a m, congr3 Instr.vfclass (fD_R ..) (fA_R ..) ((low_R 3 1 (by decide) ..).trans ((cut_hi 0 1 (m) 6#3).trans (cut_self _)))⟩
theorem op_vfrint (d : Reg) (a : Reg) (m : BitVec 1) : opOf (encode (.vfrint d a m)) = some .vfrint := by
  show opOf (fmtR 0x53#7 d a 0#7 (m ++ 7#3)) = _; unfold opOf; rw [fOp_R]; show opOf53 _ = _; unfold opOf53; rw [fFn_R]; revert m; decide
theorem Encoding.vfrint (d : Reg) (a : Reg) (m : BitVec 1) : Encoding.Statement (.vfrint d a m) :=
  .inr fun _ => ⟨_, op_vfrint d a m, congr3 Instr.vfrint (fD_R ..) (fA_R ..) ((low_R 3 1 (by decide) ..).trans ((cut_hi 0 1 (m) 7#3).trans (cut_self _)))⟩
theorem op_vcmp (d : Reg) (a : Reg) (b : Reg) (m : BitVec 1) (c : BitVec 3) : opOf (encode (.vcmp d a b m c)) = some .vcmp := by
  show opOf (fmtR 0x54#7 d a b (m ++ c)) = _; unfold opOf; rw [fOp_R]; rfl
theorem Encoding.vcmp (d : Reg) (a : Reg) (b : Reg) (m : BitVec 1) (c : BitVec 3) : Encoding.Statement (.vcmp d a b m c) :=
  .inr fun _ => ⟨_, op_vcmp d a b m c, congr5 Instr.vcmp (fD_R ..) (fA_R ..) (fB_R ..) ((low_R 3 1 (by decide) ..).trans ((cut_hi 0 1 (m) c).trans (cut_self _))) ((low_R 0 3 (by decide) ..).trans ((cut_lo 0 3 (by decide) (m) c).trans (cut_self _)))⟩
theorem op_vcmpx (d : Reg) (a : Reg) (b : Reg) (m : BitVec 1) (c : BitVec 3) : opOf (encode (.vcmpx d a b m c)) = some .vcmpx := by
  show opOf (fmtR 0x55#7 d a b (m ++ c)) = _; unfold opOf; rw [fOp_R]; rfl
theorem Encoding.vcmpx (d : Reg) (a : Reg) (b : Reg) (m : BitVec 1) (c : BitVec 3) : Encoding.Statement (.vcmpx d a b m c) :=
  .inr fun _ => ⟨_, op_vcmpx d a b m c, congr5 Instr.vcmpx (fD_R ..) (fA_R ..) (fB_R ..) ((low_R 3 1 (by decide) ..).trans ((cut_hi 0 1 (m) c).trans (cut_self _))) ((low_R 0 3 (by decide) ..).trans ((cut_lo 0 3 (by decide) (m) c).trans (cut_self _)))⟩
theorem op_pand (d : Reg) (a : Reg) (b : Reg) : opOf (encode (.pand d a b)) = some .pand := by
  show opOf (fmtR 0x56#7 d a b 0#4) = _; unfold opOf; rw [fOp_R]; show opOf56 _ = _; unfold opOf56; rw [fFn_R]; rfl
theorem Encoding.pand (d : Reg) (a : Reg) (b : Reg) : Encoding.Statement (.pand d a b) :=
  .inr fun _ => ⟨_, op_pand d a b, congr3 Instr.pand (fD_R ..) (fA_R ..) (fB_R ..)⟩
theorem op_por (d : Reg) (a : Reg) (b : Reg) : opOf (encode (.por d a b)) = some .por := by
  show opOf (fmtR 0x56#7 d a b 1#4) = _; unfold opOf; rw [fOp_R]; show opOf56 _ = _; unfold opOf56; rw [fFn_R]; rfl
theorem Encoding.por (d : Reg) (a : Reg) (b : Reg) : Encoding.Statement (.por d a b) :=
  .inr fun _ => ⟨_, op_por d a b, congr3 Instr.por (fD_R ..) (fA_R ..) (fB_R ..)⟩
theorem op_pxor (d : Reg) (a : Reg) (b : Reg) : opOf (encode (.pxor d a b)) = some .pxor := by
  show opOf (fmtR 0x56#7 d a b 2#4) = _; unfold opOf; rw [fOp_R]; show opOf56 _ = _; unfold opOf56; rw [fFn_R]; rfl
theorem Encoding.pxor (d : Reg) (a : Reg) (b : Reg) : Encoding.Statement (.pxor d a b) :=
  .inr fun _ => ⟨_, op_pxor d a b, congr3 Instr.pxor (fD_R ..) (fA_R ..) (fB_R ..)⟩
theorem op_pandn (d : Reg) (a : Reg) (b : Reg) : opOf (encode (.pandn d a b)) = some .pandn := by
  show opOf (fmtR 0x56#7 d a b 3#4) = _; unfold opOf; rw [fOp_R]; show opOf56 _ = _; unfold opOf56; rw [fFn_R]; rfl
theorem Encoding.pandn (d : Reg) (a : Reg) (b : Reg) : Encoding.Statement (.pandn d a b) :=
  .inr fun _ => ⟨_, op_pandn d a b, congr3 Instr.pandn (fD_R ..) (fA_R ..) (fB_R ..)⟩
theorem op_pnot (d : Reg) (a : Reg) : opOf (encode (.pnot d a)) = some .pnot := by
  show opOf (fmtR 0x56#7 d a 0#7 4#4) = _; unfold opOf; rw [fOp_R]; show opOf56 _ = _; unfold opOf56; rw [fFn_R]; rfl
theorem Encoding.pnot (d : Reg) (a : Reg) : Encoding.Statement (.pnot d a) :=
  .inr fun _ => ⟨_, op_pnot d a, congr2 Instr.pnot (fD_R ..) (fA_R ..)⟩
theorem op_pmov (d : Reg) (a : Reg) : opOf (encode (.pmov d a)) = some .pmov := by
  show opOf (fmtR 0x56#7 d a 0#7 5#4) = _; unfold opOf; rw [fOp_R]; show opOf56 _ = _; unfold opOf56; rw [fFn_R]; rfl
theorem Encoding.pmov (d : Reg) (a : Reg) : Encoding.Statement (.pmov d a) :=
  .inr fun _ => ⟨_, op_pmov d a, congr2 Instr.pmov (fD_R ..) (fA_R ..)⟩
theorem op_pset (d : Reg) : opOf (encode (.pset d)) = some .pset := by
  show opOf (fmtR 0x56#7 d 0#7 0#7 6#4) = _; unfold opOf; rw [fOp_R]; show opOf56 _ = _; unfold opOf56; rw [fFn_R]; rfl
theorem Encoding.pset (d : Reg) : Encoding.Statement (.pset d) :=
  .inr fun _ => ⟨_, op_pset d, congr1 Instr.pset (fD_R ..)⟩
theorem op_pclr (d : Reg) : opOf (encode (.pclr d)) = some .pclr := by
  show opOf (fmtR 0x56#7 d 0#7 0#7 7#4) = _; unfold opOf; rw [fOp_R]; show opOf56 _ = _; unfold opOf56; rw [fFn_R]; rfl
theorem Encoding.pclr (d : Reg) : Encoding.Statement (.pclr d) :=
  .inr fun _ => ⟨_, op_pclr d, congr1 Instr.pclr (fD_R ..)⟩
theorem op_pcnt (d : Reg) (a : Reg) : opOf (encode (.pcnt d a)) = some .pcnt := by
  show opOf (fmtR 0x57#7 d a 0#7 0#4) = _; unfold opOf; rw [fOp_R]; show opOf57 _ = _; unfold opOf57; rw [fFn_R]; rfl
theorem Encoding.pcnt (d : Reg) (a : Reg) : Encoding.Statement (.pcnt d a) :=
  .inr fun _ => ⟨_, op_pcnt d a, congr2 Instr.pcnt (fD_R ..) (fA_R ..)⟩
theorem op_pcntt (d : Reg) (a : Reg) : opOf (encode (.pcntt d a)) = some .pcntt := by
  show opOf (fmtR 0x57#7 d a 0#7 1#4) = _; unfold opOf; rw [fOp_R]; show opOf57 _ = _; unfold opOf57; rw [fFn_R]; rfl
theorem Encoding.pcntt (d : Reg) (a : Reg) : Encoding.Statement (.pcntt d a) :=
  .inr fun _ => ⟨_, op_pcntt d a, congr2 Instr.pcntt (fD_R ..) (fA_R ..)⟩
theorem op_ppop (d : Reg) (a : Reg) : opOf (encode (.ppop d a)) = some .ppop := by
  show opOf (fmtR 0x58#7 d a 0#7 0#4) = _; unfold opOf; rw [fOp_R]; show opOf58 _ = _; unfold opOf58; rw [fFn_R]; rfl
theorem Encoding.ppop (d : Reg) (a : Reg) : Encoding.Statement (.ppop d a) :=
  .inr fun _ => ⟨_, op_ppop d a, congr2 Instr.ppop (fD_R ..) (fA_R ..)⟩
theorem op_pfirst (d : Reg) (a : Reg) : opOf (encode (.pfirst d a)) = some .pfirst := by
  show opOf (fmtR 0x58#7 d a 0#7 1#4) = _; unfold opOf; rw [fOp_R]; show opOf58 _ = _; unfold opOf58; rw [fFn_R]; rfl
theorem Encoding.pfirst (d : Reg) (a : Reg) : Encoding.Statement (.pfirst d a) :=
  .inr fun _ => ⟨_, op_pfirst d a, congr2 Instr.pfirst (fD_R ..) (fA_R ..)⟩
theorem op_plast (d : Reg) (a : Reg) : opOf (encode (.plast d a)) = some .plast := by
  show opOf (fmtR 0x58#7 d a 0#7 2#4) = _; unfold opOf; rw [fOp_R]; show opOf58 _ = _; unfold opOf58; rw [fFn_R]; rfl
theorem Encoding.plast (d : Reg) (a : Reg) : Encoding.Statement (.plast d a) :=
  .inr fun _ => ⟨_, op_plast d a, congr2 Instr.plast (fD_R ..) (fA_R ..)⟩
theorem op_vcvfh (d : Reg) (a : Reg) : opOf (encode (.vcvfh d a)) = some .vcvfh := by
  show opOf (fmtR 0x59#7 d a 0#7 0#4) = _; unfold opOf; rw [fOp_R]; show opOf59 _ = _; unfold opOf59; rw [fFn_R]; rfl
theorem Encoding.vcvfh (d : Reg) (a : Reg) : Encoding.Statement (.vcvfh d a) :=
  .inr fun _ => ⟨_, op_vcvfh d a, congr2 Instr.vcvfh (fD_R ..) (fA_R ..)⟩
theorem op_vcvfb (d : Reg) (a : Reg) : opOf (encode (.vcvfb d a)) = some .vcvfb := by
  show opOf (fmtR 0x59#7 d a 0#7 1#4) = _; unfold opOf; rw [fOp_R]; show opOf59 _ = _; unfold opOf59; rw [fFn_R]; rfl
theorem Encoding.vcvfb (d : Reg) (a : Reg) : Encoding.Statement (.vcvfb d a) :=
  .inr fun _ => ⟨_, op_vcvfb d a, congr2 Instr.vcvfb (fD_R ..) (fA_R ..)⟩
theorem op_vcvfe4 (d : Reg) (a : Reg) : opOf (encode (.vcvfe4 d a)) = some .vcvfe4 := by
  show opOf (fmtR 0x59#7 d a 0#7 2#4) = _; unfold opOf; rw [fOp_R]; show opOf59 _ = _; unfold opOf59; rw [fFn_R]; rfl
theorem Encoding.vcvfe4 (d : Reg) (a : Reg) : Encoding.Statement (.vcvfe4 d a) :=
  .inr fun _ => ⟨_, op_vcvfe4 d a, congr2 Instr.vcvfe4 (fD_R ..) (fA_R ..)⟩
theorem op_vcvfe5 (d : Reg) (a : Reg) : opOf (encode (.vcvfe5 d a)) = some .vcvfe5 := by
  show opOf (fmtR 0x59#7 d a 0#7 3#4) = _; unfold opOf; rw [fOp_R]; show opOf59 _ = _; unfold opOf59; rw [fFn_R]; rfl
theorem Encoding.vcvfe5 (d : Reg) (a : Reg) : Encoding.Statement (.vcvfe5 d a) :=
  .inr fun _ => ⟨_, op_vcvfe5 d a, congr2 Instr.vcvfe5 (fD_R ..) (fA_R ..)⟩
theorem op_vcvhf (d : Reg) (a : Reg) : opOf (encode (.vcvhf d a)) = some .vcvhf := by
  show opOf (fmtR 0x59#7 d a 0#7 4#4) = _; unfold opOf; rw [fOp_R]; show opOf59 _ = _; unfold opOf59; rw [fFn_R]; rfl
theorem Encoding.vcvhf (d : Reg) (a : Reg) : Encoding.Statement (.vcvhf d a) :=
  .inr fun _ => ⟨_, op_vcvhf d a, congr2 Instr.vcvhf (fD_R ..) (fA_R ..)⟩
theorem op_vcvbf (d : Reg) (a : Reg) : opOf (encode (.vcvbf d a)) = some .vcvbf := by
  show opOf (fmtR 0x59#7 d a 0#7 5#4) = _; unfold opOf; rw [fOp_R]; show opOf59 _ = _; unfold opOf59; rw [fFn_R]; rfl
theorem Encoding.vcvbf (d : Reg) (a : Reg) : Encoding.Statement (.vcvbf d a) :=
  .inr fun _ => ⟨_, op_vcvbf d a, congr2 Instr.vcvbf (fD_R ..) (fA_R ..)⟩
theorem op_vcve4f (d : Reg) (a : Reg) : opOf (encode (.vcve4f d a)) = some .vcve4f := by
  show opOf (fmtR 0x59#7 d a 0#7 6#4) = _; unfold opOf; rw [fOp_R]; show opOf59 _ = _; unfold opOf59; rw [fFn_R]; rfl
theorem Encoding.vcve4f (d : Reg) (a : Reg) : Encoding.Statement (.vcve4f d a) :=
  .inr fun _ => ⟨_, op_vcve4f d a, congr2 Instr.vcve4f (fD_R ..) (fA_R ..)⟩
theorem op_vcve5f (d : Reg) (a : Reg) : opOf (encode (.vcve5f d a)) = some .vcve5f := by
  show opOf (fmtR 0x59#7 d a 0#7 7#4) = _; unfold opOf; rw [fOp_R]; show opOf59 _ = _; unfold opOf59; rw [fFn_R]; rfl
theorem Encoding.vcve5f (d : Reg) (a : Reg) : Encoding.Statement (.vcve5f d a) :=
  .inr fun _ => ⟨_, op_vcve5f d a, congr2 Instr.vcve5f (fD_R ..) (fA_R ..)⟩
theorem op_vcvfi (d : Reg) (a : Reg) : opOf (encode (.vcvfi d a)) = some .vcvfi := by
  show opOf (fmtR 0x59#7 d a 0#7 8#4) = _; unfold opOf; rw [fOp_R]; show opOf59 _ = _; unfold opOf59; rw [fFn_R]; rfl
theorem Encoding.vcvfi (d : Reg) (a : Reg) : Encoding.Statement (.vcvfi d a) :=
  .inr fun _ => ⟨_, op_vcvfi d a, congr2 Instr.vcvfi (fD_R ..) (fA_R ..)⟩
theorem op_vcvif (d : Reg) (a : Reg) : opOf (encode (.vcvif d a)) = some .vcvif := by
  show opOf (fmtR 0x59#7 d a 0#7 9#4) = _; unfold opOf; rw [fOp_R]; show opOf59 _ = _; unfold opOf59; rw [fFn_R]; rfl
theorem Encoding.vcvif (d : Reg) (a : Reg) : Encoding.Statement (.vcvif d a) :=
  .inr fun _ => ⟨_, op_vcvif d a, congr2 Instr.vcvif (fD_R ..) (fA_R ..)⟩
theorem op_vcvdf (d : Reg) (a : Reg) : opOf (encode (.vcvdf d a)) = some .vcvdf := by
  show opOf (fmtR 0x59#7 d a 0#7 0xa#4) = _; unfold opOf; rw [fOp_R]; show opOf59 _ = _; unfold opOf59; rw [fFn_R]; rfl
theorem Encoding.vcvdf (d : Reg) (a : Reg) : Encoding.Statement (.vcvdf d a) :=
  .inr fun _ => ⟨_, op_vcvdf d a, congr2 Instr.vcvdf (fD_R ..) (fA_R ..)⟩
theorem op_vcvfd (d : Reg) (a : Reg) : opOf (encode (.vcvfd d a)) = some .vcvfd := by
  show opOf (fmtR 0x59#7 d a 0#7 0xb#4) = _; unfold opOf; rw [fOp_R]; show opOf59 _ = _; unfold opOf59; rw [fFn_R]; rfl
theorem Encoding.vcvfd (d : Reg) (a : Reg) : Encoding.Statement (.vcvfd d a) :=
  .inr fun _ => ⟨_, op_vcvfd d a, congr2 Instr.vcvfd (fD_R ..) (fA_R ..)⟩
theorem op_vcvin (d : Reg) (a : Reg) : opOf (encode (.vcvin d a)) = some .vcvin := by
  show opOf (fmtR 0x59#7 d a 0#7 0xc#4) = _; unfold opOf; rw [fOp_R]; show opOf59 _ = _; unfold opOf59; rw [fFn_R]; rfl
theorem Encoding.vcvin (d : Reg) (a : Reg) : Encoding.Statement (.vcvin d a) :=
  .inr fun _ => ⟨_, op_vcvin d a, congr2 Instr.vcvin (fD_R ..) (fA_R ..)⟩
theorem op_vcvci (d : Reg) (a : Reg) : opOf (encode (.vcvci d a)) = some .vcvci := by
  show opOf (fmtR 0x59#7 d a 0#7 0xd#4) = _; unfold opOf; rw [fOp_R]; show opOf59 _ = _; unfold opOf59; rw [fFn_R]; rfl
theorem Encoding.vcvci (d : Reg) (a : Reg) : Encoding.Statement (.vcvci d a) :=
  .inr fun _ => ⟨_, op_vcvci d a, congr2 Instr.vcvci (fD_R ..) (fA_R ..)⟩
theorem op_vcvic (d : Reg) (a : Reg) : opOf (encode (.vcvic d a)) = some .vcvic := by
  show opOf (fmtR 0x59#7 d a 0#7 0xe#4) = _; unfold opOf; rw [fOp_R]; show opOf59 _ = _; unfold opOf59; rw [fFn_R]; rfl
theorem Encoding.vcvic (d : Reg) (a : Reg) : Encoding.Statement (.vcvic d a) :=
  .inr fun _ => ⟨_, op_vcvic d a, congr2 Instr.vcvic (fD_R ..) (fA_R ..)⟩
theorem op_vcvfc (d : Reg) (a : Reg) : opOf (encode (.vcvfc d a)) = some .vcvfc := by
  show opOf (fmtR 0x59#7 d a 0#7 0xf#4) = _; unfold opOf; rw [fOp_R]; show opOf59 _ = _; unfold opOf59; rw [fFn_R]; rfl
theorem Encoding.vcvfc (d : Reg) (a : Reg) : Encoding.Statement (.vcvfc d a) :=
  .inr fun _ => ⟨_, op_vcvfc d a, congr2 Instr.vcvfc (fD_R ..) (fA_R ..)⟩
theorem op_vdeq (d : Reg) (a : Reg) (b : Reg) (m : BitVec 1) : opOf (encode (.vdeq d a b m)) = some .vdeq := by
  show opOf (fmtR 0x5a#7 d a b (m ++ 0#3)) = _; unfold opOf; rw [fOp_R]; show opOf5A _ = _; unfold opOf5A; rw [fFn_R]; revert m; decide
theorem Encoding.vdeq (d : Reg) (a : Reg) (b : Reg) (m : BitVec 1) : Encoding.Statement (.vdeq d a b m) :=
  .inr fun _ => ⟨_, op_vdeq d a b m, congr4 Instr.vdeq (fD_R ..) (fA_R ..) (fB_R ..) ((low_R 3 1 (by decide) ..).trans ((cut_hi 0 1 (m) 0#3).trans (cut_self _)))⟩
theorem op_vqnt (d : Reg) (a : Reg) (b : Reg) (m : BitVec 1) : opOf (encode (.vqnt d a b m)) = some .vqnt := by
  show opOf (fmtR 0x5a#7 d a b (m ++ 1#3)) = _; unfold opOf; rw [fOp_R]; show opOf5A _ = _; unfold opOf5A; rw [fFn_R]; revert m; decide
theorem Encoding.vqnt (d : Reg) (a : Reg) (b : Reg) (m : BitVec 1) : Encoding.Statement (.vqnt d a b m) :=
  .inr fun _ => ⟨_, op_vqnt d a b m, congr4 Instr.vqnt (fD_R ..) (fA_R ..) (fB_R ..) ((low_R 3 1 (by decide) ..).trans ((cut_hi 0 1 (m) 1#3).trans (cut_self _)))⟩
theorem op_vperm (d : Reg) (a : Reg) (b : Reg) (m : BitVec 1) : opOf (encode (.vperm d a b m)) = some .vperm := by
  show opOf (fmtR 0x5b#7 d a b (m ++ 0#3)) = _; unfold opOf; rw [fOp_R]; show opOf5B _ = _; unfold opOf5B; rw [fFn_R]; revert m; decide
theorem Encoding.vperm (d : Reg) (a : Reg) (b : Reg) (m : BitVec 1) : Encoding.Statement (.vperm d a b m) :=
  .inr fun _ => ⟨_, op_vperm d a b m, congr4 Instr.vperm (fD_R ..) (fA_R ..) (fB_R ..) ((low_R 3 1 (by decide) ..).trans ((cut_hi 0 1 (m) 0#3).trans (cut_self _)))⟩
theorem op_vslup (d : Reg) (a : Reg) (b : Reg) (m : BitVec 1) : opOf (encode (.vslup d a b m)) = some .vslup := by
  show opOf (fmtR 0x5b#7 d a b (m ++ 1#3)) = _; unfold opOf; rw [fOp_R]; show opOf5B _ = _; unfold opOf5B; rw [fFn_R]; revert m; decide
theorem Encoding.vslup (d : Reg) (a : Reg) (b : Reg) (m : BitVec 1) : Encoding.Statement (.vslup d a b m) :=
  .inr fun _ => ⟨_, op_vslup d a b m, congr4 Instr.vslup (fD_R ..) (fA_R ..) (fB_R ..) ((low_R 3 1 (by decide) ..).trans ((cut_hi 0 1 (m) 1#3).trans (cut_self _)))⟩
theorem op_vsldn (d : Reg) (a : Reg) (b : Reg) (m : BitVec 1) : opOf (encode (.vsldn d a b m)) = some .vsldn := by
  show opOf (fmtR 0x5b#7 d a b (m ++ 2#3)) = _; unfold opOf; rw [fOp_R]; show opOf5B _ = _; unfold opOf5B; rw [fFn_R]; revert m; decide
theorem Encoding.vsldn (d : Reg) (a : Reg) (b : Reg) (m : BitVec 1) : Encoding.Statement (.vsldn d a b m) :=
  .inr fun _ => ⟨_, op_vsldn d a b m, congr4 Instr.vsldn (fD_R ..) (fA_R ..) (fB_R ..) ((low_R 3 1 (by decide) ..).trans ((cut_hi 0 1 (m) 2#3).trans (cut_self _)))⟩
theorem op_vcomp (d : Reg) (a : Reg) (m : BitVec 1) : opOf (encode (.vcomp d a m)) = some .vcomp := by
  show opOf (fmtR 0x5b#7 d a 0#7 (m ++ 3#3)) = _; unfold opOf; rw [fOp_R]; show opOf5B _ = _; unfold opOf5B; rw [fFn_R]; revert m; decide
theorem Encoding.vcomp (d : Reg) (a : Reg) (m : BitVec 1) : Encoding.Statement (.vcomp d a m) :=
  .inr fun _ => ⟨_, op_vcomp d a m, congr3 Instr.vcomp (fD_R ..) (fA_R ..) ((low_R 3 1 (by decide) ..).trans ((cut_hi 0 1 (m) 3#3).trans (cut_self _)))⟩
theorem op_vexpd (d : Reg) (a : Reg) (m : BitVec 1) : opOf (encode (.vexpd d a m)) = some .vexpd := by
  show opOf (fmtR 0x5b#7 d a 0#7 (m ++ 4#3)) = _; unfold opOf; rw [fOp_R]; show opOf5B _ = _; unfold opOf5B; rw [fFn_R]; revert m; decide
theorem Encoding.vexpd (d : Reg) (a : Reg) (m : BitVec 1) : Encoding.Statement (.vexpd d a m) :=
  .inr fun _ => ⟨_, op_vexpd d a m, congr3 Instr.vexpd (fD_R ..) (fA_R ..) ((low_R 3 1 (by decide) ..).trans ((cut_hi 0 1 (m) 4#3).trans (cut_self _)))⟩
theorem op_vzip (d : Reg) (a : Reg) (b : Reg) (m : BitVec 1) : opOf (encode (.vzip d a b m)) = some .vzip := by
  show opOf (fmtR 0x5b#7 d a b (m ++ 5#3)) = _; unfold opOf; rw [fOp_R]; show opOf5B _ = _; unfold opOf5B; rw [fFn_R]; revert m; decide
theorem Encoding.vzip (d : Reg) (a : Reg) (b : Reg) (m : BitVec 1) : Encoding.Statement (.vzip d a b m) :=
  .inr fun _ => ⟨_, op_vzip d a b m, congr4 Instr.vzip (fD_R ..) (fA_R ..) (fB_R ..) ((low_R 3 1 (by decide) ..).trans ((cut_hi 0 1 (m) 5#3).trans (cut_self _)))⟩
theorem op_vuzp (d : Reg) (a : Reg) (b : Reg) (m : BitVec 1) : opOf (encode (.vuzp d a b m)) = some .vuzp := by
  show opOf (fmtR 0x5b#7 d a b (m ++ 6#3)) = _; unfold opOf; rw [fOp_R]; show opOf5B _ = _; unfold opOf5B; rw [fFn_R]; revert m; decide
theorem Encoding.vuzp (d : Reg) (a : Reg) (b : Reg) (m : BitVec 1) : Encoding.Statement (.vuzp d a b m) :=
  .inr fun _ => ⟨_, op_vuzp d a b m, congr4 Instr.vuzp (fD_R ..) (fA_R ..) (fB_R ..) ((low_R 3 1 (by decide) ..).trans ((cut_hi 0 1 (m) 6#3).trans (cut_self _)))⟩
theorem op_vrev (d : Reg) (a : Reg) (m : BitVec 1) : opOf (encode (.vrev d a m)) = some .vrev := by
  show opOf (fmtR 0x5b#7 d a 0#7 (m ++ 7#3)) = _; unfold opOf; rw [fOp_R]; show opOf5B _ = _; unfold opOf5B; rw [fFn_R]; revert m; decide
theorem Encoding.vrev (d : Reg) (a : Reg) (m : BitVec 1) : Encoding.Statement (.vrev d a m) :=
  .inr fun _ => ⟨_, op_vrev d a m, congr3 Instr.vrev (fD_R ..) (fA_R ..) ((low_R 3 1 (by decide) ..).trans ((cut_hi 0 1 (m) 7#3).trans (cut_self _)))⟩
theorem op_vmov (d : Reg) (a : Reg) (m : BitVec 1) : opOf (encode (.vmov d a m)) = some .vmov := by
  show opOf (fmtR 0x5c#7 d a 0#7 (m ++ 0#3)) = _; unfold opOf; rw [fOp_R]; show opOf5C _ = _; unfold opOf5C; rw [fFn_R]; revert m; decide
theorem Encoding.vmov (d : Reg) (a : Reg) (m : BitVec 1) : Encoding.Statement (.vmov d a m) :=
  .inr fun _ => ⟨_, op_vmov d a m, congr3 Instr.vmov (fD_R ..) (fA_R ..) ((low_R 3 1 (by decide) ..).trans ((cut_hi 0 1 (m) 0#3).trans (cut_self _)))⟩
theorem op_vsplat (d : Reg) (a : Reg) (m : BitVec 1) : opOf (encode (.vsplat d a m)) = some .vsplat := by
  show opOf (fmtR 0x5c#7 d a 0#7 (m ++ 1#3)) = _; unfold opOf; rw [fOp_R]; show opOf5C _ = _; unfold opOf5C; rw [fFn_R]; revert m; decide
theorem Encoding.vsplat (d : Reg) (a : Reg) (m : BitVec 1) : Encoding.Statement (.vsplat d a m) :=
  .inr fun _ => ⟨_, op_vsplat d a m, congr3 Instr.vsplat (fD_R ..) (fA_R ..) ((low_R 3 1 (by decide) ..).trans ((cut_hi 0 1 (m) 1#3).trans (cut_self _)))⟩
theorem op_vext (d : Reg) (a : Reg) (b : Reg) : opOf (encode (.vext d a b)) = some .vext := by
  show opOf (fmtR 0x5c#7 d a b 2#4) = _; unfold opOf; rw [fOp_R]; show opOf5C _ = _; unfold opOf5C; rw [fFn_R]; rfl
theorem Encoding.vext (d : Reg) (a : Reg) (b : Reg) : Encoding.Statement (.vext d a b) :=
  .inr fun _ => ⟨_, op_vext d a b, congr3 Instr.vext (fD_R ..) (fA_R ..) (fB_R ..)⟩
theorem op_vins (d : Reg) (a : Reg) (b : Reg) : opOf (encode (.vins d a b)) = some .vins := by
  show opOf (fmtR 0x5c#7 d a b 3#4) = _; unfold opOf; rw [fOp_R]; show opOf5C _ = _; unfold opOf5C; rw [fFn_R]; rfl
theorem Encoding.vins (d : Reg) (a : Reg) (b : Reg) : Encoding.Statement (.vins d a b) :=
  .inr fun _ => ⟨_, op_vins d a b, congr3 Instr.vins (fD_R ..) (fA_R ..) (fB_R ..)⟩
theorem op_viota (d : Reg) (m : BitVec 1) : opOf (encode (.viota d m)) = some .viota := by
  show opOf (fmtR 0x5c#7 d 0#7 0#7 (m ++ 4#3)) = _; unfold opOf; rw [fOp_R]; show opOf5C _ = _; unfold opOf5C; rw [fFn_R]; revert m; decide
theorem Encoding.viota (d : Reg) (m : BitVec 1) : Encoding.Statement (.viota d m) :=
  .inr fun _ => ⟨_, op_viota d m, congr2 Instr.viota (fD_R ..) ((low_R 3 1 (by decide) ..).trans ((cut_hi 0 1 (m) 4#3).trans (cut_self _)))⟩
theorem op_vmerge (d : Reg) (a : Reg) (b : Reg) : opOf (encode (.vmerge d a b)) = some .vmerge := by
  show opOf (fmtR 0x5c#7 d a b 5#4) = _; unfold opOf; rw [fOp_R]; show opOf5C _ = _; unfold opOf5C; rw [fFn_R]; rfl
theorem Encoding.vmerge (d : Reg) (a : Reg) (b : Reg) : Encoding.Statement (.vmerge d a b) :=
  .inr fun _ => ⟨_, op_vmerge d a b, congr3 Instr.vmerge (fD_R ..) (fA_R ..) (fB_R ..)⟩
theorem op_vfmsk (d : Reg) : opOf (encode (.vfmsk d)) = some .vfmsk := by
  show opOf (fmtR 0x5c#7 d 0#7 0#7 6#4) = _; unfold opOf; rw [fOp_R]; show opOf5C _ = _; unfold opOf5C; rw [fFn_R]; rfl
theorem Encoding.vfmsk (d : Reg) : Encoding.Statement (.vfmsk d) :=
  .inr fun _ => ⟨_, op_vfmsk d, congr1 Instr.vfmsk (fD_R ..)⟩
theorem op_vclrf : opOf (encode (.vclrf)) = some .vclrf := by
  show opOf (fmtR 0x5c#7 0#7 0#7 0#7 7#4) = _; unfold opOf; rw [fOp_R]; show opOf5C _ = _; unfold opOf5C; rw [fFn_R]; rfl
theorem Encoding.vclrf : Encoding.Statement (.vclrf) :=
  .inr fun _ => ⟨_, op_vclrf, rfl⟩
theorem op_vrsum (d : Reg) (a : Reg) (m : BitVec 1) : opOf (encode (.vrsum d a m)) = some .vrsum := by
  show opOf (fmtR 0x5d#7 d a 0#7 (m ++ 0#3)) = _; unfold opOf; rw [fOp_R]; show opOf5D _ = _; unfold opOf5D; rw [fFn_R]; revert m; decide
theorem Encoding.vrsum (d : Reg) (a : Reg) (m : BitVec 1) : Encoding.Statement (.vrsum d a m) :=
  .inr fun _ => ⟨_, op_vrsum d a m, congr3 Instr.vrsum (fD_R ..) (fA_R ..) ((low_R 3 1 (by decide) ..).trans ((cut_hi 0 1 (m) 0#3).trans (cut_self _)))⟩
theorem op_vfsum (a : Reg) (m : BitVec 1) : opOf (encode (.vfsum a m)) = some .vfsum := by
  show opOf (fmtR 0x5d#7 0#7 a 0#7 (m ++ 1#3)) = _; unfold opOf; rw [fOp_R]; show opOf5D _ = _; unfold opOf5D; rw [fFn_R]; revert m; decide
theorem Encoding.vfsum (a : Reg) (m : BitVec 1) : Encoding.Statement (.vfsum a m) :=
  .inr fun _ => ⟨_, op_vfsum a m, congr2 Instr.vfsum (fA_R ..) ((low_R 3 1 (by decide) ..).trans ((cut_hi 0 1 (m) 1#3).trans (cut_self _)))⟩
theorem op_vrmin (d : Reg) (a : Reg) (m : BitVec 1) : opOf (encode (.vrmin d a m)) = some .vrmin := by
  show opOf (fmtR 0x5d#7 d a 0#7 (m ++ 2#3)) = _; unfold opOf; rw [fOp_R]; show opOf5D _ = _; unfold opOf5D; rw [fFn_R]; revert m; decide
theorem Encoding.vrmin (d : Reg) (a : Reg) (m : BitVec 1) : Encoding.Statement (.vrmin d a m) :=
  .inr fun _ => ⟨_, op_vrmin d a m, congr3 Instr.vrmin (fD_R ..) (fA_R ..) ((low_R 3 1 (by decide) ..).trans ((cut_hi 0 1 (m) 2#3).trans (cut_self _)))⟩
theorem op_vrmax (d : Reg) (a : Reg) (m : BitVec 1) : opOf (encode (.vrmax d a m)) = some .vrmax := by
  show opOf (fmtR 0x5d#7 d a 0#7 (m ++ 3#3)) = _; unfold opOf; rw [fOp_R]; show opOf5D _ = _; unfold opOf5D; rw [fFn_R]; revert m; decide
theorem Encoding.vrmax (d : Reg) (a : Reg) (m : BitVec 1) : Encoding.Statement (.vrmax d a m) :=
  .inr fun _ => ⟨_, op_vrmax d a m, congr3 Instr.vrmax (fD_R ..) (fA_R ..) ((low_R 3 1 (by decide) ..).trans ((cut_hi 0 1 (m) 3#3).trans (cut_self _)))⟩
theorem op_vrand (d : Reg) (a : Reg) (m : BitVec 1) : opOf (encode (.vrand d a m)) = some .vrand := by
  show opOf (fmtR 0x5d#7 d a 0#7 (m ++ 4#3)) = _; unfold opOf; rw [fOp_R]; show opOf5D _ = _; unfold opOf5D; rw [fFn_R]; revert m; decide
theorem Encoding.vrand (d : Reg) (a : Reg) (m : BitVec 1) : Encoding.Statement (.vrand d a m) :=
  .inr fun _ => ⟨_, op_vrand d a m, congr3 Instr.vrand (fD_R ..) (fA_R ..) ((low_R 3 1 (by decide) ..).trans ((cut_hi 0 1 (m) 4#3).trans (cut_self _)))⟩
theorem op_vror (d : Reg) (a : Reg) (m : BitVec 1) : opOf (encode (.vror d a m)) = some .vror := by
  show opOf (fmtR 0x5d#7 d a 0#7 (m ++ 5#3)) = _; unfold opOf; rw [fOp_R]; show opOf5D _ = _; unfold opOf5D; rw [fFn_R]; revert m; decide
theorem Encoding.vror (d : Reg) (a : Reg) (m : BitVec 1) : Encoding.Statement (.vror d a m) :=
  .inr fun _ => ⟨_, op_vror d a m, congr3 Instr.vror (fD_R ..) (fA_R ..) ((low_R 3 1 (by decide) ..).trans ((cut_hi 0 1 (m) 5#3).trans (cut_self _)))⟩
theorem op_vrxor (d : Reg) (a : Reg) (m : BitVec 1) : opOf (encode (.vrxor d a m)) = some .vrxor := by
  show opOf (fmtR 0x5d#7 d a 0#7 (m ++ 6#3)) = _; unfold opOf; rw [fOp_R]; show opOf5D _ = _; unfold opOf5D; rw [fFn_R]; revert m; decide
theorem Encoding.vrxor (d : Reg) (a : Reg) (m : BitVec 1) : Encoding.Statement (.vrxor d a m) :=
  .inr fun _ => ⟨_, op_vrxor d a m, congr3 Instr.vrxor (fD_R ..) (fA_R ..) ((low_R 3 1 (by decide) ..).trans ((cut_hi 0 1 (m) 6#3).trans (cut_self _)))⟩
theorem op_vtree (d : Reg) : opOf (encode (.vtree d)) = some .vtree := by
  show opOf (fmtR 0x5d#7 d 0#7 0#7 7#4) = _; unfold opOf; rw [fOp_R]; show opOf5D _ = _; unfold opOf5D; rw [fFn_R]; rfl
theorem Encoding.vtree (d : Reg) : Encoding.Statement (.vtree d) :=
  .inr fun _ => ⟨_, op_vtree d, congr1 Instr.vtree (fD_R ..)⟩
theorem op_vargmax (d : Reg) (a : Reg) (m : BitVec 1) : opOf (encode (.vargmax d a m)) = some .vargmax := by
  show opOf (fmtR 0x5e#7 d a 0#7 (m ++ 0#3)) = _; unfold opOf; rw [fOp_R]; show opOf5E _ = _; unfold opOf5E; rw [fFn_R]; revert m; decide
theorem Encoding.vargmax (d : Reg) (a : Reg) (m : BitVec 1) : Encoding.Statement (.vargmax d a m) :=
  .inr fun _ => ⟨_, op_vargmax d a m, congr3 Instr.vargmax (fD_R ..) (fA_R ..) ((low_R 3 1 (by decide) ..).trans ((cut_hi 0 1 (m) 0#3).trans (cut_self _)))⟩
theorem op_vargmin (d : Reg) (a : Reg) (m : BitVec 1) : opOf (encode (.vargmin d a m)) = some .vargmin := by
  show opOf (fmtR 0x5e#7 d a 0#7 (m ++ 1#3)) = _; unfold opOf; rw [fOp_R]; show opOf5E _ = _; unfold opOf5E; rw [fFn_R]; revert m; decide
theorem Encoding.vargmin (d : Reg) (a : Reg) (m : BitVec 1) : Encoding.Statement (.vargmin d a m) :=
  .inr fun _ => ⟨_, op_vargmin d a m, congr3 Instr.vargmin (fD_R ..) (fA_R ..) ((low_R 3 1 (by decide) ..).trans ((cut_hi 0 1 (m) 1#3).trans (cut_self _)))⟩
theorem op_vargmaxc (d : Reg) (a : Reg) (m : BitVec 1) : opOf (encode (.vargmaxc d a m)) = some .vargmaxc := by
  show opOf (fmtR 0x5e#7 d a 0#7 (m ++ 2#3)) = _; unfold opOf; rw [fOp_R]; show opOf5E _ = _; unfold opOf5E; rw [fFn_R]; revert m; decide
theorem Encoding.vargmaxc (d : Reg) (a : Reg) (m : BitVec 1) : Encoding.Statement (.vargmaxc d a m) :=
  .inr fun _ => ⟨_, op_vargmaxc d a m, congr3 Instr.vargmaxc (fD_R ..) (fA_R ..) ((low_R 3 1 (by decide) ..).trans ((cut_hi 0 1 (m) 2#3).trans (cut_self _)))⟩
theorem op_vscan (d : Reg) (a : Reg) (s : BitVec 1) : opOf (encode (.vscan d a s)) = some .vscan := by
  show opOf (fmtR 0x5f#7 d a 0#7 (s ++ 0#3)) = _; unfold opOf; rw [fOp_R]; show opOf5F _ = _; unfold opOf5F; rw [fFn_R]; revert s; decide
theorem Encoding.vscan (d : Reg) (a : Reg) (s : BitVec 1) : Encoding.Statement (.vscan d a s) :=
  .inr fun _ => ⟨_, op_vscan d a s, congr3 Instr.vscan (fD_R ..) (fA_R ..) ((low_R 3 1 (by decide) ..).trans ((cut_hi 0 1 (s) 0#3).trans (cut_self _)))⟩
theorem op_vscanx (d : Reg) (a : Reg) (s : BitVec 1) : opOf (encode (.vscanx d a s)) = some .vscanx := by
  show opOf (fmtR 0x5f#7 d a 0#7 (s ++ 1#3)) = _; unfold opOf; rw [fOp_R]; show opOf5F _ = _; unfold opOf5F; rw [fFn_R]; revert s; decide
theorem Encoding.vscanx (d : Reg) (a : Reg) (s : BitVec 1) : Encoding.Statement (.vscanx d a s) :=
  .inr fun _ => ⟨_, op_vscanx d a s, congr3 Instr.vscanx (fD_R ..) (fA_R ..) ((low_R 3 1 (by decide) ..).trans ((cut_hi 0 1 (s) 1#3).trans (cut_self _)))⟩
theorem op_vfscan (d : Reg) (a : Reg) (s : BitVec 1) : opOf (encode (.vfscan d a s)) = some .vfscan := by
  show opOf (fmtR 0x5f#7 d a 0#7 (s ++ 2#3)) = _; unfold opOf; rw [fOp_R]; show opOf5F _ = _; unfold opOf5F; rw [fFn_R]; revert s; decide
theorem Encoding.vfscan (d : Reg) (a : Reg) (s : BitVec 1) : Encoding.Statement (.vfscan d a s) :=
  .inr fun _ => ⟨_, op_vfscan d a s, congr3 Instr.vfscan (fD_R ..) (fA_R ..) ((low_R 3 1 (by decide) ..).trans ((cut_hi 0 1 (s) 2#3).trans (cut_self _)))⟩
theorem op_vmscan (d : Reg) (a : Reg) (s : BitVec 1) : opOf (encode (.vmscan d a s)) = some .vmscan := by
  show opOf (fmtR 0x5f#7 d a 0#7 (s ++ 3#3)) = _; unfold opOf; rw [fOp_R]; show opOf5F _ = _; unfold opOf5F; rw [fFn_R]; revert s; decide
theorem Encoding.vmscan (d : Reg) (a : Reg) (s : BitVec 1) : Encoding.Statement (.vmscan d a s) :=
  .inr fun _ => ⟨_, op_vmscan d a s, congr3 Instr.vmscan (fD_R ..) (fA_R ..) ((low_R 3 1 (by decide) ..).trans ((cut_hi 0 1 (s) 3#3).trans (cut_self _)))⟩
theorem op_vsegrAdd (d : Reg) (a : Reg) (s : BitVec 1) : opOf (encode (.vsegrAdd d a s)) = some .vsegrAdd := by
  show opOf (fmtR 0x60#7 d a 0#7 (s ++ 0#3)) = _; unfold opOf; rw [fOp_R]; show opOf60 _ = _; unfold opOf60; rw [fFn_R]; revert s; decide
theorem Encoding.vsegrAdd (d : Reg) (a : Reg) (s : BitVec 1) : Encoding.Statement (.vsegrAdd d a s) :=
  .inr fun _ => ⟨_, op_vsegrAdd d a s, congr3 Instr.vsegrAdd (fD_R ..) (fA_R ..) ((low_R 3 1 (by decide) ..).trans ((cut_hi 0 1 (s) 0#3).trans (cut_self _)))⟩
theorem op_vsegrMin (d : Reg) (a : Reg) (s : BitVec 1) : opOf (encode (.vsegrMin d a s)) = some .vsegrMin := by
  show opOf (fmtR 0x60#7 d a 0#7 (s ++ 1#3)) = _; unfold opOf; rw [fOp_R]; show opOf60 _ = _; unfold opOf60; rw [fFn_R]; revert s; decide
theorem Encoding.vsegrMin (d : Reg) (a : Reg) (s : BitVec 1) : Encoding.Statement (.vsegrMin d a s) :=
  .inr fun _ => ⟨_, op_vsegrMin d a s, congr3 Instr.vsegrMin (fD_R ..) (fA_R ..) ((low_R 3 1 (by decide) ..).trans ((cut_hi 0 1 (s) 1#3).trans (cut_self _)))⟩
theorem op_vsegrMax (d : Reg) (a : Reg) (s : BitVec 1) : opOf (encode (.vsegrMax d a s)) = some .vsegrMax := by
  show opOf (fmtR 0x60#7 d a 0#7 (s ++ 2#3)) = _; unfold opOf; rw [fOp_R]; show opOf60 _ = _; unfold opOf60; rw [fFn_R]; revert s; decide
theorem Encoding.vsegrMax (d : Reg) (a : Reg) (s : BitVec 1) : Encoding.Statement (.vsegrMax d a s) :=
  .inr fun _ => ⟨_, op_vsegrMax d a s, congr3 Instr.vsegrMax (fD_R ..) (fA_R ..) ((low_R 3 1 (by decide) ..).trans ((cut_hi 0 1 (s) 2#3).trans (cut_self _)))⟩
theorem op_vsegrAnd (d : Reg) (a : Reg) (s : BitVec 1) : opOf (encode (.vsegrAnd d a s)) = some .vsegrAnd := by
  show opOf (fmtR 0x60#7 d a 0#7 (s ++ 3#3)) = _; unfold opOf; rw [fOp_R]; show opOf60 _ = _; unfold opOf60; rw [fFn_R]; revert s; decide
theorem Encoding.vsegrAnd (d : Reg) (a : Reg) (s : BitVec 1) : Encoding.Statement (.vsegrAnd d a s) :=
  .inr fun _ => ⟨_, op_vsegrAnd d a s, congr3 Instr.vsegrAnd (fD_R ..) (fA_R ..) ((low_R 3 1 (by decide) ..).trans ((cut_hi 0 1 (s) 3#3).trans (cut_self _)))⟩
theorem op_vsegrOr (d : Reg) (a : Reg) (s : BitVec 1) : opOf (encode (.vsegrOr d a s)) = some .vsegrOr := by
  show opOf (fmtR 0x60#7 d a 0#7 (s ++ 4#3)) = _; unfold opOf; rw [fOp_R]; show opOf60 _ = _; unfold opOf60; rw [fFn_R]; revert s; decide
theorem Encoding.vsegrOr (d : Reg) (a : Reg) (s : BitVec 1) : Encoding.Statement (.vsegrOr d a s) :=
  .inr fun _ => ⟨_, op_vsegrOr d a s, congr3 Instr.vsegrOr (fD_R ..) (fA_R ..) ((low_R 3 1 (by decide) ..).trans ((cut_hi 0 1 (s) 4#3).trans (cut_self _)))⟩
theorem op_vsegrFadd (d : Reg) (a : Reg) (s : BitVec 1) : opOf (encode (.vsegrFadd d a s)) = some .vsegrFadd := by
  show opOf (fmtR 0x60#7 d a 0#7 (s ++ 5#3)) = _; unfold opOf; rw [fOp_R]; show opOf60 _ = _; unfold opOf60; rw [fFn_R]; revert s; decide
theorem Encoding.vsegrFadd (d : Reg) (a : Reg) (s : BitVec 1) : Encoding.Statement (.vsegrFadd d a s) :=
  .inr fun _ => ⟨_, op_vsegrFadd d a s, congr3 Instr.vsegrFadd (fD_R ..) (fA_R ..) ((low_R 3 1 (by decide) ..).trans ((cut_hi 0 1 (s) 5#3).trans (cut_self _)))⟩
theorem op_vsegrFmin (d : Reg) (a : Reg) (s : BitVec 1) : opOf (encode (.vsegrFmin d a s)) = some .vsegrFmin := by
  show opOf (fmtR 0x60#7 d a 0#7 (s ++ 6#3)) = _; unfold opOf; rw [fOp_R]; show opOf60 _ = _; unfold opOf60; rw [fFn_R]; revert s; decide
theorem Encoding.vsegrFmin (d : Reg) (a : Reg) (s : BitVec 1) : Encoding.Statement (.vsegrFmin d a s) :=
  .inr fun _ => ⟨_, op_vsegrFmin d a s, congr3 Instr.vsegrFmin (fD_R ..) (fA_R ..) ((low_R 3 1 (by decide) ..).trans ((cut_hi 0 1 (s) 6#3).trans (cut_self _)))⟩
theorem op_vsegrFmax (d : Reg) (a : Reg) (s : BitVec 1) : opOf (encode (.vsegrFmax d a s)) = some .vsegrFmax := by
  show opOf (fmtR 0x60#7 d a 0#7 (s ++ 7#3)) = _; unfold opOf; rw [fOp_R]; show opOf60 _ = _; unfold opOf60; rw [fFn_R]; revert s; decide
theorem Encoding.vsegrFmax (d : Reg) (a : Reg) (s : BitVec 1) : Encoding.Statement (.vsegrFmax d a s) :=
  .inr fun _ => ⟨_, op_vsegrFmax d a s, congr3 Instr.vsegrFmax (fD_R ..) (fA_R ..) ((low_R 3 1 (by decide) ..).trans ((cut_hi 0 1 (s) 7#3).trans (cut_self _)))⟩
theorem op_vrndl (d : Reg) (m : BitVec 1) : opOf (encode (.vrndl d m)) = some .vrndl := by
  show opOf (fmtR 0x61#7 d 0#7 0#7 (m ++ 0#3)) = _; unfold opOf; rw [fOp_R]; show opOf61 _ = _; unfold opOf61; rw [fFn_R]; revert m; decide
theorem Encoding.vrndl (d : Reg) (m : BitVec 1) : Encoding.Statement (.vrndl d m) :=
  .inr fun _ => ⟨_, op_vrndl d m, congr2 Instr.vrndl (fD_R ..) ((low_R 3 1 (by decide) ..).trans ((cut_hi 0 1 (m) 0#3).trans (cut_self _)))⟩
theorem op_vrndh (d : Reg) (m : BitVec 1) : opOf (encode (.vrndh d m)) = some .vrndh := by
  show opOf (fmtR 0x61#7 d 0#7 0#7 (m ++ 1#3)) = _; unfold opOf; rw [fOp_R]; show opOf61 _ = _; unfold opOf61; rw [fFn_R]; revert m; decide
theorem Encoding.vrndh (d : Reg) (m : BitVec 1) : Encoding.Statement (.vrndh d m) :=
  .inr fun _ => ⟨_, op_vrndh d m, congr2 Instr.vrndh (fD_R ..) ((low_R 3 1 (by decide) ..).trans ((cut_hi 0 1 (m) 1#3).trans (cut_self _)))⟩
theorem op_vrndu (d : Reg) (m : BitVec 1) : opOf (encode (.vrndu d m)) = some .vrndu := by
  show opOf (fmtR 0x61#7 d 0#7 0#7 (m ++ 2#3)) = _; unfold opOf; rw [fOp_R]; show opOf61 _ = _; unfold opOf61; rw [fFn_R]; revert m; decide
theorem Encoding.vrndu (d : Reg) (m : BitVec 1) : Encoding.Statement (.vrndu d m) :=
  .inr fun _ => ⟨_, op_vrndu d m, congr2 Instr.vrndu (fD_R ..) ((low_R 3 1 (by decide) ..).trans ((cut_hi 0 1 (m) 2#3).trans (cut_self _)))⟩
theorem op_vbin (d : Reg) (a : Reg) : opOf (encode (.vbin d a)) = some .vbin := by
  show opOf (fmtR 0x62#7 d a 0#7 0#4) = _; unfold opOf; rw [fOp_R]; show opOf62 _ = _; unfold opOf62; rw [fFn_R]; rfl
theorem Encoding.vbin (d : Reg) (a : Reg) : Encoding.Statement (.vbin d a) :=
  .inr fun _ => ⟨_, op_vbin d a, congr2 Instr.vbin (fD_R ..) (fA_R ..)⟩
theorem op_vbout (d : Reg) (a : Reg) : opOf (encode (.vbout d a)) = some .vbout := by
  show opOf (fmtR 0x62#7 d a 0#7 1#4) = _; unfold opOf; rw [fOp_R]; show opOf62 _ = _; unfold opOf62; rw [fFn_R]; rfl
theorem Encoding.vbout (d : Reg) (a : Reg) : Encoding.Statement (.vbout d a) :=
  .inr fun _ => ⟨_, op_vbout d a, congr2 Instr.vbout (fD_R ..) (fA_R ..)⟩
theorem op_vunb (d : Reg) : opOf (encode (.vunb d)) = some .vunb := by
  show opOf (fmtR 0x62#7 d 0#7 0#7 2#4) = _; unfold opOf; rw [fOp_R]; show opOf62 _ = _; unfold opOf62; rw [fFn_R]; rfl
theorem Encoding.vunb (d : Reg) : Encoding.Statement (.vunb d) :=
  .inr fun _ => ⟨_, op_vunb d, congr1 Instr.vunb (fD_R ..)⟩
theorem op_mtile (d : Reg) (a : Reg) (b : Reg) : opOf (encode (.mtile d a b)) = some .mtile := by
  show opOf (fmtR 0x68#7 d a b 0#4) = _; unfold opOf; rw [fOp_R]; rfl
theorem Encoding.mtile (d : Reg) (a : Reg) (b : Reg) : Encoding.Statement (.mtile d a b) :=
  .inr fun _ => ⟨_, op_mtile d a b, congr3 Instr.mtile (fD_R ..) (fA_R ..) (fB_R ..)⟩
theorem op_mrow (d : Reg) (a : Reg) (b : Reg) (k : BitVec 1) (j : BitVec 1) : opOf (encode (.mrow d a b k j)) = some .mrow := by
  show opOf (fmtR 0x69#7 d a b (0#2 ++ k ++ j)) = _; unfold opOf; rw [fOp_R]; rfl
theorem Encoding.mrow (d : Reg) (a : Reg) (b : Reg) (k : BitVec 1) (j : BitVec 1) : Encoding.Statement (.mrow d a b k j) :=
  .inr fun _ => ⟨_, op_mrow d a b k j, congr5 Instr.mrow (fD_R ..) (fA_R ..) (fB_R ..) ((low_R 1 1 (by decide) ..).trans ((cut_hi 0 1 (0#2 ++ k) j).trans ((cut_lo 0 1 (by decide) (0#2) k).trans (cut_self _)))) ((low_R 0 1 (by decide) ..).trans ((cut_lo 0 1 (by decide) (0#2 ++ k) j).trans (cut_self _)))⟩
theorem op_maccf (d : Reg) (a : Reg) : opOf (encode (.maccf d a)) = some .maccf := by
  show opOf (fmtR 0x6a#7 d a 0#7 0#4) = _; unfold opOf; rw [fOp_R]; show opOf6A _ = _; unfold opOf6A; rw [fFn_R]; rfl
theorem Encoding.maccf (d : Reg) (a : Reg) : Encoding.Statement (.maccf d a) :=
  .inr fun _ => ⟨_, op_maccf d a, congr2 Instr.maccf (fD_R ..) (fA_R ..)⟩
theorem op_macc (d : Reg) (a : Reg) : opOf (encode (.macc d a)) = some .macc := by
  show opOf (fmtR 0x6a#7 d a 0#7 1#4) = _; unfold opOf; rw [fOp_R]; show opOf6A _ = _; unfold opOf6A; rw [fFn_R]; rfl
theorem Encoding.macc (d : Reg) (a : Reg) : Encoding.Statement (.macc d a) :=
  .inr fun _ => ⟨_, op_macc d a, congr2 Instr.macc (fD_R ..) (fA_R ..)⟩
theorem op_maccz (d : Reg) (a : Reg) : opOf (encode (.maccz d a)) = some .maccz := by
  show opOf (fmtR 0x6a#7 d a 0#7 2#4) = _; unfold opOf; rw [fOp_R]; show opOf6A _ = _; unfold opOf6A; rw [fFn_R]; rfl
theorem Encoding.maccz (d : Reg) (a : Reg) : Encoding.Statement (.maccz d a) :=
  .inr fun _ => ⟨_, op_maccz d a, congr2 Instr.maccz (fD_R ..) (fA_R ..)⟩
theorem op_mzero (a : Reg) (b : Reg) : opOf (encode (.mzero a b)) = some .mzero := by
  show opOf (fmtR 0x6b#7 0#7 a b 0#4) = _; unfold opOf; rw [fOp_R]; rfl
theorem Encoding.mzero (a : Reg) (b : Reg) : Encoding.Statement (.mzero a b) :=
  .inr fun _ => ⟨_, op_mzero a b, congr2 Instr.mzero (fA_R ..) (fB_R ..)⟩
theorem op_mstat (d : Reg) : opOf (encode (.mstat d)) = some .mstat := by
  show opOf (fmtR 0x6c#7 d 0#7 0#7 0#4) = _; unfold opOf; rw [fOp_R]; show opOf6C _ = _; unfold opOf6C; rw [fFn_R]; rfl
theorem Encoding.mstat (d : Reg) : Encoding.Statement (.mstat d) :=
  .inr fun _ => ⟨_, op_mstat d, congr1 Instr.mstat (fD_R ..)⟩
theorem op_mstatc (d : Reg) : opOf (encode (.mstatc d)) = some .mstatc := by
  show opOf (fmtR 0x6c#7 d 0#7 0#7 1#4) = _; unfold opOf; rw [fOp_R]; show opOf6C _ = _; unfold opOf6C; rw [fFn_R]; rfl
theorem Encoding.mstatc (d : Reg) : Encoding.Statement (.mstatc d) :=
  .inr fun _ => ⟨_, op_mstatc d, congr1 Instr.mstatc (fD_R ..)⟩
theorem op_rcopen (a : Reg) : opOf (encode (.rcopen a)) = some .rcopen := by
  show opOf (fmtR 0x70#7 0#7 a 0#7 0#4) = _; unfold opOf; rw [fOp_R]; show opOf70 _ = _; unfold opOf70; rw [fFn_R]; rfl
theorem Encoding.rcopen (a : Reg) : Encoding.Statement (.rcopen a) :=
  .inr fun _ => ⟨_, op_rcopen a, congr1 Instr.rcopen (fA_R ..)⟩
theorem op_rcnoise (d : Reg) : opOf (encode (.rcnoise d)) = some .rcnoise := by
  show opOf (fmtR 0x70#7 d 0#7 0#7 1#4) = _; unfold opOf; rw [fOp_R]; show opOf70 _ = _; unfold opOf70; rw [fFn_R]; rfl
theorem Encoding.rcnoise (d : Reg) : Encoding.Statement (.rcnoise d) :=
  .inr fun _ => ⟨_, op_rcnoise d, congr1 Instr.rcnoise (fD_R ..)⟩
theorem op_rcscore (d : Reg) (a : Reg) : opOf (encode (.rcscore d a)) = some .rcscore := by
  show opOf (fmtR 0x70#7 d a 0#7 2#4) = _; unfold opOf; rw [fOp_R]; show opOf70 _ = _; unfold opOf70; rw [fFn_R]; rfl
theorem Encoding.rcscore (d : Reg) (a : Reg) : Encoding.Statement (.rcscore d a) :=
  .inr fun _ => ⟨_, op_rcscore d a, congr2 Instr.rcscore (fD_R ..) (fA_R ..)⟩
theorem op_rccut (d : Reg) (a : Reg) : opOf (encode (.rccut d a)) = some .rccut := by
  show opOf (fmtR 0x70#7 d a 0#7 3#4) = _; unfold opOf; rw [fOp_R]; show opOf70 _ = _; unfold opOf70; rw [fFn_R]; rfl
theorem Encoding.rccut (d : Reg) (a : Reg) : Encoding.Statement (.rccut d a) :=
  .inr fun _ => ⟨_, op_rccut d a, congr2 Instr.rccut (fD_R ..) (fA_R ..)⟩
theorem op_rcexact (d : Reg) (a : Reg) : opOf (encode (.rcexact d a)) = some .rcexact := by
  show opOf (fmtR 0x70#7 d a 0#7 4#4) = _; unfold opOf; rw [fOp_R]; show opOf70 _ = _; unfold opOf70; rw [fFn_R]; rfl
theorem Encoding.rcexact (d : Reg) (a : Reg) : Encoding.Statement (.rcexact d a) :=
  .inr fun _ => ⟨_, op_rcexact d a, congr2 Instr.rcexact (fD_R ..) (fA_R ..)⟩
theorem op_rcpost (a : Reg) (b : Reg) : opOf (encode (.rcpost a b)) = some .rcpost := by
  show opOf (fmtR 0x70#7 0#7 a b 5#4) = _; unfold opOf; rw [fOp_R]; show opOf70 _ = _; unfold opOf70; rw [fFn_R]; rfl
theorem Encoding.rcpost (a : Reg) (b : Reg) : Encoding.Statement (.rcpost a b) :=
  .inr fun _ => ⟨_, op_rcpost a b, congr2 Instr.rcpost (fA_R ..) (fB_R ..)⟩
theorem op_rcmerge (d : Reg) : opOf (encode (.rcmerge d)) = some .rcmerge := by
  show opOf (fmtR 0x70#7 d 0#7 0#7 6#4) = _; unfold opOf; rw [fOp_R]; show opOf70 _ = _; unfold opOf70; rw [fFn_R]; rfl
theorem Encoding.rcmerge (d : Reg) : Encoding.Statement (.rcmerge d) :=
  .inr fun _ => ⟨_, op_rcmerge d, congr1 Instr.rcmerge (fD_R ..)⟩
theorem op_rcbar (a : Reg) : opOf (encode (.rcbar a)) = some .rcbar := by
  show opOf (fmtR 0x70#7 0#7 a 0#7 7#4) = _; unfold opOf; rw [fOp_R]; show opOf70 _ = _; unfold opOf70; rw [fFn_R]; rfl
theorem Encoding.rcbar (a : Reg) : Encoding.Statement (.rcbar a) :=
  .inr fun _ => ⟨_, op_rcbar a, congr1 Instr.rcbar (fA_R ..)⟩
theorem op_rcprob (d : Reg) : opOf (encode (.rcprob d)) = some .rcprob := by
  show opOf (fmtR 0x70#7 d 0#7 0#7 8#4) = _; unfold opOf; rw [fOp_R]; show opOf70 _ = _; unfold opOf70; rw [fFn_R]; rfl
theorem Encoding.rcprob (d : Reg) : Encoding.Statement (.rcprob d) :=
  .inr fun _ => ⟨_, op_rcprob d, congr1 Instr.rcprob (fD_R ..)⟩
theorem op_rcget (d : Reg) (b : Reg) : opOf (encode (.rcget d b)) = some .rcget := by
  show opOf (fmtR 0x70#7 d 0#7 b 9#4) = _; unfold opOf; rw [fOp_R]; show opOf70 _ = _; unfold opOf70; rw [fFn_R]; rfl
theorem Encoding.rcget (d : Reg) (b : Reg) : Encoding.Statement (.rcget d b) :=
  .inr fun _ => ⟨_, op_rcget d b, congr2 Instr.rcget (fD_R ..) (fB_R ..)⟩
theorem op_rcput (a : Reg) (b : Reg) : opOf (encode (.rcput a b)) = some .rcput := by
  show opOf (fmtR 0x70#7 0#7 a b 0xa#4) = _; unfold opOf; rw [fOp_R]; show opOf70 _ = _; unfold opOf70; rw [fFn_R]; rfl
theorem Encoding.rcput (a : Reg) (b : Reg) : Encoding.Statement (.rcput a b) :=
  .inr fun _ => ⟨_, op_rcput a b, congr2 Instr.rcput (fA_R ..) (fB_R ..)⟩
theorem op_rcclose : opOf (encode (.rcclose)) = some .rcclose := by
  show opOf (fmtR 0x70#7 0#7 0#7 0#7 0xb#4) = _; unfold opOf; rw [fOp_R]; show opOf70 _ = _; unfold opOf70; rw [fFn_R]; rfl
theorem Encoding.rcclose : Encoding.Statement (.rcclose) :=
  .inr fun _ => ⟨_, op_rcclose, rfl⟩
theorem op_fnset (d : Reg) (a : Reg) (b : Reg) : opOf (encode (.fnset d a b)) = some .fnset := by
  show opOf (fmtR 0x71#7 d a b 0#4) = _; unfold opOf; rw [fOp_R]; show opOf71 _ = _; unfold opOf71; rw [fFn_R]; rfl
theorem Encoding.fnset (d : Reg) (a : Reg) (b : Reg) : Encoding.Statement (.fnset d a b) :=
  .inr fun _ => ⟨_, op_fnset d a b, congr3 Instr.fnset (fD_R ..) (fA_R ..) (fB_R ..)⟩
theorem op_fnget (d : Reg) (a : Reg) : opOf (encode (.fnget d a)) = some .fnget := by
  show opOf (fmtR 0x71#7 d a 0#7 1#4) = _; unfold opOf; rw [fOp_R]; show opOf71 _ = _; unfold opOf71; rw [fFn_R]; rfl
theorem Encoding.fnget (d : Reg) (a : Reg) : Encoding.Statement (.fnget d a) :=
  .inr fun _ => ⟨_, op_fnget d a, congr2 Instr.fnget (fD_R ..) (fA_R ..)⟩
theorem op_fnadd (d : Reg) (a : Reg) (b : Reg) : opOf (encode (.fnadd d a b)) = some .fnadd := by
  show opOf (fmtR 0x71#7 d a b 2#4) = _; unfold opOf; rw [fOp_R]; show opOf71 _ = _; unfold opOf71; rw [fFn_R]; rfl
theorem Encoding.fnadd (d : Reg) (a : Reg) (b : Reg) : Encoding.Statement (.fnadd d a b) :=
  .inr fun _ => ⟨_, op_fnadd d a b, congr3 Instr.fnadd (fD_R ..) (fA_R ..) (fB_R ..)⟩
theorem op_fnmul (d : Reg) (a : Reg) (b : Reg) : opOf (encode (.fnmul d a b)) = some .fnmul := by
  show opOf (fmtR 0x71#7 d a b 3#4) = _; unfold opOf; rw [fOp_R]; show opOf71 _ = _; unfold opOf71; rw [fFn_R]; rfl
theorem Encoding.fnmul (d : Reg) (a : Reg) (b : Reg) : Encoding.Statement (.fnmul d a b) :=
  .inr fun _ => ⟨_, op_fnmul d a b, congr3 Instr.fnmul (fD_R ..) (fA_R ..) (fB_R ..)⟩
theorem op_fncomp (d : Reg) (a : Reg) (b : Reg) : opOf (encode (.fncomp d a b)) = some .fncomp := by
  show opOf (fmtR 0x71#7 d a b 4#4) = _; unfold opOf; rw [fOp_R]; show opOf71 _ = _; unfold opOf71; rw [fFn_R]; rfl
theorem Encoding.fncomp (d : Reg) (a : Reg) (b : Reg) : Encoding.Statement (.fncomp d a b) :=
  .inr fun _ => ⟨_, op_fncomp d a b, congr3 Instr.fncomp (fD_R ..) (fA_R ..) (fB_R ..)⟩
theorem op_fnint (d : Reg) (a : Reg) : opOf (encode (.fnint d a)) = some .fnint := by
  show opOf (fmtR 0x71#7 d a 0#7 5#4) = _; unfold opOf; rw [fOp_R]; show opOf71 _ = _; unfold opOf71; rw [fFn_R]; rfl
theorem Encoding.fnint (d : Reg) (a : Reg) : Encoding.Statement (.fnint d a) :=
  .inr fun _ => ⟨_, op_fnint d a, congr2 Instr.fnint (fD_R ..) (fA_R ..)⟩
theorem op_fndiff (d : Reg) (a : Reg) : opOf (encode (.fndiff d a)) = some .fndiff := by
  show opOf (fmtR 0x71#7 d a 0#7 6#4) = _; unfold opOf; rw [fOp_R]; show opOf71 _ = _; unfold opOf71; rw [fFn_R]; rfl
theorem Encoding.fndiff (d : Reg) (a : Reg) : Encoding.Statement (.fndiff d a) :=
  .inr fun _ => ⟨_, op_fndiff d a, congr2 Instr.fndiff (fD_R ..) (fA_R ..)⟩
theorem op_fneval (d : Reg) (a : Reg) (b : Reg) : opOf (encode (.fneval d a b)) = some .fneval := by
  show opOf (fmtR 0x71#7 d a b 7#4) = _; unfold opOf; rw [fOp_R]; show opOf71 _ = _; unfold opOf71; rw [fFn_R]; rfl
theorem Encoding.fneval (d : Reg) (a : Reg) (b : Reg) : Encoding.Statement (.fneval d a b) :=
  .inr fun _ => ⟨_, op_fneval d a b, congr3 Instr.fneval (fD_R ..) (fA_R ..) (fB_R ..)⟩
theorem op_fnroot (d : Reg) (a : Reg) (b : Reg) : opOf (encode (.fnroot d a b)) = some .fnroot := by
  show opOf (fmtR 0x71#7 d a b 8#4) = _; unfold opOf; rw [fOp_R]; show opOf71 _ = _; unfold opOf71; rw [fFn_R]; rfl
theorem Encoding.fnroot (d : Reg) (a : Reg) (b : Reg) : Encoding.Statement (.fnroot d a b) :=
  .inr fun _ => ⟨_, op_fnroot d a b, congr3 Instr.fnroot (fD_R ..) (fA_R ..) (fB_R ..)⟩
theorem op_fntrunc (d : Reg) (a : Reg) : opOf (encode (.fntrunc d a)) = some .fntrunc := by
  show opOf (fmtR 0x71#7 d a 0#7 9#4) = _; unfold opOf; rw [fOp_R]; show opOf71 _ = _; unfold opOf71; rw [fFn_R]; rfl
theorem Encoding.fntrunc (d : Reg) (a : Reg) : Encoding.Statement (.fntrunc d a) :=
  .inr fun _ => ⟨_, op_fntrunc d a, congr2 Instr.fntrunc (fD_R ..) (fA_R ..)⟩
theorem op_fnfit (d : Reg) (a : Reg) (b : Reg) : opOf (encode (.fnfit d a b)) = some .fnfit := by
  show opOf (fmtR 0x71#7 d a b 0xa#4) = _; unfold opOf; rw [fOp_R]; show opOf71 _ = _; unfold opOf71; rw [fFn_R]; rfl
theorem Encoding.fnfit (d : Reg) (a : Reg) (b : Reg) : Encoding.Statement (.fnfit d a b) :=
  .inr fun _ => ⟨_, op_fnfit d a b, congr3 Instr.fnfit (fD_R ..) (fA_R ..) (fB_R ..)⟩
theorem op_fnmono (d : Reg) : opOf (encode (.fnmono d)) = some .fnmono := by
  show opOf (fmtR 0x71#7 d 0#7 0#7 0xb#4) = _; unfold opOf; rw [fOp_R]; show opOf71 _ = _; unfold opOf71; rw [fFn_R]; rfl
theorem Encoding.fnmono (d : Reg) : Encoding.Statement (.fnmono d) :=
  .inr fun _ => ⟨_, op_fnmono d, congr1 Instr.fnmono (fD_R ..)⟩
theorem op_fninfo (d : Reg) (a : Reg) : opOf (encode (.fninfo d a)) = some .fninfo := by
  show opOf (fmtR 0x71#7 d a 0#7 0xc#4) = _; unfold opOf; rw [fOp_R]; show opOf71 _ = _; unfold opOf71; rw [fFn_R]; rfl
theorem Encoding.fninfo (d : Reg) (a : Reg) : Encoding.Statement (.fninfo d a) :=
  .inr fun _ => ⟨_, op_fninfo d a, congr2 Instr.fninfo (fD_R ..) (fA_R ..)⟩
theorem op_fnfree (d : Reg) : opOf (encode (.fnfree d)) = some .fnfree := by
  show opOf (fmtR 0x71#7 d 0#7 0#7 0xd#4) = _; unfold opOf; rw [fOp_R]; show opOf71 _ = _; unfold opOf71; rw [fFn_R]; rfl
theorem Encoding.fnfree (d : Reg) : Encoding.Statement (.fnfree d) :=
  .inr fun _ => ⟨_, op_fnfree d, congr1 Instr.fnfree (fD_R ..)⟩
theorem op_fnscal (d : Reg) (a : Reg) (b : Reg) : opOf (encode (.fnscal d a b)) = some .fnscal := by
  show opOf (fmtR 0x71#7 d a b 0xe#4) = _; unfold opOf; rw [fOp_R]; show opOf71 _ = _; unfold opOf71; rw [fFn_R]; rfl
theorem Encoding.fnscal (d : Reg) (a : Reg) (b : Reg) : Encoding.Statement (.fnscal d a b) :=
  .inr fun _ => ⟨_, op_fnscal d a b, congr3 Instr.fnscal (fD_R ..) (fA_R ..) (fB_R ..)⟩
theorem op_gmbox (d : Reg) (b : Reg) : opOf (encode (.gmbox d b)) = some .gmbox := by
  show opOf (fmtR 0x72#7 d 0#7 b 0#4) = _; unfold opOf; rw [fOp_R]; show opOf72 _ = _; unfold opOf72; rw [fFn_R]; rfl
theorem Encoding.gmbox (d : Reg) (b : Reg) : Encoding.Statement (.gmbox d b) :=
  .inr fun _ => ⟨_, op_gmbox d b, congr2 Instr.gmbox (fD_R ..) (fB_R ..)⟩
theorem op_vhold (d : Reg) (a : Reg) : opOf (encode (.vhold d a)) = some .vhold := by
  show opOf (fmtR 0x72#7 d a 0#7 1#4) = _; unfold opOf; rw [fOp_R]; show opOf72 _ = _; unfold opOf72; rw [fFn_R]; rfl
theorem Encoding.vhold (d : Reg) (a : Reg) : Encoding.Statement (.vhold d a) :=
  .inr fun _ => ⟨_, op_vhold d a, congr2 Instr.vhold (fD_R ..) (fA_R ..)⟩
theorem op_rstv (d : Reg) (a : Reg) (b : Reg) : opOf (encode (.rstv d a b)) = some .rstv := by
  show opOf (fmtR 0x72#7 d a b 2#4) = _; unfold opOf; rw [fOp_R]; show opOf72 _ = _; unfold opOf72; rw [fFn_R]; rfl
theorem Encoding.rstv (d : Reg) (a : Reg) (b : Reg) : Encoding.Statement (.rstv d a b) :=
  .inr fun _ => ⟨_, op_rstv d a b, congr3 Instr.rstv (fD_R ..) (fA_R ..) (fB_R ..)⟩
theorem op_rstvr (d : Reg) (a : Reg) (b : Reg) : opOf (encode (.rstvr d a b)) = some .rstvr := by
  show opOf (fmtR 0x72#7 d a b 3#4) = _; unfold opOf; rw [fOp_R]; show opOf72 _ = _; unfold opOf72; rw [fFn_R]; rfl
theorem Encoding.rstvr (d : Reg) (a : Reg) (b : Reg) : Encoding.Statement (.rstvr d a b) :=
  .inr fun _ => ⟨_, op_rstvr d a b, congr3 Instr.rstvr (fD_R ..) (fA_R ..) (fB_R ..)⟩
theorem op_gstat (d : Reg) : opOf (encode (.gstat d)) = some .gstat := by
  show opOf (fmtR 0x72#7 d 0#7 0#7 4#4) = _; unfold opOf; rw [fOp_R]; show opOf72 _ = _; unfold opOf72; rw [fFn_R]; rfl
theorem Encoding.gstat (d : Reg) : Encoding.Statement (.gstat d) :=
  .inr fun _ => ⟨_, op_gstat d, congr1 Instr.gstat (fD_R ..)⟩
theorem op_exit : opOf (encode (.exit)) = some .exit := by
  show opOf (fmtR 0x78#7 0#7 0#7 0#7 0#4) = _; unfold opOf; rw [fOp_R]; show opOf78 _ = _; unfold opOf78; rw [fFn_R]; rfl
theorem Encoding.exit : Encoding.Statement (.exit) :=
  .inr fun _ => ⟨_, op_exit, rfl⟩
theorem op_eret : opOf (encode (.eret)) = some .eret := by
  show opOf (fmtR 0x78#7 0#7 0#7 0#7 1#4) = _; unfold opOf; rw [fOp_R]; show opOf78 _ = _; unfold opOf78; rw [fFn_R]; rfl
theorem Encoding.eret : Encoding.Statement (.eret) :=
  .inr fun _ => ⟨_, op_eret, rfl⟩
theorem op_mfs (d : Reg) (a : Reg) (b : Reg) : opOf (encode (.mfs d a b)) = some .mfs := by
  show opOf (fmtR 0x78#7 d a b 2#4) = _; unfold opOf; rw [fOp_R]; show opOf78 _ = _; unfold opOf78; rw [fFn_R]; rfl
theorem Encoding.mfs (d : Reg) (a : Reg) (b : Reg) : Encoding.Statement (.mfs d a b) :=
  .inr fun _ => ⟨_, op_mfs d a b, congr3 Instr.mfs (fD_R ..) (fA_R ..) (fB_R ..)⟩
theorem op_mts (d : Reg) (a : Reg) (b : Reg) (h : Instr.ownRow (.mts d a b) = true) : opOf (encode (.mts d a b)) = some .mts := by
  show opOf (fmtR 0x78#7 d a b 3#4) = _; unfold opOf; rw [fOp_R]; show opOf78 _ = _; unfold opOf78; rw [fFn_R]
  rw [fA_R, fB_R]; simp only [Instr.ownRow, List.contains_cons, List.contains_nil, Bool.or_false, Bool.not_eq_true', Bool.or_eq_false_iff] at h
  simp [h]
theorem Encoding.mts (d : Reg) (a : Reg) (b : Reg) : Encoding.Statement (.mts d a b) :=
  .inr fun h => ⟨_, op_mts d a b h, congr3 Instr.mts (fD_R ..) (fA_R ..) (fB_R ..)⟩
theorem op_mtsCause (d : Reg) : opOf (encode (.mtsCause d)) = some .mtsCause := by
  show opOf (fmtR 0x78#7 d 0#7 0x10#7 3#4) = _; unfold opOf; rw [fOp_R]; show opOf78 _ = _; unfold opOf78; rw [fFn_R]; rw [fA_R, fB_R]; rfl
theorem Encoding.mtsCause (d : Reg) : Encoding.Statement (.mtsCause d) :=
  .inr fun _ => ⟨_, op_mtsCause d, congr1 Instr.mtsCause (fD_R ..)⟩
theorem op_mtsScopetab (d : Reg) : opOf (encode (.mtsScopetab d)) = some .mtsScopetab := by
  show opOf (fmtR 0x78#7 d 0#7 0x40#7 3#4) = _; unfold opOf; rw [fOp_R]; show opOf78 _ = _; unfold opOf78; rw [fFn_R]; rw [fA_R, fB_R]; rfl
theorem Encoding.mtsScopetab (d : Reg) : Encoding.Statement (.mtsScopetab d) :=
  .inr fun _ => ⟨_, op_mtsScopetab d, congr1 Instr.mtsScopetab (fD_R ..)⟩
theorem op_mtsVbase (d : Reg) : opOf (encode (.mtsVbase d)) = some .mtsVbase := by
  show opOf (fmtR 0x78#7 d 0#7 0x21#7 3#4) = _; unfold opOf; rw [fOp_R]; show opOf78 _ = _; unfold opOf78; rw [fFn_R]; rw [fA_R, fB_R]; rfl
theorem Encoding.mtsVbase (d : Reg) : Encoding.Statement (.mtsVbase d) :=
  .inr fun _ => ⟨_, op_mtsVbase d, congr1 Instr.mtsVbase (fD_R ..)⟩
theorem op_mtsFmode (d : Reg) : opOf (encode (.mtsFmode d)) = some .mtsFmode := by
  show opOf (fmtR 0x78#7 d 0#7 0x30#7 3#4) = _; unfold opOf; rw [fOp_R]; show opOf78 _ = _; unfold opOf78; rw [fFn_R]; rw [fA_R, fB_R]; rfl
theorem Encoding.mtsFmode (d : Reg) : Encoding.Statement (.mtsFmode d) :=
  .inr fun _ => ⟨_, op_mtsFmode d, congr1 Instr.mtsFmode (fD_R ..)⟩
theorem op_mtsLattol (d : Reg) : opOf (encode (.mtsLattol d)) = some .mtsLattol := by
  show opOf (fmtR 0x78#7 d 1#7 0#7 3#4) = _; unfold opOf; rw [fOp_R]; show opOf78 _ = _; unfold opOf78; rw [fFn_R]; rw [fA_R, fB_R]; rfl
theorem Encoding.mtsLattol (d : Reg) : Encoding.Statement (.mtsLattol d) :=
  .inr fun _ => ⟨_, op_mtsLattol d, congr1 Instr.mtsLattol (fD_R ..)⟩
theorem op_ctxsave (a : Reg) (b : Reg) : opOf (encode (.ctxsave a b)) = some .ctxsave := by
  show opOf (fmtR 0x78#7 0#7 a b 4#4) = _; unfold opOf; rw [fOp_R]; show opOf78 _ = _; unfold opOf78; rw [fFn_R]; rfl
theorem Encoding.ctxsave (a : Reg) (b : Reg) : Encoding.Statement (.ctxsave a b) :=
  .inr fun _ => ⟨_, op_ctxsave a b, congr2 Instr.ctxsave (fA_R ..) (fB_R ..)⟩
theorem op_ctxload (a : Reg) (b : Reg) : opOf (encode (.ctxload a b)) = some .ctxload := by
  show opOf (fmtR 0x78#7 0#7 a b 5#4) = _; unfold opOf; rw [fOp_R]; show opOf78 _ = _; unfold opOf78; rw [fFn_R]; rfl
theorem Encoding.ctxload (a : Reg) (b : Reg) : Encoding.Statement (.ctxload a b) :=
  .inr fun _ => ⟨_, op_ctxload a b, congr2 Instr.ctxload (fA_R ..) (fB_R ..)⟩
theorem op_notify (a : Reg) : opOf (encode (.notify a)) = some .notify := by
  show opOf (fmtR 0x78#7 0#7 a 0#7 6#4) = _; unfold opOf; rw [fOp_R]; show opOf78 _ = _; unfold opOf78; rw [fFn_R]; rfl
theorem Encoding.notify (a : Reg) : Encoding.Statement (.notify a) :=
  .inr fun _ => ⟨_, op_notify a, congr1 Instr.notify (fA_R ..)⟩
theorem op_preempt (a : Reg) : opOf (encode (.preempt a)) = some .preempt := by
  show opOf (fmtR 0x78#7 0#7 a 0#7 7#4) = _; unfold opOf; rw [fOp_R]; show opOf78 _ = _; unfold opOf78; rw [fFn_R]; rfl
theorem Encoding.preempt (a : Reg) : Encoding.Statement (.preempt a) :=
  .inr fun _ => ⟨_, op_preempt a, congr1 Instr.preempt (fA_R ..)⟩
theorem op_resume (a : Reg) : opOf (encode (.resume a)) = some .resume := by
  show opOf (fmtR 0x78#7 0#7 a 0#7 8#4) = _; unfold opOf; rw [fOp_R]; show opOf78 _ = _; unfold opOf78; rw [fFn_R]; rfl
theorem Encoding.resume (a : Reg) : Encoding.Statement (.resume a) :=
  .inr fun _ => ⟨_, op_resume a, congr1 Instr.resume (fA_R ..)⟩
theorem op_digchk (d : Reg) : opOf (encode (.digchk d)) = some .digchk := by
  show opOf (fmtR 0x78#7 d 0#7 0#7 9#4) = _; unfold opOf; rw [fOp_R]; show opOf78 _ = _; unfold opOf78; rw [fFn_R]; rfl
theorem Encoding.digchk (d : Reg) : Encoding.Statement (.digchk d) :=
  .inr fun _ => ⟨_, op_digchk d, congr1 Instr.digchk (fD_R ..)⟩
theorem op_halt : opOf (encode (.halt)) = some .halt := by
  show opOf (fmtR 0x78#7 0#7 0#7 0#7 0xa#4) = _; unfold opOf; rw [fOp_R]; show opOf78 _ = _; unfold opOf78; rw [fFn_R]; rfl
theorem Encoding.halt : Encoding.Statement (.halt) :=
  .inr fun _ => ⟨_, op_halt, rfl⟩
theorem Encoding.loadCompletion (req : Nat) (data : Bytes) : Encoding.Statement (.loadCompletion req data) := .inl rfl
theorem Encoding.parkedStreamRelease (t : Nat) (q : Strm) : Encoding.Statement (.parkedStreamRelease t q) := .inl rfl
theorem Encoding.waitaWake (t : Nat) : Encoding.Statement (.waitaWake t) := .inl rfl
theorem Encoding.vwaitWake (t : Nat) : Encoding.Statement (.vwaitWake t) := .inl rfl
theorem Encoding.bwaitWake (t : Nat) : Encoding.Statement (.bwaitWake t) := .inl rfl
theorem Encoding.bwaitTimeout (t : Nat) : Encoding.Statement (.bwaitTimeout t) := .inl rfl
theorem Encoding.qdeadDetection (t : Nat) : Encoding.Statement (.qdeadDetection t) := .inl rfl
theorem Encoding.outboundChunkEntry (t : Nat) : Encoding.Statement (.outboundChunkEntry t) := .inl rfl
theorem Encoding.streamTransferCompletion (t : Nat) (k : Nat) : Encoding.Statement (.streamTransferCompletion t k) := .inl rfl
theorem Encoding.elementGroupStart (t : Nat) (e : Nat) : Encoding.Statement (.elementGroupStart t e) := .inl rfl
theorem Encoding.matrixRowProcessing (t : Nat) : Encoding.Statement (.matrixRowProcessing t) := .inl rfl
theorem Encoding.tileFill (t : Nat) (slot : Nat) : Encoding.Statement (.tileFill t slot) := .inl rfl
theorem Encoding.copyPiece (t : Nat) (k : Nat) : Encoding.Statement (.copyPiece t k) := .inl rfl
theorem Encoding.copyCompletion (t : Nat) (k : Nat) : Encoding.Statement (.copyCompletion t k) := .inl rfl
theorem Encoding.lateEngineFault (t : Nat) (q : Strm) : Encoding.Statement (.lateEngineFault t q) := .inl rfl
theorem Encoding.svopPass (t : Nat) : Encoding.Statement (.svopPass t) := .inl rfl
theorem Encoding.mailboxArrival (k : Nat) : Encoding.Statement (.mailboxArrival k) := .inl rfl
theorem Encoding.remoteStoreAnswer (k : Nat) (nack : Nat) : Encoding.Statement (.remoteStoreAnswer k nack) := .inl rfl
theorem Encoding.nameForwardingExpiry (slot : Nat) : Encoding.Statement (.nameForwardingExpiry slot) := .inl rfl
theorem Encoding.atomicLeaseExpiry (line : Nat) : Encoding.Statement (.atomicLeaseExpiry line) := .inl rfl
theorem Encoding.atomicSiteReturnNear (line : Nat) : Encoding.Statement (.atomicSiteReturnNear line) := .inl rfl
theorem Encoding.stampSweep : Encoding.Statement (.stampSweep) := .inl rfl
theorem Encoding.conflictConfirmation (t : Nat) : Encoding.Statement (.conflictConfirmation t) := .inl rfl
theorem Encoding.threadStopComplete (t : Nat) : Encoding.Statement (.threadStopComplete t) := .inl rfl
theorem Encoding.noticeDelivery (p : Nat) : Encoding.Statement (.noticeDelivery p) := .inl rfl
theorem Encoding.budgetExpiry (t : Nat) : Encoding.Statement (.budgetExpiry t) := .inl rfl
theorem Encoding.intg (t : Nat) : Encoding.Statement (.intg t) := .inl rfl
theorem Encoding.deverr (t : Nat) (q : Strm) (unit : BitVec 8) (va : BitVec 55) : Encoding.Statement (.deverr t q unit va) := .inl rfl
theorem Encoding.streamEnd (t : Nat) (q : Strm) : Encoding.Statement (.streamEnd t q) := .inl rfl
theorem Encoding.dependencyWordRead (p : Nat) (q : Nat) : Encoding.Statement (.dependencyWordRead p q) := .inl rfl
theorem Encoding.launchDispatch (p : Nat) : Encoding.Statement (.launchDispatch p) := .inl rfl
theorem Encoding.launchStaging (p : Nat) : Encoding.Statement (.launchStaging p) := .inl rfl
theorem Encoding.stagedLaunchStart (p : Nat) : Encoding.Statement (.stagedLaunchStart p) := .inl rfl
theorem Encoding.gangStop (p : Nat) : Encoding.Statement (.gangStop p) := .inl rfl
theorem Encoding.gangResume (p : Nat) : Encoding.Statement (.gangResume p) := .inl rfl
theorem Encoding.selfTestProduct (core : Nat) (bad : BitVec 12) : Encoding.Statement (.selfTestProduct core bad) := .inl rfl
theorem Encoding.spareReplacement (core : Nat) : Encoding.Statement (.spareReplacement core) := .inl rfl
theorem Encoding.invalidationRequest (p : Nat) : Encoding.Statement (.invalidationRequest p) := .inl rfl
theorem Encoding.invalidationRetire (p : Nat) : Encoding.Statement (.invalidationRetire p) := .inl rfl
theorem Encoding.replicaFill (p : Nat) (page : Nat) (data : Bytes) : Encoding.Statement (.replicaFill p page data) := .inl rfl
theorem Encoding.migration (p : Nat) (page : Nat) (data : Bytes) : Encoding.Statement (.migration p page data) := .inl rfl
theorem Encoding.fabricReadRequest (src : ReqFrom) (key : BitVec 16) (pa : Nat) (n : Nat) : Encoding.Statement (.fabricReadRequest src key pa n) := .inl rfl
theorem Encoding.fabricWriteRequest (src : ReqFrom) (key : BitVec 16) (pa : Nat) (data : Bytes) : Encoding.Statement (.fabricWriteRequest src key pa data) := .inl rfl
theorem Encoding.fabricAtomicRequest (src : ReqFrom) (key : BitVec 16) (pa : Nat) (op : RmwOp) (operand : BitVec 64) (expect : BitVec 64) : Encoding.Statement (.fabricAtomicRequest src key pa op operand expect) := .inl rfl
theorem Encoding.fabricNack (req : Nat) (cause : Nat) : Encoding.Statement (.fabricNack req cause) := .inl rfl
theorem Encoding.fabricRequestTimeout (req : Nat) : Encoding.Statement (.fabricRequestTimeout req) := .inl rfl
theorem Encoding.multicastCopyAnswer (req : Nat) (peer : BitVec 10) (cause : Nat) : Encoding.Statement (.multicastCopyAnswer req peer cause) := .inl rfl
theorem Encoding.redContribution (src : ReqFrom) (key : BitVec 16) (c : RedMsg) : Encoding.Statement (.redContribution src key c) := .inl rfl
theorem Encoding.redRoundTimeout (p : Nat) (pa : Nat) : Encoding.Statement (.redRoundTimeout p pa) := .inl rfl
theorem Encoding.linkFailure (station : BitVec 4) : Encoding.Statement (.linkFailure station) := .inl rfl
theorem Encoding.hostAtomicOp (p : HostFrom) (va : BitVec 64) (op : RmwOp) (operand : BitVec 64) (expect : BitVec 64) : Encoding.Statement (.hostAtomicOp p va op operand expect) := .inl rfl
theorem Encoding.hostRequest (vf : Nat) (ideT : Bool) (wr : HostOp) : Encoding.Statement (.hostRequest vf ideT wr) := .inl rfl
theorem Encoding.scrub (unit : Nat) : Encoding.Statement (.scrub unit) := .inl rfl
theorem Encoding.wearUpdate (die : Nat) (months : BitVec 16) (conf : BitVec 8) (worst : BitVec 4) : Encoding.Statement (.wearUpdate die months conf worst) := .inl rfl
theorem Encoding.thermalLimit : Encoding.Statement (.thermalLimit) := .inl rfl
theorem Encoding.thermalReset (b : BootInput) : Encoding.Statement (.thermalReset b) := .inl rfl
theorem Encoding.deviceReset (b : BootInput) : Encoding.Statement (.deviceReset b) := .inl rfl
theorem Encoding.idleEntry : Encoding.Statement (.idleEntry) := .inl rfl
theorem Encoding.idleWake : Encoding.Statement (.idleWake) := .inl rfl
theorem Encoding.registerWrite (off : Nat) (v : BitVec 64) : Encoding.Statement (.registerWrite off v) := .inl rfl
theorem Encoding.eccstatWrite (v : BitVec 64) : Encoding.Statement (.eccstatWrite v) := .inl rfl
theorem Encoding.pwrWrite (v : BitVec 64) : Encoding.Statement (.pwrWrite v) := .inl rfl
theorem Encoding.lattolMirrorWrite (v : BitVec 64) : Encoding.Statement (.lattolMirrorWrite v) := .inl rfl
theorem Encoding.wearWrite (die : Nat) (v : BitVec 64) : Encoding.Statement (.wearWrite die v) := .inl rfl
theorem Encoding.fwstageWrite (v : BitVec 64) : Encoding.Statement (.fwstageWrite v) := .inl rfl
theorem Encoding.partitionCreate (c : PartReq) : Encoding.Statement (.partitionCreate c) := .inl rfl
theorem Encoding.functionLevelReset (vf : Nat) : Encoding.Statement (.functionLevelReset vf) := .inl rfl
theorem Encoding.configWriteLocked (vf : Nat) : Encoding.Statement (.configWriteLocked vf) := .inl rfl
theorem Encoding.lockInterfaceRequest (vf : Nat) (m : SpdmMsg) : Encoding.Statement (.lockInterfaceRequest vf m) := .inl rfl
theorem Encoding.startInterfaceRequest (vf : Nat) (m : SpdmMsg) : Encoding.Statement (.startInterfaceRequest vf m) := .inl rfl
theorem Encoding.stopInterfaceRequest (vf : Nat) (m : SpdmMsg) : Encoding.Statement (.stopInterfaceRequest vf m) := .inl rfl
theorem Encoding.getVersion (fn : Nat) (m : SpdmMsg) : Encoding.Statement (.getVersion fn m) := .inl rfl
theorem Encoding.getCapabilities (fn : Nat) (m : SpdmMsg) : Encoding.Statement (.getCapabilities fn m) := .inl rfl
theorem Encoding.negotiateAlgorithms (fn : Nat) (m : SpdmMsg) : Encoding.Statement (.negotiateAlgorithms fn m) := .inl rfl
theorem Encoding.getDigests (fn : Nat) (m : SpdmMsg) : Encoding.Statement (.getDigests fn m) := .inl rfl
theorem Encoding.getCertificate (fn : Nat) (m : SpdmMsg) : Encoding.Statement (.getCertificate fn m) := .inl rfl
theorem Encoding.challenge (fn : Nat) (m : SpdmMsg) : Encoding.Statement (.challenge fn m) := .inl rfl
theorem Encoding.getMeasurements (fn : Nat) (m : SpdmMsg) : Encoding.Statement (.getMeasurements fn m) := .inl rfl
theorem Encoding.keyExchange (fn : Nat) (m : SpdmMsg) : Encoding.Statement (.keyExchange fn m) := .inl rfl
theorem Encoding.finish (fn : Nat) (m : SpdmMsg) : Encoding.Statement (.finish fn m) := .inl rfl
theorem Encoding.keyUpdate (fn : Nat) (m : SpdmMsg) : Encoding.Statement (.keyUpdate fn m) := .inl rfl
theorem Encoding.heartbeat (fn : Nat) (m : SpdmMsg) : Encoding.Statement (.heartbeat fn m) := .inl rfl
theorem Encoding.endSession (fn : Nat) (m : SpdmMsg) : Encoding.Statement (.endSession fn m) := .inl rfl
theorem Encoding.vendorChallenge (fn : Nat) (m : SpdmMsg) : Encoding.Statement (.vendorChallenge fn m) := .inl rfl
theorem Encoding.debugKeyHashBind (vf : Nat) (m : SpdmMsg) (hash : BitVec 256) : Encoding.Statement (.debugKeyHashBind vf m hash) := .inl rfl
theorem Encoding.debugPolicy (vf : Nat) (m : SpdmMsg) (now : BitVec 64) : Encoding.Statement (.debugPolicy vf m now) := .inl rfl
theorem Encoding.debugPolicyExpiry (p : Nat) : Encoding.Statement (.debugPolicyExpiry p) := .inl rfl
theorem Encoding.recoveryImageWrite (image : Bytes) : Encoding.Statement (.recoveryImageWrite image) := .inl rfl
theorem Encoding.ill (w : BitVec 32) : Encoding.Statement (.ill w) := .inl rfl
theorem Encoding.elementGroupWrite (t : Nat) (e : Nat) : Encoding.Statement (.elementGroupWrite t e) := .inl rfl
theorem Encoding.dieTemperatureFall : Encoding.Statement (.dieTemperatureFall) := .inl rfl
theorem Encoding.sharedCoreTimeSlice (phys : Nat) : Encoding.Statement (.sharedCoreTimeSlice phys) := .inl rfl

end Sys2Proof.Laws
end

