-- ==== Sys2Proof/Laws/State.lean ====
section
/-! SUPPORT. What each update of the state leaves as it was, field by field, so that no proof unfolds a record update. -/

namespace Sys2Proof.Machine

/-! ## The thread in focus changed -/

@[simp] theorem State.updTh_th (s : State) (f : Thread → Thread) : (s.updTh f).th = f s.th := rfl
@[simp] theorem State.updTh_strm (s : State) (f : Thread → Thread) : (s.updTh f).strm = s.strm := rfl
@[simp] theorem State.updTh_others (s : State) (f : Thread → Thread) : (s.updTh f).others = s.others := rfl
@[simp] theorem State.updTh_agenda (s : State) (f : Thread → Thread) : (s.updTh f).agenda = s.agenda := rfl
@[simp] theorem State.updTh_beat (s : State) (f : Thread → Thread) : (s.updTh f).beat = s.beat := rfl
@[simp] theorem State.updTh_clock (s : State) (f : Thread → Thread) : (s.updTh f).clock = s.clock := rfl
@[simp] theorem State.updTh_cycles (s : State) (f : Thread → Thread) : (s.updTh f).cycles = s.cycles := rfl
@[simp] theorem State.updTh_mem (s : State) (f : Thread → Thread) : (s.updTh f).mem = s.mem := rfl
@[simp] theorem State.updTh_uce (s : State) (f : Thread → Thread) : (s.updTh f).uce = s.uce := rfl
@[simp] theorem State.updTh_parts (s : State) (f : Thread → Thread) : (s.updTh f).parts = s.parts := rfl
@[simp] theorem State.updTh_gangs (s : State) (f : Thread → Thread) : (s.updTh f).gangs = s.gangs := rfl
@[simp] theorem State.updTh_launches (s : State) (f : Thread → Thread) : (s.updTh f).launches = s.launches := rfl
@[simp] theorem State.updTh_lastSerial (s : State) (f : Thread → Thread) : (s.updTh f).lastSerial = s.lastSerial := rfl
@[simp] theorem State.updTh_names (s : State) (f : Thread → Thread) : (s.updTh f).names = s.names := rfl
@[simp] theorem State.updTh_sites (s : State) (f : Thread → Thread) : (s.updTh f).sites = s.sites := rfl
@[simp] theorem State.updTh_stamps (s : State) (f : Thread → Thread) : (s.updTh f).stamps = s.stamps := rfl
@[simp] theorem State.updTh_stampUse (s : State) (f : Thread → Thread) : (s.updTh f).stampUse = s.stampUse := rfl
@[simp] theorem State.updTh_tlb (s : State) (f : Thread → Thread) : (s.updTh f).tlb = s.tlb := rfl
@[simp] theorem State.updTh_frames (s : State) (f : Thread → Thread) : (s.updTh f).frames = s.frames := rfl
@[simp] theorem State.updTh_reqs (s : State) (f : Thread → Thread) : (s.updTh f).reqs = s.reqs := rfl
@[simp] theorem State.updTh_nextReq (s : State) (f : Thread → Thread) : (s.updTh f).nextReq = s.nextReq := rfl
@[simp] theorem State.updTh_sent (s : State) (f : Thread → Thread) : (s.updTh f).sent = s.sent := rfl
@[simp] theorem State.updTh_drawn (s : State) (f : Thread → Thread) : (s.updTh f).drawn = s.drawn := rfl
@[simp] theorem State.updTh_rstores (s : State) (f : Thread → Thread) : (s.updTh f).rstores = s.rstores := rfl
@[simp] theorem State.updTh_ranswers (s : State) (f : Thread → Thread) : (s.updTh f).ranswers = s.ranswers := rfl
@[simp] theorem State.updTh_rounds (s : State) (f : Thread → Thread) : (s.updTh f).rounds = s.rounds := rfl
@[simp] theorem State.updTh_flushed (s : State) (f : Thread → Thread) : (s.updTh f).flushed = s.flushed := rfl
@[simp] theorem State.updTh_failedLinks (s : State) (f : Thread → Thread) : (s.updTh f).failedLinks = s.failedLinks := rfl
@[simp] theorem State.updTh_cores (s : State) (f : Thread → Thread) : (s.updTh f).cores = s.cores := rfl
@[simp] theorem State.updTh_counters (s : State) (f : Thread → Thread) : (s.updTh f).counters = s.counters := rfl
@[simp] theorem State.updTh_rowq (s : State) (f : Thread → Thread) : (s.updTh f).rowq = s.rowq := rfl
@[simp] theorem State.updTh_remap (s : State) (f : Thread → Thread) : (s.updTh f).remap = s.remap := rfl
@[simp] theorem State.updTh_shareTurn (s : State) (f : Thread → Thread) : (s.updTh f).shareTurn = s.shareTurn := rfl
@[simp] theorem State.updTh_serTurn (s : State) (f : Thread → Thread) : (s.updTh f).serTurn = s.serTurn := rfl
@[simp] theorem State.updTh_laneTurn (s : State) (f : Thread → Thread) : (s.updTh f).laneTurn = s.laneTurn := rfl
@[simp] theorem State.updTh_health (s : State) (f : Thread → Thread) : (s.updTh f).health = s.health := rfl
@[simp] theorem State.updTh_trust (s : State) (f : Thread → Thread) : (s.updTh f).trust = s.trust := rfl
@[simp] theorem State.updTh_hostLog (s : State) (f : Thread → Thread) : (s.updTh f).hostLog = s.hostLog := rfl

/-! ## The stream in focus changed -/

@[simp] theorem State.updCur_th (s : State) (f : Stream → Stream) : (s.updCur f).th = s.th.updStr s.strm f := rfl
@[simp] theorem State.updCur_strm (s : State) (f : Stream → Stream) : (s.updCur f).strm = s.strm := rfl
@[simp] theorem State.updCur_others (s : State) (f : Stream → Stream) : (s.updCur f).others = s.others := rfl
@[simp] theorem State.updCur_agenda (s : State) (f : Stream → Stream) : (s.updCur f).agenda = s.agenda := rfl
@[simp] theorem State.updCur_beat (s : State) (f : Stream → Stream) : (s.updCur f).beat = s.beat := rfl
@[simp] theorem State.updCur_clock (s : State) (f : Stream → Stream) : (s.updCur f).clock = s.clock := rfl
@[simp] theorem State.updCur_cycles (s : State) (f : Stream → Stream) : (s.updCur f).cycles = s.cycles := rfl
@[simp] theorem State.updCur_mem (s : State) (f : Stream → Stream) : (s.updCur f).mem = s.mem := rfl
@[simp] theorem State.updCur_uce (s : State) (f : Stream → Stream) : (s.updCur f).uce = s.uce := rfl
@[simp] theorem State.updCur_parts (s : State) (f : Stream → Stream) : (s.updCur f).parts = s.parts := rfl
@[simp] theorem State.updCur_gangs (s : State) (f : Stream → Stream) : (s.updCur f).gangs = s.gangs := rfl
@[simp] theorem State.updCur_launches (s : State) (f : Stream → Stream) : (s.updCur f).launches = s.launches := rfl
@[simp] theorem State.updCur_lastSerial (s : State) (f : Stream → Stream) : (s.updCur f).lastSerial = s.lastSerial := rfl
@[simp] theorem State.updCur_names (s : State) (f : Stream → Stream) : (s.updCur f).names = s.names := rfl
@[simp] theorem State.updCur_sites (s : State) (f : Stream → Stream) : (s.updCur f).sites = s.sites := rfl
@[simp] theorem State.updCur_stamps (s : State) (f : Stream → Stream) : (s.updCur f).stamps = s.stamps := rfl
@[simp] theorem State.updCur_stampUse (s : State) (f : Stream → Stream) : (s.updCur f).stampUse = s.stampUse := rfl
@[simp] theorem State.updCur_tlb (s : State) (f : Stream → Stream) : (s.updCur f).tlb = s.tlb := rfl
@[simp] theorem State.updCur_frames (s : State) (f : Stream → Stream) : (s.updCur f).frames = s.frames := rfl
@[simp] theorem State.updCur_reqs (s : State) (f : Stream → Stream) : (s.updCur f).reqs = s.reqs := rfl
@[simp] theorem State.updCur_nextReq (s : State) (f : Stream → Stream) : (s.updCur f).nextReq = s.nextReq := rfl
@[simp] theorem State.updCur_sent (s : State) (f : Stream → Stream) : (s.updCur f).sent = s.sent := rfl
@[simp] theorem State.updCur_drawn (s : State) (f : Stream → Stream) : (s.updCur f).drawn = s.drawn := rfl
@[simp] theorem State.updCur_rstores (s : State) (f : Stream → Stream) : (s.updCur f).rstores = s.rstores := rfl
@[simp] theorem State.updCur_ranswers (s : State) (f : Stream → Stream) : (s.updCur f).ranswers = s.ranswers := rfl
@[simp] theorem State.updCur_rounds (s : State) (f : Stream → Stream) : (s.updCur f).rounds = s.rounds := rfl
@[simp] theorem State.updCur_flushed (s : State) (f : Stream → Stream) : (s.updCur f).flushed = s.flushed := rfl
@[simp] theorem State.updCur_failedLinks (s : State) (f : Stream → Stream) : (s.updCur f).failedLinks = s.failedLinks := rfl
@[simp] theorem State.updCur_cores (s : State) (f : Stream → Stream) : (s.updCur f).cores = s.cores := rfl
@[simp] theorem State.updCur_counters (s : State) (f : Stream → Stream) : (s.updCur f).counters = s.counters := rfl
@[simp] theorem State.updCur_rowq (s : State) (f : Stream → Stream) : (s.updCur f).rowq = s.rowq := rfl
@[simp] theorem State.updCur_remap (s : State) (f : Stream → Stream) : (s.updCur f).remap = s.remap := rfl
@[simp] theorem State.updCur_shareTurn (s : State) (f : Stream → Stream) : (s.updCur f).shareTurn = s.shareTurn := rfl
@[simp] theorem State.updCur_serTurn (s : State) (f : Stream → Stream) : (s.updCur f).serTurn = s.serTurn := rfl
@[simp] theorem State.updCur_laneTurn (s : State) (f : Stream → Stream) : (s.updCur f).laneTurn = s.laneTurn := rfl
@[simp] theorem State.updCur_health (s : State) (f : Stream → Stream) : (s.updCur f).health = s.health := rfl
@[simp] theorem State.updCur_trust (s : State) (f : Stream → Stream) : (s.updCur f).trust = s.trust := rfl
@[simp] theorem State.updCur_hostLog (s : State) (f : Stream → Stream) : (s.updCur f).hostLog = s.hostLog := rfl

/-! ## A stream of a thread changed -/

@[simp] theorem Thread.updStr_lcore (t : Thread) (q : Strm) (f : Stream → Stream) : (t.updStr q f).lcore = t.lcore := by cases q <;> rfl
@[simp] theorem Thread.updStr_slot (t : Thread) (q : Strm) (f : Stream → Stream) : (t.updStr q f).slot = t.slot := by cases q <;> rfl
@[simp] theorem Thread.updStr_status (t : Thread) (q : Strm) (f : Stream → Stream) : (t.updStr q f).status = t.status := by cases q <;> rfl
@[simp] theorem Thread.updStr_part (t : Thread) (q : Strm) (f : Stream → Stream) : (t.updStr q f).part = t.part := by cases q <;> rfl
@[simp] theorem Thread.updStr_serial (t : Thread) (q : Strm) (f : Stream → Stream) : (t.updStr q f).serial = t.serial := by cases q <;> rfl
@[simp] theorem Thread.updStr_index (t : Thread) (q : Strm) (f : Stream → Stream) : (t.updStr q f).index = t.index := by cases q <;> rfl
@[simp] theorem Thread.updStr_a_a (t : Thread) (f : Stream → Stream) : (t.updStr .a f).a = f t.a := rfl
@[simp] theorem Thread.updStr_x_a (t : Thread) (f : Stream → Stream) : (t.updStr .x f).a = t.a := rfl
@[simp] theorem Thread.updStr_x_x (t : Thread) (f : Stream → Stream) : (t.updStr .x f).x = f t.x := rfl
@[simp] theorem Thread.updStr_a_x (t : Thread) (f : Stream → Stream) : (t.updStr .a f).x = t.x := rfl
@[simp] theorem Thread.updStr_areg (t : Thread) (q : Strm) (f : Stream → Stream) : (t.updStr q f).areg = t.areg := by cases q <;> rfl
@[simp] theorem Thread.updStr_stride (t : Thread) (q : Strm) (f : Stream → Stream) : (t.updStr q f).stride = t.stride := by cases q <;> rfl
@[simp] theorem Thread.updStr_scope (t : Thread) (q : Strm) (f : Stream → Stream) : (t.updStr q f).scope = t.scope := by cases q <;> rfl
@[simp] theorem Thread.updStr_segBase (t : Thread) (q : Strm) (f : Stream → Stream) : (t.updStr q f).segBase = t.segBase := by cases q <;> rfl
@[simp] theorem Thread.updStr_segSize (t : Thread) (q : Strm) (f : Stream → Stream) : (t.updStr q f).segSize = t.segSize := by cases q <;> rfl
@[simp] theorem Thread.updStr_wbase (t : Thread) (q : Strm) (f : Stream → Stream) : (t.updStr q f).wbase = t.wbase := by cases q <;> rfl
@[simp] theorem Thread.updStr_vreg (t : Thread) (q : Strm) (f : Stream → Stream) : (t.updStr q f).vreg = t.vreg := by cases q <;> rfl
@[simp] theorem Thread.updStr_pred (t : Thread) (q : Strm) (f : Stream → Stream) : (t.updStr q f).pred = t.pred := by cases q <;> rfl
@[simp] theorem Thread.updStr_gpred (t : Thread) (q : Strm) (f : Stream → Stream) : (t.updStr q f).gpred = t.gpred := by cases q <;> rfl
@[simp] theorem Thread.updStr_fmask (t : Thread) (q : Strm) (f : Stream → Stream) : (t.updStr q f).fmask = t.fmask := by cases q <;> rfl
@[simp] theorem Thread.updStr_kind (t : Thread) (q : Strm) (f : Stream → Stream) : (t.updStr q f).kind = t.kind := by cases q <;> rfl
@[simp] theorem Thread.updStr_dom (t : Thread) (q : Strm) (f : Stream → Stream) : (t.updStr q f).dom = t.dom := by cases q <;> rfl
@[simp] theorem Thread.updStr_multi (t : Thread) (q : Strm) (f : Stream → Stream) : (t.updStr q f).multi = t.multi := by cases q <;> rfl
@[simp] theorem Thread.updStr_resume (t : Thread) (q : Strm) (f : Stream → Stream) : (t.updStr q f).resume = t.resume := by cases q <;> rfl
@[simp] theorem Thread.updStr_startIdx (t : Thread) (q : Strm) (f : Stream → Stream) : (t.updStr q f).startIdx = t.startIdx := by cases q <;> rfl
@[simp] theorem Thread.updStr_flying (t : Thread) (q : Strm) (f : Stream → Stream) : (t.updStr q f).flying = t.flying := by cases q <;> rfl
@[simp] theorem Thread.updStr_strips (t : Thread) (q : Strm) (f : Stream → Stream) : (t.updStr q f).strips = t.strips := by cases q <;> rfl
@[simp] theorem Thread.updStr_tree (t : Thread) (q : Strm) (f : Stream → Stream) : (t.updStr q f).tree = t.tree := by cases q <;> rfl
@[simp] theorem Thread.updStr_tol (t : Thread) (q : Strm) (f : Stream → Stream) : (t.updStr q f).tol = t.tol := by cases q <;> rfl
@[simp] theorem Thread.updStr_freg (t : Thread) (q : Strm) (f : Stream → Stream) : (t.updStr q f).freg = t.freg := by cases q <;> rfl
@[simp] theorem Thread.updStr_coefQuota (t : Thread) (q : Strm) (f : Stream → Stream) : (t.updStr q f).coefQuota = t.coefQuota := by cases q <;> rfl
@[simp] theorem Thread.updStr_race (t : Thread) (q : Strm) (f : Stream → Stream) : (t.updStr q f).race = t.race := by cases q <;> rfl
@[simp] theorem Thread.updStr_bound (t : Thread) (q : Strm) (f : Stream → Stream) : (t.updStr q f).bound = t.bound := by cases q <;> rfl
@[simp] theorem Thread.updStr_boundSize (t : Thread) (q : Strm) (f : Stream → Stream) : (t.updStr q f).boundSize = t.boundSize := by cases q <;> rfl
@[simp] theorem Thread.updStr_acs (t : Thread) (q : Strm) (f : Stream → Stream) : (t.updStr q f).acs = t.acs := by cases q <;> rfl
@[simp] theorem Thread.updStr_acsBase (t : Thread) (q : Strm) (f : Stream → Stream) : (t.updStr q f).acsBase = t.acsBase := by cases q <;> rfl
@[simp] theorem Thread.updStr_acsSize (t : Thread) (q : Strm) (f : Stream → Stream) : (t.updStr q f).acsSize = t.acsSize := by cases q <;> rfl
@[simp] theorem Thread.updStr_boundBase (t : Thread) (q : Strm) (f : Stream → Stream) : (t.updStr q f).boundBase = t.boundBase := by cases q <;> rfl
@[simp] theorem Thread.updStr_fifo0 (t : Thread) (q : Strm) (f : Stream → Stream) : (t.updStr q f).fifo0 = t.fifo0 := by cases q <;> rfl
@[simp] theorem Thread.updStr_fifo1 (t : Thread) (q : Strm) (f : Stream → Stream) : (t.updStr q f).fifo1 = t.fifo1 := by cases q <;> rfl
@[simp] theorem Thread.updStr_slot0 (t : Thread) (q : Strm) (f : Stream → Stream) : (t.updStr q f).slot0 = t.slot0 := by cases q <;> rfl
@[simp] theorem Thread.updStr_slot1 (t : Thread) (q : Strm) (f : Stream → Stream) : (t.updStr q f).slot1 = t.slot1 := by cases q <;> rfl
@[simp] theorem Thread.updStr_fill0 (t : Thread) (q : Strm) (f : Stream → Stream) : (t.updStr q f).fill0 = t.fill0 := by cases q <;> rfl
@[simp] theorem Thread.updStr_fill1 (t : Thread) (q : Strm) (f : Stream → Stream) : (t.updStr q f).fill1 = t.fill1 := by cases q <;> rfl
@[simp] theorem Thread.updStr_minv (t : Thread) (q : Strm) (f : Stream → Stream) : (t.updStr q f).minv = t.minv := by cases q <;> rfl
@[simp] theorem Thread.updStr_movf (t : Thread) (q : Strm) (f : Stream → Stream) : (t.updStr q f).movf = t.movf := by cases q <;> rfl
@[simp] theorem Thread.updStr_miovf (t : Thread) (q : Strm) (f : Stream → Stream) : (t.updStr q f).miovf = t.miovf := by cases q <;> rfl
@[simp] theorem Thread.updStr_mseq (t : Thread) (q : Strm) (f : Stream → Stream) : (t.updStr q f).mseq = t.mseq := by cases q <;> rfl
@[simp] theorem Thread.updStr_q (t : Thread) (q : Strm) (f : Stream → Stream) : (t.updStr q f).q = t.q := by cases q <;> rfl
@[simp] theorem Thread.updStr_vs (t : Thread) (q : Strm) (f : Stream → Stream) : (t.updStr q f).vs = t.vs := by cases q <;> rfl
@[simp] theorem Thread.updStr_bind (t : Thread) (q : Strm) (f : Stream → Stream) : (t.updStr q f).bind = t.bind := by cases q <;> rfl
@[simp] theorem Thread.updStr_mbox (t : Thread) (q : Strm) (f : Stream → Stream) : (t.updStr q f).mbox = t.mbox := by cases q <;> rfl
@[simp] theorem Thread.updStr_hold (t : Thread) (q : Strm) (f : Stream → Stream) : (t.updStr q f).hold = t.hold := by cases q <;> rfl
@[simp] theorem Thread.updStr_gout (t : Thread) (q : Strm) (f : Stream → Stream) : (t.updStr q f).gout = t.gout := by cases q <;> rfl
@[simp] theorem Thread.updStr_gok (t : Thread) (q : Strm) (f : Stream → Stream) : (t.updStr q f).gok = t.gok := by cases q <;> rfl
@[simp] theorem Thread.updStr_gnack (t : Thread) (q : Strm) (f : Stream → Stream) : (t.updStr q f).gnack = t.gnack := by cases q <;> rfl
@[simp] theorem Thread.updStr_gcause (t : Thread) (q : Strm) (f : Stream → Stream) : (t.updStr q f).gcause = t.gcause := by cases q <;> rfl
@[simp] theorem Thread.updStr_grep (t : Thread) (q : Strm) (f : Stream → Stream) : (t.updStr q f).grep = t.grep := by cases q <;> rfl
@[simp] theorem Thread.updStr_estream (t : Thread) (q : Strm) (f : Stream → Stream) : (t.updStr q f).estream = t.estream := by cases q <;> rfl
@[simp] theorem Thread.updStr_eresume (t : Thread) (q : Strm) (f : Stream → Stream) : (t.updStr q f).eresume = t.eresume := by cases q <;> rfl
@[simp] theorem Thread.updStr_tvec (t : Thread) (q : Strm) (f : Stream → Stream) : (t.updStr q f).tvec = t.tvec := by cases q <;> rfl
@[simp] theorem Thread.updStr_mcword (t : Thread) (q : Strm) (f : Stream → Stream) : (t.updStr q f).mcword = t.mcword := by cases q <;> rfl
@[simp] theorem Thread.updStr_spilla (t : Thread) (q : Strm) (f : Stream → Stream) : (t.updStr q f).spilla = t.spilla := by cases q <;> rfl
@[simp] theorem Thread.updStr_spillx (t : Thread) (q : Strm) (f : Stream → Stream) : (t.updStr q f).spillx = t.spillx := by cases q <;> rfl
@[simp] theorem Thread.updStr_alcBase (t : Thread) (q : Strm) (f : Stream → Stream) : (t.updStr q f).alcBase = t.alcBase := by cases q <;> rfl
@[simp] theorem Thread.updStr_alcSize (t : Thread) (q : Strm) (f : Stream → Stream) : (t.updStr q f).alcSize = t.alcSize := by cases q <;> rfl
@[simp] theorem Thread.updStr_regions (t : Thread) (q : Strm) (f : Stream → Stream) : (t.updStr q f).regions = t.regions := by cases q <;> rfl
@[simp] theorem Thread.updStr_transfers (t : Thread) (q : Strm) (f : Stream → Stream) : (t.updStr q f).transfers = t.transfers := by cases q <;> rfl
@[simp] theorem Thread.updStr_copies (t : Thread) (q : Strm) (f : Stream → Stream) : (t.updStr q f).copies = t.copies := by cases q <;> rfl
@[simp] theorem Thread.updStr_xfers (t : Thread) (q : Strm) (f : Stream → Stream) : (t.updStr q f).xfers = t.xfers := by cases q <;> rfl
@[simp] theorem Thread.updStr_svcmds (t : Thread) (q : Strm) (f : Stream → Stream) : (t.updStr q f).svcmds = t.svcmds := by cases q <;> rfl
@[simp] theorem Thread.updStr_budget (t : Thread) (q : Strm) (f : Stream → Stream) : (t.updStr q f).budget = t.budget := by cases q <;> rfl
@[simp] theorem Thread.updStr_consumed (t : Thread) (q : Strm) (f : Stream → Stream) : (t.updStr q f).consumed = t.consumed := by cases q <;> rfl
@[simp] theorem Thread.updStr_leftGroup (t : Thread) (q : Strm) (f : Stream → Stream) : (t.updStr q f).leftGroup = t.leftGroup := by cases q <;> rfl
@[simp] theorem Thread.updStr_firstRow (t : Thread) (q : Strm) (f : Stream → Stream) : (t.updStr q f).firstRow = t.firstRow := by cases q <;> rfl
@[simp] theorem Thread.updStr_intg (t : Thread) (q : Strm) (f : Stream → Stream) : (t.updStr q f).intg = t.intg := by cases q <;> rfl
@[simp] theorem Thread.updStr_devErr (t : Thread) (q : Strm) (f : Stream → Stream) : (t.updStr q f).devErr = t.devErr := by cases q <;> rfl
@[simp] theorem Thread.updStr_confirm (t : Thread) (q : Strm) (f : Stream → Stream) : (t.updStr q f).confirm = t.confirm := by cases q <;> rfl
@[simp] theorem Thread.updStr_savedClock (t : Thread) (q : Strm) (f : Stream → Stream) : (t.updStr q f).savedClock = t.savedClock := by cases q <;> rfl
@[simp] theorem Thread.updStr_polled (t : Thread) (q : Strm) (f : Stream → Stream) : (t.updStr q f).polled = t.polled := by cases q <;> rfl
@[simp] theorem Thread.str_updStr (t : Thread) (q : Strm) (f : Stream → Stream) : (t.updStr q f).str q = f (t.str q) := by cases q <;> rfl
@[simp] theorem Thread.str_updStr_ne (t : Thread) {q r : Strm} (h : q ≠ r) (f : Stream → Stream) : (t.updStr q f).str r = t.str r := by cases q <;> cases r <;> simp_all [Thread.str, Thread.updStr]
@[simp] theorem State.cur_updCur (s : State) (f : Stream → Stream) : (s.updCur f).cur = f s.cur := Thread.str_updStr s.th s.strm f

/-! ## Thread.setQueue -/

@[simp] theorem Thread.setQueue_lcore (t : Thread) (n : Nat) (l : List Dword) : (t.setQueue n l).lcore = t.lcore := rfl
@[simp] theorem Thread.setQueue_slot (t : Thread) (n : Nat) (l : List Dword) : (t.setQueue n l).slot = t.slot := rfl
@[simp] theorem Thread.setQueue_status (t : Thread) (n : Nat) (l : List Dword) : (t.setQueue n l).status = t.status := rfl
@[simp] theorem Thread.setQueue_part (t : Thread) (n : Nat) (l : List Dword) : (t.setQueue n l).part = t.part := rfl
@[simp] theorem Thread.setQueue_serial (t : Thread) (n : Nat) (l : List Dword) : (t.setQueue n l).serial = t.serial := rfl
@[simp] theorem Thread.setQueue_index (t : Thread) (n : Nat) (l : List Dword) : (t.setQueue n l).index = t.index := rfl
@[simp] theorem Thread.setQueue_a (t : Thread) (n : Nat) (l : List Dword) : (t.setQueue n l).a = t.a := rfl
@[simp] theorem Thread.setQueue_x (t : Thread) (n : Nat) (l : List Dword) : (t.setQueue n l).x = t.x := rfl
@[simp] theorem Thread.setQueue_areg (t : Thread) (n : Nat) (l : List Dword) : (t.setQueue n l).areg = t.areg := rfl
@[simp] theorem Thread.setQueue_stride (t : Thread) (n : Nat) (l : List Dword) : (t.setQueue n l).stride = t.stride := rfl
@[simp] theorem Thread.setQueue_scope (t : Thread) (n : Nat) (l : List Dword) : (t.setQueue n l).scope = t.scope := rfl
@[simp] theorem Thread.setQueue_segBase (t : Thread) (n : Nat) (l : List Dword) : (t.setQueue n l).segBase = t.segBase := rfl
@[simp] theorem Thread.setQueue_segSize (t : Thread) (n : Nat) (l : List Dword) : (t.setQueue n l).segSize = t.segSize := rfl
@[simp] theorem Thread.setQueue_wbase (t : Thread) (n : Nat) (l : List Dword) : (t.setQueue n l).wbase = t.wbase := rfl
@[simp] theorem Thread.setQueue_vreg (t : Thread) (n : Nat) (l : List Dword) : (t.setQueue n l).vreg = t.vreg := rfl
@[simp] theorem Thread.setQueue_pred (t : Thread) (n : Nat) (l : List Dword) : (t.setQueue n l).pred = t.pred := rfl
@[simp] theorem Thread.setQueue_gpred (t : Thread) (n : Nat) (l : List Dword) : (t.setQueue n l).gpred = t.gpred := rfl
@[simp] theorem Thread.setQueue_fmask (t : Thread) (n : Nat) (l : List Dword) : (t.setQueue n l).fmask = t.fmask := rfl
@[simp] theorem Thread.setQueue_kind (t : Thread) (n : Nat) (l : List Dword) : (t.setQueue n l).kind = t.kind := rfl
@[simp] theorem Thread.setQueue_dom (t : Thread) (n : Nat) (l : List Dword) : (t.setQueue n l).dom = t.dom := rfl
@[simp] theorem Thread.setQueue_multi (t : Thread) (n : Nat) (l : List Dword) : (t.setQueue n l).multi = t.multi := rfl
@[simp] theorem Thread.setQueue_resume (t : Thread) (n : Nat) (l : List Dword) : (t.setQueue n l).resume = t.resume := rfl
@[simp] theorem Thread.setQueue_startIdx (t : Thread) (n : Nat) (l : List Dword) : (t.setQueue n l).startIdx = t.startIdx := rfl
@[simp] theorem Thread.setQueue_flying (t : Thread) (n : Nat) (l : List Dword) : (t.setQueue n l).flying = t.flying := rfl
@[simp] theorem Thread.setQueue_strips (t : Thread) (n : Nat) (l : List Dword) : (t.setQueue n l).strips = t.strips := rfl
@[simp] theorem Thread.setQueue_tree (t : Thread) (n : Nat) (l : List Dword) : (t.setQueue n l).tree = t.tree := rfl
@[simp] theorem Thread.setQueue_tol (t : Thread) (n : Nat) (l : List Dword) : (t.setQueue n l).tol = t.tol := rfl
@[simp] theorem Thread.setQueue_freg (t : Thread) (n : Nat) (l : List Dword) : (t.setQueue n l).freg = t.freg := rfl
@[simp] theorem Thread.setQueue_coefQuota (t : Thread) (n : Nat) (l : List Dword) : (t.setQueue n l).coefQuota = t.coefQuota := rfl
@[simp] theorem Thread.setQueue_race (t : Thread) (n : Nat) (l : List Dword) : (t.setQueue n l).race = t.race := rfl
@[simp] theorem Thread.setQueue_bound (t : Thread) (n : Nat) (l : List Dword) : (t.setQueue n l).bound = t.bound := rfl
@[simp] theorem Thread.setQueue_boundSize (t : Thread) (n : Nat) (l : List Dword) : (t.setQueue n l).boundSize = t.boundSize := rfl
@[simp] theorem Thread.setQueue_acs (t : Thread) (n : Nat) (l : List Dword) : (t.setQueue n l).acs = t.acs := rfl
@[simp] theorem Thread.setQueue_acsBase (t : Thread) (n : Nat) (l : List Dword) : (t.setQueue n l).acsBase = t.acsBase := rfl
@[simp] theorem Thread.setQueue_acsSize (t : Thread) (n : Nat) (l : List Dword) : (t.setQueue n l).acsSize = t.acsSize := rfl
@[simp] theorem Thread.setQueue_boundBase (t : Thread) (n : Nat) (l : List Dword) : (t.setQueue n l).boundBase = t.boundBase := rfl
@[simp] theorem Thread.setQueue_fifo0 (t : Thread) (n : Nat) (l : List Dword) : (t.setQueue n l).fifo0 = t.fifo0 := rfl
@[simp] theorem Thread.setQueue_fifo1 (t : Thread) (n : Nat) (l : List Dword) : (t.setQueue n l).fifo1 = t.fifo1 := rfl
@[simp] theorem Thread.setQueue_slot0 (t : Thread) (n : Nat) (l : List Dword) : (t.setQueue n l).slot0 = t.slot0 := rfl
@[simp] theorem Thread.setQueue_slot1 (t : Thread) (n : Nat) (l : List Dword) : (t.setQueue n l).slot1 = t.slot1 := rfl
@[simp] theorem Thread.setQueue_fill0 (t : Thread) (n : Nat) (l : List Dword) : (t.setQueue n l).fill0 = t.fill0 := rfl
@[simp] theorem Thread.setQueue_fill1 (t : Thread) (n : Nat) (l : List Dword) : (t.setQueue n l).fill1 = t.fill1 := rfl
@[simp] theorem Thread.setQueue_minv (t : Thread) (n : Nat) (l : List Dword) : (t.setQueue n l).minv = t.minv := rfl
@[simp] theorem Thread.setQueue_movf (t : Thread) (n : Nat) (l : List Dword) : (t.setQueue n l).movf = t.movf := rfl
@[simp] theorem Thread.setQueue_miovf (t : Thread) (n : Nat) (l : List Dword) : (t.setQueue n l).miovf = t.miovf := rfl
@[simp] theorem Thread.setQueue_mseq (t : Thread) (n : Nat) (l : List Dword) : (t.setQueue n l).mseq = t.mseq := rfl
@[simp] theorem Thread.setQueue_vs (t : Thread) (n : Nat) (l : List Dword) : (t.setQueue n l).vs = t.vs := rfl
@[simp] theorem Thread.setQueue_bind (t : Thread) (n : Nat) (l : List Dword) : (t.setQueue n l).bind = t.bind := rfl
@[simp] theorem Thread.setQueue_mbox (t : Thread) (n : Nat) (l : List Dword) : (t.setQueue n l).mbox = t.mbox := rfl
@[simp] theorem Thread.setQueue_hold (t : Thread) (n : Nat) (l : List Dword) : (t.setQueue n l).hold = t.hold := rfl
@[simp] theorem Thread.setQueue_gout (t : Thread) (n : Nat) (l : List Dword) : (t.setQueue n l).gout = t.gout := rfl
@[simp] theorem Thread.setQueue_gok (t : Thread) (n : Nat) (l : List Dword) : (t.setQueue n l).gok = t.gok := rfl
@[simp] theorem Thread.setQueue_gnack (t : Thread) (n : Nat) (l : List Dword) : (t.setQueue n l).gnack = t.gnack := rfl
@[simp] theorem Thread.setQueue_gcause (t : Thread) (n : Nat) (l : List Dword) : (t.setQueue n l).gcause = t.gcause := rfl
@[simp] theorem Thread.setQueue_grep (t : Thread) (n : Nat) (l : List Dword) : (t.setQueue n l).grep = t.grep := rfl
@[simp] theorem Thread.setQueue_estream (t : Thread) (n : Nat) (l : List Dword) : (t.setQueue n l).estream = t.estream := rfl
@[simp] theorem Thread.setQueue_eresume (t : Thread) (n : Nat) (l : List Dword) : (t.setQueue n l).eresume = t.eresume := rfl
@[simp] theorem Thread.setQueue_tvec (t : Thread) (n : Nat) (l : List Dword) : (t.setQueue n l).tvec = t.tvec := rfl
@[simp] theorem Thread.setQueue_mcword (t : Thread) (n : Nat) (l : List Dword) : (t.setQueue n l).mcword = t.mcword := rfl
@[simp] theorem Thread.setQueue_spilla (t : Thread) (n : Nat) (l : List Dword) : (t.setQueue n l).spilla = t.spilla := rfl
@[simp] theorem Thread.setQueue_spillx (t : Thread) (n : Nat) (l : List Dword) : (t.setQueue n l).spillx = t.spillx := rfl
@[simp] theorem Thread.setQueue_alcBase (t : Thread) (n : Nat) (l : List Dword) : (t.setQueue n l).alcBase = t.alcBase := rfl
@[simp] theorem Thread.setQueue_alcSize (t : Thread) (n : Nat) (l : List Dword) : (t.setQueue n l).alcSize = t.alcSize := rfl
@[simp] theorem Thread.setQueue_regions (t : Thread) (n : Nat) (l : List Dword) : (t.setQueue n l).regions = t.regions := rfl
@[simp] theorem Thread.setQueue_transfers (t : Thread) (n : Nat) (l : List Dword) : (t.setQueue n l).transfers = t.transfers := rfl
@[simp] theorem Thread.setQueue_copies (t : Thread) (n : Nat) (l : List Dword) : (t.setQueue n l).copies = t.copies := rfl
@[simp] theorem Thread.setQueue_xfers (t : Thread) (n : Nat) (l : List Dword) : (t.setQueue n l).xfers = t.xfers := rfl
@[simp] theorem Thread.setQueue_svcmds (t : Thread) (n : Nat) (l : List Dword) : (t.setQueue n l).svcmds = t.svcmds := rfl
@[simp] theorem Thread.setQueue_budget (t : Thread) (n : Nat) (l : List Dword) : (t.setQueue n l).budget = t.budget := rfl
@[simp] theorem Thread.setQueue_consumed (t : Thread) (n : Nat) (l : List Dword) : (t.setQueue n l).consumed = t.consumed := rfl
@[simp] theorem Thread.setQueue_leftGroup (t : Thread) (n : Nat) (l : List Dword) : (t.setQueue n l).leftGroup = t.leftGroup := rfl
@[simp] theorem Thread.setQueue_firstRow (t : Thread) (n : Nat) (l : List Dword) : (t.setQueue n l).firstRow = t.firstRow := rfl
@[simp] theorem Thread.setQueue_intg (t : Thread) (n : Nat) (l : List Dword) : (t.setQueue n l).intg = t.intg := rfl
@[simp] theorem Thread.setQueue_devErr (t : Thread) (n : Nat) (l : List Dword) : (t.setQueue n l).devErr = t.devErr := rfl
@[simp] theorem Thread.setQueue_confirm (t : Thread) (n : Nat) (l : List Dword) : (t.setQueue n l).confirm = t.confirm := rfl
@[simp] theorem Thread.setQueue_savedClock (t : Thread) (n : Nat) (l : List Dword) : (t.setQueue n l).savedClock = t.savedClock := rfl
@[simp] theorem Thread.setQueue_polled (t : Thread) (n : Nat) (l : List Dword) : (t.setQueue n l).polled = t.polled := rfl

/-! ## Thread.setAr -/

@[simp] theorem Thread.setAr_lcore (t : Thread) (n : Nat) (v : Dword) : (t.setAr n v).lcore = t.lcore := rfl
@[simp] theorem Thread.setAr_slot (t : Thread) (n : Nat) (v : Dword) : (t.setAr n v).slot = t.slot := rfl
@[simp] theorem Thread.setAr_status (t : Thread) (n : Nat) (v : Dword) : (t.setAr n v).status = t.status := rfl
@[simp] theorem Thread.setAr_part (t : Thread) (n : Nat) (v : Dword) : (t.setAr n v).part = t.part := rfl
@[simp] theorem Thread.setAr_serial (t : Thread) (n : Nat) (v : Dword) : (t.setAr n v).serial = t.serial := rfl
@[simp] theorem Thread.setAr_index (t : Thread) (n : Nat) (v : Dword) : (t.setAr n v).index = t.index := rfl
@[simp] theorem Thread.setAr_a (t : Thread) (n : Nat) (v : Dword) : (t.setAr n v).a = t.a := rfl
@[simp] theorem Thread.setAr_x (t : Thread) (n : Nat) (v : Dword) : (t.setAr n v).x = t.x := rfl
@[simp] theorem Thread.setAr_stride (t : Thread) (n : Nat) (v : Dword) : (t.setAr n v).stride = t.stride := rfl
@[simp] theorem Thread.setAr_scope (t : Thread) (n : Nat) (v : Dword) : (t.setAr n v).scope = t.scope := rfl
@[simp] theorem Thread.setAr_segBase (t : Thread) (n : Nat) (v : Dword) : (t.setAr n v).segBase = t.segBase := rfl
@[simp] theorem Thread.setAr_segSize (t : Thread) (n : Nat) (v : Dword) : (t.setAr n v).segSize = t.segSize := rfl
@[simp] theorem Thread.setAr_wbase (t : Thread) (n : Nat) (v : Dword) : (t.setAr n v).wbase = t.wbase := rfl
@[simp] theorem Thread.setAr_vreg (t : Thread) (n : Nat) (v : Dword) : (t.setAr n v).vreg = t.vreg := rfl
@[simp] theorem Thread.setAr_pred (t : Thread) (n : Nat) (v : Dword) : (t.setAr n v).pred = t.pred := rfl
@[simp] theorem Thread.setAr_gpred (t : Thread) (n : Nat) (v : Dword) : (t.setAr n v).gpred = t.gpred := rfl
@[simp] theorem Thread.setAr_fmask (t : Thread) (n : Nat) (v : Dword) : (t.setAr n v).fmask = t.fmask := rfl
@[simp] theorem Thread.setAr_kind (t : Thread) (n : Nat) (v : Dword) : (t.setAr n v).kind = t.kind := rfl
@[simp] theorem Thread.setAr_dom (t : Thread) (n : Nat) (v : Dword) : (t.setAr n v).dom = t.dom := rfl
@[simp] theorem Thread.setAr_multi (t : Thread) (n : Nat) (v : Dword) : (t.setAr n v).multi = t.multi := rfl
@[simp] theorem Thread.setAr_resume (t : Thread) (n : Nat) (v : Dword) : (t.setAr n v).resume = t.resume := rfl
@[simp] theorem Thread.setAr_startIdx (t : Thread) (n : Nat) (v : Dword) : (t.setAr n v).startIdx = t.startIdx := rfl
@[simp] theorem Thread.setAr_flying (t : Thread) (n : Nat) (v : Dword) : (t.setAr n v).flying = t.flying := rfl
@[simp] theorem Thread.setAr_strips (t : Thread) (n : Nat) (v : Dword) : (t.setAr n v).strips = t.strips := rfl
@[simp] theorem Thread.setAr_tree (t : Thread) (n : Nat) (v : Dword) : (t.setAr n v).tree = t.tree := rfl
@[simp] theorem Thread.setAr_tol (t : Thread) (n : Nat) (v : Dword) : (t.setAr n v).tol = t.tol := rfl
@[simp] theorem Thread.setAr_freg (t : Thread) (n : Nat) (v : Dword) : (t.setAr n v).freg = t.freg := rfl
@[simp] theorem Thread.setAr_coefQuota (t : Thread) (n : Nat) (v : Dword) : (t.setAr n v).coefQuota = t.coefQuota := rfl
@[simp] theorem Thread.setAr_race (t : Thread) (n : Nat) (v : Dword) : (t.setAr n v).race = t.race := rfl
@[simp] theorem Thread.setAr_bound (t : Thread) (n : Nat) (v : Dword) : (t.setAr n v).bound = t.bound := rfl
@[simp] theorem Thread.setAr_boundSize (t : Thread) (n : Nat) (v : Dword) : (t.setAr n v).boundSize = t.boundSize := rfl
@[simp] theorem Thread.setAr_acs (t : Thread) (n : Nat) (v : Dword) : (t.setAr n v).acs = t.acs := rfl
@[simp] theorem Thread.setAr_acsBase (t : Thread) (n : Nat) (v : Dword) : (t.setAr n v).acsBase = t.acsBase := rfl
@[simp] theorem Thread.setAr_acsSize (t : Thread) (n : Nat) (v : Dword) : (t.setAr n v).acsSize = t.acsSize := rfl
@[simp] theorem Thread.setAr_boundBase (t : Thread) (n : Nat) (v : Dword) : (t.setAr n v).boundBase = t.boundBase := rfl
@[simp] theorem Thread.setAr_fifo0 (t : Thread) (n : Nat) (v : Dword) : (t.setAr n v).fifo0 = t.fifo0 := rfl
@[simp] theorem Thread.setAr_fifo1 (t : Thread) (n : Nat) (v : Dword) : (t.setAr n v).fifo1 = t.fifo1 := rfl
@[simp] theorem Thread.setAr_slot0 (t : Thread) (n : Nat) (v : Dword) : (t.setAr n v).slot0 = t.slot0 := rfl
@[simp] theorem Thread.setAr_slot1 (t : Thread) (n : Nat) (v : Dword) : (t.setAr n v).slot1 = t.slot1 := rfl
@[simp] theorem Thread.setAr_fill0 (t : Thread) (n : Nat) (v : Dword) : (t.setAr n v).fill0 = t.fill0 := rfl
@[simp] theorem Thread.setAr_fill1 (t : Thread) (n : Nat) (v : Dword) : (t.setAr n v).fill1 = t.fill1 := rfl
@[simp] theorem Thread.setAr_minv (t : Thread) (n : Nat) (v : Dword) : (t.setAr n v).minv = t.minv := rfl
@[simp] theorem Thread.setAr_movf (t : Thread) (n : Nat) (v : Dword) : (t.setAr n v).movf = t.movf := rfl
@[simp] theorem Thread.setAr_miovf (t : Thread) (n : Nat) (v : Dword) : (t.setAr n v).miovf = t.miovf := rfl
@[simp] theorem Thread.setAr_mseq (t : Thread) (n : Nat) (v : Dword) : (t.setAr n v).mseq = t.mseq := rfl
@[simp] theorem Thread.setAr_q (t : Thread) (n : Nat) (v : Dword) : (t.setAr n v).q = t.q := rfl
@[simp] theorem Thread.setAr_vs (t : Thread) (n : Nat) (v : Dword) : (t.setAr n v).vs = t.vs := rfl
@[simp] theorem Thread.setAr_bind (t : Thread) (n : Nat) (v : Dword) : (t.setAr n v).bind = t.bind := rfl
@[simp] theorem Thread.setAr_mbox (t : Thread) (n : Nat) (v : Dword) : (t.setAr n v).mbox = t.mbox := rfl
@[simp] theorem Thread.setAr_hold (t : Thread) (n : Nat) (v : Dword) : (t.setAr n v).hold = t.hold := rfl
@[simp] theorem Thread.setAr_gout (t : Thread) (n : Nat) (v : Dword) : (t.setAr n v).gout = t.gout := rfl
@[simp] theorem Thread.setAr_gok (t : Thread) (n : Nat) (v : Dword) : (t.setAr n v).gok = t.gok := rfl
@[simp] theorem Thread.setAr_gnack (t : Thread) (n : Nat) (v : Dword) : (t.setAr n v).gnack = t.gnack := rfl
@[simp] theorem Thread.setAr_gcause (t : Thread) (n : Nat) (v : Dword) : (t.setAr n v).gcause = t.gcause := rfl
@[simp] theorem Thread.setAr_grep (t : Thread) (n : Nat) (v : Dword) : (t.setAr n v).grep = t.grep := rfl
@[simp] theorem Thread.setAr_estream (t : Thread) (n : Nat) (v : Dword) : (t.setAr n v).estream = t.estream := rfl
@[simp] theorem Thread.setAr_eresume (t : Thread) (n : Nat) (v : Dword) : (t.setAr n v).eresume = t.eresume := rfl
@[simp] theorem Thread.setAr_tvec (t : Thread) (n : Nat) (v : Dword) : (t.setAr n v).tvec = t.tvec := rfl
@[simp] theorem Thread.setAr_mcword (t : Thread) (n : Nat) (v : Dword) : (t.setAr n v).mcword = t.mcword := rfl
@[simp] theorem Thread.setAr_spilla (t : Thread) (n : Nat) (v : Dword) : (t.setAr n v).spilla = t.spilla := rfl
@[simp] theorem Thread.setAr_spillx (t : Thread) (n : Nat) (v : Dword) : (t.setAr n v).spillx = t.spillx := rfl
@[simp] theorem Thread.setAr_alcBase (t : Thread) (n : Nat) (v : Dword) : (t.setAr n v).alcBase = t.alcBase := rfl
@[simp] theorem Thread.setAr_alcSize (t : Thread) (n : Nat) (v : Dword) : (t.setAr n v).alcSize = t.alcSize := rfl
@[simp] theorem Thread.setAr_regions (t : Thread) (n : Nat) (v : Dword) : (t.setAr n v).regions = t.regions := rfl
@[simp] theorem Thread.setAr_transfers (t : Thread) (n : Nat) (v : Dword) : (t.setAr n v).transfers = t.transfers := rfl
@[simp] theorem Thread.setAr_copies (t : Thread) (n : Nat) (v : Dword) : (t.setAr n v).copies = t.copies := rfl
@[simp] theorem Thread.setAr_xfers (t : Thread) (n : Nat) (v : Dword) : (t.setAr n v).xfers = t.xfers := rfl
@[simp] theorem Thread.setAr_svcmds (t : Thread) (n : Nat) (v : Dword) : (t.setAr n v).svcmds = t.svcmds := rfl
@[simp] theorem Thread.setAr_budget (t : Thread) (n : Nat) (v : Dword) : (t.setAr n v).budget = t.budget := rfl
@[simp] theorem Thread.setAr_consumed (t : Thread) (n : Nat) (v : Dword) : (t.setAr n v).consumed = t.consumed := rfl
@[simp] theorem Thread.setAr_leftGroup (t : Thread) (n : Nat) (v : Dword) : (t.setAr n v).leftGroup = t.leftGroup := rfl
@[simp] theorem Thread.setAr_firstRow (t : Thread) (n : Nat) (v : Dword) : (t.setAr n v).firstRow = t.firstRow := rfl
@[simp] theorem Thread.setAr_intg (t : Thread) (n : Nat) (v : Dword) : (t.setAr n v).intg = t.intg := rfl
@[simp] theorem Thread.setAr_devErr (t : Thread) (n : Nat) (v : Dword) : (t.setAr n v).devErr = t.devErr := rfl
@[simp] theorem Thread.setAr_confirm (t : Thread) (n : Nat) (v : Dword) : (t.setAr n v).confirm = t.confirm := rfl
@[simp] theorem Thread.setAr_savedClock (t : Thread) (n : Nat) (v : Dword) : (t.setAr n v).savedClock = t.savedClock := rfl
@[simp] theorem Thread.setAr_polled (t : Thread) (n : Nat) (v : Dword) : (t.setAr n v).polled = t.polled := rfl

/-! ## Thread.setArStride -/

@[simp] theorem Thread.setArStride_lcore (t : Thread) (n : Nat) (v : Dword) : (t.setArStride n v).lcore = t.lcore := rfl
@[simp] theorem Thread.setArStride_slot (t : Thread) (n : Nat) (v : Dword) : (t.setArStride n v).slot = t.slot := rfl
@[simp] theorem Thread.setArStride_status (t : Thread) (n : Nat) (v : Dword) : (t.setArStride n v).status = t.status := rfl
@[simp] theorem Thread.setArStride_part (t : Thread) (n : Nat) (v : Dword) : (t.setArStride n v).part = t.part := rfl
@[simp] theorem Thread.setArStride_serial (t : Thread) (n : Nat) (v : Dword) : (t.setArStride n v).serial = t.serial := rfl
@[simp] theorem Thread.setArStride_index (t : Thread) (n : Nat) (v : Dword) : (t.setArStride n v).index = t.index := rfl
@[simp] theorem Thread.setArStride_a (t : Thread) (n : Nat) (v : Dword) : (t.setArStride n v).a = t.a := rfl
@[simp] theorem Thread.setArStride_x (t : Thread) (n : Nat) (v : Dword) : (t.setArStride n v).x = t.x := rfl
@[simp] theorem Thread.setArStride_areg (t : Thread) (n : Nat) (v : Dword) : (t.setArStride n v).areg = t.areg := rfl
@[simp] theorem Thread.setArStride_scope (t : Thread) (n : Nat) (v : Dword) : (t.setArStride n v).scope = t.scope := rfl
@[simp] theorem Thread.setArStride_segBase (t : Thread) (n : Nat) (v : Dword) : (t.setArStride n v).segBase = t.segBase := rfl
@[simp] theorem Thread.setArStride_segSize (t : Thread) (n : Nat) (v : Dword) : (t.setArStride n v).segSize = t.segSize := rfl
@[simp] theorem Thread.setArStride_wbase (t : Thread) (n : Nat) (v : Dword) : (t.setArStride n v).wbase = t.wbase := rfl
@[simp] theorem Thread.setArStride_vreg (t : Thread) (n : Nat) (v : Dword) : (t.setArStride n v).vreg = t.vreg := rfl
@[simp] theorem Thread.setArStride_pred (t : Thread) (n : Nat) (v : Dword) : (t.setArStride n v).pred = t.pred := rfl
@[simp] theorem Thread.setArStride_gpred (t : Thread) (n : Nat) (v : Dword) : (t.setArStride n v).gpred = t.gpred := rfl
@[simp] theorem Thread.setArStride_fmask (t : Thread) (n : Nat) (v : Dword) : (t.setArStride n v).fmask = t.fmask := rfl
@[simp] theorem Thread.setArStride_kind (t : Thread) (n : Nat) (v : Dword) : (t.setArStride n v).kind = t.kind := rfl
@[simp] theorem Thread.setArStride_dom (t : Thread) (n : Nat) (v : Dword) : (t.setArStride n v).dom = t.dom := rfl
@[simp] theorem Thread.setArStride_multi (t : Thread) (n : Nat) (v : Dword) : (t.setArStride n v).multi = t.multi := rfl
@[simp] theorem Thread.setArStride_resume (t : Thread) (n : Nat) (v : Dword) : (t.setArStride n v).resume = t.resume := rfl
@[simp] theorem Thread.setArStride_startIdx (t : Thread) (n : Nat) (v : Dword) : (t.setArStride n v).startIdx = t.startIdx := rfl
@[simp] theorem Thread.setArStride_flying (t : Thread) (n : Nat) (v : Dword) : (t.setArStride n v).flying = t.flying := rfl
@[simp] theorem Thread.setArStride_strips (t : Thread) (n : Nat) (v : Dword) : (t.setArStride n v).strips = t.strips := rfl
@[simp] theorem Thread.setArStride_tree (t : Thread) (n : Nat) (v : Dword) : (t.setArStride n v).tree = t.tree := rfl
@[simp] theorem Thread.setArStride_tol (t : Thread) (n : Nat) (v : Dword) : (t.setArStride n v).tol = t.tol := rfl
@[simp] theorem Thread.setArStride_freg (t : Thread) (n : Nat) (v : Dword) : (t.setArStride n v).freg = t.freg := rfl
@[simp] theorem Thread.setArStride_coefQuota (t : Thread) (n : Nat) (v : Dword) : (t.setArStride n v).coefQuota = t.coefQuota := rfl
@[simp] theorem Thread.setArStride_race (t : Thread) (n : Nat) (v : Dword) : (t.setArStride n v).race = t.race := rfl
@[simp] theorem Thread.setArStride_bound (t : Thread) (n : Nat) (v : Dword) : (t.setArStride n v).bound = t.bound := rfl
@[simp] theorem Thread.setArStride_boundSize (t : Thread) (n : Nat) (v : Dword) : (t.setArStride n v).boundSize = t.boundSize := rfl
@[simp] theorem Thread.setArStride_acs (t : Thread) (n : Nat) (v : Dword) : (t.setArStride n v).acs = t.acs := rfl
@[simp] theorem Thread.setArStride_acsBase (t : Thread) (n : Nat) (v : Dword) : (t.setArStride n v).acsBase = t.acsBase := rfl
@[simp] theorem Thread.setArStride_acsSize (t : Thread) (n : Nat) (v : Dword) : (t.setArStride n v).acsSize = t.acsSize := rfl
@[simp] theorem Thread.setArStride_boundBase (t : Thread) (n : Nat) (v : Dword) : (t.setArStride n v).boundBase = t.boundBase := rfl
@[simp] theorem Thread.setArStride_fifo0 (t : Thread) (n : Nat) (v : Dword) : (t.setArStride n v).fifo0 = t.fifo0 := rfl
@[simp] theorem Thread.setArStride_fifo1 (t : Thread) (n : Nat) (v : Dword) : (t.setArStride n v).fifo1 = t.fifo1 := rfl
@[simp] theorem Thread.setArStride_slot0 (t : Thread) (n : Nat) (v : Dword) : (t.setArStride n v).slot0 = t.slot0 := rfl
@[simp] theorem Thread.setArStride_slot1 (t : Thread) (n : Nat) (v : Dword) : (t.setArStride n v).slot1 = t.slot1 := rfl
@[simp] theorem Thread.setArStride_fill0 (t : Thread) (n : Nat) (v : Dword) : (t.setArStride n v).fill0 = t.fill0 := rfl
@[simp] theorem Thread.setArStride_fill1 (t : Thread) (n : Nat) (v : Dword) : (t.setArStride n v).fill1 = t.fill1 := rfl
@[simp] theorem Thread.setArStride_minv (t : Thread) (n : Nat) (v : Dword) : (t.setArStride n v).minv = t.minv := rfl
@[simp] theorem Thread.setArStride_movf (t : Thread) (n : Nat) (v : Dword) : (t.setArStride n v).movf = t.movf := rfl
@[simp] theorem Thread.setArStride_miovf (t : Thread) (n : Nat) (v : Dword) : (t.setArStride n v).miovf = t.miovf := rfl
@[simp] theorem Thread.setArStride_mseq (t : Thread) (n : Nat) (v : Dword) : (t.setArStride n v).mseq = t.mseq := rfl
@[simp] theorem Thread.setArStride_q (t : Thread) (n : Nat) (v : Dword) : (t.setArStride n v).q = t.q := rfl
@[simp] theorem Thread.setArStride_vs (t : Thread) (n : Nat) (v : Dword) : (t.setArStride n v).vs = t.vs := rfl
@[simp] theorem Thread.setArStride_bind (t : Thread) (n : Nat) (v : Dword) : (t.setArStride n v).bind = t.bind := rfl
@[simp] theorem Thread.setArStride_mbox (t : Thread) (n : Nat) (v : Dword) : (t.setArStride n v).mbox = t.mbox := rfl
@[simp] theorem Thread.setArStride_hold (t : Thread) (n : Nat) (v : Dword) : (t.setArStride n v).hold = t.hold := rfl
@[simp] theorem Thread.setArStride_gout (t : Thread) (n : Nat) (v : Dword) : (t.setArStride n v).gout = t.gout := rfl
@[simp] theorem Thread.setArStride_gok (t : Thread) (n : Nat) (v : Dword) : (t.setArStride n v).gok = t.gok := rfl
@[simp] theorem Thread.setArStride_gnack (t : Thread) (n : Nat) (v : Dword) : (t.setArStride n v).gnack = t.gnack := rfl
@[simp] theorem Thread.setArStride_gcause (t : Thread) (n : Nat) (v : Dword) : (t.setArStride n v).gcause = t.gcause := rfl
@[simp] theorem Thread.setArStride_grep (t : Thread) (n : Nat) (v : Dword) : (t.setArStride n v).grep = t.grep := rfl
@[simp] theorem Thread.setArStride_estream (t : Thread) (n : Nat) (v : Dword) : (t.setArStride n v).estream = t.estream := rfl
@[simp] theorem Thread.setArStride_eresume (t : Thread) (n : Nat) (v : Dword) : (t.setArStride n v).eresume = t.eresume := rfl
@[simp] theorem Thread.setArStride_tvec (t : Thread) (n : Nat) (v : Dword) : (t.setArStride n v).tvec = t.tvec := rfl
@[simp] theorem Thread.setArStride_mcword (t : Thread) (n : Nat) (v : Dword) : (t.setArStride n v).mcword = t.mcword := rfl
@[simp] theorem Thread.setArStride_spilla (t : Thread) (n : Nat) (v : Dword) : (t.setArStride n v).spilla = t.spilla := rfl
@[simp] theorem Thread.setArStride_spillx (t : Thread) (n : Nat) (v : Dword) : (t.setArStride n v).spillx = t.spillx := rfl
@[simp] theorem Thread.setArStride_alcBase (t : Thread) (n : Nat) (v : Dword) : (t.setArStride n v).alcBase = t.alcBase := rfl
@[simp] theorem Thread.setArStride_alcSize (t : Thread) (n : Nat) (v : Dword) : (t.setArStride n v).alcSize = t.alcSize := rfl
@[simp] theorem Thread.setArStride_regions (t : Thread) (n : Nat) (v : Dword) : (t.setArStride n v).regions = t.regions := rfl
@[simp] theorem Thread.setArStride_transfers (t : Thread) (n : Nat) (v : Dword) : (t.setArStride n v).transfers = t.transfers := rfl
@[simp] theorem Thread.setArStride_copies (t : Thread) (n : Nat) (v : Dword) : (t.setArStride n v).copies = t.copies := rfl
@[simp] theorem Thread.setArStride_xfers (t : Thread) (n : Nat) (v : Dword) : (t.setArStride n v).xfers = t.xfers := rfl
@[simp] theorem Thread.setArStride_svcmds (t : Thread) (n : Nat) (v : Dword) : (t.setArStride n v).svcmds = t.svcmds := rfl
@[simp] theorem Thread.setArStride_budget (t : Thread) (n : Nat) (v : Dword) : (t.setArStride n v).budget = t.budget := rfl
@[simp] theorem Thread.setArStride_consumed (t : Thread) (n : Nat) (v : Dword) : (t.setArStride n v).consumed = t.consumed := rfl
@[simp] theorem Thread.setArStride_leftGroup (t : Thread) (n : Nat) (v : Dword) : (t.setArStride n v).leftGroup = t.leftGroup := rfl
@[simp] theorem Thread.setArStride_firstRow (t : Thread) (n : Nat) (v : Dword) : (t.setArStride n v).firstRow = t.firstRow := rfl
@[simp] theorem Thread.setArStride_intg (t : Thread) (n : Nat) (v : Dword) : (t.setArStride n v).intg = t.intg := rfl
@[simp] theorem Thread.setArStride_devErr (t : Thread) (n : Nat) (v : Dword) : (t.setArStride n v).devErr = t.devErr := rfl
@[simp] theorem Thread.setArStride_confirm (t : Thread) (n : Nat) (v : Dword) : (t.setArStride n v).confirm = t.confirm := rfl
@[simp] theorem Thread.setArStride_savedClock (t : Thread) (n : Nat) (v : Dword) : (t.setArStride n v).savedClock = t.savedClock := rfl
@[simp] theorem Thread.setArStride_polled (t : Thread) (n : Nat) (v : Dword) : (t.setArStride n v).polled = t.polled := rfl

/-! ## Thread.setVstream -/

@[simp] theorem Thread.setVstream_lcore (t : Thread) (j : Nat) (v : VStream) : (t.setVstream j v).lcore = t.lcore := rfl
@[simp] theorem Thread.setVstream_slot (t : Thread) (j : Nat) (v : VStream) : (t.setVstream j v).slot = t.slot := rfl
@[simp] theorem Thread.setVstream_status (t : Thread) (j : Nat) (v : VStream) : (t.setVstream j v).status = t.status := rfl
@[simp] theorem Thread.setVstream_part (t : Thread) (j : Nat) (v : VStream) : (t.setVstream j v).part = t.part := rfl
@[simp] theorem Thread.setVstream_serial (t : Thread) (j : Nat) (v : VStream) : (t.setVstream j v).serial = t.serial := rfl
@[simp] theorem Thread.setVstream_index (t : Thread) (j : Nat) (v : VStream) : (t.setVstream j v).index = t.index := rfl
@[simp] theorem Thread.setVstream_a (t : Thread) (j : Nat) (v : VStream) : (t.setVstream j v).a = t.a := rfl
@[simp] theorem Thread.setVstream_x (t : Thread) (j : Nat) (v : VStream) : (t.setVstream j v).x = t.x := rfl
@[simp] theorem Thread.setVstream_areg (t : Thread) (j : Nat) (v : VStream) : (t.setVstream j v).areg = t.areg := rfl
@[simp] theorem Thread.setVstream_stride (t : Thread) (j : Nat) (v : VStream) : (t.setVstream j v).stride = t.stride := rfl
@[simp] theorem Thread.setVstream_scope (t : Thread) (j : Nat) (v : VStream) : (t.setVstream j v).scope = t.scope := rfl
@[simp] theorem Thread.setVstream_segBase (t : Thread) (j : Nat) (v : VStream) : (t.setVstream j v).segBase = t.segBase := rfl
@[simp] theorem Thread.setVstream_segSize (t : Thread) (j : Nat) (v : VStream) : (t.setVstream j v).segSize = t.segSize := rfl
@[simp] theorem Thread.setVstream_wbase (t : Thread) (j : Nat) (v : VStream) : (t.setVstream j v).wbase = t.wbase := rfl
@[simp] theorem Thread.setVstream_vreg (t : Thread) (j : Nat) (v : VStream) : (t.setVstream j v).vreg = t.vreg := rfl
@[simp] theorem Thread.setVstream_pred (t : Thread) (j : Nat) (v : VStream) : (t.setVstream j v).pred = t.pred := rfl
@[simp] theorem Thread.setVstream_gpred (t : Thread) (j : Nat) (v : VStream) : (t.setVstream j v).gpred = t.gpred := rfl
@[simp] theorem Thread.setVstream_fmask (t : Thread) (j : Nat) (v : VStream) : (t.setVstream j v).fmask = t.fmask := rfl
@[simp] theorem Thread.setVstream_kind (t : Thread) (j : Nat) (v : VStream) : (t.setVstream j v).kind = t.kind := rfl
@[simp] theorem Thread.setVstream_dom (t : Thread) (j : Nat) (v : VStream) : (t.setVstream j v).dom = t.dom := rfl
@[simp] theorem Thread.setVstream_multi (t : Thread) (j : Nat) (v : VStream) : (t.setVstream j v).multi = t.multi := rfl
@[simp] theorem Thread.setVstream_resume (t : Thread) (j : Nat) (v : VStream) : (t.setVstream j v).resume = t.resume := rfl
@[simp] theorem Thread.setVstream_startIdx (t : Thread) (j : Nat) (v : VStream) : (t.setVstream j v).startIdx = t.startIdx := rfl
@[simp] theorem Thread.setVstream_flying (t : Thread) (j : Nat) (v : VStream) : (t.setVstream j v).flying = t.flying := rfl
@[simp] theorem Thread.setVstream_strips (t : Thread) (j : Nat) (v : VStream) : (t.setVstream j v).strips = t.strips := rfl
@[simp] theorem Thread.setVstream_tree (t : Thread) (j : Nat) (v : VStream) : (t.setVstream j v).tree = t.tree := rfl
@[simp] theorem Thread.setVstream_tol (t : Thread) (j : Nat) (v : VStream) : (t.setVstream j v).tol = t.tol := rfl
@[simp] theorem Thread.setVstream_freg (t : Thread) (j : Nat) (v : VStream) : (t.setVstream j v).freg = t.freg := rfl
@[simp] theorem Thread.setVstream_coefQuota (t : Thread) (j : Nat) (v : VStream) : (t.setVstream j v).coefQuota = t.coefQuota := rfl
@[simp] theorem Thread.setVstream_race (t : Thread) (j : Nat) (v : VStream) : (t.setVstream j v).race = t.race := rfl
@[simp] theorem Thread.setVstream_bound (t : Thread) (j : Nat) (v : VStream) : (t.setVstream j v).bound = t.bound := rfl
@[simp] theorem Thread.setVstream_boundSize (t : Thread) (j : Nat) (v : VStream) : (t.setVstream j v).boundSize = t.boundSize := rfl
@[simp] theorem Thread.setVstream_acs (t : Thread) (j : Nat) (v : VStream) : (t.setVstream j v).acs = t.acs := rfl
@[simp] theorem Thread.setVstream_acsBase (t : Thread) (j : Nat) (v : VStream) : (t.setVstream j v).acsBase = t.acsBase := rfl
@[simp] theorem Thread.setVstream_acsSize (t : Thread) (j : Nat) (v : VStream) : (t.setVstream j v).acsSize = t.acsSize := rfl
@[simp] theorem Thread.setVstream_boundBase (t : Thread) (j : Nat) (v : VStream) : (t.setVstream j v).boundBase = t.boundBase := rfl
@[simp] theorem Thread.setVstream_fifo0 (t : Thread) (j : Nat) (v : VStream) : (t.setVstream j v).fifo0 = t.fifo0 := rfl
@[simp] theorem Thread.setVstream_fifo1 (t : Thread) (j : Nat) (v : VStream) : (t.setVstream j v).fifo1 = t.fifo1 := rfl
@[simp] theorem Thread.setVstream_slot0 (t : Thread) (j : Nat) (v : VStream) : (t.setVstream j v).slot0 = t.slot0 := rfl
@[simp] theorem Thread.setVstream_slot1 (t : Thread) (j : Nat) (v : VStream) : (t.setVstream j v).slot1 = t.slot1 := rfl
@[simp] theorem Thread.setVstream_fill0 (t : Thread) (j : Nat) (v : VStream) : (t.setVstream j v).fill0 = t.fill0 := rfl
@[simp] theorem Thread.setVstream_fill1 (t : Thread) (j : Nat) (v : VStream) : (t.setVstream j v).fill1 = t.fill1 := rfl
@[simp] theorem Thread.setVstream_minv (t : Thread) (j : Nat) (v : VStream) : (t.setVstream j v).minv = t.minv := rfl
@[simp] theorem Thread.setVstream_movf (t : Thread) (j : Nat) (v : VStream) : (t.setVstream j v).movf = t.movf := rfl
@[simp] theorem Thread.setVstream_miovf (t : Thread) (j : Nat) (v : VStream) : (t.setVstream j v).miovf = t.miovf := rfl
@[simp] theorem Thread.setVstream_mseq (t : Thread) (j : Nat) (v : VStream) : (t.setVstream j v).mseq = t.mseq := rfl
@[simp] theorem Thread.setVstream_q (t : Thread) (j : Nat) (v : VStream) : (t.setVstream j v).q = t.q := rfl
@[simp] theorem Thread.setVstream_bind (t : Thread) (j : Nat) (v : VStream) : (t.setVstream j v).bind = t.bind := rfl
@[simp] theorem Thread.setVstream_mbox (t : Thread) (j : Nat) (v : VStream) : (t.setVstream j v).mbox = t.mbox := rfl
@[simp] theorem Thread.setVstream_hold (t : Thread) (j : Nat) (v : VStream) : (t.setVstream j v).hold = t.hold := rfl
@[simp] theorem Thread.setVstream_gout (t : Thread) (j : Nat) (v : VStream) : (t.setVstream j v).gout = t.gout := rfl
@[simp] theorem Thread.setVstream_gok (t : Thread) (j : Nat) (v : VStream) : (t.setVstream j v).gok = t.gok := rfl
@[simp] theorem Thread.setVstream_gnack (t : Thread) (j : Nat) (v : VStream) : (t.setVstream j v).gnack = t.gnack := rfl
@[simp] theorem Thread.setVstream_gcause (t : Thread) (j : Nat) (v : VStream) : (t.setVstream j v).gcause = t.gcause := rfl
@[simp] theorem Thread.setVstream_grep (t : Thread) (j : Nat) (v : VStream) : (t.setVstream j v).grep = t.grep := rfl
@[simp] theorem Thread.setVstream_estream (t : Thread) (j : Nat) (v : VStream) : (t.setVstream j v).estream = t.estream := rfl
@[simp] theorem Thread.setVstream_eresume (t : Thread) (j : Nat) (v : VStream) : (t.setVstream j v).eresume = t.eresume := rfl
@[simp] theorem Thread.setVstream_tvec (t : Thread) (j : Nat) (v : VStream) : (t.setVstream j v).tvec = t.tvec := rfl
@[simp] theorem Thread.setVstream_mcword (t : Thread) (j : Nat) (v : VStream) : (t.setVstream j v).mcword = t.mcword := rfl
@[simp] theorem Thread.setVstream_spilla (t : Thread) (j : Nat) (v : VStream) : (t.setVstream j v).spilla = t.spilla := rfl
@[simp] theorem Thread.setVstream_spillx (t : Thread) (j : Nat) (v : VStream) : (t.setVstream j v).spillx = t.spillx := rfl
@[simp] theorem Thread.setVstream_alcBase (t : Thread) (j : Nat) (v : VStream) : (t.setVstream j v).alcBase = t.alcBase := rfl
@[simp] theorem Thread.setVstream_alcSize (t : Thread) (j : Nat) (v : VStream) : (t.setVstream j v).alcSize = t.alcSize := rfl
@[simp] theorem Thread.setVstream_regions (t : Thread) (j : Nat) (v : VStream) : (t.setVstream j v).regions = t.regions := rfl
@[simp] theorem Thread.setVstream_transfers (t : Thread) (j : Nat) (v : VStream) : (t.setVstream j v).transfers = t.transfers := rfl
@[simp] theorem Thread.setVstream_copies (t : Thread) (j : Nat) (v : VStream) : (t.setVstream j v).copies = t.copies := rfl
@[simp] theorem Thread.setVstream_xfers (t : Thread) (j : Nat) (v : VStream) : (t.setVstream j v).xfers = t.xfers := rfl
@[simp] theorem Thread.setVstream_svcmds (t : Thread) (j : Nat) (v : VStream) : (t.setVstream j v).svcmds = t.svcmds := rfl
@[simp] theorem Thread.setVstream_budget (t : Thread) (j : Nat) (v : VStream) : (t.setVstream j v).budget = t.budget := rfl
@[simp] theorem Thread.setVstream_consumed (t : Thread) (j : Nat) (v : VStream) : (t.setVstream j v).consumed = t.consumed := rfl
@[simp] theorem Thread.setVstream_leftGroup (t : Thread) (j : Nat) (v : VStream) : (t.setVstream j v).leftGroup = t.leftGroup := rfl
@[simp] theorem Thread.setVstream_firstRow (t : Thread) (j : Nat) (v : VStream) : (t.setVstream j v).firstRow = t.firstRow := rfl
@[simp] theorem Thread.setVstream_intg (t : Thread) (j : Nat) (v : VStream) : (t.setVstream j v).intg = t.intg := rfl
@[simp] theorem Thread.setVstream_devErr (t : Thread) (j : Nat) (v : VStream) : (t.setVstream j v).devErr = t.devErr := rfl
@[simp] theorem Thread.setVstream_confirm (t : Thread) (j : Nat) (v : VStream) : (t.setVstream j v).confirm = t.confirm := rfl
@[simp] theorem Thread.setVstream_savedClock (t : Thread) (j : Nat) (v : VStream) : (t.setVstream j v).savedClock = t.savedClock := rfl
@[simp] theorem Thread.setVstream_polled (t : Thread) (j : Nat) (v : VStream) : (t.setVstream j v).polled = t.polled := rfl

/-! ## A general register written -/

@[simp] theorem Stream.setGpr_pc (c : Stream) (n : Nat) (v : Dword) : (c.setGpr n v).pc = c.pc := by unfold Stream.setGpr; split <;> rfl
@[simp] theorem Stream.setGpr_vl (c : Stream) (n : Nat) (v : Dword) : (c.setGpr n v).vl = c.vl := by unfold Stream.setGpr; split <;> rfl
@[simp] theorem Stream.setGpr_ftrim (c : Stream) (n : Nat) (v : Dword) : (c.setGpr n v).ftrim = c.ftrim := by unfold Stream.setGpr; split <;> rfl
@[simp] theorem Stream.setGpr_sbase (c : Stream) (n : Nat) (v : Dword) : (c.setGpr n v).sbase = c.sbase := by unfold Stream.setGpr; split <;> rfl
@[simp] theorem Stream.setGpr_seed (c : Stream) (n : Nat) (v : Dword) : (c.setGpr n v).seed = c.seed := by unfold Stream.setGpr; split <;> rfl
@[simp] theorem Stream.setGpr_stat (c : Stream) (n : Nat) (v : Dword) : (c.setGpr n v).stat = c.stat := by unfold Stream.setGpr; split <;> rfl
@[simp] theorem Stream.setGpr_loop (c : Stream) (n : Nat) (v : Dword) : (c.setGpr n v).loop = c.loop := by unfold Stream.setGpr; split <;> rfl
@[simp] theorem Stream.setGpr_arm (c : Stream) (n : Nat) (v : Dword) : (c.setGpr n v).arm = c.arm := by unfold Stream.setGpr; split <;> rfl
@[simp] theorem Stream.setGpr_fmode (c : Stream) (n : Nat) (v : Dword) : (c.setGpr n v).fmode = c.fmode := by unfold Stream.setGpr; split <;> rfl
@[simp] theorem Stream.setGpr_vtype (c : Stream) (n : Nat) (v : Dword) : (c.setGpr n v).vtype = c.vtype := by unfold Stream.setGpr; split <;> rfl
@[simp] theorem Stream.setGpr_stair (c : Stream) (n : Nat) (v : Dword) : (c.setGpr n v).stair = c.stair := by unfold Stream.setGpr; split <;> rfl
@[simp] theorem Stream.setGpr_pend (c : Stream) (n : Nat) (v : Dword) : (c.setGpr n v).pend = c.pend := by unfold Stream.setGpr; split <;> rfl
@[simp] theorem Stream.setGpr_link (c : Stream) (n : Nat) (v : Dword) : (c.setGpr n v).link = c.link := by unfold Stream.setGpr; split <;> rfl
@[simp] theorem Stream.setGpr_spill (c : Stream) (n : Nat) (v : Dword) : (c.setGpr n v).spill = c.spill := by unfold Stream.setGpr; split <;> rfl
@[simp] theorem Stream.setGpr_cause (c : Stream) (n : Nat) (v : Dword) : (c.setGpr n v).cause = c.cause := by unfold Stream.setGpr; split <;> rfl
@[simp] theorem Stream.setGpr_epc (c : Stream) (n : Nat) (v : Dword) : (c.setGpr n v).epc = c.epc := by unfold Stream.setGpr; split <;> rfl
@[simp] theorem Stream.setGpr_einfo (c : Stream) (n : Nat) (v : Dword) : (c.setGpr n v).einfo = c.einfo := by unfold Stream.setGpr; split <;> rfl
@[simp] theorem Stream.setGpr_priv (c : Stream) (n : Nat) (v : Dword) : (c.setGpr n v).priv = c.priv := by unfold Stream.setGpr; split <;> rfl
@[simp] theorem Stream.setGpr_park (c : Stream) (n : Nat) (v : Dword) : (c.setGpr n v).park = c.park := by unfold Stream.setGpr; split <;> rfl
@[simp] theorem Stream.setGpr_exiting (c : Stream) (n : Nat) (v : Dword) : (c.setGpr n v).exiting = c.exiting := by unfold Stream.setGpr; split <;> rfl
@[simp] theorem Stream.setGpr_ended (c : Stream) (n : Nat) (v : Dword) : (c.setGpr n v).ended = c.ended := by unfold Stream.setGpr; split <;> rfl
@[simp] theorem Stream.setGpr_deadline (c : Stream) (n : Nat) (v : Dword) : (c.setGpr n v).deadline = c.deadline := by unfold Stream.setGpr; split <;> rfl
@[simp] theorem Stream.setGpr_object (c : Stream) (n : Nat) (v : Dword) : (c.setGpr n v).object = c.object := by unfold Stream.setGpr; split <;> rfl
@[simp] theorem Stream.setGpr_freed (c : Stream) (n : Nat) (v : Dword) : (c.setGpr n v).freed = c.freed := by unfold Stream.setGpr; split <;> rfl
@[simp] theorem Stream.setGpr_popped (c : Stream) (n : Nat) (v : Dword) : (c.setGpr n v).popped = c.popped := by unfold Stream.setGpr; split <;> rfl
@[simp] theorem Stream.setGpr_ibuf (c : Stream) (n : Nat) (v : Dword) : (c.setGpr n v).ibuf = c.ibuf := by unfold Stream.setGpr; split <;> rfl
@[simp] theorem Stream.setGpr_late (c : Stream) (n : Nat) (v : Dword) : (c.setGpr n v).late = c.late := by unfold Stream.setGpr; split <;> rfl

/-! ## Memory written -/

@[simp] theorem writeBytes_th (s : State) (k : Nat) (bs : Bytes) : (writeBytes s k bs).th = s.th := rfl
@[simp] theorem writeBytes_strm (s : State) (k : Nat) (bs : Bytes) : (writeBytes s k bs).strm = s.strm := rfl
@[simp] theorem writeBytes_others (s : State) (k : Nat) (bs : Bytes) : (writeBytes s k bs).others = s.others := rfl
@[simp] theorem writeBytes_agenda (s : State) (k : Nat) (bs : Bytes) : (writeBytes s k bs).agenda = s.agenda := rfl
@[simp] theorem writeBytes_beat (s : State) (k : Nat) (bs : Bytes) : (writeBytes s k bs).beat = s.beat := rfl
@[simp] theorem writeBytes_clock (s : State) (k : Nat) (bs : Bytes) : (writeBytes s k bs).clock = s.clock := rfl
@[simp] theorem writeBytes_cycles (s : State) (k : Nat) (bs : Bytes) : (writeBytes s k bs).cycles = s.cycles := rfl
@[simp] theorem writeBytes_parts (s : State) (k : Nat) (bs : Bytes) : (writeBytes s k bs).parts = s.parts := rfl
@[simp] theorem writeBytes_gangs (s : State) (k : Nat) (bs : Bytes) : (writeBytes s k bs).gangs = s.gangs := rfl
@[simp] theorem writeBytes_launches (s : State) (k : Nat) (bs : Bytes) : (writeBytes s k bs).launches = s.launches := rfl
@[simp] theorem writeBytes_lastSerial (s : State) (k : Nat) (bs : Bytes) : (writeBytes s k bs).lastSerial = s.lastSerial := rfl
@[simp] theorem writeBytes_names (s : State) (k : Nat) (bs : Bytes) : (writeBytes s k bs).names = s.names := rfl
@[simp] theorem writeBytes_sites (s : State) (k : Nat) (bs : Bytes) : (writeBytes s k bs).sites = s.sites := rfl
@[simp] theorem writeBytes_stamps (s : State) (k : Nat) (bs : Bytes) : (writeBytes s k bs).stamps = s.stamps := rfl
@[simp] theorem writeBytes_stampUse (s : State) (k : Nat) (bs : Bytes) : (writeBytes s k bs).stampUse = s.stampUse := rfl
@[simp] theorem writeBytes_tlb (s : State) (k : Nat) (bs : Bytes) : (writeBytes s k bs).tlb = s.tlb := rfl
@[simp] theorem writeBytes_frames (s : State) (k : Nat) (bs : Bytes) : (writeBytes s k bs).frames = s.frames := rfl
@[simp] theorem writeBytes_reqs (s : State) (k : Nat) (bs : Bytes) : (writeBytes s k bs).reqs = s.reqs := rfl
@[simp] theorem writeBytes_nextReq (s : State) (k : Nat) (bs : Bytes) : (writeBytes s k bs).nextReq = s.nextReq := rfl
@[simp] theorem writeBytes_sent (s : State) (k : Nat) (bs : Bytes) : (writeBytes s k bs).sent = s.sent := rfl
@[simp] theorem writeBytes_drawn (s : State) (k : Nat) (bs : Bytes) : (writeBytes s k bs).drawn = s.drawn := rfl
@[simp] theorem writeBytes_rstores (s : State) (k : Nat) (bs : Bytes) : (writeBytes s k bs).rstores = s.rstores := rfl
@[simp] theorem writeBytes_ranswers (s : State) (k : Nat) (bs : Bytes) : (writeBytes s k bs).ranswers = s.ranswers := rfl
@[simp] theorem writeBytes_rounds (s : State) (k : Nat) (bs : Bytes) : (writeBytes s k bs).rounds = s.rounds := rfl
@[simp] theorem writeBytes_flushed (s : State) (k : Nat) (bs : Bytes) : (writeBytes s k bs).flushed = s.flushed := rfl
@[simp] theorem writeBytes_failedLinks (s : State) (k : Nat) (bs : Bytes) : (writeBytes s k bs).failedLinks = s.failedLinks := rfl
@[simp] theorem writeBytes_cores (s : State) (k : Nat) (bs : Bytes) : (writeBytes s k bs).cores = s.cores := rfl
@[simp] theorem writeBytes_counters (s : State) (k : Nat) (bs : Bytes) : (writeBytes s k bs).counters = s.counters := rfl
@[simp] theorem writeBytes_rowq (s : State) (k : Nat) (bs : Bytes) : (writeBytes s k bs).rowq = s.rowq := rfl
@[simp] theorem writeBytes_remap (s : State) (k : Nat) (bs : Bytes) : (writeBytes s k bs).remap = s.remap := rfl
@[simp] theorem writeBytes_shareTurn (s : State) (k : Nat) (bs : Bytes) : (writeBytes s k bs).shareTurn = s.shareTurn := rfl
@[simp] theorem writeBytes_serTurn (s : State) (k : Nat) (bs : Bytes) : (writeBytes s k bs).serTurn = s.serTurn := rfl
@[simp] theorem writeBytes_laneTurn (s : State) (k : Nat) (bs : Bytes) : (writeBytes s k bs).laneTurn = s.laneTurn := rfl
@[simp] theorem writeBytes_health (s : State) (k : Nat) (bs : Bytes) : (writeBytes s k bs).health = s.health := rfl
@[simp] theorem writeBytes_trust (s : State) (k : Nat) (bs : Bytes) : (writeBytes s k bs).trust = s.trust := rfl
@[simp] theorem writeBytes_hostLog (s : State) (k : Nat) (bs : Bytes) : (writeBytes s k bs).hostLog = s.hostLog := rfl
@[simp] theorem zeroRange_th (s : State) (k n : Nat) : (zeroRange s k n).th = s.th := rfl
@[simp] theorem zeroRange_strm (s : State) (k n : Nat) : (zeroRange s k n).strm = s.strm := rfl
@[simp] theorem zeroRange_others (s : State) (k n : Nat) : (zeroRange s k n).others = s.others := rfl
@[simp] theorem zeroRange_agenda (s : State) (k n : Nat) : (zeroRange s k n).agenda = s.agenda := rfl
@[simp] theorem zeroRange_beat (s : State) (k n : Nat) : (zeroRange s k n).beat = s.beat := rfl
@[simp] theorem zeroRange_clock (s : State) (k n : Nat) : (zeroRange s k n).clock = s.clock := rfl
@[simp] theorem zeroRange_cycles (s : State) (k n : Nat) : (zeroRange s k n).cycles = s.cycles := rfl
@[simp] theorem zeroRange_parts (s : State) (k n : Nat) : (zeroRange s k n).parts = s.parts := rfl
@[simp] theorem zeroRange_gangs (s : State) (k n : Nat) : (zeroRange s k n).gangs = s.gangs := rfl
@[simp] theorem zeroRange_launches (s : State) (k n : Nat) : (zeroRange s k n).launches = s.launches := rfl
@[simp] theorem zeroRange_lastSerial (s : State) (k n : Nat) : (zeroRange s k n).lastSerial = s.lastSerial := rfl
@[simp] theorem zeroRange_names (s : State) (k n : Nat) : (zeroRange s k n).names = s.names := rfl
@[simp] theorem zeroRange_sites (s : State) (k n : Nat) : (zeroRange s k n).sites = s.sites := rfl
@[simp] theorem zeroRange_stamps (s : State) (k n : Nat) : (zeroRange s k n).stamps = s.stamps := rfl
@[simp] theorem zeroRange_stampUse (s : State) (k n : Nat) : (zeroRange s k n).stampUse = s.stampUse := rfl
@[simp] theorem zeroRange_tlb (s : State) (k n : Nat) : (zeroRange s k n).tlb = s.tlb := rfl
@[simp] theorem zeroRange_frames (s : State) (k n : Nat) : (zeroRange s k n).frames = s.frames := rfl
@[simp] theorem zeroRange_reqs (s : State) (k n : Nat) : (zeroRange s k n).reqs = s.reqs := rfl
@[simp] theorem zeroRange_nextReq (s : State) (k n : Nat) : (zeroRange s k n).nextReq = s.nextReq := rfl
@[simp] theorem zeroRange_sent (s : State) (k n : Nat) : (zeroRange s k n).sent = s.sent := rfl
@[simp] theorem zeroRange_drawn (s : State) (k n : Nat) : (zeroRange s k n).drawn = s.drawn := rfl
@[simp] theorem zeroRange_rstores (s : State) (k n : Nat) : (zeroRange s k n).rstores = s.rstores := rfl
@[simp] theorem zeroRange_ranswers (s : State) (k n : Nat) : (zeroRange s k n).ranswers = s.ranswers := rfl
@[simp] theorem zeroRange_rounds (s : State) (k n : Nat) : (zeroRange s k n).rounds = s.rounds := rfl
@[simp] theorem zeroRange_flushed (s : State) (k n : Nat) : (zeroRange s k n).flushed = s.flushed := rfl
@[simp] theorem zeroRange_failedLinks (s : State) (k n : Nat) : (zeroRange s k n).failedLinks = s.failedLinks := rfl
@[simp] theorem zeroRange_cores (s : State) (k n : Nat) : (zeroRange s k n).cores = s.cores := rfl
@[simp] theorem zeroRange_counters (s : State) (k n : Nat) : (zeroRange s k n).counters = s.counters := rfl
@[simp] theorem zeroRange_rowq (s : State) (k n : Nat) : (zeroRange s k n).rowq = s.rowq := rfl
@[simp] theorem zeroRange_remap (s : State) (k n : Nat) : (zeroRange s k n).remap = s.remap := rfl
@[simp] theorem zeroRange_shareTurn (s : State) (k n : Nat) : (zeroRange s k n).shareTurn = s.shareTurn := rfl
@[simp] theorem zeroRange_serTurn (s : State) (k n : Nat) : (zeroRange s k n).serTurn = s.serTurn := rfl
@[simp] theorem zeroRange_laneTurn (s : State) (k n : Nat) : (zeroRange s k n).laneTurn = s.laneTurn := rfl
@[simp] theorem zeroRange_health (s : State) (k n : Nat) : (zeroRange s k n).health = s.health := rfl
@[simp] theorem zeroRange_trust (s : State) (k n : Nat) : (zeroRange s k n).trust = s.trust := rfl
@[simp] theorem zeroRange_hostLog (s : State) (k n : Nat) : (zeroRange s k n).hostLog = s.hostLog := rfl

/-! ## A partition, a launch, every thread changed -/

@[simp] theorem updPart_th (s : State) (p : Nat) (f : Partition → Partition) : (updPart s p f).th = s.th := rfl
@[simp] theorem updPart_strm (s : State) (p : Nat) (f : Partition → Partition) : (updPart s p f).strm = s.strm := rfl
@[simp] theorem updPart_others (s : State) (p : Nat) (f : Partition → Partition) : (updPart s p f).others = s.others := rfl
@[simp] theorem updPart_agenda (s : State) (p : Nat) (f : Partition → Partition) : (updPart s p f).agenda = s.agenda := rfl
@[simp] theorem updPart_beat (s : State) (p : Nat) (f : Partition → Partition) : (updPart s p f).beat = s.beat := rfl
@[simp] theorem updPart_clock (s : State) (p : Nat) (f : Partition → Partition) : (updPart s p f).clock = s.clock := rfl
@[simp] theorem updPart_cycles (s : State) (p : Nat) (f : Partition → Partition) : (updPart s p f).cycles = s.cycles := rfl
@[simp] theorem updPart_mem (s : State) (p : Nat) (f : Partition → Partition) : (updPart s p f).mem = s.mem := rfl
@[simp] theorem updPart_uce (s : State) (p : Nat) (f : Partition → Partition) : (updPart s p f).uce = s.uce := rfl
@[simp] theorem updPart_gangs (s : State) (p : Nat) (f : Partition → Partition) : (updPart s p f).gangs = s.gangs := rfl
@[simp] theorem updPart_launches (s : State) (p : Nat) (f : Partition → Partition) : (updPart s p f).launches = s.launches := rfl
@[simp] theorem updPart_lastSerial (s : State) (p : Nat) (f : Partition → Partition) : (updPart s p f).lastSerial = s.lastSerial := rfl
@[simp] theorem updPart_names (s : State) (p : Nat) (f : Partition → Partition) : (updPart s p f).names = s.names := rfl
@[simp] theorem updPart_sites (s : State) (p : Nat) (f : Partition → Partition) : (updPart s p f).sites = s.sites := rfl
@[simp] theorem updPart_stamps (s : State) (p : Nat) (f : Partition → Partition) : (updPart s p f).stamps = s.stamps := rfl
@[simp] theorem updPart_stampUse (s : State) (p : Nat) (f : Partition → Partition) : (updPart s p f).stampUse = s.stampUse := rfl
@[simp] theorem updPart_tlb (s : State) (p : Nat) (f : Partition → Partition) : (updPart s p f).tlb = s.tlb := rfl
@[simp] theorem updPart_frames (s : State) (p : Nat) (f : Partition → Partition) : (updPart s p f).frames = s.frames := rfl
@[simp] theorem updPart_reqs (s : State) (p : Nat) (f : Partition → Partition) : (updPart s p f).reqs = s.reqs := rfl
@[simp] theorem updPart_nextReq (s : State) (p : Nat) (f : Partition → Partition) : (updPart s p f).nextReq = s.nextReq := rfl
@[simp] theorem updPart_sent (s : State) (p : Nat) (f : Partition → Partition) : (updPart s p f).sent = s.sent := rfl
@[simp] theorem updPart_drawn (s : State) (p : Nat) (f : Partition → Partition) : (updPart s p f).drawn = s.drawn := rfl
@[simp] theorem updPart_rstores (s : State) (p : Nat) (f : Partition → Partition) : (updPart s p f).rstores = s.rstores := rfl
@[simp] theorem updPart_ranswers (s : State) (p : Nat) (f : Partition → Partition) : (updPart s p f).ranswers = s.ranswers := rfl
@[simp] theorem updPart_rounds (s : State) (p : Nat) (f : Partition → Partition) : (updPart s p f).rounds = s.rounds := rfl
@[simp] theorem updPart_flushed (s : State) (p : Nat) (f : Partition → Partition) : (updPart s p f).flushed = s.flushed := rfl
@[simp] theorem updPart_failedLinks (s : State) (p : Nat) (f : Partition → Partition) : (updPart s p f).failedLinks = s.failedLinks := rfl
@[simp] theorem updPart_cores (s : State) (p : Nat) (f : Partition → Partition) : (updPart s p f).cores = s.cores := rfl
@[simp] theorem updPart_counters (s : State) (p : Nat) (f : Partition → Partition) : (updPart s p f).counters = s.counters := rfl
@[simp] theorem updPart_rowq (s : State) (p : Nat) (f : Partition → Partition) : (updPart s p f).rowq = s.rowq := rfl
@[simp] theorem updPart_remap (s : State) (p : Nat) (f : Partition → Partition) : (updPart s p f).remap = s.remap := rfl
@[simp] theorem updPart_shareTurn (s : State) (p : Nat) (f : Partition → Partition) : (updPart s p f).shareTurn = s.shareTurn := rfl
@[simp] theorem updPart_serTurn (s : State) (p : Nat) (f : Partition → Partition) : (updPart s p f).serTurn = s.serTurn := rfl
@[simp] theorem updPart_laneTurn (s : State) (p : Nat) (f : Partition → Partition) : (updPart s p f).laneTurn = s.laneTurn := rfl
@[simp] theorem updPart_health (s : State) (p : Nat) (f : Partition → Partition) : (updPart s p f).health = s.health := rfl
@[simp] theorem updPart_trust (s : State) (p : Nat) (f : Partition → Partition) : (updPart s p f).trust = s.trust := rfl
@[simp] theorem updPart_hostLog (s : State) (p : Nat) (f : Partition → Partition) : (updPart s p f).hostLog = s.hostLog := rfl
@[simp] theorem updLaunch_th (s : State) (n : Nat) (f : Launch → Launch) : (updLaunch s n f).th = s.th := rfl
@[simp] theorem updLaunch_strm (s : State) (n : Nat) (f : Launch → Launch) : (updLaunch s n f).strm = s.strm := rfl
@[simp] theorem updLaunch_others (s : State) (n : Nat) (f : Launch → Launch) : (updLaunch s n f).others = s.others := rfl
@[simp] theorem updLaunch_agenda (s : State) (n : Nat) (f : Launch → Launch) : (updLaunch s n f).agenda = s.agenda := rfl
@[simp] theorem updLaunch_beat (s : State) (n : Nat) (f : Launch → Launch) : (updLaunch s n f).beat = s.beat := rfl
@[simp] theorem updLaunch_clock (s : State) (n : Nat) (f : Launch → Launch) : (updLaunch s n f).clock = s.clock := rfl
@[simp] theorem updLaunch_cycles (s : State) (n : Nat) (f : Launch → Launch) : (updLaunch s n f).cycles = s.cycles := rfl
@[simp] theorem updLaunch_mem (s : State) (n : Nat) (f : Launch → Launch) : (updLaunch s n f).mem = s.mem := rfl
@[simp] theorem updLaunch_uce (s : State) (n : Nat) (f : Launch → Launch) : (updLaunch s n f).uce = s.uce := rfl
@[simp] theorem updLaunch_parts (s : State) (n : Nat) (f : Launch → Launch) : (updLaunch s n f).parts = s.parts := rfl
@[simp] theorem updLaunch_gangs (s : State) (n : Nat) (f : Launch → Launch) : (updLaunch s n f).gangs = s.gangs := rfl
@[simp] theorem updLaunch_lastSerial (s : State) (n : Nat) (f : Launch → Launch) : (updLaunch s n f).lastSerial = s.lastSerial := rfl
@[simp] theorem updLaunch_names (s : State) (n : Nat) (f : Launch → Launch) : (updLaunch s n f).names = s.names := rfl
@[simp] theorem updLaunch_sites (s : State) (n : Nat) (f : Launch → Launch) : (updLaunch s n f).sites = s.sites := rfl
@[simp] theorem updLaunch_stamps (s : State) (n : Nat) (f : Launch → Launch) : (updLaunch s n f).stamps = s.stamps := rfl
@[simp] theorem updLaunch_stampUse (s : State) (n : Nat) (f : Launch → Launch) : (updLaunch s n f).stampUse = s.stampUse := rfl
@[simp] theorem updLaunch_tlb (s : State) (n : Nat) (f : Launch → Launch) : (updLaunch s n f).tlb = s.tlb := rfl
@[simp] theorem updLaunch_frames (s : State) (n : Nat) (f : Launch → Launch) : (updLaunch s n f).frames = s.frames := rfl
@[simp] theorem updLaunch_reqs (s : State) (n : Nat) (f : Launch → Launch) : (updLaunch s n f).reqs = s.reqs := rfl
@[simp] theorem updLaunch_nextReq (s : State) (n : Nat) (f : Launch → Launch) : (updLaunch s n f).nextReq = s.nextReq := rfl
@[simp] theorem updLaunch_sent (s : State) (n : Nat) (f : Launch → Launch) : (updLaunch s n f).sent = s.sent := rfl
@[simp] theorem updLaunch_drawn (s : State) (n : Nat) (f : Launch → Launch) : (updLaunch s n f).drawn = s.drawn := rfl
@[simp] theorem updLaunch_rstores (s : State) (n : Nat) (f : Launch → Launch) : (updLaunch s n f).rstores = s.rstores := rfl
@[simp] theorem updLaunch_ranswers (s : State) (n : Nat) (f : Launch → Launch) : (updLaunch s n f).ranswers = s.ranswers := rfl
@[simp] theorem updLaunch_rounds (s : State) (n : Nat) (f : Launch → Launch) : (updLaunch s n f).rounds = s.rounds := rfl
@[simp] theorem updLaunch_flushed (s : State) (n : Nat) (f : Launch → Launch) : (updLaunch s n f).flushed = s.flushed := rfl
@[simp] theorem updLaunch_failedLinks (s : State) (n : Nat) (f : Launch → Launch) : (updLaunch s n f).failedLinks = s.failedLinks := rfl
@[simp] theorem updLaunch_cores (s : State) (n : Nat) (f : Launch → Launch) : (updLaunch s n f).cores = s.cores := rfl
@[simp] theorem updLaunch_counters (s : State) (n : Nat) (f : Launch → Launch) : (updLaunch s n f).counters = s.counters := rfl
@[simp] theorem updLaunch_rowq (s : State) (n : Nat) (f : Launch → Launch) : (updLaunch s n f).rowq = s.rowq := rfl
@[simp] theorem updLaunch_remap (s : State) (n : Nat) (f : Launch → Launch) : (updLaunch s n f).remap = s.remap := rfl
@[simp] theorem updLaunch_shareTurn (s : State) (n : Nat) (f : Launch → Launch) : (updLaunch s n f).shareTurn = s.shareTurn := rfl
@[simp] theorem updLaunch_serTurn (s : State) (n : Nat) (f : Launch → Launch) : (updLaunch s n f).serTurn = s.serTurn := rfl
@[simp] theorem updLaunch_laneTurn (s : State) (n : Nat) (f : Launch → Launch) : (updLaunch s n f).laneTurn = s.laneTurn := rfl
@[simp] theorem updLaunch_health (s : State) (n : Nat) (f : Launch → Launch) : (updLaunch s n f).health = s.health := rfl
@[simp] theorem updLaunch_trust (s : State) (n : Nat) (f : Launch → Launch) : (updLaunch s n f).trust = s.trust := rfl
@[simp] theorem updLaunch_hostLog (s : State) (n : Nat) (f : Launch → Launch) : (updLaunch s n f).hostLog = s.hostLog := rfl
@[simp] theorem mapThreads_strm (s : State) (f : Thread → Thread) : (mapThreads s f).strm = s.strm := rfl
@[simp] theorem mapThreads_agenda (s : State) (f : Thread → Thread) : (mapThreads s f).agenda = s.agenda := rfl
@[simp] theorem mapThreads_beat (s : State) (f : Thread → Thread) : (mapThreads s f).beat = s.beat := rfl
@[simp] theorem mapThreads_clock (s : State) (f : Thread → Thread) : (mapThreads s f).clock = s.clock := rfl
@[simp] theorem mapThreads_cycles (s : State) (f : Thread → Thread) : (mapThreads s f).cycles = s.cycles := rfl
@[simp] theorem mapThreads_mem (s : State) (f : Thread → Thread) : (mapThreads s f).mem = s.mem := rfl
@[simp] theorem mapThreads_uce (s : State) (f : Thread → Thread) : (mapThreads s f).uce = s.uce := rfl
@[simp] theorem mapThreads_parts (s : State) (f : Thread → Thread) : (mapThreads s f).parts = s.parts := rfl
@[simp] theorem mapThreads_gangs (s : State) (f : Thread → Thread) : (mapThreads s f).gangs = s.gangs := rfl
@[simp] theorem mapThreads_launches (s : State) (f : Thread → Thread) : (mapThreads s f).launches = s.launches := rfl
@[simp] theorem mapThreads_lastSerial (s : State) (f : Thread → Thread) : (mapThreads s f).lastSerial = s.lastSerial := rfl
@[simp] theorem mapThreads_names (s : State) (f : Thread → Thread) : (mapThreads s f).names = s.names := rfl
@[simp] theorem mapThreads_sites (s : State) (f : Thread → Thread) : (mapThreads s f).sites = s.sites := rfl
@[simp] theorem mapThreads_stamps (s : State) (f : Thread → Thread) : (mapThreads s f).stamps = s.stamps := rfl
@[simp] theorem mapThreads_stampUse (s : State) (f : Thread → Thread) : (mapThreads s f).stampUse = s.stampUse := rfl
@[simp] theorem mapThreads_tlb (s : State) (f : Thread → Thread) : (mapThreads s f).tlb = s.tlb := rfl
@[simp] theorem mapThreads_frames (s : State) (f : Thread → Thread) : (mapThreads s f).frames = s.frames := rfl
@[simp] theorem mapThreads_reqs (s : State) (f : Thread → Thread) : (mapThreads s f).reqs = s.reqs := rfl
@[simp] theorem mapThreads_nextReq (s : State) (f : Thread → Thread) : (mapThreads s f).nextReq = s.nextReq := rfl
@[simp] theorem mapThreads_sent (s : State) (f : Thread → Thread) : (mapThreads s f).sent = s.sent := rfl
@[simp] theorem mapThreads_drawn (s : State) (f : Thread → Thread) : (mapThreads s f).drawn = s.drawn := rfl
@[simp] theorem mapThreads_rstores (s : State) (f : Thread → Thread) : (mapThreads s f).rstores = s.rstores := rfl
@[simp] theorem mapThreads_ranswers (s : State) (f : Thread → Thread) : (mapThreads s f).ranswers = s.ranswers := rfl
@[simp] theorem mapThreads_rounds (s : State) (f : Thread → Thread) : (mapThreads s f).rounds = s.rounds := rfl
@[simp] theorem mapThreads_flushed (s : State) (f : Thread → Thread) : (mapThreads s f).flushed = s.flushed := rfl
@[simp] theorem mapThreads_failedLinks (s : State) (f : Thread → Thread) : (mapThreads s f).failedLinks = s.failedLinks := rfl
@[simp] theorem mapThreads_cores (s : State) (f : Thread → Thread) : (mapThreads s f).cores = s.cores := rfl
@[simp] theorem mapThreads_counters (s : State) (f : Thread → Thread) : (mapThreads s f).counters = s.counters := rfl
@[simp] theorem mapThreads_rowq (s : State) (f : Thread → Thread) : (mapThreads s f).rowq = s.rowq := rfl
@[simp] theorem mapThreads_remap (s : State) (f : Thread → Thread) : (mapThreads s f).remap = s.remap := rfl
@[simp] theorem mapThreads_shareTurn (s : State) (f : Thread → Thread) : (mapThreads s f).shareTurn = s.shareTurn := rfl
@[simp] theorem mapThreads_serTurn (s : State) (f : Thread → Thread) : (mapThreads s f).serTurn = s.serTurn := rfl
@[simp] theorem mapThreads_laneTurn (s : State) (f : Thread → Thread) : (mapThreads s f).laneTurn = s.laneTurn := rfl
@[simp] theorem mapThreads_health (s : State) (f : Thread → Thread) : (mapThreads s f).health = s.health := rfl
@[simp] theorem mapThreads_trust (s : State) (f : Thread → Thread) : (mapThreads s f).trust = s.trust := rfl
@[simp] theorem mapThreads_hostLog (s : State) (f : Thread → Thread) : (mapThreads s f).hostLog = s.hostLog := rfl

/-! ## A counter counted, a park, and the end of an instruction -/

@[simp] theorem count_th (s : State) (t : Thread) (n k : Nat) : (count s t n k).th = s.th := by unfold count; split <;> rfl
@[simp] theorem count_strm (s : State) (t : Thread) (n k : Nat) : (count s t n k).strm = s.strm := by unfold count; split <;> rfl
@[simp] theorem count_others (s : State) (t : Thread) (n k : Nat) : (count s t n k).others = s.others := by unfold count; split <;> rfl
@[simp] theorem count_agenda (s : State) (t : Thread) (n k : Nat) : (count s t n k).agenda = s.agenda := by unfold count; split <;> rfl
@[simp] theorem count_beat (s : State) (t : Thread) (n k : Nat) : (count s t n k).beat = s.beat := by unfold count; split <;> rfl
@[simp] theorem count_clock (s : State) (t : Thread) (n k : Nat) : (count s t n k).clock = s.clock := by unfold count; split <;> rfl
@[simp] theorem count_cycles (s : State) (t : Thread) (n k : Nat) : (count s t n k).cycles = s.cycles := by unfold count; split <;> rfl
@[simp] theorem count_mem (s : State) (t : Thread) (n k : Nat) : (count s t n k).mem = s.mem := by unfold count; split <;> rfl
@[simp] theorem count_uce (s : State) (t : Thread) (n k : Nat) : (count s t n k).uce = s.uce := by unfold count; split <;> rfl
@[simp] theorem count_parts (s : State) (t : Thread) (n k : Nat) : (count s t n k).parts = s.parts := by unfold count; split <;> rfl
@[simp] theorem count_gangs (s : State) (t : Thread) (n k : Nat) : (count s t n k).gangs = s.gangs := by unfold count; split <;> rfl
@[simp] theorem count_launches (s : State) (t : Thread) (n k : Nat) : (count s t n k).launches = s.launches := by unfold count; split <;> rfl
@[simp] theorem count_lastSerial (s : State) (t : Thread) (n k : Nat) : (count s t n k).lastSerial = s.lastSerial := by unfold count; split <;> rfl
@[simp] theorem count_names (s : State) (t : Thread) (n k : Nat) : (count s t n k).names = s.names := by unfold count; split <;> rfl
@[simp] theorem count_sites (s : State) (t : Thread) (n k : Nat) : (count s t n k).sites = s.sites := by unfold count; split <;> rfl
@[simp] theorem count_stamps (s : State) (t : Thread) (n k : Nat) : (count s t n k).stamps = s.stamps := by unfold count; split <;> rfl
@[simp] theorem count_stampUse (s : State) (t : Thread) (n k : Nat) : (count s t n k).stampUse = s.stampUse := by unfold count; split <;> rfl
@[simp] theorem count_tlb (s : State) (t : Thread) (n k : Nat) : (count s t n k).tlb = s.tlb := by unfold count; split <;> rfl
@[simp] theorem count_frames (s : State) (t : Thread) (n k : Nat) : (count s t n k).frames = s.frames := by unfold count; split <;> rfl
@[simp] theorem count_reqs (s : State) (t : Thread) (n k : Nat) : (count s t n k).reqs = s.reqs := by unfold count; split <;> rfl
@[simp] theorem count_nextReq (s : State) (t : Thread) (n k : Nat) : (count s t n k).nextReq = s.nextReq := by unfold count; split <;> rfl
@[simp] theorem count_sent (s : State) (t : Thread) (n k : Nat) : (count s t n k).sent = s.sent := by unfold count; split <;> rfl
@[simp] theorem count_drawn (s : State) (t : Thread) (n k : Nat) : (count s t n k).drawn = s.drawn := by unfold count; split <;> rfl
@[simp] theorem count_rstores (s : State) (t : Thread) (n k : Nat) : (count s t n k).rstores = s.rstores := by unfold count; split <;> rfl
@[simp] theorem count_ranswers (s : State) (t : Thread) (n k : Nat) : (count s t n k).ranswers = s.ranswers := by unfold count; split <;> rfl
@[simp] theorem count_rounds (s : State) (t : Thread) (n k : Nat) : (count s t n k).rounds = s.rounds := by unfold count; split <;> rfl
@[simp] theorem count_flushed (s : State) (t : Thread) (n k : Nat) : (count s t n k).flushed = s.flushed := by unfold count; split <;> rfl
@[simp] theorem count_failedLinks (s : State) (t : Thread) (n k : Nat) : (count s t n k).failedLinks = s.failedLinks := by unfold count; split <;> rfl
@[simp] theorem count_cores (s : State) (t : Thread) (n k : Nat) : (count s t n k).cores = s.cores := by unfold count; split <;> rfl
@[simp] theorem count_rowq (s : State) (t : Thread) (n k : Nat) : (count s t n k).rowq = s.rowq := by unfold count; split <;> rfl
@[simp] theorem count_remap (s : State) (t : Thread) (n k : Nat) : (count s t n k).remap = s.remap := by unfold count; split <;> rfl
@[simp] theorem count_shareTurn (s : State) (t : Thread) (n k : Nat) : (count s t n k).shareTurn = s.shareTurn := by unfold count; split <;> rfl
@[simp] theorem count_serTurn (s : State) (t : Thread) (n k : Nat) : (count s t n k).serTurn = s.serTurn := by unfold count; split <;> rfl
@[simp] theorem count_laneTurn (s : State) (t : Thread) (n k : Nat) : (count s t n k).laneTurn = s.laneTurn := by unfold count; split <;> rfl
@[simp] theorem count_health (s : State) (t : Thread) (n k : Nat) : (count s t n k).health = s.health := by unfold count; split <;> rfl
@[simp] theorem count_trust (s : State) (t : Thread) (n k : Nat) : (count s t n k).trust = s.trust := by unfold count; split <;> rfl
@[simp] theorem count_hostLog (s : State) (t : Thread) (n k : Nat) : (count s t n k).hostLog = s.hostLog := by unfold count; split <;> rfl
@[simp] theorem takePark_strm (s : State) (p : Park) : (takePark s p).strm = s.strm := rfl
@[simp] theorem takePark_others (s : State) (p : Park) : (takePark s p).others = s.others := rfl
@[simp] theorem takePark_agenda (s : State) (p : Park) : (takePark s p).agenda = s.agenda := rfl
@[simp] theorem takePark_beat (s : State) (p : Park) : (takePark s p).beat = s.beat := rfl
@[simp] theorem takePark_clock (s : State) (p : Park) : (takePark s p).clock = s.clock := rfl
@[simp] theorem takePark_cycles (s : State) (p : Park) : (takePark s p).cycles = s.cycles := rfl
@[simp] theorem takePark_mem (s : State) (p : Park) : (takePark s p).mem = s.mem := rfl
@[simp] theorem takePark_uce (s : State) (p : Park) : (takePark s p).uce = s.uce := rfl
@[simp] theorem takePark_parts (s : State) (p : Park) : (takePark s p).parts = s.parts := rfl
@[simp] theorem takePark_gangs (s : State) (p : Park) : (takePark s p).gangs = s.gangs := rfl
@[simp] theorem takePark_launches (s : State) (p : Park) : (takePark s p).launches = s.launches := rfl
@[simp] theorem takePark_lastSerial (s : State) (p : Park) : (takePark s p).lastSerial = s.lastSerial := rfl
@[simp] theorem takePark_names (s : State) (p : Park) : (takePark s p).names = s.names := rfl
@[simp] theorem takePark_sites (s : State) (p : Park) : (takePark s p).sites = s.sites := rfl
@[simp] theorem takePark_stamps (s : State) (p : Park) : (takePark s p).stamps = s.stamps := rfl
@[simp] theorem takePark_stampUse (s : State) (p : Park) : (takePark s p).stampUse = s.stampUse := rfl
@[simp] theorem takePark_tlb (s : State) (p : Park) : (takePark s p).tlb = s.tlb := rfl
@[simp] theorem takePark_frames (s : State) (p : Park) : (takePark s p).frames = s.frames := rfl
@[simp] theorem takePark_reqs (s : State) (p : Park) : (takePark s p).reqs = s.reqs := rfl
@[simp] theorem takePark_nextReq (s : State) (p : Park) : (takePark s p).nextReq = s.nextReq := rfl
@[simp] theorem takePark_sent (s : State) (p : Park) : (takePark s p).sent = s.sent := rfl
@[simp] theorem takePark_drawn (s : State) (p : Park) : (takePark s p).drawn = s.drawn := rfl
@[simp] theorem takePark_rstores (s : State) (p : Park) : (takePark s p).rstores = s.rstores := rfl
@[simp] theorem takePark_ranswers (s : State) (p : Park) : (takePark s p).ranswers = s.ranswers := rfl
@[simp] theorem takePark_rounds (s : State) (p : Park) : (takePark s p).rounds = s.rounds := rfl
@[simp] theorem takePark_flushed (s : State) (p : Park) : (takePark s p).flushed = s.flushed := rfl
@[simp] theorem takePark_failedLinks (s : State) (p : Park) : (takePark s p).failedLinks = s.failedLinks := rfl
@[simp] theorem takePark_cores (s : State) (p : Park) : (takePark s p).cores = s.cores := rfl
@[simp] theorem takePark_counters (s : State) (p : Park) : (takePark s p).counters = s.counters := rfl
@[simp] theorem takePark_rowq (s : State) (p : Park) : (takePark s p).rowq = s.rowq := rfl
@[simp] theorem takePark_remap (s : State) (p : Park) : (takePark s p).remap = s.remap := rfl
@[simp] theorem takePark_shareTurn (s : State) (p : Park) : (takePark s p).shareTurn = s.shareTurn := rfl
@[simp] theorem takePark_serTurn (s : State) (p : Park) : (takePark s p).serTurn = s.serTurn := rfl
@[simp] theorem takePark_laneTurn (s : State) (p : Park) : (takePark s p).laneTurn = s.laneTurn := rfl
@[simp] theorem takePark_health (s : State) (p : Park) : (takePark s p).health = s.health := rfl
@[simp] theorem takePark_trust (s : State) (p : Park) : (takePark s p).trust = s.trust := rfl
@[simp] theorem takePark_hostLog (s : State) (p : Park) : (takePark s p).hostLog = s.hostLog := rfl
@[simp] theorem countIssue_strm (s : State) : (countIssue s).strm = s.strm := by unfold countIssue; split <;> simp
@[simp] theorem countIssue_others (s : State) : (countIssue s).others = s.others := by unfold countIssue; split <;> simp
@[simp] theorem countIssue_agenda (s : State) : (countIssue s).agenda = s.agenda := by unfold countIssue; split <;> simp
@[simp] theorem countIssue_beat (s : State) : (countIssue s).beat = s.beat := by unfold countIssue; split <;> simp
@[simp] theorem countIssue_clock (s : State) : (countIssue s).clock = s.clock := by unfold countIssue; split <;> simp
@[simp] theorem countIssue_cycles (s : State) : (countIssue s).cycles = s.cycles := by unfold countIssue; split <;> simp
@[simp] theorem countIssue_mem (s : State) : (countIssue s).mem = s.mem := by unfold countIssue; split <;> simp
@[simp] theorem countIssue_uce (s : State) : (countIssue s).uce = s.uce := by unfold countIssue; split <;> simp
@[simp] theorem countIssue_parts (s : State) : (countIssue s).parts = s.parts := by unfold countIssue; split <;> simp
@[simp] theorem countIssue_gangs (s : State) : (countIssue s).gangs = s.gangs := by unfold countIssue; split <;> simp
@[simp] theorem countIssue_launches (s : State) : (countIssue s).launches = s.launches := by unfold countIssue; split <;> simp
@[simp] theorem countIssue_lastSerial (s : State) : (countIssue s).lastSerial = s.lastSerial := by unfold countIssue; split <;> simp
@[simp] theorem countIssue_names (s : State) : (countIssue s).names = s.names := by unfold countIssue; split <;> simp
@[simp] theorem countIssue_sites (s : State) : (countIssue s).sites = s.sites := by unfold countIssue; split <;> simp
@[simp] theorem countIssue_stamps (s : State) : (countIssue s).stamps = s.stamps := by unfold countIssue; split <;> simp
@[simp] theorem countIssue_stampUse (s : State) : (countIssue s).stampUse = s.stampUse := by unfold countIssue; split <;> simp
@[simp] theorem countIssue_tlb (s : State) : (countIssue s).tlb = s.tlb := by unfold countIssue; split <;> simp
@[simp] theorem countIssue_frames (s : State) : (countIssue s).frames = s.frames := by unfold countIssue; split <;> simp
@[simp] theorem countIssue_reqs (s : State) : (countIssue s).reqs = s.reqs := by unfold countIssue; split <;> simp
@[simp] theorem countIssue_nextReq (s : State) : (countIssue s).nextReq = s.nextReq := by unfold countIssue; split <;> simp
@[simp] theorem countIssue_sent (s : State) : (countIssue s).sent = s.sent := by unfold countIssue; split <;> simp
@[simp] theorem countIssue_drawn (s : State) : (countIssue s).drawn = s.drawn := by unfold countIssue; split <;> simp
@[simp] theorem countIssue_rstores (s : State) : (countIssue s).rstores = s.rstores := by unfold countIssue; split <;> simp
@[simp] theorem countIssue_ranswers (s : State) : (countIssue s).ranswers = s.ranswers := by unfold countIssue; split <;> simp
@[simp] theorem countIssue_rounds (s : State) : (countIssue s).rounds = s.rounds := by unfold countIssue; split <;> simp
@[simp] theorem countIssue_flushed (s : State) : (countIssue s).flushed = s.flushed := by unfold countIssue; split <;> simp
@[simp] theorem countIssue_failedLinks (s : State) : (countIssue s).failedLinks = s.failedLinks := by unfold countIssue; split <;> simp
@[simp] theorem countIssue_cores (s : State) : (countIssue s).cores = s.cores := by unfold countIssue; split <;> simp
@[simp] theorem countIssue_rowq (s : State) : (countIssue s).rowq = s.rowq := by unfold countIssue; split <;> simp
@[simp] theorem countIssue_remap (s : State) : (countIssue s).remap = s.remap := by unfold countIssue; split <;> simp
@[simp] theorem countIssue_shareTurn (s : State) : (countIssue s).shareTurn = s.shareTurn := by unfold countIssue; split <;> simp
@[simp] theorem countIssue_serTurn (s : State) : (countIssue s).serTurn = s.serTurn := by unfold countIssue; split <;> simp
@[simp] theorem countIssue_laneTurn (s : State) : (countIssue s).laneTurn = s.laneTurn := by unfold countIssue; split <;> simp
@[simp] theorem countIssue_health (s : State) : (countIssue s).health = s.health := by unfold countIssue; split <;> simp
@[simp] theorem countIssue_trust (s : State) : (countIssue s).trust = s.trust := by unfold countIssue; split <;> simp
@[simp] theorem countIssue_hostLog (s : State) : (countIssue s).hostLog = s.hostLog := by unfold countIssue; split <;> simp
@[simp] theorem countIssue_th (s : State) : (countIssue s).th = s.th := by unfold countIssue; split <;> simp
@[simp] theorem retire_strm (s : State) : (retire s).strm = s.strm := by simp [retire]
@[simp] theorem retire_others (s : State) : (retire s).others = s.others := by simp [retire]
@[simp] theorem retire_agenda (s : State) : (retire s).agenda = s.agenda := by simp [retire]
@[simp] theorem retire_beat (s : State) : (retire s).beat = s.beat := by simp [retire]
@[simp] theorem retire_clock (s : State) : (retire s).clock = s.clock := by simp [retire]
@[simp] theorem retire_cycles (s : State) : (retire s).cycles = s.cycles := by simp [retire]
@[simp] theorem retire_mem (s : State) : (retire s).mem = s.mem := by simp [retire]
@[simp] theorem retire_uce (s : State) : (retire s).uce = s.uce := by simp [retire]
@[simp] theorem retire_parts (s : State) : (retire s).parts = s.parts := by simp [retire]
@[simp] theorem retire_gangs (s : State) : (retire s).gangs = s.gangs := by simp [retire]
@[simp] theorem retire_launches (s : State) : (retire s).launches = s.launches := by simp [retire]
@[simp] theorem retire_lastSerial (s : State) : (retire s).lastSerial = s.lastSerial := by simp [retire]
@[simp] theorem retire_names (s : State) : (retire s).names = s.names := by simp [retire]
@[simp] theorem retire_sites (s : State) : (retire s).sites = s.sites := by simp [retire]
@[simp] theorem retire_stamps (s : State) : (retire s).stamps = s.stamps := by simp [retire]
@[simp] theorem retire_stampUse (s : State) : (retire s).stampUse = s.stampUse := by simp [retire]
@[simp] theorem retire_tlb (s : State) : (retire s).tlb = s.tlb := by simp [retire]
@[simp] theorem retire_frames (s : State) : (retire s).frames = s.frames := by simp [retire]
@[simp] theorem retire_reqs (s : State) : (retire s).reqs = s.reqs := by simp [retire]
@[simp] theorem retire_nextReq (s : State) : (retire s).nextReq = s.nextReq := by simp [retire]
@[simp] theorem retire_sent (s : State) : (retire s).sent = s.sent := by simp [retire]
@[simp] theorem retire_drawn (s : State) : (retire s).drawn = s.drawn := by simp [retire]
@[simp] theorem retire_rstores (s : State) : (retire s).rstores = s.rstores := by simp [retire]
@[simp] theorem retire_ranswers (s : State) : (retire s).ranswers = s.ranswers := by simp [retire]
@[simp] theorem retire_rounds (s : State) : (retire s).rounds = s.rounds := by simp [retire]
@[simp] theorem retire_flushed (s : State) : (retire s).flushed = s.flushed := by simp [retire]
@[simp] theorem retire_failedLinks (s : State) : (retire s).failedLinks = s.failedLinks := by simp [retire]
@[simp] theorem retire_cores (s : State) : (retire s).cores = s.cores := by simp [retire]
@[simp] theorem retire_rowq (s : State) : (retire s).rowq = s.rowq := by simp [retire]
@[simp] theorem retire_remap (s : State) : (retire s).remap = s.remap := by simp [retire]
@[simp] theorem retire_shareTurn (s : State) : (retire s).shareTurn = s.shareTurn := by simp [retire]
@[simp] theorem retire_serTurn (s : State) : (retire s).serTurn = s.serTurn := by simp [retire]
@[simp] theorem retire_laneTurn (s : State) : (retire s).laneTurn = s.laneTurn := by simp [retire]
@[simp] theorem retire_health (s : State) : (retire s).health = s.health := by simp [retire]
@[simp] theorem retire_trust (s : State) : (retire s).trust = s.trust := by simp [retire]
@[simp] theorem retire_hostLog (s : State) : (retire s).hostLog = s.hostLog := by simp [retire]
@[simp] theorem advance_strm (s : State) : (advance s).strm = s.strm := rfl
@[simp] theorem advance_others (s : State) : (advance s).others = s.others := rfl
@[simp] theorem advance_agenda (s : State) : (advance s).agenda = s.agenda := rfl
@[simp] theorem advance_beat (s : State) : (advance s).beat = s.beat := rfl
@[simp] theorem advance_clock (s : State) : (advance s).clock = s.clock := rfl
@[simp] theorem advance_cycles (s : State) : (advance s).cycles = s.cycles := rfl
@[simp] theorem advance_mem (s : State) : (advance s).mem = s.mem := rfl
@[simp] theorem advance_uce (s : State) : (advance s).uce = s.uce := rfl
@[simp] theorem advance_parts (s : State) : (advance s).parts = s.parts := rfl
@[simp] theorem advance_gangs (s : State) : (advance s).gangs = s.gangs := rfl
@[simp] theorem advance_launches (s : State) : (advance s).launches = s.launches := rfl
@[simp] theorem advance_lastSerial (s : State) : (advance s).lastSerial = s.lastSerial := rfl
@[simp] theorem advance_names (s : State) : (advance s).names = s.names := rfl
@[simp] theorem advance_sites (s : State) : (advance s).sites = s.sites := rfl
@[simp] theorem advance_stamps (s : State) : (advance s).stamps = s.stamps := rfl
@[simp] theorem advance_stampUse (s : State) : (advance s).stampUse = s.stampUse := rfl
@[simp] theorem advance_tlb (s : State) : (advance s).tlb = s.tlb := rfl
@[simp] theorem advance_frames (s : State) : (advance s).frames = s.frames := rfl
@[simp] theorem advance_reqs (s : State) : (advance s).reqs = s.reqs := rfl
@[simp] theorem advance_nextReq (s : State) : (advance s).nextReq = s.nextReq := rfl
@[simp] theorem advance_sent (s : State) : (advance s).sent = s.sent := rfl
@[simp] theorem advance_drawn (s : State) : (advance s).drawn = s.drawn := rfl
@[simp] theorem advance_rstores (s : State) : (advance s).rstores = s.rstores := rfl
@[simp] theorem advance_ranswers (s : State) : (advance s).ranswers = s.ranswers := rfl
@[simp] theorem advance_rounds (s : State) : (advance s).rounds = s.rounds := rfl
@[simp] theorem advance_flushed (s : State) : (advance s).flushed = s.flushed := rfl
@[simp] theorem advance_failedLinks (s : State) : (advance s).failedLinks = s.failedLinks := rfl
@[simp] theorem advance_cores (s : State) : (advance s).cores = s.cores := rfl
@[simp] theorem advance_counters (s : State) : (advance s).counters = s.counters := rfl
@[simp] theorem advance_rowq (s : State) : (advance s).rowq = s.rowq := rfl
@[simp] theorem advance_remap (s : State) : (advance s).remap = s.remap := rfl
@[simp] theorem advance_shareTurn (s : State) : (advance s).shareTurn = s.shareTurn := rfl
@[simp] theorem advance_serTurn (s : State) : (advance s).serTurn = s.serTurn := rfl
@[simp] theorem advance_laneTurn (s : State) : (advance s).laneTurn = s.laneTurn := rfl
@[simp] theorem advance_health (s : State) : (advance s).health = s.health := rfl
@[simp] theorem advance_trust (s : State) : (advance s).trust = s.trust := rfl
@[simp] theorem advance_hostLog (s : State) : (advance s).hostLog = s.hostLog := rfl

end Sys2Proof.Machine
end

