-- ==== Sys2Proof/Laws/Issue.lean ====
section
/-! SUPPORT. What issuing an instruction comes to, said once: its effect and the end of the instruction where the decode
checks pass, a trap or a park where they do not (R101, R78, R251). -/

namespace Sys2Proof.Machine

/-! ## Effects -/

theorem M.bind_ok {α β : Type} {x : M α} {f : α → M β} {s s' : State} {a : α} (h : x s = .ok (a, s')) :
    (x >>= f) s = f a s' := by
  show Except.bind (x s) _ = _
  rw [h]; rfl

theorem M.bind_error {α β : Type} {x : M α} {f : α → M β} {s : State} {e : Stop} (h : x s = .error e) :
    (x >>= f) s = .error e := by
  show Except.bind (x s) _ = _
  rw [h]; rfl

theorem M.bind_apply {α β : Type} (x : M α) (f : α → M β) (s : State) :
    (x >>= f) s = match x s with
      | .ok (a, s') => f a s'
      | .error e => .error e := by
  show Except.bind (x s) _ = _
  cases x s <;> rfl

/-- An effect in two parts completes only if both do. -/
theorem M.bind_eq_ok {α β : Type} {x : M α} {f : α → M β} {s s'' : State} {b : β} (h : (x >>= f) s = .ok (b, s'')) :
    ∃ a s', x s = .ok (a, s') ∧ f a s' = .ok (b, s'') := by
  cases hx : x s with
  | error e => rw [M.bind_error hx] at h; cases h
  | ok p => exact ⟨p.1, p.2, rfl, by rw [M.bind_ok (a := p.1) (s' := p.2) hx] at h; exact h⟩

@[simp] theorem M.pure_apply {α : Type} (a : α) (s : State) : (pure a : M α) s = .ok (a, s) := rfl
@[simp] theorem M.upd_apply (f : State → State) (s : State) : upd f s = .ok ((), f s) := rfl
@[simp] theorem M.see_apply {α : Type} (f : State → α) (s : State) : see f s = .ok (f s, s) := rfl
@[simp] theorem M.get_apply (s : State) : (get : M State) s = .ok (s, s) := rfl
@[simp] theorem M.set_apply (s t : State) : (set t : M Unit) s = .ok ((), t) := rfl
@[simp] theorem M.updT_apply (f : Thread → Thread) (s : State) : updT f s = .ok ((), s.updTh f) := rfl
@[simp] theorem M.updC_apply (f : Stream → Stream) (s : State) : updC f s = .ok ((), s.updCur f) := rfl
@[simp] theorem M.trap_apply {α : Type} (c : BitVec 8) (e : Dword) (s : State) :
    (trap c e : M α) s = .error (.trap c e) := rfl
@[simp] theorem M.trapHere_apply {α : Type} (c : BitVec 8) (e : Dword) (s : State) :
    (trapHere c e : M α) s = .error (.trapIn s c e) := rfl
@[simp] theorem M.park_apply {α : Type} (p : Park) (s : State) : (park p : M α) s = .error (.park p) := rfl
@[simp] theorem M.parkHere_apply {α : Type} (p : Park) (s : State) :
    (parkHere p : M α) s = .error (.parkIn s p) := rfl
@[simp] theorem M.parkAgain_apply {α : Type} (p : Park) (s : State) :
    (parkAgain p : M α) s = .error (.again s p) := rfl
@[simp] theorem M.need_true (c : BitVec 8) (e : Dword) : need true c e = pure () := rfl
@[simp] theorem M.need_false (c : BitVec 8) (e : Dword) : need false c e = trap c e := rfl

/-- `need` completes where its condition holds, and leaves the state. -/
theorem M.need_ok {b : Bool} {c : BitVec 8} {e : Dword} {s : State} (h : b = true) : need b c e s = .ok ((), s) := by
  subst h; rfl

/-! ## Issue -/

/-- Readiness, taken apart for an operation whose word names it. -/
theorem ready_spec {i : Instr} {o : Op} {s : State} (h : Ready i s = true) (ho : opOf (encode i) = some o) :
    gate o (encode i) s = none ∧
      (if o == .vhold || o == .gmbox then none else heldName s.th (opInfo (encode i) o).ops) = none ∧ stalls o (encode i) s = false := by
  unfold Ready at h
  rw [ho] at h
  simp only [Bool.and_eq_true, Bool.or_eq_true, Option.isNone_iff_eq_none, Bool.not_eq_true'] at h
  refine ⟨h.1.1, ?_, h.2⟩
  split
  · rfl
  · next hv =>
    cases h.1.2 with
    | inl hk => exact absurd (Bool.or_eq_true _ _ |>.mpr hk) hv
    | inr hn => exact hn

/-- An instruction that passes the checks comes to what its effect comes to. -/
theorem issue_ready {i : Instr} {o : Op} {s : State} (body : M Unit) (h : Ready i s = true)
    (ho : opOf (encode i) = some o) : issue o (encode i) body s = settle s ((do body; upd retire : M Unit) s) := by
  obtain ⟨hg, hh, hw⟩ := ready_spec h ho
  simp only [issue, hg, hh, hw, Bool.false_eq_true, if_false]

/-- The same, said of `exec`: `hx` is `rfl` for an instruction whose meaning is an `issue`. -/
theorem exec_run {i : Instr} {o : Op} {s : State} {body : M Unit} (h : Ready i s = true) (ho : opOf (encode i) = some o)
    (hx : exec i s = issue o (encode i) body s) : exec i s = settle s ((do body; upd retire : M Unit) s) :=
  hx.trans (issue_ready body h ho)

/-- The same, for an instruction that the next word follows. -/
theorem exec_runN {i : Instr} {o : Op} {s : State} {body : M Unit} (h : Ready i s = true) (ho : opOf (encode i) = some o)
    (hx : exec i s = issueN o (encode i) body s) :
    exec i s = settle s ((do body; upd fun s => retire (advance s) : M Unit) s) := by
  rw [hx, issueN, issue_ready _ h ho]
  congr 1
  simp only [M.bind_apply]
  cases body s <;> rfl

/-- The effect completes: the instruction ends. -/
theorem issue_ok {i : Instr} {o : Op} {s s' : State} {body : M Unit} (h : Ready i s = true)
    (ho : opOf (encode i) = some o) (hb : body s = .ok ((), s')) :
    issue o (encode i) body s = .next (retire s') := by
  rw [issue_ready body h ho, M.bind_ok hb]; rfl

/-- The effect completes and the next word follows. -/
theorem issueN_ok {i : Instr} {o : Op} {s s' : State} {body : M Unit} (h : Ready i s = true)
    (ho : opOf (encode i) = some o) (hb : body s = .ok ((), s')) :
    issueN o (encode i) body s = .next (retire (advance s')) :=
  issue_ok h ho (by rw [M.bind_ok hb]; rfl)

/-- The effect stops: the trap or the park is taken in the state the instruction found, or as the stop says. -/
theorem issue_stop {i : Instr} {o : Op} {s : State} {e : Stop} {body : M Unit} (h : Ready i s = true)
    (ho : opOf (encode i) = some o) (hb : body s = .error e) :
    issue o (encode i) body s = settle s (.error e) := by
  rw [issue_ready body h ho, M.bind_error hb]

theorem issueN_stop {i : Instr} {o : Op} {s : State} {e : Stop} {body : M Unit} (h : Ready i s = true)
    (ho : opOf (encode i) = some o) (hb : body s = .error e) :
    issueN o (encode i) body s = settle s (.error e) :=
  issue_stop h ho (M.bind_error hb)

/-- What an effect comes to is always a next state. -/
theorem settle_next (s : State) (r : Except Stop (Unit × State)) : ∃ t, settle s r = .next t := by
  cases r with
  | ok p => exact ⟨p.2, rfl⟩
  | error e => cases e <;> exact ⟨_, rfl⟩

/-- Issuing always answers a next state. -/
theorem issue_next (o : Op) (w : Word) (body : M Unit) (s : State) : ∃ t, issue o w body s = .next t := by
  unfold issue
  split
  · exact ⟨_, rfl⟩
  · split
    · exact ⟨_, rfl⟩
    · split
      · exact ⟨_, rfl⟩
      · exact settle_next s _

theorem issueN_next (o : Op) (w : Word) (body : M Unit) (s : State) : ∃ t, issueN o w body s = .next t :=
  issue_next o w _ s

/-- What issuing comes to: a trap of the checks, a park on a held register, a stall for earlier work, or the effect. -/
theorem issue_cases (o : Op) (w : Word) (body : M Unit) (s : State) :
    (∃ c e, gate o w s = some (c, e) ∧ issue o w body s = .next (takeTrap s c e)) ∨
    (∃ ph, heldName s.th (opInfo w o).ops = some ph ∧ issue o w body s = .next (takePark s (.held ph))) ∨
    issue o w body s = .next (takePark s .work) ∨
    (gate o w s = none ∧ issue o w body s = settle s ((do body; upd retire : M Unit) s)) := by
  unfold issue
  split
  · next c e h => exact .inl ⟨c, e, h, rfl⟩
  · next h =>
    split
    · next ph hp =>
      refine .inr (.inl ⟨ph, ?_, rfl⟩)
      split at hp
      · cases hp
      · exact hp
    · split
      · exact .inr (.inr (.inl rfl))
      · exact .inr (.inr (.inr ⟨h, rfl⟩))

end Sys2Proof.Machine
end

