-- ==== Sys2Proof/Laws/Exec.lean ====
section
/-! SUPPORT. Every encoded instruction is an issue of its own operation (R101): the checks, then its effect. -/

namespace Sys2Proof.Machine
open Sys2Proof.Laws

theorem exec_issue (i : Instr) (h : instrIsEvent i = false) (ho : i.ownRow = true) :
    ∃ o body, opOf (encode i) = some o ∧ ∀ s, exec i s = issue o (encode i) body s := by
  cases i with
  | add => exact ⟨.add, _, op_add _ _ _, fun _ => rfl⟩
  | sub => exact ⟨.sub, _, op_sub _ _ _, fun _ => rfl⟩
  | and => exact ⟨.and, _, op_and _ _ _, fun _ => rfl⟩
  | or => exact ⟨.or, _, op_or _ _ _, fun _ => rfl⟩
  | xor => exact ⟨.xor, _, op_xor _ _ _, fun _ => rfl⟩
  | shl => exact ⟨.shl, _, op_shl _ _ _, fun _ => rfl⟩
  | shr => exact ⟨.shr, _, op_shr _ _ _, fun _ => rfl⟩
  | sra => exact ⟨.sra, _, op_sra _ _ _, fun _ => rfl⟩
  | min => exact ⟨.min, _, op_min _ _ _, fun _ => rfl⟩
  | max => exact ⟨.max, _, op_max _ _ _, fun _ => rfl⟩
  | minu => exact ⟨.minu, _, op_minu _ _ _, fun _ => rfl⟩
  | maxu => exact ⟨.maxu, _, op_maxu _ _ _, fun _ => rfl⟩
  | slt => exact ⟨.slt, _, op_slt _ _ _, fun _ => rfl⟩
  | sltu => exact ⟨.sltu, _, op_sltu _ _ _, fun _ => rfl⟩
  | seq => exact ⟨.seq, _, op_seq _ _ _, fun _ => rfl⟩
  | sel => exact ⟨.sel, _, op_sel _ _ _, fun _ => rfl⟩
  | mul => exact ⟨.mul, _, op_mul _ _ _, fun _ => rfl⟩
  | mulh => exact ⟨.mulh, _, op_mulh _ _ _, fun _ => rfl⟩
  | mulhu => exact ⟨.mulhu, _, op_mulhu _ _ _, fun _ => rfl⟩
  | div => exact ⟨.div, _, op_div _ _ _, fun _ => rfl⟩
  | divu => exact ⟨.divu, _, op_divu _ _ _, fun _ => rfl⟩
  | rem => exact ⟨.rem, _, op_rem _ _ _, fun _ => rfl⟩
  | remu => exact ⟨.remu, _, op_remu _ _ _, fun _ => rfl⟩
  | clz => exact ⟨.clz, _, op_clz _ _, fun _ => rfl⟩
  | ctz => exact ⟨.ctz, _, op_ctz _ _, fun _ => rfl⟩
  | popc => exact ⟨.popc, _, op_popc _ _, fun _ => rfl⟩
  | sxb => exact ⟨.sxb, _, op_sxb _ _, fun _ => rfl⟩
  | sxh => exact ⟨.sxh, _, op_sxh _ _, fun _ => rfl⟩
  | sxw => exact ⟨.sxw, _, op_sxw _ _, fun _ => rfl⟩
  | addi => exact ⟨.addi, _, op_addi _ _ _, fun _ => rfl⟩
  | andi => exact ⟨.andi, _, op_andi _ _ _, fun _ => rfl⟩
  | ori => exact ⟨.ori, _, op_ori _ _ _, fun _ => rfl⟩
  | xori => exact ⟨.xori, _, op_xori _ _ _, fun _ => rfl⟩
  | shli => exact ⟨.shli, _, op_shli _ _ _, fun _ => rfl⟩
  | shri => exact ⟨.shri, _, op_shri _ _ _, fun _ => rfl⟩
  | srai => exact ⟨.srai, _, op_srai _ _ _, fun _ => rfl⟩
  | slti => exact ⟨.slti, _, op_slti _ _ _, fun _ => rfl⟩
  | li => exact ⟨.li, _, op_li _ _, fun _ => rfl⟩
  | lsh => exact ⟨.lsh, _, op_lsh _ _, fun _ => rfl⟩
  | sfadd => exact ⟨.sfadd, _, op_sfadd _ _ _, fun _ => rfl⟩
  | sfsub => exact ⟨.sfsub, _, op_sfsub _ _ _, fun _ => rfl⟩
  | sfmul => exact ⟨.sfmul, _, op_sfmul _ _ _, fun _ => rfl⟩
  | sfdiv => exact ⟨.sfdiv, _, op_sfdiv _ _ _, fun _ => rfl⟩
  | sfsqrt => exact ⟨.sfsqrt, _, op_sfsqrt _ _, fun _ => rfl⟩
  | sfmin => exact ⟨.sfmin, _, op_sfmin _ _ _, fun _ => rfl⟩
  | sfmax => exact ⟨.sfmax, _, op_sfmax _ _ _, fun _ => rfl⟩
  | sfma => exact ⟨.sfma, _, op_sfma _ _ _, fun _ => rfl⟩
  | sfeq => exact ⟨.sfeq, _, op_sfeq _ _ _, fun _ => rfl⟩
  | sflt => exact ⟨.sflt, _, op_sflt _ _ _, fun _ => rfl⟩
  | sfle => exact ⟨.sfle, _, op_sfle _ _ _, fun _ => rfl⟩
  | scvdl => exact ⟨.scvdl, _, op_scvdl _ _, fun _ => rfl⟩
  | scvld => exact ⟨.scvld, _, op_scvld _ _, fun _ => rfl⟩
  | scvdf => exact ⟨.scvdf, _, op_scvdf _ _, fun _ => rfl⟩
  | scvfd => exact ⟨.scvfd, _, op_scvfd _ _, fun _ => rfl⟩
  | scvdh => exact ⟨.scvdh, _, op_scvdh _ _, fun _ => rfl⟩
  | scvhd => exact ⟨.scvhd, _, op_scvhd _ _, fun _ => rfl⟩
  | scvdb => exact ⟨.scvdb, _, op_scvdb _ _, fun _ => rfl⟩
  | scvbd => exact ⟨.scvbd, _, op_scvbd _ _, fun _ => rfl⟩
  | b => exact ⟨.b, _, op_b _, fun _ => rfl⟩
  | bz => exact ⟨.bz, _, op_bz _ _, fun _ => rfl⟩
  | bnz => exact ⟨.bnz, _, op_bnz _ _, fun _ => rfl⟩
  | bltz => exact ⟨.bltz, _, op_bltz _ _, fun _ => rfl⟩
  | bgez => exact ⟨.bgez, _, op_bgez _ _, fun _ => rfl⟩
  | call => exact ⟨.call, _, op_call _, fun _ => rfl⟩
  | ret => exact ⟨.ret, _, op_ret, fun _ => rfl⟩
  | jr => exact ⟨.jr, _, op_jr _, fun _ => rfl⟩
  | bq => exact ⟨.bq, _, op_bq _ _, fun _ => rfl⟩
  | bany => exact ⟨.bany, _, op_bany _ _, fun _ => rfl⟩
  | bnone => exact ⟨.bnone, _, op_bnone _ _, fun _ => rfl⟩
  | smb => exact ⟨.smb, _, op_smb _ _ _ _, fun _ => rfl⟩
  | bend => exact ⟨.bend, _, op_bend _ _, fun _ => rfl⟩
  | nop => exact ⟨.nop, (do (pure () : M Unit); upd advance), op_nop, fun _ => rfl⟩
  | yield => exact ⟨.yield, (do (pure () : M Unit); upd advance), op_yield, fun _ => rfl⟩
  | trap c => exact ⟨.trap, (do (trap cSWT (c.setWidth 64) : M Unit); upd advance), op_trap _, fun _ => rfl⟩
  | vlget => exact ⟨.vlget, _, op_vlget _ _ _ _, fun _ => rfl⟩
  | vloop => exact ⟨.vloop, _, op_vloop _ _ _ _ _, fun _ => rfl⟩
  | stair => exact ⟨.stair, _, op_stair _ _ _ _, fun _ => rfl⟩
  | stflg => exact ⟨.stflg, _, op_stflg _ _ _, fun _ => rfl⟩
  | ststep => exact ⟨.ststep, _, op_ststep _ _ _ _, fun _ => rfl⟩
  | wbase => exact ⟨.wbase, _, op_wbase _, fun _ => rfl⟩
  | fmode => exact ⟨.fmode, _, op_fmode _, fun _ => rfl⟩
  | scope => exact ⟨.scope, _, op_scope _, fun _ => rfl⟩
  | vmask => exact ⟨.vmask, _, op_vmask _, fun _ => rfl⟩
  | ldb => exact ⟨.ldb, _, op_ldb _ _ _, fun _ => rfl⟩
  | ldh => exact ⟨.ldh, _, op_ldh _ _ _, fun _ => rfl⟩
  | ldw => exact ⟨.ldw, _, op_ldw _ _ _, fun _ => rfl⟩
  | ldd => exact ⟨.ldd, _, op_ldd _ _ _, fun _ => rfl⟩
  | stb => exact ⟨.stb, _, op_stb _ _ _, fun _ => rfl⟩
  | sth => exact ⟨.sth, _, op_sth _ _ _, fun _ => rfl⟩
  | stw => exact ⟨.stw, _, op_stw _ _ _, fun _ => rfl⟩
  | std => exact ⟨.std, _, op_std _ _ _, fun _ => rfl⟩
  | aset => exact ⟨.aset, _, op_aset _ _, fun _ => rfl⟩
  | aget => exact ⟨.aget, _, op_aget _ _, fun _ => rfl⟩
  | astr => exact ⟨.astr, _, op_astr _ _, fun _ => rfl⟩
  | aadd => exact ⟨.aadd, _, op_aadd _ _, fun _ => rfl⟩
  | agstr => exact ⟨.agstr, _, op_agstr _ _, fun _ => rfl⟩
  | lds => exact ⟨.lds, _, op_lds _ _ _ _, fun _ => rfl⟩
  | sts => exact ⟨.sts, _, op_sts _ _ _ _, fun _ => rfl⟩
  | amoAdd => exact ⟨.amoAdd, _, op_amoAdd _ _ _, fun _ => rfl⟩
  | amoAnd => exact ⟨.amoAnd, _, op_amoAnd _ _ _, fun _ => rfl⟩
  | amoOr => exact ⟨.amoOr, _, op_amoOr _ _ _, fun _ => rfl⟩
  | amoXor => exact ⟨.amoXor, _, op_amoXor _ _ _, fun _ => rfl⟩
  | amoMin => exact ⟨.amoMin, _, op_amoMin _ _ _, fun _ => rfl⟩
  | amoMax => exact ⟨.amoMax, _, op_amoMax _ _ _, fun _ => rfl⟩
  | amoMinu => exact ⟨.amoMinu, _, op_amoMinu _ _ _, fun _ => rfl⟩
  | amoMaxu => exact ⟨.amoMaxu, _, op_amoMaxu _ _ _, fun _ => rfl⟩
  | amoSwap => exact ⟨.amoSwap, _, op_amoSwap _ _ _, fun _ => rfl⟩
  | amoFadd32 => exact ⟨.amoFadd32, _, op_amoFadd32 _ _ _, fun _ => rfl⟩
  | amoFadd64 => exact ⟨.amoFadd64, _, op_amoFadd64 _ _ _, fun _ => rfl⟩
  | amoaAdd => exact ⟨.amoaAdd, _, op_amoaAdd _ _ _, fun _ => rfl⟩
  | amoaAnd => exact ⟨.amoaAnd, _, op_amoaAnd _ _ _, fun _ => rfl⟩
  | amoaOr => exact ⟨.amoaOr, _, op_amoaOr _ _ _, fun _ => rfl⟩
  | amoaXor => exact ⟨.amoaXor, _, op_amoaXor _ _ _, fun _ => rfl⟩
  | amoaMin => exact ⟨.amoaMin, _, op_amoaMin _ _ _, fun _ => rfl⟩
  | amoaMax => exact ⟨.amoaMax, _, op_amoaMax _ _ _, fun _ => rfl⟩
  | amoaMinu => exact ⟨.amoaMinu, _, op_amoaMinu _ _ _, fun _ => rfl⟩
  | amoaMaxu => exact ⟨.amoaMaxu, _, op_amoaMaxu _ _ _, fun _ => rfl⟩
  | amoaSwap => exact ⟨.amoaSwap, _, op_amoaSwap _ _ _, fun _ => rfl⟩
  | amoaFadd32 => exact ⟨.amoaFadd32, _, op_amoaFadd32 _ _ _, fun _ => rfl⟩
  | amoaFadd64 => exact ⟨.amoaFadd64, _, op_amoaFadd64 _ _ _, fun _ => rfl⟩
  | amolAdd => exact ⟨.amolAdd, _, op_amolAdd _ _ _, fun _ => rfl⟩
  | amolAnd => exact ⟨.amolAnd, _, op_amolAnd _ _ _, fun _ => rfl⟩
  | amolOr => exact ⟨.amolOr, _, op_amolOr _ _ _, fun _ => rfl⟩
  | amolXor => exact ⟨.amolXor, _, op_amolXor _ _ _, fun _ => rfl⟩
  | amolMin => exact ⟨.amolMin, _, op_amolMin _ _ _, fun _ => rfl⟩
  | amolMax => exact ⟨.amolMax, _, op_amolMax _ _ _, fun _ => rfl⟩
  | amolMinu => exact ⟨.amolMinu, _, op_amolMinu _ _ _, fun _ => rfl⟩
  | amolMaxu => exact ⟨.amolMaxu, _, op_amolMaxu _ _ _, fun _ => rfl⟩
  | amolSwap => exact ⟨.amolSwap, _, op_amolSwap _ _ _, fun _ => rfl⟩
  | amolFadd32 => exact ⟨.amolFadd32, _, op_amolFadd32 _ _ _, fun _ => rfl⟩
  | amolFadd64 => exact ⟨.amolFadd64, _, op_amolFadd64 _ _ _, fun _ => rfl⟩
  | amoxAdd => exact ⟨.amoxAdd, _, op_amoxAdd _ _ _, fun _ => rfl⟩
  | amoxAnd => exact ⟨.amoxAnd, _, op_amoxAnd _ _ _, fun _ => rfl⟩
  | amoxOr => exact ⟨.amoxOr, _, op_amoxOr _ _ _, fun _ => rfl⟩
  | amoxXor => exact ⟨.amoxXor, _, op_amoxXor _ _ _, fun _ => rfl⟩
  | amoxMin => exact ⟨.amoxMin, _, op_amoxMin _ _ _, fun _ => rfl⟩
  | amoxMax => exact ⟨.amoxMax, _, op_amoxMax _ _ _, fun _ => rfl⟩
  | amoxMinu => exact ⟨.amoxMinu, _, op_amoxMinu _ _ _, fun _ => rfl⟩
  | amoxMaxu => exact ⟨.amoxMaxu, _, op_amoxMaxu _ _ _, fun _ => rfl⟩
  | amoxSwap => exact ⟨.amoxSwap, _, op_amoxSwap _ _ _, fun _ => rfl⟩
  | amoxFadd32 => exact ⟨.amoxFadd32, _, op_amoxFadd32 _ _ _, fun _ => rfl⟩
  | amoxFadd64 => exact ⟨.amoxFadd64, _, op_amoxFadd64 _ _ _, fun _ => rfl⟩
  | cas => exact ⟨.cas, _, op_cas _ _ _ _ _, fun _ => rfl⟩
  | fence => exact ⟨.fence, _, op_fence _ _, fun _ => rfl⟩
  | waita => exact ⟨.waita, _, op_waita _ _ _ _, fun _ => rfl⟩
  | barr => exact ⟨.barr, _, op_barr _ _ _, fun _ => rfl⟩
  | barrt => exact ⟨.barrt, _, op_barrt _ _ _, fun _ => rfl⟩
  | binit => exact ⟨.binit, _, op_binit _ _ _, fun _ => rfl⟩
  | bdiss => exact ⟨.bdiss, _, op_bdiss _ _, fun _ => rfl⟩
  | bwait => exact ⟨.bwait, _, op_bwait _ _ _, fun _ => rfl⟩
  | vwait => exact ⟨.vwait, _, op_vwait _ _ _, fun _ => rfl⟩
  | qdrain => exact ⟨.qdrain, _, op_qdrain _, fun _ => rfl⟩
  | qcnt => exact ⟨.qcnt, _, op_qcnt _ _, fun _ => rfl⟩
  | sload => exact ⟨.sload, _, op_sload _ _, fun _ => rfl⟩
  | sloadSlice => exact ⟨.sloadSlice, _, op_sloadSlice _ _ _, fun _ => rfl⟩
  | sloadTrim => exact ⟨.sloadTrim, _, op_sloadTrim _ _, fun _ => rfl⟩
  | sstore => exact ⟨.sstore, _, op_sstore _ _, fun _ => rfl⟩
  | sstoreSlice => exact ⟨.sstoreSlice, _, op_sstoreSlice _ _ _, fun _ => rfl⟩
  | sstoreTrim => exact ⟨.sstoreTrim, _, op_sstoreTrim _ _, fun _ => rfl⟩
  | sgath => exact ⟨.sgath, _, op_sgath _ _ _ _, fun _ => rfl⟩
  | sgathc => exact ⟨.sgathc, _, op_sgathc _ _ _ _, fun _ => rfl⟩
  | sscat => exact ⟨.sscat, _, op_sscat _ _ _ _, fun _ => rfl⟩
  | sscatc => exact ⟨.sscatc, _, op_sscatc _ _ _ _, fun _ => rfl⟩
  | cpy => exact ⟨.cpy, _, op_cpy _, fun _ => rfl⟩
  | cpyq => exact ⟨.cpyq, _, op_cpyq _ _, fun _ => rfl⟩
  | tidset => exact ⟨.tidset, _, op_tidset _ _, fun _ => rfl⟩
  | svmap => exact ⟨.svmap, _, op_svmap _ _, fun _ => rfl⟩
  | svg1 => exact ⟨.svg1, _, op_svg1 _ _, fun _ => rfl⟩
  | svg2 => exact ⟨.svg2, _, op_svg2 _ _, fun _ => rfl⟩
  | svph => exact ⟨.svph, _, op_svph _ _, fun _ => rfl⟩
  | svswp => exact ⟨.svswp, _, op_svswp _ _, fun _ => rfl⟩
  | svrun => exact ⟨.svrun, _, op_svrun _ _, fun _ => rfl⟩
  | svprob => exact ⟨.svprob, _, op_svprob _ _, fun _ => rfl⟩
  | launch => exact ⟨.launch, _, op_launch _ _ _, fun _ => rfl⟩
  | join => exact ⟨.join, _, op_join _ _, fun _ => rfl⟩
  | leave => exact ⟨.leave, _, op_leave _ _, fun _ => rfl⟩
  | gname => exact ⟨.gname, _, op_gname _ _, fun _ => rfl⟩
  | gdrop => exact ⟨.gdrop, _, op_gdrop _ _, fun _ => rfl⟩
  | ginfo => exact ⟨.ginfo, _, op_ginfo _ _, fun _ => rfl⟩
  | gmove => exact ⟨.gmove, _, op_gmove _ _ _, fun _ => rfl⟩
  | vadd => exact ⟨.vadd, _, op_vadd _ _ _ _, fun _ => rfl⟩
  | vsub => exact ⟨.vsub, _, op_vsub _ _ _ _, fun _ => rfl⟩
  | vmul => exact ⟨.vmul, _, op_vmul _ _ _ _, fun _ => rfl⟩
  | vmulh => exact ⟨.vmulh, _, op_vmulh _ _ _ _, fun _ => rfl⟩
  | vmin => exact ⟨.vmin, _, op_vmin _ _ _ _, fun _ => rfl⟩
  | vmax => exact ⟨.vmax, _, op_vmax _ _ _ _, fun _ => rfl⟩
  | vadds => exact ⟨.vadds, _, op_vadds _ _ _ _, fun _ => rfl⟩
  | vsubs => exact ⟨.vsubs, _, op_vsubs _ _ _ _, fun _ => rfl⟩
  | vand => exact ⟨.vand, _, op_vand _ _ _ _, fun _ => rfl⟩
  | vor => exact ⟨.vor, _, op_vor _ _ _ _, fun _ => rfl⟩
  | vxor => exact ⟨.vxor, _, op_vxor _ _ _ _, fun _ => rfl⟩
  | vshl => exact ⟨.vshl, _, op_vshl _ _ _ _, fun _ => rfl⟩
  | vshr => exact ⟨.vshr, _, op_vshr _ _ _ _, fun _ => rfl⟩
  | vsra => exact ⟨.vsra, _, op_vsra _ _ _ _, fun _ => rfl⟩
  | vandn => exact ⟨.vandn, _, op_vandn _ _ _ _, fun _ => rfl⟩
  | vfadd => exact ⟨.vfadd, _, op_vfadd _ _ _ _, fun _ => rfl⟩
  | vfsub => exact ⟨.vfsub, _, op_vfsub _ _ _ _, fun _ => rfl⟩
  | vfmul => exact ⟨.vfmul, _, op_vfmul _ _ _ _, fun _ => rfl⟩
  | vfdiv => exact ⟨.vfdiv, _, op_vfdiv _ _ _ _, fun _ => rfl⟩
  | vfmin => exact ⟨.vfmin, _, op_vfmin _ _ _ _, fun _ => rfl⟩
  | vfmax => exact ⟨.vfmax, _, op_vfmax _ _ _ _, fun _ => rfl⟩
  | vfma => exact ⟨.vfma, _, op_vfma _ _ _ _, fun _ => rfl⟩
  | vfms => exact ⟨.vfms, _, op_vfms _ _ _ _, fun _ => rfl⟩
  | vfsqrt => exact ⟨.vfsqrt, _, op_vfsqrt _ _ _, fun _ => rfl⟩
  | vfrsq => exact ⟨.vfrsq, _, op_vfrsq _ _ _, fun _ => rfl⟩
  | vlog2 => exact ⟨.vlog2, _, op_vlog2 _ _ _, fun _ => rfl⟩
  | vexp2 => exact ⟨.vexp2, _, op_vexp2 _ _ _, fun _ => rfl⟩
  | vfabs => exact ⟨.vfabs, _, op_vfabs _ _ _, fun _ => rfl⟩
  | vfneg => exact ⟨.vfneg, _, op_vfneg _ _ _, fun _ => rfl⟩
  | vfclass => exact ⟨.vfclass, _, op_vfclass _ _ _, fun _ => rfl⟩
  | vfrint => exact ⟨.vfrint, _, op_vfrint _ _ _, fun _ => rfl⟩
  | vcmp => exact ⟨.vcmp, _, op_vcmp _ _ _ _ _, fun _ => rfl⟩
  | vcmpx => exact ⟨.vcmpx, _, op_vcmpx _ _ _ _ _, fun _ => rfl⟩
  | pand => exact ⟨.pand, _, op_pand _ _ _, fun _ => rfl⟩
  | por => exact ⟨.por, _, op_por _ _ _, fun _ => rfl⟩
  | pxor => exact ⟨.pxor, _, op_pxor _ _ _, fun _ => rfl⟩
  | pandn => exact ⟨.pandn, _, op_pandn _ _ _, fun _ => rfl⟩
  | pnot => exact ⟨.pnot, _, op_pnot _ _, fun _ => rfl⟩
  | pmov => exact ⟨.pmov, _, op_pmov _ _, fun _ => rfl⟩
  | pset => exact ⟨.pset, _, op_pset _, fun _ => rfl⟩
  | pclr => exact ⟨.pclr, _, op_pclr _, fun _ => rfl⟩
  | pcnt => exact ⟨.pcnt, _, op_pcnt _ _, fun _ => rfl⟩
  | pcntt => exact ⟨.pcntt, _, op_pcntt _ _, fun _ => rfl⟩
  | ppop => exact ⟨.ppop, _, op_ppop _ _, fun _ => rfl⟩
  | pfirst => exact ⟨.pfirst, _, op_pfirst _ _, fun _ => rfl⟩
  | plast => exact ⟨.plast, _, op_plast _ _, fun _ => rfl⟩
  | vcvfh => exact ⟨.vcvfh, _, op_vcvfh _ _, fun _ => rfl⟩
  | vcvfb => exact ⟨.vcvfb, _, op_vcvfb _ _, fun _ => rfl⟩
  | vcvfe4 => exact ⟨.vcvfe4, _, op_vcvfe4 _ _, fun _ => rfl⟩
  | vcvfe5 => exact ⟨.vcvfe5, _, op_vcvfe5 _ _, fun _ => rfl⟩
  | vcvhf => exact ⟨.vcvhf, _, op_vcvhf _ _, fun _ => rfl⟩
  | vcvbf => exact ⟨.vcvbf, _, op_vcvbf _ _, fun _ => rfl⟩
  | vcve4f => exact ⟨.vcve4f, _, op_vcve4f _ _, fun _ => rfl⟩
  | vcve5f => exact ⟨.vcve5f, _, op_vcve5f _ _, fun _ => rfl⟩
  | vcvfi => exact ⟨.vcvfi, _, op_vcvfi _ _, fun _ => rfl⟩
  | vcvif => exact ⟨.vcvif, _, op_vcvif _ _, fun _ => rfl⟩
  | vcvdf => exact ⟨.vcvdf, _, op_vcvdf _ _, fun _ => rfl⟩
  | vcvfd => exact ⟨.vcvfd, _, op_vcvfd _ _, fun _ => rfl⟩
  | vcvin => exact ⟨.vcvin, _, op_vcvin _ _, fun _ => rfl⟩
  | vcvci => exact ⟨.vcvci, _, op_vcvci _ _, fun _ => rfl⟩
  | vcvic => exact ⟨.vcvic, _, op_vcvic _ _, fun _ => rfl⟩
  | vcvfc => exact ⟨.vcvfc, _, op_vcvfc _ _, fun _ => rfl⟩
  | vdeq => exact ⟨.vdeq, _, op_vdeq _ _ _ _, fun _ => rfl⟩
  | vqnt => exact ⟨.vqnt, _, op_vqnt _ _ _ _, fun _ => rfl⟩
  | vperm => exact ⟨.vperm, _, op_vperm _ _ _ _, fun _ => rfl⟩
  | vslup => exact ⟨.vslup, _, op_vslup _ _ _ _, fun _ => rfl⟩
  | vsldn => exact ⟨.vsldn, _, op_vsldn _ _ _ _, fun _ => rfl⟩
  | vcomp => exact ⟨.vcomp, _, op_vcomp _ _ _, fun _ => rfl⟩
  | vexpd => exact ⟨.vexpd, _, op_vexpd _ _ _, fun _ => rfl⟩
  | vzip => exact ⟨.vzip, _, op_vzip _ _ _ _, fun _ => rfl⟩
  | vuzp => exact ⟨.vuzp, _, op_vuzp _ _ _ _, fun _ => rfl⟩
  | vrev => exact ⟨.vrev, _, op_vrev _ _ _, fun _ => rfl⟩
  | vmov => exact ⟨.vmov, _, op_vmov _ _ _, fun _ => rfl⟩
  | vsplat => exact ⟨.vsplat, _, op_vsplat _ _ _, fun _ => rfl⟩
  | vext => exact ⟨.vext, _, op_vext _ _ _, fun _ => rfl⟩
  | vins => exact ⟨.vins, _, op_vins _ _ _, fun _ => rfl⟩
  | viota => exact ⟨.viota, _, op_viota _ _, fun _ => rfl⟩
  | vmerge => exact ⟨.vmerge, _, op_vmerge _ _ _, fun _ => rfl⟩
  | vfmsk => exact ⟨.vfmsk, _, op_vfmsk _, fun _ => rfl⟩
  | vclrf => exact ⟨.vclrf, _, op_vclrf, fun _ => rfl⟩
  | vrsum => exact ⟨.vrsum, _, op_vrsum _ _ _, fun _ => rfl⟩
  | vfsum => exact ⟨.vfsum, _, op_vfsum _ _, fun _ => rfl⟩
  | vrmin => exact ⟨.vrmin, _, op_vrmin _ _ _, fun _ => rfl⟩
  | vrmax => exact ⟨.vrmax, _, op_vrmax _ _ _, fun _ => rfl⟩
  | vrand => exact ⟨.vrand, _, op_vrand _ _ _, fun _ => rfl⟩
  | vror => exact ⟨.vror, _, op_vror _ _ _, fun _ => rfl⟩
  | vrxor => exact ⟨.vrxor, _, op_vrxor _ _ _, fun _ => rfl⟩
  | vtree => exact ⟨.vtree, _, op_vtree _, fun _ => rfl⟩
  | vargmax => exact ⟨.vargmax, _, op_vargmax _ _ _, fun _ => rfl⟩
  | vargmin => exact ⟨.vargmin, _, op_vargmin _ _ _, fun _ => rfl⟩
  | vargmaxc => exact ⟨.vargmaxc, _, op_vargmaxc _ _ _, fun _ => rfl⟩
  | vscan => exact ⟨.vscan, _, op_vscan _ _ _, fun _ => rfl⟩
  | vscanx => exact ⟨.vscanx, _, op_vscanx _ _ _, fun _ => rfl⟩
  | vfscan => exact ⟨.vfscan, _, op_vfscan _ _ _, fun _ => rfl⟩
  | vmscan => exact ⟨.vmscan, _, op_vmscan _ _ _, fun _ => rfl⟩
  | vsegrAdd => exact ⟨.vsegrAdd, _, op_vsegrAdd _ _ _, fun _ => rfl⟩
  | vsegrMin => exact ⟨.vsegrMin, _, op_vsegrMin _ _ _, fun _ => rfl⟩
  | vsegrMax => exact ⟨.vsegrMax, _, op_vsegrMax _ _ _, fun _ => rfl⟩
  | vsegrAnd => exact ⟨.vsegrAnd, _, op_vsegrAnd _ _ _, fun _ => rfl⟩
  | vsegrOr => exact ⟨.vsegrOr, _, op_vsegrOr _ _ _, fun _ => rfl⟩
  | vsegrFadd => exact ⟨.vsegrFadd, _, op_vsegrFadd _ _ _, fun _ => rfl⟩
  | vsegrFmin => exact ⟨.vsegrFmin, _, op_vsegrFmin _ _ _, fun _ => rfl⟩
  | vsegrFmax => exact ⟨.vsegrFmax, _, op_vsegrFmax _ _ _, fun _ => rfl⟩
  | vrndl => exact ⟨.vrndl, _, op_vrndl _ _, fun _ => rfl⟩
  | vrndh => exact ⟨.vrndh, _, op_vrndh _ _, fun _ => rfl⟩
  | vrndu => exact ⟨.vrndu, _, op_vrndu _ _, fun _ => rfl⟩
  | vbin => exact ⟨.vbin, _, op_vbin _ _, fun _ => rfl⟩
  | vbout => exact ⟨.vbout, _, op_vbout _ _, fun _ => rfl⟩
  | vunb => exact ⟨.vunb, _, op_vunb _, fun _ => rfl⟩
  | mtile => exact ⟨.mtile, _, op_mtile _ _ _, fun _ => rfl⟩
  | mrow => exact ⟨.mrow, _, op_mrow _ _ _ _ _, fun _ => rfl⟩
  | maccf => exact ⟨.maccf, _, op_maccf _ _, fun _ => rfl⟩
  | macc => exact ⟨.macc, _, op_macc _ _, fun _ => rfl⟩
  | maccz => exact ⟨.maccz, _, op_maccz _ _, fun _ => rfl⟩
  | mzero => exact ⟨.mzero, _, op_mzero _ _, fun _ => rfl⟩
  | mstat => exact ⟨.mstat, _, op_mstat _, fun _ => rfl⟩
  | mstatc => exact ⟨.mstatc, _, op_mstatc _, fun _ => rfl⟩
  | rcopen => exact ⟨.rcopen, _, op_rcopen _, fun _ => rfl⟩
  | rcnoise => exact ⟨.rcnoise, _, op_rcnoise _, fun _ => rfl⟩
  | rcscore => exact ⟨.rcscore, _, op_rcscore _ _, fun _ => rfl⟩
  | rccut => exact ⟨.rccut, _, op_rccut _ _, fun _ => rfl⟩
  | rcexact => exact ⟨.rcexact, _, op_rcexact _ _, fun _ => rfl⟩
  | rcpost => exact ⟨.rcpost, _, op_rcpost _ _, fun _ => rfl⟩
  | rcmerge => exact ⟨.rcmerge, _, op_rcmerge _, fun _ => rfl⟩
  | rcbar => exact ⟨.rcbar, _, op_rcbar _, fun _ => rfl⟩
  | rcprob => exact ⟨.rcprob, _, op_rcprob _, fun _ => rfl⟩
  | rcget => exact ⟨.rcget, _, op_rcget _ _, fun _ => rfl⟩
  | rcput => exact ⟨.rcput, _, op_rcput _ _, fun _ => rfl⟩
  | rcclose => exact ⟨.rcclose, _, op_rcclose, fun _ => rfl⟩
  | fnset => exact ⟨.fnset, _, op_fnset _ _ _, fun _ => rfl⟩
  | fnget => exact ⟨.fnget, _, op_fnget _ _, fun _ => rfl⟩
  | fnadd => exact ⟨.fnadd, _, op_fnadd _ _ _, fun _ => rfl⟩
  | fnmul => exact ⟨.fnmul, _, op_fnmul _ _ _, fun _ => rfl⟩
  | fncomp => exact ⟨.fncomp, _, op_fncomp _ _ _, fun _ => rfl⟩
  | fnint => exact ⟨.fnint, _, op_fnint _ _, fun _ => rfl⟩
  | fndiff => exact ⟨.fndiff, _, op_fndiff _ _, fun _ => rfl⟩
  | fneval => exact ⟨.fneval, _, op_fneval _ _ _, fun _ => rfl⟩
  | fnroot => exact ⟨.fnroot, _, op_fnroot _ _ _, fun _ => rfl⟩
  | fntrunc => exact ⟨.fntrunc, _, op_fntrunc _ _, fun _ => rfl⟩
  | fnfit => exact ⟨.fnfit, _, op_fnfit _ _ _, fun _ => rfl⟩
  | fnmono => exact ⟨.fnmono, _, op_fnmono _, fun _ => rfl⟩
  | fninfo => exact ⟨.fninfo, _, op_fninfo _ _, fun _ => rfl⟩
  | fnfree => exact ⟨.fnfree, _, op_fnfree _, fun _ => rfl⟩
  | fnscal => exact ⟨.fnscal, _, op_fnscal _ _ _, fun _ => rfl⟩
  | gmbox => exact ⟨.gmbox, _, op_gmbox _ _, fun _ => rfl⟩
  | vhold => exact ⟨.vhold, _, op_vhold _ _, fun _ => rfl⟩
  | rstv => exact ⟨.rstv, _, op_rstv _ _ _, fun _ => rfl⟩
  | rstvr => exact ⟨.rstvr, _, op_rstvr _ _ _, fun _ => rfl⟩
  | gstat => exact ⟨.gstat, _, op_gstat _, fun _ => rfl⟩
  | exit => exact ⟨.exit, _, op_exit, fun _ => rfl⟩
  | eret => exact ⟨.eret, _, op_eret, fun _ => rfl⟩
  | mfs => exact ⟨.mfs, _, op_mfs _ _ _, fun _ => rfl⟩
  | mts => exact ⟨.mts, _, op_mts _ _ _ ho, fun _ => rfl⟩
  | mtsCause => exact ⟨.mtsCause, _, op_mtsCause _, fun _ => rfl⟩
  | mtsScopetab => exact ⟨.mtsScopetab, _, op_mtsScopetab _, fun _ => rfl⟩
  | mtsVbase => exact ⟨.mtsVbase, _, op_mtsVbase _, fun _ => rfl⟩
  | mtsFmode => exact ⟨.mtsFmode, _, op_mtsFmode _, fun _ => rfl⟩
  | mtsLattol => exact ⟨.mtsLattol, _, op_mtsLattol _, fun _ => rfl⟩
  | ctxsave => exact ⟨.ctxsave, _, op_ctxsave _ _, fun _ => rfl⟩
  | ctxload => exact ⟨.ctxload, _, op_ctxload _ _, fun _ => rfl⟩
  | notify => exact ⟨.notify, _, op_notify _, fun _ => rfl⟩
  | preempt => exact ⟨.preempt, _, op_preempt _, fun _ => rfl⟩
  | resume => exact ⟨.resume, _, op_resume _, fun _ => rfl⟩
  | digchk => exact ⟨.digchk, _, op_digchk _, fun _ => rfl⟩
  | halt => exact ⟨.halt, _, op_halt, fun _ => rfl⟩
  | loadCompletion => cases h
  | parkedStreamRelease => cases h
  | waitaWake => cases h
  | vwaitWake => cases h
  | bwaitWake => cases h
  | bwaitTimeout => cases h
  | qdeadDetection => cases h
  | outboundChunkEntry => cases h
  | streamTransferCompletion => cases h
  | elementGroupStart => cases h
  | matrixRowProcessing => cases h
  | tileFill => cases h
  | copyPiece => cases h
  | copyCompletion => cases h
  | lateEngineFault => cases h
  | svopPass => cases h
  | mailboxArrival => cases h
  | remoteStoreAnswer => cases h
  | nameForwardingExpiry => cases h
  | atomicLeaseExpiry => cases h
  | atomicSiteReturnNear => cases h
  | stampSweep => cases h
  | conflictConfirmation => cases h
  | threadStopComplete => cases h
  | noticeDelivery => cases h
  | budgetExpiry => cases h
  | intg => cases h
  | deverr => cases h
  | streamEnd => cases h
  | dependencyWordRead => cases h
  | launchDispatch => cases h
  | launchStaging => cases h
  | stagedLaunchStart => cases h
  | gangStop => cases h
  | gangResume => cases h
  | selfTestProduct => cases h
  | spareReplacement => cases h
  | invalidationRequest => cases h
  | invalidationRetire => cases h
  | replicaFill => cases h
  | migration => cases h
  | fabricReadRequest => cases h
  | fabricWriteRequest => cases h
  | fabricAtomicRequest => cases h
  | fabricNack => cases h
  | fabricRequestTimeout => cases h
  | multicastCopyAnswer => cases h
  | redContribution => cases h
  | redRoundTimeout => cases h
  | linkFailure => cases h
  | hostAtomicOp => cases h
  | hostRequest => cases h
  | scrub => cases h
  | wearUpdate => cases h
  | thermalLimit => cases h
  | thermalReset => cases h
  | deviceReset => cases h
  | idleEntry => cases h
  | idleWake => cases h
  | registerWrite => cases h
  | eccstatWrite => cases h
  | pwrWrite => cases h
  | lattolMirrorWrite => cases h
  | wearWrite => cases h
  | fwstageWrite => cases h
  | partitionCreate => cases h
  | functionLevelReset => cases h
  | configWriteLocked => cases h
  | lockInterfaceRequest => cases h
  | startInterfaceRequest => cases h
  | stopInterfaceRequest => cases h
  | getVersion => cases h
  | getCapabilities => cases h
  | negotiateAlgorithms => cases h
  | getDigests => cases h
  | getCertificate => cases h
  | challenge => cases h
  | getMeasurements => cases h
  | keyExchange => cases h
  | finish => cases h
  | keyUpdate => cases h
  | heartbeat => cases h
  | endSession => cases h
  | vendorChallenge => cases h
  | debugKeyHashBind => cases h
  | debugPolicy => cases h
  | debugPolicyExpiry => cases h
  | recoveryImageWrite => cases h
  | ill => cases h
  | elementGroupWrite => cases h
  | dieTemperatureFall => cases h
  | sharedCoreTimeSlice => cases h

end Sys2Proof.Machine
end

