-- ==== Sys2Proof/Laws/Memory.lean ====
section
/-! SUPPORT. Sparse stores and memory: a read after a write gives the value written, a write leaves every other place
alone, and every memory operation keeps the canonical form. -/

namespace Sys2Proof.Machine

/-! ## Sparse stores -/

section
variable {α : Type} [DecidableEq α] {dflt : α}

omit [DecidableEq α] in
theorem Store.has_del_self (m : Store α) (k : Nat) : Store.has (Store.del m k) k = false := by
  induction m with
  | nil => rfl
  | cons e r ih =>
    obtain ⟨j, v⟩ := e
    by_cases h : j = k <;> simp [Store.del, h, Store.has, ih]

omit [DecidableEq α] in
theorem Store.get_del_self (m : Store α) (k : Nat) : Store.get dflt (Store.del m k) k = dflt := by
  induction m with
  | nil => rfl
  | cons e r ih =>
    obtain ⟨j, v⟩ := e
    by_cases h : j = k <;> simp [Store.del, h, Store.get, ih]

omit [DecidableEq α] in
theorem Store.get_del_ne (m : Store α) {k j : Nat} (h : j ≠ k) :
    Store.get dflt (Store.del m k) j = Store.get dflt m j := by
  induction m with
  | nil => rfl
  | cons e r ih =>
    obtain ⟨i, v⟩ := e
    by_cases hk : i = k
    · subst hk; simp [Store.del, Store.get, Ne.symm h, ih]
    · simp only [Store.del, hk, if_false, Store.get, ih]

omit [DecidableEq α] in
theorem Store.get_insert_self (m : Store α) (k : Nat) (v : α) (h : Store.has m k = false) :
    Store.get dflt (Store.insert m k v) k = v := by
  induction m with
  | nil => simp [Store.insert, Store.get]
  | cons e r ih =>
    obtain ⟨j, w⟩ := e
    simp only [Store.has, Bool.or_eq_false_iff, beq_eq_false_iff_ne] at h
    by_cases hk : k < j <;> simp [Store.insert, hk, Store.get, h.1, ih h.2]

omit [DecidableEq α] in
theorem Store.get_insert_ne (m : Store α) {k j : Nat} (v : α) (h : j ≠ k) :
    Store.get dflt (Store.insert m k v) j = Store.get dflt m j := by
  induction m with
  | nil => simp [Store.insert, Store.get, Ne.symm h]
  | cons e r ih =>
    obtain ⟨i, w⟩ := e
    by_cases hk : k < i
    · simp only [Store.insert, hk, if_true, Store.get, Ne.symm h, if_false]
    · simp only [Store.insert, hk, if_false, Store.get, ih]

/-- A read after a write at the same number gives the value written. -/
theorem Store.get_put_self (m : Store α) (k : Nat) (v : α) : Store.get dflt (Store.put dflt m k v) k = v := by
  unfold Store.put
  split
  · next h => rw [Store.get_del_self, h]
  · exact Store.get_insert_self _ _ _ (Store.has_del_self m k)

/-- A write leaves every other number as it was. -/
theorem Store.get_put_ne (m : Store α) {k j : Nat} (v : α) (h : j ≠ k) :
    Store.get dflt (Store.put dflt m k v) j = Store.get dflt m j := by
  unfold Store.put
  split
  · exact Store.get_del_ne m h
  · rw [Store.get_insert_ne _ _ h, Store.get_del_ne m h]

theorem Store.wfFrom_mono {m : Store α} {lo lo' : Nat} (h : Store.wfFrom dflt lo m = true) (hl : lo' ≤ lo) :
    Store.wfFrom dflt lo' m = true := by
  cases m with
  | nil => rfl
  | cons e r =>
    obtain ⟨j, v⟩ := e
    simp only [Store.wfFrom, Bool.and_eq_true, decide_eq_true_eq] at h ⊢
    exact ⟨⟨Nat.le_trans hl h.1.1, h.1.2⟩, h.2⟩

theorem Store.wfFrom_filter {m : Store α} {lo : Nat} (p : Nat × α → Bool) (h : Store.wfFrom dflt lo m = true) :
    Store.wfFrom dflt lo (m.filter p) = true := by
  induction m generalizing lo with
  | nil => rfl
  | cons e r ih =>
    obtain ⟨j, v⟩ := e
    simp only [Store.wfFrom, Bool.and_eq_true, decide_eq_true_eq] at h
    rw [List.filter_cons]
    split
    · simp only [Store.wfFrom, Bool.and_eq_true, decide_eq_true_eq]
      exact ⟨h.1, ih h.2⟩
    · exact Store.wfFrom_mono (ih h.2) (by omega)

omit [DecidableEq α] in
theorem Store.del_eq_filter (m : Store α) (k : Nat) : Store.del m k = m.filter fun e => e.1 != k := by
  induction m with
  | nil => rfl
  | cons e r ih =>
    obtain ⟨j, v⟩ := e
    by_cases h : j = k <;> simp [Store.del, h, ih]

theorem Store.wfFrom_insert {m : Store α} {lo k : Nat} {v : α} (h : Store.wfFrom dflt lo m = true) (hl : lo ≤ k)
    (hv : v ≠ dflt) (hk : Store.has m k = false) : Store.wfFrom dflt lo (Store.insert m k v) = true := by
  induction m generalizing lo with
  | nil => simp [Store.insert, Store.wfFrom, hl, hv]
  | cons e r ih =>
    obtain ⟨j, w⟩ := e
    simp only [Store.wfFrom, Bool.and_eq_true, decide_eq_true_eq] at h
    simp only [Store.has, Bool.or_eq_false_iff, beq_eq_false_iff_ne] at hk
    by_cases hj : k < j
    · simp only [Store.insert, hj, if_true, Store.wfFrom, Bool.and_eq_true, decide_eq_true_eq]
      exact ⟨⟨hl, hv⟩, ⟨Nat.succ_le_of_lt hj, h.1.2⟩, h.2⟩
    · simp only [Store.insert, hj, if_false, Store.wfFrom, Bool.and_eq_true, decide_eq_true_eq]
      exact ⟨h.1, ih h.2 (by have := hk.1; omega) hk.2⟩

/-- A write keeps the canonical form. -/
theorem Store.wf_put {m : Store α} (k : Nat) (v : α) (h : Store.wf dflt m = true) :
    Store.wf dflt (Store.put dflt m k v) = true := by
  have hd : Store.wfFrom dflt 0 (Store.del m k) = true := by
    rw [Store.del_eq_filter]; exact Store.wfFrom_filter _ h
  unfold Store.put Store.wf
  split
  · exact hd
  · next hv => exact Store.wfFrom_insert hd (Nat.zero_le k) hv (Store.has_del_self m k)

end

/-! ## Memory -/

theorem putBytes_wf {m : List Host.Cell} (k : Nat) (bs : Bytes) (h : Memory.wf m = true) :
    Memory.wf (putBytes m k bs) = true := by
  induction bs generalizing m k with
  | nil => exact h
  | cons b r ih => exact ih (k + 1) (Store.wf_put k b h)

/-- A write to memory keeps its canonical form. -/
theorem writeBytes_wf {s : State} (k : Nat) (bs : Bytes) (h : Memory.wf s.mem = true) :
    Memory.wf (writeBytes s k bs).mem = true := putBytes_wf k bs h

theorem writeLE_wf {s : State} (k n v : Nat) (h : Memory.wf s.mem = true) : Memory.wf (writeLE s k n v).mem = true :=
  writeBytes_wf k _ h

/-- Clearing a run of places keeps the canonical form. -/
theorem zeroRange_wf {s : State} (k n : Nat) (h : Memory.wf s.mem = true) : Memory.wf (zeroRange s k n).mem = true :=
  Store.wfFrom_filter _ h

theorem foldl_wf {α : Type} (f : State → α → State)
    (hf : ∀ s a, Memory.wf s.mem = true → Memory.wf (f s a).mem = true) (l : List α) (s : State)
    (h : Memory.wf s.mem = true) : Memory.wf (l.foldl f s).mem = true := by
  induction l generalizing s with
  | nil => exact h
  | cons a r ih => exact ih _ (hf s a h)

/-- A write by software keeps the canonical form. -/
theorem softWrite_wf {s : State} (p : Partition) (k : Nat) (bs : Bytes) (h : Memory.wf s.mem = true) :
    Memory.wf (softWrite s p k bs).mem = true := by
  unfold softWrite
  split
  · refine foldl_wf _ (fun s a hs => ?_) _ _ h
    split
    · exact hs
    · exact writeBytes_wf _ _ hs
  · exact writeBytes_wf _ _ h

theorem get_putBytes_outside (m : List Host.Cell) (k j : Nat) (bs : Bytes) (h : j < k ∨ k + bs.length ≤ j) :
    Store.get unlistedByte (putBytes m k bs) j = Store.get unlistedByte m j := by
  induction bs generalizing m k with
  | nil => rfl
  | cons b r ih =>
    simp only [List.length_cons] at h
    unfold putBytes
    rw [ih _ _ (by omega), Store.get_put_ne _ _ (by omega)]

/-- A write leaves every byte outside it as it was. -/
theorem readByte_writeBytes_outside (s : State) (k j : Nat) (bs : Bytes) (h : j < k ∨ k + bs.length ≤ j) :
    readByte (writeBytes s k bs) j = readByte s j := get_putBytes_outside s.mem k j bs h

/-- A read of a byte that a write has written gives it. -/
theorem readByte_writeBytes_inside (s : State) (k j : Nat) (bs : Bytes) (h : j < bs.length) :
    readByte (writeBytes s k bs) (k + j) = bs[j] := by
  suffices ∀ (m : List Host.Cell) (k j : Nat) (bs : Bytes) (h : j < bs.length),
      Store.get unlistedByte (putBytes m k bs) (k + j) = bs[j] from this s.mem k j bs h
  intro m k j bs h
  induction bs generalizing m k j with
  | nil => simp at h
  | cons b r ih =>
    unfold putBytes
    cases j with
    | zero => rw [get_putBytes_outside _ _ _ _ (by omega)]; exact Store.get_put_self _ _ _
    | succ j =>
      have := ih (Store.put unlistedByte m k b) (k + 1) j (by simpa using h)
      rw [show k + (j + 1) = k + 1 + j by omega, this]
      rfl

/-- Bytes read back from where they were written. -/
theorem readBytes_writeBytes (s : State) (k : Nat) (bs : Bytes) :
    readBytes (writeBytes s k bs) k bs.length = bs := by
  suffices ∀ n j, n + j = bs.length → readBytes (writeBytes s k bs) (k + j) n = bs.drop j by
    simpa using this bs.length 0 (by omega)
  intro n
  induction n with
  | zero => intro j hj; simp [readBytes, ← hj]
  | succ n ih =>
    intro j hj
    have hlt : j < bs.length := by omega
    rw [List.drop_eq_getElem_cons hlt]
    unfold readBytes
    rw [readByte_writeBytes_inside s k j bs hlt, show k + j + 1 = k + (j + 1) by omega, ih (j + 1) (by omega)]

end Sys2Proof.Machine
end

