-- ==== Sys2Proof/Laws/Keeps.lean ====
section
/-! SUPPORT. Effects that keep memory's canonical form: once for the sequencing of effects, once for each operation
that reaches memory. A meaning is followed operation by operation from these, none of them unfolded again. -/

namespace Sys2Proof.Machine

/-- Whether memory has its canonical form. -/
def Kept (s : State) : Prop := Memory.wf s.mem = true

/-- A stop that carries a state carries one in the canonical form. -/
def Stop.Kept : Stop → Prop
  | .trap _ _ | .park _ => True
  | .trapBack s _ _ | .trapIn s _ _ | .parkIn s _ | .again s _ => Machine.Kept s

/-- An effect has ended with memory in its canonical form, in whichever way it ended. -/
def Ends {α : Type} : Except Stop (α × State) → Prop
  | .ok (_, t) => Kept t
  | .error e => e.Kept

/-- An effect at one state leaves memory in its canonical form, however it ends. -/
def Keeps {α : Type} (m : M α) (s : State) : Prop := Ends (m s)

variable {α β : Type} {s : State}

theorem Kept.of_mem {t : State} (h : t.mem = s.mem) (hs : Kept s) : Kept t := by
  unfold Kept; rw [h]; exact hs

theorem keeps_ok {m : M α} {a : α} {t : State} (h : m s = .ok (a, t)) (hk : Keeps m s) : Kept t := by
  unfold Keeps at hk; rw [h] at hk; exact hk

theorem keeps_error {m : M α} {e : Stop} (h : m s = .error e) (hk : Keeps m s) : e.Kept := by
  unfold Keeps at hk; rw [h] at hk; exact hk

/-! ## Sequencing -/

theorem keeps_pure (a : α) (hs : Kept s) : Keeps (pure a : M α) s := hs

/-- One effect after another. -/
theorem keeps_bind {m : M α} {f : α → M β} (hm : Keeps m s)
    (hf : ∀ a t, m s = .ok (a, t) → Kept t → Keeps (f a) t) : Keeps (m >>= f) s := by
  unfold Keeps at hm
  show Ends (m s >>= fun p => f p.1 p.2)
  cases h : m s with
  | error e => rw [h] at hm; exact hm
  | ok p =>
    rw [h] at hm
    exact hf p.1 p.2 h hm

/-- The same where nothing is asked of the value between. -/
theorem keeps_seq {m : M α} {f : α → M β} (hm : Keeps m s) (hf : ∀ a t, Kept t → Keeps (f a) t) :
    Keeps (m >>= f) s := keeps_bind hm fun a t _ ht => hf a t ht

theorem keeps_get_bind {f : State → M β} (h : Keeps (f s) s) : Keeps ((get : M State) >>= f) s := h

theorem keeps_set {t : State} (ht : Kept t) : Keeps (set t : M PUnit) s := ht

theorem keeps_ite {c : Prop} [Decidable c] {m n : M α} (hm : c → Keeps m s) (hn : ¬ c → Keeps n s) :
    Keeps (if c then m else n) s := by
  split
  · exact hm ‹_›
  · exact hn ‹_›

theorem ends_ite {c : Prop} [Decidable c] {x y : Except Stop (α × State)} (hx : c → Ends x) (hy : ¬ c → Ends y) :
    Ends (if c then x else y) := by
  split
  · exact hx ‹_›
  · exact hy ‹_›

/-- A park where a condition holds, before the rest. -/
theorem keeps_parkIf {c : Bool} {p : Park} {f : PUnit → M β} (h : Keeps (f ()) s) :
    Keeps (if c = true then park p >>= f else f ()) s := by
  split
  · trivial
  · exact h

/-- An effect over the members of a list. -/
theorem keeps_forM {l : List α} {f : α → M PUnit} (hf : ∀ a t, Kept t → Keeps (f a) t) (hs : Kept s) :
    Keeps (l.forM f) s := by
  induction l generalizing s with
  | nil => exact hs
  | cons a r ih => exact keeps_seq (hf a s hs) fun _ t ht => ih ht

theorem keeps_mapM {l : List α} {f : α → M β} (hf : ∀ a t, Kept t → Keeps (f a) t) (hs : Kept s) :
    Keeps (l.mapM f) s := by
  induction l generalizing s with
  | nil => rw [List.mapM_nil]; exact hs
  | cons a r ih =>
    rw [List.mapM_cons]
    exact keeps_seq (hf a s hs) fun b t ht => keeps_seq (ih ht) fun c u hu => keeps_pure _ hu

/-! ## The plain effects -/

theorem keeps_upd {f : State → State} (h : Kept (f s)) : Keeps (upd f) s := h
theorem keeps_updT (f : Thread → Thread) (hs : Kept s) : Keeps (updT f) s := hs
theorem keeps_updC (f : Stream → Stream) (hs : Kept s) : Keeps (updC f) s := hs
theorem keeps_see (f : State → α) (hs : Kept s) : Keeps (see f) s := hs
theorem keeps_trap (c : BitVec 8) (i : Dword) : Keeps (trap c i : M α) s := trivial
theorem keeps_trapBack (c : BitVec 8) (i : Dword) (hs : Kept s) : Keeps (trapBack c i : M α) s := hs
theorem keeps_failBack (s0 : State) (b : Bool) (c : BitVec 8) (i : Dword) (h0 : Kept s0) (hs : Kept s) :
    Keeps (failBack s0 b c i) s := by
  unfold Keeps failBack
  split
  · exact h0
  · exact hs
theorem keeps_trapHere (c : BitVec 8) (i : Dword) (hs : Kept s) : Keeps (trapHere c i : M α) s := hs
theorem keeps_park (p : Park) : Keeps (park p : M α) s := trivial
theorem keeps_parkHere (p : Park) (hs : Kept s) : Keeps (parkHere p : M α) s := hs
theorem keeps_parkAgain (p : Park) (hs : Kept s) : Keeps (parkAgain p : M α) s := hs
theorem keeps_freeValue (hs : Kept s) : Keeps freeValue s := hs
theorem keeps_illWord (w : Word) : Keeps (illWord w : M α) s := trivial

theorem keeps_need (c : Bool) (k : BitVec 8) (i : Dword) (hs : Kept s) : Keeps (need c k i) s := by
  unfold need
  exact keeps_ite (fun _ => hs) fun _ => trivial

theorem keeps_aligned (va : Dword) (n : Nat) (hs : Kept s) : Keeps (aligned va n) s := keeps_need _ _ _ hs

theorem keeps_popQ (n : Nat) (hs : Kept s) : Keeps (popQ n) s := by
  unfold Keeps popQ
  cases s.th.queue n with
  | nil => trivial
  | cons v r => exact hs

theorem keeps_pushQ (n : Nat) (v : Dword) (hs : Kept s) : Keeps (pushQ n v) s := by
  unfold Keeps pushQ
  dsimp only
  split
  · exact hs
  · trivial

theorem keeps_portRoom (d : Reg) (hs : Kept s) : Keeps (portRoom d) s := by
  unfold Keeps portRoom
  split
  · trivial
  · exact hs

theorem setScalar_mem_eq (s : State) (n : Nat) (v : Dword) : (setScalar s n v).mem = s.mem := by
  unfold setScalar
  repeat' split
  all_goals rfl

theorem keeps_rd (r : Reg) (hs : Kept s) : Keeps (rd r) s :=
  keeps_ite (fun _ => keeps_popQ _ hs) fun _ => keeps_see _ hs

theorem keeps_wr (r : Reg) (v : Dword) (hs : Kept s) : Keeps (wr r v) s :=
  keeps_ite (fun _ => keeps_pushQ _ _ hs) fun _ => keeps_upd (hs.of_mem (setScalar_mem_eq s _ v))

/-! ## Writes of the device itself -/

theorem Kept.writeLE (k n v : Nat) (hs : Kept s) : Kept (writeLE s k n v) := writeLE_wf k n v hs
theorem Kept.writeBytes (k : Nat) (bs : Bytes) (hs : Kept s) : Kept (writeBytes s k bs) := writeBytes_wf k bs hs
theorem Kept.zeroRange (k n : Nat) (hs : Kept s) : Kept (zeroRange s k n) := zeroRange_wf k n hs
theorem Kept.count (t : Thread) (n k : Nat) (hs : Kept s) : Kept (count s t n k) := hs.of_mem (by simp)
theorem Kept.updLaunch (n : Nat) (f : Launch → Launch) (hs : Kept s) : Kept (updLaunch s n f) := hs
theorem Kept.updPart (n : Nat) (f : Partition → Partition) (hs : Kept s) : Kept (updPart s n f) := hs
theorem Kept.putAt (pn k : Nat) (bs : Bytes) (hs : Kept s) : Kept (putAt s pn k bs) := by
  unfold Machine.putAt
  split
  · exact softWrite_wf _ _ _ hs
  · exact hs.writeBytes _ _

/-! ## Requests and frames: none of them touches memory -/

theorem takeFrame_mem {pn vp : Nat} {m : Bool} {p : State × Nat} (h : takeFrame s pn vp m = some p) : p.1.mem = s.mem := by
  unfold takeFrame at h
  split at h
  · cases h; rfl
  · split at h
    · cases h
    · cases h; rfl

theorem fillPage_mem {pn : Nat} {e : TlbEntry} {m : Bool} {t : State} (h : fillPage s pn e m = some t) : t.mem = s.mem := by
  unfold fillPage at h
  split at h
  · rename_i u a hf
    cases h
    exact takeFrame_mem hf
  · cases h

theorem countAccess_mem (s : State) (t : Thread) (va : Nat) : (countAccess s t va).mem = s.mem := by
  unfold countAccess
  split
  · split
    · dsimp only
      split
      · cases hf : fillPage _ _ _ _ with
        | none => rfl
        | some u =>
          have h := fillPage_mem hf
          exact h
      · rfl
    · rfl
  · rfl

theorem Kept.sendFor (t : Thread) (k : ReqKind) (p va pa : Nat) (d : Bytes) (r : Option Reg) (q : List (Nat × Dword)) (hs : Kept s) :
    Kept (sendFor s t k p va pa d r q) := hs.of_mem (countAccess_mem _ _ _)
theorem Kept.countReq (hs : Kept s) : Kept (countReq s) := hs.count _ _ _
theorem Kept.sendReq (k : ReqKind) (p : Nat) (va : Dword) (pa : Nat) (d : Bytes) (r : Option Reg) (hs : Kept s) :
    Kept (sendReq s k p va pa d r) := hs.countReq.sendFor _ _ _ _ _ _ _ _

/-- An event record (R409). -/
theorem Kept.logEventOf (pn kind src key pa cidx ridx extra mask : Nat) (hs : Kept s) :
    Kept (logEventOf s pn kind src key pa cidx ridx extra mask) :=
  ((((((((((hs.zeroRange _ _).writeLE _ _ _).writeLE _ _ _).writeLE _ _ _).writeLE _ _ _).writeLE _ _ _).writeLE _ _ _).writeLE
    _ _ _).writeLE _ _ _).writeLE _ _ _).writeLE _ _ _

theorem Kept.logEvent (pn kind src pa cidx ridx extra mask : Nat) (hs : Kept s) :
    Kept (logEvent s pn kind src pa cidx ridx extra mask) := hs.logEventOf _ _ _ _ _ _ _ _ _

theorem lookup_mem {pn va : Nat} {e : TlbEntry} {t : State} (h : lookup s pn va = some (e, t)) : t.mem = s.mem := by
  unfold lookup at h
  split at h
  · cases h; rfl
  · split at h
    · cases h; rfl
    · cases h

theorem deviceEntry_mem {pn va m : Nat} {a : Acc} {e : TlbEntry} {t : State}
    (h : deviceEntry s pn va a = some (e, m, t)) : t.mem = s.mem := by
  unfold deviceEntry at h
  split at h
  · cases h
  · split at h
    · rename_i hl
      dsimp only at h
      split at h
      · cases h; exact lookup_mem hl
      · cases h
    · cases h

theorem devicePlace_mem {pn va n k : Nat} {a : Acc} {t : State} (h : devicePlace s pn va n a = some (k, t)) :
    t.mem = s.mem := by
  unfold devicePlace at h
  split at h
  · rename_i he
    have e := deviceEntry_mem he
    split at h
    · cases h; exact e
    · split at h
      · split at h
        · split at h
          · cases h; exact e
          · cases h
        · cases h
      · cases h
  · cases h

/-- A trace record (R77). -/
theorem Kept.traceRec (t : Thread) (kind : Nat) (q : Strm) (pc : Dword) (extra : Nat) (hs : Kept s) :
    Kept (traceRec s t kind q pc extra) := by
  unfold Machine.traceRec
  extract_lets _ _ _ _
  split
  · exact hs
  · split
    · exact hs
    · rename_i h1
      have k1 := hs.of_mem (devicePlace_mem h1)
      extract_lets _
      split
      · exact k1.writeLE _ _ _
      · rename_i h2
        have k2 := k1.of_mem (devicePlace_mem h2)
        extract_lets _ _ _ _ _ _ t7 t8
        have k7 : Kept t7 := ((((((k2.writeLE _ _ _).writeLE _ _ _).writeLE _ _ _).writeLE _ _ _).writeLE
          _ _ _).writeLE _ _ _).writeLE _ _ _
        clear_value t7
        refine Kept.writeLE _ _ _ ?_
        unfold t8
        split
        · exact k7.zeroRange _ _
        · exact k7

theorem keeps_jump (a : Dword) (hs : Kept s) : Keeps (jump a) s := keeps_upd (hs.traceRec s.th 1 s.strm s.cur.pc _)

theorem Kept.takeTrap (c : BitVec 8) (i : Dword) (hs : Kept s) : Kept (takeTrap s c i) := by
  have k := hs.traceRec s.th 2 s.strm s.cur.pc c.toNat
  unfold Machine.takeTrap
  dsimp only
  repeat' split
  all_goals first
    | exact k.count _ _ _
    | exact k

theorem Kept.takePark (p : Park) (hs : Kept s) : Kept (takePark s p) := hs
theorem Kept.advance (hs : Kept s) : Kept (advance s) := hs
theorem Kept.retire (hs : Kept s) : Kept (retire s) := hs.of_mem (by simp)

theorem Kept.foldDigest (t : Thread) (va : Nat) (bs : Bytes) (hs : Kept s) : Kept (foldDigest s t va bs) := by
  unfold Machine.foldDigest foldDigestOf
  split
  · exact hs
  · exact hs

theorem Kept.siteRecall (k n : Nat) (hs : Kept s) : Kept (siteRecall s k n) := hs

theorem Kept.siteAtomic (t : Thread) (k : Nat) (q : Bool) (hs : Kept s) : Kept (siteAtomic s t k q) := by
  unfold Machine.siteAtomic
  split
  · exact (hs.siteRecall _ _).count _ _ _
  · exact Kept.count _ _ _ hs

theorem Kept.atomicSite (t : Thread) (r : Route) (hs : Kept s) : Kept (atomicSite s t r) := by
  unfold Machine.atomicSite
  split
  · exact hs.siteAtomic _ _ _
  · exact hs

/-! ## From an effect to its outcome -/

/-- What an effect settles to. -/
theorem settle_kept {r : Except Stop (Unit × State)} {t : State}
    (h : Ends r) (hs : Kept s) (hn : settle s r = .next t) : Kept t := by
  cases r with
  | ok p => cases hn; exact h
  | error e =>
    cases e with
    | trap c i => cases hn; exact hs.takeTrap c i
    | trapBack u c i => cases hn; exact Kept.takeTrap (s := u.unpopped s) c i h
    | trapIn u c i => cases hn; exact Kept.takeTrap c i h
    | park p => cases hn; exact hs.takePark p
    | parkIn u p => cases hn; exact Kept.takePark p h
    | again u p => cases hn; exact h

/-- An issued instruction keeps the form where its effect does. -/
theorem issue_kept {o : Op} {w : Word} {body : M Unit} {t : State} (hb : Keeps body s) (hs : Kept s)
    (hn : issue o w body s = .next t) : Kept t := by
  unfold issue at hn
  split at hn
  · cases hn; exact hs.takeTrap _ _
  · split at hn
    · cases hn; exact hs.takePark _
    · split at hn
      · cases hn; exact hs.takePark _
      · refine settle_kept ?_ hs hn
        exact keeps_seq (f := fun _ => upd Machine.retire) hb fun _ u hu => keeps_upd hu.retire

theorem issueN_kept {o : Op} {w : Word} {body : M Unit} {t : State} (hb : Keeps body s) (hs : Kept s)
    (hn : issueN o w body s = .next t) : Kept t :=
  issue_kept (keeps_seq (f := fun _ => upd Machine.advance) hb fun _ _ hu => keeps_upd hu.advance) hs hn

/-! ## Accesses of a thread -/

theorem keeps_frameWait (f : Frame) (va : Dword) (hs : Kept s) : Keeps (frameWait f va) s := by
  unfold Keeps frameWait
  split
  · exact hs
  · trivial

/-- Where an address leads is found without a change of memory. -/
theorem keeps_resolve (va : Dword) (n : Nat) (a : Acc) (hs : Kept s) : Keeps (resolve va n a) s := by
  unfold Keeps resolve
  extract_lets v cold
  clear_value cold
  refine ends_ite (fun _ => trivial) fun _ => ends_ite (fun _ => ends_ite (fun _ => hs) fun _ => hs) fun _ =>
    ends_ite (fun _ => ?_) fun _ => ends_ite (fun _ => hs) fun _ => ?_
  · generalize (if (a == .fetch) = true then none else threadPlace s s.th v n) = o
    cases o with
    | none => exact hs
    | some k => exact hs
  · cases hl : lookup s s.th.part v with
    | none => exact hs.count _ _ _
    | some p =>
      obtain ⟨e, x⟩ := p
      dsimp only
      have kv : Kept (if cold = true then count (count x x.th 0x216 1) x.th 0x217 1 else x) := by
        split
        · exact ((hs.of_mem (lookup_mem hl)).count _ _ _).count _ _ _
        · exact hs.of_mem (lookup_mem hl)
      generalize (if cold = true then count (count x x.th 0x216 1) x.th 0x217 1 else x) = w at kv ⊢
      refine ends_ite (fun _ => kv) fun _ => ends_ite (fun _ => ?_) fun _ => ends_ite (fun _ => ?_) fun _ =>
        ends_ite (fun _ => ?_) fun _ => ends_ite (fun _ => kv) fun _ => kv
      · exact ends_ite (fun _ => kv) fun _ => kv
      · cases frameOf w w.th.part e.vpage with
        | some f => exact ends_ite (fun _ => keeps_frameWait f va kv) fun _ => ends_ite (fun _ => kv) fun _ => kv
        | none =>
          dsimp only
          split
          · exact kv.of_mem (fillPage_mem ‹_›)
          · trivial
      · cases movingFrame w w.th.part e.vpage with
        | some f => exact keeps_frameWait f va kv
        | none =>
          dsimp only
          split
          · rename_i h
            split at h
            · exact kv.of_mem (fillPage_mem h)
            · cases h
          · exact kv

theorem keeps_interlock (va : Dword) (n : Nat) (w : Bool) (hs : Kept s) : Keeps (interlock va n w) s := by
  unfold Keeps interlock
  split
  · trivial
  · exact hs

theorem stampSector_mem {t : Thread} {me : Nat × Nat × Bool × Nat} {k : Nat} {w : Bool} {u : State}
    (h : stampSector s t me k w = some u) : u.mem = s.mem := by
  unfold stampSector at h
  dsimp only at h
  split at h
  · cases h
  · cases h; rfl

theorem keeps_stampPlain (va : Dword) (r : Route) (w : Bool) (hs : Kept s) : Keeps (stampPlain va r w) s := by
  unfold Keeps stampPlain
  dsimp only
  split
  · exact hs
  · split
    · rename_i u h
      have k : Kept u := hs.of_mem (stampSector_mem h)
      exact k
    · split
      · exact hs
      · split
        · trivial
        · exact hs.count s.th 0x219 1

theorem keeps_boundary (hs : Kept s) : Keeps boundary s := by
  unfold Keeps boundary
  dsimp only
  split
  · trivial
  · exact hs

theorem keeps_classify (k : Cls) (va : Dword) (r : Route) (w : Bool) (hs : Kept s) : Keeps (classify k va r w) s := by
  cases k with
  | plain => exact keeps_stampPlain va r w hs
  | relaxed => exact hs
  | acquire => exact keeps_boundary hs
  | release | sc =>
    exact keeps_seq (keeps_see _ hs) fun _ _ h =>
      keeps_parkIf (f := fun _ => boundary) (keeps_boundary h)

theorem keeps_readAt (r : Route) (n : Nat) (hs : Kept s) : Keeps (readAt r n) s := by
  show Kept (if _ then _ else _)
  split
  · exact hs.countReq
  · exact hs.countReq.siteRecall _ _

/-- A committed write keeps the canonical form (R280, R389). -/
theorem keeps_writeAt (va : Dword) (r : Route) (bs : Bytes) (q : Bool) (hs : Kept s) : Keeps (writeAt va r bs q) s := by
  unfold Keeps writeAt
  dsimp only
  split
  · trivial
  · have k := (hs.countReq.siteRecall r.key bs.length).putAt s.th.part r.key bs
    generalize putAt _ s.th.part r.key bs = v at k ⊢
    show Kept (if _ then _ else _)
    split
    · exact k.foldDigest _ _ _
    · exact k

/-- A load (R182, R184). -/
theorem keeps_loadTo (d : Reg) (va : Dword) (n : Nat) (k : Cls) (hs : Kept s) : Keeps (loadTo d va n k) s := by
  unfold loadTo
  refine keeps_seq (keeps_aligned va n hs) fun _ _ h => keeps_seq (keeps_see _ h) fun _ _ h => keeps_parkIf ?_
  refine keeps_seq (keeps_resolve va n .read h) fun r _ h => keeps_seq (keeps_interlock va n false h) fun _ _ h => ?_
  refine keeps_get_bind (keeps_seq (keeps_classify k va r false h) fun _ u hu => keeps_get_bind ?_)
  split
  · exact keeps_seq (keeps_failBack _ _ _ _ h hu) fun _ _ h => keeps_seq (keeps_readAt r n h) fun v _ h => keeps_wr d _ h
  · exact keeps_seq (keeps_portRoom d hu) fun _ _ _ =>
      keeps_seq (keeps_set (hu.sendReq _ _ _ _ _ _)) fun _ _ h => keeps_parkHere _ h

/-- The requests for the parts of a block. -/
theorem Kept.askBlock (va : Dword) (r : Route) (parts : List (Nat × Nat)) (hs : Kept s) : Kept (askBlock s va r parts) := by
  unfold Machine.askBlock
  induction parts generalizing s with
  | nil => exact hs
  | cons q qs ih => exact ih (hs.sendReq _ _ _ _ _ _)

/-- A block an instruction reads before it issues. -/
theorem keeps_readBlockOnce (free : M Unit) (va : Dword) (n : Nat) (p : Park) (hf : ∀ t, Kept t → Keeps free t)
    (hs : Kept s) : Keeps (readBlockOnce free va n p) s := by
  unfold readBlockOnce
  refine keeps_seq (keeps_see _ hs) fun _ _ h => keeps_parkIf ?_
  refine keeps_get_bind ?_
  split
  · exact keeps_pure _ h
  · refine keeps_seq (keeps_resolve va n .read h) fun r _ h => keeps_seq (hf _ h) fun _ u h => ?_
    refine keeps_get_bind ?_
    split
    · exact keeps_seq (keeps_failBack _ _ _ _ h h) fun _ _ h => keeps_readAt r n h
    · split
      · exact keeps_park _
      · exact Kept.askBlock va r _ h

theorem keeps_readBlock (va : Dword) (n : Nat) (p : Park) (hs : Kept s) : Keeps (readBlock va n p) s :=
  keeps_readBlockOnce _ va n p (fun _ h => keeps_interlock va n false h) hs

theorem Kept.mcUpdate (t : Thread) (word : Dword) (ok nacks : Nat) (first : Option (Nat × Nat)) (hs : Kept s) :
    Kept (mcUpdate s t word ok nacks first) := by
  unfold Machine.mcUpdate
  dsimp only
  split
  · exact hs
  · split
    · rename_i k u hp
      have ku : Kept u := by
        split at hp
        · simp only [Option.map_eq_some_iff] at hp
          obtain ⟨j, -, hj⟩ := hp
          cases hj; exact hs
        · exact hs.of_mem (devicePlace_mem hp)
      exact (ku.siteRecall _ _).putAt _ _ _
    · split
      · exact hs
      · split
        · rename_i he
          have ke := hs.of_mem (deviceEntry_mem he)
          split
          · exact ke.sendFor _ _ _ _ _ _ _ _
          · exact ke
        · exact hs

theorem keeps_multicastCheck (va : Dword) (r : Route) (n : Nat) (hs : Kept s) : Keeps (multicastCheck va r n) s := by
  unfold multicastCheck
  refine keeps_get_bind ?_
  dsimp only
  split
  · refine keeps_seq (keeps_set ?_) fun _ _ h => keeps_trapBack _ _ h
    split
    · exact hs.logEvent _ _ _ _ _ _ _ _
    · exact hs
  · exact keeps_seq (keeps_failBack _ _ _ _ hs hs) fun _ _ h => keeps_seq (keeps_failBack _ _ _ _ hs h) fun _ _ h =>
      keeps_pure _ h

theorem Kept.multicastTo (t : Thread) (region : Nat) (word : Dword) (va : Nat) (r : Route) (ps : List Nat) (bs : Bytes)
    (hs : Kept s) : Kept (multicastTo s t region word va r ps bs) := by
  unfold Machine.multicastTo
  extract_lets me mine bad u ok first
  have ku : Kept u := by
    unfold u
    split
    · exact hs
    · exact (hs.siteRecall _ _).putAt _ _ _
  clear_value u
  split
  · exact ku.mcUpdate _ _ _ _ _
  · exact ku.sendFor _ _ _ _ _ _ _ _

theorem keeps_multicastWrite (g : Nat) (va : Dword) (r : Route) (bs : Bytes) (q : Bool) (hs : Kept s) :
    Keeps (multicastWrite g va r bs q) s := by
  refine keeps_seq (keeps_multicastCheck va r bs.length hs) fun ps t h => keeps_upd (Kept.multicastTo _ _ _ _ _ _ _ ?_)
  refine Kept.countReq ?_
  split
  · exact h
  · exact h.foldDigest _ _ _

/-- A store (R182, R184). -/
theorem keeps_storeBytes (va : Dword) (bs : Bytes) (k : Cls) (q : Bool) (hs : Kept s) : Keeps (storeBytes va bs k q) s := by
  have tail (s0 t : State) (r : Route) (h0 : Kept s0) (h : Kept t) : Keeps (do
      classify k va r true
      failBack s0 (r.mode == 0 && badMerge s0 r.key bs.length) cECC va
      if r.mode == 0 then writeAt va r bs q
      else if r.mode == 4 then multicastWrite 0 va r bs q
      else upd fun s => sendReq s (.store q) (ptePeer r.leaf) va r.key bs none
      if k == .sc && r.mode != 0 then upd (markSc s0.nextReq) else pure () : M Unit) t := by
    refine keeps_seq (keeps_classify k va r true h) fun _ _ h => keeps_seq (keeps_failBack _ _ _ _ h0 h) fun _ u h => ?_
    have last (a : PUnit) (v : State) (h : Kept v) :
        Keeps (if k == .sc && r.mode != 0 then upd (markSc s0.nextReq) else pure () : M Unit) v :=
      keeps_ite (fun _ => keeps_upd h) fun _ => keeps_pure _ h
    exact keeps_ite (fun _ => keeps_seq (keeps_writeAt va r bs q h) last) fun _ =>
      keeps_ite (fun _ => keeps_seq (keeps_multicastWrite 0 va r bs q h) last) fun _ =>
        keeps_seq (keeps_upd (h.sendReq _ _ _ _ _ _)) last
  unfold storeBytes
  refine keeps_seq (keeps_aligned va bs.length hs) fun _ _ h => keeps_seq (keeps_resolve va bs.length .write h) fun r _ h =>
    keeps_seq (keeps_interlock va bs.length true h) fun _ _ h => ?_
  refine keeps_ite (fun _ => ?_) fun _ => keeps_ite (fun _ => keeps_get_bind (tail _ _ r h h)) fun _ =>
    keeps_seq (keeps_trapBack _ _ h) fun _ _ h => keeps_get_bind (tail _ _ r h h)
  exact keeps_seq (keeps_multicastCheck va r bs.length h) fun _ _ h => keeps_get_bind (tail _ _ r h h)

/-- A write of the device itself (R393, R397, R405). -/
theorem Kept.deviceStore (pn va : Nat) (k : ReqKind) (bs : Bytes) (hs : Kept s) : Kept (deviceStore s pn va k bs).1 := by
  unfold Machine.deviceStore
  cases he : deviceEntry s pn va .write with
  | none => exact hs
  | some p =>
    obtain ⟨e, m, u⟩ := p
    have ku : Kept u := hs.of_mem (deviceEntry_mem he)
    dsimp only
    split
    · split
      · exact (ku.siteRecall _ _).putAt _ _ _
      · exact ku
    · split
      · exact ku.sendFor _ _ _ _ _ _ _ _
      · split
        · split
          · split
            · exact ku
            · exact ku.multicastTo _ _ _ _ _ _ _
          · show Kept (if _ then _ else _)
            split
            · exact ku.logEvent _ _ _ _ _ _ _ _
            · exact ku
        · exact ku

theorem keeps_fetchAt (pc : Dword) (hs : Kept s) : Keeps (fetchAt pc) s := by
  unfold fetchAt
  refine keeps_get_bind ?_
  split
  · exact keeps_pure _ hs
  · refine keeps_seq (keeps_resolve pc 4 .fetch hs) fun r u h => keeps_get_bind ?_
    split
    · split
      · exact keeps_trapBack _ _ h
      · exact keeps_pure _ h
    · split
      · exact keeps_park _
      · exact h.sendFor _ _ _ _ _ _ _ _

end Sys2Proof.Machine
end

