-- ==== Sys2Proof/Laws/KeepsEngine.lean ====
section
/-! SUPPORT. What engine transfers share keeps memory's canonical form (R197 to R209, R407 to R409). -/

namespace Sys2Proof.Machine

variable {s : State}

/-! ## Reductions at their home -/

theorem Kept.bumpWord (pn va : Nat) (hs : Kept s) : Kept (bumpWord s pn va) := by
  unfold Machine.bumpWord
  split
  · exact ((hs.of_mem (devicePlace_mem ‹_›)).siteRecall _ _).putAt _ _ _
  · split
    · rename_i he
      have k := hs.of_mem (deviceEntry_mem he)
      split
      · exact k
      · exact k.sendFor _ _ _ _ _ _ _ _
    · exact hs

theorem Kept.redClose (r : RedRound) (hs : Kept s) : Kept (redClose s r) := by
  unfold Machine.redClose
  extract_lets e bs u v
  have hv : Kept v := ((hs.siteRecall r.pa bs.length).putAt _ _ _).bumpWord r.part _
  clear_value v
  exact hv

theorem Kept.redApply (pn src : Nat) (m : RedMsg) (hs : Kept s) : Kept (redApply s pn src m).1 := by
  unfold Machine.redApply
  extract_lets e late r r' u
  split
  · exact hs
  · split
    · exact Kept.logEvent _ _ _ _ _ _ _ _ (Kept.of_mem rfl hs)
    · split
      · exact hs.logEvent _ _ _ _ _ _ _ _
      · have hu : Kept u := hs.of_mem rfl
        clear_value u
        split
        · exact hu.redClose _
        · exact hu

/-! ## Addresses of a transfer -/

/-- What a stopped effect has recorded keeps the form. -/
theorem Stop.Kept.record {e : Stop} (h : e.Kept) (hs : Machine.Kept s) : Machine.Kept (e.record s) := by
  cases e <;> first | exact h | exact hs

theorem keeps_reachRun (a : Acc) (unit : Nat) (r : Run) (hs : Kept s) : Keeps (reachRun a unit r) s := by
  have one (q : Run) (t : State) (ht : Kept t) : Keeps (do
      let u ← resolve (BitVec.ofNat 64 q.va) q.n a
      interlock (BitVec.ofNat 64 q.va) q.n (a == .write)
      pure (q, u) : M Piece) t :=
    keeps_seq (keeps_resolve _ _ _ ht) fun _ _ h => keeps_seq (keeps_interlock _ _ _ h) fun _ _ h => keeps_pure _ h
  unfold Keeps reachRun
  dsimp only
  split
  · exact keeps_ok ‹_› (one r s hs)
  · split
    · exact keeps_mapM (fun j t ht => one ⟨r.va + j * unit, unit, r.off + j * unit⟩ t ht)
        ((keeps_error ‹_› (one r s hs)).record hs)
    · exact keeps_error ‹_› (one r s hs)

theorem keeps_reachAll (a : Acc) (unit : Nat) (l : List Run) (hs : Kept s) : Keeps (reachAll a unit l) s := by
  induction l generalizing s with
  | nil => exact hs
  | cons r rs ih =>
    exact keeps_seq (keeps_reachRun a unit r hs) fun _ _ h => keeps_seq (ih h) fun _ _ h => keeps_pure _ h

theorem keeps_trimAt (a : Acc) (unit : Nat) (r : Run) (n j : Nat) (hs : Kept s) :
    Keeps (reachTrim.trimAt a unit r n j) s := by
  induction n generalizing s j with
  | zero => exact hs
  | succ n ih =>
    unfold Keeps reachTrim.trimAt
    split
    · exact keeps_seq (ih (j + 1) (keeps_ok ‹_› (keeps_reachRun a unit _ hs))) fun _ _ h => keeps_pure _ h
    · split
      · exact (keeps_error ‹_› (keeps_reachRun a unit _ hs)).record hs
      · exact keeps_error ‹_› (keeps_reachRun a unit _ hs)

theorem keeps_reachTrim (a : Acc) (unit : Nat) (l : List Run) (hs : Kept s) : Keeps (reachTrim a unit l) s := by
  induction l generalizing s with
  | nil => exact hs
  | cons r rs ih =>
    unfold Keeps reachTrim
    split
    · exact keeps_seq (ih (keeps_ok ‹_› (keeps_reachRun a unit r hs))) fun _ _ h => keeps_pure _ h
    · split
      · split
        · exact keeps_trimAt a unit r _ 0 ((keeps_error ‹_› (keeps_reachRun a unit r hs)).record hs)
        · exact keeps_error ‹_› (keeps_reachRun a unit r hs)
      · exact keeps_error ‹_› (keeps_reachRun a unit r hs)

/-! ## Pieces read and written -/

theorem stampEngine_kept {va n region : Nat} {r : Route} {w : Bool} {t : State}
    (h : stampEngine s va r n region w = .ok t) (hs : Kept s) : Kept t := by
  unfold stampEngine at h
  split at h
  · cases h; exact hs
  · dsimp only at h
    suffices ∀ (l : List Nat) (f : Except Nat State → Nat → Except Nat State)
        (_ : ∀ e j, f (.error e) j = .error e) (_ : ∀ u j v, Kept u → f (.ok u) j = .ok v → Kept v) (u v : State),
        Kept u → l.foldl f (.ok u) = .ok v → Kept v from
      this _ _ (fun _ _ => rfl) (fun u j v hu hv => by
        dsimp only at hv
        split at hv
        · cases hv; exact hu.of_mem (stampSector_mem ‹_›)
        · cases hv) s t hs h
    intro l f he hk
    have stay (e : Nat) : ∀ l : List Nat, l.foldl f (.error e) = .error e := by
      intro l
      induction l with
      | nil => rfl
      | cons j r ih => rw [List.foldl_cons, he, ih]
    induction l with
    | nil => intro u v hu hv; cases hv; exact hu
    | cons j r ih =>
      intro u v hu hv
      rw [List.foldl_cons] at hv
      cases hf : f (.ok u) j with
      | error e => rw [hf, stay] at hv; cases hv
      | ok x => rw [hf] at hv; exact ih x v (hk u j x hu hf) hv

/-- A fold whose every step keeps the form keeps it. -/
theorem foldl_kept {α β : Type} {f : State × β → α → State × β} (hf : ∀ p a, Kept p.1 → Kept (f p a).1)
    (l : List α) (p : State × β) (h : Kept p.1) : Kept (l.foldl f p).1 := by
  induction l generalizing p with
  | nil => exact h
  | cons a r ih => exact ih _ (hf p a h)

/-- A state folded over a list by steps that keep the form. -/
theorem foldl_state_kept {α : Type} {f : State → α → State} (hf : ∀ s a, Kept s → Kept (f s a)) (l : List α) (hs : Kept s) :
    Kept (l.foldl f s) := by
  induction l generalizing s with
  | nil => exact hs
  | cons a r ih => exact ih (hf s a hs)

theorem Kept.askRun (region : Nat) (r : Run) (t : Route) (hs : Kept s) : Kept (askRun region r t s) :=
  foldl_state_kept (fun _ _ h => h.sendReq _ _ _ _ _ _) _ hs

theorem Kept.deliverRun (region : Nat) (q : Bool) (r : Run) (t : Route) (bs : Bytes) (hs : Kept s) :
    Kept (deliverRun region q r t bs s) :=
  foldl_state_kept (fun _ _ h => h.sendReq _ _ _ _ _ _) _ hs

theorem Kept.readPieces (region total : Nat) (ps : List Piece) (hs : Kept s) : Kept (readPieces region total ps s).1 := by
  unfold Machine.readPieces
  refine foldl_kept (fun p a h => ?_) ps _ hs
  obtain ⟨u, bs, f⟩ := p
  obtain ⟨r, t⟩ := a
  cases f with
  | some f => exact h
  | none =>
    dsimp only
    split
    · exact h
    · rename_i v hv
      have k := stampEngine_kept hv h
      split
      · split
        · exact k.countReq
        · show Kept (if _ then _ else _)
          split
          · exact k.countReq
          · exact k.countReq.siteRecall _ _
      · exact k.askRun _ _ _

theorem Kept.writePiece (region : Nat) (q : Bool) (p : Piece) (bs : Bytes) (hs : Kept s) :
    Kept (writePiece region q p bs s).1 := by
  obtain ⟨r, t⟩ := p
  unfold Machine.writePiece
  dsimp only
  split
  · exact hs
  · rename_i u hu
    have k := stampEngine_kept hu hs
    split
    · split
      · exact keeps_ok ‹_› (keeps_writeAt _ t bs q k)
      · exact k
    · split
      · split
        · exact keeps_ok ‹_› (keeps_multicastWrite region _ t bs q k)
        · exact keeps_error ‹_› (keeps_multicastWrite region _ t bs q k)
        · exact k
      · split
        · split
          · have kr := k.redApply u.th.part (accId u (getPart u u.th.part)) (redMsg u t bs)
            refine Kept.countReq ?_
            split
            · exact kr.foldDigest _ _ _
            · exact kr
          · exact k.sendReq _ _ _ _ _ _
        · exact k.deliverRun _ _ _ _ _

theorem Kept.writePieces (region : Nat) (q : Bool) (data : Bytes) (ps : List Piece) (hs : Kept s) :
    Kept (writePieces region q data ps s).1 := by
  unfold Machine.writePieces
  refine foldl_kept (fun p a h => ?_) _ _ hs
  obtain ⟨u, n, f⟩ := p
  cases f with
  | some f => exact h
  | none =>
    have k := Kept.writePiece region q a ((data.drop a.1.off).take a.1.n) h
    dsimp only
    split
    all_goals
      rename_i hw
      rw [hw] at k
      exact k

theorem keeps_writeCheck (word : Word) (p : Piece) (hs : Kept s) : Keeps (writeCheck word p) s := by
  unfold writeCheck
  refine keeps_get_bind ?_
  obtain ⟨r, t⟩ := p
  dsimp only
  split
  · exact keeps_seq (keeps_multicastCheck _ t r.n hs) fun _ _ h => keeps_pure _ h
  · split
    · have entry (u : State) (hu : Kept u) : Keeps
          (if redValid (redEntry s s.th.part (ptePeer t.leaf % 256)) (t.mode == 5) then
            failBack s (t.mode == 6 && launchFlag s s.th 0) cILL (wordInfo word)
          else do
            set (logEvent s s.th.part 8 0 (0x4000 + 32 * (ptePeer t.leaf % 256)) 0 0 0 0)
            trapBack cPROT (BitVec.ofNat 64 r.va) : M Unit) u :=
        keeps_ite (fun _ => keeps_failBack _ _ _ _ hs hu) fun _ =>
          keeps_seq (keeps_set (hs.logEvent _ _ _ _ _ _ _ _)) fun _ _ h => keeps_trapBack _ _ h
      exact keeps_ite (fun _ => entry s hs) fun _ => keeps_seq (keeps_trapBack _ _ hs) fun _ u hu => entry u hu
    · exact keeps_pure _ hs

theorem keeps_writeChecks (word : Word) (ps : List Piece) (hs : Kept s) : Keeps (writeChecks word ps) s :=
  keeps_forM (fun p _ h => keeps_writeCheck word p h) hs

theorem keeps_writeTrim (word : Word) (ps : List Piece) (hs : Kept s) : Keeps (writeTrim word ps) s := by
  induction ps generalizing s with
  | nil => exact hs
  | cons p ps ih =>
    have k := keeps_writeCheck word p hs
    unfold Keeps writeTrim
    split
    · exact keeps_seq (ih (keeps_ok ‹_› k)) fun _ _ h => keeps_pure _ h
    · have kt := keeps_error ‹_› k
      split
      · exact kt
      · exact kt
    · exact keeps_error ‹_› k

theorem keeps_beginTransfer (hs : Kept s) : Keeps beginTransfer s := hs

theorem keeps_recordXfer (region : Nat) (vs : Option Nat) (c : Chunk) (f : Option Failure) (keep : VReg) (hs : Kept s) :
    Keeps (recordXfer region vs c f keep) s := keeps_updT _ hs

end Sys2Proof.Machine
end

