-- ==== Sys2Proof/Laws/Scalars.lean ====
section
/-! SUPPORT. What reading a scalar, writing one, and moving to the next instruction can do (R51 to R53, R92). -/

namespace Sys2Proof.Machine

/-! ## Reading and writing scalars -/

/-- A read of a scalar that completes: the value of a register with nothing changed, or the oldest entry of a queue. -/
theorem rd_cases {r : Reg} {s s' : State} {v : Dword} (h : rd r s = .ok (v, s')) :
    (isPort r = false ∧ v = scalarVal s r.toNat ∧ s' = s) ∨
    (isPort r = true ∧ ∃ l, s.th.queue r.toNat = v :: l ∧ s' = s.updTh fun t => t.setQueue r.toNat l) := by
  unfold rd at h
  cases hp : isPort r
  · rw [hp] at h; injection h with h; injection h with h1 h2
    exact .inl ⟨rfl, h1.symm, h2.symm⟩
  · rw [hp] at h
    simp only [if_true, popQ] at h
    split at h
    · cases h
    · next v' l hq =>
      injection h with h; injection h with h1 h2
      subst h1; exact .inr ⟨rfl, l, hq, h2.symm⟩

/-- A read of a scalar that stops: a pop from an empty queue. -/
theorem rd_error {r : Reg} {s : State} {e : Stop} (h : rd r s = .error e) :
    isPort r = true ∧ s.th.queue r.toNat = [] ∧ e = .park (.pop r.toNat) := by
  unfold rd at h
  cases hp : isPort r
  · rw [hp] at h; cases h
  · rw [hp] at h
    simp only [if_true, popQ] at h
    split at h
    · next hq => injection h with h; exact ⟨rfl, hq, h.symm⟩
    · cases h

/-- A write of a scalar that completes: of a register, or a push to a queue with room. -/
theorem wr_cases {r : Reg} {v : Dword} {s s' : State} (h : wr r v s = .ok ((), s')) :
    (isPort r = false ∧ s' = setScalar s r.toNat v) ∨
    (isPort r = true ∧ (s.th.queue r.toNat).length < qDepth r.toNat ∧
      s' = s.updTh fun t => t.setQueue r.toNat
        (s.th.queue r.toNat ++ [if 116 ≤ r.toNat then (if v == 0 then 0 else 1) else v])) := by
  unfold wr at h
  cases hp : isPort r
  · rw [hp] at h; injection h with h; injection h with h1 h2
    exact .inl ⟨rfl, h2.symm⟩
  · rw [hp] at h
    simp only [if_true, pushQ] at h
    split at h
    · next hq => injection h with h; injection h with h1 h2; exact .inr ⟨rfl, hq, h2.symm⟩
    · cases h

/-- A write of a scalar that stops: a push to a full queue. -/
theorem wr_error {r : Reg} {v : Dword} {s : State} {e : Stop} (h : wr r v s = .error e) :
    isPort r = true ∧ ¬ (s.th.queue r.toNat).length < qDepth r.toNat ∧ e = .park (.push r.toNat) := by
  unfold wr at h
  cases hp : isPort r
  · rw [hp] at h; cases h
  · rw [hp] at h
    simp only [if_true, pushQ] at h
    split at h
    · cases h
    · next hq => injection h with h; exact ⟨rfl, hq, h.symm⟩

/-- A read of several scalars completes read by read. -/
theorem readAll_cons {r : Reg} {rs : List Reg} {s s' : State} {vs : List Dword} (h : readAll (r :: rs) s = .ok (vs, s')) :
    ∃ v s1 ws, rd r s = .ok (v, s1) ∧ readAll rs s1 = .ok (ws, s') ∧ vs = v :: ws := by
  obtain ⟨v, s1, h1, h⟩ := M.bind_eq_ok h
  obtain ⟨ws, s2, h2, h⟩ := M.bind_eq_ok h
  injection h with h; injection h with h3 h4
  subst h4
  exact ⟨v, s1, ws, h1, h2, h3.symm⟩

theorem readAll_nil {s s' : State} {vs : List Dword} (h : readAll [] s = .ok (vs, s')) : vs = [] ∧ s' = s := by
  injection h with h; injection h with h1 h2; exact ⟨h1.symm, h2.symm⟩

/-! ## Queues -/

@[simp] theorem Thread.queue_setQueue (t : Thread) (n : Nat) (l : List Dword) : (t.setQueue n l).queue n = l :=
  Store.get_put_self t.q n l

theorem Thread.queue_setQueue_ne (t : Thread) {n m : Nat} (h : m ≠ n) (l : List Dword) :
    (t.setQueue n l).queue m = t.queue m := Store.get_put_ne t.q l h

/-! ## Scalars after a write -/

theorem setScalar_eq_updTh (s : State) (n : Nat) (v : Dword) : ∃ f, setScalar s n v = s.updTh f := by
  unfold setScalar
  split
  · exact ⟨_, rfl⟩
  · split
    · exact ⟨_, rfl⟩
    · split
      · exact ⟨_, rfl⟩
      · split
        · exact ⟨_, rfl⟩
        · split
          · exact ⟨_, rfl⟩
          · exact ⟨id, rfl⟩

/-- A general register reads what was written to it; s0 reads 0 and discards. -/
theorem Stream.get_setGpr (c : Stream) (n : Nat) (v : Dword) :
    Store.get 0 (c.setGpr n v).gpr n = if n = 0 then Store.get 0 c.gpr 0 else v := by
  unfold Stream.setGpr
  by_cases h : n = 0
  · subst h; rfl
  · have h2 : (n == 0) = false := by simpa using h
    simp only [h2, h, if_false]
    exact Store.get_put_self _ _ _

/-- A write of one general register leaves every other as it was. -/
theorem Stream.get_setGpr_ne (c : Stream) {n m : Nat} (v : Dword) (h : m ≠ n) :
    Store.get 0 (c.setGpr n v).gpr m = Store.get 0 c.gpr m := by
  unfold Stream.setGpr
  split
  · rfl
  · exact Store.get_put_ne _ _ h

/-! ## Moving on -/

/-- A stream differs from another in its PC, its stair and its general registers alone. -/
def Stream.Moved (c d : Stream) : Prop := { d with pc := c.pc, stair := c.stair, gpr := c.gpr } = c

theorem stepScalars_moved (strides : List Dword) (m k : Nat) (rs : List Reg) :
    ∀ (c : Stream) (j : Nat), ({ stepScalars c strides m k rs j with gpr := c.gpr } = c) ∧
      ∀ n, n ∉ rs.map (fun r => r.toNat) →
        Store.get 0 (stepScalars c strides m k rs j).gpr n = Store.get 0 c.gpr n := by
  induction rs with
  | nil => intro c j; exact ⟨rfl, fun _ _ => rfl⟩
  | cons r rs ih =>
    intro c j
    have hs : ∀ v, { c.setGpr r.toNat v with gpr := c.gpr } = c := by
      intro v; unfold Stream.setGpr; split <;> rfl
    obtain ⟨h1, h2⟩ := ih (c.setGpr r.toNat (Store.get 0 c.gpr r.toNat + atD 0 (k * m + j) strides)) (j + 1)
    refine ⟨?_, fun n hn => ?_⟩
    · have h3 := congrArg (fun d : Stream => { d with gpr := c.gpr }) h1
      exact h3.trans (hs _)
    · simp only [List.map_cons, List.mem_cons, not_or] at hn
      exact (h2 n hn.2).trans (Stream.get_setGpr_ne c _ hn.1)

theorem enterReplay_moved : ∀ (n : Nat) (c : Stream) (t : Stair), c.Moved (enterReplay n c t) ∧
    ∀ m, m ∉ t.stepped.map (fun r => r.toNat) → Store.get 0 (enterReplay n c t).gpr m = Store.get 0 c.gpr m := by
  intro n
  induction n with
  | zero => intro c t; exact ⟨rfl, fun _ _ => rfl⟩
  | succ n ih =>
    intro c t
    unfold enterReplay
    split
    · exact ⟨rfl, fun _ _ => rfl⟩
    · split
      · next fs k _ =>
        obtain ⟨h1, h2⟩ := ih (stepScalars c t.strides t.stepped.length k t.stepped 0) { t with flights := fs }
        obtain ⟨h3, h4⟩ := stepScalars_moved t.strides t.stepped.length k t.stepped c 0
        refine ⟨?_, fun m hm => (h2 m hm).trans (h4 m hm)⟩
        have h5 := congrArg (fun d : Stream => { d with pc := c.pc, stair := c.stair, gpr := c.gpr }) h1
        have h6 := congrArg (fun d : Stream => { d with pc := c.pc, stair := c.stair, gpr := c.gpr }) h3
        exact h5.trans h6
      · exact ⟨rfl, fun _ _ => rfl⟩

/-- Where the PC stands in a stair, the stair is the stream's. -/
theorem Stream.stairPos_eq {c : Stream} {t : Stair} {b : Nat} (h : c.stairPos = some (t, b)) : c.stair = some t := by
  unfold Stream.stairPos at h
  split at h
  · next u hu =>
    dsimp only at h
    split at h
    · injection h with h; injection h with h1 _; rw [hu, h1]
    · cases h
  · cases h

/-- Going on in a stair changes a stream's PC and stair, and the scalars the stair steps. -/
theorem Stream.seekFrom_moved (c : Stream) (t : Stair) (b : Nat) : c.Moved (c.seekFrom t b) ∧
    ∀ n, n ∉ t.stepped.map (fun r => r.toNat) → Store.get 0 (c.seekFrom t b).gpr n = Store.get 0 c.gpr n := by
  unfold Stream.seekFrom
  split
  · exact ⟨rfl, fun _ _ => rfl⟩
  · split
    · next fs k _ =>
      obtain ⟨h1, h2⟩ := enterReplay_moved t.replays (stepScalars c t.strides t.stepped.length k t.stepped 0)
        { t with flights := fs }
      obtain ⟨h3, h4⟩ := stepScalars_moved t.strides t.stepped.length k t.stepped c 0
      refine ⟨?_, fun n hn => (h2 n hn).trans (h4 n hn)⟩
      have h5 := congrArg (fun d : Stream => { d with pc := c.pc, stair := c.stair, gpr := c.gpr }) h1
      have h6 := congrArg (fun d : Stream => { d with pc := c.pc, stair := c.stair, gpr := c.gpr }) h3
      exact h5.trans h6
    · exact ⟨rfl, fun _ _ => rfl⟩

/-- Moving on changes a stream's PC and stair, and the scalars an active stair steps. -/
theorem Stream.next_moved (c : Stream) : c.Moved c.next ∧
    ∀ n, n ∉ c.steppedRegs → Store.get 0 c.next.gpr n = Store.get 0 c.gpr n := by
  unfold Stream.next
  split
  · next t b ht =>
    refine ⟨(c.seekFrom_moved t (b + 1)).1, fun n hn => (c.seekFrom_moved t (b + 1)).2 n ?_⟩
    simpa only [Stream.steppedRegs, Stream.stairPos_eq ht] using hn
  · exact ⟨rfl, fun _ _ => rfl⟩

/-- Outside a stair's buffer the next instruction is the next word (R92). -/
theorem Stream.next_plain {c : Stream} (h : c.stairPos = none) : c.next = { c with pc := c.pc + 4 } := by
  unfold Stream.next; rw [h]

end Sys2Proof.Machine
end

