-- ==== Sys2Proof/Laws/Vector.lean ====
section
/-! SUPPORT. What a vector instruction leaves once every instruction in flight has landed, said once: its elements, its
fault bits, its chunk, and that nothing else of the machine changes (R149 to R151, R178, R271). -/

namespace Sys2Proof.Machine

@[simp] theorem M.map_apply {α β : Type} (g : α → β) (x : M α) (s : State) :
    (g <$> x) s = match x s with
      | .ok (a, s') => .ok (g a, s')
      | .error e => .error e := by
  show Except.map _ (x s) = _
  cases x s <;> rfl

/-! ## The end of an X instruction -/

/-- Counting changes the counters alone. -/
theorem count_eq (s : State) (t : Thread) (n k : Nat) : count s t n k = { s with counters := (count s t n k).counters } := by
  unfold count; split <;> rfl

/-- Counting an issue changes the counters alone. -/
theorem countIssue_eq (s : State) : countIssue s = { s with counters := (countIssue s).counters } := by
  unfold countIssue
  split
  · rfl
  · exact count_eq _ _ _ _

/-- The X stream once its instruction has ended. -/
def Stream.retired (c : Stream) : Stream :=
  { c.next with park := none, deadline := none, object := none, freed := none, ibuf := [], popped := [] }

/-- The end of an X instruction, written out. -/
theorem finish_eq {s : State} (hx : s.strm = .x) :
    finish s = { s with th := { s.th with x := s.th.x.retired }, counters := (countIssue (advance s)).counters } := by
  have ha : advance s = { s with th := { s.th with x := s.th.x.next } } := by
    unfold advance State.updCur State.updTh; rw [hx]; rfl
  unfold finish retire
  rw [countIssue_eq (advance s)]
  generalize (countIssue (advance s)).counters = c
  rw [ha]
  unfold State.updCur State.updTh
  dsimp only
  rw [hx]
  rfl

theorem finish_th {s : State} (hx : s.strm = .x) : (finish s).th = { s.th with x := s.th.x.retired } := by
  rw [finish_eq hx]

/-! ## Landing does not look at the X stream -/

/-- The general registers that instructions in flight have still to write, oldest first. -/
def pending (l : List Flying) : List (Nat × Dword) := (l.filter fun f => !f.done).flatMap fun f => f.eff.gw

/-- General registers written in order. -/
def Stream.setGprs (c : Stream) (l : List (Nat × Dword)) : Stream := l.foldl (fun c g => c.setGpr g.1 g.2) c

@[simp] theorem Stream.setGprs_nil (c : Stream) : c.setGprs [] = c := rfl

theorem Stream.setGprs_append (c : Stream) (l m : List (Nat × Dword)) : c.setGprs (l ++ m) = (c.setGprs l).setGprs m :=
  List.foldl_append

theorem Stream.setGprs_gpr (c : Stream) (l : List (Nat × Dword)) (g : Store Dword) :
    { c.setGprs l with gpr := g } = { c with gpr := g } := by
  unfold Stream.setGprs
  induction l generalizing c with
  | nil => rfl
  | cons e r ih =>
    refine (ih (c.setGpr e.1 e.2)).trans ?_
    unfold Stream.setGpr; split <;> rfl

/-- Two streams that hold the same in a general register hold the same in it after the same writes. -/
theorem Stream.setGprs_congr {c d : Stream} (n : Nat) (l : List (Nat × Dword))
    (h : Store.get 0 c.gpr n = Store.get 0 d.gpr n) :
    Store.get 0 (c.setGprs l).gpr n = Store.get 0 (d.setGprs l).gpr n := by
  unfold Stream.setGprs
  induction l generalizing c d with
  | nil => exact h
  | cons e r ih =>
    refine ih ?_
    by_cases hn : n = e.1
    · subst hn
      rw [Stream.get_setGpr, Stream.get_setGpr]
      split
      · rename_i h0; rw [h0] at h; exact h
      · rfl
    · rw [Stream.get_setGpr_ne _ _ hn, Stream.get_setGpr_ne _ _ hn, h]

/-- A change of a thread that its registers, predicates, queues and streams do not see. -/
structure Unseen (g : Thread → Thread) : Prop where
  putV : ∀ t w, (g t).putV w = g (t.putV w)
  putP : ∀ t w, (g t).putP w = g (t.putP w)
  bound : ∀ t ph, boundTo (g t) ph = boundTo t ph
  vr : ∀ t ph, (g t).vr ph = t.vr ph
  vstream : ∀ t j, (g t).vstream j = t.vstream j
  flying : ∀ t, (g t).flying = t.flying
  setVstream : ∀ t j v, (g t).setVstream j v = g (t.setVstream j v)

theorem unseen_x (c : Stream) : Unseen fun t => { t with x := c } :=
  ⟨fun _ _ => rfl, fun t w => by unfold Thread.putP; split <;> rfl, fun _ _ => rfl, fun _ _ => rfl, fun _ _ => rfl,
    fun _ => rfl, fun _ _ _ => rfl⟩

theorem unseen_strips (l : List Strip) : Unseen fun t => { t with strips := l } :=
  ⟨fun _ _ => rfl, fun t w => by unfold Thread.putP; split <;> rfl, fun _ _ => rfl, fun _ _ => rfl, fun _ _ => rfl,
    fun _ => rfl, fun _ _ _ => rfl⟩

theorem Unseen.putVs {g : Thread → Thread} (h : Unseen g) : ∀ (l : List VWrite) (t : Thread),
    l.foldl Thread.putV (g t) = g (l.foldl Thread.putV t)
  | [], _ => rfl
  | w :: r, t => by rw [List.foldl_cons, List.foldl_cons, h.putV, h.putVs r]

theorem Unseen.putPs {g : Thread → Thread} (h : Unseen g) : ∀ (l : List PWrite) (t : Thread),
    l.foldl Thread.putP (g t) = g (l.foldl Thread.putP t)
  | [], _ => rfl
  | w :: r, t => by rw [List.foldl_cons, List.foldl_cons, h.putP, h.putPs r]

theorem Unseen.sendChunks {g : Thread → Thread} (h : Unseen g) : ∀ (l : List (Nat × Nat)) (t : Thread),
    Machine.sendChunks (g t) l = (g (Machine.sendChunks t l).1, (Machine.sendChunks t l).2)
  | [], _ => rfl
  | (ph, n) :: r, t => by
    have ih := h.sendChunks r
    unfold Machine.sendChunks
    have hw : ∀ j, waitsForRoom (g t) j = waitsForRoom t j := fun j => by unfold waitsForRoom; rw [h.flying]
    rw [h.bound]
    cases boundTo t ph with
    | none => exact ih t
    | some j =>
      simp only [h.vr, h.vstream, hw, h.setVstream]
      split
      · exact ih t
      · split
        · exact ih _
        · rw [ih t]

theorem Thread.putLast_x (t : Thread) (c : Stream) (e : Effect) :
    ({ t with x := c } : Thread).putLast e = { t.putLast e with x := c } := by
  unfold Thread.putLast
  cases e.unit <;> cases e.clear <;> rfl

theorem Thread.putLast_strips (t : Thread) (l : List Strip) (e : Effect) :
    ({ t with strips := l } : Thread).putLast e = { t.putLast e with strips := l } := by
  unfold Thread.putLast
  cases e.unit <;> cases e.clear <;> rfl

theorem Thread.apply_x (t : Thread) (c : Stream) (e : Effect) :
    ({ t with x := c } : Thread).apply e = { t.apply e with x := c.setGprs e.gw } := by
  unfold Thread.apply
  rw [(unseen_x c).putVs, (unseen_x c).putPs]
  dsimp only
  rw [← Thread.putLast_x]
  cases e.push <;> rfl

theorem Thread.apply_strips (t : Thread) (l : List Strip) (e : Effect) :
    ({ t with strips := l } : Thread).apply e = { t.apply e with strips := l } := by
  unfold Thread.apply
  rw [(unseen_strips l).putVs, (unseen_strips l).putPs]
  dsimp only
  rw [← Thread.putLast_strips]
  cases e.push <;> rfl

theorem Thread.apply_gprs (t : Thread) (e : Effect) : (t.apply e).x = t.x.setGprs e.gw :=
  congrArg Thread.x (Thread.apply_x t t.x e)

/-- Sending chunks changes the vector streams alone. -/
theorem sendChunks_th : ∀ (l : List (Nat × Nat)) (t : Thread), (sendChunks t l).1 = { t with vs := (sendChunks t l).1.vs }
  | [], _ => rfl
  | (ph, n) :: r, t => by
    have ih := sendChunks_th r
    unfold sendChunks
    cases boundTo t ph with
    | none => exact ih t
    | some j =>
      dsimp only
      split
      · exact ih t
      · split
        · exact (ih _).trans rfl
        · exact ih t

theorem Flying.rest_gw (f : Flying) : f.rest.gw = f.eff.gw := by
  unfold Flying.rest; split <;> rfl

theorem Thread.complete_x (t : Thread) (c : Stream) (f : Flying) :
    ({ t with x := c } : Thread).complete f = ({ (t.complete f).1 with x := c.setGprs f.eff.gw }, (t.complete f).2) := by
  unfold Thread.complete
  rw [Thread.apply_x, Flying.rest_gw, (unseen_x _).sendChunks]

theorem Thread.complete_gprs (t : Thread) (f : Flying) : (t.complete f).1.x = t.x.setGprs f.eff.gw :=
  congrArg (fun p => p.1.x) (Thread.complete_x t t.x f)

theorem landOne_x (u : Thread) (c : Stream) (f : Flying) :
    landOne { u with x := c } f = { landOne u f with x := c.setGprs (pending [f]) } := by
  unfold landOne pending
  cases h : f.done
  · simp only [Bool.false_eq_true, if_false, List.filter_cons, h, Bool.not_false, if_true, List.filter_nil,
      List.flatMap_cons, List.flatMap_nil, List.append_nil]
    rw [Thread.complete_x]
  · simp [h]

theorem pending_cons (f : Flying) (l : List Flying) : pending (f :: l) = pending [f] ++ pending l := by
  unfold pending
  rw [← List.flatMap_append, ← List.filter_append]; rfl

theorem landOne_gprs (u : Thread) (f : Flying) : (landOne u f).x = u.x.setGprs (pending [f]) :=
  congrArg Thread.x (landOne_x u u.x f)

theorem foldl_landOne_x : ∀ (l : List Flying) (u : Thread) (c : Stream),
    l.foldl landOne { u with x := c } = { l.foldl landOne u with x := c.setGprs (pending l) }
  | [], _, _ => rfl
  | f :: r, u, c => by
    rw [List.foldl_cons, List.foldl_cons, landOne_x, foldl_landOne_x r, pending_cons f r, Stream.setGprs_append]

/-- LANDING COMMUTES WITH A CHANGE OF THE X STREAM, but for the general registers that are still to be written. -/
theorem Thread.landed_x (t : Thread) (c : Stream) :
    ({ t with x := c } : Thread).landed = { t.landed with x := c.setGprs (pending t.flying) } :=
  foldl_landOne_x t.flying { t with flying := [], strips := [] } c

theorem Thread.landed_gprs (t : Thread) : t.landed.x = t.x.setGprs (pending t.flying) :=
  congrArg Thread.x (Thread.landed_x t t.x)

/-- One more instruction in flight lands after the others. -/
theorem Thread.landed_append (t : Thread) (f : Flying) :
    ({ t with flying := t.flying ++ [f] } : Thread).landed = landOne t.landed f := List.foldl_append

/-- A thread whose instructions are all done lands as it is. -/
theorem Thread.landed_idle {t : Thread} (h : t.idle = true) : t.landed = { t with strips := [] } := by
  have key : ∀ (l : List Flying) (u : Thread), l.all Flying.done = true →
      l.foldl landOne u = { u with flying := u.flying ++ l } := by
    intro l
    induction l with
    | nil => intro u _; rw [List.foldl_nil, List.append_nil]
    | cons f r ih =>
      intro u hl
      rw [List.all_cons, Bool.and_eq_true] at hl
      have h1 : landOne u f = { u with flying := u.flying ++ [f] } := by unfold landOne; rw [if_pos hl.1]
      rw [List.foldl_cons, h1, ih _ hl.2]
      simp only [List.append_assoc, List.singleton_append]
  exact key t.flying _ h

/-! ## What one instruction more comes to -/

/-- A thread with one more instruction complete. -/
def Thread.flown (t : Thread) (f : Flying) : Thread := { (t.complete f).1 with flying := t.flying ++ (t.complete f).2 }

theorem landOne_new {u : Thread} {f : Flying} (h : f.done = false) : landOne u f = u.flown f := by
  unfold landOne Thread.flown; rw [h]; rfl

theorem Thread.complete_done (t : Thread) (f : Flying) : (t.complete f).2.all Flying.done = true := by
  unfold Thread.complete
  dsimp only
  split
  · rfl
  · simp [Flying.done, Flying.limit]

theorem Thread.complete_strips (t : Thread) (f : Flying) (l : List Strip) :
    ({ t with strips := l } : Thread).complete f = ({ (t.complete f).1 with strips := l }, (t.complete f).2) := by
  unfold Thread.complete
  rw [Thread.apply_strips, (unseen_strips l).sendChunks]

theorem Thread.flown_strips (t : Thread) (f : Flying) (l : List Strip) :
    ({ t with strips := l } : Thread).flown f = { t.flown f with strips := l } := by
  unfold Thread.flown
  rw [Thread.complete_strips t f l]

/-- The new instruction has something to do. -/
theorem newFlight_undone (s : State) (word : Word) (sh : Shape) (e : Effect) (pops : List Pop) (h : 0 < sh.wide) :
    (newFlight s word sh e pops).done = false := by
  have hg : sh.n ≠ 0 → 1 ≤ (sh.n * sh.wide + 1023) / 1024 := fun hn => by
    have : 1 ≤ sh.n * sh.wide := Nat.mul_pos (Nat.pos_of_ne_zero hn) h
    omega
  unfold Flying.done Flying.limit newFlight
  dsimp only
  cases hw : (sh.whole || sh.n == 0)
  · have hn : sh.n ≠ 0 := by
      intro h0; rw [h0] at hw; simp at hw
    have := hg hn
    simp only [Bool.false_eq_true, if_false, decide_eq_false_iff_not, Shape.groups]
    generalize (sh.n * sh.wide + 1023) / 1024 = b at this ⊢
    have := Nat.min_le_right (s.th.startIdx.getD 0 / Shape.per { sh with whole := false }) (b - 1)
    intro hb
    exact absurd (Nat.le_trans hb this) (by omega)
  · simp

/-- WHAT HANDING AN INSTRUCTION TO THE SEQUENCER COMES TO, once all in flight has landed: the effect made on what every
earlier one leaves. -/
theorem fly_spec {s : State} {now : Bool} (hi : now = true → s.th.idle = true) (word : Word) (sh : Shape) (e : Effect)
    (pops : List Pop) (hw : 0 < sh.wide) :
    ∃ t, fly now word sh e pops s = .ok ((), t) ∧ t.strm = s.strm ∧ t.th.x.stair = s.th.x.stair ∧
      (pending t.th.flying = pending s.th.flying ++ e.gw ∧ t.th.x = s.th.x ∨
        pending t.th.flying = [] ∧ t.th.x = s.th.x.setGprs e.gw ∧ pending s.th.flying = []) ∧
      landed t = { landed s with
        th := (landed s).th.flown (newFlight s word sh e pops), counters := (landed t).counters } := by
  have hd := newFlight_undone s word sh e pops hw
  cases now with
  | false =>
    refine ⟨_, rfl, rfl, rfl, .inl ⟨?_, rfl⟩, ?_⟩
    · show pending (s.th.flying ++ [newFlight s word sh e pops]) = _
      unfold pending
      rw [List.filter_append, List.flatMap_append, List.filter_cons, hd]
      show _ ++ (e.gw ++ []) = _
      rw [List.append_nil]
    · have := Thread.landed_append s.th (newFlight s word sh e pops)
      rw [landOne_new hd] at this
      exact congrArg (fun u => ({ s with th := u } : State)) this
  | true =>
    have hs := hi rfl
    have h0 : ∀ l : List Flying, l.all Flying.done = true → pending l = [] := by
      intro l hl
      unfold pending
      rw [List.filter_eq_nil_iff.2]
      · rfl
      · intro f hf
        have := List.all_eq_true.1 hl f hf
        rw [this]; simp
    have hall : (s.th.flying ++ (s.th.complete (newFlight s word sh e pops)).2).all Flying.done = true := by
      rw [List.all_append]
      exact Bool.and_eq_true _ _ ▸ ⟨hs, Thread.complete_done _ _⟩
    unfold fly
    rw [M.upd_apply]
    simp only [if_true]
    have hc := count_eq (s.updTh fun t => { (s.th.complete (newFlight s word sh e pops)).1 with
      flying := t.flying ++ (s.th.complete (newFlight s word sh e pops)).2 })
    refine ⟨_, rfl, ?_, ?_, .inr ⟨?_, ?_, h0 _ hs⟩, ?_⟩
    · rw [hc]; rfl
    · rw [hc]
      show (s.th.complete _).1.x.stair = _
      rw [Thread.complete_gprs]
      have := congrArg Stream.stair (Stream.setGprs_gpr s.th.x (newFlight s word sh e pops).eff.gw [])
      exact this
    · rw [hc]; exact h0 _ hall
    · rw [hc]
      exact Thread.complete_gprs _ _
    · rw [hc]
      have hl : Thread.landed { (s.th.complete (newFlight s word sh e pops)).1 with
          flying := s.th.flying ++ (s.th.complete (newFlight s word sh e pops)).2 } = _ := Thread.landed_idle hall
      have hl' := Thread.landed_idle hs
      unfold landed State.updTh
      dsimp only
      rw [hl, hl']
      congr 1
      exact (Thread.flown_strips s.th _ []).symm

/-- The frame of an instruction that has flown, from what landing shows of it. -/
theorem kept_of_landed {u t : State} {ds : List Nat} (hx : t.strm = .x) (hu : u.strm = .x)
    (hth : landed t = { u with th := (landed t).th, counters := (landed t).counters })
    (hk : { (landed t).th with vreg := u.th.vreg, fmask := u.th.fmask, flying := u.th.flying, vs := u.th.vs } = u.th)
    (hv : ∀ ph, ph ∉ ds → (landed t).th.vr ph = u.th.vr ph) :
    VectorKept ds u (landed (finish t)) ∧ (landed (finish t)).th.vreg = (landed t).th.vreg ∧
      (landed (finish t)).th.fmask = (landed t).th.fmask ∧ (landed (finish t)).th.vs = (landed t).th.vs ∧
      (landed (finish t)).th.flying = (landed t).th.flying := by
  have hf : landed (finish t) = { landed t with
      th := { (landed t).th with x := t.th.x.retired.setGprs (pending t.th.flying) }
      counters := (landed (finish t)).counters } := by
    rw [finish_eq hx]
    unfold landed State.updTh
    dsimp only
    rw [Thread.landed_x]
  have htx : (landed t).th.x = t.th.x.setGprs (pending t.th.flying) := Thread.landed_gprs t.th
  have hux : u.th.x = (landed t).th.x := by rw [← hk]
  obtain ⟨hm1, hm2⟩ := Stream.next_moved t.th.x
  have hstair : u.cur.steppedRegs = t.th.x.steppedRegs := by
    have h1 : u.cur = t.th.x.setGprs (pending t.th.flying) := by
      unfold State.cur; rw [hu]; exact hux.trans htx
    have h2 := congrArg Stream.stair (Stream.setGprs_gpr t.th.x (pending t.th.flying) [])
    unfold Stream.steppedRegs
    rw [h1]
    have h3 : (t.th.x.setGprs (pending t.th.flying)).stair = t.th.x.stair := h2
    rw [h3]
  refine ⟨⟨?_, ?_, ?_, fun n hn => ?_, fun ph hp => ?_, fun k => ?_⟩, ?_, ?_, ?_, ?_⟩
  · rw [hf, hth]
  · rw [hf]
    refine Eq.trans ?_ hk
    dsimp only
    rw [hux]
  · rw [hf, hux, htx]
    dsimp only
    have e1 := Stream.setGprs_gpr t.th.x.retired (pending t.th.flying) (t.th.x.setGprs (pending t.th.flying)).gpr
    have e2 := Stream.setGprs_gpr t.th.x (pending t.th.flying) (t.th.x.setGprs (pending t.th.flying)).gpr
    generalize t.th.x.setGprs (pending t.th.flying) = y at e1 e2 ⊢
    generalize t.th.x.retired.setGprs (pending t.th.flying) = z at e1 ⊢
    have e3 : y = { t.th.x with gpr := y.gpr } := e2
    have e4 : { z with gpr := y.gpr } = { t.th.x.retired with gpr := y.gpr } := e1
    have e5 := congrArg (fun c : Stream => { c with
      pc := y.pc, stair := y.stair, gpr := y.gpr, park := y.park, deadline := y.deadline, object := y.object
      freed := y.freed, ibuf := y.ibuf, popped := y.popped }) e4
    refine Eq.trans e5 ?_
    have e6 := congrArg (fun c : Stream => { c with
      pc := y.pc, stair := y.stair, gpr := y.gpr, park := y.park, deadline := y.deadline, object := y.object
      freed := y.freed, ibuf := y.ibuf, popped := y.popped }) hm1
    refine Eq.trans e6 ?_
    conv => rhs; rw [e3]
    have e7 := fun (α : Type) (g : Stream → α) => congrArg g e3
    rw [e7 _ Stream.pc, e7 _ Stream.stair, e7 _ Stream.park, e7 _ Stream.deadline, e7 _ Stream.object, e7 _ Stream.freed,
      e7 _ Stream.ibuf, e7 _ Stream.popped]
  · rw [hf, hux, htx]
    refine Stream.setGprs_congr n _ ?_
    exact hm2 n (hstair ▸ hn)
  · rw [hf]; exact hv ph hp
  · have : (landed (finish t)).mem = u.mem := by rw [hf, hth]
    unfold readByte; rw [this]
  all_goals rw [hf]

/-! ## Its registers, its fault bits and its chunk -/

theorem Thread.vr_setVr (t : Thread) (ph : Nat) (v : VReg) : (t.setVr ph v).vr ph = v := Store.get_put_self _ _ _

theorem Thread.vr_setVr_ne (t : Thread) {ph q : Nat} (v : VReg) (h : q ≠ ph) : (t.setVr ph v).vr q = t.vr q :=
  Store.get_put_ne _ _ h

theorem Thread.vstream_setVstream (t : Thread) (j : Nat) (v : VStream) : (t.setVstream j v).vstream j = v :=
  Store.get_put_self _ _ _

theorem Thread.vstream_setVstream_ne (t : Thread) {j k : Nat} (v : VStream) (h : k ≠ j) :
    (t.setVstream j v).vstream k = t.vstream k := Store.get_put_ne _ _ h

/-- An effect on one vector register and the fault mask alone. -/
def Effect.vector (e : Effect) (w : VWrite) : Prop :=
  e.vw = [w] ∧ e.pw = [] ∧ e.gw = [] ∧ e.push = Option.none ∧ e.tree = Option.none ∧ e.unit = Option.none ∧
    e.row = Option.none ∧ e.clear = false

/-- What such an effect makes of a thread. -/
theorem Effect.vector.apply {e : Effect} {w : VWrite} (h : e.vector w) (t : Thread) :
    t.apply e = { t.putV w with fmask := t.fmask ||| e.faults } := by
  obtain ⟨h1, h2, h3, h4, h5, h6, h7, h8⟩ := h
  unfold Thread.apply Thread.putLast
  rw [h1, h2, h3, h4, h5, h6, h7, h8]
  rfl

/-- An instruction that writes one register and sends its chunk, flown. -/
theorem Thread.flown_vector {f : Flying} {w : VWrite} (t : Thread)
    (hr : f.rest.vector w) :
    { t.flown f with vreg := t.vreg, fmask := t.fmask, flying := t.flying, vs := t.vs } = t ∧
      (t.flown f).vreg = (t.putV w).vreg ∧ (t.flown f).fmask = t.fmask ||| f.rest.faults := by
  have h1 := sendChunks_th f.shape.outs (t.apply f.rest)
  have h2 := hr.apply t
  unfold Thread.flown Thread.complete
  dsimp only
  rw [h1, h2]
  exact ⟨rfl, rfl, rfl⟩

/-- What sending its chunk does (R178). -/
theorem flown_sent {s t : State} {f : Flying} {w : VWrite} {ph n : Nat} (ho : f.shape.outs = [(ph, n)])
    (hr : f.rest.vector w) (hv : t.th.vreg = (s.th.flown f).vreg) (hs : t.th.vs = (s.th.flown f).vs)
    (hl : t.th.flying = (s.th.flown f).flying) : Sent ph n s t := by
  have hvr : t.th.vr ph = (s.th.putV w).vr ph := by
    unfold Thread.vr; rw [hv, (Thread.flown_vector s.th hr).2.1]
  have hvs : ∀ j, t.th.vstream j = ((sendChunks { s.th.putV w with fmask := s.th.fmask ||| f.rest.faults } [(ph, n)]).1).vstream j := by
    intro j
    unfold Thread.vstream
    rw [hs]
    unfold Thread.flown Thread.complete
    dsimp only
    rw [hr.apply, ho]
  have hfl : t.th.flying = s.th.flying ++
      (if (sendChunks { s.th.putV w with fmask := s.th.fmask ||| f.rest.faults } [(ph, n)]).2.isEmpty then []
        else [{ f with
          eff := Effect.none, written := f.limit
          out := (sendChunks { s.th.putV w with fmask := s.th.fmask ||| f.rest.faults } [(ph, n)]).2 }]) := by
    rw [hl]
    unfold Thread.flown Thread.complete
    dsimp only
    rw [hr.apply, ho]
  have hb : boundTo { s.th.putV w with fmask := s.th.fmask ||| f.rest.faults } ph = boundTo s.th ph := rfl
  cases hbs : boundTo s.th ph with
  | none =>
    have he : sendChunks { s.th.putV w with fmask := s.th.fmask ||| f.rest.faults } [(ph, n)] =
        ({ s.th.putV w with fmask := s.th.fmask ||| f.rest.faults }, []) := by
      unfold sendChunks; rw [hb, hbs]; rfl
    rw [he] at hvs
    refine fun j => ⟨fun h => ?_, fun h => ?_, fun _ => hvs j⟩
    · rw [hbs] at h; cases h
    · rw [hbs] at h; cases h
  | some k =>
    by_cases hk : k < 8
    · have he : sendChunks { s.th.putV w with fmask := s.th.fmask ||| f.rest.faults } [(ph, n)] =
          ({ s.th.putV w with fmask := s.th.fmask ||| f.rest.faults }, []) := by
        unfold sendChunks; rw [hb, hbs]
        exact if_pos hk
      rw [he] at hvs
      refine fun j => ⟨fun h h8 => ?_, fun h h8 => ?_, fun _ => hvs j⟩
      · rw [hbs] at h; injection h; omega
      · rw [hbs] at h; injection h; omega
    · have hro : roomOut s.th k = (decide (((({ s.th.putV w with fmask := s.th.fmask ||| f.rest.faults } : Thread).vstream k).chunks.length) < 4) &&
          !waitsForRoom { s.th.putV w with fmask := s.th.fmask ||| f.rest.faults } k) := rfl
      cases hroom : roomOut s.th k with
      | true =>
        have he : sendChunks { s.th.putV w with fmask := s.th.fmask ||| f.rest.faults } [(ph, n)] =
            (Thread.setVstream { s.th.putV w with fmask := s.th.fmask ||| f.rest.faults } k
              { s.th.vstream k with chunks := (s.th.vstream k).chunks ++ [outChunk ((s.th.putV w).vr ph) n] }, []) := by
          unfold sendChunks; rw [hb, hbs]
          refine (if_neg hk).trans ((if_pos ?_).trans rfl)
          rw [← hro]; exact hroom
        rw [he] at hvs
        refine fun j => ⟨fun h _ _ => ?_, fun h _ hf => ?_, fun h => ?_⟩
        · rw [hbs] at h; injection h with h; subst h
          rw [hvs, Thread.vstream_setVstream, hvr]
        · rw [hbs] at h; injection h with h; subst h
          rw [hroom] at hf; cases hf
        · refine (hvs j).trans (Thread.vstream_setVstream_ne _ _ fun e => ?_)
          subst e
          exact h.elim (fun h => h hbs) (fun h => absurd h (by omega))
      | false =>
        have he : sendChunks { s.th.putV w with fmask := s.th.fmask ||| f.rest.faults } [(ph, n)] =
            ({ s.th.putV w with fmask := s.th.fmask ||| f.rest.faults }, [(k, outChunk ((s.th.putV w).vr ph) n)]) := by
          unfold sendChunks; rw [hb, hbs]
          refine (if_neg hk).trans ((if_neg ?_).trans rfl)
          rw [← hro, hroom]; decide
        rw [he] at hvs hfl
        refine fun j => ⟨fun h _ hf => ?_, fun h _ _ => ⟨congrArg VStream.chunks (hvs j), ?_⟩, fun _ => hvs j⟩
        · rw [hbs] at h; injection h with h; subst h
          rw [hroom] at hf; cases hf
        · rw [hbs] at h; injection h with h; subst h
          rw [hfl, hvr]
          exact ⟨_, List.mem_append.2 (.inr (List.mem_singleton.2 rfl)), List.mem_singleton.2 rfl⟩

/-- WHAT AN INSTRUCTION THAT WRITES ONE REGISTER COMES TO, once all in flight has landed. -/
theorem flown_wrote {s t : State} {now : Bool} {word : Word} {sh : Shape} {e : Effect} {pops : List Pop} {w : VWrite}
    {ph n : Nat} (hx : s.strm = .x) (hf : fly now word sh e pops s = .ok ((), t)) (hi : now = true → s.th.idle = true)
    (hw : 0 < sh.wide) (ho : sh.outs = [(ph, n)]) (hp : w.ph = ph) (hr : (newFlight s word sh e pops).rest.vector w) :
    (landed (finish t)).th.vr ph = ((landed s).th.vr ph &&& ~~~w.sel) ||| (w.res &&& w.sel) ∧
      (landed (finish t)).th.fmask = (landed s).th.fmask ||| (newFlight s word sh e pops).rest.faults ∧
      Sent ph n (landed s) (landed (finish t)) ∧ VectorKept [ph] (landed s) (landed (finish t)) := by
  obtain ⟨t', ht', hxt, _, _, hl⟩ := fly_spec hi word sh e pops hw
  have : t' = t := by
    rw [hf] at ht'; injection ht' with h; injection h with _ h; exact h.symm
  subst this
  have hlt : (landed t').th = (landed s).th.flown (newFlight s word sh e pops) := by
    conv => lhs; rw [hl]
  have ho' : (newFlight s word sh e pops).shape.outs = [(ph, n)] := ho
  obtain ⟨k1, k2, k3⟩ := Thread.flown_vector (landed s).th hr
  have hv : ∀ q, (landed t').th.vr q = ((landed s).th.putV w).vr q := fun q => by
    unfold Thread.vr; rw [hlt, k2]
  obtain ⟨g1, g2, g3, g4, g5⟩ := kept_of_landed (u := landed s) (t := t') (ds := [ph]) (hxt.trans hx) hx
    (by conv => lhs; rw [hl]
        rw [hlt])
    (by rw [hlt]; exact k1)
    (fun q hq => (hv q).trans (Thread.vr_setVr_ne _ _ (by rw [hp]; simpa using hq)))
  refine ⟨?_, ?_, ?_, g1⟩
  · have h1 : (landed (finish t')).th.vr ph = (landed t').th.vr ph := by unfold Thread.vr; rw [g2]
    rw [h1, hv]
    unfold Thread.putV
    rw [hp, Thread.vr_setVr]
  · rw [g3, hlt, k3]
  · exact flown_sent ho' hr (by rw [g2, hlt]) (by rw [g4, hlt]) (by rw [g5, hlt])

/-! ## An elementwise result (R149 to R151) -/

theorem bitsBetween_getLsbD (n lo hi i : Nat) :
    (bitsBetween n lo hi).getLsbD i = (decide (i < n) && (decide (lo ≤ i) && decide (i < hi))) := by
  unfold bitsBetween
  rw [BitVec.getLsbD_ofNat]
  congr 1
  by_cases h : lo ≤ hi
  · have : 2 ^ hi - 2 ^ lo = 2 ^ lo * (2 ^ (hi - lo) - 1) := by
      rw [Nat.mul_sub, Nat.mul_one, ← Nat.pow_add, Nat.add_sub_cancel' h]
    rw [this, Nat.testBit_two_pow_mul, Nat.testBit_two_pow_sub_one]
    by_cases h1 : lo ≤ i
    · simp only [ge_iff_le, h1, decide_true, Bool.true_and, decide_eq_decide]
      omega
    · simp [h1]
  · have h0 : 2 ^ hi - 2 ^ lo = 0 := Nat.sub_eq_zero_of_le (Nat.pow_le_pow_right (by omega) (by omega))
    rw [h0, Nat.zero_testBit]
    by_cases h1 : lo ≤ i
    · have h2 : ¬ i < hi := by omega
      simp [h2]
    · simp [h1]

/-- The element of a merged register, where the selection takes all or none of its bits. -/
theorem elem_merge (v sel res : VReg) (w k : Nat) (p : Bool)
    (h : ∀ j, j < w → sel.getLsbD (k * w + j) = p) (hk : k < 16384 / w) :
    elem ((v &&& ~~~sel) ||| (res &&& sel)) w k = if p then elem res w k else elem v w k := by
  apply Nat.eq_of_testBit_eq
  intro j
  rw [elem_testBit]
  by_cases hj : j < w
  · have hlt : k * w + j < 16384 := by have := elem_fits hk; omega
    rw [BitVec.getLsbD_or, BitVec.getLsbD_and, BitVec.getLsbD_and, BitVec.getLsbD_not, h j hj]
    cases p
    · simp [hlt, hj, elem_testBit]
    · simp [hlt, hj, elem_testBit]
  · cases p <;> simp [hj, elem_testBit]

theorem elem_zero (w k : Nat) : elem 0 w k = 0 := by
  apply Nat.eq_of_testBit_eq
  intro j
  rw [elem_testBit, Nat.zero_testBit]
  simp

/-- The elements that an elementwise write gives a register, seen through a mask that keeps the selected ones. -/
theorem elemWrite_spec (v b : VReg) (ph w start n : Nat) (sel : Nat → Bool) (val : Nat → FRes) (k : Nat)
    (hk : k < 16384 / w) (hb : ∀ j, j < w → k < n → start ≤ k → b.getLsbD (k * w + j) = true) :
    elem ((v &&& ~~~((elemWrite ph w start n sel val).sel &&& b)) |||
        ((elemWrite ph w start n sel val).res &&& ((elemWrite ph w start n sel val).sel &&& b))) w k =
      match (if decide (k < n) && (decide (start ≤ k) && sel k) then some (val k).1 else none) with
      | some x => x % 2 ^ w
      | none => elem v w k := by
  have hf : ∀ x : Nat → Nat, elem (((List.range n).filter fun i => decide (start ≤ i) && sel i).foldl
      (fun acc i => setElem acc w i (x i)) (0 : VReg)) w k =
        if k < n ∧ (decide (start ≤ k) && sel k) = true then x k % 2 ^ w else 0 := by
    intro x
    rw [List.foldl_filter]
    have := elem_foldl_setElem w n (fun i => decide (start ≤ i) && sel i) x 0 k hk
    rw [elem_zero] at this
    exact this
  have hs := hf fun _ => 2 ^ w - 1
  have hr := hf fun i => (val i).1
  have hsel : ∀ j, j < w → ((elemWrite ph w start n sel val).sel &&& b).getLsbD (k * w + j) =
      (decide (k < n) && (decide (start ≤ k) && sel k)) := by
    intro j hj
    have h1 := elem_testBit (elemWrite ph w start n sel val).sel w k j
    rw [BitVec.getLsbD_and]
    have h2 : (elem (elemWrite ph w start n sel val).sel w k).testBit j = (decide (k < n) && (decide (start ≤ k) && sel k)) := by
      refine (congrArg (fun m => Nat.testBit m j) hs).trans ?_
      by_cases hc : k < n ∧ (decide (start ≤ k) && sel k) = true
      · rw [if_pos hc, hc.2, Nat.mod_eq_of_lt (by have := Nat.two_pow_pos w; omega), Nat.testBit_two_pow_sub_one]
        simp [hj, hc.1]
      · rw [if_neg hc, Nat.zero_testBit]
        symm
        rw [Bool.and_eq_false_iff]
        by_cases h0 : k < n
        · exact .inr (Bool.eq_false_iff.2 fun h => hc ⟨h0, h⟩)
        · exact .inl (decide_eq_false h0)
    rw [h2] at h1
    rw [show (elemWrite ph w start n sel val).sel.getLsbD (k * w + j) = (decide (k < n) && (decide (start ≤ k) && sel k)) by
      rw [h1]; simp [hj]]
    by_cases h0 : k < n
    · by_cases h3 : start ≤ k
      · rw [hb j hj h0 h3, Bool.and_true]
      · simp [h3]
    · simp [h0]
  rw [elem_merge v _ _ w k _ hsel hk]
  cases hp : (decide (k < n) && (decide (start ≤ k) && sel k))
  · rfl
  · simp only [if_true]
    refine hr.trans (if_pos ?_)
    rw [Bool.and_eq_true] at hp
    exact ⟨of_decide_eq_true hp.1, hp.2⟩

/-- WHAT AN ELEMENTWISE EFFECT COMES TO. -/
theorem fly_elem {s t : State} {now : Bool} {word : Word} {sh : Shape} {pops : List Pop} {ph n : Nat}
    {sel : Nat → Bool} {val : Nat → FRes} (hx : s.strm = .x)
    (hf : fly now word sh (elemEffect s ph sh.width n sel val) pops s = .ok ((), t)) (hi : now = true → s.th.idle = true)
    (hw : 1024 / sh.wide * sh.wide = 1024) (hn : sh.n = n) (ho : sh.outs = [(ph, n)]) :
    Wrote ph sh.width n
      (fun k => if decide (k < n) && (decide (s.th.startIdx.getD 0 ≤ k) && sel k) then some (val k).1 else none)
      (fun k => decide (k < n) && (decide (s.th.startIdx.getD 0 ≤ k) && sel k) && faulty s (val k))
      (landed s) (landed (finish t)) := by
  have hpos : 0 < sh.wide := by
    rcases Nat.eq_zero_or_pos sh.wide with h | h
    · rw [h] at hw; simp at hw
    · exact h
  obtain ⟨b, m, hrv, hb, hm⟩ : ∃ (b : VReg) (m : Mask),
      (newFlight s word sh (elemEffect s ph sh.width n sel val) pops).rest =
        { elemEffect s ph sh.width n sel val with
          vw := [{ elemWrite ph sh.width (s.th.startIdx.getD 0) n sel val with
            sel := (elemWrite ph sh.width (s.th.startIdx.getD 0) n sel val).sel &&& b }]
          faults := (elemEffect s ph sh.width n sel val).faults &&& m } ∧
      (∀ k j, k < 16384 / sh.width → j < sh.width → k < n → s.th.startIdx.getD 0 ≤ k → b.getLsbD (k * sh.width + j) = true) ∧
      ∀ k, k < 2048 → k < n → s.th.startIdx.getD 0 ≤ k → m.getLsbD k = true := by
    cases hwh : (sh.whole || sh.n == 0)
    · have hr : (newFlight s word sh (elemEffect s ph sh.width n sel val) pops).rest =
          (elemEffect s ph sh.width n sel val).part sh.width (min (s.th.startIdx.getD 0 / sh.per) (sh.groups - 1) * sh.per)
            (sh.groups * sh.per) true := by
        unfold Flying.rest newFlight
        dsimp only
        rw [hwh]
        rfl
      have hlo : min (s.th.startIdx.getD 0 / sh.per) (sh.groups - 1) * sh.per ≤ s.th.startIdx.getD 0 :=
        Nat.le_trans (Nat.mul_le_mul_right _ (Nat.min_le_left _ _)) (Nat.div_mul_le_self _ _)
      have hhi : n ≤ sh.groups * sh.per := by
        unfold Shape.groups Shape.per
        rw [hn]
        refine Nat.le_of_mul_le_mul_right ?_ hpos
        rw [Nat.mul_assoc, hw]
        omega
      refine ⟨bitsBetween 16384 (min (s.th.startIdx.getD 0 / sh.per) (sh.groups - 1) * sh.per * sh.width) (sh.groups * sh.per * sh.width),
        bitsBetween 2048 (min (s.th.startIdx.getD 0 / sh.per) (sh.groups - 1) * sh.per) (sh.groups * sh.per), hr, ?_, ?_⟩
      · intro k j hk hj h1 h2
        have h3 := elem_fits hk
        have h4 : min (s.th.startIdx.getD 0 / sh.per) (sh.groups - 1) * sh.per * sh.width ≤ k * sh.width :=
          Nat.mul_le_mul_right _ (Nat.le_trans hlo h2)
        have h5 : (k + 1) * sh.width ≤ sh.groups * sh.per * sh.width := Nat.mul_le_mul_right _ (by omega)
        rw [Nat.succ_mul] at h5
        rw [bitsBetween_getLsbD]
        simp only [Bool.and_eq_true, decide_eq_true_eq]
        omega
      · intro k hk h1 h2
        rw [bitsBetween_getLsbD]
        simp only [Bool.and_eq_true, decide_eq_true_eq]
        omega
    · refine ⟨BitVec.allOnes 16384, BitVec.allOnes 2048, ?_, ?_, ?_⟩
      · have hr : (newFlight s word sh (elemEffect s ph sh.width n sel val) pops).rest = elemEffect s ph sh.width n sel val := by
          unfold Flying.rest newFlight
          dsimp only
          rw [hwh]
          rfl
        rw [hr, BitVec.and_allOnes, BitVec.and_allOnes]
        rfl
      · intro k j hk hj _ _
        have := elem_fits hk
        rw [BitVec.getLsbD_allOnes]; simp only [decide_eq_true_eq]; omega
      · intro k hk _ _
        rw [BitVec.getLsbD_allOnes]; simpa using hk
  obtain ⟨g1, g2, g3, g4⟩ := flown_wrote hx hf hi hpos ho
    (w := { elemWrite ph sh.width (s.th.startIdx.getD 0) n sel val with
      sel := (elemWrite ph sh.width (s.th.startIdx.getD 0) n sel val).sel &&& b }) rfl
    (by rw [hrv]; exact ⟨rfl, rfl, rfl, rfl, rfl, rfl, rfl, rfl⟩)
  refine ⟨fun k hk => ?_, fun k hk => ?_, g3, g4⟩
  · rw [g1]
    exact elemWrite_spec _ b ph sh.width _ n sel val k hk fun j hj h1 h2 => hb k j hk hj h1 h2
  · rw [g2, hrv, BitVec.getLsbD_or]
    congr 1
    show (maskOf n _ &&& m).getLsbD k = _
    rw [BitVec.getLsbD_and, maskOf_getLsbD _ _ _ hk]
    by_cases h1 : k < n
    · by_cases h2 : s.th.startIdx.getD 0 ≤ k
      · rw [hm k hk h1 h2, Bool.and_true]
        simp only [Bool.and_assoc]
      · simp [h2]
    · simp [h1]

/-! ## Sources (R177) -/

/-- A state that differs from another as making sources ready may: registers, vector streams, ftrim and the arm limit. -/
def Popped (s t : State) : Prop :=
  t = { s with th := { s.th with
    vreg := t.th.vreg, vs := t.th.vs, x := { s.th.x with ftrim := t.th.x.ftrim, arm := t.th.x.arm } } }

theorem Popped.refl (s : State) : Popped s s := rfl

theorem Popped.trans {s t u : State} (h : Popped s t) (k : Popped t u) : Popped s u := by
  unfold Popped at *
  rw [k, h]

theorem source_popped {ph : Nat} {s t : State} (h : source ph s = .ok ((), t)) : Popped s t := by
  unfold source at h
  split at h
  · split at h
    · split at h
      · cases h
      · split at h
        · cases h
        · injection h with h; injection h with _ h; subst h; rfl
    · injection h with h; injection h with _ h; subst h; rfl
  · injection h with h; injection h with _ h; subst h; rfl

theorem sourceEach_popped : ∀ {l : List Nat} {s t : State}, sourceEach l s = .ok ((), t) → Popped s t
  | [], s, t, h => by injection h with h; injection h with _ h; subst h; rfl
  | ph :: r, s, t, h => by
    obtain ⟨_, u, h1, h2⟩ := M.bind_eq_ok h
    exact (source_popped h1).trans (sourceEach_popped h2)

theorem sources_popped {l : List Nat} {s t : State} (h : sources l s = .ok ((), t)) : Popped s t := sourceEach_popped h

/-- What making sources ready leaves of an X instruction's surroundings. -/
theorem Popped.facts {s t : State} (hx : s.strm = .x) (h : Popped s t) :
    t.strm = .x ∧ t.th.wbase = s.th.wbase ∧ t.th.startIdx = s.th.startIdx ∧ t.cur.vl = s.cur.vl ∧
      t.cur.vtype = s.cur.vtype ∧ t.cur.fmode = s.cur.fmode ∧ t.cur.seed = s.cur.seed ∧ t.cur.sbase = s.cur.sbase ∧
      govern t = govern s ∧ t.th.fmask = s.th.fmask ∧ t.th.flying = s.th.flying ∧ t.th.bind = s.th.bind ∧
      t.parts = s.parts := by
  have hc : t.cur = { s.cur with ftrim := t.th.x.ftrim, arm := t.th.x.arm } := by
    unfold State.cur; rw [h]; dsimp only; rw [hx]; rfl
  have hg : govern t = govern s := by rw [h]; rfl
  refine ⟨?_, ?_, ?_, ?_, ?_, ?_, ?_, ?_, hg, ?_, ?_, ?_, ?_⟩
  all_goals first | (rw [hc]) | (rw [h]; try exact hx)

/-! ## The frames of the X stream's instructions -/

/-- The opening of a frame: a place in flight, and with `now` every earlier instruction done. -/
theorem placed_ok {β : Type} {s : State} {now : Bool} (f : PUnit → M β) (h : placed s now = true) :
    (if now = true then drain >>= f else roomInFlight >>= f) s = f () s ∧ (now = true → s.th.idle = true) := by
  unfold placed at h
  rw [Bool.and_eq_true] at h
  have hr : roomInFlight s = .ok ((), s) := by
    unfold roomInFlight; exact if_pos (of_decide_eq_true h.1)
  cases now with
  | false => exact ⟨M.bind_ok hr, fun h => by cases h⟩
  | true =>
    have hi : s.th.idle = true := by simpa using h.2
    refine ⟨?_, fun _ => hi⟩
    simp only [if_true]
    have hd : drain s = .ok ((), s) := by
      unfold drain
      rw [M.bind_ok hr, M.bind_ok (M.get_apply s), if_pos hi]; rfl
    exact M.bind_ok hd

theorem destOk_ok {s : State} (w : Word) {d : Reg} {k : Nat} (h : destFree s d k = true) :
    destOk w (phys s.th d k) s = .ok ((), s) := by
  unfold destOk
  rw [M.bind_ok (M.see_apply _ s)]
  apply M.need_ok
  unfold destFree at h
  cases hb : boundTo s.th (phys s.th d k) with
  | none => rfl
  | some j => rw [hb] at h; exact h

/-- A place in flight is free. -/
theorem room_ok {s : State} (h : placed s false = true) : roomInFlight s = .ok ((), s) := by
  unfold placed at h
  rw [Bool.and_eq_true] at h
  unfold roomInFlight; exact if_pos (of_decide_eq_true h.1)

/-- WHAT AN ELEMENTWISE INSTRUCTION COMES TO, seen through what every instruction in flight leaves. -/
theorem elementwiseAt_spec {s s1 : State} (hx : s.strm = .x) (word : Word) (d : Reg) (srcs : List Reg) (w sw : Nat)
    (m : BitVec 1) (all : Bool) (val : State → Nat → FRes) (hp : placed s false = true) (hd : destFree s d 0 = true)
    (hw : 1024 / max w sw * max w sw = 1024) (hr : ready s srcs = .ok ((), s1)) :
    ∃ t, elementwiseAt word d srcs w sw m all val s = .ok ((), t) ∧
      Wrote (phys s.th d 0) w (vcount s (max w sw))
        (fun k => if decide (k < vcount s (max w sw)) && (decide (s.th.startIdx.getD 0 ≤ k) && present (landed s1) m k)
          then some (val (landed s1) k).1 else none)
        (fun k => decide (k < vcount s (max w sw)) && (decide (s.th.startIdx.getD 0 ≤ k) && present (landed s1) m k) &&
          faulty s1 (val (landed s1) k)) (landed s1) (landed (finish t)) := by
  obtain ⟨f1, f2, f3, f4, f5, f6, f7, f8, f9, f10, f11, f12, f13⟩ := (sources_popped hr).facts hx
  unfold elementwiseAt
  rw [M.bind_ok (room_ok hp)]
  dsimp only
  rw [M.bind_ok (M.get_apply s)]
  rw [M.bind_ok (destOk_ok word hd), M.bind_ok hr, M.bind_ok (M.get_apply s1)]
  have hi1 : false = true → s1.th.idle = true := fun h => by cases h
  have hv1 : vcount s1 (max w sw) = vcount s (max w sw) := by unfold vcount; rw [f4]
  obtain ⟨t, ht, _⟩ := fly_spec hi1 word
    { whole := w != sw && (srcs.map fun r => phys s.th r 0).contains (phys s.th d 0), n := vcount s1 (max w sw)
      wide := max w sw, width := w
      srcs := (srcs.map fun r => phys s.th r 0).map fun p => (p, if all = true then 0 else sw), preds := governs s1.th m
      mask := false, tree := false, fence := false, outs := [(phys s.th d 0, vcount s1 (max w sw))] }
    (elemEffect s1 (phys s.th d 0) w (vcount s1 (max w sw)) (present (landed s1) m) (val (landed s1)))
    (popsOf s (srcs.map fun r => phys s.th r 0)) (by
      show 0 < max w sw
      rcases Nat.eq_zero_or_pos (max w sw) with h | h
      · rw [h] at hw; simp at hw
      · exact h)
  refine ⟨t, ht, ?_⟩
  have := fly_elem f1 ht hi1 hw rfl rfl
  rw [← hv1, ← f3]
  exact this

/-- WHAT A WHOLE-REGISTER INSTRUCTION COMES TO: its destination and its fault bits are what its function gives of what
every earlier instruction leaves. -/
theorem wholeReg_spec {s s1 : State} (hx : s.strm = .x) (word : Word) (d : Reg) (srcs : List Reg)
    (preds : List Nat) (f : State → VReg × Mask) (hp : placed s false = true) (hd : destFree s d 0 = true)
    (hr : ready s srcs = .ok ((), s1)) :
    ∃ t, wholeReg word d srcs preds f s = .ok ((), t) ∧
      (landed (finish t)).th.vr (phys s.th d 0) = (f (landed s1)).1 ∧
      (landed (finish t)).th.fmask = (landed s1).th.fmask ||| (f (landed s1)).2 ∧
      Sent (phys s.th d 0) (vcount s (vwidth s.cur.vtype.toNat)) (landed s1) (landed (finish t)) ∧
      VectorKept [phys s.th d 0] (landed s1) (landed (finish t)) := by
  obtain ⟨f1, f2, f3, f4, f5, f6, f7, f8, f9, f10, f11, f12, f13⟩ := (sources_popped hr).facts hx
  unfold wholeReg
  rw [M.bind_ok (room_ok hp)]
  dsimp only
  rw [M.bind_ok (M.get_apply s)]
  rw [M.bind_ok (destOk_ok word hd), M.bind_ok hr, M.bind_ok (M.get_apply s1)]
  have hi1 : false = true → s1.th.idle = true := fun h => by cases h
  have hn : vcount s1 (vwidth s1.cur.vtype.toNat) = vcount s (vwidth s.cur.vtype.toNat) := by
    unfold vcount; rw [f4, f5]
  have hw : 0 < (wholeShape s1 (srcs.map fun r => phys s.th r 0) preds [phys s.th d 0]).wide := by
    show 0 < vwidth _
    unfold vwidth; split <;> decide
  obtain ⟨t, ht, _⟩ := fly_spec hi1 word (wholeShape s1 (srcs.map fun r => phys s.th r 0) preds [phys s.th d 0])
    { Effect.none with
      vw := [regWrite (phys s.th d 0) ((landed s1).th.vr (phys s.th d 0)) (f (landed s1)).1], faults := (f (landed s1)).2 }
    (popsOf s (srcs.map fun r => phys s.th r 0)) hw
  refine ⟨t, ht, ?_⟩
  obtain ⟨g1, g2, g3, g4⟩ := flown_wrote (ph := phys s.th d 0) (n := vcount s1 (vwidth s1.cur.vtype.toNat)) f1 ht hi1 hw rfl
    (w := regWrite (phys s.th d 0) ((landed s1).th.vr (phys s.th d 0)) (f (landed s1)).1) rfl ⟨rfl, rfl, rfl, rfl, rfl, rfl, rfl, rfl⟩
  rw [hn] at g3
  refine ⟨?_, g2, g3, g4⟩
  rw [g1]
  unfold regWrite
  dsimp only
  ext i hi
  simp only [BitVec.getElem_or, BitVec.getElem_and, BitVec.getElem_not, BitVec.getElem_xor]
  cases ((landed s1).th.vr (phys s.th d 0))[i] <;> cases ((f (landed s1)).1)[i] <;> rfl

/-! ## Race, function and accumulator-read instructions -/

/-- A computation made on the landed thread leaves the state as it is. -/
theorem onLanded_ok {α : Type} {m : M α} {s v : State} {a : α} (h : m (landed s) = .ok (a, v)) :
    onLanded m s = .ok (a, s) := by
  unfold onLanded; rw [h]

/-- One that traps does so in the state as it is. -/
theorem onLanded_trap {α : Type} {m : M α} {s : State} {c : BitVec 8} {i : Dword}
    (h : m (landed s) = .error (.trap c i)) : onLanded m s = .error (.trap c i) := by
  unfold onLanded; rw [h]

theorem destsOk_ok (w : Word) {s : State} : ∀ {l : List Nat},
    (∀ ph ∈ l, ∀ j, boundTo s.th ph = some j → 8 ≤ j) → destsOk w l s = .ok ((), s)
  | [], _ => rfl
  | ph :: r, h => by
    have h1 : destOk w ph s = .ok ((), s) := by
      unfold destOk
      rw [M.bind_ok (M.see_apply _ s)]
      apply M.need_ok
      cases hb : boundTo s.th ph with
      | none => rfl
      | some j => exact decide_eq_true (h ph (List.mem_cons_self ..) j hb)
    unfold destsOk
    rw [M.bind_ok h1]
    exact destsOk_ok w fun q hq => h q (List.mem_cons_of_mem _ hq)

/-- What the effect of one that writes no vector register and no predicate makes of the thread it was computed on. -/
theorem unitEffect_apply (t v : Thread) : t.apply (unitEffect t v [] none none) =
    { t with
      race := v.race, bound := v.bound, freg := v.freg, kind := v.kind, dom := v.dom, multi := v.multi
      fmask := t.fmask ||| (v.fmask &&& ~~~t.fmask) } := by
  unfold Thread.apply Thread.putLast unitEffect Effect.none
  simp only [Option.isSome_none, Bool.false_eq_true, if_false, List.map_nil, List.foldl_nil, Option.getD_none,
    Thread.putUnit, zeroed, Thread.addFpx]

/-- The same once it has flown. -/
theorem flown_unit (u : State) (t v : Thread) (word : Word) (s1 : State) (srcs : List Nat) (pops : List Pop) :
    t.flown (newFlight u word (wholeShape s1 srcs [] []) (unitEffect t v [] none none) pops) =
      { t with
        race := v.race, bound := v.bound, freg := v.freg, kind := v.kind, dom := v.dom, multi := v.multi
        fmask := t.fmask ||| (v.fmask &&& ~~~t.fmask) } := by
  have h : (newFlight u word (wholeShape s1 srcs [] []) (unitEffect t v [] none none) pops).rest = unitEffect t v [] none none :=
    rfl
  unfold Thread.flown Thread.complete
  rw [h, unitEffect_apply]
  have ho : (newFlight u word (wholeShape s1 srcs [] []) (unitEffect t v [] none none) pops).shape.outs = [] := rfl
  rw [ho]
  simp only [sendChunks, List.isEmpty_nil, if_true, List.append_nil]

/-- WHAT A RACE, FUNCTION OR ACCUMULATOR-READ INSTRUCTION WITHOUT A SCALAR RESULT COMES TO: once all in flight has landed,
the effect that its computation made on the thread as every earlier instruction leaves it. -/
theorem unitOp_spec {s s1 v : State} {word : Word} {srcs outs : List Nat} {p : Option Reg} {row : Option (Nat × Bool)}
    {body : M (List Dword)} {ws : List Dword} (hp : placed s false = true)
    (hd : ∀ ph ∈ outs, ∀ j, boundTo s.th ph = some j → 8 ≤ j) (hr : sources srcs s = .ok ((), s1))
    (hb : body (landed s1) = .ok (ws, v)) :
    ∃ u t, unitOp word srcs outs p [] row body s = .ok ((), t) ∧ u = { s1 with counters := u.counters } ∧
      landed t = { landed u with
        th := (landed u).th.flown (newFlight u word (wholeShape s1 srcs [] outs)
          (unitEffect (landed s1).th v.th outs p row) (popsOf s srcs)), counters := (landed t).counters } := by
  have hl : onLanded (do
      let ws ← body
      let v ← get
      pure (([] : List Reg).zip ws, v)) s1 = .ok (([], v), s1) := by
    refine onLanded_ok (v := v) ?_
    rw [M.bind_ok hb, M.bind_ok (M.get_apply v)]; rfl
  have hc : ∃ u, countsOf v s1 = .ok ((), u) ∧ u = { s1 with counters := u.counters } := by
    refine ⟨if s1.th.startIdx.isSome then s1 else { s1 with counters := v.counters }, rfl, ?_⟩
    split <;> rfl
  obtain ⟨u, hu, hs⟩ := hc
  have hw : 0 < (wholeShape s1 srcs [] outs).wide := by
    show 0 < vwidth _
    unfold vwidth; split <;> decide
  obtain ⟨t, ht, _, _, _, h5⟩ := fly_spec (s := u) (now := false) (fun h => by cases h) word (wholeShape s1 srcs [] outs)
    (unitEffect (landed s1).th v.th outs p row) (popsOf s srcs) hw
  refine ⟨u, t, ?_, hs, h5⟩
  unfold unitOp
  rw [M.bind_ok (M.get_apply s)]
  have hn : ¬([] : List Reg).any (atOnce s) = true := Bool.false_ne_true
  dsimp only
  rw [if_neg hn, M.bind_ok (room_ok hp), M.bind_ok (destsOk_ok word hd), M.bind_ok hr, M.bind_ok (M.get_apply s1),
    M.bind_ok hl]
  dsimp only
  rw [if_neg hn]
  rw [M.bind_ok hu]
  exact ht

end Sys2Proof.Machine
end

