-- ==== Sys2Proof/Tests/Slice0.lean ====
section
/-! SUPPORT. Tests: words of the spec's encodings, the checks of well-formedness, results worked out by hand from the
rules, and for each obligation a state that meets its hypotheses. -/

set_option Elab.async false
set_option maxRecDepth 4000

namespace Sys2Proof.Tests

open Sys2Proof Sys2Proof.Machine

/-! ## A small machine to test on -/

/-- Register values both streams start with: s5 = 12, s6 = 5, s7 = −1, s8 = 1; s10 with sign bits of a byte, half and word;
s11, s12, s14 = 1.5, 2, 4 as FP64; s15, s16, s17 = 1.5 as FP32, FP16, BF16. -/
def st0 : Stream :=
  { Stream.reset with
    pc := 0x200000000
    vl := 4
    gpr := [(5, 12), (6, 5), (7, 0xFFFFFFFFFFFFFFFF), (8, 1), (10, 0x80008080), (11, 0x3FF8000000000000),
      (12, 0x4000000000000000), (14, 0x4010000000000000), (15, 0x3FC00000), (16, 0x3E00), (17, 0x3FC0)] }

/-- A launch of one thread on core 0 with 64 KiB of alcove. -/
def l0 : Launch :=
  { serial := 1, part := 1
    record := ⟨0, 0, 1, 1, 1, 1, 64, 8, 0x10000, 0x1000, 0, 8, 4, 0, 0, 0, 0, 0, 0, 0, 0, 0, 0, 0, 0⟩
    d0 := 0, c0 := 0, k0 := 0, hallOff := 0, atriumOff := 0, stageOffs := [], codeEnd := some 0x200010000, live := 1, digLo := 0, digHi := 0
    ushered := false, ended := false, leavers := [], members := [0x800], alcoves := [(0, 0)] }

/-- Its thread: a1 and a2 in the alcove. -/
def t0 : Thread :=
  { Thread.reset 0 0 with
    status := .running, part := 1, serial := 1, segSize := 64, coefQuota := 8, acsSize := 8, boundSize := 4
    alcSize := 0x10000, a := st0, x := st0, areg := [(1, 0x1000), (2, 0x2000)], stride := [(1, 8)], spilla := 0xF000, spillx := 0xF800 }

/-- The device with that thread in focus, stream A or X issuing. -/
def a0 : State :=
  { State.reset with
    th := t0
    parts := [(1, { Partition.reset with state := .run, cores := [0], windows := [(0x40000000, 0x40000000)] })]
    launches := [l0] }
def x0 : State := { a0 with strm := .x }

/-- With the usher on core 0, slot 0. -/
def inPart0 (s : State) : State := { s with parts := [(1, { getPart s 1 with usherCore := 0, usherSlot := 0 })] }

/-- Whether an effect answers true. -/
def holds (s : State) (m : M Bool) : Bool :=
  match m s with
  | .ok (b, _) => b
  | .error _ => false
/-- Whether an instruction answers a next state with a property. -/
noncomputable def after (i : Instr) (s : State) (p : State → Bool) : Bool :=
  match Sys2Proof.Machine.exec i s with
  | .next t => p t
  | _ => false
/-- The checks of issue hold and the instruction leaves a value in a scalar of the issuing stream once it has landed,
with the next word to follow. -/
noncomputable def gives (i : Instr) (s : State) (d : Nat) (v : Dword) : Bool :=
  Ready i s && after i s fun t => Store.get 0 (landed t).cur.gpr d == v && t.cur.pc == s.cur.pc + 4

/-- A state with a code page at the PC of both streams and words there. -/
def coded (s : State) (ws : List Word) : State :=
  writeBytes { s with tlb := [⟨1, 0x20000, 0x1D, 0x50000000, 0, 0⟩] } 0x50000000 (ws.flatMap fun w => leBytes 4 w.toNat)

/-- The thread in focus changed. -/
def withTh (s : State) (f : Thread → Thread) : State := { s with th := f s.th }
/-- Its issuing stream changed. -/
def withCur (s : State) (f : Stream → Stream) : State := s.updCur f

/-- Entries in a queue. -/
def queued (s : State) (n : Nat) (l : List Dword) : State := withTh s fun t => { t with q := Store.put [] t.q n l }
/-- The checks of issue hold, and the instruction leaves a state with a property. -/
noncomputable def does (i : Instr) (s : State) (p : State → Bool) : Bool := Ready i s && after i s p
/-- The same of the state once every instruction in flight has landed. -/
noncomputable def lands (i : Instr) (s : State) (p : State → Bool) : Bool := does i s fun t => p (landed t)
/-- The checks of issue hold, and the issuing stream takes a trap. -/
noncomputable def traps (i : Instr) (s : State) (c : BitVec 8) (e : Dword) : Bool :=
  does i s fun t => t.cur.cause == c.setWidth 64 && t.cur.einfo == e && t.cur.epc == s.cur.pc

/-! ## Encodings: every field of every word chosen, from the encoding tables of 04_encoding.md -/

/-- Whether each word decodes to the instruction beside it. -/
noncomputable def reads (l : List (Word × Instr)) : Bool := l.all fun p => decide (decode p.1 = some p.2)

/-- Words from the encoding entries of the rows from ADD to CLZ. -/
theorem decode_add_to_clz : reads [
    (0x020B68B0, .add 2 109 11), (0x02071851, .sub 1 99 5), (0x03A46032, .and 105 12 3), (0x03A408D3, .or 105 1 13),
    (0x02085854, .xor 2 11 5), (0x02874915, .shl 33 105 17), (0x03B43086, .shr 109 6 8), (0x02844077, .sra 33 8 7),
    (0x03188848, .min 70 17 4), (0x03B47069, .max 109 14 6), (0x021C08CA, .minu 7 1 12),
    (0x03B868CB, .maxu 110 13 12), (0x0210383C, .slt 4 7 3), (0x038F491D, .sltu 99 105 17),
    (0x020F68CE, .seq 3 109 12), (0x0223187F, .sel 8 99 7), (0x04301180, .mul 12 2 24), (0x04606881, .mulh 24 13 8),
    (0x040CC052, .mulhu 3 24 5), (0x04443093, .div 17 6 9), (0x04201844, .divu 8 3 4), (0x05BB1845, .rem 110 99 4),
    (0x04443466, .remu 17 6 70), (0x04101807, .clz 4 3)] = true := by decide +kernel

/-- Words from the encoding entries of the rows from CTZ to SFEQ. -/
theorem decode_ctz_to_sfeq : reads [
    (0x05D47008, .ctz 117 14), (0x04450809, .popc 17 33), (0x043A300A, .sxb 14 70), (0x0410C00B, .sxh 4 24),
    (0x040F680C, .sxw 3 109), (0x06841FEE, .addi 33 3 2030), (0x09D44158, .andi 117 8 344),
    (0x0A082D53, .ori 2 5 1363), (0x0DB77692, .xori 109 110 1682), (0x0FD3700A, .shli 116 110 10),
    (0x11B8703C, .shri 110 14 60), (0x12206037, .srai 8 12 55), (0x15A446F0, .slti 105 8 1776),
    (0x16216DD7, .li 8 93655), (0x198E486D, .lsh 99 149613), (0x1A0F1850, .sfadd 3 99 5),
    (0x1BB81881, .sfsub 110 3 8), (0x1B8CC462, .sfmul 99 24 70), (0x1A201E33, .sfdiv 8 3 99),
    (0x1B190804, .sfsqrt 70 33), (0x1A101ED5, .sfmin 4 3 109), (0x1A3B1E96, .sfmax 14 99 105),
    (0x1A382017, .sfma 14 4 1), (0x1A341A18, .sfeq 13 3 33)] = true := by decide +kernel

/-- Words from the encoding entries of the rows from SFLT to NOP. -/
theorem decode_sflt_to_nop : reads [
    (0x1A348819, .sflt 13 17 1), (0x1A08684A, .sfle 2 13 4), (0x1C1CC000, .scvdl 7 24), (0x1C603001, .scvld 24 6),
    (0x1DA46002, .scvdf 105 12), (0x1C302003, .scvfd 12 4), (0x1C1C6804, .scvdh 7 13), (0x1C181805, .scvhd 6 3),
    (0x1C081806, .scvdb 2 3), (0x1C186007, .scvbd 6 12), (0x20013BAE, .b 80814), (0x2222DFF1, .bz 8 188401),
    (0x242F1F3E, .bnz 11 204606), (0x260D3A52, .bltz 3 80466), (0x2837E137, .bgez 13 254263),
    (0x2A03D128, .call 250152), (0x2C000000, .ret), (0x2E002800, .jr 5), (0x31D7DA74, .bq 117 252532),
    (0x323956A4, .bany 14 87716), (0x341299FB, .bnone 4 170491), (0x36132A13, .smb 4 6 5 531),
    (0x3810F68B, .bend 4 63115), (0x3A000000, .nop)] = true := by decide +kernel

/-- Words from the encoding entries of the rows from YIELD to AGSTR. -/
theorem decode_yield_to_agstr : reads [
    (0x3C000000, .yield), (0x3ED3E6CD, .trap 13887181), (0x41B9081B, .vlget 110 33 1 11),
    (0x42304013, .vloop 12 8 0 1 3), (0x4414490A, .stair 5 9 33 2), (0x46037044, .stflg 110 1 4),
    (0x498C4113, .ststep 99 8 17 3), (0x4A00001D, .wbase 29), (0x4C000009, .fmode 9), (0x4E000012, .scope 18),
    (0x50000001, .vmask 1), (0x52041022, .ldb 1 2 34), (0x55B8604D, .ldh 110 12 77), (0x56305FF6, .ldw 12 11 2038),
    (0x5838C25C, .ldd 14 24 604), (0x5A243A97, .stb 9 7 663), (0x5C2C1BC3, .sth 11 3 963),
    (0x5F8C2B13, .stw 99 5 787), (0x60201F0B, .std 8 3 1803), (0x62210800, .aset 8 33), (0x62603001, .aget 24 6),
    (0x621C6002, .astr 7 12), (0x62201803, .aadd 8 3), (0x62602004, .agstr 24 4)] = true := by decide +kernel

/-- Words from the encoding entries of the rows from LDS to AMOA_FADD64. -/
theorem decode_lds_to_amoaFadd64 : reads [
    (0x64182809, .lds 6 5 2 1), (0x678C680B, .sts 99 13 2 3), (0x68388A10, .amoAdd 14 17 33),
    (0x691830B1, .amoAnd 70 6 11), (0x69D0C092, .amoOr 116 24 9), (0x68600853, .amoXor 24 1 5),
    (0x69B47064, .amoMin 109 14 6), (0x69D06115, .amoMax 116 12 17), (0x69A45ED6, .amoMinu 105 11 109),
    (0x69D44817, .amoMaxu 117 9 1), (0x680C68B8, .amoSwap 3 13 11), (0x698C6089, .amoFadd32 99 12 8),
    (0x6830702A, .amoFadd64 12 14 2), (0x6B1840D0, .amoaAdd 70 8 13), (0x6B8C0C61, .amoaAnd 99 1 70),
    (0x6BB86692, .amoaOr 110 12 105), (0x6A301983, .amoaXor 12 3 24), (0x6A846C64, .amoaMin 33 13 70),
    (0x6A848845, .amoaMax 33 17 4), (0x6A084EE6, .amoaMinu 2 9 110), (0x6A141917, .amoaMaxu 5 3 17),
    (0x6A1458C8, .amoaSwap 5 11 12), (0x6A0C8E99, .amoaFadd32 3 17 105),
    (0x6BB8482A, .amoaFadd64 110 9 2)] = true := by decide +kernel

/-- Words from the encoding entries of the rows from AMOL_ADD to FENCE. -/
theorem decode_amolAdd_to_fence : reads [
    (0x6C3826E0, .amolAdd 14 4 110), (0x6C0CC111, .amolAnd 3 24 17), (0x6DA4C632, .amolOr 105 24 99),
    (0x6C304463, .amolXor 12 8 70), (0x6DB41874, .amolMin 109 3 7), (0x6C383055, .amolMax 14 6 5),
    (0x6C386E96, .amolMinu 14 13 105), (0x6C841817, .amolMaxu 33 3 1), (0x6C2018E8, .amolSwap 8 3 14),
    (0x6C444839, .amolFadd32 17 9 3), (0x6C84391A, .amolFadd64 33 7 17), (0x6E447690, .amoxAdd 17 14 105),
    (0x6E1C0A11, .amoxAnd 7 1 33), (0x6E141812, .amoxOr 5 3 1), (0x6F8C2823, .amoxXor 99 5 2),
    (0x6E181634, .amoxMin 6 2 99), (0x6E0CC015, .amoxMax 3 24 1), (0x6E0C0A16, .amoxMinu 3 1 33),
    (0x6E340897, .amoxMaxu 13 1 9), (0x6F182188, .amoxSwap 70 4 24), (0x6E301E99, .amoxFadd32 12 3 105),
    (0x6FB8303A, .amoxFadd64 110 6 3), (0x70206096, .cas 8 12 9 1 2),
    (0x72000007, .fence 1 3)] = true := by decide +kernel

/-- Words from the encoding entries of the rows from WAITA to SVG1. -/
theorem decode_waita_to_svg1 : reads [
    (0x7408C00B, .waita 2 24 1 3), (0x76046ED0, .barr 1 13 109), (0x760C0EE1, .barrt 3 1 110),
    (0x76305872, .binit 12 11 7), (0x76185803, .bdiss 6 11), (0x78248830, .bwait 9 17 3),
    (0x7BD40980, .vwait 117 1 24), (0x7C036800, .qdrain 109), (0x7F8F7000, .qcnt 99 110), (0x80185800, .sload 6 11),
    (0x8014C0E1, .sloadSlice 5 24 14), (0x802C8802, .sloadTrim 11 17), (0x82107000, .sstore 4 14),
    (0x821C4E91, .sstoreSlice 7 9 105), (0x82148802, .sstoreTrim 5 17), (0x84202031, .sgath 8 4 3 1),
    (0x84187088, .sgathc 6 14 8 0), (0x86242082, .sscat 9 4 8 2), (0x86040828, .sscatc 1 1 2 0), (0x88001000, .cpy 2),
    (0x89D44001, .cpyq 117 8), (0x8A603000, .tidset 24 6), (0x8C383000, .svmap 14 6),
    (0x8DB88801, .svg1 110 17)] = true := by decide +kernel

/-- Words from the encoding entries of the rows from SVG2 to VSHL. -/
theorem decode_svg2_to_vshl : reads [
    (0x8C0C0802, .svg2 3 1), (0x8C304803, .svph 12 9), (0x8C083804, .svswp 2 7), (0x8C848805, .svrun 33 17),
    (0x8C0C4806, .svprob 3 9), (0x8E847630, .launch 33 14 99), (0x91A46000, .join 105 12),
    (0x91B4C001, .leave 109 24), (0x90203002, .gname 8 6), (0x90181803, .gdrop 6 3), (0x91B8C004, .ginfo 110 24),
    (0x91A4C045, .gmove 105 24 4), (0xA0102F58, .vadd 4 5 117 1), (0xA1B410D9, .vsub 109 2 13 1),
    (0xA118383A, .vmul 70 7 3 1), (0xA00C40EB, .vmulh 3 8 14 1), (0xA038287C, .vmin 14 5 7 1),
    (0xA087186D, .vmax 33 99 6 1), (0xA0248C6E, .vadds 9 17 70 1), (0xA1B4175F, .vsubs 109 2 117 1),
    (0xA20B6F48, .vand 2 109 116 1), (0xA38F6849, .vor 99 109 4 1), (0xA3A7184A, .vxor 105 99 4 1),
    (0xA262375B, .vshl 24 70 117 1)] = true := by decide +kernel

/-- Words from the encoding entries of the rows from VSHR to PXOR. -/
theorem decode_vshr_to_pxor : reads [
    (0xA3B8383C, .vshr 110 7 3 1), (0xA3B818ED, .vsra 110 3 14 1), (0xA2606F4E, .vandn 24 13 116 1),
    (0xA40C4748, .vfadd 3 8 116 1), (0xA5D63079, .vfsub 117 70 7 1), (0xA444409A, .vfmul 17 8 9 1),
    (0xA463A89B, .vfdiv 24 117 9 1), (0xA438609C, .vfmin 14 12 9 1), (0xA42018CD, .vfmax 8 3 12 1),
    (0xA518304E, .vfma 70 6 4 1), (0xA40F698F, .vfms 3 109 24 1), (0xA6171808, .vfsqrt 5 99 1),
    (0xA7A41009, .vfrsq 105 2 1), (0xA60FA80A, .vlog2 3 117 1), (0xA61D080B, .vexp2 7 33 1),
    (0xA60C380C, .vfabs 3 7 1), (0xA718680D, .vfneg 70 13 1), (0xA613480E, .vfclass 4 105 1),
    (0xA7B7A00F, .vfrint 109 116 1), (0xA838185C, .vcmp 14 3 5 1 4), (0xAA2070BB, .vcmpx 8 14 11 1 3),
    (0xAC186890, .pand 6 13 9), (0xAC445891, .por 17 11 9), (0xAC601C62, .pxor 24 3 70)] = true := by decide +kernel

/-- Words from the encoding entries of the rows from PANDN to VCVCI. -/
theorem decode_pandn_to_vcvci : reads [
    (0xAC141463, .pandn 5 2 70), (0xAC346004, .pnot 13 12), (0xAC388805, .pmov 14 17), (0xAC840006, .pset 33),
    (0xAC600007, .pclr 24), (0xAE603000, .pcnt 24 6), (0xAE081801, .pcntt 2 3), (0xB0605800, .ppop 24 11),
    (0xB1B8C001, .pfirst 110 24), (0xB0243802, .plast 9 7), (0xB2183800, .vcvfh 6 7), (0xB3A4C001, .vcvfb 105 24),
    (0xB2450802, .vcvfe4 17 33), (0xB2384003, .vcvfe5 14 8), (0xB2323004, .vcvhf 12 70), (0xB21C1805, .vcvbf 7 3),
    (0xB2606806, .vcve4f 24 13), (0xB2381007, .vcve5f 14 2), (0xB287A008, .vcvfi 33 116), (0xB2041009, .vcvif 1 2),
    (0xB20C700A, .vcvdf 3 14), (0xB212300B, .vcvfd 4 70), (0xB220700C, .vcvin 8 14),
    (0xB21D080D, .vcvci 7 33)] = true := by decide +kernel

/-- Words from the encoding entries of the rows from VCVIC to VRMAX. -/
theorem decode_vcvic_to_vrmax : reads [
    (0xB20F700E, .vcvic 3 110), (0xB260880F, .vcvfc 24 17), (0xB41BA0E8, .vdeq 6 116 14 1),
    (0xB5D02ED9, .vqnt 116 5 109 1), (0xB78C6218, .vperm 99 12 33 1), (0xB71B1829, .vslup 70 99 2 1),
    (0xB624203A, .vsldn 9 4 3 1), (0xB7D0600B, .vcomp 116 12 1), (0xB644700C, .vexpd 17 14 1),
    (0xB7D7A0ED, .vzip 117 116 14 1), (0xB7D068EE, .vuzp 116 13 14 1), (0xB718880F, .vrev 70 17 1),
    (0xB9A46008, .vmov 105 12 1), (0xB8442009, .vsplat 17 4 1), (0xB98C76D2, .vext 99 14 109),
    (0xB81008C3, .vins 4 1 12), (0xB838000C, .viota 14 1), (0xB91B4985, .vmerge 70 105 24), (0xB8840006, .vfmsk 33),
    (0xB8000007, .vclrf), (0xBA605808, .vrsum 24 11 1), (0xBA008809, .vfsum 17 1), (0xBA1B180A, .vrmin 6 99 1),
    (0xBA37A80B, .vrmax 13 117 1)] = true := by decide +kernel

/-- Words from the encoding entries of the rows from VRAND to VBOUT. -/
theorem decode_vrand_to_vbout : reads [
    (0xBA60180C, .vrand 24 3 1), (0xBA47A80D, .vror 17 117 1), (0xBA84400E, .vrxor 33 8 1), (0xBBB40007, .vtree 109),
    (0xBC104008, .vargmax 4 8 1), (0xBC441809, .vargmin 17 3 1), (0xBDB8480A, .vargmaxc 110 9 1),
    (0xBE2C6008, .vscan 11 12 1), (0xBE844009, .vscanx 33 8 1), (0xBE1C100A, .vfscan 7 2 1),
    (0xBE84180B, .vmscan 33 3 1), (0xC0601808, .vsegrAdd 24 3 1), (0xC02FA009, .vsegrMin 11 116 1),
    (0xC02C400A, .vsegrMax 11 8 1), (0xC038600B, .vsegrAnd 14 12 1), (0xC00C200C, .vsegrOr 3 4 1),
    (0xC118C00D, .vsegrFadd 70 24 1), (0xC024C00E, .vsegrFmin 9 24 1), (0xC00F700F, .vsegrFmax 3 110 1),
    (0xC20C0008, .vrndl 3 1), (0xC3A40009, .vrndh 105 1), (0xC38C000A, .vrndu 99 1), (0xC40C5800, .vbin 3 11),
    (0xC4440801, .vbout 17 1)] = true := by decide +kernel

/-- Words from the encoding entries of the rows from VUNB to FNADD. -/
theorem decode_vunb_to_fnadd : reads [
    (0xC58C0002, .vunb 99), (0xD0040890, .mtile 1 1 9), (0xD20C7013, .mrow 3 14 1 1 1), (0xD5D46000, .maccf 117 12),
    (0xD5182801, .macc 70 5), (0xD438C002, .maccz 14 24), (0xD6006C60, .mzero 13 70), (0xD80C0000, .mstat 3),
    (0xD8140001, .mstatc 5), (0xE0002800, .rcopen 5), (0xE01C0001, .rcnoise 7), (0xE0144002, .rcscore 5 8),
    (0xE0242003, .rccut 9 4), (0xE044C004, .rcexact 17 24), (0xE0001985, .rcpost 3 24), (0xE0300006, .rcmerge 12),
    (0xE0001807, .rcbar 3), (0xE18C0008, .rcprob 99), (0xE0180039, .rcget 6 3), (0xE002309A, .rcput 70 9),
    (0xE000000B, .rcclose), (0xE2200ED0, .fnset 8 1 109), (0xE2301001, .fnget 12 2),
    (0xE2246822, .fnadd 9 13 2)] = true := by decide +kernel

/-- Words from the encoding entries of the rows from FNMUL to MTS_VBASE. -/
theorem decode_fnmul_to_mtsVbase : reads [
    (0xE22C1983, .fnmul 11 3 24), (0xE21C4064, .fncomp 7 8 6), (0xE2188805, .fnint 6 17), (0xE21C1806, .fndiff 7 3),
    (0xE2186217, .fneval 6 12 33), (0xE22C0888, .fnroot 11 1 8), (0xE2043009, .fntrunc 1 6),
    (0xE244163A, .fnfit 17 2 99), (0xE20C000B, .fnmono 3), (0xE21C400C, .fninfo 7 8), (0xE20C000D, .fnfree 3),
    (0xE2442C6E, .fnscal 17 5 70), (0xE5D00040, .gmbox 116 4), (0xE4147001, .vhold 5 14),
    (0xE48630C2, .rstv 33 70 12), (0xE5D4C6D3, .rstvr 117 24 109), (0xE4080004, .gstat 2), (0xF0000000, .exit),
    (0xF0000001, .eret), (0xF11820D2, .mfs 70 4 13), (0xF08426D3, .mts 33 4 109), (0xF18C0103, .mtsCause 99),
    (0xF0440403, .mtsScopetab 17), (0xF0040213, .mtsVbase 1)] = true := by decide +kernel

/-- Words from the encoding entries of the rows from MTS_FMODE to HALT. -/
theorem decode_mtsFmode_to_halt : reads [
    (0xF0600303, .mtsFmode 24), (0xF0840803, .mtsLattol 33), (0xF0001EE4, .ctxsave 3 110),
    (0xF000C465, .ctxload 24 70), (0xF0034806, .notify 105), (0xF0007007, .preempt 14), (0xF0004008, .resume 8),
    (0xF0600009, .digchk 24), (0xF000000A, .halt)] = true := by decide +kernel

/-! ## Scalars: results worked out by hand from R117 to R123 -/

theorem test_scalar_arithmetic : [(Instr.add 9 5 6, 17), (.add 9 7 8, 0), (.sub 9 6 5, 0xFFFFFFFFFFFFFFF9), (.and 9 5 6, 4),
    (.or 9 5 6, 13), (.xor 9 5 6, 9), (.shl 9 5 6, 384), (.shr 9 7 6, 0x07FFFFFFFFFFFFFF), (.sra 9 7 6, 0xFFFFFFFFFFFFFFFF),
    (.min 9 5 7, 0xFFFFFFFFFFFFFFFF), (.max 9 5 7, 12), (.minu 9 5 7, 12), (.maxu 9 5 7, 0xFFFFFFFFFFFFFFFF),
    (.slt 9 7 5, 1), (.sltu 9 7 5, 0), (.seq 9 5 5, 1), (.mul 9 7 7, 1), (.mulh 9 7 5, 0xFFFFFFFFFFFFFFFF), (.mulhu 9 7 5, 11),
    (.div 9 5 6, 2), (.div 9 5 0, 0xFFFFFFFFFFFFFFFF), (.divu 9 7 5, 0x1555555555555555), (.rem 9 7 6, 0xFFFFFFFFFFFFFFFF),
    (.rem 9 5 0, 12), (.remu 9 7 6, 0)].all (fun (p : Instr × Dword) => gives p.1 a0 9 p.2) = true := by decide +kernel

theorem test_scalar_unary : [(Instr.clz 9 8, 63), (.clz 9 0, 64), (.ctz 9 5, 2), (.ctz 9 0, 64), (.popc 9 7, 64),
    (.sxb 9 10, 0xFFFFFFFFFFFFFF80), (.sxh 9 10, 0xFFFFFFFFFFFF8080), (.sxw 9 10, 0xFFFFFFFF80008080), (.addi 9 5 0x7FF, 11),
    (.andi 9 7 0x7FF, 0x7FF), (.ori 9 5 0x400, 0x40C), (.xori 9 7 0x7FF, 0xFFFFFFFFFFFFF800), (.shli 9 5 60, 0xC000000000000000),
    (.shri 9 7 63, 1), (.srai 9 7 63, 0xFFFFFFFFFFFFFFFF), (.slti 9 7 0, 1), (.li 9 0x20000, 0xFFFFFFFFFFFE0000),
    (.aget 9 1, 0x1000), (.agstr 9 1, 8), (.qcnt 9 104, 0)].all (fun (p : Instr × Dword) => gives p.1 a0 9 p.2) = true := by
  decide +kernel

theorem test_scalar_destination_read : gives (.sel 8 5 6) a0 8 12 = true ∧ gives (.sel 0 5 6) a0 0 0 = true ∧
    gives (.lsh 8 0x3FFFF) a0 8 0x7FFFF = true ∧ gives (.sfma 11 12 12) x0 11 0x4016000000000000 = true := by decide +kernel

theorem test_scalar_float : [(Instr.sfadd 9 11 12, 0x400C000000000000), (.sfsub 9 11 12, 0xBFE0000000000000),
    (.sfmul 9 11 12, 0x4008000000000000), (.sfdiv 9 11 12, 0x3FE8000000000000), (.sfsqrt 9 14, 0x4000000000000000),
    (.sfmin 9 11 12, 0x3FF8000000000000), (.sfmax 9 11 12, 0x4000000000000000), (.sfeq 9 11 11, 1), (.sflt 9 11 12, 1),
    (.sfle 9 12 11, 0), (.scvdl 9 5, 0x4028000000000000), (.scvld 9 11, 2), (.scvdf 9 15, 0x3FF8000000000000),
    (.scvfd 9 11, 0x3FC00000), (.scvdh 9 16, 0x3FF8000000000000), (.scvhd 9 11, 0x3E00), (.scvdb 9 17, 0x3FF8000000000000),
    (.scvbd 9 11, 0x3FC0)].all (fun (p : Instr × Dword) => gives p.1 x0 9 p.2) = true := by decide +kernel

/-! ## Encoding and the step: states and operands that meet the hypotheses of each statement -/

theorem meets_encoding : (Instr.add 9 5 6).wf = true ∧ instrIsEvent (.add 9 5 6) = false ∧ (Instr.mts 1 0 0x60).wf = true ∧
    (∃ i, decode 0x02241860 = some i) ∧ decode 0 = none := by
  refine ⟨by decide +kernel, by decide +kernel, by decide +kernel, ⟨.add 9 3 6, by decide +kernel⟩, by decide +kernel⟩

/-- What `TurnOf` and `Unhindered` ask, computed: it is that stream's turn, at a boundary with nothing pending. -/
def turn (s : State) (lcore slot : Nat) (q : Strm) : Option State :=
  match s.agenda with
  | .issue l k p :: rest =>
    if l == lcore && k == slot && p == q then
      match focus { s with agenda := rest } (4 * lcore + slot) with
      | some t => if mayIssue { t with strm := q } then some ((marked { t with strm := q }).updCur Stream.onward) else none
      | none => none
    else none
  | _ => none
def free (u : State) : Bool := atBoundary u u.strm && (takePending u u.strm).isNone && (u.strm == .a || u.th.resume == [])

/-- StepRunsDecoded: A issues the word at its PC; X does, where strips overlap and nothing else stops it. -/
theorem meets_stepRunsDecoded : ((turn { coded a0 [0x02242860] with agenda := [.issue 0 0 .a] } 0 0 .a).any fun u =>
      free u && u.cur.ibuf == [] && holds u (do
        let r ← resolve u.cur.pc 4 .fetch
        let v ← get
        pure (u.cur.stairPos.isNone && r.here v && !badUnit v r.key 4 &&
          decide (decodeBytes (readBytes v r.key 4) = some (.add 9 5 6, []))))) = true ∧
    ((turn { withTh (coded x0 [0x02242860]) (fun t => { t with strips := [⟨0, st0, none⟩, ⟨1, st0, none⟩] }) with
        agenda := [.issue 0 0 .x] } 0 0 .x).any fun u => !atBoundary u .x && u.cur.stairPos.isNone) = true := by decide +kernel

/-- A step of it: s9 := s5 + s6, and the PC moves on. -/
theorem test_step : (match Sys2Proof.Machine.step { coded a0 [0x02242860] with agenda := [.issue 0 0 .a] } with
    | .next t => Store.get 0 t.th.a.gpr 9 == 17 && t.th.a.pc == 0x200000004 && t.agenda == []
    | _ => false) = true := by decide +kernel

/-- StepKeepsMemory and TrapEntry. -/
theorem meets_stepKeepsMemory : Memory.wf (coded a0 [0x02242860]).mem = true ∧
    (∃ t, step (coded a0 [0x02242860]) = .next t) ∧ a0.th.status = .running := by
  refine ⟨by decide +kernel, ?_, by decide +kernel⟩
  have h : (match step (coded a0 [0x02242860]) with
    | .next _ => true
    | _ => false) = true := by decide +kernel
  cases hs : step (coded a0 [0x02242860]) with
  | next t => exact ⟨t, rfl⟩
  | fault f => rw [hs] at h; cases h
  | refused r => rw [hs] at h; cases h

/-- StepRunsStair: an active stair whose buffer holds one word, at its first position. -/
def stair0 : Stair := ⟨0x200000000, [0x02242860], [⟨2, 0, 0, 0⟩], [], []⟩
theorem meets_stepRunsStair : holds { withCur a0 (fun c => { c with stair := some stair0 }) with agenda := [.issue 0 0 .a] } (do
    let s ← get
    pure ((turn s 0 0 .a).any fun u => free u && u.cur.stairPos == some (stair0, 0) &&
      decide (decode (atD 0 0 stair0.words) = some (.add 9 5 6)))) = true ∧
  holds { withCur a0 (fun c => { c with ibuf := [(0x200000000, 0x02242860)] }) with agenda := [.issue 0 0 .a] } (do
    let s ← get
    pure ((turn s 0 0 .a).any fun u => free u && u.cur.stairPos.isNone &&
      (u.cur.ibuf.find? fun e => e.1 == u.cur.pc) == some (u.cur.pc, 0x02242860))) = true := by
  decide +kernel

/-- Where no partition has a trace buffer, no record is written. -/
theorem meets_trapFrame : Untraced State.reset := by
  intro t k q pc e
  rfl

/-- DecodeChecks: each check, in the order of R101, and LevelCheck. -/
theorem meets_decodeChecks : (Instr.vadd 1 2 3 0).wf = true ∧
    gate .vadd (encode (.vadd 1 2 3 0)) a0 = some (cWSTR, (encode (.vadd 1 2 3 0)).setWidth 64) ∧
    gate .add (encode (.add 112 1 2)) a0 = some (cWSTR, (encode (.add 112 1 2)).setWidth 64) ∧
    gate .halt (encode .halt) a0 = some (cPROT, 2) ∧
    (gate .vadd (encode (.vadd 64 2 3 0)) x0).map (·.1) = some cWIN ∧
    gate .smb (encode (.smb 1 0 1 0)) x0 = some (cILL, (encode (.smb 1 0 1 0)).setWidth 64) ∧
    gate .vadd (encode (.vadd 63 2 3 0)) x0 = none := by decide +kernel

/-- Each check before the next: of a word that fails two, WSTR before WIN and before PROT; of a pair that leaves the segment at its
second register, the name of that one. -/
theorem test_decode_order : after (.vadd 64 2 3 0) a0 (fun t => t.cur.cause == cWSTR.setWidth 64) = true ∧
    after (.launch 9 1 5) x0 (fun t => t.cur.cause == cWSTR.setWidth 64) = true ∧ x0.cur.priv = 0 ∧
    after (.rcscore 63 2) x0 (fun t => t.cur.cause == cWIN.setWidth 64 && t.cur.einfo == 64 + 64 * 256) = true := by decide +kernel

theorem test_trap_level : after .halt a0 (fun t => t.th.a.cause == 0x05 && t.th.a.einfo == 2 && t.th.a.epc == 0x200000000 &&
    t.th.estream == 0 && t.th.status == .stopping .trap) = true := by decide +kernel

/-- Its A stream goes on at TVEC in the usher (log 36). -/
theorem test_trap_usher : after .halt (withTh { inPart0 a0 with th := { t0 with serial := 0, tvec := 0x300000000 } } id) (fun t =>
    t.th.a.cause == 0x05 && t.th.a.epc == 0x200000000 && t.th.a.pc == 0x300000000 && t.th.status == .running) = true := by
  decide +kernel

/-- HeldRegisterParks: v3 of the window is a held mailbox. -/
theorem meets_heldRegister : (Instr.vadd 1 2 3 0).wf = true ∧
    heldName (withTh x0 fun t => { t with hold := [(3, ⟨1, 1⟩)] }).th [.vec 1 1, .vec 2 1, .vec 3 1] = some 3 ∧
    gate .vadd (encode (.vadd 1 2 3 0)) (withTh x0 fun t => { t with hold := [(3, ⟨1, 1⟩)] }) = none ∧
    after (.vadd 1 2 3 0) (withTh x0 fun t => { t with hold := [(3, ⟨1, 1⟩)] }) (fun t => t.th.x.park == some (.held 3)) =
      true := by decide +kernel

/-! ## Scalar numbers and queues (R51 to R53) -/

/-- ScalarReads: each number at the ends of its range. -/
theorem meets_scalarReads : ([0, 1, 103, 118, 119, 120, 121, 122, 123, 124, 125, 126, 127] : List Reg).all (fun r => !isPort r) =
    true ∧ ([104, 111, 112, 115, 116, 117] : List Reg).all isPort = true := by decide +kernel

theorem test_scalar_reads : [(0, 0), (5, 12), (103, 0), (118, 4), (119, 0xFFFFFFFFFFFFFFFF), (122, 0x800), (123, 0), (126, 0),
    (127, 0x33800000)].all (fun (p : Reg × Dword) => holds x0 (do return (← rd p.1) == p.2)) = true := by decide +kernel

/-- ScalarWrites: s0, the ends of the general registers, ftrim, sbase, seed and tol. -/
theorem test_scalar_writes : ([0, 1, 103, 119, 120, 121, 127] : List Reg).all (fun r => !isPort r && !roScalar r &&
    holds x0 (do
      wr r 0x1_0000_0001
      let v ← rd r
      return v == if r == 0 then 0 else if r == 127 then 1 else 0x1_0000_0001)) = true := by decide +kernel

/-- QueuePorts: an empty queue, one entry, one below full and full. -/
theorem meets_queuePorts : (x0.th.queue 104 = []) ∧ (queued x0 104 [7, 8]).th.queue 104 = 7 :: [8] ∧
    ((queued a0 104 (List.replicate 32 1)).th.queue 104).length = qDepth 104 ∧
    ((queued a0 104 (List.replicate 31 1)).th.queue 104).length < qDepth 104 ∧ qDepth 111 = 32 ∧ qDepth 112 = 16 ∧ qDepth 116 = 64 ∧
    qDepth 117 = 16 := by decide +kernel

theorem test_queue_order : holds (queued x0 104 [7, 8]) (do
    let v ← rd 104
    let s ← get
    return v == 7 && s.th.queue 104 == [8]) = true ∧
  holds (queued a0 116 [0]) (do
    wr 116 5
    let s ← get
    return s.th.queue 116 == [0, 1]) = true := by decide +kernel

/-- ScalarParks: the first source empty, the second empty with what was popped back, the destination full. -/
theorem test_scalar_parks :
    after (.add 9 104 5) x0 (fun t => t.th.x.park == some (.pop 104)) = true ∧
    after (.add 9 104 105) (queued x0 104 [7]) (fun t => t.th.x.park == some (.pop 105) && t.th.queue 104 == [7]) = true ∧
    after (.add 104 5 6) (queued a0 104 (List.replicate 32 1)) (fun t => t.th.a.park == some (.push 104)) = true ∧
    [Instr.clz 9 104, .addi 9 104 1, .sfadd 9 11 104, .sel 9 104 5].all (fun i => after i x0 fun t => t.th.x.park == some (.pop 104)) =
      true ∧
    [Instr.li 104 5, .aget 104 1, .clz 104 5].all (fun i => after i (queued a0 104 (List.replicate 32 1)) fun t =>
      t.th.a.park == some (.push 104)) = true ∧
    after (.sfdiv 112 11 12) (queued x0 112 (List.replicate 16 1)) (fun t => t.th.x.park == some (.push 112)) = true := by
  decide +kernel

/-- ScalarResults and ScalarMoves: sources that are ports, a destination that discards, one that pushes. -/
theorem meets_scalarResults : (Ready (.add 112 104 104) (queued x0 104 [7, 8]) && holds (queued x0 104 [7, 8]) (do
      let x ← rd 104
      let y ← rd 104
      wr 112 (x + y)
      return x == 7 && y == 8)) = true ∧
    (Ready (.addi 0 5 1) a0 && holds a0 (do
      let x ← rd 5
      wr 0 (x + 1)
      return true)) = true ∧
    (Ready (.sel 8 5 6) a0 && Ready (.li 1 0x3FFFF) a0 && Ready (.qcnt 103 117) a0 && Ready (.aget 9 31) a0 &&
      Ready (.agstr 9 0) a0) = true := by decide +kernel

/-- ScalarFloat: no enabled exception; 0/0 with VE set, 1.5/5e−324 with OE set; nothing is written. -/
theorem meets_scalarFloat : Ready (.sfdiv 9 11 12) x0 = true ∧
    holds x0 (do return enabled (← get).cur.fmode (fDiv fp64 (scalarRnd (← get)) 0x3FF8000000000000 0x4000000000000000).2 == 0) = true ∧
    after (.sfdiv 9 0 0) (withCur x0 fun c => { c with fmode := 0x08 }) (fun t => t.th.x.cause == 0x08 &&
      t.th.x.einfo == 3 && Store.get 0 t.th.x.gpr 9 == 0) = true ∧
    after (.sfdiv 9 11 8) (withCur x0 fun c => { c with fmode := 0x10 }) (fun t => t.th.x.cause == 0x08 &&
      t.th.x.einfo == 4 && Store.get 0 t.th.x.gpr 9 == 0) = true := by decide +kernel

/-! ## Control (R66, R78, R124 to R130, R145) -/

/-- Branches: taken and not, forward and back, on a value and on a popped outcome. -/
theorem test_branches : [(Instr.b 0x3FFFF, 0x1FFFFFFFC), (.bz 5 3, 0x200000004), (.bz 0 3, 0x20000000C), (.bnz 5 3, 0x20000000C),
      (.bltz 7 2, 0x200000008), (.bltz 5 2, 0x200000004), (.bgez 0 2, 0x200000008)].all (fun (p : Instr × Dword) =>
      does p.1 a0 fun t => t.cur.pc == p.2) = true ∧
    does (.bq 116 0x20000) (queued x0 116 [1]) (fun t => t.cur.pc == 0x1FFF80000 && t.th.queue 116 == []) = true := by
  decide +kernel

/-- VectorBranches: a bit below vl, and one at vl, which does not count; a held end flag, and no binding. -/
theorem test_vector_branches :
    does (.bany 3 2) (withTh x0 fun t => { t with pred := [(3, 8)] }) (fun t => t.cur.pc == 0x200000008) = true ∧
    does (.bany 3 2) (withTh x0 fun t => { t with pred := [(3, 16)] }) (fun t => t.cur.pc == 0x200000004) = true ∧
    does (.bnone 3 2) (withTh x0 fun t => { t with pred := [(3, 16)] }) (fun t => t.cur.pc == 0x200000008) = true ∧
    does (.bend 3 2) (withTh x0 fun t => { t with bind := [(3, 7)], vs := [(7, ⟨[], true⟩)] }) (fun t =>
      t.cur.pc == 0x200000008) = true ∧
    traps (.bend 3 2) x0 cILL ((encode (.bend 3 2)).setWidth 64) = true := by decide +kernel

/-- NoInstructionTakesIll and TrapNopYieldDrain: the ends of each reserved range of major opcodes; NOP and YIELD with a
code. -/
theorem test_no_instruction : ([0x1E000000, 0x92000000, 0x9E000000, 0xC6000000, 0xCE000000, 0xDA000000, 0xDE000000, 0xE6000000, 0xEE000000, 0xF2000000, 0xFC000000, 0xFE000000, 0x01FFFFFF, 0x3A000001, 0x3C000001] : List Word).all
    (fun w => (decode w).isNone) = true ∧ decode 0x3FFFFFFF = some (.trap 0x1FFFFFF) := by decide +kernel

/-- LinkStack: within hardware, at 16 entries, at 144, empty, and with the last entry spilled before. -/
theorem test_link_stack :
    does (.call 4) a0 (fun t => t.cur.pc == 0x200000010 && t.cur.link == [0x200000004]) = true ∧
    does .ret (withCur a0 fun c => { c with link := [0x300, 0x400] }) (fun t => t.cur.pc == 0x300 && t.cur.link == [0x400]) = true ∧
    traps .ret a0 cILL 0x2C000000 = true ∧ does (.jr 5) a0 (fun t => t.cur.pc == 12) = true ∧ traps (.jr 6) a0 cALIGN 5 = true ∧
    does (.call 4) (withCur a0 fun c => { c with link := List.replicate 15 0x300 ++ [0x44] }) (fun t => t.cur.spill == 1 &&
      t.cur.link.length == 16 && readLE t (alcoveAt 0 0xF000) 8 == 0x44) = true ∧
    traps (.call 4) (withCur a0 fun c => { c with link := List.replicate 16 0x300, spill := 128 }) cLSO 0xF000 = true ∧
    does .ret (writeLE (withCur a0 fun c => { c with link := [0x300], spill := 2 }) (alcoveAt 0 0xF008) 8 0x44) (fun t =>
      t.cur.pc == 0x300 && t.cur.spill == 1 && t.cur.link == [0x44]) = true := by decide +kernel

/-- TrapNopYieldDrain. -/
theorem test_trap_nop_yield_drain : traps (.trap 0x1FFFFFF) a0 cSWT 0x1FFFFFF = true ∧
    does .nop a0 (fun t => t.cur.pc == 0x200000004) = true ∧ does .yield x0 (fun t => t.cur.pc == 0x200000004) = true ∧
    does (.qdrain 104) a0 (fun t => t.cur.pc == 0x200000004) = true ∧
    does (.qdrain 104) (queued a0 104 [1]) (fun t => t.cur.park == some (.drain 104)) = true ∧
    traps (.qdrain 105) (queued x0 105 [1]) cQDEAD 2 = true := by decide +kernel

/-! ## Grants, loops and stairs (R132 to R141) -/

/-- GrantBounds: all that remains; D at a boundary of 256 from the start; an arm limit of 0. -/
theorem test_grants : grant 10 300 0 (2 ^ 64 - 1) true = 300 ∧ grant 10 1000 100 (2 ^ 64 - 1) true = 412 ∧
    grant 10 1000 0 (2 ^ 64 - 1) false = 512 ∧ grant 10 1000 0 100 true = 100 ∧ grant 10 5 0 0 false = 0 := by decide +kernel

theorem test_loops :
    does (.vlget 9 5 0 13) a0 (fun t => t.cur.vl == 12 && Store.get 0 t.cur.gpr 9 == 12 && t.cur.vtype == 13) = true ∧
    does (.vloop 9 7 1 0 10) a0 (fun t => t.cur.vl == 512 && t.cur.loop ==
      some ⟨0x200000004, 0xFFFFFFFFFFFFFFFF, 0, false, true, none⟩) = true := by decide +kernel

/-- StripMine: strides added and elements left; the last strip. -/
def looped (s : State) (strip : Dword) : State := withCur s fun c => { c with loop := some ⟨0x200000000, strip, 0, false, false, none⟩ }
theorem test_strip_mine :
    does (.smb 9 0 2 0x7FE) (looped a0 10) (fun t => t.cur.pc == 0x1FFFFFFF8 && Store.get 0 t.th.areg 1 == 0x1020 &&
      t.cur.vl == 6 && Store.get 0 t.cur.gpr 9 == 6 && t.cur.sbase == 4 &&
      t.cur.loop == some ⟨0x200000000, 6, 4, false, false, none⟩) = true ∧
    does (.smb 9 0 0 0x7FE) (looped a0 4) (fun t => t.cur.pc == 0x200000004 && t.cur.vl == 0 && t.cur.loop == none) = true ∧
    does (.smb 9 0 0 0x7FE) (looped a0 3) (fun t => t.cur.pc == 0x1FFFFFFF8 && t.cur.vl == 512 &&
      t.cur.loop == some ⟨0x200000000, 0xFFFFFFFFFFFFFFFF, 4, false, false, none⟩) = true ∧
    does (.smb 9 0 0 0x7FE) (looped (withTh x0 fun t => { t with strips := List.replicate 3 ⟨0, st0, none⟩ }) 10) (fun t =>
      t.cur.park == some .work) = true := by
  decide +kernel
theorem test_strip_mine_ill : traps (.smb 9 0 0 0) a0 cILL 0x36240000 = true ∧
    after (.smb 9 0 1 0) (looped x0 4) (fun t => t.cur.cause == 1 && t.cur.einfo == 0x36240800) = true := by decide +kernel

/-- A result pushed behind strips in flight: it waits for them with its strip, or parks where its queue has no room. -/
def overlapped (l : List Dword) : State :=
  queued (withTh (withCur x0 fun c => { c with loop := some ⟨0x200000000, 10, 0, false, true, some 0⟩ }) fun t =>
    { t with flying := [⟨0, 0, 0, 0, 0, st0, ⟨false, 128, 32, 32, [], [], false, false, false, []⟩, Effect.none, 0, 0, [], 0, none, []⟩] }) 112 l
theorem test_strip_push : does (.smb 112 0 0 0x7FE) (overlapped []) (fun t => t.th.queue 112 == [] &&
      t.th.strips.map (·.push) == [some (112, 6)] && t.cur.pc == 0x1FFFFFFF8) = true ∧
    does (.smb 112 0 0 0x7FE) (overlapped (List.replicate 16 1)) (fun t => t.cur.park == some (.push 112)) = true := by decide +kernel

/-- StairBegins: one flight of a count of 1, and of a count of 0; a buffer of one word. -/
theorem test_stair_begins :
    does (.stair 8 0 1 1) (coded a0 [0x8E200041, 0x02242860]) (fun t => t.cur.pc == 0x200000004 && t.cur.stair ==
      some ⟨0x200000004, [0x02242860], [⟨1, 0, 0, 0⟩], [], []⟩) = true ∧
    does (.stair 9 0 1 1) (coded a0 [0x8E240041, 0x02242860]) (fun t => t.cur.pc == 0x200000008 && t.cur.stair == none) = true := by
  decide +kernel

/-- ModalSettings. -/
theorem test_modal :
    does (.stflg 5 1 5) a0 (fun t => t.cur.pend.masks == [((5, true), 12)]) = true ∧
    does (.ststep 3 4 0 2) a0 (fun t => t.cur.pend.stepped == [3, 4]) = true ∧
    does (.wbase 7) x0 (fun t => t.th.wbase == 7) = true ∧ does (.wbase 7) a0 (fun t => t.th.wbase == 0) = true ∧
    traps (.wbase 8) x0 cWIN (64 * 256 + 128) = true ∧ does (.fmode 0x4C) a0 (fun t => t.cur.fmode == 0x4C) = true ∧
    does (.scope 31) a0 (fun t => t.th.scope == 31) = true ∧ does (.vmask 95) x0 (fun t => t.th.gpred == 95) = true ∧
    does (.aset 31 5) a0 (fun t => Store.get 0 t.th.areg 31 == 12) = true ∧
    does (.astr 0 7) a0 (fun t => Store.get 0 t.th.stride 0 == 0xFFFFFFFFFFFFFFFF) = true ∧
    does (.aadd 1 5) a0 (fun t => Store.get 0 t.th.areg 1 == 0x100C) = true := by decide +kernel

/-! ## Memory (R180, R184 to R196): 0x1000 in the alcove holds the bytes 88 77 … 11, or the value named -/

/-- A value at the address in a1. -/
def at1 (s : State) (v : Nat) : State := writeLE s (alcoveAt 0 0x1000) 8 v
def m0 : State := at1 a0 0x1122334455667788

/-- Loads, and a load of each size at the end of an aligned block. -/
theorem test_loads : [(Instr.ldb 9 1 7, 0x11), (.ldh 9 1 6, 0x1122), (.ldw 9 1 4, 0x11223344), (.ldd 9 1 0, 0x1122334455667788),
    (.lds 9 1 0 0, 0x88), (.lds 9 1 1 1, 0x7788), (.lds 9 1 0 2, 0x55667788), (.lds 9 1 1 3, 0x1122334455667788),
    (.ldb 9 1 0x7FF, 0)].all (fun (p : Instr × Dword) => gives p.1 m0 9 p.2) = true := by decide +kernel

/-- The usher reads its remap table: physical core 3 of a logical core with V. -/
theorem test_remap_table : gives (.ldh 9 1 0) (withTh { inPart0 a0 with
      parts := [(1, { getPart a0 1 with usherCore := 0, usherSlot := 0, remapVa := 0x100000000 })], remap := [(0, 0x8003)] } fun t =>
    { t with serial := 0, areg := [(1, 0x100000000)] }) 9 0x8003 = true := by decide +kernel

/-- Stores: s7 = −1, s8 = 1. -/
theorem test_stores : [(Instr.stb 7 1 3, 0x11223344FF667788), (.sth 7 1 2, 0x11223344FFFF7788), (.stw 8 1 4, 0x155667788),
    (.std 5 1 0, 12), (.sts 7 1 0 0, 0x11223344556677FF), (.sts 7 1 2 1, 0x112233445566FFFF), (.sts 8 1 0 2, 0x1122334400000001),
    (.sts 6 1 2 3, 5)].all (fun (p : Instr × Nat) => does p.1 m0 fun t => readLE t (alcoveAt 0 0x1000) 8 == p.2) = true := by
  decide +kernel

/-- MisalignedAccess: each size, and an address out of the segment. -/
theorem test_misaligned : traps (.ldh 9 1 1) m0 cALIGN 0x1001 = true ∧ traps (.ldw 9 1 2) m0 cALIGN 0x1002 = true ∧
    traps (.std 5 1 4) m0 cALIGN 0x1004 = true ∧ traps (.lds 9 5 1 3) (withTh m0 fun t => { t with areg := [(5, 1)] }) cALIGN 1 =
      true ∧ traps (.sts 7 5 2 1) (withTh m0 fun t => { t with areg := [(5, 1)] }) cALIGN 1 = true ∧
    traps (.ldb 9 5 0) (withTh m0 fun t => { t with areg := [(5, 0x10000)] }) cPROT 0x10000 = true := by decide +kernel

/-- Atomics, waits and barriers likewise; a barrier's count of 0 or above 65,535 is no count. -/
theorem test_misaligned_words :
    [Instr.amoAdd 9 5 8, .amoaFadd64 9 5 11, .cas 5 5 6 1 0, .waita 5 5 1 0, .vwait 9 5 5, .bdiss 9 5, .bwait 9 5 7].all (fun i =>
      traps i (withTh m0 fun t => { t with areg := [(5, 0x1004)] }) cALIGN 0x1004) = true ∧
    [Instr.amoxFadd32 9 5 15, .cas 5 5 6 0 3, .waita 5 5 0 3].all (fun i =>
      traps i (withTh m0 fun t => { t with areg := [(5, 0x1002)] }) cALIGN 0x1002) = true ∧
    [Instr.barr 9 5 8, .barrt 9 5 8, .binit 9 5 8].all (fun i =>
      traps i (withTh m0 fun t => { t with areg := [(5, 0x1008)] }) cALIGN 0x1008) = true ∧
    [Instr.barr 9 1 0, .barrt 9 1 0, .binit 9 1 0, .barr 9 1 13].all (fun i =>
      traps i (withCur a0 fun c => { c with gpr := [(13, 0x10000)] }) cILL ((encode i).setWidth 64)) = true := by decide +kernel

/-- Loads, Stores, Atomics and AccessFrame: an access this device answers, of each kind and class. -/
theorem meets_accesses : holds m0 (do
      let r ← opened (eaOf (← get) 1 0) 8 .read .acquire false
      let s ← get
      return r.here s && !badUnit s r.key 8 && r.key == alcoveAt 0 0x1000 && !awaitingReply s) = true ∧
    holds m0 (do
      let v ← rd 5
      let r ← opened (eaOf (← get) 1 0) 8 .write .release true
      let s ← get
      return v == 12 && r.mode == 0 && !badMerge s r.key 8 && !isMain r.key) = true ∧
    holds m0 (do
      let _ ← rd 8
      let r ← opened 0x1000 4 .atomic .relaxed true
      let s ← get
      return r.mode == 0 && !badUnit s r.key 4 && !launchFlag m0 m0.th 0) = true ∧
    [(0x1122334455667788, false, (2 : BitVec 2)), (12, true, 3)].all (fun (p : Nat × Bool × BitVec 2) => holds (at1 a0 p.1) (do
      let e ← rd 5
      let _ ← rd 6
      let r ← openedCas 0x1000 8 (casClass p.2.2 p.2.1) p.2.1
      let s ← get
      return r.mode == 0 && !badUnit s r.key 8 && (readLE (at1 a0 p.1) r.key 8 == e.toNat) == p.2.1 && !awaitingReply s)) = true := by
  decide +kernel

/-- Atomics on −2, with B = s8 = 1: the old value, and what stands there then. -/
theorem test_atomics : [(Instr.amoAdd 9 1 8, 0xFFFFFFFFFFFFFFFF), (.amoAnd 9 1 8, 0), (.amoOr 9 1 8, 0xFFFFFFFFFFFFFFFF),
    (.amoXor 9 1 8, 0xFFFFFFFFFFFFFFFF), (.amoMin 9 1 8, 0xFFFFFFFFFFFFFFFE), (.amoMax 9 1 8, 1), (.amoMinu 9 1 8, 1),
    (.amoMaxu 9 1 8, 0xFFFFFFFFFFFFFFFE), (.amoSwap 9 1 8, 1), (.amoaAdd 9 1 8, 0xFFFFFFFFFFFFFFFF), (.amoaAnd 9 1 8, 0),
    (.amoaOr 9 1 8, 0xFFFFFFFFFFFFFFFF), (.amoaXor 9 1 8, 0xFFFFFFFFFFFFFFFF), (.amoaMin 9 1 8, 0xFFFFFFFFFFFFFFFE),
    (.amoaMax 9 1 8, 1), (.amoaMinu 9 1 8, 1), (.amoaMaxu 9 1 8, 0xFFFFFFFFFFFFFFFE), (.amoaSwap 9 1 8, 1),
    (.amolAdd 9 1 8, 0xFFFFFFFFFFFFFFFF), (.amolAnd 9 1 8, 0), (.amolOr 9 1 8, 0xFFFFFFFFFFFFFFFF),
    (.amolXor 9 1 8, 0xFFFFFFFFFFFFFFFF), (.amolMin 9 1 8, 0xFFFFFFFFFFFFFFFE), (.amolMax 9 1 8, 1), (.amolMinu 9 1 8, 1),
    (.amolMaxu 9 1 8, 0xFFFFFFFFFFFFFFFE), (.amolSwap 9 1 8, 1), (.amoxAdd 9 1 8, 0xFFFFFFFFFFFFFFFF), (.amoxAnd 9 1 8, 0),
    (.amoxOr 9 1 8, 0xFFFFFFFFFFFFFFFF), (.amoxXor 9 1 8, 0xFFFFFFFFFFFFFFFF), (.amoxMin 9 1 8, 0xFFFFFFFFFFFFFFFE),
    (.amoxMax 9 1 8, 1), (.amoxMinu 9 1 8, 1), (.amoxMaxu 9 1 8, 0xFFFFFFFFFFFFFFFE), (.amoxSwap 9 1 8, 1)].all
    (fun (p : Instr × Nat) => does p.1 (at1 a0 0xFFFFFFFFFFFFFFFE) fun t =>
      Store.get 0 t.cur.gpr 9 == 0xFFFFFFFFFFFFFFFE && readLE t (alcoveAt 0 0x1000) 8 == p.2) = true := by decide +kernel

/-- 1.5 + 1.5 in FP32, and in FP64. -/
theorem test_atomic_sums :
    [Instr.amoFadd32 9 1 15, .amoaFadd32 9 1 15, .amolFadd32 9 1 15, .amoxFadd32 9 1 15].all (fun i =>
      does i (at1 a0 0x773FC00000) fun t => Store.get 0 t.cur.gpr 9 == 0x3FC00000 &&
        readLE t (alcoveAt 0 0x1000) 8 == 0x7740400000) = true ∧
    [Instr.amoFadd64 9 1 11, .amoaFadd64 9 1 11, .amolFadd64 9 1 11, .amoxFadd64 9 1 11].all (fun i =>
      does i (at1 a0 0x3FF8000000000000) fun t => Store.get 0 t.cur.gpr 9 == 0x3FF8000000000000 &&
        readLE t (alcoveAt 0 0x1000) 8 == 0x4008000000000000) = true := by decide +kernel

/-- CAS: equal and not, of 8 and of 4 bytes. -/
theorem test_cas : does (.cas 5 1 6 1 0) (at1 a0 12) (fun t => Store.get 0 t.cur.gpr 5 == 12 &&
      readLE t (alcoveAt 0 0x1000) 8 == 5) = true ∧
    does (.cas 5 1 6 1 1) (at1 a0 13) (fun t => Store.get 0 t.cur.gpr 5 == 13 && readLE t (alcoveAt 0 0x1000) 8 == 13) = true ∧
    does (.cas 5 1 6 0 3) (at1 a0 0xA0000000C) (fun t => Store.get 0 t.cur.gpr 5 == 12 &&
      readLE t (alcoveAt 0 0x1000) 8 == 0xA00000005) = true := by decide +kernel

/-- An outstanding copy. -/
def copy0 : Copy := ⟨0, [], [], [], 0, 0, 0, 0, 0, [], [], [], 0, false⟩
/-- FencesAndWaits: nothing outstanding; an engine transfer outstanding. -/
theorem test_fence : [Instr.fence 0 0, .fence 1 1, .fence 1 2].all (fun i => holds a0 (do boundary; return true) && does i a0 fun t =>
      t.cur.pc == 0x200000004 && t.cur.park == none) = true ∧
    does (.fence 1 0) (withTh a0 fun t => { t with copies := [copy0] }) (fun t => t.cur.park == some .work) = true ∧
    does (.fence 0 0) (withTh a0 fun t => { t with copies := [copy0] }) (fun t => t.cur.park == none) = true := by
  decide +kernel

/-- WAITA: each condition at its boundary, and one that waits; VWAIT: ahead by 3, at its base with END, and neither. -/
theorem test_waits : [(Instr.waita 5 1 1 0, 12), (.waita 5 1 1 1, 11), (.waita 5 1 1 2, 12), (.waita 5 1 1 3, 11)].all
      (fun (p : Instr × Nat) => does p.1 (at1 a0 p.2) fun t => Store.get 0 t.cur.gpr 5 == BitVec.ofNat 64 p.2 &&
        t.cur.pc == 0x200000004 && t.cur.stat == 0) = true ∧
    does (.waita 5 1 0 0) (at1 a0 0x1_0000_000C) (fun t => t.cur.pc == 0x200000004) = true ∧
    does (.waita 5 1 1 3) (at1 a0 12) (fun t => t.cur.pc == 0x200000000 && t.cur.park == some .waita) = true ∧
    does (.vwait 9 1 5) (at1 a0 3) (fun t => Store.get 0 t.cur.gpr 9 == 3 && t.cur.arm == 3 && t.cur.stat == 0) = true ∧
    does (.vwait 9 1 5) (at1 a0 13) (fun t => Store.get 0 t.cur.gpr 9 == 12 && t.cur.arm == 12) = true ∧
    does (.vwait 9 1 5) (at1 a0 0x8000000000000000) (fun t => Store.get 0 t.cur.gpr 9 == 0 && t.cur.arm == 0) = true ∧
    does (.vwait 9 1 5) (at1 a0 0) (fun t => t.cur.park == some .vwait) = true := by decide +kernel

/-! The worked table of R195: expected 4; counts 1 in turn, then 2 that overrun -/

/-- A barrier object at the address in a1, of a state of the table. -/
def barrier (e a p : Nat) : State :=
  writeLE a0 (alcoveAt 0 0x1000) 16 (Barrier.toNat { (Barrier.ofNat 0) with exp := e, arr := a, ph := p })

/-- Barriers: dissolved, an object of zeros, below, at and above the expected count. -/
theorem test_arrivals : (arrive { (Barrier.ofNat 0) with exp := 4, dis := true } 1 5).2 = 3 ∧ (arrive (Barrier.ofNat 0) 1 5).2 = 3 ∧
    (arrive { (Barrier.ofNat 0) with exp := 4, arr := 2 } 1 5).2 = 0 ∧
    (arrive { (Barrier.ofNat 0) with exp := 4, arr := 3, ph := 15 } 1 5).2 = 1 ∧
    (arrive { (Barrier.ofNat 0) with exp := 4, arr := 3, ph := 15 } 1 5).1.ph = 0 ∧
    (arrive { (Barrier.ofNat 0) with exp := 4, arr := 3 } 2 5).2 = 2 ∧
    (arrive { (Barrier.ofNat 0) with exp := 4, res := 1 } 1 5).2 = 3 ∧ (arrive { (Barrier.ofNat 0) with exp := 4, last := 2 ^ 24 } 1 5).2 = 3 ∧
    (Barrier.ofNat (4 * 2 ^ 112 + 3 * 2 ^ 88)).res = 3 := by decide +kernel

theorem test_barriers :
    does (.barr 9 1 8) (barrier 4 2 0) (fun t => Store.get 0 t.cur.gpr 9 == 0x30000 && t.cur.stat == 0) = true ∧
    does (.barr 9 1 8) (barrier 4 3 0) (fun t => Store.get 0 t.cur.gpr 9 == 1 && t.cur.stat == 1 &&
      (Barrier.ofNat (readLE t (alcoveAt 0 0x1000) 16)).ph == 1) = true ∧
    does (.barr 9 1 6) (barrier 4 2 1) (fun t => Store.get 0 t.cur.gpr 9 == 0x20012 && t.cur.stat == 2) = true ∧
    does (.barrt 9 1 6) (barrier 4 2 1) (fun t => Store.get 0 t.cur.gpr 9 == 0x20012 && t.cur.cause == 0x0C &&
      t.cur.epc == 0x200000004 && t.cur.einfo == 0x1000) = true ∧
    does (.barrt 9 1 8) (barrier 4 1 1) (fun t => Store.get 0 t.cur.gpr 9 == 0x20010 && t.cur.cause == 0) = true ∧
    does (.binit 9 1 6) a0 (fun t => readLE t (alcoveAt 0 0x1000) 16 == 5 * 2 ^ 112 && Store.get 0 t.cur.gpr 9 == 0) = true ∧
    does (.bdiss 9 1) (barrier 4 2 1) (fun t => (Barrier.ofNat (readLE t (alcoveAt 0 0x1000) 16)).dis) = true := by decide +kernel

/-- BWAIT: another phase, a bound of 0, dissolved, and one that waits. -/
theorem test_bwait :
    does (.bwait 0 1 5) (barrier 4 2 1) (fun t => t.cur.stat == 0 && t.cur.pc == 0x200000004) = true ∧
    does (.bwait 8 1 0) (barrier 4 2 1) (fun t => Store.get 0 t.cur.gpr 8 == 0x11 && t.cur.stat == 2) = true ∧
    does (.bwait 8 1 7) (barrier 0 0 1) (fun t => Store.get 0 t.cur.gpr 8 == 0x12 && t.cur.stat == 4) = true ∧
    does (.bwait 8 1 7) (withCur (barrier 4 2 3) fun c => { c with freed := some (0x200000000, 1) }) (fun t => Store.get 0 t.cur.gpr 8 == 0x12 &&
      t.cur.stat == 4) = true ∧
    does (.bwait 8 1 7) (barrier 4 2 1) (fun t => t.cur.park == some .bwait && t.cur.pc == 0x200000000) = true := by decide +kernel

/-! ## Vector instructions: v1 and v2 are the sources, v3 the destination, of four elements -/

/-- A register whose low elements are the codes given. -/
def vec (w : Nat) (l : List Nat) : VReg :=
  BitVec.ofNat 16384 ((l.zip (List.range l.length)).foldl (fun acc p => acc + p.1 * 2 ^ (p.2 * w)) 0)
/-- Stream X with a vtype and sources; v3 holds sevens, p3 selects elements 0 and 2, and is the governing predicate. -/
def vx (vt : BitVec 4) (a b : List Nat) : State :=
  let w := vwidth vt.toNat
  withTh { x0 with th := { x0.th with x := { x0.th.x with vtype := vt } } } fun t =>
    { t with vreg := [(1, vec w a), (2, vec w b), (3, vec w [7, 7, 7, 7, 7])], pred := [(3, 5)], gpred := 3 }
/-- Its checks of issue hold, and it leaves these elements of width `w` at the bottom of v3. -/
noncomputable def leaves (i : Instr) (s : State) (w : Nat) (l : List Nat) : Bool :=
  lands i s fun t => (List.range l.length).map (elem (t.th.vr 3) w) == l && t.cur.pc == s.cur.pc + 4

/-- VectorLanes, VectorPermutes, Reductions and the others: the premises on the registers and on what is in flight. -/
theorem meets_vectors : Ready (.vadd 3 1 2 1) (vx 4 [1] [2]) = true ∧ placed (vx 4 [1] [2]) false = true ∧
    placed (vx 4 [1] [2]) true = true ∧ (vx 4 [1] [2]).th.idle = true ∧
    destFree (vx 4 [1] [2]) 3 0 = true ∧ destFree (vx 4 [1] [2]) 3 1 = true ∧
    (holds (vx 4 [1] [2]) fun s => (ready s [1, 2]).map fun r => (r.2 == s, r.2)) = true ∧
    (holds (vx 4 [1] [2]) fun s => (ready (landed s) [1]).map fun r => (r.2.th.x.vl == 4, r.2)) = true := by decide +kernel

/-- A chunk popped from an inbound stream, one pushed to an outbound stream, and a full outbound stream. -/
theorem test_vector_streams :
    leaves (.vadd 3 1 2 0) (withTh (vx 4 [1] [5, 5]) fun t =>
      { t with bind := [(1, 0)], vs := [(0, ⟨[⟨vec 32 [9, 8], 2, false, false, false⟩], false⟩)] }) 32 [14, 13, 0, 0, 7] = true ∧
    lands (.vadd 3 1 2 0) (withTh (vx 4 [1] [5]) fun t => { t with bind := [(3, 8)] }) (fun t =>
      ((t.th.vstream 8).chunks.map fun c => (c.count, elem c.data 32 0)) == [(4, 6)]) = true ∧
    after (.vadd 1 3 2 0) (withTh (vx 4 [1] [5]) fun t => { t with bind := [(3, 0)] }) (fun t =>
      t.cur.park == some (.popV 0)) = true := by decide +kernel

/-- Integers: of bytes 200 = −56 and 100, signed and unsigned; an element that is masked off; one beyond vl. -/
theorem test_vint : [(Instr.vadd 3 1 2 0, 44), (.vsub 3 1 2 0, 100), (.vmul 3 1 2 0, 32), (.vmulh 3 1 2 0, 0xEA),
      (.vmin 3 1 2 0, 200), (.vmax 3 1 2 0, 100), (.vadds 3 1 2 0, 44), (.vsubs 3 1 2 0, 128), (.vand 3 1 2 0, 64),
      (.vor 3 1 2 0, 236), (.vxor 3 1 2 0, 172), (.vshl 3 1 2 0, 128), (.vshr 3 1 2 0, 12), (.vsra 3 1 2 0, 0xFC),
      (.vandn 3 1 2 0, 136)].all (fun (p : Instr × Nat) => leaves p.1 (vx 0 [200] [100]) 8 [p.2]) = true ∧
    [(Instr.vmulh 3 1 2 0, 78), (.vmin 3 1 2 0, 100), (.vadds 3 1 2 0, 255), (.vsubs 3 1 2 0, 100)].all (fun (p : Instr × Nat) =>
      leaves p.1 (vx 1 [200] [100]) 8 [p.2]) = true ∧
    leaves (.vadd 3 1 2 1) (vx 6 [1, 2, 3, 4, 5] [10, 10, 10, 10, 10]) 64 [11, 7, 13, 7, 7] = true ∧
    leaves (.vadd 3 3 3 0) (vx 4 [] []) 32 [14, 14, 14, 14, 7] = true := by decide +kernel

/-- Floating point: 1.5 and 2 as FP32, 1.5 as FP16 and BF16, 4 as FP64. -/
theorem test_vfp : [(Instr.vfadd 3 1 2 0, 0x40600000), (.vfsub 3 1 2 0, 0xBF000000), (.vfmul 3 1 2 0, 0x40400000),
      (.vfdiv 3 1 2 0, 0x3F400000), (.vfmin 3 1 2 0, 0x3FC00000), (.vfmax 3 1 2 0, 0x40000000), (.vfabs 3 1 0, 0x3FC00000),
      (.vfneg 3 1 0, 0xBFC00000), (.vfclass 3 1 0, 64), (.vfrint 3 1 0, 0x40000000), (.vlog2 3 2 0, 0x3F800000),
      (.vexp2 3 2 0, 0x40800000)].all (fun (p : Instr × Nat) => leaves p.1 (vx 10 [0x3FC00000] [0x40000000]) 32 [p.2]) = true ∧
    leaves (.vfsqrt 3 1 0) (vx 11 [0x4010000000000000] []) 64 [0x4000000000000000] = true ∧
    leaves (.vfrsq 3 1 0) (vx 10 [0x40800000] []) 32 [0x3F000000] = true ∧
    leaves (.vfadd 3 1 1 0) (vx 8 [0x3E00] []) 16 [0x4200] = true ∧ leaves (.vfadd 3 1 1 0) (vx 9 [0x3FC0] []) 16 [0x4040] = true ∧
    leaves (.vfneg 3 1 0) (vx 12 [0x38] []) 8 [0xB8] = true := by decide +kernel

/-- d = 2 times 1.5 added to, and taken from, 2; a fault that fmode enables is marked at its element. -/
theorem test_vfma :
    leaves (.vfma 3 1 2 0) (withTh (vx 10 [0x3FC00000] [0x40000000]) fun t => t.setVr 3 (vec 32 [0x3F800000]))
      32 [0x40800000] = true ∧
    leaves (.vfms 3 1 2 0) (withTh (vx 10 [0x3FC00000] [0x40000000]) fun t => t.setVr 3 (vec 32 [0x3F800000]))
      32 [0xC0000000] = true ∧
    lands (.vfdiv 3 1 2 0) (withCur (vx 10 [0x3F800000, 0x3F800000] [0x3F800000, 0]) fun c => { c with fmode := 0x78 }) (fun t =>
      t.th.fmask == 12) = true := by decide +kernel

theorem test_vmoves : leaves (.vmov 3 1 1) (vx 4 [1, 2, 3, 4] []) 32 [1, 7, 3, 7] = true ∧
    leaves (.viota 3 0) (withCur (vx 2 [] []) fun c => { c with sbase := 0xFFFE }) 16 [0xFFFE, 0xFFFF, 0, 1, 7] = true ∧
    leaves (.vsplat 3 5 1) (vx 4 [] []) 32 [12, 7, 12, 7] = true ∧
    leaves (.vins 3 5 8) (vx 4 [] []) 32 [7, 12, 7] = true ∧ leaves (.vins 3 5 6) (vx 4 [] []) 32 [7, 7, 7, 7, 7] = true ∧
    gives (.vext 9 1 8) (vx 0 [0, 200] []) 9 0xFFFFFFFFFFFFFFC8 = true ∧ gives (.vext 9 1 8) (vx 1 [0, 200] []) 9 200 = true ∧
    gives (.vext 9 1 6) (vx 1 [1, 2, 3, 4, 5, 6] []) 9 0 = true ∧
    lands .vclrf (withTh (vx 4 [] []) fun t => { t with fmask := 5 }) (fun t => t.th.fmask == 0) = true ∧
    leaves (.vmerge 3 1 2) (vx 4 [1, 2, 3, 4] [5, 6, 7, 8]) 32 [1, 6, 3, 8, 7] = true ∧
    traps (.vmerge 3 1 2) (withTh (vx 4 [1] [2]) fun t => { t with fmask := 6 }) cFPX 2 = true ∧
    after (.vadd 3 1 2 0) (withTh (vx 4 [1] [2]) fun t => { t with fmask := 6 }) (fun u =>
      does (.vmerge 3 1 2) u fun t => t.cur.park == some .work) = true := by decide +kernel

/-- The mixer's halves at sbase 0 (R32), and the uniform of the same word. -/
theorem test_vrandom : leaves (.vrndl 3 0) (vx 4 [] []) 32 [(nmx 0 0).toNat % 2 ^ 32, (nmx 0 1).toNat % 2 ^ 32] = true ∧
    leaves (.vrndh 3 0) (vx 4 [] []) 32 [(nmx 0 0).toNat / 2 ^ 32] = true ∧
    lands (.vrndu 3 0) (vx 10 [] []) (fun t => 0 < elem (t.th.vr 3) 32 0 && elem (t.th.vr 3) 32 0 < 0x3F800000) = true := by
  decide +kernel

/-- Conversions of 1.5, of −2, and of 300 clamped; VCVCI with vl above VLMAX of the wider format. -/
theorem test_vcvt : leaves (.vcvfh 3 1) (vx 8 [0x3E00] []) 32 [0x3FC00000] = true ∧
    leaves (.vcvfb 3 1) (vx 8 [0x3FC0] []) 32 [0x3FC00000] = true ∧ leaves (.vcvfe4 3 1) (vx 0 [0x3C] []) 32 [0x3FC00000] = true ∧
    leaves (.vcvfe5 3 1) (vx 0 [0x3E] []) 32 [0x3FC00000] = true ∧
    [(Instr.vcvhf 3 1, 16, 0x3E00), (.vcvbf 3 1, 16, 0x3FC0), (.vcve4f 3 1, 8, 0x3C), (.vcve5f 3 1, 8, 0x3E), (.vcvif 3 1, 32, 2),
      (.vcvdf 3 1, 64, 0x3FF8000000000000)].all (fun (p : Instr × Nat × Nat) =>
        leaves p.1 (vx 10 [0x3FC00000] []) p.2.1 [p.2.2]) = true ∧
    leaves (.vcvfi 3 1) (vx 4 [0xFFFFFFFE] []) 32 [0xC0000000] = true ∧
    leaves (.vcvfd 3 1) (vx 11 [0x3FF8000000000000] []) 32 [0x3FC00000] = true ∧
    leaves (.vcvci 3 1) (vx 4 [300, 0xFFFFFFFE] []) 8 [127, 0xFE] = true ∧
    leaves (.vcvic 3 1) (vx 0 [0xFE] []) 32 [0xFFFFFFFE] = true ∧ leaves (.vcvfc 3 1) (vx 0 [0xFE] []) 32 [0xC0000000] = true ∧
    traps (.vcvci 3 1) (withCur (vx 4 [] []) fun c => { c with vl := 513 }) cILL ((encode (.vcvci 3 1)).setWidth 64) = true ∧
    leaves (.vcvfh 1 1) (vx 8 [0x3E00] []) 16 [] = true := by decide +kernel

/-- Scaled codes with record 1: INT8, and E4M3 in blocks of 32, with scale byte 128 = 2 (R162 to R165); 600 is the example of R165. -/
def vtid (vt : BitVec 4) (a : List Nat) (f blk : Byte) : State :=
  let s := vx vt a []
  { s with parts := [(1, { getPart s 1 with tids := [(12, [f, 0, blk, if blk = 0 then 0 else 1] ++ List.replicate 28 0)] })] }
theorem test_scaled_codes : tidFmt (tidAt (vtid 10 [] 0x13 5) 12) = 0x13 ∧ tidBlk (tidAt (vtid 10 [] 0x13 5) 12) = 5 ∧
    leaves (.vdeq 3 1 5 0) (withTh (vtid 10 [] 0x13 5) fun t => { t with vreg := [(1, BitVec.ofNat 16384 (0x3C + 128 * 2 ^ (8 * 0x600)))] })
      32 [0x40400000] = true ∧
    leaves (.vqnt 3 1 5 0) (vtid 10 [0x3FC00000] 0x13 0) 8 [0x7C] = true ∧
    lands (.vqnt 3 1 5 0) (vtid 10 [0x44160000] 0x13 5) (fun t => elem (t.th.vr 3) 8 0 == 0x79 && elem (t.th.vr 3) 8 0x600 == 128) =
      true ∧
    lands (.vqnt 3 1 5 0) (vtid 10 [0x7F800000, 0x3FC00000] 0x13 5) (fun t => elem (t.th.vr 3) 8 0 == 0x7F && elem (t.th.vr 3) 8 1 == 0x7F &&
      elem (t.th.vr 3) 8 0x600 == 255) = true ∧
    lands (.vqnt 3 1 5 0) (vtid 10 [0, 0] 0x01 5) (fun t => elem (t.th.vr 3) 8 0 == 0 && elem (t.th.vr 3) 8 0x600 == 127) = true ∧
    does (.vcvin 3 1) (withTh (vx 10 [] []) fun t => { t with vreg := [(1, BitVec.allOnes 16384)] }) (fun t =>
      t.cur.pc == 0x200000004) = true := by decide +kernel

/-! ## Permutes, predicates, reductions, scans -/

theorem test_vpermutes : leaves (.vperm 3 1 2 0) (vx 4 [10, 11, 12, 13, 14] [3, 0, 4, 1]) 32 [13, 10, 0, 11, 7] = true ∧
    leaves (.vzip 3 1 2 0) (vx 4 [10, 11] [20, 21]) 32 [10, 20, 11, 21, 7] = true ∧
    leaves (.vuzp 3 1 2 0) (vx 4 [10, 11, 12, 13] [20, 21, 22, 23]) 32 [10, 12, 20, 22, 7] = true ∧
    leaves (.vrev 3 1 1) (vx 4 [10, 11, 12, 13] []) 32 [13, 7, 11, 7] = true ∧
    leaves (.vslup 3 1 8 0) (vx 4 [10, 11, 12, 13] []) 32 [0, 10, 11, 12, 7] = true ∧
    leaves (.vslup 3 1 7 0) (vx 4 [10, 11, 12, 13] []) 32 [0, 0, 0, 0, 7] = true ∧
    leaves (.vsldn 3 1 8 1) (vx 4 [10, 11, 12, 13] []) 32 [11, 7, 13, 7] = true ∧
    leaves (.vsldn 3 1 7 0) (vx 4 [10, 11, 12, 13] []) 32 [0, 0, 0, 0] = true ∧
    leaves (.vcomp 3 1 1) (vx 4 [10, 11, 12, 13] []) 32 [10, 12, 7] = true ∧
    leaves (.vexpd 3 1 1) (vx 4 [10, 11, 12, 13] []) 32 [10, 7, 11, 7] = true := by decide +kernel

/-- What a predicate holds. -/
noncomputable def marks (i : Instr) (s : State) (p : Nat) (v : Mask) : Bool := lands i s fun t => predVal t.th p == v
theorem test_vcmp : [(Instr.vcmp 4 1 2 0 0, 0b0010), (.vcmp 4 1 2 0 1, 0b1101), (.vcmp 4 1 2 0 2, 0b1001), (.vcmp 4 1 2 0 3, 0b1011),
      (.vcmp 4 1 2 0 4, 0b0100), (.vcmp 4 1 2 1 5, 0b0100), (.vcmpx 4 1 5 0 2, 0b1011), (.vcmpx 4 1 5 1 4, 0b0100)].all
      (fun (p : Instr × Mask) => marks p.1 (vx 0 [1, 5, 50, 200, 9] [2, 5, 3, 4, 9]) 4 p.2) = true ∧
    marks (.vcmp 0 1 1 0 0) (vx 0 [1] []) 0 (BitVec.allOnes 2048) = true ∧
    lands (.vcmp 4 1 2 0 2) (withCur (vx 10 [0x7FC00000] [0]) fun c => { c with fmode := 0x08 }) (fun t =>
      t.th.fmask == 1 && predVal t.th 4 == 0) = true := by decide +kernel

def vp : State := withTh (vx 4 [] []) fun t => { t with pred := [(1, 0x3C), (2, 0x0A)], fmask := 0x1F }
theorem test_predicates :
    [(Instr.pand 4 1 2, 8), (.por 4 1 2, 14), (.pxor 4 1 2, 6), (.pandn 4 1 2, 4), (.pnot 4 1, 3), (.pmov 4 1, 12), (.pset 4, 15),
      (.pclr 1, 0), (.vfmsk 4, 15), (.pcnt 4 8, 1), (.pcnt 4 7, 15), (.pcntt 4 7, 15)].all (fun (p : Instr × Mask) =>
        marks p.1 vp (if p.2 == 0 then 1 else 4) p.2) = true ∧
    gives (.ppop 9 1) vp 9 2 = true ∧ gives (.pfirst 9 1) vp 9 2 = true ∧ gives (.plast 9 1) vp 9 3 = true ∧
    gives (.pfirst 9 5) vp 9 0xFFFFFFFFFFFFFFFF = true ∧ gives (.plast 9 5) vp 9 0xFFFFFFFFFFFFFFFF = true := by decide +kernel

/-- Reductions of 200, 100, 3, 4 as signed bytes; of no element; of floating elements, of one quiet NaN. -/
theorem test_reductions : [(Instr.vrsum 9 1 0, 51), (.vrand 9 1 0, 0), (.vror 9 1 0, 0xEF), (.vrxor 9 1 0, 0xAB),
      (.vrmin 9 1 0, 0xFFFFFFFFFFFFFFC8), (.vrmax 9 1 0, 100), (.vrsum 9 1 1, 0xFFFFFFFFFFFFFFCB), (.vrmax 9 1 1, 3)].all
      (fun (p : Instr × Dword) => gives p.1 (vx 0 [200, 100, 3, 4, 1] []) 9 p.2) = true ∧
    gives (.vrmin 9 1 0) (withCur (vx 1 [5] []) fun c => { c with vl := 0 }) 9 255 = true ∧
    gives (.vrmax 9 1 0) (withCur (vx 0 [5] []) fun c => { c with vl := 0 }) 9 0xFFFFFFFFFFFFFF80 = true ∧
    gives (.vrmin 9 1 0) (vx 10 [0x3F800000, 0xBF800000, 0, 0x40000000] []) 9 0xBF800000 = true ∧
    gives (.vrmax 9 1 0) (vx 10 [0x3F800000, 0xBF800000, 0, 0x40000000] []) 9 0x40000000 = true := by decide +kernel

/-- VFSUM of 1, 2, 3, 4 gives two full nodes above; VTREE of one leaf; a strip before what is held. -/
theorem test_trees : lands (.vfsum 1 0) (vx 10 [0x3F800000, 0x40000000, 0x40400000, 0x40800000] []) (fun t => t.th.tree.live &&
      t.th.tree.next == 4) = true ∧
    gives (.vtree 9) (vx 10 [] []) 9 0 = true ∧
    (match Sys2Proof.Machine.exec (.vfsum 1 0) (vx 10 [0x3F800000, 0x40000000, 0x40400000, 0x40800000] []) with
      | .next t => gives (.vtree 9) t 9 0x41200000 && traps (.vfsum 1 0) t cILL ((encode (.vfsum 1 0)).setWidth 64)
      | _ => false) = true := by decide +kernel

theorem test_best : leaves (.vargmax 3 1 0) (vx 0 [5, 200, 100, 100] []) 8 [100, 7] = true ∧
    lands (.vargmax 3 1 0) (vx 0 [5, 200, 100, 100] []) (fun t => elem (t.th.vr 4) 64 0 == 2) = true ∧
    lands (.vargmin 3 1 0) (vx 0 [5, 200, 100, 200] []) (fun t => elem (t.th.vr 3) 8 0 == 200 && elem (t.th.vr 4) 64 0 == 1) = true ∧
    lands (.vargmaxc 3 1 0) (vx 4 [5, 6, 7, 7] []) (fun t => elem (t.th.vr 3) 32 0 == 7 && elem (t.th.vr 4) 64 0 == 0) = true ∧
    lands (.vargmax 3 1 0) (vx 10 [0x7FC00000, 0x7FC00000, 0x7FC00000, 0x7FC00000] []) (fun t =>
      elem (t.th.vr 3) 32 0 == 0x7FC00000 && elem (t.th.vr 4) 64 0 == 2 ^ 64 - 1) = true := by decide +kernel

/-- Scans of 1, 2, 3, 250, and by segments that begin at elements 0 and 2. -/
theorem test_scans : leaves (.vscan 3 1 0) (vx 1 [1, 2, 3, 250] []) 8 [1, 3, 6, 0, 7] = true ∧
    leaves (.vscan 3 1 1) (vx 1 [1, 2, 3, 250] []) 8 [1, 3, 3, 253, 7] = true ∧
    leaves (.vscanx 3 1 0) (vx 1 [1, 2, 3, 250] []) 8 [0, 1, 3, 6, 7] = true ∧
    leaves (.vmscan 3 1 0) (vx 0 [1, 200, 3, 2] []) 8 [1, 1, 3, 3, 7] = true ∧
    leaves (.vfscan 3 1 0) (vx 10 [0x3F800000, 0x3F800000] []) 32 [0x3F800000, 0x40000000, 0x40000000, 0x40000000, 7] = true := by
  decide +kernel

theorem test_segments : [(Instr.vsegrAdd 3 1 1, [3, 247]), (.vsegrMin 3 1 1, [1, 250]), (.vsegrMax 3 1 1, [2, 253]),
      (.vsegrAnd 3 1 1, [0, 248]), (.vsegrOr 3 1 1, [3, 255])].all (fun (p : Instr × List Nat) =>
      leaves p.1 (vx 1 [1, 2, 253, 250] []) 8 (p.2 ++ [7, 7, 7])) = true ∧
    [(Instr.vsegrFadd 3 1 1, 0x40400000), (.vsegrFmin 3 1 1, 0x3F800000), (.vsegrFmax 3 1 1, 0x40000000)].all (fun (p : Instr × Nat) =>
      leaves p.1 (vx 10 [0x3F800000, 0x40000000] []) 32 [p.2, 0, 7]) = true := by decide +kernel

/-! ## Streams and engine transfers (R176 to R210) -/

/-- Bytes in the alcove. -/
def put (s : State) (off : Nat) (b : Bytes) : State := writeBytes s (alcoveAt 0 off) b
/-- Address registers. -/
def aregs (s : State) (l : List (Nat × Dword)) : State := withTh s fun t => { t with areg := l }
/-- Chunks in vector streams, each with the elements given at width 32. -/
def chunked (s : State) (l : List (Nat × List Nat)) : State := withTh s fun t =>
  { t with vs := l.map fun e => (e.1, ⟨[⟨vec 32 e.2, e.2.length, false, false, false⟩], false⟩) }
/-- A load in flight: stream, count and the low elements. -/
def loading (t : State) (j n : Nat) (l : List Nat) : Bool :=
  t.th.xfers.map (fun x => (x.vs, x.chunk.count, (List.range l.length).map (elem x.chunk.data 32))) == [(some j, n, l)] &&
    t.cur.stat == 0 && t.cur.pc == 0x200000004

theorem test_bindings : does (.vbin 3 0) x0 (fun t => t.th.bind == [(3, 0)]) = true ∧
    does (.vbout 3 8) x0 (fun t => t.th.bind == [(3, 8)]) = true ∧
    traps (.vbin 3 0) (withTh x0 fun t => { t with bind := [(4, 0)] }) cILL ((encode (.vbin 3 0)).setWidth 64) = true ∧
    traps (.vbin 3 0) (withTh x0 fun t => { t with mbox := [(0, 3)] }) cILL ((encode (.vbin 3 0)).setWidth 64) = true ∧
    does (.vunb 3) x0 (fun t => t.cur.pc == 0x200000004) = true ∧
    [Instr.vbin 3 0, .vbout 1 8, .vunb 3].all (fun i => after (.vadd 3 1 2 0) (vx 4 [1] [2]) fun u =>
      does i u fun t => t.cur.park == some .work && t.th.bind == []) = true ∧
    does (.vunb 3) (withTh x0 fun t => { t with bind := [(3, 7)] }) (fun t => t.th.bind == []) = true ∧
    does (.vunb 3) (withTh x0 fun t => { t with bind := [(3, 8)], mbox := [(1, 3)] }) (fun t =>
      t.th.bind == [] && t.th.mbox == [] && (t.th.vstream 8).chunks.map (fun c => (c.count, c.fin)) == [(0, true)]) = true := by
  decide +kernel

/-- Loads of four words at 0x1000; one that a hole ends at its second element. -/
def words (off : Nat) (l : List Nat) (s : State) : State := put s off (l.flatMap (leBytes 4))
theorem test_stream_loads : does (.sload 3 1) (words 0x1000 [5, 6, 7, 8] a0) (fun t => loading t 3 4 [5, 6, 7, 8, 0]) = true ∧
    does (.sloadTrim 3 1) (words 0x1000 [5, 6, 7, 8] a0) (fun t => loading t 3 4 [5, 6, 7, 8, 0] &&
      t.cur.ftrim == BitVec.allOnes 64) = true ∧
    does (.sloadTrim 3 1) (aregs (words 0xFFFC [5] a0) [(1, 0xFFFC)]) (fun t => loading t 3 1 [5, 0] && t.cur.ftrim == 1 &&
      t.cur.arm == 1) = true ∧ roomIn a0 3 = true ∧
    after (.sload 3 1) (withTh a0 fun t => { t with vs := [(3, ⟨List.replicate 4 ⟨0, 1, false, false, false⟩, false⟩)] }) (fun t =>
      t.cur.park == some (.pushV 3)) = true := by decide +kernel

theorem test_stream_stores :
    does (.sstore 8 1) (chunked a0 [(8, [5, 6])]) (fun t => readLE t (alcoveAt 0 0x1000) 8 == 0x600000005 &&
      (t.th.vstream 8).chunks == [] && t.cur.stat == 0) = true ∧
    does (.sstoreTrim 8 1) (aregs (chunked a0 [(8, [5, 6])]) [(1, 0xFFFC)]) (fun t => readLE t (alcoveAt 0 0xFFFC) 4 == 5 &&
      t.cur.ftrim == 1) = true := by decide +kernel

/-- Slices of a dense INT32 tensor of 4 elements, record 12; and of an empty record. -/
def tidRec (fmt : Byte) (d0 : Byte) : Bytes := [fmt, 0, 0, 0, d0, 0, 1, 0, 1, 0, 1, 0] ++ List.replicate 20 0
def withTid (s : State) (fmt d0 : Byte) : State := { s with parts := [(1, { getPart s 1 with tids := [(12, tidRec fmt d0)] })] }
def tidNi8 (p : Byte) : Bytes := [0x20, p, 0, 0, 4, 0, 1, 0, 1, 0, 1, 0] ++ List.replicate 20 0
def inTid (s : State) (r : Bytes) : State := { s with parts := [(1, { getPart s 1 with tids := [(12, r)] })] }
theorem test_slices : does (.sloadSlice 3 1 5) (withTid (words 0x1000 [5, 6, 7, 8] a0) 3 4) (fun t => loading t 3 4 [5, 6, 7, 8]) =
      true ∧
    does (.sstoreSlice 8 1 5) (withTid (chunked a0 [(8, [5, 6])]) 3 4) (fun t => readLE t (alcoveAt 0 0x1000) 8 == 0x600000005) =
      true ∧
    recordOk (tidNi8 2) = true ∧
    does (.sloadSlice 3 1 5) (aregs (inTid (words 0x1800 [5, 6] a0) (tidNi8 2)) [(1, 0x1800)]) (fun t =>
      t.th.xfers.map (fun x => (x.vs, x.chunk.count)) == [(some 3, 4)] && t.cur.stat == 0) = true ∧
    traps (.sstoreSlice 8 1 5) (inTid a0 (tidNi8 2)) cILL ((encode (.sstoreSlice 8 1 5)).setWidth 64) = true ∧
    does (.sloadSlice 3 1 6) a0 (fun t => t.cur.stat == 0x11 && t.th.xfers == []) = true ∧
    does (.sstoreSlice 8 1 6) a0 (fun t => t.cur.stat == 0x11) = true := by decide +kernel

/-- Indices 2 and 0 of an index stream. -/
theorem test_gathers : [Instr.sgath 3 1 9 2, .sgathc 3 1 9 2].all (fun i =>
      does i (chunked (words 0x1000 [5, 6, 7, 8] a0) [(9, [2, 0])]) fun t => loading t 3 2 [7, 5, 0]) = true ∧
    [Instr.sscat 8 1 9 2, .sscatc 8 1 9 2].all (fun i => does i (chunked a0 [(8, [5, 6]), (9, [1, 0])]) fun t =>
      readLE t (alcoveAt 0 0x1000) 8 == 0x500000006 && t.cur.stat == 0) = true := by decide +kernel

/-- MisalignedAccess: transfers at an address that their elements, or their record, do not divide. -/
theorem test_misaligned_transfers : [Instr.sgath 3 5 9 2, .sgathc 3 5 9 2, .sscat 8 5 9 2, .sscatc 8 5 9 2].all (fun i =>
      traps i (aregs (chunked a0 [(8, [5]), (9, [1])]) [(5, 0x1002)]) cALIGN 0x1002) = true ∧
    [Instr.sload 3 5, .sloadTrim 3 5, .sstore 8 5, .sstoreTrim 8 5].all (fun i =>
      traps i (aregs (withCur (chunked a0 [(8, [5])]) fun c => { c with vtype := 10 }) [(5, 0x1002)]) cALIGN 0x1002) = true ∧
    traps (.sloadSlice 3 5 5) (aregs (withTid a0 3 4) [(5, 0x1002)]) cALIGN 0x1002 = true ∧
    traps (.sstoreSlice 8 5 5) (aregs (withTid (chunked a0 [(8, [5, 6])]) 3 4) [(5, 0x1002)]) cALIGN 0x1002 = true ∧
    traps (.sloadSlice 3 5 5) (aregs (inTid a0 (tidNi8 2)) [(5, 0x1400)]) cALIGN 0x1400 = true := by decide +kernel

/-- A copy of four bytes from 0x3000 to 0x4000; a kind that does not exist; 16 outstanding. -/
def desc (kind : Byte) : Bytes :=
  leBytes 8 0x3000 ++ leBytes 8 0x4000 ++ [0, 0, kind, 0, 0, 0, 0, 0, 4, 0, 1, 0, 1, 0, 1, 0] ++ List.replicate 32 0
def busy (s : State) : State := withTh s fun t => { t with copies := List.replicate 16 copy0 }
theorem test_copies : does (.cpy 1) (put a0 0x1000 (desc 0)) (fun t => t.th.copies.map (fun c => (c.total, c.engine)) == [(4, 0)] &&
      t.cur.stat == 0) = true ∧
    does (.cpy 1) (put a0 0x1000 (desc 3)) (fun t => t.cur.stat == 0x10 && t.th.copies == []) = true ∧
    does (.cpyq 9 1) (put a0 0x1000 (desc 0)) (fun t => Store.get 0 t.cur.gpr 9 == 1 && t.th.copies.length == 1) = true ∧
    does (.cpyq 8 1) (put a0 0x1000 (desc 3)) (fun t => Store.get 0 t.cur.gpr 8 == 0 && t.cur.stat == 0x10) = true ∧
    does (.cpy 1) (busy a0) (fun t => t.cur.park == some .copySlots) = true ∧
    does (.cpyq 8 1) (busy a0) (fun t => Store.get 0 t.cur.gpr 8 == 0 && t.cur.stat == 0x13) = true := by decide +kernel

theorem test_tidset : does (.tidset 5 1) (put a0 0x1000 (tidRec 3 4)) (fun t => tidAt t 12 == tidRec 3 4 && t.cur.stat == 0) = true ∧
    does (.tidset 5 1) (put a0 0x1000 (tidRec 3 0)) (fun t => t.cur.stat == 0x11) = true := by decide +kernel

/-- A state of two qubits at 0x1000, gate blocks at 0x2000 on, a batch at 0x2400 (R241, R242). -/
def svRec : Bytes :=
  leBytes 8 0x8000 ++ [2, 0, 0, 0, 0, 0, 0, 0] ++ leBytes 8 0x1100 ++ List.replicate 16 0 ++ leBytes 36 64 ++ List.replicate 52 0
def gate0 (kind t0 t1 : Byte) : Bytes :=
  leBytes 8 0x1000 ++ [kind, t0, t1] ++ List.replicate 37 0 ++ leBytes 8 0x3000 ++ List.replicate 8 0
def sv0 (b : Bytes) : State := put (put (put a0 0x1000 svRec) 0x2000 b) 0x2400
  (leBytes 8 0x1000 ++ leBytes 8 1 ++ List.replicate 16 0 ++ leBytes 8 0x2000 ++ List.replicate 88 0)
theorem test_state_vectors : svValid svRec = true ∧
    [(Instr.svg1 9 2, gate0 1 0 0), (.svg2 9 2, gate0 2 0 1), (.svph 9 2, gate0 3 0 0), (.svswp 9 2, gate0 4 0 1),
      (.svprob 9 2, gate0 5 1 0), (.svmap 9 1, [])].all (fun (p : Instr × Bytes) => does p.1 (sv0 p.2) fun t =>
        t.th.svcmds.length == 1 && t.cur.stat == 0 && t.cur.pc == 0x200000004) = true ∧
    does (.svrun 9 2) (aregs (sv0 (gate0 1 0 0)) [(2, 0x2400)]) (fun t => t.th.svcmds.length == 1 && t.cur.stat == 0) = true ∧
    does (.svmap 9 1) (withTh (sv0 []) fun t => { t with svcmds := List.replicate 16 ⟨0, 0, [], [], [], 0, 0, 0, 0, [], 0, 0, 0, 0⟩ })
      (fun t => t.cur.stat == 0x22 && Store.get 0 t.cur.gpr 9 == 0x22) = true ∧
    does (.svg1 9 2) (sv0 (gate0 2 0 0)) (fun t => t.cur.stat == 0x21) = true := by decide +kernel

/-- What `Reaches`, `Fetched`, `Gathered` and `Lands` ask, computed: the state they lead to. -/
def reached (a : Acc) : List Run → State → Option (List Piece × State)
  | [], s => some ([], s)
  | r :: rs, s => match resolve (BitVec.ofNat 64 r.va) r.n a s with
    | .ok (t, s1) => if t.mode == 0 then (reached a rs s1).map fun p => ((r, t) :: p.1, p.2) else none
    | .error _ => none
def fetchedOf (g : Nat) (p : Piece) (s : State) : Option (Bytes × State) :=
  match stampEngine s p.1.va p.2 p.1.n g false with
  | .ok s1 => if badUnit s1 p.2.key p.1.n then none else some (readBytes s1 p.2.key p.1.n, siteRecall s1 p.2.key p.1.n)
  | .error _ => none
def fetchedOfAll (g : Nat) : List Piece → State → Option (List (Nat × Bytes) × State)
  | [], s => some ([], s)
  | p :: ps, s => (fetchedOf g p s).bind fun e => (fetchedOfAll g ps e.2).map fun q => ((p.1.off, e.1) :: q.1, q.2)
def gathers (a : Acc) (g : Nat) : List Run → State → Option (List (Nat × Bytes) × State)
  | [], s => some ([], s)
  | r :: rs, s => match resolve (BitVec.ofNat 64 r.va) r.n a s with
    | .ok (t, s1) => if t.mode == 0 then
        (fetchedOf g (r, t) s1).bind fun e => (gathers a g rs e.2).map fun q => ((r.off, e.1) :: q.1, q.2) else none
    | .error _ => none
def landedAll (g : Nat) (quiet : Bool) (data : Bytes) : List Piece → State → Option State
  | [], s => some s
  | p :: ps, s => match stampEngine s p.1.va p.2 p.1.n g true with
    | .ok s1 => if badMerge s1 p.2.key ((data.drop p.1.off).take p.1.n).length then none
        else landedAll g quiet data ps (pieceLanded p ((data.drop p.1.off).take p.1.n) quiet s1)
    | .error _ => none

/-- A copy of kind `k` of the bytes 1 2 3 4 at 0x3000 to 0x4000, where 5 6 7 8 stand, its sides the tensors `src` and `dst`. -/
def copied (k op : Byte) (flags : Byte) (src dst : Bytes) (moved total : Nat) (done : Nat := 0x5000) : State :=
  withTh (writeBytes (writeBytes a0 (alcoveAt 0 0x3000) [1, 2, 3, 4]) (alcoveAt 0 0x4000) [5, 6, 7, 8]) fun t => { t with copies := [⟨0,
    leBytes 8 0x3000 ++ leBytes 8 (if k = 2 then 0 else 0x4000) ++ [0, 0, k, op, flags, 0, 0, 0, 4, 0, 1, 0, 1, 0, 1, 0] ++ leBytes 8 done ++
      leBytes 8 9 ++ List.replicate 16 0, src, dst, 0, 0, moved, total, 1, [], [], [], 0, false⟩] }
def int8 : Bytes := tidRec 1 4
/-- The premises on one piece of it: of its reads, of the destination where the kind reads it, and of its writes. -/
def pieceMeets (s : State) : Bool :=
  match s.th.copies with
  | [c] =>
    let m := pieceLen c c.moved (min (c.total - c.moved) 4096)
    engineTurn s s.th c && !heldEarlier s c.region (c.srcRuns m) false && !heldEarlier s c.region (c.dstRuns m) true &&
      ((gathers .read c.region (c.srcRuns m) s).bind fun g =>
        (if c.readsDst m then gathers (if c.kind == 1 then .atomic else .write) c.region (c.dstRuns m) g.2 else some ([], g.2)).bind fun d =>
        (reached .write (c.dstRuns m) d.2).bind fun w =>
        landedAll c.region false (pieceData c m c.size g.1 d.1) w.1 w.2).isSome &&
      !combinesThere s c (peerLines s (c.dstRuns m))
  | _ => false

/-- EngineWork: a piece of kind 0, of kind 1 with its sums, of kind 2 with its tile. -/
theorem meets_copies : pieceMeets (copied 0 0 0 (List.replicate 32 0) (List.replicate 32 0) 0 4) = true ∧
    pieceMeets (copied 1 1 12 int8 int8 0 4) = true ∧
    (fun s : State => match s.th.copies with
      | [c] => !heldEarlier s c.region (tileRuns c) false && (gathers .read c.region (tileRuns c) s).isSome && engineTurn s s.th c
      | _ => false) (copied 2 0 4 int8 (List.replicate 32 0) 0 4) = true ∧
    after (.copyPiece 0 0) (copied 1 1 12 int8 int8 0 4) (fun t => readLE t (alcoveAt 0 0x4000) 4 == 0x0C0A0806 &&
      t.th.copies.map (·.moved) == [4]) = true ∧
    after (.copyPiece 0 0) (copied 2 0 4 int8 (List.replicate 32 0) 0 4) (fun t =>
      t.th.copies.map (fun c => (c.moved, atD 0 2 c.tile)) == [(4, 3)]) = true := by decide +kernel

/-- Its end: the completion word of 8 bytes and of 4, a tile, and a word that lies beyond the reservation. -/
theorem test_copy_ends : (fun s : State => match s.th.copies with
      | [c] => owed s s.th c.region == false && (match resolve 0x5000 8 .write s with
        | .ok (r, s1) => r.mode == 0 && !heldBy s1 s1.th c.region 0x5000 8 true && !badMerge s1 r.key 8
        | _ => false)
      | _ => false) (copied 0 0 1 (List.replicate 32 0) (List.replicate 32 0) 4 4) = true ∧
    [(1 : Byte), 3].all (fun f => after (.copyCompletion 0 0) (copied 0 0 f (List.replicate 32 0) (List.replicate 32 0) 4 4) fun t =>
      t.th.copies == [] && readLE t (alcoveAt 0 0x5000) 8 == 9) = true ∧
    after (.copyCompletion 0 0) (copied 2 0 5 int8 (List.replicate 32 0) 4 4) (fun t => t.th.copies == [] && t.th.fifo0.length == 1) =
      true ∧
    after (.copyCompletion 0 0) (copied 0 0 1 (List.replicate 32 0) (List.replicate 32 0) 4 4 0x20000) (fun t => t.th.copies == [] &&
      t.th.a.late == some (cPROT, 0x20000)) = true := by decide +kernel

/-- The premises on the first pass of a command: its record and amplitudes read, and its writes. -/
def svMeets (s : State) : Bool :=
  match s.th.svcmds with
  | c :: _ =>
    !heldEarlier s c.region [⟨c.recVa, 128, 0⟩, ⟨field c.recBytes 0 8, 2 ^ field c.recBytes 8 1 * svSize (field c.recBytes 9 1), 0⟩] true &&
    c.phase == 0 && ((reached .read (ampRuns c.recVa 32 4) s).bind fun p => (fetchedOfAll c.region p.1 p.2).bind fun r =>
      let rec_ := placedAll 128 r.1
      let q := field rec_ 8 1
      let sz := svSize (field rec_ 9 1)
      let base := field rec_ 0 8
      if !svValid rec_ || rec_ != c.recBytes || q != 2 then none
      else if c.op == 0 then
        (reached .write (ampRuns base (2 ^ q) sz) r.2).bind fun w => landedAll c.region false ((List.range (2 ^ q)).flatMap fun j =>
          if j = 0 then ampOne 0 else List.replicate sz 0) w.1 w.2
      else (reached .read (ampRuns base (2 ^ q) sz) r.2).bind fun a => (fetchedOfAll c.region a.1 a.2).bind fun g =>
        if c.op == 6 then (reached .write (fieldRuns c.result 8) g.2).bind fun w => landedAll c.region true (leBytes 8 5) w.1 w.2
        else if (swapPlan q (field rec_ 10 1) (field rec_ 0x28 36) c.gates).isNone then none
        else (reached .write (ampRuns base (2 ^ q) sz) g.2).bind fun w => landedAll c.region false ((placedAll (2 ^ q * sz) g.1)) w.1 w.2).isSome
  | _ => false
theorem meets_svPasses : [(Instr.svmap 9 1, []), (.svg1 9 2, gate0 1 0 0), (.svg2 9 2, gate0 2 0 1), (.svph 9 2, gate0 3 0 0),
      (.svswp 9 2, gate0 4 0 1), (.svprob 9 2, gate0 5 1 0)].all (fun (p : Instr × Bytes) => after p.1 (sv0 p.2) svMeets) = true := by
  decide +kernel

/-! ## Matrix engine (R212 to R216) -/

/-- A tile of INT8, of which the code at (k, n) is that at n·K + k: lane 1 has 2, lane 0 has −1. -/
def tile0 : Tile := ⟨1, 0, List.replicate 128 0xFF ++ List.replicate 128 2⟩
def mx0 : State := withTid (withTh (vx 0 [3, 4] []) fun t =>
  { t with fifo1 := [tile0], slot0 := some tile0, acs := [(5, BitVec.ofNat 6144 (10 + 20 * 2 ^ 32))] }) 1 4
theorem test_mtile : does (.mtile 0 1 5) mx0 (fun t => t.th.fifo1.length == 0 && t.th.fill0 && t.th.slot0.isSome) = true ∧
    after (.mtile 0 0 5) mx0 (fun t => t.cur.park == some .tile) = true := by decide +kernel
theorem test_macc : lands (.maccz 3 6) (withTh mx0 fun t => { t with x := { t.x with vtype := 10 } }) (fun t =>
      elem (t.th.vr 3) 32 0 == 10 && elem (t.th.vr 3) 32 1 == 20 && t.th.row 5 == 0) = true ∧
    leaves (.macc 3 6) (withTh mx0 fun t => { t with acs := [(5, BitVec.ofNat 6144 (300 + 20 * 2 ^ 32))] }) 8 [127, 20] = true ∧
    leaves (.maccf 3 6) (withTh (vx 8 [] []) fun t => { t with acs := [(5, BitVec.ofNat 6144 0x3FC00000)] }) 16 [0x3E00] = true ∧
    does (.mzero 6 8) mx0 (fun t => t.th.row 5 == 0) = true ∧ traps (.mzero 6 6) mx0 cPROT 8 = true := by decide +kernel
def ms0 : State := withTh x0 fun t => { t with mseq := 7, minv := true, miovf := true }
theorem test_mstat : gives (.mstat 9) ms0 9 0x700000005 = true ∧ gives (.mstatc 9) ms0 9 0x700000005 = true ∧
    does (.mstatc 9) ms0 (fun t => !t.th.minv && !t.th.movf && !t.th.miovf) = true := by decide +kernel

/-- MROW: codes 3 and 4 against the rows of the tile; lane 0 in place of what row 5 holds, lane 1 added to it; the
row is queued. -/
theorem test_mrow : laneOf tile0 0 (elem (vec 8 [3, 4]) 8) 0 none = (0xFFFFFFF9, 0) ∧
    laneOf tile0 0 (elem (vec 8 [3, 4]) 8) 1 (some 20) = (34, 0) ∧
    pairs tile0.fmt 0 = true ∧ matrixReady mx0 = true ∧
    does (.mrow 6 1 0 0 0) mx0 (fun t => t.th.mseq == 1 && t.rowq.length == 1) = true := by decide +kernel

/-! ## The bounded race (R219 to R230) -/

/-- An open race over four entries: kappa 1, no noise; entry 0 LIVE with score 1 to 2, entry 1 EXACT at 1.5, entry 2
LIVE with score −1 to 0, entry 3 dropped. -/
def race0 : Race := { Race.reset with kappa := 0x3F800000, mode := 0x300, best := 0x3FC00000, bidx := 9, bar := 0x3F000000 }
def rx (a b : List Nat) : State := withTh (vx 10 a b) fun t =>
  { t with
    race := race0
    bound := [(0, ⟨0, 0x3F800000, 0x40000000, 0xC0000000, 0x40000000⟩), (1, ⟨1, 0x3FC00000, 0x3FC00000, 0x3F800000, 0x3F800000⟩),
      (2, ⟨0, 0xBF800000, 0, 0, 0⟩), (3, ⟨2, 0, 0, 0, 0⟩)] }

theorem test_rcopen : lands (.rcopen 9) (withCur (withTh x0 fun t => { t with race := { t.race with kappa := 0x3F800000 } }) fun c =>
      { c with gpr := [(9, 0x200000100)] }) (fun t => t.th.race.mode == 0x300 && t.th.race.nlive == 2 && t.th.race.bar == 0xFF800000 &&
      (t.th.entry 1).st == 0 && (t.th.entry 1).slo == 0xFF800000 && (t.th.entry 2).kind == 3) = true ∧
    traps (.rcopen 9) (withCur x0 fun c => { c with gpr := [(9, 0x200000100)] }) cRACEX 0xFFFFFFFFFFFFFFFF = true := by decide +kernel

theorem test_rcnoise : leaves (.rcnoise 3) (rx [] []) 32 [0, 0, 0, 0, 7] = true ∧
    leaves (.rcnoise 3) (withTh (rx [] []) fun t => { t with race := { t.race with mode := 0x200 } }) 32
      ((List.range 4).map fun k => noiseOf race0.key (race0.base + BitVec.ofNat 64 k)) = true := by decide +kernel

/-- RCSCORE: the logit of entry 0 is met with 0.5 to 1; RCCUT: entry 0 above the bar, entry 2 below it; RCEXACT: entries 0
and 2 take the logits 2 and 3. -/
theorem test_race_entries :
    lands (.rcscore 3 1) (rx [0x3F000000] [0x3F800000]) (fun t => (t.th.entry 0).llo == 0x3F000000 &&
      (t.th.entry 0).lhi == 0x3F800000 && t.th.entry 1 == (rx [] []).th.entry 1) = true ∧
    lands (.rccut 0 1) (rx [0x3F800000, 0x3FC00000, 0xBF800000] [0x40000000, 0x3FC00000, 0]) (fun t =>
      t.th.race.bar == 0x3FC00000 && (t.th.entry 0).kind == 0 && (t.th.entry 2).kind == 2) = true ∧
    lands (.rcexact 0 1) (rx [0x40000000, 0, 0x40400000] []) (fun t => (t.th.entry 0).kind == 1 &&
      (t.th.entry 0).slo == 0x40000000 && (t.th.entry 2).slo == 0x40400000 && t.th.entry 1 == (rx [] []).th.entry 1) = true := by
  decide +kernel

/-- RCPOST kept here; RCMERGE of one record; RCBAR; RCPROB of no winner; the registers; RCCLOSE. -/
theorem test_race_registers :
    does (.rcpost 0 0) (rx [] []) (fun t => t.th.race.slo.toNat ≤ t.th.race.shi.toNat && t.th.race.shi != 0) = true ∧
    lands (.rcmerge 3) (withTh (rx [] []) fun t => { t with mbox := [(0, 3)], hold := [(3, ⟨1, 0⟩)] }) (fun t =>
      t.cur.pc == 0x200000004) = true ∧
    lands (.rcbar 15) (rx [] []) (fun t => t.th.race.bar == 0x3FC00000) = true ∧
    lands (.rcprob 20) (withTh (rx [] []) fun t => { t with race := { t.race with bidx := BitVec.allOnes 64 } }) (fun t =>
      Store.get 0 t.cur.gpr 22 == 0x7FF8000000000000) = true ∧
    gives (.rcget 9 8) (rx [] []) 9 0x3F000000 = true ∧
    traps (.rcprob 20) (withTh (rx [] []) fun t => { t with race := { t.race with wterm := 0x409F400000000000 } }) cRACEX
      (BitVec.allOnes 64) = true ∧
    traps (.rcpost 0 0) (withTh (rx [] []) fun t => { t with bound := [(1, ⟨1, 0x44FA0000, 0x44FA0000, 0x44FA0000, 0x44FA0000⟩)] })
      cRACEX 1 = true ∧
    lands (.rcput 15 0) (withTh (rx [] []) fun t => { t with race := { t.race with mode := 0 } }) (fun t => t.th.race.kappa == 0x3FC00000) =
      true ∧
    lands .rcclose (rx [] []) (fun t => t.th.race.mode == 0x100) = true ∧ putAllowed race0 0 5 = false ∧
    traps (.rcbar 15) (withTh x0 fun t => { t with race := { t.race with mode := 0 } }) cILL ((encode (.rcbar 15)).setWidth 64) = true := by decide +kernel

/-- A race instruction, an accumulator read and a VCLRF are handed over (R265): what they write stands once their final pass
is over, a stop before it lists the race instruction with start 0 (R275, R276), and MROW waits for a reader of its row. -/
theorem test_handed :
    does (.rcbar 15) (rx [] []) (fun t => t.th.race.bar == 0x3F000000 && t.th.flying.length == 1 &&
      (haltThread t t.th .preempt).resume.map (fun e => (e.pc, e.start)) == [(0x200000000, 0)] &&
      (haltThread t t.th .preempt).race == race0) = true ∧
    does .vclrf (withTh (vx 4 [] []) fun t => { t with fmask := 5 }) (fun t => t.th.fmask == 5 && (landed t).th.fmask == 0) = true ∧
    does (.maccz 3 6) mx0 (fun t => rowsRead t (fun r => r == 5) && !rowsRead t (fun r => r == 6) &&
      after (.mrow 6 1 0 0 0) t fun u => u.cur.park == some .work) = true := by decide +kernel

/-- A vector instruction that pops a scalar keeps it for its reissue, which pops nothing (R277); a chunk that waits for room
waits on beside its resume entry (R276). -/
theorem test_kept : does (.vsplat 3 104 0) (queued (vx 4 [] []) 104 [7, 9]) (fun t =>
      t.th.flying.map (fun f => f.x.popped) == [[(104, 7)]] && t.th.queue 104 == [9] && t.cur.popped == [] &&
      elem ((landed t).th.vr 3) 32 0 == 7 &&
      lands (.vsplat 3 104 0) (withTh t fun u => { u with flying := [], startIdx := some 0, x := { u.x with popped := [(104, 7)] } })
        (fun v => elem (v.th.vr 3) 32 0 == 7 && v.th.queue 104 == [9])) = true ∧
    (haltThread a0 (withTh a0 fun t => { t with flying := [⟨0, 0, 0, 0, 0, st0, ⟨false, 128, 32, 32, [], [], false, false, false, []⟩,
      Effect.none, 0, 4, [(8, ⟨5, 1, false, false, false⟩)], 0, none, []⟩] }).th .preempt).resume.map (fun e =>
        (e.start, e.waits.map fun f => f.out.length)) = [(128, some 1)] := by decide +kernel

/-! ## Function registers (R231 to R239): f1 = 1 + 2x and f2 = 3 on [−1, 1] -/

def fx (a : List Nat) : State := withTh (vx 10 a [0, 0x3F000000, 0x40000000, 0x7F800001]) fun t =>
  { t with
    freg := [(1, ⟨some (0xBF800000, 0x3F800000), [0x3F800000, 0x40000000], 0, false, 0⟩),
      (2, ⟨some (0xBF800000, 0x3F800000), [0x40400000], 0, false, 0⟩)]
    x := { t.x with gpr := [(9, 0x3F800000BF800000), (10, 0x40000000), (11, 0xC0000000)] } }
/-- It leaves these coefficients in f3. -/
noncomputable def series (i : Instr) (s : State) (l : List Word) : Bool := lands i s fun t =>
  (t.th.fr 3).coef == l && t.cur.pc == s.cur.pc + 4

theorem test_functions :
    series (.fnset 3 1 9) (fx [0x3F800000, 0x40000000, 0x40400000, 0x40800000]) [0x3F800000, 0x40000000, 0x40400000, 0x40800000] =
      true ∧
    series (.fnadd 3 1 2) (fx []) [0x40800000, 0x40000000] = true ∧ series (.fnmul 3 1 2) (fx []) [0x40400000, 0x40C00000] = true ∧
    series (.fndiff 3 1) (fx []) [0x40000000] = true ∧ series (.fntrunc 3 1) (fx []) [0x3F800000, 0x40000000] = true ∧
    series (.fnscal 3 1 10) (fx []) [0x40000000, 0x40800000] = true ∧ series (.fnscal 3 1 11) (fx []) [0xC0000000, 0xC0800000] =
      true ∧
    series (.fnfree 1) (fx []) [] = true ∧
    lands (.fnfree 1) (fx []) (fun t => t.th.fr 1 == FReg.empty) = true ∧
    fits (fx []) 3 96 = true ∧ fits (fx []) 3 97 = false := by decide +kernel

/-- ∫(1 + 2x) = x + x² less its value at −1: coefficients 0.5, 1, 0.5 (R237). -/
theorem test_fnint : lands (.fnint 3 1) (fx []) (fun t => (t.th.fr 3).coef.length == 3) = true ∧
    lands (.fnfit 3 2 9) (fx []) (fun t => (t.th.fr 3).est && (t.th.fr 3).dom == some (0xBF800000, 0x3F800000)) = true := by
  decide +kernel

/-- FNCOMP's premises: 0.5 is within the domain of f1, and 256 coefficients fit a larger quota. -/
theorem meets_fncomp : (fun s : State => Ready (.fncomp 3 1 4) s && fits s 3 256 && (s.th.fr 4).codes.all finite32 &&
      finite32 (s.th.fr 4).eps.toNat && (fun rad : Dy => le32 (s.th.fr 1).lo (((dy (atD 0 0 (s.th.fr 4).codes)).add rad.neg).round rrd) &&
        le32 (((dy (atD 0 0 (s.th.fr 4).codes)).add rad).round rru) (s.th.fr 1).hi)
        (((s.th.fr 4).codes.drop 1).foldl (fun (a : Dy) c => a.add (dy c).abs) (dy (s.th.fr 4).eps.toNat)))
    (withTh (fx []) fun t => { t with
      coefQuota := 64, freg := (4, ⟨some (0xBF800000, 0x3F800000), [0x3F000000], 0, false, 0⟩) :: t.freg }) = true := by
  decide +kernel

theorem test_fnread : lands (.fnget 3 1) (fx []) (fun t => elem (t.th.vr 3) 32 0 == 0x3F800000 && elem (t.th.vr 3) 32 257 == 0x3F800000) =
      true ∧
    lands (.fneval 3 1 2) (fx []) (fun t => elem (t.th.vr 3) 32 0 == 0x3F800000 && elem (t.th.vr 3) 32 1 == 0x40000000 &&
      elem (t.th.vr 3) 32 2 == 0x7FC00000 && elem (t.th.vr 3) 32 3 == 0x7FC00001 && t.th.fmask == 4) = true ∧
    lands (.fnroot 3 1 20) (fx []) (fun t => Store.get 0 t.cur.gpr 20 == 1 && elem (t.th.vr 3) 32 0 == 0xBF000000) = true ∧
    lands (.fnmono 1) (fx []) (fun t => (t.th.fr 1).mono == 1) = true ∧ gives (.fninfo 20 1) (fx []) 20 0x11002 = true ∧
    traps (.fninfo 20 5) (fx []) cDOM 5 = true := by decide +kernel

/-- An instruction that the checks of issue stop. -/
noncomputable def bars (i : Instr) (s : State) (c : BitVec 8) (e : Dword) : Bool :=
  after i s fun t => t.cur.cause == c.setWidth 64 && t.cur.einfo == e && t.cur.epc == s.cur.pc

/-! ## Groups (R246 to R254) -/

/-- Bytes in the alcove, and the partition changed. -/
def inPart (s : State) (f : Partition → Partition) : State := { s with parts := [(1, f (getPart s 1))] }
/-- A group object at 0x1000, in a partition with name slots 0 to 3; the thread's ID is 0x800. -/
def grp (count name leader flags : Nat) : State :=
  inPart (writeGroup a0 1 (alcoveAt 0 0x1000) ⟨count, name, leader, flags⟩) fun p => { p with nameCount := 4 }
/-- It leaves a value in s9, and this object. -/
noncomputable def object (i : Instr) (s : State) (st : Dword) (v : Dword) (g : GroupObj) : Bool := does i s fun t =>
  t.cur.stat == st && Store.get 0 t.cur.gpr 9 == v && readGroup t (alcoveAt 0 0x1000) == g

theorem test_groups : a0.th.tid = 0x800 ∧ object (.join 9 1) (grp 0 0 0 0) 0 0 ⟨1, 0, 0x800, 0⟩ = true ∧
    object (.join 9 1) (grp 3 0 5 0) 0 3 ⟨4, 0, 5, 0⟩ = true ∧ object (.join 9 1) (grp 3 0 5 2) 0x32 0 ⟨3, 0, 5, 2⟩ = true ∧
    object (.leave 9 1) (grp 0 0 0 0) 0 0xFFFFFFFFFFFFFFFF ⟨0, 0, 0, 0⟩ = true ∧
    object (.leave 9 1) (grp 3 0 5 0) 0 2 ⟨2, 0, 5, 0⟩ = true ∧ object (.leave 9 1) (grp 3 0 0x800 0) 0 2 ⟨2, 0, 0, 0⟩ = true ∧
    object (.ginfo 9 1) (grp 3 7 5 1) 0 0x300000007 ⟨3, 7, 5, 1⟩ = true := by decide +kernel

/-- Names: of one that leads no group, a first name (slot 0, generation 1), one it has already, and none free. -/
theorem test_names : object (.gname 9 1) (grp 1 0 5 0) 0x30 0 ⟨1, 0, 5, 0⟩ = true ∧
    object (.gname 9 1) (grp 1 0 0x800 0) 0 1 ⟨1, 1, 0x800, 1⟩ = true ∧ object (.gname 9 1) (grp 1 1 0x800 1) 0 1 ⟨1, 1, 0x800, 1⟩ =
      true ∧
    object (.gname 9 1) (inPart (grp 1 0 0x800 0) fun p => { p with nameCount := 0 }) 0x31 0 ⟨1, 0, 0x800, 0⟩ = true ∧
    object (.gdrop 9 1) { grp 1 1 0x800 1 with names := [(0, ⟨1, some (1, 0), some 0x800, none⟩)] } 0 0 ⟨1, 0, 0x800, 0⟩ = true ∧
    object (.gmove 9 1 5) (withCur { grp 1 1 0x800 1 with names := [(0, ⟨1, some (1, 0), some 0x800, none⟩)] } fun c =>
      { c with priv := 1 }) 0 1 ⟨1, 1, 12, 1⟩ = true := by decide +kernel

/-- GMOVE to this device: the slot of its own name takes the leader; a name of device 5 gives way to one of this device, or stands
where no slot is free. -/
def named (s : State) (count : Nat) : State := withCur (inPart { s with names := [(0, ⟨1, some (1, alcoveAt 0 0x1000), some 0x800, none⟩)] } fun p =>
  { p with nameCount := count }) fun c => { c with priv := 1 }
theorem test_gmove_here : does (.gmove 9 1 5) (named (grp 1 1 0x800 1) 4) (fun t => (slotOf t 0).leader == some 12) = true ∧
    does (.gmove 9 1 5) { named (grp 1 0x1400001 0x800 1) 4 with names := [] } (fun t => (slotOf t 0).leader == some 12 &&
      readGroup t (alcoveAt 0 0x1000) == ⟨1, 1, 12, 1⟩ && t.reqs.map (fun q => (q.kind, q.peer)) == [(.forward 0x1400001 1, 5)]) = true ∧
    object (.gmove 9 1 5) (named (grp 1 0x1400001 0x800 1) 0) 0x31 0 ⟨1, 0x1400001, 0x800, 1⟩ = true := by decide +kernel

/-- GMOVE of a named group to device 1 asks that device for a name, and A waits. -/
theorem test_gmove_away : does (.gmove 9 1 5) (withCur { grp 1 1 0x800 1 with names := [(0, ⟨1, some (1, 0), some 0x800, none⟩)] }
      fun c => { c with priv := 1, gpr := [(5, 0x1000005)] }) (fun t => t.cur.park == some .reply &&
    t.reqs.map (fun q => (q.kind, q.peer)) == [(.gmove (alcoveAt 0 0x1000) 0x1000005, 1)]) = true := by decide +kernel

/-- The specification of a store of one byte to mailbox 0: s13. -/
def rs0 : State := withTh (withCur x0 fun c => { c with gpr := [(5, 12), (13, 0x10000)] }) fun t =>
  { t with mbox := [(0, 3)], vreg := [(3, 0x77)] }
theorem test_remote_stores : specOk 0x10000 = true ∧
    does (.gmbox 4 1) rs0 (fun t => t.th.mbox == [(0, 3), (1, 4)]) = true ∧
    does (.gmbox 3 1) rs0 (fun t => t.th.mbox == [(1, 3)]) = true ∧
    does (.vhold 3 5) rs0 (fun t => t.th.hold == [(3, ⟨12, 12⟩)]) = true ∧
    does (.rstv 3 5 13) rs0 (fun t => t.th.gout == 1 && t.rstores.map (fun r => (r.name.toNat, r.data)) == [(12, [0x77])]) = true ∧
    does (.rstvr 3 5 13) (withTh rs0 fun t => { t with grep := some 0 }) (fun t => t.cur.pc == 0x200000004 && t.th.grep == none) =
      true ∧
    traps (.rstvr 3 5 13) (withTh rs0 fun t => { t with grep := some 2 }) cGRPN 12 = true ∧
    does (.rstvr 3 5 13) rs0 (fun t => t.cur.park == some .ack && t.rstores.map (fun r => (r.waits, r.data)) == [(true, [0x77])]) =
      true ∧
    does (.gmbox 3 1) (withTh rs0 fun t => { t with hold := [(3, ⟨1, 1⟩)] }) (fun t => t.th.mbox == [(1, 3)] &&
      t.th.hold == [(3, ⟨1, 1⟩)]) = true ∧
    gives (.gstat 9) (withTh x0 fun t => { t with gok := 3, gnack := 2, gcause := 4 }) 9 0x400020003 = true := by decide +kernel

/-! ## System registers and threads (R74, R256 to R264, R375) -/

/-- The thread in focus as the usher, on its A stream at L1. -/
def u0 : State := inPart { a0 with th := { t0 with serial := 0, a := { st0 with priv := 1 } } } fun p => { p with usherCore := 0, usherSlot := 0 }
theorem test_mfs : gives (.mfs 9 0 0) a0 9 1 = true ∧ gives (.mfs 9 0 1) u0 9 1 = true ∧ gives (.mfs 9 0 2) a0 9 1 = true ∧
    gives (.mfs 9 0 0x20) x0 9 0x10000 = true ∧ gives (.mfs 9 0 0x21) x0 9 0 = true ∧ gives (.mfs 9 0 0x30) x0 9 0x40 = true ∧
    gives (.mfs 9 0 0x31) x0 9 10 = true ∧ gives (.mfs 9 0 0x70) a0 9 0xF000 = true ∧ gives (.mfs 9 4 0) a0 9 0 = true ∧
    bars (.mfs 9 0 0x10) a0 cPROT 1 = true ∧ (Instr.mfs 9 0 3).wf = false := by decide +kernel

theorem test_mts : does (.mts 5 0 0x60) a0 (fun t => t.th.mcword == 12) = true ∧ bars (.mts 5 0 0x18) a0 cPROT 1 = true ∧
    does (.mts 5 0 0x18) u0 (fun t => t.th.tvec == 12) = true ∧ does (.mts 7 0 0x13) u0 (fun t => t.th.estream == 1) = true ∧
    does (.mtsVbase 6) (withTh x0 fun t => { t with segSize := 64 }) (fun t => t.th.wbase == 5) = true ∧
    does (.mtsFmode 7) x0 (fun t => t.cur.fmode == 0x78) = true ∧ bars (.mtsLattol 5) u0 cPROT 2 = true ∧
    does (.mtsLattol 5) (withCur a0 fun c => { c with priv := 2 }) (fun t => t.health.latTol == 12) = true ∧
    does (.mtsScopetab 0) u0 (fun t => (getPart t 1).scopeVa == 0 && t.cur.pc == 0x200000004) = true ∧
    traps (.mtsVbase 5) x0 cWIN (96 * 256 + 128) = true ∧ counting (getPart u0 1) = false ∧ sysNo 4 0x20 = 0x220 ∧
    does (.mts 5 4 0) u0 (fun t => Store.get 0 t.counters 0x210 == Store.get 0 u0.counters 0x210 && t.cur.pc == 0x200000004) = true ∧
    does (.mts 5 4 0x20) u0 (fun t => t.cur.pc == 0x200000004) = true := by decide +kernel

/-- A notice about the stopped thread in slot 1 of the core, handled. -/
def other : Thread := { t0 with slot := 1, status := .stopped .trap }
def n0 : Notice := ⟨0x801, 0x13, 0x200000000, 7, 0, 0⟩
def un : State := { inPart u0 fun p => { p with handling := some n0 } with others := [other] }
theorem test_notices : other.tid = 0x801 ∧ traps .eret u0 cILL ((encode .eret).setWidth 64) = true ∧
    handledNotice un = some n0 ∧
    does .eret un (fun t => (allThreads t).any fun u => u.slot == 1 && u.status == .running) = true ∧
    does .eret { un with others := [] } (fun t => (getPart t 1).handling == none && t.cur.pc == 0x200000004) = true ∧
    does (.mtsCause 5) un (fun t => (getPart t 1).handling == some n0 && t.cur.cause == 12) = true ∧
    does (.mtsCause 0) un (fun t => (getPart t 1).handling == none && t.others.length == 1) = true ∧
    does (.mtsCause 7) un (fun t => (getPart t 1).handling == none && (allThreads t).all fun u => u.slot != 1 || u.status == .free) =
      true := by decide +kernel

/-- A launch record in the code page with its arguments in the code page: valid, and with no threads. -/
def launchRec (th : Byte) : Bytes :=
  leBytes 8 0x200000000 ++ leBytes 8 0x200000000 ++ [1, 1, 1, th, 1, 0, 0, 0] ++ leBytes 4 4096 ++ List.replicate 12 0 ++ [0, 8] ++
    List.replicate 62 0 ++ leBytes 8 0x200000400 ++ List.replicate 16 0
def toLaunch (th : Byte) (queued : Nat) : State :=
  inPart (writeBytes (withTh (coded u0 []) fun t => { t with areg := [(1, 0x200001000)] }) 0x50001000 (launchRec th)) fun p =>
    { p with queues := [(0, List.replicate queued ⟨recordOf (launchRec 1), 0, false⟩)] }
theorem test_launch : (launchRec 1).length = 128 ∧
    does (.launch 9 1 0) (toLaunch 1 0) (fun t => Store.get 0 t.cur.gpr 9 == 0 && ((getPart t 1).queue 0).length == 1) = true ∧
    does (.launch 9 1 0) (toLaunch 1 63) (fun t => ((getPart t 1).queue 0).length == 64) = true ∧
    does (.launch 9 1 0) (toLaunch 1 64) (fun t => Store.get 0 t.cur.gpr 9 == 0x40) = true ∧
    does (.launch 9 1 0) (toLaunch 0 0) (fun t => Store.get 0 t.cur.gpr 9 == 0x41) = true := by decide +kernel

theorem test_threads : does .exit a0 (fun t => t.th.a.exiting && t.th.a.pc == 0x200000000 && t.th.a.park == some .exit) = true ∧
    does .halt (withCur a0 fun c => { c with priv := 2 }) (fun t => (allThreads t).all fun u => u.status == .free) = true ∧
    does (.notify 5) u0 (fun t => (getPart t 1).msix == [12]) = true ∧
    [Instr.preempt 5, .resume 5, .ctxsave 0 5, .ctxload 0 5].all (fun i => does i u0 fun t => t.cur.stat == 0x51) = true ∧
    traps (.notify 13) (withCur u0 fun c => { c with gpr := [(13, 64)] }) cILL ((encode (.notify 13)).setWidth 64) = true ∧
    (findTid u0 0).isSome = true ∧ does (.preempt 0) u0 (fun t => t.cur.stat == 0 && t.th.status == .running) = true := by
  decide +kernel
/-- s13 names the thread in slot 1. -/
def un1 (st : ThreadStatus) : State := withCur { u0 with others := [{ other with status := st }] } fun c => { c with gpr := [(13, 0x801)] }
theorem test_contexts :
    [Instr.preempt 13, .resume 13].all (fun i => does i (un1 (.stopped .preempt)) fun t => t.cur.stat == 0) = true ∧
    [Instr.resume 13, .ctxsave 0 13, .ctxload 0 13].all (fun i => does i (un1 .running) fun t => t.cur.stat == 0x50) = true ∧
    after (.preempt 13) (un1 .running) (fun t => (allThreads t).any fun u => u.slot == 1 && u.status == .stopping .preempt) = true := by
  decide +kernel

/-- DIGCHK of launch 1: running, ended as recorded, otherwise, by the usher, without a record; and of none. -/
def dig (l : Launch) : State := withCur { u0 with launches := [l] } fun c => { c with gpr := [(9, 1)] }
theorem test_digchk : gives (.digchk 9) (dig l0) 9 2 = true ∧ gives (.digchk 9) (dig { l0 with ended := true, digLo := 4, record := { l0.record with digLo := 4 } }) 9 0 = true ∧
    Ready (.digchk 9) (dig { l0 with ended := true }) = true ∧
    gives (.digchk 9) (dig { l0 with ended := true, ushered := true }) 9 4 = true ∧
    gives (.digchk 9) (dig { l0 with ended := true, digLo := 5, record := { l0.record with digLo := 4 } }) 9 1 = true ∧
    gives (.digchk 9) (dig { l0 with serial := 2 }) 9 3 = true := by decide +kernel

/-- The image of a thread without reservations saved to a page of a peer, and one read back whose
sections are as empty. -/
def small (leaf : Dword) : State :=
  withCur { coded u0 [] with
    th := { u0.th with areg := [(0, 0x200000000)] }
    tlb := [⟨1, 0x20000, leaf, 0x50000000, 0, 0⟩]
    others := [{ other with status := .stopped .preempt, segSize := 0, acsSize := 0, coefQuota := 0, boundSize := 0, alcSize := 0 }] }
    fun c => { c with gpr := [(13, 0x801)] }
theorem test_ctxsave : does (.ctxsave 0 13) (small 0x1400000021D) (fun t => t.cur.stat == 0 &&
    t.cur.pc == 0x200000004) = true := by decide +kernel
theorem test_ctxload : does (.ctxload 0 13) (writeBytes (small 0x1D) 0x50000000 [1, 0, 0, 0, 9]) (fun t =>
    t.cur.stat == 0 && t.cur.pc == 0x200000004) = true := by decide +kernel

/-! ## The device's own events about a thread (R146 to R420): slot 0 of core 0 is the thread in focus -/

/-- An instruction in flight on v3, elementwise or whole-register, of `g` groups of 32 words: the groups that have started,
how many are written, the chunks that wait. -/
def fl (whole : Bool) (g st wr : Nat) (out : List (Nat × Chunk)) : Flying :=
  ⟨0, 0, 0, 0, 0, st0, ⟨whole, 32 * g, 32, 32, [(1, 32)], [], false, false, false, []⟩,
    { Effect.none with vw := [⟨3, BitVec.allOnes 16384, BitVec.allOnes 16384⟩] }, BitVec.ofNat 16 (2 ^ st - 1), wr, out, 0, none, []⟩
def parked (q : Strm) (p : Park) : State := withTh a0 fun t => t.updStr q fun c => { c with park := some p }
def inFlight (l : List Flying) : State := withTh a0 fun t => { t with flying := l }

theorem meets_threadEvents : focus a0 0 = some a0 ∧ focus a0 1 = none ∧ a0.th.status = .running ∧
    laneChoice (inFlight [fl false 4 1 1 []]) 0 1 = some (inFlight [fl false 4 1 1 []]).th ∧
    laneWork (inFlight [fl false 4 1 1 []]) (inFlight [fl false 4 1 1 []]).th 1 = some (0, 1) ∧
    writeReady (inFlight [fl false 4 2 1 []]) (inFlight [fl false 4 2 1 []]).th 0 = true ∧
    writeReady (inFlight [fl false 4 1 1 []]) (inFlight [fl false 4 1 1 []]).th 0 = false ∧
    writeReady (inFlight [fl true 4 4 0 []]) (inFlight [fl true 4 4 0 []]).th 0 = true ∧
    parkOver a0.th .work = true ∧ streamDone a0 a0.th .a = true ∧ takePending a0 .a = none ∧ atBoundary a0 .a = true ∧
    atBoundary x0 .x = true ∧ unitOk .a 8 5 = true ∧ unitOk .x 1 0 = true ∧ unitOk .a 9 0 = true ∧ unitOk .a 9 1 = false ∧
    unitOk .x 10 0 = false := by decide +kernel

/-- Two instructions on v3, which is bound to vs8: the later one writes nothing before the chunk of the earlier one (R178);
on a register bound to nothing it follows group by group (R271). -/
theorem test_chunk_first :
    let f := { fl false 4 1 0 [] with shape := { (fl false 4 1 0 []).shape with outs := [(3, 128)] } }
    let u (b : Store Nat) := withTh (inFlight [{ f with written := 2 }, f]) fun t => { t with bind := b }
    writeReady (u [(3, 8)]) (u [(3, 8)]).th 1 = false ∧ writeReady (u []) (u []).th 1 = true := by decide +kernel

theorem test_wakes : after (.parkedStreamRelease 0 .a) (parked .a .work) (fun t => t.th.a.park == none) = true ∧
    after (.parkedStreamRelease 1 .a) (parked .a .work) (fun t => t.th.a.park == some .work) = true ∧
    after (.waitaWake 0) (parked .a .waita) (fun t => t.th.a.park == none) = true ∧
    after (.vwaitWake 0) (parked .a .vwait) (fun t => t.th.a.park == none) = true ∧
    after (.bwaitWake 0) (parked .a .bwait) (fun t => t.th.a.park == none) = true ∧
    after (.bwaitTimeout 0) (withTh (parked .a .bwait) fun t => { t with a := { t.a with deadline := some 0 } }) (fun t =>
      t.th.a.park == none) = true := by decide +kernel

/-- QDEAD: both streams in the cycle, A beside an exiting X, X beside an exiting A. -/
theorem test_qdead : after (.qdeadDetection 0) (withTh a0 fun t => { t with
        a := { t.a with park := some (.pop 105) }, x := { t.x with park := some (.pop 104) } }) (fun t =>
      t.th.x.cause == 0x0D && t.th.x.einfo == 3) = true ∧
    after (.qdeadDetection 0) (withTh a0 fun t => { t with
        a := { t.a with park := some (.pop 105) }, x := { t.x with exiting := true } }) (fun t => t.th.a.cause == 0x0D) = true ∧
    after (.qdeadDetection 0) (withTh a0 fun t => { t with
        x := { t.x with park := some (.pop 104) }, a := { t.a with exiting := true } }) (fun t => t.th.x.cause == 0x0D) = true := by
  decide +kernel

theorem test_thread_traps : after (.ill 0xFFFFFFFF) a0 (fun t => t.th.a.cause == 1 && t.th.a.einfo == 0xFFFFFFFF) = true ∧
    after (.lateEngineFault 0 .a) (withTh a0 fun t => { t with a := { t.a with late := some (cPROT, 5) } }) (fun t =>
      t.th.a.cause == 5 && t.th.a.einfo == 5 && t.th.a.late == none) = true ∧
    after (.intg 0) (withTh a0 fun t => { t with intg := some 9 }) (fun t => t.th.x.cause == 0x11 && t.th.x.einfo == 9 &&
      t.th.intg == none) = true ∧
    after (.deverr 0 .x 8 5) a0 (fun t => t.th.x.cause == 0x15 && t.th.x.einfo == 0x0800000000000005) = true ∧
    after (.deverr 0 .a 9 0) (withTh a0 fun t => { t with status := .stopped .trap }) (fun t =>
      t.th.devErr == [(.a, 0x0900000000000000)] && t.th.a.cause == 0) = true ∧
    after (.budgetExpiry 0) (withTh a0 fun t => { t with budget := 5, consumed := 5 }) (fun t => t.th.status == .stopping .budget) =
      true ∧
    [Strm.a, .x].all (fun q => after (.deverr 0 q 8 5) (withTh a0 fun t => { t with intg := some 9 }) fun t => t.th.x.cause == 0x11 &&
      t.th.devErr == [(q, 0x0800000000000005)] && t.th.intg == none) = true ∧
    after (.deverr 0 .a 7 0) (withTh a0 fun t => { t with svcmds := List.replicate 2 ⟨0, 0, [], [], [], 0, 0, 0, 1, [], 0, 0, 0, 0⟩ })
      (fun t => t.th.a.cause == 0x15 && t.th.svcmds.length == 1) = true := by decide +kernel

theorem test_vector_events :
    after (.elementGroupStart 0 1) (inFlight [fl false 4 1 1 []]) (fun t => t.th.flying.map (·.started) == [3] &&
      t.laneTurn == [(1, 0)]) = true ∧
    after (.elementGroupWrite 0 0) (inFlight [fl false 4 2 1 []]) (fun t => t.th.flying.map (·.written) == [2] &&
      (List.range 3).map (fun k => elem (t.th.vr 3) 32 (31 + 32 * k)) == [0, 2 ^ 32 - 1, 0]) = true ∧
    after (.elementGroupWrite 0 0) (inFlight [fl true 4 4 1 []]) (fun t => t.th.flying == [] &&
      elem (t.th.vr 3) 32 127 == 2 ^ 32 - 1) = true ∧
    after (.outboundChunkEntry 0) (inFlight [fl false 4 4 4 [(8, ⟨5, 1, false, false, false⟩)]]) (fun t =>
      (t.th.vstream 8).chunks.map (·.count) == [1] && t.th.flying == []) = true ∧
    after (.streamTransferCompletion 0 0) (withTh a0 fun t => { t with xfers := [⟨some 3, ⟨5, 2, false, false, false⟩, 1, 0⟩] }) (fun t =>
      (t.th.vstream 3).chunks.map (·.count) == [2] && t.th.xfers == []) = true ∧
    xferReady a0 { t0 with xfers := [⟨some 3, ⟨5, 2, false, false, false⟩, 1, 0⟩] } 0 = true ∧
    after (.matrixRowProcessing 0) { a0 with rowq := [⟨0, 0, 5⟩, ⟨0, 0, 6⟩] } (fun t => t.rowq == [⟨0, 0, 6⟩]) = true ∧
    after (.tileFill 0 1) (withTh a0 fun t => { t with fill0 := true, fill1 := true }) (fun t => t.th.fill0 && !t.th.fill1) = true ∧
    after (.conflictConfirmation 0) (withTh (parked .a .reply) fun t => { t with confirm := [(5, false)] }) (fun t =>
      t.th.confirm == [(5, true)]) = true := by decide +kernel

/-- A copy of four bytes runs in pieces and completes; a pass of a state-vector command that maps a state. -/
def copying (moved : Nat) : State := withTh (writeBytes a0 (alcoveAt 0 0x3000) [1, 2, 3, 4]) fun t =>
  { t with copies := [⟨0, desc 0, List.replicate 32 0, List.replicate 32 0, 0, 0, moved, 4, 1, [], [], [], 0, false⟩] }
theorem test_engines :
    after (.copyPiece 0 0) (copying 0) (fun t => readLE t (alcoveAt 0 0x4000) 4 == 0x04030201) = true ∧
    copyDone (copying 4) (copying 4).th 0 = true ∧ after (.copyCompletion 0 0) (copying 4) (fun t => t.th.copies == []) = true ∧
    after (.svmap 9 1) (put a0 0x1000 svRec) (fun t => after (.svopPass 0) t fun u => u.th.svcmds.length == 1 &&
      readLE u (alcoveAt 0 0x8000) 8 == 0x3F800000 && after (.svopPass 0) u fun v => after (.svopPass 0) v fun w =>
        w.th.svcmds == []) = true := by decide +kernel

/-- A stop with nothing in flight, and one of an instruction whose groups are written in part (R275, R276). -/
theorem test_stop : stopReady (withTh a0 fun t => { t with status := .stopping .preempt }) { t0 with status := .stopping .preempt } =
      true ∧
    after (.threadStopComplete 0) (withTh a0 fun t => { t with status := .stopping .preempt }) (fun t =>
      t.th.status == .stopped .preempt) = true ∧
    ((fun u : State => (haltThread u u.th .preempt).resume.map (·.start)) (withTh (inFlight [fl false 4 2 1 [], fl true 4 4 0 []]) fun t =>
      { t with status := .stopping .preempt }) = [64, 0]) ∧
    after (.streamEnd 0 .a) (withTh a0 fun t => { t with a := { t.a with exiting := true } }) (fun t => t.th.a.ended &&
      t.th.status == .running) = true ∧
    after (.streamEnd 0 .a) (withTh a0 fun t => { t with a := { t.a with exiting := true }, x := { t.x with ended := true } }) (fun t =>
      t.th.status == .free) = true ∧
    [true, false].all (fun b => after (.streamEnd 0 .x) (withTh a0 fun t => { t with x := { t.x with exiting := true }, fill0 := b }) fun t =>
      t.th.x.ended == !b) = true := by decide +kernel

/-! ## The device's other events -/

/-- Requests of this device for the thread in focus, by number. -/
def req0 (k : ReqKind) : FabReq := ⟨7, 1, 0, 0, 1, 0, 5, k, 3, 0x300000010, 0x10, leBytes 8 8, some 9, [], 0, 0, false⟩
def asked (k : ReqKind) : State := { withTh a0 fun t => { t with a := { t.a with park := some .reply } } with reqs := [req0 k] }
theorem test_answers : (focusReq (asked .load) (req0 .load)).isSome = true ∧
    after (.loadCompletion 7 [5, 1]) (asked .load) (fun t => Store.get 0 t.th.a.gpr 9 == 0x105 && t.reqs == [] &&
      t.th.a.pc == 0x200000004) = true ∧
    after (.loadCompletion 7 []) (asked (.store false)) (fun t => t.reqs == [] && t.th.a.pc == 0x200000000) = true ∧
    [(1, 0x05, 0x300000010), (2, 0x05, 0x300000010), (3, 0x14, 0x300000010), (4, 0x15, 0x0800000300000010)].all
      (fun (p : Nat × Dword × Dword) => after (.fabricNack 7 p.1) (asked .load) fun t => t.th.a.cause == p.2.1 &&
        t.th.a.einfo == p.2.2 && t.reqs == []) = true ∧
    after (.fabricNack 7 1) (asked (.store false)) (fun t => t.th.a.late == some (cPROT, 0x300000010) && t.reqs == []) = true ∧
    after (.fabricRequestTimeout 7) { asked .load with clock := 150000 } (fun t => t.th.a.cause == 0x15) = true ∧
    after (.fabricRequestTimeout 7) { asked .load with clock := 149999 } (fun t => t.reqs.length == 1) = true := by decide +kernel

/-- A multicast's copies answered: one of two, and the last. -/
theorem test_multicast : after (.multicastCopyAnswer 7 5 2) (asked (.multicast 0 0 [(5, 0), (6, 1)] 0 0 none)) (fun t =>
      t.reqs.map (·.kind) == [.multicast 0 0 [(6, 1)] 0 1 (some (5, 2))]) = true ∧
    after (.multicastCopyAnswer 7 4 0) (asked (.multicast 0 0 [(5, 0)] 0 0 none)) (fun t =>
      t.reqs.map (·.kind) == [.multicast 0 0 [(5, 0)] 0 0 none]) = true ∧
    after (.multicastCopyAnswer 7 5 0) (asked (.multicast 0 0x1000 [(5, 0)] 11 0 none)) (fun t => t.reqs == [] &&
      readLE t (alcoveAt 0 0x1008) 2 == 12) = true ∧
    after (.loadCompletion 7 [1, 2, 0, 0]) (asked (.gmove 0x1000 5)) (fun t => Store.get 0 t.th.a.gpr 9 == 0x201 &&
      t.th.a.stat == 0 && t.reqs == []) = true := by decide +kernel

/-- A remote store to the name of slot 0, generation 1: to a leader with mailbox 0, of another generation, of no mailbox,
beyond the register, and of another partition. -/
def arriving (name mb off : Nat) : State :=
  { withTh a0 fun t => { t with mbox := [(0, 3)], hold := [(3, ⟨2, 2⟩)] } with
    names := [(0, ⟨1, some (1, 0), some 0x800, none⟩)]
    rstores := [⟨4, some 0x800, some 1, 0, BitVec.ofNat 32 name, mb, off, [0x77], false, 0, 0, 0, 0⟩] }
theorem test_remote_arrivals : leaderOf (arriving 1 0 0) ⟨1, some (1, 0), some 0x800, none⟩ = some (arriving 1 0 0).th ∧
    after (.mailboxArrival 4) (arriving 1 0 0) (fun t => elem (t.th.vr 3) 8 0 == 0x77 && t.th.hold == [(3, ⟨2, 1⟩)] &&
      t.ranswers.map (·.cause) == [0] && t.rstores == []) = true ∧
    [(2, 0, 0, 1), (1, 1, 0, 2), (1, 0, 2048, 3)].all (fun (p : Nat × Nat × Nat × Nat) =>
      after (.mailboxArrival 4) (arriving p.1 p.2.1 p.2.2.1) fun t => t.ranswers.map (·.cause) == [p.2.2.2]) = true ∧
    after (.mailboxArrival 4) { arriving 1 0 0 with names := [(0, ⟨1, some (2, 0), some 0x800, none⟩)] } (fun t =>
      t.ranswers.map (·.cause) == [4]) = true ∧
    after (.mailboxArrival 4) { arriving 1 0 0 with names := [(0, ⟨1, some (1, 0), none, some (0x401001, 9)⟩)] } (fun t =>
      t.rstores.map (·.name) == [0x401001] && t.ranswers == []) = true ∧
    after (.remoteStoreAnswer 4 0) { withTh a0 fun t => { t with gout := 2 } with ranswers := [⟨4, 0x800, false, 0⟩] } (fun t =>
      t.th.gout == 1 && t.th.gok == 1 && t.ranswers == []) = true ∧
    after (.nameForwardingExpiry 0) { a0 with names := [(0, ⟨4095, none, none, some (7, 0)⟩)] } (fun t =>
      slotOf t 0 == ⟨1, none, none, none⟩) = true := by decide +kernel

/-! Launches -/

/-- A partition of core 0 with a record at the head of queue 0, no thread placed. -/
def rec0 : LaunchRec := { l0.record with aentry := 0x200000000, xentry := 0x200000000, args := 0x200000400, bound := 0, acs := 0, coef := 0, vseg := 1 }
def waiting (r : LaunchRec) : State :=
  { inPart (coded State.reset []) fun _ => { Partition.reset with
      state := .run, cores := [0], windows := [(0x40000000, 0x40000000)], queues := [(0, [⟨r, 0, true⟩])], usherCore := 5 } with
    remap := [(0, 0x8000)] }
theorem test_dispatch : (nextDispatch (waiting rec0) 1).isSome = true ∧
    after (.launchDispatch 1) (waiting rec0) (fun t => (getPart t 1).queues.all (fun e => e.2 == []) && t.launches.length == 1 &&
      (allThreads t).any fun u => u.status == .running && u.serial == 1 && u.a.pc == 0x200000000) = true ∧
    after (.dependencyWordRead 1 0) (inPart (coded State.reset []) fun _ => { getPart (waiting rec0) 1 with
        queues := [(0, [⟨{ rec0 with dep := 0x200000100, depval := 0 }, 0, false⟩])] }) (fun t =>
      ((getPart t 1).queue 0).map (·.ready) == [true]) = true := by decide +kernel

/-- A record with a stage field, its core taken by a launch: staged; then its start once the core is free. -/
def busyCore : State := { inPart a0 fun _ => getPart (waiting { rec0 with stage := 1, threads := 4 }) 1 with tlb := (coded a0 []).tlb, remap := [(0, 0x8000)] }
theorem test_staging : (nextStaging busyCore 1).isSome = true ∧
    after (.launchStaging 1) busyCore (fun t => (getPart t 1).staged.isSome && (stagedReady t 1).isNone) = true ∧
    after (.stagedLaunchStart 1) (inPart (waiting { rec0 with stage := 1 }) fun p => { p with
      staged := some ⟨{ rec0 with stage := 1 }, 0, 0, 0, 0, [(0, 0)]⟩ }) (fun t => t.launches.length == 1 && (getPart t 1).staged == none) = true := by
  decide +kernel

/-- Partition 1 of a gang whose slices begin 1 ms apart: its own at the epoch, another's after it. -/
def ganged (clock : Dword) (out : Bool) : State :=
  { inPart a0 fun p => { p with gang := 1, switchedOut := out } with
    clock := clock, gangs := [(1, ⟨3000000, 0, [(0, 1), (1500000, 2)]⟩)] }
theorem test_gang : GangSched.ok ⟨3000000, 0, [(0, 1), (1500000, 2)]⟩ = true ∧
    GangSched.ok ⟨3000000, 0, [(0, 1), (1499999, 2)]⟩ = false ∧
    after (.gangStop 1) (ganged 1500000 false) (fun t => (getPart t 1).switchedOut &&
      (allThreads t).all fun u => u.status != .running) = true ∧
    after (.gangStop 1) (ganged 1499999 false) (fun t => !(getPart t 1).switchedOut) = true ∧
    sliceBegins (ganged 3225000 true) 1 = true ∧
    after (.gangResume 1) (ganged 3225000 true) (fun t => !(getPart t 1).switchedOut) = true ∧
    after (.gangResume 1) (ganged 3224999 true) (fun t => (getPart t 1).switchedOut) = true := by
  decide +kernel

/-- A physical core that logical cores 0 and 5 share (R371, R421). -/
def shared : State := { a0 with remap := (List.range 384).map fun k => (k, if k = 5 then 0xC000 else if k = 0 then 0xC000 else 0x8000 + BitVec.ofNat 16 k) }
theorem test_shared : after (.sharedCoreTimeSlice 0) shared (fun t => t.shareTurn == [(0, 5)]) = true := by decide +kernel

/-! Translation and fabric -/

/-- The translation block of the partition stands at 0x40000000. INVTAIL is at 0x20. -/
def blk (s : State) (off : Nat) (b : Bytes) : State := writeBytes s (0x40000000 + off) b
theorem test_invalidation : after (.invalidationRequest 1) (blk a0 0x20 [3]) (fun t => (getPart t 1).invTail == 3) = true ∧
    after (.invalidationRetire 1) (inPart (blk a0 0x20 [1]) fun p => { p with invTail := 1 }) (fun t =>
      (getPart t 1).invHead == 1 && readLE t 0x40000028 8 == 1) = true := by decide +kernel

/-- The request for the page frame at VA 0x200000000 of partition 1 that waits for its answer. -/
def filling (migrate : Bool) : FabReq := ⟨7, 1, 512, 0, 0, 0, 0, .fill migrate, 3, 0x200000000, 0, [], none, [], 0, 0, false⟩
theorem test_frames : after (.replicaFill 1 0x20000 (List.replicate 16 5)) { a0 with
      frames := [⟨1, 0x20000, 0x50000000, 0, false, false, none⟩], reqs := [filling false] } (fun t =>
      t.frames.map (·.filled) == [true]) = true ∧
    waitingFrame { a0 with frames := [⟨1, 0x20000, 0x50000000, 0, false, true, none⟩], reqs := [filling true] } 1 0x20000 true =
      some ⟨1, 0x20000, 0x50000000, 0, false, true, none⟩ := by decide +kernel

/-- A member with job key 9 and a window of the first 64 KiB at 0x50000000; all permissions, or none. -/
def joined (flags : Byte) : State := writeBytes (blk a0 0x100 ([9, 0, flags, 0, 0, 0, 0, 0] ++ leBytes 8 0x50000000 ++ leBytes 8 0x50010000))
  0x50000000 [1, 2, 3, 4]
theorem test_fabric : (memberAt (joined 31) 9 0x50000000 4).isSome = true ∧ portTakes 0x50000000 256 = true ∧
    portTakes 0x50000001 256 = false ∧
    after (.fabricReadRequest ⟨3, 8⟩ 9 0x50000000 4) (joined 31) (fun t => t.sent == [⟨3, 8, 0, [1, 2, 3, 4]⟩]) = true ∧
    after (.fabricReadRequest ⟨3, 8⟩ 9 0x50000000 4) (joined 1) (fun t => t.sent == [⟨3, 8, 2, []⟩]) = true ∧
    after (.fabricReadRequest ⟨3, 8⟩ 9 0x50010000 4) (joined 31) (fun t => t.sent == [⟨3, 8, 1, []⟩]) = true ∧
    after (.fabricReadRequest ⟨3, 8⟩ 9 0x50000000 4) { joined 31 with uce := [0xA000000] } (fun t => t.sent == [⟨3, 8, 3, []⟩]) = true ∧
    after (.fabricReadRequest ⟨3, 8⟩ 7 0x50000000 4) (joined 31) (fun t => t.sent == [] && (getPart t 1) == getPart (joined 31) 1) = true ∧
    after (.fabricReadRequest ⟨3, 8⟩ 9 0x50000000 4) { joined 31 with sent := [⟨3, 8, 1, []⟩] } (fun t =>
      t.sent == [⟨3, 8, 1, []⟩, ⟨3, 8, 1, []⟩]) = true ∧
    after (.fabricWriteRequest ⟨3, 8⟩ 9 0x50000000 [7, 8]) (joined 31) (fun t => readLE t 0x50000000 4 == 0x04030807 &&
      t.sent == [⟨3, 8, 0, []⟩]) = true ∧
    after (.fabricAtomicRequest ⟨3, 8⟩ 9 0x50000000 .add 1 0) (joined 31) (fun t => readLE t 0x50000000 4 == 0x04030202 &&
      t.sent == [⟨3, 8, 0, [1, 2, 3, 4, 0, 0, 0, 0]⟩]) = true := by decide +kernel

/-- Reduction entry 2 of the partition: one contribution of an unordered round of INT32 sums. -/
def contribution : RedMsg := ⟨0x50000000, 2, 0, 0, 0, 2, 1, false, leBytes 4 5⟩
theorem test_reduction : (redApply (joined 31) 1 3 contribution).2 ≤ 4 ∧
    after (.redContribution ⟨3, 8⟩ 9 contribution) (joined 31) (fun t => t.sent.length == 1) = true ∧
    after (.redRoundTimeout 1 0x50000000) (blk { a0 with rounds := [⟨1, 0x50000000, 2, true, [], 0⟩], clock := 0 } (0x4040 + 12) [1])
      (fun t => t.rounds.length == 1) = true := by decide +kernel

theorem test_links : after (.linkFailure 4) { asked .load with reqs := (asked .load).reqs.map fun r => { r with station := 4 } } (fun t =>
      t.failedLinks == [4] && t.reqs.all fun r => r.station != 4) = true := by decide +kernel

/-! The host -/

theorem test_host : after (.hostAtomicOp ⟨1, true⟩ 0x200000004 .add 1 0) a0 (fun t => t.hostLog == [.abort 0]) = true ∧
    after (.hostAtomicOp ⟨1, true⟩ 0x200000000 .add 1 0) { joined 31 with tlb := [⟨1, 0x20000, 0x9D, 0x50000000, 0, 0⟩] } (fun t =>
      t.hostLog == [.served 0 [1, 2, 3, 4, 0, 0, 0, 0]] && readLE t 0x50000000 4 == 0x04030202) = true ∧
    after (.hostAtomicOp ⟨1, false⟩ 0x200000000 .add 1 0) { joined 31 with tlb := [⟨1, 0x20000, 0x9D, 0x50000000, 0, 0⟩] } (fun t =>
      t.hostLog == [.abort 0] && readLE t 0x50000000 4 == 0x04030201) = true ∧
    after (.hostRequest 6 true (.read 0x50000000 4)) a0 (fun t => t.hostLog == [.abort 6]) = true ∧
    after (.hostRequest 0 false (.read 0x50000000 4)) a0 (fun t => t.hostLog == [.abort 0]) = true ∧
    after (.hostRequest 0 true (.read 0x50000000 4)) (joined 31) (fun t => t.hostLog == [.served 0 [1, 2, 3, 4]]) = true ∧
    after (.hostRequest 0 true (.read 0x3FFFFFFF 4)) (joined 31) (fun t => t.hostLog == [.abort 0]) = true ∧
    after (.hostRequest 0 true (.write 0x50000001 [9])) (joined 31) (fun t => readLE t 0x50000000 4 == 0x04030901) = true := by decide +kernel

/-- A host's read of a context image: refused without a grant and under one of other things, served under one of images, and
served beside the image. -/
def imaged (d : Option DebugPolicy) : State :=
  { small 0x1D with parts := [(1, { getPart (small 0x1D) 1 with policy := d, ctxBase := 0x200000000, ctxSlot := 0x4000 })] }
theorem test_host_images : inImages (imaged none) 1 0x50000000 4 = true ∧
    [(0x50000000, none, false), (0x50000000, some ⟨true, true, false, 5, 9⟩, false), (0x50000000, some ⟨false, false, true, 5, 9⟩, true),
      (0x50010000, none, true)].all (fun (p : BitVec 64 × Option DebugPolicy × Bool) =>
      after (.hostRequest 0 true (.read p.1 4)) (imaged p.2.1) fun t =>
        t.hostLog == [if p.2.2 then .served 0 [0, 0, 0, 0] else .abort 0]) = true := by decide +kernel

theorem test_sites : after .stampSweep a0 (fun t => t.stamps == []) = true ∧
    after (.atomicLeaseExpiry 5) { a0 with sites := [(5, ⟨false, some (0, 0), []⟩)], cycles := 256 } (fun t => t.sites == []) = true ∧
    after (.atomicLeaseExpiry 5) { a0 with sites := [(5, ⟨false, some (0, 0), []⟩)], cycles := 255 } (fun t => t.sites.length == 1) = true ∧
    after (.atomicSiteReturnNear 5) { a0 with sites := [(5, ⟨true, none, [(0, 0), (1, 0)]⟩)], cycles := 16384 } (fun t => t.sites == []) = true := by
  decide +kernel

/-- A notice delivered to the usher on slot 0. -/
theorem test_notice_delivery : after (.noticeDelivery 1) (inPart { u0 with th := { u0.th with tvec := 0x300000000 } } fun p =>
      { p with notices := [n0] }) (fun t => t.th.a.pc == 0x300000000 && t.th.a.cause == 0x13 && t.th.a.epc == 0x200000000 &&
        t.th.a.einfo == 7 && t.th.a.link == [0x200000000] && (getPart t 1).handling == some n0) = true := by decide +kernel

/-! ## The health block and the trust controller -/

/-- Core 0 due for its test, with its thread's first unchecked MROW at 9. -/
def due : State := { withTh a0 fun t => { t with firstRow := some 9 } with cores := [(0, ⟨4096, 0, false, false, true, 0⟩)] }
theorem test_self_test : after (.selfTestProduct 0 0) due (fun t => t.th.firstRow == none && !(coreOfState t 0).testDue) = true ∧
    after (.selfTestProduct 0 4) due (fun t => t.th.intg == some 9 && (coreOfState t 0).fenced == 4) = true ∧
    after (.spareReplacement 0) { due with cores := [(0, ⟨4096, 4, false, false, false, 0⟩)] } (fun t => (coreOfState t 0).spareUsed) =
      true := by decide +kernel

theorem test_health : after (.scrub 5) { a0 with uce := [5] } (fun t => t.health.uce == 1) = true ∧
    after (.scrub 6) { a0 with uce := [5] } (fun t => t.health.uce == 0) = true ∧
    after (.wearUpdate 2 23 90 3) a0 (fun t => wearOf t 2 == 0x135A0017 && t.health.msixPf == [2]) = true ∧
    after (.wearUpdate 2 24 90 3) a0 (fun t => wearOf t 2 == 0x035A0018 && t.health.msixPf == []) = true ∧
    after (.wearWrite 2 0x10000000) { a0 with health := { a0.health with wear := [(2, 0x135A0017)] } } (fun t => wearOf t 2 == 0x035A0017) =
      true ∧
    after (.registerWrite 0x100000 0x150005) a0 (fun t => healthReg t 0 == 0x100005) = true ∧
    after (.registerWrite 0x100000 0xC0005) a0 (fun t => healthReg t 0 == 0xC0005) = true ∧
    after (.eccstatWrite 1) { a0 with health := { a0.health with ce := 9, uce := 4 } } (fun t => healthReg t 8 == 0x4000000000000) =
      true := by decide +kernel

theorem test_power : toGang a0 = none ∧ after .thermalLimit a0 (fun t => t.health.power == .a1 && t.health.hot == 1) = true ∧
    after .dieTemperatureFall { a0 with health := { a0.health with hot := 1, power := .a1 } } (fun t => t.health.power == .a0) = true ∧
    after (.pwrWrite 2) a0 (fun t => healthReg t 0x10 == 0x22) = true ∧ after (.pwrWrite 3) a0 (fun t => healthReg t 0x10 == 0) = true ∧
    after (.lattolMirrorWrite 0x1000005) a0 (fun t => t.health.latTol == 5) = true ∧
    after .idleEntry { State.reset with health := { State.reset.health with latTol := 2 } } (fun t => t.health.power == .i1) = true ∧
    after .idleEntry { State.reset with health := { State.reset.health with latTol := 25000 } } (fun t => t.health.power == .i4) = true ∧
    after .idleWake { withTh a0 fun t => { t with a := { t.a with park := some .waita } } with
      health := { a0.health with power := .i1 } } (fun t => t.health.power == .a0 && t.th.a.park == none) = true ∧
    wakeCause { a0 with health := { a0.health with power := .i1 } } = true ∧
    after (.fabricReadRequest ⟨3, 8⟩ 9 0x50000000 4) { a0 with health := { a0.health with power := .i1 } } (fun t =>
      t.health.power == .a0) = true := by decide +kernel

/-- Boots: a fuse fault, no image, and what a reset leaves either way. -/
def boot0 (fuse : Bool) : BootInput := ⟨[], [], fuse, false, 0, 0, [], []⟩
theorem test_boot : after (.deviceReset (boot0 true)) a0 (fun t => trustRead t 0 == 0x010104 && t.parts == [] && t.th.status == .free) =
      true ∧
    after (.thermalReset (boot0 false)) a0 (fun t => trustRead t 0 == 0x020204) = true ∧
    after (.fwstageWrite 1) a0 (fun t => t.trust.armed) = true ∧
    after (.recoveryImageWrite [5]) { a0 with trust := { a0.trust with recov := true } } (fun t => t.trust.recovered == [[5]]) = true := by
  decide +kernel

/-- A partition of core 8 with 1 GiB at 0x80000000, accepted by a device that is ready; not one that takes core 0 again. -/
def request (core : Nat) : PartReq :=
  ⟨2, 3, [⟨0, core / 8, 0, 1, 1, 1⟩], [(0x80000000, 0x40000000)], 0, 0, 0, 0, 0, core, 0, 0x200000000, 0, 4, 4, 0, 9, 5, 0⟩
def ready0 : State := { a0 with trust := { a0.trust with ready := true } }
theorem test_partition : requestOk ready0 (request 8) = true ∧ requestOk ready0 (request 0) = false ∧
    after (.partitionCreate (request 8)) ready0 (fun t => (getPart t 2).state == .open_ && (getPart t 2).cores == [8] && (getPart t 2).rects == [⟨0, 1, 0, 1, 1, 1⟩] &&
      readLE t 0x80000008 2 == 9 && (getPart t 2).xts.isSome && t.trust.draws == a0.trust.draws + 2) = true ∧
    after (.partitionCreate (request 0)) ready0 (fun t => (getPart t 2).state == .free) = true ∧ partOf a0 0 = some 1 ∧
    after (.functionLevelReset 0) a0 (fun t => (getPart t 1).state == .free && t.launches == [] && t.th.status == .free) = true ∧
    after (.configWriteLocked 0) a0 (fun t => (getPart t 1).state == .free) = true ∧
    after (.debugPolicyExpiry 1) (inPart { a0 with clock := 9 } fun p => { p with policy := some ⟨true, true, true, 5, 9⟩ }) (fun t =>
      (getPart t 1).policy == none) = true ∧
    after (.debugPolicyExpiry 1) (inPart { a0 with clock := 8 } fun p => { p with policy := some ⟨true, true, true, 5, 9⟩ }) (fun t =>
      (getPart t 1).policy.isSome) = true := by decide +kernel

/-- Requests outside a session: on the interface they are refused; on the responder they are answered (all but the bytes
of the answer, which SPDM's own layouts give). -/
def msg : SpdmMsg := ⟨none, [5]⟩
theorem test_tdisp : inSession a0 1 msg = false ∧
    [Instr.lockInterfaceRequest 0 msg, .startInterfaceRequest 0 msg, .stopInterfaceRequest 0 msg, .debugKeyHashBind 0 msg 5,
      .debugPolicy 0 msg 5].all (fun i => after i a0 fun t => (Store.get Spdm.reset t.trust.spdm 1).answers.length == 1 &&
        (getPart t 1).state == .run) = true := by decide +kernel
theorem meets_spdm : plain a0 0 msg = some [5] ∧ SpdmRequest 0 msg (.getVersion 0 msg) 1 true
    (fun s _ => (responder s 0 fun p => { p with stage := 1 }, [])) ∧
    [Instr.negotiateAlgorithms 0 msg, .getDigests 0 msg, .getCertificate 0 msg, .challenge 0 msg, .getMeasurements 0 msg,
      .keyExchange 0 msg, .finish 0 msg, .keyUpdate 0 msg, .heartbeat 0 msg, .endSession 0 msg, .vendorChallenge 0 msg].all (fun i =>
      after i { a0 with trust := { a0.trust with recov := true } } fun t => (spdmOf t 0).answers.length == 1) = true :=
  ⟨by decide +kernel, .getVersion, by decide +kernel⟩

/-! ## Instructions that are not well formed: one for each check of WellFormed -/

/-- Scalars: read-only, destination-only, a port read and written, no three registers. -/
theorem test_illFormed_scalars : [Instr.add 118 1 2, .add 122 1 2, .add 123 1 2, .add 124 1 2, .add 125 1 2, .add 126 1 2,
      .add 9 116 2, .add 9 1 117, .sel 104 5 6, .sel 118 5 6, .lsh 126 0, .rcprob 0, .rcprob 102].all (fun i => !i.wf) = true := by
  decide +kernel
/-- Registers of other files: address, predicate, function, stream, queue, branch queue, vector pairs. -/
theorem test_illFormed_registers : [Instr.ldd 9 32 0, .aset 32 5, .pand 96 1 2, .vmask 96, .fnadd 32 1 2, .fnadd 1 32 2, .sload 12 1,
      .sstore 12 1, .sgath 3 1 12 2, .vbout 3 12, .qdrain 103, .qcnt 9 118, .bq 115 4, .rcscore 127 1, .rcscore 3 2, .rcscore 2 3,
      .vargmax 127 1 0].all (fun i => !i.wf) = true := by decide +kernel
/-- Literals and combinations. -/
theorem test_illFormed_fields : [Instr.gmbox 3 8, .rcget 9 16, .rcput 5 16, .mrow 5 1 2 0 0, .mtile 2 0 5, .vlget 9 5 0 14,
      .vloop 9 5 0 0 15, .stair 8 0 1 0, .stair 8 0 1 7, .stflg 5 0 6, .ststep 3 0 4 1, .ststep 0 0 0 1, .ststep 3 4 5 0, .fmode 5,
      .lds 9 1 3 0, .sts 9 1 3 0, .cas 5 1 6 2 0, .sgath 3 1 9 4, .sscat 8 1 8 2, .vcmp 4 1 2 0 6, .vcmpx 4 1 2 0 7,
      .vperm 1 1 2 0, .vperm 2 1 2 0, .vzip 1 1 2 0, .vslup 1 1 5 0, .vrev 1 1 0, .mfs 9 0 3, .mts 5 0 1, .mts 5 0 0x10].all
    (fun i => !i.wf) = true := by decide +kernel
/-- At the ends of the ranges, they are well formed. -/
theorem test_wellFormed : [Instr.add 117 103 115, .sel 103 111 115, .rcprob 101, .ldd 9 31 0, .pand 95 1 2, .fnadd 31 31 31, .sload 7 1,
      .sstore 11 1, .qdrain 117, .bq 117 4, .rcscore 126 1, .rcscore 3 5, .gmbox 3 7, .rcget 9 15, .mrow 5 1 1 0 0, .vlget 9 5 0 13,
      .stair 8 0 1 6, .stflg 5 0 5, .fmode 4, .vcmp 4 1 2 0 5, .mts 5 0 0].all (fun i => i.wf) = true := by decide +kernel

end Sys2Proof.Tests
end

section
/-! The word a stream issues next (R92, R94, R140, R393), and the step that issues it. -/

namespace Sys2Proof.Machine

/-! ## The next word -/

/-- Within the buffer of an active stair the next word is the buffer's, and no memory is read (R92, R140). -/
theorem nextWord_of_stairPos {u : State} {t : Stair} {b : Nat} (h : u.cur.stairPos = some (t, b)) :
    nextWord u = .ok (atD 0 b t.words, u) := by
  simp only [nextWord, h]

/-- A word that a peer has sent for an address is fetched from its answer, and no memory is read (R393). -/
theorem fetchAt_of_ibuf {u : State} {pc a : Dword} {w : Word} (h : (u.cur.ibuf.find? fun e => e.1 == pc) = some (a, w)) :
    fetchAt pc u = .ok (w, u) := by
  simp only [fetchAt, M.bind_apply, M.get_apply, h, M.pure_apply]

/-- Outside the buffer of an active stair the next word is fetched at the PC (R94). -/
theorem nextWord_of_stairPos_none {u : State} (h : u.cur.stairPos = none) : nextWord u = fetchAt u.cur.pc u := by
  simp only [nextWord, h]

/-! ## The issue of that word -/

/-- A next word that decodes is issued as its instruction, in the state its fetch leaves. -/
theorem issueNext_of_nextWord {u v : State} {w : Word} {i : Instr} (hw : nextWord u = .ok (w, v))
    (hi : decode w = some i) : issueNext u = exec i v := by
  simp only [issueNext, hw, issueWord, hi]

/-- A stream that may issue, with nothing before its next word, issues that word. -/
theorem issueTurn_of_unhindered {s u : State} (hmay : mayIssue s = true) (hu : u = (marked s).updCur Stream.onward)
    (hfree : Unhindered u) : issueTurn s = issueNext u := by
  obtain ⟨hbound, hpend, hresume⟩ := hfree
  have hnone : (if u.strm == .x then u.th.resume else []) = [] := by
    split
    · next hx => exact hresume (beq_iff_eq.mp hx)
    · rfl
  unfold marked at hu
  simp only [issueTurn, hmay, ← hu, hbound, hpend, hnone, Bool.not_true, Bool.false_eq_true, if_false]

/-- In the turn of a stream with nothing before its next word, the step issues that word. -/
theorem step_of_turn {s u : State} {lcore slot : Nat} {q : Strm} (hturn : TurnOf s lcore slot q u)
    (hfree : Unhindered u) : step s = issueNext u := by
  obtain ⟨t, rest, hagenda, hfocus, hmay, hu⟩ := hturn
  have hstep : step s = issueTurn { t with strm := q } := by
    simp only [step, hagenda, doTurn, issueAt, hfocus]
  exact hstep.trans (issueTurn_of_unhindered hmay hu hfree)

end Sys2Proof.Machine

open Sys2Proof Sys2Proof.Machine

/-- Settles O6: the step of an unhindered turn issues the stream's next word, and that word stands in the stair's buffer
or in a peer's answer, so that the state is as the turn found it. -/
theorem stepRunsStair : Obligations.StepRunsStair := by
  intro s u lcore slot q i hturn hfree
  refine ⟨fun t b hpos hi => ?_, fun w hpos hbuf hi => ?_⟩
  · exact (step_of_turn hturn hfree).trans (issueNext_of_nextWord (nextWord_of_stairPos hpos) hi)
  · have hw : nextWord u = .ok (w, u) := (nextWord_of_stairPos_none hpos).trans (fetchAt_of_ibuf hbuf)
    exact (step_of_turn hturn hfree).trans (issueNext_of_nextWord hw hi)

end

section
/-! STAIR (R92, R138 to R140): the checks of its entry, and what it comes to where they pass. -/

namespace Sys2Proof.Machine
open Sys2Proof.Laws

/-- The counts that a STAIR reads, one for each flight (R138). -/
def stairCounts (c : Stream) (d : Reg) (flights : Nat) : List Nat :=
  (List.range flights).map fun g => (Store.get 0 c.gpr (d.toNat + g)).toNat

/-- The stair that a STAIR at the stream's PC sets up, before its first replay (R138, R139). -/
def stairAtStart (c : Stream) (d a : Reg) (flights : Nat) (words : List Word) : Stair :=
  ⟨c.pc + 4, words,
    (List.range flights).map (fun g =>
      ⟨atD 0 g (stairCounts c d flights), 0, pendMask c.pend g false, pendMask c.pend g true⟩),
    c.pend.stepped,
    (List.range (flights * c.pend.stepped.length)).map fun k => Store.get 0 c.gpr (a.toNat + k)⟩

/-- The issuing stream after the STAIR at `pc` (R138, R139): past the buffer where a count is 0, else in the first replay of
`t`. -/
def beginStair (pc : Dword) (len : Nat) (counts : List Nat) (t : Stair) (c : Stream) : Stream :=
  if 0 ∈ counts then { c with pend := ⟨[], []⟩, pc := pc + 4 + BitVec.ofNat 64 (4 * len), stair := none }
  else enterReplay t.replays { c with pend := ⟨[], []⟩ } t

theorem beginStair_of_zero_mem {pc : Dword} {len : Nat} {counts : List Nat} {t : Stair} (h : 0 ∈ counts) :
    beginStair pc len counts t = fun c =>
      { c with pend := ⟨[], []⟩, pc := pc + 4 + BitVec.ofNat 64 (4 * len), stair := none } :=
  funext fun _ => if_pos h

theorem beginStair_of_zero_notMem {pc : Dword} {len : Nat} {counts : List Nat} {t : Stair} (h : 0 ∉ counts) :
    beginStair pc len counts t = fun c => enterReplay t.replays { c with pend := ⟨[], []⟩ } t :=
  funext fun _ => if_neg h

/-- What the entry of STAIR asks of field a (R139): a source scalar where nothing is stepped, else the first of the
stride scalars, all of them general. -/
def StairOperand (c : Stream) (q : Strm) (a : Reg) (flights : Nat) : Prop :=
  (c.pend.stepped.length = 0 → Opnd.ok (.src a) = true ∧ Opnd.streamOk q (.src a) = true) ∧
  (c.pend.stepped.length ≠ 0 → 1 ≤ a.toNat ∧ a.toNat + flights * c.pend.stepped.length ≤ 104)

/-- Where its checks pass, STAIR changes the issuing stream alone, beside what the reads of its buffer leave. -/
theorem stairBody_ok {s s1 : State} {w : Word} {d a : Reg} {len flights : Nat} {words : List Word}
    (hoperand : StairOperand s.cur s.strm a flights)
    (hsection : ∀ e, sectionEnd s s.cur.pc.toNat = some e → s.cur.pc.toNat + 4 + 4 * len ≤ e)
    (hwords : bufferWords len (s.cur.pc + 4) s = .ok (words, s1))
    (hcounts : ∀ n ∈ stairCounts s.cur d flights, n < 2 ^ 32) :
    stairBody w d a len flights s = .ok ((), s1.updCur
      (beginStair s.cur.pc len (stairCounts s.cur d flights) (stairAtStart s.cur d a flights words))) := by
  obtain ⟨hplain, hstepped⟩ := hoperand
  refine (M.bind_ok (M.get_apply s)).trans ?_
  refine (M.bind_ok (M.need_ok ?source)).trans ?_
  case source =>
    split
    · next hm => exact (hplain (beq_iff_eq.mp hm)).1
    · next hm =>
      simpa only [Bool.and_eq_true, decide_eq_true_eq] using hstepped fun h => hm (beq_iff_eq.mpr h)
  refine (M.bind_ok (M.need_ok ?stream)).trans ?_
  case stream =>
    by_cases hm : s.cur.pend.stepped.length = 0
    · exact (Bool.or_eq_true ..).mpr (.inr (hplain hm).2)
    · exact (Bool.or_eq_true ..).mpr (.inl (bne_iff_ne.mpr hm))
  refine (M.bind_ok (M.need_ok ?inSection)).trans ?_
  case inSection =>
    split
    · next e he => exact decide_eq_true (hsection e he)
    · rfl
  refine (M.bind_ok hwords).trans ?_
  refine (M.bind_ok (M.need_ok ?counts)).trans ?_
  case counts => exact List.all_eq_true.mpr fun n hn => decide_eq_true (hcounts n hn)
  refine (M.updC_apply _ s1).trans (congrArg (fun g => Except.ok ((), s1.updCur g)) (funext fun c => ?_))
  have hzero : ((stairCounts s.cur d flights).any fun n => n == 0) = true ↔ 0 ∈ stairCounts s.cur d flights := by
    simp only [List.any_eq_true, beq_iff_eq, exists_eq_right]
  exact ite_congr (propext hzero) (fun _ => rfl) (fun _ => rfl)

/-- Where the entry's checks pass, STAIR completes, and its stream stands past the buffer or in the first replay. -/
theorem exec_stair {s s1 : State} {d a : Reg} {l : BitVec 6} {f : BitVec 3} {len : Nat} {words : List Word}
    (hready : Ready (.stair d a l f) s = true) (hlen : len = if l = 0 then 64 else l.toNat)
    (hoperand : StairOperand s.cur s.strm a f.toNat)
    (hsection : ∀ e, sectionEnd s s.cur.pc.toNat = some e → s.cur.pc.toNat + 4 + 4 * len ≤ e)
    (hwords : bufferWords len (s.cur.pc + 4) s = .ok (words, s1))
    (hcounts : ∀ n ∈ stairCounts s.cur d f.toNat, n < 2 ^ 32) :
    exec (.stair d a l f) s = .next (retire (s1.updCur
      (beginStair s.cur.pc len (stairCounts s.cur d f.toNat) (stairAtStart s.cur d a f.toNat words)))) := by
  have hl : (if l == 0 then 64 else l.toNat) = len := by simpa only [beq_iff_eq] using hlen.symm
  have hissue : exec (.stair d a l f) s =
      issue .stair (encode (.stair d a l f)) (stairBody (encode (.stair d a l f)) d a len f.toNat) s := by
    subst hl; rfl
  exact hissue.trans (issue_ok hready (op_stair d a l f) (stairBody_ok hoperand hsection hwords hcounts))

end Sys2Proof.Machine

open Sys2Proof Sys2Proof.Machine

/-- Settles O29: the entry's checks pass, and the stream then goes past the buffer or into the first replay, by whether a
count is 0. That field a is only checked, and no queue popped, where nothing is stepped is the model's own choice, which
no rule states (log 82). -/
theorem stairBegins : Obligations.StairBegins := by
  intro s s1 d a l f words len m counts hready hlen hm hplain hstepped hsection hwords hcounts hsmall
  have hc : counts = stairCounts s.cur d f.toNat := hcounts
  subst hm hc
  have hrun := exec_stair hready hlen ⟨hplain, hstepped⟩ hsection hwords hsmall
  refine ⟨fun hzero => ?_, fun hzero t ht => ?_⟩
  · rw [hrun, beginStair_of_zero_mem hzero]
  · have ht' : t = stairAtStart s.cur d a f.toNat words := ht
    rw [hrun, beginStair_of_zero_notMem hzero, ht']

end

section
/-! Scalar instructions (R117 to R123, R144, R186): what each form's effect comes to once its operands are read, and the
agreement of the values it computes with those the rules state. -/

namespace Sys2Proof.Machine
open Sys2Proof.Laws

/-! ## What a completed effect comes to -/

/-- A ready instruction whose effect completes ends, and the next word follows. -/
theorem exec_finish {i : Instr} {o : Op} {s t : State} {body : M Unit} (hready : Ready i s = true)
    (hop : opOf (encode i) = some o) (hissue : exec i s = issueN o (encode i) body s) (hbody : body s = .ok ((), t)) :
    exec i s = .next (finish t) :=
  hissue.trans (issueN_ok hready hop hbody)

theorem alu2_ok {d a b : Reg} {f : Dword → Dword → Dword} {s s1 s2 s3 : State} {x y : Dword}
    (ha : rd a s = .ok (x, s1)) (hb : rd b s1 = .ok (y, s2)) (hd : wr d (f x y) s2 = .ok ((), s3)) :
    alu2 d a b f s = .ok ((), s3) :=
  (M.bind_ok ha).trans ((M.bind_ok hb).trans hd)

theorem alu1_ok {d a : Reg} {f : Dword → Dword} {s s1 s2 : State} {x : Dword}
    (ha : rd a s = .ok (x, s1)) (hd : wr d (f x) s1 = .ok ((), s2)) : alu1 d a f s = .ok ((), s2) :=
  (M.bind_ok ha).trans hd

/-! ## The values of the integer forms (R48, R117, R118) -/

theorem slt64_eq_true_iff {x y : Dword} : slt64 x y = true ↔ x.toInt < y.toInt := decide_eq_true_iff
theorem ult64_eq_true_iff {x y : Dword} : ult64 x y = true ↔ x.toNat < y.toNat := decide_eq_true_iff

theorem min_eq_ite_le (x y : Dword) : (if slt64 y x then y else x) = if x.toInt ≤ y.toInt then x else y := by
  simp only [slt64_eq_true_iff, ← Int.not_le, ite_not]

theorem max_eq_ite_le (x y : Dword) : (if slt64 x y then y else x) = if x.toInt ≤ y.toInt then y else x := by
  simp only [slt64_eq_true_iff]
  by_cases hle : x.toInt ≤ y.toInt
  · by_cases hlt : x.toInt < y.toInt
    · rw [if_pos hlt, if_pos hle]
    · rw [if_neg hlt, if_pos hle, BitVec.eq_of_toInt_eq (Int.le_antisymm hle (Int.not_lt.mp hlt))]
  · rw [if_neg fun hlt => hle (Int.le_of_lt hlt), if_neg hle]

theorem minu_eq_ite_le (x y : Dword) : (if ult64 y x then y else x) = if x.toNat ≤ y.toNat then x else y := by
  simp only [ult64_eq_true_iff, ← Nat.not_le, ite_not]

theorem maxu_eq_ite_le (x y : Dword) : (if ult64 x y then y else x) = if x.toNat ≤ y.toNat then y else x := by
  simp only [ult64_eq_true_iff]
  by_cases hle : x.toNat ≤ y.toNat
  · by_cases hlt : x.toNat < y.toNat
    · rw [if_pos hlt, if_pos hle]
    · rw [if_neg hlt, if_pos hle, BitVec.eq_of_toNat_eq (Nat.le_antisymm hle (Nat.not_lt.mp hlt))]
  · rw [if_neg fun hlt => hle (Nat.le_of_lt hlt), if_neg hle]

theorem boolWord_slt64 (x y : Dword) : boolWord (slt64 x y) = if x.toInt < y.toInt then 1 else 0 := by
  simp only [boolWord, slt64_eq_true_iff]

theorem boolWord_ult64 (x y : Dword) : boolWord (ult64 x y) = if x.toNat < y.toNat then 1 else 0 := by
  simp only [boolWord, ult64_eq_true_iff]

theorem boolWord_beq (x y : Dword) : boolWord (x == y) = if x = y then 1 else 0 := by
  simp only [boolWord, beq_iff_eq]

theorem boolWord_slt64_signExtend (i : BitVec 11) (x : Dword) :
    boolWord (slt64 x (i.signExtend 64)) = if x.toInt < i.toInt then 1 else 0 := by
  rw [boolWord_slt64, BitVec.toInt_signExtend_of_le (by decide)]

theorem mul_eq_ofNat (x y : Dword) : x * y = BitVec.ofNat 64 (x.toNat * y.toNat) := by
  rw [BitVec.ofNat_mul, BitVec.ofNat_toNat, BitVec.ofNat_toNat, BitVec.setWidth_eq, BitVec.setWidth_eq]

theorem sdiv64_eq (x y : Dword) :
    sdiv64 x y = if y = 0 then BitVec.allOnes 64 else BitVec.ofInt 64 (x.toInt.tdiv y.toInt) := by
  simp only [sdiv64, beq_iff_eq]

theorem udiv64_eq (x y : Dword) :
    udiv64 x y = if y = 0 then BitVec.allOnes 64 else BitVec.ofNat 64 (x.toNat / y.toNat) := by
  simp only [udiv64, beq_iff_eq, BitVec.udiv_def]

theorem srem64_eq (x y : Dword) :
    srem64 x y = if y = 0 then x else BitVec.ofInt 64 (x.toInt.tmod y.toInt) := by
  simp only [srem64, beq_iff_eq]

theorem urem64_eq (x y : Dword) :
    urem64 x y = if y = 0 then x else BitVec.ofNat 64 (x.toNat % y.toNat) := by
  simp only [urem64, beq_iff_eq, BitVec.umod_def]

theorem popcount_eq_countP (n : Nat) : ∀ v, popcount n v = (List.range n).countP v.testBit := by
  induction n with
  | zero => exact fun _ => rfl
  | succ n ih =>
    intro v
    have hlow : v % 2 = if v.testBit 0 then 1 else 0 := by
      rw [Nat.testBit_zero]
      rcases Nat.mod_two_eq_zero_or_one v with h | h <;> simp [h]
    have hrest : (v.testBit ∘ Nat.succ) = (v / 2).testBit := funext fun k => Nat.testBit_succ v k
    rw [popcount, ih, List.range_succ_eq_map, List.countP_cons, List.countP_map, hrest, hlow, Nat.add_comm]

theorem popcount_toNat (x : Dword) :
    BitVec.ofNat 64 (popcount 64 x.toNat) = BitVec.ofNat 64 ((List.range 64).countP fun k => x.getLsbD k) :=
  congrArg (BitVec.ofNat 64) (popcount_eq_countP 64 x.toNat)

/-- Every two-operand form is an issue of `alu2` with its function (R48, R117, R118). -/
theorem IsBinary.issues_alu2 {i : Instr} {d a b : Reg} {f : Dword → Dword → Dword} (h : IsBinary i d a b f) :
    ∃ o g, opOf (encode i) = some o ∧ (∀ s, exec i s = issueN o (encode i) (alu2 d a b g) s) ∧ ∀ x y, g x y = f x y := by
  cases h with
  | add => exact ⟨.add, _, op_add _ _ _, fun _ => rfl, fun _ _ => rfl⟩
  | sub => exact ⟨.sub, _, op_sub _ _ _, fun _ => rfl, fun _ _ => rfl⟩
  | and => exact ⟨.and, _, op_and _ _ _, fun _ => rfl, fun _ _ => rfl⟩
  | or => exact ⟨.or, _, op_or _ _ _, fun _ => rfl, fun _ _ => rfl⟩
  | xor => exact ⟨.xor, _, op_xor _ _ _, fun _ => rfl, fun _ _ => rfl⟩
  | shl => exact ⟨.shl, _, op_shl _ _ _, fun _ => rfl, fun _ _ => rfl⟩
  | shr => exact ⟨.shr, _, op_shr _ _ _, fun _ => rfl, fun _ _ => rfl⟩
  | sra => exact ⟨.sra, _, op_sra _ _ _, fun _ => rfl, fun _ _ => rfl⟩
  | min => exact ⟨.min, _, op_min _ _ _, fun _ => rfl, min_eq_ite_le⟩
  | max => exact ⟨.max, _, op_max _ _ _, fun _ => rfl, max_eq_ite_le⟩
  | minu => exact ⟨.minu, _, op_minu _ _ _, fun _ => rfl, minu_eq_ite_le⟩
  | maxu => exact ⟨.maxu, _, op_maxu _ _ _, fun _ => rfl, maxu_eq_ite_le⟩
  | slt => exact ⟨.slt, _, op_slt _ _ _, fun _ => rfl, boolWord_slt64⟩
  | sltu => exact ⟨.sltu, _, op_sltu _ _ _, fun _ => rfl, boolWord_ult64⟩
  | seq => exact ⟨.seq, _, op_seq _ _ _, fun _ => rfl, boolWord_beq⟩
  | mul => exact ⟨.mul, _, op_mul _ _ _, fun _ => rfl, mul_eq_ofNat⟩
  | mulh => exact ⟨.mulh, _, op_mulh _ _ _, fun _ => rfl, fun _ _ => rfl⟩
  | mulhu => exact ⟨.mulhu, _, op_mulhu _ _ _, fun _ => rfl, fun _ _ => rfl⟩
  | div => exact ⟨.div, _, op_div _ _ _, fun _ => rfl, sdiv64_eq⟩
  | divu => exact ⟨.divu, _, op_divu _ _ _, fun _ => rfl, udiv64_eq⟩
  | rem => exact ⟨.rem, _, op_rem _ _ _, fun _ => rfl, srem64_eq⟩
  | remu => exact ⟨.remu, _, op_remu _ _ _, fun _ => rfl, urem64_eq⟩

/-- Every one-operand or immediate form is an issue of `alu1` with its function (R118, R119). -/
theorem IsUnary.issues_alu1 {i : Instr} {d a : Reg} {f : Dword → Dword} (h : IsUnary i d a f) :
    ∃ o g, opOf (encode i) = some o ∧ (∀ s, exec i s = issueN o (encode i) (alu1 d a g) s) ∧ ∀ x, g x = f x := by
  cases h with
  | clz => exact ⟨.clz, _, op_clz _ _, fun _ => rfl, fun _ => rfl⟩
  | ctz => exact ⟨.ctz, _, op_ctz _ _, fun _ => rfl, fun _ => rfl⟩
  | popc => exact ⟨.popc, _, op_popc _ _, fun _ => rfl, popcount_toNat⟩
  | sxb => exact ⟨.sxb, _, op_sxb _ _, fun _ => rfl, fun _ => rfl⟩
  | sxh => exact ⟨.sxh, _, op_sxh _ _, fun _ => rfl, fun _ => rfl⟩
  | sxw => exact ⟨.sxw, _, op_sxw _ _, fun _ => rfl, fun _ => rfl⟩
  | addi => exact ⟨.addi, _, op_addi _ _ _, fun _ => rfl, fun _ => rfl⟩
  | andi => exact ⟨.andi, _, op_andi _ _ _, fun _ => rfl, fun _ => rfl⟩
  | ori => exact ⟨.ori, _, op_ori _ _ _, fun _ => rfl, fun _ => rfl⟩
  | xori => exact ⟨.xori, _, op_xori _ _ _, fun _ => rfl, fun _ => rfl⟩
  | shli => exact ⟨.shli, _, op_shli _ _ _, fun _ => rfl, fun _ => rfl⟩
  | shri => exact ⟨.shri, _, op_shri _ _ _, fun _ => rfl, fun _ => rfl⟩
  | srai => exact ⟨.srai, _, op_srai _ _ _, fun _ => rfl, fun _ => rfl⟩
  | slti d a i => exact ⟨.slti, _, op_slti _ _ _, fun _ => rfl, boolWord_slt64_signExtend i⟩
  | lsh => exact ⟨.lsh, _, op_lsh _ _, fun _ => rfl, fun _ => rfl⟩

end Sys2Proof.Machine

open Sys2Proof Sys2Proof.Machine

/-- Settles O18: both forms are issues of one shared effect, `alu2` or `alu1`, and each form's function is the one the
rules state. -/
theorem scalarResults : Obligations.ScalarResults := by
  intro i d a b s s1 s2 s3 x y hready ha
  refine ⟨fun f hf hb hd => ?_, fun f hf hd => ?_⟩
  · obtain ⟨o, g, hop, hissue, hg⟩ := hf.issues_alu2
    exact exec_finish hready hop (hissue s) (alu2_ok ha hb (by rw [hg]; exact hd))
  · obtain ⟨o, g, hop, hissue, hg⟩ := hf.issues_alu1
    exact exec_finish hready hop (hissue s) (alu1_ok ha (by rw [hg]; exact hd))
end

section
/-! SEL, LI, QCNT, AGET and AGSTR (R117, R119, R144, R186). -/

namespace Sys2Proof.Machine
open Sys2Proof.Laws

/-- SEL reads d before its two sources, and writes the one that d's value selects (R117). -/
theorem exec_sel {d a b : Reg} {s s1 s2 s3 t : State} {c x y : Dword} (hready : Ready (.sel d a b) s = true)
    (hc : rd d s = .ok (c, s1)) (hx : rd a s1 = .ok (x, s2)) (hy : rd b s2 = .ok (y, s3))
    (hd : wr d (if c ≠ 0 then x else y) s3 = .ok ((), t)) : exec (.sel d a b) s = .next (finish t) := by
  refine exec_finish hready (op_sel d a b) rfl ((M.bind_ok hc).trans (alu2_ok hx hy ?_))
  simpa only [bne_iff_ne] using hd

/-- An instruction that writes a value read off the state, as QCNT, AGET and AGSTR do. -/
theorem exec_of_see_wr {α : Type} {i : Instr} {o : Op} {d : Reg} {f : State → α} {g : α → Dword} {s t : State}
    (hready : Ready i s = true) (hop : opOf (encode i) = some o)
    (hissue : exec i s = issueN o (encode i) (do wr d (g (← see f))) s) (hd : wr d (g (f s)) s = .ok ((), t)) :
    exec i s = .next (finish t) :=
  exec_finish hready hop hissue ((M.bind_ok (M.see_apply f s)).trans hd)

end Sys2Proof.Machine

open Sys2Proof Sys2Proof.Machine Sys2Proof.Laws

/-- Settles O19: SEL's three reads and its write complete in their order; each of the others writes one value. -/
theorem scalarMoves : Obligations.ScalarMoves := by
  intro s t d a b o
  refine ⟨fun c x y s1 s2 s3 hready hc hx hy hd => exec_sel hready hc hx hy hd,
    fun hready hd => exec_finish hready (op_li d o) rfl hd,
    fun hready hd => ?qcnt, fun hready hd => ?aget, fun hready hd => ?agstr⟩
  case qcnt => exact exec_of_see_wr (f := fun s => (s.th.queue a.toNat).length) hready (op_qcnt d a) rfl hd
  case aget => exact exec_of_see_wr (g := id) (f := fun s => s.th.ar a) hready (op_aget d a) rfl hd
  case agstr => exact exec_of_see_wr (g := id) (f := fun s => s.th.arStride a) hready (op_agstr d a) rfl hd

end

section
/-! Scalar floating point (R121 to R123): each form reads its sources in order and hands the rounded result to `fpWrite`. -/

namespace Sys2Proof.Machine
open Sys2Proof.Laws

/-! ## Reads leave the stream -/

theorem State.cur_updTh_setQueue (s : State) (n : Nat) (l : List Dword) :
    (s.updTh fun t => t.setQueue n l).cur = s.cur := by
  show (s.th.setQueue n l).str s.strm = s.th.str s.strm
  cases s.strm <;> rfl

/-- A read of a scalar leaves the issuing stream as it was, and which stream issues. -/
theorem rd_cur {r : Reg} {s s' : State} {v : Dword} (h : rd r s = .ok (v, s')) : s'.cur = s.cur ∧ s'.strm = s.strm := by
  rcases rd_cases h with ⟨-, -, rfl⟩ | ⟨-, l, -, rfl⟩
  · exact ⟨rfl, rfl⟩
  · exact ⟨s.cur_updTh_setQueue _ l, rfl⟩

theorem readAll_cur {rs : List Reg} : ∀ {s s' : State} {vs : List Dword}, readAll rs s = .ok (vs, s') → s'.cur = s.cur := by
  induction rs with
  | nil => intro s s' vs h; rw [(readAll_nil h).2]
  | cons r rs ih =>
    intro s s' vs h
    obtain ⟨v, s1, ws, hr, hrs, -⟩ := readAll_cons h
    exact (ih hrs).trans (rd_cur hr).1

/-- Two scalars are read one after the other. -/
theorem readAll_pair {a b : Reg} {s s' : State} {vs : List Dword} (h : readAll [a, b] s = .ok (vs, s')) :
    ∃ x y u, rd a s = .ok (x, u) ∧ rd b u = .ok (y, s') ∧ vs = [x, y] := by
  obtain ⟨x, u, ws, ha, hrest, rfl⟩ := readAll_cons h
  obtain ⟨y, v, ws', hb, hnil, rfl⟩ := readAll_cons hrest
  obtain ⟨rfl, rfl⟩ := readAll_nil hnil
  exact ⟨x, y, _, ha, hb, rfl⟩

/-! ## The result written, or FPX (R123) -/

theorem fpWrite_quiet {d : Reg} {r : FRes} {s : State} (h : enabled s.cur.fmode r.2 = 0) :
    fpWrite d r s = wr d (BitVec.ofNat 64 r.1) s := by
  simp only [fpWrite, M.bind_apply, M.see_apply, h, beq_self_eq_true, if_true]

theorem fpWrite_trap {d : Reg} {r : FRes} {s : State} (h : enabled s.cur.fmode r.2 ≠ 0) :
    fpWrite d r s = .error (.trap cFPX (fpxInfo (enabled s.cur.fmode r.2))) := by
  simp only [fpWrite, M.bind_apply, M.see_apply, beq_iff_eq, h, if_false, M.trap_apply]

/-! ## The forms -/

theorem fp1_run {d a : Reg} {f : Rnd → Dword → FRes} {s s1 : State} {vs : List Dword}
    (h : readAll [a] s = .ok (vs, s1)) : fp1 d a f s = fpWrite d (f (scalarRnd s1) (atD 0 0 vs)) s1 := by
  obtain ⟨x, u, ws, ha, hrest, rfl⟩ := readAll_cons h
  obtain ⟨rfl, rfl⟩ := readAll_nil hrest
  exact M.bind_ok ha

theorem fp2_run {d a b : Reg} {f : Rnd → Nat → Nat → FRes} {s s1 : State} {vs : List Dword}
    (h : readAll [a, b] s = .ok (vs, s1)) :
    fp2 d a b f s = fpWrite d (f (scalarRnd s1) (atD 0 0 vs).toNat (atD 0 1 vs).toNat) s1 := by
  obtain ⟨x, y, u, ha, hb, rfl⟩ := readAll_pair h
  exact (M.bind_ok ha).trans (M.bind_ok hb)

theorem fpCmp_run {d a b : Reg} {cond : Nat} {s s1 : State} {vs : List Dword} (h : readAll [a, b] s = .ok (vs, s1)) :
    fpCmp d a b cond s = fpWrite d ((if (fCmp fp64 cond (atD 0 0 vs).toNat (atD 0 1 vs).toNat).1 then 1 else 0),
      (fCmp fp64 cond (atD 0 0 vs).toNat (atD 0 1 vs).toNat).2) s1 := by
  obtain ⟨x, y, u, ha, hb, rfl⟩ := readAll_pair h
  exact (M.bind_ok ha).trans (M.bind_ok hb)

/-- SFMA reads the addend d before the factors (R121). -/
theorem fma_run {d a b : Reg} {s s1 : State} {vs : List Dword} (h : readAll [d, a, b] s = .ok (vs, s1)) :
    (do let c ← rd d; fp2 d a b fun r x y => fFma fp64 r false c.toNat x y : M Unit) s =
      fpWrite d (fFma fp64 (scalarRnd s1) false (atD 0 0 vs).toNat (atD 0 1 vs).toNat (atD 0 2 vs).toNat) s1 := by
  obtain ⟨c, u, ws, hd, hrest, rfl⟩ := readAll_cons h
  exact (M.bind_ok hd).trans (fp2_run hrest)

/-- Every floating form is an issue of an effect that reads its sources and hands their result to `fpWrite`. -/
theorem IsFloat.issues_fpWrite {i : Instr} {d : Reg} {rs : List Reg} {f : Rnd → List Dword → FRes}
    (h : IsFloat i d rs f) : ∃ o body, opOf (encode i) = some o ∧ (∀ s, exec i s = issueN o (encode i) body s) ∧
      ∀ s s1 vs, readAll rs s = .ok (vs, s1) → body s = fpWrite d (f (scalarRnd s1) vs) s1 := by
  cases h with
  | sfadd => exact ⟨.sfadd, _, op_sfadd _ _ _, fun _ => rfl, fun _ _ _ => fp2_run⟩
  | sfsub => exact ⟨.sfsub, _, op_sfsub _ _ _, fun _ => rfl, fun _ _ _ => fp2_run⟩
  | sfmul => exact ⟨.sfmul, _, op_sfmul _ _ _, fun _ => rfl, fun _ _ _ => fp2_run⟩
  | sfdiv => exact ⟨.sfdiv, _, op_sfdiv _ _ _, fun _ => rfl, fun _ _ _ => fp2_run⟩
  | sfsqrt => exact ⟨.sfsqrt, _, op_sfsqrt _ _, fun _ => rfl, fun _ _ _ => fp1_run⟩
  | sfmin => exact ⟨.sfmin, _, op_sfmin _ _ _, fun _ => rfl, fun _ _ _ => fp2_run⟩
  | sfmax => exact ⟨.sfmax, _, op_sfmax _ _ _, fun _ => rfl, fun _ _ _ => fp2_run⟩
  | sfma => exact ⟨.sfma, _, op_sfma _ _ _, fun _ => rfl, fun _ _ _ => fma_run⟩
  | sfeq => exact ⟨.sfeq, _, op_sfeq _ _ _, fun _ => rfl, fun _ _ _ => fpCmp_run⟩
  | sflt => exact ⟨.sflt, _, op_sflt _ _ _, fun _ => rfl, fun _ _ _ => fpCmp_run⟩
  | sfle => exact ⟨.sfle, _, op_sfle _ _ _, fun _ => rfl, fun _ _ _ => fpCmp_run⟩
  | scvdl => exact ⟨.scvdl, _, op_scvdl _ _, fun _ => rfl, fun _ _ _ => fp1_run⟩
  | scvld => exact ⟨.scvld, _, op_scvld _ _, fun _ => rfl, fun _ _ _ => fp1_run⟩
  | scvdf => exact ⟨.scvdf, _, op_scvdf _ _, fun _ => rfl, fun _ _ _ => fp1_run⟩
  | scvfd => exact ⟨.scvfd, _, op_scvfd _ _, fun _ => rfl, fun _ _ _ => fp1_run⟩
  | scvdh => exact ⟨.scvdh, _, op_scvdh _ _, fun _ => rfl, fun _ _ _ => fp1_run⟩
  | scvhd => exact ⟨.scvhd, _, op_scvhd _ _, fun _ => rfl, fun _ _ _ => fp1_run⟩
  | scvdb => exact ⟨.scvdb, _, op_scvdb _ _, fun _ => rfl, fun _ _ _ => fp1_run⟩
  | scvbd => exact ⟨.scvbd, _, op_scvbd _ _, fun _ => rfl, fun _ _ _ => fp1_run⟩

end Sys2Proof.Machine

open Sys2Proof Sys2Proof.Machine

/-- Settles O20: the reads leave fmode as it was, and `fpWrite` writes the result or takes FPX in the state the
instruction found, with every pop undone. -/
theorem scalarFloat : Obligations.ScalarFloat := by
  intro i d rs f s s1 s2 vs hf hready hread
  obtain ⟨o, body, hop, hissue, hbody⟩ := hf.issues_fpWrite
  have hrun := hbody s s1 vs hread
  rw [← readAll_cur hread]
  refine ⟨fun hquiet hd => ?_, fun hraised => ?_⟩
  · exact exec_finish hready hop (hissue s) ((hrun.trans (fpWrite_quiet hquiet)).trans hd)
  · exact (hissue s).trans (issueN_stop hready hop (hrun.trans (fpWrite_trap hraised)))

end

section
/-! Branches on predicates and end flags (R126, R127). -/

namespace Sys2Proof.Machine
open Sys2Proof.Laws

/-- A branch completes: at its target where it is taken, past it where it is not (R124). -/
theorem branchIf_ok {n : Nat} (c : Bool) (o : BitVec n) (s : State) :
    ∃ t, branchIf c o s = .ok ((), t) ∧
      retire t = if c then jumped (s.cur.pc + o.signExtend 64 * 4) s else finish s := by
  cases c
  · exact ⟨_, rfl, rfl⟩
  · exact ⟨_, rfl, rfl⟩

/-- A ready instruction whose effect comes to a branch goes to its target or to the next word. -/
theorem exec_branch {i : Instr} {o : Op} {s : State} {body : M Unit} {c : Bool} {n : Nat} {off : BitVec n}
    (hready : Ready i s = true) (hop : opOf (encode i) = some o) (hissue : exec i s = issue o (encode i) body s)
    (hbody : body s = branchIf c off s) :
    exec i s = .next (if c then jumped (s.cur.pc + off.signExtend 64 * 4) s else finish s) := by
  obtain ⟨t, ht, hend⟩ := branchIf_ok c off s
  rw [hissue, issue_ok hready hop (hbody.trans ht), hend]

/-- A ready instruction whose effect traps before it has changed anything takes that trap. -/
theorem exec_takeTrap {i : Instr} {o : Op} {s : State} {body : M Unit} {c : BitVec 8} {e : Dword}
    (hready : Ready i s = true) (hop : opOf (encode i) = some o) (hissue : exec i s = issue o (encode i) body s)
    (hbody : body s = .error (.trap c e)) : exec i s = .next (takeTrap s c e) :=
  hissue.trans (issue_stop hready hop hbody)

theorem getLsbD_lowMask (n k : Nat) : (lowMask n).getLsbD k = decide (k < 2048 ∧ k < n) := by
  rw [lowMask, BitVec.getLsbD_ofNat, Nat.testBit_two_pow_sub_one, Bool.eq_iff_iff]
  simp only [Bool.and_eq_true, decide_eq_true_eq, Nat.lt_min]
  omega

/-- The test of BANY and BNONE: a bit of the predicate below vl is set (R126). -/
theorem predAny_eq_true_iff {s : State} {p : Reg} :
    predAny s p = true ↔ ∃ k, k < 2048 ∧ k < s.cur.vl.toNat ∧ (predVal s.th p.toNat).getLsbD k = true := by
  have hzero : predVal s.th p.toNat &&& lowMask s.cur.vl.toNat = 0 ↔
      ∀ k, ¬ (k < 2048 ∧ k < s.cur.vl.toNat ∧ (predVal s.th p.toNat).getLsbD k = true) := by
    constructor
    · intro h k hk
      obtain ⟨hlt, hvl, hset⟩ := hk
      have hbit := congrArg (fun m : Mask => m.getLsbD k) h
      simp only [BitVec.getLsbD_and, hset, getLsbD_lowMask, hlt, hvl, BitVec.ofNat_eq_ofNat, BitVec.getLsbD_zero] at hbit
      exact absurd hbit (by decide)
    · intro h
      refine BitVec.eq_of_getLsbD_eq fun k hlt => ?_
      have hk := h k
      simp only [BitVec.getLsbD_and, getLsbD_lowMask, BitVec.ofNat_eq_ofNat, BitVec.getLsbD_zero]
      refine Bool.eq_false_iff.mpr fun hset => hk ?_
      obtain ⟨hbit, hbelow⟩ := (Bool.and_eq_true _ _).mp hset
      obtain ⟨hlt, hvl⟩ := of_decide_eq_true hbelow
      exact ⟨hlt, hvl, hbit⟩
  rw [predAny, bne_iff_ne, ne_eq, hzero, Classical.not_forall_not]

theorem exec_bany {c : Reg} {o : BitVec 18} {s : State} (hready : Ready (.bany c o) s = true) :
    exec (.bany c o) s = .next (if predAny s c then jumped (s.cur.pc + o.signExtend 64 * 4) s else finish s) :=
  exec_branch hready (op_bany c o) rfl (M.bind_ok (M.see_apply _ s))

theorem exec_bnone {c : Reg} {o : BitVec 18} {s : State} (hready : Ready (.bnone c o) s = true) :
    exec (.bnone c o) s = .next (if !predAny s c then jumped (s.cur.pc + o.signExtend 64 * 4) s else finish s) :=
  exec_branch hready (op_bnone c o) rfl (M.bind_ok (M.see_apply _ s))

theorem exec_bend_inbound {c : Reg} {o : BitVec 18} {s : State} {j : Nat} (hready : Ready (.bend c o) s = true)
    (hbound : boundTo s.th (phys s.th c 0) = some j) (hj : j ≤ 7) :
    exec (.bend c o) s = .next (if (s.th.vstream j).held = true
      then jumped (s.cur.pc + o.signExtend 64 * 4) s else finish s) := by
  refine exec_branch hready (op_bend c o) rfl ((M.bind_ok (M.get_apply s)).trans ?_)
  simp only [hbound, hj, if_true]

theorem exec_bend_unbound {c : Reg} {o : BitVec 18} {s : State} (hready : Ready (.bend c o) s = true)
    (hbound : boundTo s.th (phys s.th c 0) = none) :
    exec (.bend c o) s = .next (takeTrap s cILL ((encode (.bend c o)).setWidth 64)) := by
  refine exec_takeTrap hready (op_bend c o) rfl ((M.bind_ok (M.get_apply s)).trans ?_)
  simp only [hbound]
  rfl

end Sys2Proof.Machine

open Sys2Proof Sys2Proof.Machine

/-- Settles O23: BANY and BNONE go by the model's test, which is that of a bit below vl; BEND goes by the end flag. -/
theorem vectorBranches : Obligations.VectorBranches := by
  intro c o s
  refine ⟨fun hready => ?_, fun hready => ?_, fun j hready hbound hj => exec_bend_inbound hready hbound hj,
    fun hready hbound => exec_bend_unbound hready hbound⟩
  · simp only [exec_bany hready, predAny_eq_true_iff]
  · simp only [exec_bnone hready, Bool.not_eq_true', ← Bool.not_eq_true, predAny_eq_true_iff, ite_not]

end

section
/-! Traps by instruction, NOP, YIELD and QDRAIN (R130, R145). -/

namespace Sys2Proof.Machine
open Sys2Proof.Laws

/-! ## What a trap leaves of the thread in focus -/

/-- A state has the thread in focus of another, with the same stream issuing. -/
def SameFocus (s t : State) : Prop := t.th = s.th ∧ t.strm = s.strm

theorem SameFocus.cur {s t : State} (h : SameFocus s t) : t.cur = s.cur := by
  rw [State.cur, State.cur, h.1, h.2]

theorem SameFocus.trans {s t u : State} (h : SameFocus s t) (k : SameFocus t u) : SameFocus s u :=
  ⟨k.1.trans h.1, k.2.trans h.2⟩

theorem SameFocus.writeLE {s t : State} (k n v : Nat) (h : SameFocus s t) : SameFocus s (writeLE t k n v) := h
theorem SameFocus.zeroRange {s t : State} (k n : Nat) (h : SameFocus s t) : SameFocus s (zeroRange t k n) := h
theorem SameFocus.count {s t : State} (u : Thread) (n k : Nat) (h : SameFocus s t) : SameFocus s (count t u n k) :=
  ⟨(count_th t u n k).trans h.1, (count_strm t u n k).trans h.2⟩

theorem lookup_focus {s t : State} {pn va : Nat} {e : TlbEntry} (h : lookup s pn va = some (e, t)) : SameFocus s t := by
  unfold lookup at h
  split at h
  · cases h; exact ⟨rfl, rfl⟩
  · split at h
    · cases h; exact ⟨rfl, rfl⟩
    · cases h

theorem deviceEntry_focus {s t : State} {pn va m : Nat} {a : Acc} {e : TlbEntry}
    (h : deviceEntry s pn va a = some (e, m, t)) : SameFocus s t := by
  unfold deviceEntry at h
  split at h
  · cases h
  · split at h
    · next hl =>
      dsimp only at h
      split at h
      · cases h; exact lookup_focus hl
      · cases h
    · cases h

theorem devicePlace_focus {s t : State} {pn va n k : Nat} {a : Acc} (h : devicePlace s pn va n a = some (k, t)) :
    SameFocus s t := by
  unfold devicePlace at h
  split at h
  · next he =>
    have hsame := deviceEntry_focus he
    split at h
    · cases h; exact hsame
    · split at h
      · split at h
        · split at h
          · cases h; exact hsame
          · cases h
        · cases h
      · cases h
  · cases h

/-- A trace record touches neither the thread in focus nor which stream issues (R77). -/
theorem traceRec_focus (s : State) (t : Thread) (kind : Nat) (q : Strm) (pc : Dword) (extra : Nat) :
    SameFocus s (traceRec s t kind q pc extra) := by
  unfold traceRec
  extract_lets
  split
  · exact ⟨rfl, rfl⟩
  · split
    · exact ⟨rfl, rfl⟩
    · next h1 =>
      have hsame1 := devicePlace_focus h1
      extract_lets
      split
      · exact hsame1.writeLE _ _ _
      · next h2 =>
        have hsame2 := hsame1.trans (devicePlace_focus h2)
        extract_lets _ _ _ _ _ _ u v
        have hu : SameFocus s u := ((((((hsame2.writeLE _ _ _).writeLE _ _ _).writeLE _ _ _).writeLE _ _ _).writeLE
          _ _ _).writeLE _ _ _).writeLE _ _ _
        clear_value u
        refine SameFocus.writeLE _ _ _ ?_
        unfold v
        split
        · exact hu.zeroRange _ _
        · exact hu

/-- What a trap reports: its code, its detail, and the PC as EPC (R78, R79). -/
theorem takeTrap_reports (s : State) (c : BitVec 8) (e : Dword) :
    (takeTrap s c e).cur.cause = c.setWidth 64 ∧ (takeTrap s c e).cur.einfo = e ∧
      (takeTrap s c e).cur.epc = s.cur.pc := by
  unfold takeTrap
  extract_lets u v own w
  have hu : SameFocus s u := traceRec_focus s s.th 2 s.strm s.cur.pc c.toNat
  have hv : SameFocus s v := by
    unfold v
    split
    · exact hu.count _ _ _
    · split
      · exact hu.count _ _ _
      · exact hu
  have hw : ∀ f : Thread → Thread, (∀ t q, (f t).str q = t.str q) → (w.updTh f).cur = w.cur := fun f hf => hf w.th w.strm
  rw [hw _ (fun t q => by cases q <;> rfl)]
  unfold w
  rw [State.cur_updCur, hv.cur]
  exact ⟨rfl, rfl, rfl⟩

/-! ## Words that are no instruction -/

theorem fOp_eq_div (w : Word) : fOp w = w.toNat / 2 ^ 25 := by
  have hlt := w.isLt
  rw [fOp, BitVec.extractLsb'_toNat, Nat.shiftRight_eq_div_pow]
  omega

/-- A word that decodes to nothing takes ILL with the word in EINFO (R102). -/
theorem issueWord_of_decode_none {w : Word} (h : decode w = none) (s : State) :
    issueWord w s = .next (takeTrap s cILL (w.setWidth 64)) := by
  rw [issueWord, h]
  rfl

/-- A word whose operands fail step 3 of R101 decodes to nothing. -/
theorem decode_of_not_ok3 {w : Word} {o : Op} (hop : opOf w = some o) (hbad : (opInfo w o).ok3 = false) :
    decode w = none := by
  simp only [decode, hop, hbad, Bool.false_eq_true, if_false]

/-- NOP and YIELD carry no code: with one, their words decode to nothing (R98, R130). -/
theorem decode_nop_yield_of_code {w : Word} (hop : w.toNat / 2 ^ 25 = 0x1D ∨ w.toNat / 2 ^ 25 = 0x1E)
    (hcode : w.toNat % 2 ^ 25 ≠ 0) : decode w = none := by
  have hlow : (w.extractLsb' 0 25 == 0) = false := by
    refine beq_eq_false_iff_ne.mpr fun h => hcode ?_
    have hnat := congrArg BitVec.toNat h
    rwa [BitVec.extractLsb'_toNat, Nat.shiftRight_zero] at hnat
  rcases hop with h | h
  · have hnop : opOf w = some .nop := by rw [opOf, fOp_eq_div, h]; rfl
    exact decode_of_not_ok3 hnop hlow
  · have hyield : opOf w = some .yield := by rw [opOf, fOp_eq_div, h]; rfl
    exact decode_of_not_ok3 hyield hlow

/-! ## The instructions -/

theorem exec_trap {s : State} {c : BitVec 25} (hready : Ready (.trap c) s = true) :
    exec (.trap c) s = .next (takeTrap s cSWT (c.zeroExtend 64)) :=
  exec_takeTrap hready (op_trap c) rfl (M.bind_error (M.trap_apply ..))

theorem exec_nop {s : State} (hready : Ready .nop s = true) : exec .nop s = .next (finish s) :=
  exec_finish hready op_nop rfl (M.pure_apply ..)

theorem exec_yield {s : State} (hready : Ready .yield s = true) : exec .yield s = .next (finish s) :=
  exec_finish hready op_yield rfl (M.pure_apply ..)

/-- The effect of QDRAIN (R145). -/
def drainBody (a : Reg) : M Unit := do
  let s ← get
  if (s.th.queue a.toNat).isEmpty then pure ()
  else if pops s.strm a.toNat then trap cQDEAD (portBit a.toNat)
  else park (.drain a.toNat)

theorem exec_qdrain_issue (a : Reg) (s : State) :
    exec (.qdrain a) s = issueN .qdrain (encode (.qdrain a)) (drainBody a) s := rfl

theorem exec_qdrain_empty {s : State} {a : Reg} (hready : Ready (.qdrain a) s = true) (hq : s.th.queue a.toNat = []) :
    exec (.qdrain a) s = .next (finish s) := by
  have hbody : drainBody a s = .ok ((), s) := by
    simp only [drainBody, M.bind_apply, M.get_apply, hq, List.isEmpty_nil, if_true, M.pure_apply]
  exact exec_finish hready (op_qdrain a) (exec_qdrain_issue a s) hbody

theorem exec_qdrain_nonempty {s : State} {a : Reg} (hready : Ready (.qdrain a) s = true)
    (hq : s.th.queue a.toNat ≠ []) :
    exec (.qdrain a) s = .next (if pops s.strm a.toNat then takeTrap s cQDEAD (portBit a.toNat)
      else takePark s (.drain a.toNat)) := by
  have hbody : drainBody a s = .error (if pops s.strm a.toNat then .trap cQDEAD (portBit a.toNat)
      else .park (.drain a.toNat)) := by
    simp only [drainBody, M.bind_apply, M.get_apply, List.isEmpty_iff, hq, if_false]
    cases pops s.strm a.toNat <;> rfl
  rw [exec_qdrain_issue, issueN_stop hready (op_qdrain a) hbody]
  cases pops s.strm a.toNat <;> rfl

end Sys2Proof.Machine

open Sys2Proof Sys2Proof.Machine

/-- Settles O25: TRAP's own trap reports its code and its address; a code in a word of NOP or YIELD is a set bit that no
field uses; QDRAIN stops while its queue holds anything. -/
theorem trapNopYieldDrain : Obligations.TrapNopYieldDrain := by
  intro s
  refine ⟨fun c t hready ht => ?trap, rfl, rfl, fun c => rfl, fun w hop hcode => ?code, exec_nop, exec_yield,
    fun a hready hq => exec_qdrain_empty hready hq, fun a hready hq => exec_qdrain_nonempty hready hq⟩
  case trap =>
    subst ht
    obtain ⟨hcause, hinfo, hepc⟩ := takeTrap_reports s cSWT (c.zeroExtend 64)
    exact ⟨exec_trap hready, hcause, hinfo, hepc⟩
  case code => exact issueWord_of_decode_none (decode_nop_yield_of_code hop hcode) s

end

section
/-! Grants (R131, R132): their bounds, and what D makes of them. -/

namespace Sys2Proof.Machine

theorem vlmax_pos (vt : Nat) : 0 < vlmax vt := by
  unfold vlmax
  split <;> decide

/-- Without D a grant is the least of what remains, VLMAX and the arm limit (R132). -/
theorem grant_without_d (vt rem done arm : Nat) : grant vt rem done arm false = min rem (min (vlmax vt) arm) := rfl

/-- The three things a grant under D can be, of `g`, the grant without D: `g` itself where it is the last; cut back to end on
a chunk; or `g` where it reaches no chunk's end (R132). -/
theorem grant_d_cases (vt rem done arm : Nat) (g : Nat) (hg : g = min rem (min (vlmax vt) arm)) :
    (rem ≤ g ∧ grant vt rem done arm true = g) ∨
    (g < rem ∧ done < (done + g) / 256 * 256 ∧ grant vt rem done arm true = (done + g) / 256 * 256 - done) ∨
    (g < rem ∧ (done + g) / 256 * 256 ≤ done ∧ grant vt rem done arm true = g) := by
  subst hg
  unfold grant
  simp only [Bool.true_and, decide_eq_true_eq]
  split
  · next hlt =>
    split
    · next hreach => exact .inr (.inl ⟨hlt, hreach, rfl⟩)
    · next hreach => exact .inr (.inr ⟨hlt, Nat.not_lt.mp hreach, rfl⟩)
  · next hlast => exact .inl ⟨Nat.not_lt.mp hlast, rfl⟩

/-- A grant exceeds the least of its bounds neither with D nor without, and is 0 only where that is. -/
theorem grant_le_min (vt rem done arm : Nat) (d : Bool) :
    grant vt rem done arm d ≤ min rem (min (vlmax vt) arm) ∧
      (0 < min rem (min (vlmax vt) arm) → 0 < grant vt rem done arm d) := by
  cases d with
  | false => exact ⟨Nat.le_refl _, id⟩
  | true =>
    obtain ⟨-, hg⟩ | ⟨-, hreach, hg⟩ | ⟨-, -, hg⟩ := grant_d_cases vt rem done arm _ rfl
    · rw [hg]; exact ⟨Nat.le_refl _, id⟩
    · rw [hg]
      refine ⟨?_, fun _ => Nat.sub_pos_of_lt hreach⟩
      exact Nat.sub_le_iff_le_add'.mpr (Nat.div_mul_le_self _ 256)
    · rw [hg]; exact ⟨Nat.le_refl _, id⟩

end Sys2Proof.Machine

open Sys2Proof Sys2Proof.Machine

/-- Settles O26: the bounds are those of the least of the three limits, which a cut to a chunk only lowers; the cut ends on
a chunk. -/
theorem grantBounds : Obligations.GrantBounds := by
  intro vt rem done arm d
  obtain ⟨hle, hpos⟩ := grant_le_min vt rem done arm d
  obtain ⟨hrem, hrest⟩ := Nat.le_min.mp hle
  obtain ⟨hvlmax, harm⟩ := Nat.le_min.mp hrest
  refine ⟨hrem, hvlmax, harm, fun hr ha => hpos ?positive, fun hd => by rw [hd, grant_without_d], fun hd hlt => ?chunk⟩
  case positive => exact Nat.lt_min.mpr ⟨Nat.pos_of_ne_zero hr, Nat.lt_min.mpr ⟨vlmax_pos vt, Nat.pos_of_ne_zero ha⟩⟩
  case chunk =>
    subst hd
    obtain ⟨hlast, -⟩ | ⟨-, hreach, hg⟩ | ⟨-, hshort, hg⟩ := grant_d_cases vt rem done arm _ rfl
    · exact absurd hlt (Nat.not_lt.mpr hlast)
    · refine .inl ?_
      rw [hg, Nat.add_sub_cancel' (Nat.le_of_lt hreach), Nat.mul_mod_left]
    · refine .inr ⟨hg, ?_⟩
      rw [hg]
      exact hshort

end

section
/-! VLGET and VLOOP (R133, R134): the count read, the grant written, and the loop context opened. -/

namespace Sys2Proof.Machine
open Sys2Proof.Laws

theorem Thread.updStr_congr {t : Thread} {q : Strm} {f g : Stream → Stream} (h : f (t.str q) = g (t.str q)) :
    t.updStr q f = t.updStr q g := by
  cases q with
  | a => exact congrArg (fun c => { t with a := c }) h
  | x => exact congrArg (fun c => { t with x := c }) h

/-- A change of the issuing stream depends on what it makes of that stream alone. -/
theorem State.updCur_congr {s : State} {f g : Stream → Stream} (h : f s.cur = g s.cur) : s.updCur f = s.updCur g :=
  congrArg (fun t => { s with th := t }) (Thread.updStr_congr h)

/-- VLGET reads its count, sets vtype and vl, consumes the arm limit, and writes the grant (R133). -/
theorem exec_vlget {s s1 s2 : State} {d a : Reg} {k : BitVec 1} {t : BitVec 4} {n : Dword} {g : Nat}
    (hready : Ready (.vlget d a k t) s = true) (hn : rd a s = .ok (n, s1))
    (hg : g = grant t.toNat n.toNat 0 s1.cur.arm.toNat (forcedD s1 k))
    (hd : wr d (BitVec.ofNat 64 g) (s1.updCur fun c =>
      { c with vtype := t, arm := BitVec.allOnes 64, vl := BitVec.ofNat 64 g }) = .ok ((), s2)) :
    exec (.vlget d a k t) s = .next (finish s2) := by
  subst hg
  exact exec_finish hready (op_vlget d a k t) rfl
    ((M.bind_ok hn).trans ((M.bind_ok (M.get_apply s1)).trans ((M.bind_ok (M.updC_apply _ s1)).trans hd)))

/-- The loop context that a VLOOP opens where its stream stands, the next word its body (R134, R273). -/
def openedLoop (s : State) (n : Dword) (j k : BitVec 1) : LoopCtx :=
  ⟨s.cur.pc + 4, n, 0, forcedD s k, j == 1,
    if j == 1 && s.strm == .x && bodyOverlaps s (s.cur.pc + 4) 9 (s.cur.pc + 4) then some 0 else none⟩

/-- VLOOP reads its count and writes its grant as VLGET does, and opens the loop context as well (R134). -/
theorem exec_vloop {s s1 s2 : State} {d a : Reg} {j k : BitVec 1} {t : BitVec 4} {n : Dword} {g : Nat}
    (hready : Ready (.vloop d a j k t) s = true) (hn : rd a s = .ok (n, s1))
    (hg : g = grant t.toNat n.toNat 0 s1.cur.arm.toNat (forcedD s1 k))
    (hd : wr d (BitVec.ofNat 64 g) (s1.updCur fun c =>
      { c with vtype := t, arm := BitVec.allOnes 64, vl := BitVec.ofNat 64 g, loop := some (openedLoop s1 n j k) }) =
        .ok ((), s2)) :
    exec (.vloop d a j k t) s = .next (finish s2) := by
  subst hg
  refine exec_finish hready (op_vloop d a j k t) rfl
    ((M.bind_ok hn).trans ((M.bind_ok (M.get_apply s1)).trans ((M.bind_ok (M.updC_apply _ s1)).trans ?_)))
  refine Eq.trans (congrArg _ (State.updCur_congr ?_)) hd
  rfl

end Sys2Proof.Machine

open Sys2Proof Sys2Proof.Machine

/-- Settles O27: the read of the count leaves the stream, so that the arm limit and the PC are those the instruction found. -/
theorem grantsAndLoops : Obligations.GrantsAndLoops := by
  intro s s1 s2 d a j k t n g hg hn
  obtain ⟨hcur, hstrm⟩ := rd_cur hn
  rw [← hcur] at hg
  refine ⟨fun hready hd => exec_vlget hready hn hg hd, fun hready hd => exec_vloop hready hn hg ?_⟩
  rw [← hcur, ← hstrm] at hd
  exact hd

end

section
/-! Words written out from the encodings (R116, R119, R124, R131, R138, R141, R143). -/

open Sys2Proof Sys2Proof.Machine

/-- Settles O3: each word is decoded by evaluation, which is all a closed fact of the decoder asks. -/
theorem decodeWords : Obligations.DecodeWords := by
  unfold Obligations.DecodeWords
  decide +kernel

end
